-- ==== Sys2Proof/Word.lean ====
section
/-! DEFINITION. The word types of the machine (01 R24, R25) and their plainest arithmetic. -/

namespace Sys2Proof

/-- A byte of memory. -/
abbrev Byte := BitVec 8

/-- A 32-bit register value or parcel (01 R24, 02 R34). -/
abbrev Word := BitVec 32

/-- A 64-bit register pair, virtual address or counter (01 R25, 02 R49). -/
abbrev DWord := BitVec 64

/-- A lane mask of up to 1,024 lanes: bit L is lane L (01 R17). -/
abbrev Mask := BitVec 1024

/-- The low half of a 64-bit value. -/
def lo32 (x : DWord) : Word := x.setWidth 32

/-- The high half of a 64-bit value. -/
def hi32 (x : DWord) : Word := (x >>> 32).setWidth 32

/-- A 64-bit value from its halves, the low half in the even register (02 R49). -/
def pair32 (lo hi : Word) : DWord := (hi.setWidth 64 <<< 32) ||| lo.setWidth 64

/-- The value of a Boolean as a number. -/
def b2n (b : Bool) : Nat := if b then 1 else 0

/-- Bit `i` of a natural number. -/
def natBit (x i : Nat) : Bool := x / 2 ^ i % 2 == 1

/-- Bits [lo + w - 1 : lo] of a natural number (00 R1). -/
def natField (x lo w : Nat) : Nat := x / 2 ^ lo % 2 ^ w

/-- Reads `w` bits as two's complement. -/
def natToInt (x w : Nat) : Int := if x % 2 ^ w < 2 ^ (w - 1) then (x % 2 ^ w : Nat) else (x % 2 ^ w : Nat) - (2 ^ w : Nat)

/-- An integer modulo 2^w as a natural number. -/
def intToNat (x : Int) (w : Nat) : Nat := (x % (2 ^ w : Nat)).toNat

/-- The mask with exactly bit L set. -/
def Mask.bit (L : Nat) : Mask := BitVec.ofNat 1024 (2 ^ L)

/-- The mask of lanes 0 to n - 1. -/
def Mask.upTo (n : Nat) : Mask := BitVec.ofNat 1024 (2 ^ n - 1)

/-- Whether lane L is in the mask. -/
def Mask.has (m : Mask) (L : Nat) : Bool := m.getLsbD L

/-- Whether the mask holds no lane. -/
def Mask.isEmpty (m : Mask) : Bool := m == 0

/-- The lanes of a mask below n, ascending. -/
def Mask.lanes (m : Mask) (n : Nat) : List Nat := (List.range n).filter (m.has ·)

/-- The number of lanes of a mask below n. -/
def Mask.count (m : Mask) (n : Nat) : Nat := (m.lanes n).length

/-- The mask of a list of lanes. -/
def Mask.ofLanes (ls : List Nat) : Mask := ls.foldl (fun m L => m ||| Mask.bit L) 0

/-- Removes the lanes of x from m. -/
def Mask.diff (m x : Mask) : Mask := m &&& ~~~x

end Sys2Proof
end

