-- ==== Sys2Proof/Config.lean ====
section
/-! DEFINITION. What one implementation fixes and the values the spec leaves open. A free value is an opaque constant:
nothing in Lean evaluates it, so a statement about it holds whatever it is. Each is applied to the step counter of the
state, to an index within the step, or to the operands it depends on. All of them are DESIGN CHOICE: log entries 4, 15 to
19, 21, 23, 24, 26, 44, 52, 61, 70 and 90. -/

namespace Sys2Proof.Config

/-- Cycles that pass in step `tick` beyond one (timing is not modelled; DESIGN CHOICE, log entry 4). -/
opaque extraCycles : Nat → Nat

/-- The offset of a die's cycle counter (01 R22): the counters of the dies are not said to agree. -/
opaque clockOffset : Nat → DWord

/-- A word that "gives an undefined value" (00 R5): the n-th one of a step. -/
opaque freeWord : (tick n : Nat) → Word

/-- A byte that "gives an undefined value". -/
opaque freeByte : (tick n : Nat) → Byte

/-- A choice among alternatives that the hardware makes. -/
opaque freeNat : (tick n : Nat) → Nat

/-- `%lane` read by a uniform instruction: the spec gives it no value there. -/
opaque laneInUniform : (tick : Nat) → Word

/-- Which of the two neighbours of the exact value a faithful function returns (05 R143): by function, format, input. -/
opaque faithfulUp : (fn fmt input : Nat) → Bool

/-- The error, in units of the last place or of the bound, of an approximate function on one input (05 R143). -/
opaque approxError : (fn fmt input : Nat) → Int

/-- Whether the box test of a unit accepts a box that the exact test rejects (15 R397). -/
opaque boxExtra : (tick n : Nat) → Bool

/-- AES-256-GCM of a context image (16 R449): key, IV, associated data, plaintext bytes, to ciphertext and tag as numbers. -/
opaque gcmSealed : (key : Nat) → (iv : List Byte) → (aad : List Byte) → (plain : List Byte) → Nat × Nat

/-- AES-256-GCM opening: the plaintext when the tag holds (16 R451). -/
opaque gcmOpen : (key : Nat) → (iv : List Byte) → (aad : List Byte) → (cipher tag : List Byte) → Option (List Byte)

/-- The first n bytes of SHAKE256 as a number (17 R489 to R492). -/
opaque shakeOut : (input : List Byte) → (n : Nat) → Nat

/-- An XMSS signature (RFC 8391) with the one-time index given, as a number (17 R491). -/
opaque xmssSigned : (index : Nat) → (message : List Byte) → Nat

/-- ML-KEM-1024 decapsulation under the key pair of a reset epoch (17 R493). -/
opaque kemShared : (epoch : Nat) → (cipher : List Byte) → Nat

/-- The ML-KEM-1024 encapsulation key of a reset epoch, as a number (17 R493). -/
opaque kemKey : (epoch : Nat) → Nat

/-- The boot firmware (0) and the scheduling firmware (1), of which a report gives digests (17 R492). -/
opaque firmware : (which : Nat) → List Byte

end Sys2Proof.Config
end

