-- ==== Sys2Proof/Syntax.lean ====
section
/-! DEFINITION. The instructions of the Silad set and the events of the machine: one constructor of `Instr` per row of
spec/opcode_table.json. Operand forms follow 02 R48 to R54, sub-ops and modifiers the entry of each instruction.
Rows of the table that have no encoding (completions, messages, commands, resets) are events; they carry what the
event names. -/

namespace Sys2Proof

/-! ### Operands (02 R48, R50, R54) -/

/-- Special operands, specifiers 0xC8 to 0xD2 (02 R48, 01 R22). -/
inductive Special where
  | lane | team | core | quad | die | pkg | pod | lanes | frame | clkLo | clkHi
  deriving DecidableEq, Repr

/-- A source operand (02 R48). `k n` is the inline constant 0xE0 + n (R50); `imm` is the parcel-3 immediate that stands
for source B in a 96-bit form (R46); `none` is 0xFF, zero as a source. -/
inductive Src where
  | v (n : BitVec 7)
  | s (n : BitVec 6)
  | sp (x : Special)
  | k (n : BitVec 4)
  | imm (w : Word)
  | none
  deriving DecidableEq, Repr

/-- A destination operand; `none` is 0xFF, discard (02 R48). -/
inductive Dst where
  | v (n : BitVec 7)
  | s (n : BitVec 6)
  | none
  deriving DecidableEq, Repr

/-- A destination that may also be a predicate (07 R181, R184). -/
inductive PDst where
  | v (n : BitVec 7)
  | s (n : BitVec 6)
  | p (n : BitVec 3)
  | none
  deriving DecidableEq, Repr

/-- Predicates p0 to p7 (02 R48). -/
abbrev PredIx := BitVec 3

/-- The guard predicate and its negate bit (02 R54). -/
structure Guard where
  neg : Bool
  p   : PredIx
  deriving DecidableEq, Repr

/-- GUARD = 0b111, GN = 0: unguarded. -/
def Guard.always : Guard := ⟨false, 7⟩

/-- Integer operand types (02 R52). -/
inductive IType where
  | i32 | n32 | b32 | i64 | n64 | i16x2 | n8x4
  deriving DecidableEq, Repr

/-- Floating-point operand types (02 R52). -/
inductive FType where
  | f32 | f16x2 | bf16x2 | f64
  deriving DecidableEq, Repr

/-- Scopes (02 R47, 01 R21). -/
inductive Scope where
  | team | core | quad | die | pkg | pod | sys
  deriving DecidableEq, Repr

/-- Access orders (09 R239, 10 R254). -/
inductive Order where
  | plain | acq | rel | acqrel | sc
  deriving DecidableEq, Repr

/-- Access widths of 1, 2, 4, 8 and 16 bytes (08 R211). -/
inductive Width where
  | w8 | w16 | w32 | w64 | w128
  deriving DecidableEq, Repr

/-- The handle of a memory operand: an index `hN`, or a scalar register with a handle word `hsK` (08 R193, R211). -/
inductive HRef where
  | idx (i : BitVec 12)
  | word (s : BitVec 6)
  deriving DecidableEq, Repr

/-- A memory operand (08 R211). `long` is the 128-bit form, whose offset has 32 bits. -/
structure MemRef where
  off  : Src
  o64  : Bool
  h    : HRef
  imm  : Word
  long : Bool
  deriving DecidableEq, Repr

/-- A record operand with a 20-bit signed offset (13 R344, 14 R382, 15 R408, 17 R470). -/
structure RecRef where
  off : Src
  h   : HRef
  imm : BitVec 20
  deriving DecidableEq, Repr

/-! ### Operand groups shared by many instructions -/

/-- Operands of an integer instruction (04 R106). -/
structure Alu where
  g  : Guard
  ty : IType
  d  : Dst
  a  : Src
  b  : Src
  c  : Src
  deriving DecidableEq, Repr

/-- Operands of a floating-point instruction (05 R135). -/
structure Fpu where
  g   : Guard
  ty  : FType
  rs  : BitVec 3
  sat : Bool
  d   : Dst
  a   : Src
  b   : Src
  c   : Src
  deriving DecidableEq, Repr

/-- How a comparison combines with a predicate, MOD[1:0] and SRCC (04 R116). -/
inductive Combine where
  | none
  | and (p : PredIx)
  | or (p : PredIx)
  | xor (p : PredIx)
  deriving DecidableEq, Repr

/-- Operands of a quantisation instruction with its format slot (06 R165). -/
structure Narrow where
  g    : Guard
  slot : BitVec 3
  d    : Dst
  a    : Src
  b    : Src
  deriving DecidableEq, Repr

inductive BraCond where
  | always
  | z (s : BitVec 6)
  | nz (s : BitVec 6)
  deriving DecidableEq, Repr

/-- One pair of `brm` (03 R86). -/
structure BrmPair where
  p   : PredIx
  neg : Bool
  off : BitVec 12
  deriving DecidableEq, Repr

inductive CallTarget where
  | direct (off : Word)
  | ind (s : BitVec 6)
  deriving DecidableEq, Repr

inductive BcntOp where
  | popc | clz | ctz
  deriving DecidableEq, Repr

inductive BitfOp where
  | ext | ins | rev
  deriving DecidableEq, Repr

/-- Conditions of `setp` (04 R116). -/
inductive ICond where
  | eq | ne | lt | le | gt | ge | tst | ntst
  deriving DecidableEq, Repr

/-- Conditions of `fsetp` (05 R141). -/
inductive FCond where
  | eq | ne | lt | le | gt | ge | num | nan
  deriving DecidableEq, Repr

/-- Functions of `plog` (04 R117). -/
inductive PlogOp where
  | and | or | xor | andn | orn | not
  deriving DecidableEq, Repr

inductive MovImm where
  | i32 (w : Word)
  | i64 (w : DWord)
  deriving DecidableEq, Repr

inductive ExtOp where
  | sext (n : BitVec 6)
  | zext (n : BitVec 6)
  | trunc
  deriving DecidableEq, Repr

inductive CsubForm where
  | p (pc : PredIx)
  | ge (pq : PredIx)
  deriving DecidableEq, Repr

inductive FabsOp where
  | abs | neg | cpsgn
  deriving DecidableEq, Repr

inductive FscalOp where
  | ldexp | mant | exp
  deriving DecidableEq, Repr

inductive ShflMode where
  | idx | up | down | xor
  deriving DecidableEq, Repr

/-- What `vote` reads (07 R184). -/
inductive VoteOp where
  | any (p : PredIx)
  | all (p : PredIx)
  | uni (p : PredIx)
  | eq (a : Src)
  deriving DecidableEq, Repr

inductive BallotOp where
  | word (w : Src)
  | wv
  | cnt
  deriving DecidableEq, Repr

/-- Operations of `tred` and `tscan` with their types (07 R186). -/
inductive RedOp where
  | add (t : IType) | min (t : IType) | max (t : IType)
  | and (t : IType) | or (t : IType) | xor (t : IType)
  | fadd (t : FType) | fmin (t : FType) | fmax (t : FType)
  deriving DecidableEq, Repr

/-- Operations of `atom` and `red` with their types (10 R259). -/
inductive AtomOp where
  | add (t : IType) | min (t : IType) | max (t : IType)
  | and (t : IType) | or (t : IType) | xor (t : IType)
  | xchg (t : IType) | inc (t : IType)
  | fadd (t : FType) | fmin (t : FType) | fmax (t : FType)
  deriving DecidableEq, Repr

/-- Fields common to `ld`, `st`, `ldro`, `lds`, `sts`, `pf` (08 R212). -/
structure MemAcc where
  g     : Guard
  fs    : Bool
  w     : Width
  ord   : Order
  scope : Scope
  m     : MemRef
  deriving DecidableEq, Repr

inductive PfLevel where
  | l2 | l1 | ro
  deriving DecidableEq, Repr

inductive FlushOp where
  | wb | inv | wbinv
  deriving DecidableEq, Repr

inductive QueryOp where
  | info | len
  deriving DecidableEq, Repr

/-- Fields common to `atom`, `cas` and `red` (10 R257). -/
structure AtomAcc where
  g     : Guard
  fs    : Bool
  ord   : Order
  scope : Scope
  m     : MemRef
  deriving DecidableEq, Repr

/-- Comparisons of `waitaddr` (10 R269). -/
inductive WaitCmp where
  | eq | ne | lt | ge | sge
  deriving DecidableEq, Repr

/-- The ksave set selected by SUB (16 R461). -/
inductive KsaveSet where
  | vlo | vhi | s | p
  deriving DecidableEq, Repr

inductive TlbiOp where
  | va | ctx | vm | gpa | all
  deriving DecidableEq, Repr

/-- Forms of `coll` (13 R353). -/
inductive CollForm where
  | allgather | redscat | alltoall | allred | p2p
  deriving DecidableEq, Repr

inductive CollRed where
  | add | min | max
  deriving DecidableEq, Repr

/-- The element type of `coll`: an integer type, or a float type with MOD[3] = 1 (13 R353). -/
inductive CollType where
  | int (t : IType)
  | flt (t : FType)
  deriving DecidableEq, Repr

/-- A clause header whose reserved field is zero (02 R40). -/
structure Header where
  region : BitVec 16
  gap    : BitVec 4
  count  : BitVec 4
  setb   : BitVec 4
  seta   : BitVec 4
  wait   : BitVec 12
  kind   : BitVec 2
  deriving DecidableEq, Repr

/-! ### What events name -/

/-- A fault queue: a context's own, or the stage-2 queue of a virtual machine (16 R422). -/
inductive QueueId where
  | ctx (id : Word)
  | vm (id : BitVec 16)
  deriving DecidableEq, Repr

/-- Agents with a response deadline (11 R295). -/
inductive Agent where
  | die (n : Nat) | port (n : Nat) | cxl (n : Nat) | host
  deriving DecidableEq, Repr

/-- A requester of a home (11 R294): a core, for tenure and for lines of its own die, or the caching slice of a die. -/
inductive Requester where
  | core (die core : Nat)
  | slice (die slice : Nat)
  | remotePkg (pkg : Nat)
  | host
  deriving DecidableEq, Repr

/-- The place where a queued launch waits: hardware queue q, or the spawn queue of a die (17 R467, R472). -/
inductive QSrc where
  | queue (q : Nat)
  | spawn (die : Nat)
  deriving DecidableEq, Repr

/-- A barrier's name (10 R262): grid, scope, instance number of that scope, id. -/
structure BarKey where
  grid  : Word
  scope : Scope
  inst  : Nat
  id    : Nat
  deriving DecidableEq, Repr

/-- What a generator serves (14 R366): a procedural range or a Shading Cache layer of a context. -/
inductive GenKey where
  | range (ctx : Word) (n : Nat)
  | layer (ctx : Word) (n : Nat)
  deriving DecidableEq, Repr

/-- A line message between a requester and the home directory of a line on die `home` (11 R293): `line` is the
physical address divided by 128; `seq` is the grant sequence a reply or probe carries (R294) and `rseq` the reply
sequence a forward probe assigns (20 R517); `dirty` says that dirty data travels with it. -/
structure LineMsg where
  home  : Nat
  peer  : Requester
  line  : Nat
  seq   : BitVec 4
  rseq  : BitVec 4
  dest  : Requester
  dirty : Bool
  excl  : Bool
  deriving DecidableEq, Repr

/-- A tile message to the home directory: the commanding team and the tile handle word (11 R287, R293). -/
structure TileMsg where
  uid  : Nat
  word : Word
  deriving DecidableEq, Repr

/-- Where an error of on-die storage lies: the die, and the team that owns the region (08 R228). -/
structure EccSite where
  die : Nat
  uid : Nat
  deriving DecidableEq, Repr

/-- A correctable error of a die, and the line of a core's read-only cache that it drops, if any (08 R227). -/
structure EccLine where
  die  : Nat
  drop : Option (Nat × Nat)
  deriving DecidableEq, Repr

/-- A binding record (17 R469) with the die of its slot; LREC is what it names (DESIGN CHOICE, log entry 61). -/
structure BindRec where
  grid    : Word
  team    : Word
  a       : Nat
  b       : Nat
  d       : Nat
  e       : Nat
  g       : Nat
  slot    : Nat
  core    : Nat
  die     : Nat
  restore : Bool
  ctx     : Word
  valid   : Bool := true
  lrec    : DWord := 0
  deriving DecidableEq, Repr

/-! ### Instructions and events -/

/-- One constructor per row of spec/opcode_table.json. -/
inductive Instr where
  -- control (03)
  | nop
  | bra (c : BraCond) (off : Word)
  | brv (p : PredIx) (neg : Bool) (taken join : Word)
  | brm (pairs : List BrmPair) (join : BitVec 12)
  | join
  | brk (g : Guard) (n : BitVec 8)
  | cont (g : Guard) (n : BitVec 8)
  | call (t : CallTarget)
  | ret
  | exit (g : Guard)
  | reorder (signed : Bool) (k : BitVec 7)
  | loop (off : Word)
  | next (p : PredIx) (neg : Bool)
  | spin
  -- integer (04)
  | add (x : Alu) (sat : Bool)
  | sub (x : Alu) (sat : Bool)
  | mul (x : Alu)
  | mulhi (x : Alu)
  | mad (x : Alu) (sat : Bool)
  | min (x : Alu)
  | max (x : Alu)
  | absn (x : Alu) (neg sat : Bool)
  | and (x : Alu) (inv : Bool)
  | or (x : Alu) (inv : Bool)
  | xor (x : Alu) (inv : Bool)
  | shl (x : Alu)
  | shr (x : Alu)
  | rot (x : Alu) (right : Bool)
  | bcnt (x : Alu) (op : BcntOp)
  | bitf (x : Alu) (op : BitfOp)
  | setp (g : Guard) (ty : IType) (cond : ICond) (comb : Combine) (pd : PredIx) (a b : Src)
  | sel (x : Alu) (pc : PredIx)
  | plog (g : Guard) (op : PlogOp) (pd pa pb : PredIx)
  | mov (x : Alu)
  | movi (g : Guard) (ty : IType) (d : Dst) (imm : MovImm)
  | lea (x : Alu) (x32 : Bool) (sh : BitVec 5)
  | div (x : Alu) (rem nz : Bool)
  | ext (x : Alu) (op : ExtOp)
  | addc (x : Alu) (ci : Option PredIx) (co : PredIx)
  | subb (x : Alu) (bi : Option PredIx) (bo : PredIx)
  | mulw (x : Alu)
  | csub (x : Alu) (form : CsubForm)
  | clamp (x : Alu)
  -- floating point (05)
  | fadd (x : Fpu)
  | fsub (x : Fpu)
  | fmul (x : Fpu)
  | fma (x : Fpu)
  | fmin (x : Fpu)
  | fmax (x : Fpu)
  | fabsn (x : Fpu) (op : FabsOp)
  | fsetp (g : Guard) (ty : FType) (cond : FCond) (comb : Combine) (pd : PredIx) (a b : Src)
  | frcp (x : Fpu)
  | frsq (x : Fpu)
  | fsqrt (x : Fpu)
  | fexp2 (x : Fpu)
  | flog2 (x : Fpu)
  | fsincos (x : Fpu)
  | fdiv (x : Fpu)
  | fclass (x : Fpu)
  | cvtif (x : Fpu) (src : IType)
  | cvtfi (x : Fpu) (dst : IType)
  | cvtff (x : Fpu) (src : FType) (hi : Bool)
  | frnd (x : Fpu)
  | fscal (x : Fpu) (op : FscalOp)
  | dot2 (x : Fpu)
  -- narrow formats (06)
  | qscale (x : Narrow)
  | quant (x : Narrow)
  | dequant (x : Narrow)
  | qpack (x : Narrow)
  | qunpack (x : Narrow)
  | fmtq (x : Narrow)
  | rngNext (g : Guard) (d : Dst)
  | rngUnif (g : Guard) (d : Dst)
  | rngSeed (g : Guard) (a : Src)
  -- cross-lane (07)
  | shfl (g : Guard) (mode : ShflMode) (wide : Bool) (d : Dst) (a b : Src) (rec : Option PredIx)
  | vote (g : Guard) (d : PDst) (op : VoteOp)
  | ballot (g : Guard) (d : Dst) (p : PredIx) (op : BallotOp)
  | tred (g : Guard) (op : RedOp) (rs : BitVec 3) (d : Dst) (a : Src)
  | tscan (g : Guard) (op : RedOp) (excl : Bool) (d : Dst) (a : Src)
  | bcast (g : Guard) (wide : Bool) (d : Dst) (a n : Src)
  -- memory (08)
  | ld (x : MemAcc) (sx : Bool) (d : Dst)
  | st (x : MemAcc) (c : Src)
  | ldro (x : MemAcc) (sx : Bool) (d : Dst)
  | lds (x : MemAcc) (sx : Bool) (d : Dst)
  | sts (x : MemAcc) (c : Src)
  | samp (g : Guard) (fs : Bool) (d : Dst) (u v q : Src) (h : HRef)
  | pf (x : MemAcc) (level : PfLevel)
  | hmap (fs : Bool) (d : Dst) (m : BitVec 6) (r : MemRef)
  | hflush (fs : Bool) (op : FlushOp) (h : HRef)
  | hquery (g : Guard) (op : QueryOp) (d : Dst) (h : HRef)
  -- atomics, barriers, waits (09, 10)
  | atom (x : AtomAcc) (op : AtomOp) (d : Dst) (c : Src)
  | cas (x : AtomAcc) (ty : IType) (d : Dst) (c : Src)
  | red (x : AtomAcc) (op : AtomOp) (c : Src)
  | barSync (scope : Scope) (id : BitVec 8) (n : Src)
  | barArv (scope : Scope) (id : BitVec 8) (d : Dst) (n : Src)
  | barWait (scope : Scope) (id : BitVec 8) (tok : Src)
  | waitaddr (cmp : WaitCmp) (ty : IType) (acq : Bool) (scope : Scope) (d : Dst) (off : Src) (o64 : Bool) (h : HRef)
      (imm : BitVec 20) (c : Src) (timeout : Word)
  | cbputAcq (d : Dst) (k : BitVec 8)
  | cbputCom (k : BitVec 8)
  | cbget (d : Dst) (k : BitVec 8)
  | cbrel (k : BitVec 8)
  | fenceAcq (scope : Scope)
  | fenceRel (scope : Scope)
  | fenceAcqrel (scope : Scope)
  | fenceSc (scope : Scope)
  | fenceRo (scope : Scope)
  | fenceOpr (scope : Scope)
  | fenceComplete (uid : Nat)
  | waitf (any : Bool) (m : BitVec 12) (d : Dst)
  | sig (fs : Bool) (set eng wide : Bool) (scope : Scope) (m : MemRef) (v : Src)
  | cbinit (k : BitVec 8) (h : BitVec 12) (size count : Src)
  -- tiles (11)
  | tdecl (fs : Bool) (r : RecRef) (hb : HRef)
  | tdeclRm (fs : Bool) (hb : HRef)
  | ttile (d : Dst) (r : RecRef) (hb : HRef)
  | topenR (t : Src)
  | topenW (t : Src)
  | topenWRecall (t : Src)
  | tseal (fs : Bool) (t : Src)
  | tdrop (fs : Bool) (t : Src)
  | tsplit (d : Dst) (t k c : Src)
  | tfree (t : Src)
  | tquery (d : Dst) (t : Src)
  -- matrix (12)
  | menq (fs : Bool) (slot : BitVec 3) (d : Dst) (k : BitVec 6)
  | mwaitId (d : Dst) (t : Src)
  | mwaitFlag (fs : Bool) (t : Src)
  | mwld (fs : Bool) (slot : BitVec 3) (d : Dst) (t ts : Src)
  | mwrel (r : Src)
  | macz (fs : Bool) (t : Src)
  | macrd (g : Guard) (fs raw : Bool) (slot : BitVec 3) (d : Dst) (t row col : Src)
  | wsld (fs : Bool) (slot : BitVec 3) (img : BitVec 13) (t ts : Src)
  | wsinfoCal (d : Dst) (e : Src)
  | wsinfoNow (d : Dst)
  | mquery (d : Dst) (t : Src)
  -- copies and collectives (13)
  | dcopy (fs : Bool) (scope : Scope) (r : RecRef)
  | dfill (fs : Bool) (scope : Scope) (wide : Bool) (r : RecRef) (v : Src)
  | grpMake (d : Dst) (key n rank : Src)
  | grpFree (g : Src)
  | grpInfo (d : Dst) (g : Src)
  | coll (fs : Bool) (form : CollForm) (op : CollRed) (ty : CollType) (src dst : Src) (grp : Src) (hs hd : BitVec 12)
      (n : Word)
  | gbarSync (g : Src)
  | gbarArv (fs : Bool) (g : Src)
  -- fill and shading (14)
  | sclook (g : Guard) (fs : Bool) (d : Dst) (a : Src)
  | scwait (g : Guard) (d : Dst) (a : Src)
  | scfill (fs : Bool) (item : Src)
  | scinv (fs : Bool) (obj tag : Src)
  | frameCtx (d : Dst)
  | frameTag (d : Dst) (tag : Src)
  | gtake (k : BitVec 6)
  | pfill (fs : Bool) (item : Src)
  | pfail (fs : Bool) (item st : Src)
  | prangeAdd (fs : Bool) (r : RecRef) (hw : Src)
  | prangeRm (fs : Bool) (hw : Src)
  | prangeClr (fs : Bool) (hw : Src)
  | prangeLayer (fs : Bool) (r : RecRef) (n : Src)
  -- rays and raster (15)
  | rtrace (fs first : Bool) (sr n sh : Src) (hr hs hh : BitVec 12)
  | rsort (fs first : Bool) (sr n sh : Src) (hr hs hh : BitVec 12)
  | rhit (g : Guard) (short : Bool) (d : Dst) (i : Src) (h : BitVec 12) (imm : BitVec 20) (rec : Option PredIx)
  | rhitCnt (d : Dst)
  | rprog (fs : Bool) (kind : BitVec 8) (r : RecRef)
  | visJob (fs : Bool) (d : Dst) (r : RecRef)
  | visGet (g : Guard) (d : Dst) (job : Src) (rec : Option PredIx)
  -- system (16)
  | trap (n : BitVec 8)
  | rfe
  | csrr (wide : Bool) (d : Dst) (csr : BitVec 12)
  | csrw (d : Dst) (a : Src) (csr : BitVec 12)
  | yield
  | ksave (set : KsaveSet) (m : DWord)
  | tlbi (fs : Bool) (op : TlbiOp) (scope : Scope) (a : Src)
  | bkpt (n : BitVec 8)
  -- launch (17)
  | spawn (fs : Bool) (d : Dst) (r : RecRef) (shape : Src)
  | qpost (fs : Bool) (q : BitVec 8) (r : RecRef)
  | qwaitDone (d : Dst) (n : Src) (q : BitVec 8)
  | qwaitSpace (d : Dst) (q : BitVec 8)
  -- events of teams, memory and faults
  | qwaitWake (uid : Nat)
  | clauseStart (h : Header)
  | waitfWake (uid : Nat)
  | loadComplete (op : Nat)
  | storeComplete (op : Nat)
  | atomicComplete (op : Nat)
  | sigPerform (op : Nat)
  | mapFillComplete (uid : Nat)
  | hmapComplete (op : Nat)
  | l2FillArrival (die line : Nat)
  | nackRetryResend (op : Nat)
  | faultRecordWrite (q : QueueId)
  | stopRecord (uid : Nat)
  | budgetExpiry (ctx : Word)
  | saveComplete (ctx : Word)
  | gridCompletion (grid : Word)
  | scheduleLaunch (part : Nat) (src : QSrc) (cores : List (Nat × Nat))
  | bindRecord (r : BindRec)
  | gridRelease (grid : Word)
  | barrierRelease (k : BarKey)
  | watchFire (uid : Nat)
  | watchPoll (uid : Nat)
  | waitaddrTimeout (uid : Nat)
  | cbWake (uid : Nat)
  | cbDeferredUpdate (op : Nat)
  | groupFormed (ctx : Word) (key : Word)
  | copyStart (op : Nat)
  | copyComplete (op : Nat)
  | collComplete (ctx : Word) (group k : Nat)
  | gbarComplete (ctx : Word) (group k : Nat)
  | taskReady (die id : Nat)
  | taskDispatch (die id : Nat)
  | taskComplete (die id : Nat)
  | partialMerge (die id line : Nat)
  | mwldComplete (op : Nat)
  | residencyRelease (die entry : Nat)
  | wsldComplete (op : Nat)
  | generatorStart (die : Nat) (k : GenKey)
  | generatorFailure (uid : Nat)
  | framePoolGrant (die item : Nat)
  | heldLookupRelease (uid : Nat)
  | sclookAnswer (op : Nat)
  | scwaitWake (uid : Nat)
  | shadingCommit (op : Nat)
  | furrowRelease (die : Nat)
  | rayBatchComplete (op : Nat)
  | visJobComplete (die job : Nat)
  -- coherence messages (11)
  | tileRecordFetch (ctx : Word) (tile : Nat)
  | tileOpenReq (m : TileMsg) (write recl : Bool)
  | sealReq (m : TileMsg)
  | dropReq (m : TileMsg)
  | splitReq (m : TileMsg) (k c : Word)
  | freeReq (m : TileMsg)
  | dataRsp (m : LineMsg)
  | forwardedData (m : LineMsg)
  | grant (m : LineMsg)
  | nackRetry (op : Nat)
  | errorRsp (op : Nat)
  | inv (m : LineMsg)
  | forwardShared (m : LineMsg)
  | forwardExclusive (m : LineMsg)
  | backInv (m : LineMsg)
  | invAck (m : LineMsg)
  | forwardAck (m : LineMsg)
  | backInvAck (m : LineMsg)
  | grantAck (m : LineMsg)
  | readShared (m : LineMsg)
  | readExclusive (m : LineMsg)
  | upgrade (m : LineMsg)
  | writeBack (m : LineMsg)
  | illopPattern (hdr uni : Bool) (opc : BitVec 8)
  -- events that only the outside brings: answers, errors, the host, management, resets
  | answerRetry (q : QueueId) (seq : Word)
  | answerFail (q : QueueId) (seq : Word)
  | answerRestart (q : QueueId) (seq : Word)
  | answerContinue (q : QueueId) (seq : Word)
  | answerKill (q : QueueId) (seq : Word)
  | answerHalt (q : QueueId) (seq : Word)
  | answerIgnored (q : QueueId) (seq : Word) (action : BitVec 4)
  | eccScratchError (site : EccSite) (source : BitVec 2) (word : BitVec 18)
  | eccCorrectable (e : EccLine)
  | l2Poison (line : Nat)
  | agentDeadlineMiss (a : Agent)
  | die0Dead
  | pageWalkComplete (uid : Nat) (va : DWord) (write : Bool)
  | sliceEnd (ctx : Word)
  | watchdogExpiry (op : Nat)
  | cimParityError (die core : Nat)
  | weightStoreUncorrectableError (die image : Nat)
  | hostRingEntry (part q : Nat)
  | claim (m : BitVec 2)
  | handover (m target : BitVec 2)
  | release (m : BitVec 2)
  | handoverLapse
  | heartbeat (m : BitVec 2)
  | heartbeatMiss (m : BitVec 2)
  | aclclr (m : BitVec 2)
  | pwrcap (m : BitVec 2) (v : Word)
  | registerWrite (m : BitVec 2) (off : Nat) (wide : Bool) (v : DWord)
  | setctx (m : BitVec 2)
  | endctx (m : BitVec 2)
  | setpart (m : BitVec 2)
  | setkey (m : BitVec 2)
  | delkey (m : BitVec 2)
  | restore (m : BitVec 2)
  | mailboxBadarg (m : BitVec 2) (cmd : BitVec 8)
  | report (m : BitVec 2)
  | kemkey (m : BitVec 2)
  | powerOn (sigOk versionOk : Bool)
  | warmReset
  | functionLevelReset (pf : BitVec 2)
  | coldReset
  | linkPortRetrain (port : Nat)
  | cxlPortReset (port : Nat)
  | clockLower (die : Nat) (clk : BitVec 8)
  | thermalShutdown
  | powerLoss (signing : Bool)
  -- further events of the machine's own
  | tlbiComplete (op : Nat)
  | prangeComplete (op : Nat)
  | maczComplete (op : Nat)
  | scinvComplete (op : Nat)
  | rprogInstall (op : Nat)
  | tileOpComplete (op : Nat)
  | tileRequestRetry (uid : Nat)
  | refreshWindowEnd (die : Nat)
  | topenWStarvationHold (ctx : Word) (tile : Nat)
  | visGetWake (uid : Nat)
  | harvest (die : Nat)
  | copy (die : Nat)
  | switch (die : Nat) (busy : Bool)
  | migrationDone (die : Nat)
  deriving DecidableEq, Repr

end Sys2Proof
end

