-- ==== Sys2Proof/WellFormed.lean ====
section
/-! DEFINITION. Which terms of `Instr` are instructions of the set: the operand kinds, types, roundings, sub-ops and
guards that each entry admits (02 R45 to R54 and the encoding rule of each class). A pattern whose term is not
well formed faults with ILLOP (02 R56). Register numbers are checked against the team's allocation at issue (R24). -/

namespace Sys2Proof

/-! ### Operands -/

def Src.isVec : Src → Bool
  | .v _ => true
  | _ => false

/-- A scalar register. -/
def Src.isS : Src → Bool
  | .s _ => true
  | _ => false

def Src.isNone : Src → Bool
  | .none => true
  | _ => false

def Src.isImm : Src → Bool
  | .imm _ => true
  | _ => false

def Src.isConst : Src → Bool
  | .k _ => true
  | _ => false

/-- A team-uniform operand (02 R51). -/
def Src.isUni (x : Src) : Bool := !x.isVec

/-- An operand in a 64-bit position (02 R49): an even register, or anything but the high half of the clock. -/
def Src.ok64 : Src → Bool
  | .v n => n.toNat % 2 == 0
  | .s n => n.toNat % 2 == 0
  | .sp .clkHi => false
  | _ => true

/-- The first of four registers (08 R197). -/
def Src.ok128 : Src → Bool
  | .v n => n.toNat % 4 == 0
  | .s n => n.toNat % 4 == 0
  | .none => true
  | _ => false

/-- An even scalar pair. -/
def Src.isSPair : Src → Bool
  | .s n => n.toNat % 2 == 0
  | _ => false

def Dst.isVec : Dst → Bool
  | .v _ => true
  | _ => false

def Dst.isS : Dst → Bool
  | .s _ => true
  | _ => false

def Dst.isNone : Dst → Bool
  | .none => true
  | _ => false

/-- A destination of 2^k registers: its number is a multiple of 2^k (02 R49, 08 R197). -/
def Dst.aligned (k : Nat) : Dst → Bool
  | .v n => n.toNat % 2 ^ k == 0
  | .s n => n.toNat % 2 ^ k == 0
  | .none => true

def Dst.ok64 (d : Dst) : Bool := d.aligned 1

/-- The guard that R54 forbids is ?!p7. -/
def Guard.ok (g : Guard) : Bool := !(g.neg && g.p == 7)

/-- Guard and uniformity (02 R51, R54): a scalar destination takes no vector source, and an instruction that is uniform
carries no guard. `pipe` holds for forms that always run in the issue pipe. -/
def vecRule (pipe : Bool) (g : Guard) (d : Dst) (srcs : List Src) : Bool :=
  g.ok && (!d.isS || srcs.all Src.isUni) && (pipe || d.isVec || !srcs.all Src.isUni || g == Guard.always)

/-! ### Types -/

def IType.wide : IType → Bool
  | .i64 | .n64 => true
  | _ => false

def IType.packed : IType → Bool
  | .i16x2 | .n8x4 => true
  | _ => false

def IType.signed : IType → Bool
  | .i32 | .i64 | .i16x2 => true
  | _ => false

def FType.wide : FType → Bool
  | .f64 => true
  | _ => false

def FType.packed : FType → Bool
  | .f16x2 | .bf16x2 => true
  | _ => false

/-- I, N, I6, N6 of 04 R107. -/
def IType.plain4 : IType → Bool
  | .i32 | .n32 | .i64 | .n64 => true
  | _ => false

/-- I, N, B, I6, N6 of 04 R107. -/
def IType.plain5 : IType → Bool
  | .i16x2 | .n8x4 => false
  | _ => true

/-! ### Groups -/

/-- Operands of an integer instruction whose a, b, c and d all have the type's width. -/
def Alu.wide (x : Alu) : Bool := !x.ty.wide || (x.d.ok64 && x.a.ok64 && x.b.ok64 && x.c.ok64)

/-- The common check of an integer instruction with sources a, b, c (04 R106). -/
def Alu.ok (x : Alu) (pipe : Bool := false) : Bool :=
  vecRule pipe x.g x.d [x.a, x.b, x.c] && !x.a.isImm && !x.c.isImm

def Alu.noC (x : Alu) : Bool := x.c.isNone
def Alu.noBC (x : Alu) : Bool := x.b.isNone && x.c.isNone

def Fpu.wide (x : Fpu) : Bool := !x.ty.wide || (x.d.ok64 && x.a.ok64 && x.b.ok64 && x.c.ok64)

def Fpu.ok (x : Fpu) : Bool := vecRule false x.g x.d [x.a, x.b, x.c] && !x.a.isImm && !x.c.isImm

/-- RS names a rounding that is not stochastic (05 R135). -/
def Fpu.round (x : Fpu) : Bool := x.rs.toNat ≤ 5
def Fpu.exact (x : Fpu) : Bool := x.rs == 0
def Fpu.noC (x : Fpu) : Bool := x.c.isNone
def Fpu.noBC (x : Fpu) : Bool := x.b.isNone && x.c.isNone

def Combine.ok : Combine → Bool
  | _ => true

def Narrow.ok (x : Narrow) (useB : Bool) : Bool :=
  x.g.ok && x.d.isVec && !x.a.isImm && !x.b.isImm && (useB || x.b.isNone)

def MemRef.ok (m : MemRef) : Bool :=
  !m.off.isImm && (!m.o64 || m.off.ok64) && (m.long || m.imm == (m.imm.setWidth 20).signExtend 32)

/-- A memory operand whose offset is uniform. -/
def MemRef.okUni (m : MemRef) : Bool := m.ok && m.off.isUni

/-- An offset operand of a record: scalar, special, constant or none (13 R344). -/
def RecRef.ok (r : RecRef) : Bool := r.off.isUni && !r.off.isImm

/-- A uniform 32-bit operand that is not an immediate. -/
def Src.okUni (x : Src) : Bool := x.isUni && !x.isImm

def Width.log : Width → Nat
  | .w8 => 0 | .w16 => 1 | .w32 => 2 | .w64 => 3 | .w128 => 4

def Width.bytes (w : Width) : Nat := 2 ^ w.log

/-- A destination of that width (08 R197). -/
def Dst.okWidth (d : Dst) (w : Width) : Bool :=
  match w with
  | .w64 => d.aligned 1
  | .w128 => d.aligned 2
  | _ => true

def Src.okWidth (x : Src) (w : Width) : Bool :=
  match w with
  | .w64 => x.ok64
  | .w128 => x.ok128
  | _ => true

/-- Fields common to memory instructions (08 R211): a plain access names no scope, `.sx` needs 1 or 2 bytes. -/
def MemAcc.ok (x : MemAcc) (orders : List Order) : Bool :=
  x.m.ok && orders.contains x.ord && (x.ord != .plain || x.scope == .team)

def sxOk (sx : Bool) (w : Width) : Bool := !sx || w == .w8 || w == .w16

def AtomAcc.ok (x : AtomAcc) : Bool := x.m.ok && (x.ord != .plain || x.scope == .team)

/-- Types of the operations of `tred` and `tscan` (07 R186). -/
def RedOp.ok : RedOp → Bool
  | .add t | .min t | .max t => t.plain4
  | .and t | .or t | .xor t => t == .b32 || t.wide
  | .fadd t | .fmin t | .fmax t => t == .f32 || t == .f64

def RedOp.wide : RedOp → Bool
  | .add t | .min t | .max t | .and t | .or t | .xor t => t.wide
  | .fadd t | .fmin t | .fmax t => t.wide

/-- Types of the operations of `atom` and `red` (10 R259). -/
def AtomOp.ok : AtomOp → Bool
  | .add t | .min t | .max t => t.plain4
  | .and t | .or t | .xor t | .xchg t => t.plain5
  | .inc t => t == .n32 || t == .n64
  | .fadd _ => true
  | .fmin t | .fmax t => t == .f32 || t == .f64

def AtomOp.wide : AtomOp → Bool
  | .add t | .min t | .max t | .and t | .or t | .xor t | .xchg t | .inc t => t.wide
  | .fadd t | .fmin t | .fmax t => t.wide

/-- The compare and new value of `cas`: registers, the first a multiple of 2 or 4 (10 R260). -/
def Src.casGroup (x : Src) (wide : Bool) : Bool :=
  match x with
  | .v n => n.toNat % (if wide then 4 else 2) == 0
  | .s n => n.toNat % (if wide then 4 else 2) == 0
  | _ => false

/-- Element pairs of `cvtif` with their rounding (05 R146). -/
def cvtifOk (src : IType) (dst : FType) (rs : BitVec 3) : Bool :=
  match src, dst with
  | .i32, .f32 | .n32, .f32 => rs.toNat ≤ 5
  | .i32, .f64 | .n32, .f64 => rs == 0
  | .i64, .f32 | .i64, .f64 | .n64, .f32 | .n64, .f64 => rs.toNat ≤ 5
  | .i16x2, .f16x2 | .i16x2, .bf16x2 => rs.toNat ≤ 5
  | _, _ => false

/-- Pairs of `cvtfi` (05 R147). -/
def cvtfiOk (src : FType) (dst : IType) : Bool :=
  match src with
  | .f32 | .f64 => dst.plain4
  | .f16x2 | .bf16x2 => dst == .i16x2

/-- Pairs of `cvtff` with `.hi`, rounding and use of source B (05 R148). `uni` holds for a uniform instruction. -/
def cvtffOk (src dst : FType) (hi : Bool) (rs : BitVec 3) (b : Src) (uni : Bool) : Bool :=
  match src, dst with
  | .f32, .f64 => !hi && rs == 0 && b.isNone
  | .f64, .f32 => !hi && rs.toNat ≤ 5 && b.isNone
  | .f32, .f16x2 | .f32, .bf16x2 => !hi && (rs.toNat ≤ 5 || (rs == 6 && !uni)) && !b.isImm
  | .f16x2, .f32 | .bf16x2, .f32 => rs == 0 && b.isNone
  | .f16x2, .bf16x2 | .bf16x2, .f16x2 => !hi && (rs.toNat ≤ 5 || (rs == 6 && !uni)) && b.isNone
  | _, _ => false

def Src.fits64 (x : Src) (wide : Bool) : Bool := !wide || x.ok64

/-- Whether the 96-bit or 64-bit rule of 02 R45 admits the pairs of a `brm`: one to four, MOD and offsets by pair. -/
def brmOk (pairs : List BrmPair) : Bool := 1 ≤ pairs.length && pairs.length ≤ 4

/-- Whether a term is an instruction of the set. Event rows of the table have no encoding and no operand to check. Whether
`samp`, `hquery` and `cas` admit DST 0xFF, and a uniform source position that its table names without saying `or 0xFF`
admits 0xFF, is read from the tables and R48 (DEDUCED, log entry 25). -/
def Instr.wf : Instr → Bool
  | .nop | .join | .ret | .spin | .rfe | .yield => true
  | .bra _ off => off.toNat % 4 == 0
  | .brv _ _ taken jn => taken.toNat % 4 == 0 && jn.toNat % 4 == 0
  | .brm pairs _ => brmOk pairs
  | .brk g n | .cont g n => g.ok && 1 ≤ n.toNat && n.toNat ≤ 7
  | .call (.direct off) => off.toNat % 4 == 0
  | .call (.ind s) => s.toNat % 2 == 0
  | .exit g => g.ok
  | .reorder _ _ => true
  | .loop off => off.toNat % 4 == 0
  | .next _ _ => true
  | .add x sat | .sub x sat => x.ok && x.noC && x.wide && !(sat && x.ty == .b32)
  | .mul x => x.ok && x.noC && x.wide
  | .mulhi x | .min x | .max x => x.ok && x.noC && x.wide && x.ty != .b32
  | .mad x sat => x.ok && x.wide && !(sat && x.ty == .b32)
  | .absn x neg sat =>
    x.ok && x.noBC && x.wide && (neg || x.ty.signed) && !(sat && x.ty == .b32)
  | .and x _ | .or x _ | .xor x _ => x.ok && x.noC && x.wide && x.ty.plain5
  | .shl x | .shr x | .rot x _ => x.ok && x.noC && (!x.ty.wide || (x.d.ok64 && x.a.ok64))
  | .bcnt x _ => x.ok && x.noBC && x.ty.plain5 && x.a.fits64 x.ty.wide
  | .bitf x .rev => x.ok && x.noBC && x.ty.plain5 && x.wide
  | .bitf x .ext => x.ok && x.noC && x.ty.plain5 && (!x.ty.wide || (x.d.ok64 && x.a.ok64))
  | .bitf x .ins => x.ok && x.ty.plain5 && (!x.ty.wide || (x.d.ok64 && x.a.ok64 && x.c.ok64))
  | .setp g ty cond _ _ a b =>
    g.ok && ty.plain5 && !a.isImm && a.fits64 ty.wide && b.fits64 ty.wide &&
      !(ty == .b32 && (cond == .lt || cond == .le || cond == .gt || cond == .ge))
  | .sel x _ => x.ok true && x.noC && x.wide && !x.d.isS
  | .plog g op _ _ pb => g.ok && (op != .not || pb == 0)
  | .mov x => x.ok && x.noBC && x.wide
  | .movi g ty d imm =>
    vecRule false g d [] && (!ty.wide || d.ok64) && (match imm with | .i32 _ => true | .i64 _ => ty.wide)
  | .lea x x32 _ =>
    x.ok && x.ty.plain4 && (!x32 || x.ty.wide) && (!x.ty.wide || (x.d.ok64 && x.a.ok64 && x.c.ok64)) &&
      (x32 || x.b.fits64 x.ty.wide)
  | .div x _ _ => x.ok && x.noC && x.ty.plain4 && x.wide
  | .ext x (.sext n) | .ext x (.zext n) =>
    x.ok && x.noBC && x.ty.plain4 && n.toNat + 1 ≤ (if x.ty.wide then 64 else 32) && (!x.ty.wide || x.d.ok64) &&
      x.a.fits64 (32 < n.toNat + 1)
  | .ext x .trunc => x.ok && x.noBC && (x.ty == .i32 || x.ty == .n32 || x.ty == .b32) && x.a.ok64
  | .addc x ci co | .subb x ci co =>
    x.ok (ci.isSome || co != 7) && x.noC && x.ty == .n32 && !x.d.isS
  | .mulw x => x.ok && x.noC && (x.ty == .i32 || x.ty == .n32) && x.d.ok64
  | .csub x (.p _) => x.ok true && x.noC && x.ty.plain4 && x.wide && !x.d.isS
  | .csub x (.ge pq) => x.ok (pq != 7) && x.noC && x.ty.plain4 && x.wide && (pq == 7 || !x.d.isS)
  | .clamp x => x.ok && x.wide && x.ty != .b32
  | .fadd x | .fsub x | .fmul x => x.ok && x.noC && x.wide && x.round
  | .fma x => x.ok && x.wide && x.round
  | .fmin x | .fmax x => x.ok && x.noC && x.wide && x.exact && !x.sat
  | .fabsn x op =>
    x.ok && x.noC && x.wide && x.exact && !x.sat && !x.b.isImm && (op == .cpsgn || x.b.isNone)
  | .fsetp g ty _ _ _ a b =>
    g.ok && (ty == .f32 || ty == .f64) && !a.isImm && a.fits64 ty.wide && b.fits64 ty.wide
  | .frcp x | .frsq x | .fexp2 x | .flog2 x =>
    x.ok && x.noBC && x.exact && !x.sat && !x.ty.wide
  | .fsqrt x => x.ok && x.noBC && x.wide && x.round && !x.sat
  | .fsincos x => x.ok && x.noBC && x.exact && !x.sat && (x.ty == .f32 || x.ty == .f16x2) && x.d.ok64
  | .fdiv x => x.ok && x.noC && x.wide && x.round && !x.sat
  | .fclass x => x.ok && x.noBC && x.exact && !x.sat && x.a.fits64 x.ty.wide
  | .cvtif x src =>
    x.ok && x.noBC && !x.sat && cvtifOk src x.ty x.rs && (!x.ty.wide || x.d.ok64) && x.a.fits64 src.wide
  | .cvtfi x dst =>
    x.ok && x.noBC && !x.sat && x.round && cvtfiOk x.ty dst && (!dst.wide || x.d.ok64) && x.a.fits64 x.ty.wide
  | .cvtff x src hi =>
    x.ok && x.noC && !x.sat && cvtffOk src x.ty hi x.rs x.b (!x.d.isVec && x.a.isUni && x.b.isUni) &&
      (!x.ty.wide || x.d.ok64) && x.a.fits64 src.wide
  | .frnd x => x.ok && x.noBC && x.wide && x.round && !x.sat
  | .fscal x .ldexp => x.ok && x.noC && x.round && !x.sat && (!x.ty.wide || (x.d.ok64 && x.a.ok64))
  | .fscal x .mant => x.ok && x.noBC && x.exact && !x.sat && x.wide
  | .fscal x .exp => x.ok && x.noBC && x.exact && !x.sat && x.a.fits64 x.ty.wide
  | .dot2 x => x.ok && x.round && !x.sat && x.ty.packed && !x.b.isImm
  | .qscale x | .qpack x | .qunpack x | .fmtq x => x.ok false
  | .quant x | .dequant x => x.ok true
  | .rngNext g d | .rngUnif g d => g.ok && d.isVec
  | .rngSeed g a => g.ok && !a.isImm && a.ok64
  | .shfl g _ wide d a _ _ => g.ok && !d.isS && !a.isImm && (!wide || (d.ok64 && a.ok64))
  | .vote g _ (.eq a) => g.ok && !a.isImm
  | .vote g _ _ => g.ok
  | .ballot g _ _ (.word w) => g.ok && w.isUni
  | .ballot g _ _ _ => g.ok
  | .tred g op rs d a =>
    g.ok && op.ok && !a.isImm && (!op.wide || (d.ok64 && a.ok64)) &&
      (match op with | .fadd _ => rs.toNat ≤ 5 | _ => rs == 0)
  | .tscan g op _ d a =>
    g.ok && op.ok && !a.isImm && !d.isS && (!op.wide || (d.ok64 && a.ok64)) &&
      (match op with | .fadd _ => false | _ => true)
  | .bcast g wide d a n => g.ok && !a.isImm && n.isUni && (!wide || (d.ok64 && a.ok64))
  | .ld x sx d =>
    x.ok [.plain, .acq, .sc] && vecRule false x.g d [x.m.off] && sxOk sx x.w && d.okWidth x.w
  | .st x c =>
    x.ok [.plain, .rel, .sc] && vecRule false x.g .none [x.m.off, c] && !c.isImm && c.okWidth x.w
  | .ldro x sx d =>
    x.ok [.plain] && vecRule false x.g d [x.m.off] && sxOk sx x.w && d.okWidth x.w
  | .lds x sx d =>
    x.ok [.plain] && vecRule false x.g d [x.m.off] && !x.fs && sxOk sx x.w && d.okWidth x.w
  | .sts x c =>
    x.ok [.plain] && vecRule false x.g .none [x.m.off, c] && !x.fs && !c.isImm && c.okWidth x.w
  | .samp g _ d u v q _ => vecRule false g d [u, v, q] && !u.isImm && !v.isImm && !q.isImm && !d.isNone
  | .pf x _ => x.ok [.plain] && vecRule false x.g .none [x.m.off] && !x.fs
  | .hmap _ d _ r => r.okUni && !d.isVec
  | .hflush _ _ _ => true
  | .hquery g _ d _ => vecRule false g d [] && d.ok64 && !d.isNone
  | .atom x op d c =>
    x.ok && op.ok && vecRule false x.g d [x.m.off, c] && !c.isImm && (!op.wide || (d.ok64 && c.ok64))
  | .cas x ty d c =>
    x.ok && ty.plain5 && vecRule false x.g d [x.m.off, c] && c.casGroup ty.wide && (!ty.wide || d.ok64) && !d.isNone
  | .red x op c =>
    x.ok && op.ok && vecRule false x.g .none [x.m.off, c] && !c.isImm && c.fits64 op.wide &&
      (x.ord == .plain || x.ord == .rel)
  | .barSync scope id n => n.okUni && id.toNat ≤ 15 && scope != .sys && (scope != .team || n.isNone)
  | .barArv scope id d n => n.okUni && id.toNat ≤ 15 && scope != .sys && scope != .team && !d.isVec
  | .barWait scope id tok => tok.okUni && id.toNat ≤ 15 && scope != .sys && scope != .team
  | .waitaddr cmp ty acq scope d off o64 _ _ c _ =>
    ty.plain5 && off.okUni && c.okUni && !d.isVec && (!o64 || off.ok64) && (!ty.wide || (d.ok64 && c.ok64)) &&
      (acq || scope == .team) && !(ty == .b32 && (cmp == .lt || cmp == .ge)) &&
      (cmp != .sge || ty == .n32 || ty == .n64)
  | .cbputAcq d k | .cbget d k => !d.isVec && k.toNat ≤ 7
  | .cbputCom k | .cbrel k => k.toNat ≤ 7
  | .cbinit k _ size count => k.toNat ≤ 7 && size.okUni && count.okUni
  | .fenceAcq _ | .fenceRel _ | .fenceAcqrel _ | .fenceSc _ => true
  | .fenceRo scope | .fenceOpr scope => scope != .team
  | .waitf _ m d => m != 0 && !d.isVec
  | .sig _ _ _ wide _ m v => m.okUni && v.okUni && v.fits64 wide
  | .tdecl _ r _ => r.ok
  | .tdeclRm _ _ => true
  | .ttile d r _ => r.ok && d.isS
  | .topenR t | .topenW t | .topenWRecall t => t.isS
  | .tseal _ t | .tdrop _ t => t.isS
  | .tsplit d t k c => d.isS && d.ok64 && t.isS && k.okUni && c.okUni
  | .tfree t => t.isS
  | .tquery d t => d.isS && d.ok64 && t.isS
  | .menq _ _ d k => !d.isVec && k.toNat % 16 == 0
  | .mwaitId d t => !d.isVec && t.okUni
  | .mwaitFlag _ t => t.okUni
  | .mwld _ _ d t ts => d.isS && t.isS && (ts.isS || ts.isNone)
  | .mwrel r => r.okUni
  | .macz _ t => t.isS
  | .macrd g _ raw slot d t row col =>
    g.ok && d.isVec && d.ok64 && t.isS && row.okUni && col.okUni && (!raw || slot == 0)
  | .wsld _ _ _ t ts => t.isS && (ts.isS || ts.isNone)
  | .wsinfoCal d e => d.isS && d.ok64 && e.okUni
  | .wsinfoNow d => d.isS
  | .mquery d t => d.isS && d.ok64 && t.okUni
  | .dcopy _ scope r => r.ok && scope != .team
  | .dfill _ scope wide r v =>
    r.ok && scope != .team && (v.isNone || v.isConst || (if wide then v.isSPair else v.isS))
  | .grpMake d key n rank => d.isS && key.okUni && n.okUni && rank.okUni
  | .grpFree g => g.isS
  | .grpInfo d g => d.isS && d.ok64 && g.isS
  | .coll _ form op ty src dst grp _ _ n =>
    src.okUni && dst.okUni && grp.isS && 1 ≤ n.toNat && n.toNat ≤ 2 ^ 28 &&
      (match form, ty with
       | .redscat, .int t | .allred, .int t => t.plain4
       | .redscat, .flt _ | .allred, .flt _ => true
       | _, .int t => (t == .b32 || t == .n64) && op == .add
       | _, .flt _ => false)
  | .gbarSync g => g.isS
  | .gbarArv _ g => g.isS
  | .sclook g _ d a => vecRule true g .none [] && d.isVec && d.aligned 2 && !a.isConst && a.ok64 && (a.isVec || a.isS)
  | .scwait g d a => vecRule true g .none [] && d.isVec && d.aligned 2 && a.ok64 && (a.isVec || a.isS)
  | .scfill _ item => item.okUni
  | .scinv _ obj tag => obj.okUni && tag.okUni
  | .frameCtx d => !d.isVec && d.ok64
  | .frameTag d tag => !d.isVec && d.ok64 && tag.okUni
  | .gtake k => k.toNat % 8 == 0
  | .pfill _ item => item.okUni
  | .pfail _ item status => item.okUni && status.okUni
  | .prangeAdd _ r hw => r.ok && hw.isS
  | .prangeRm _ hw | .prangeClr _ hw => hw.isS
  | .prangeLayer _ r n => r.ok && n.okUni
  | .rtrace _ _ sr n sh _ _ _ | .rsort _ _ sr n sh _ _ _ => sr.okUni && n.okUni && sh.okUni
  | .rhit g short d i _ _ _ =>
    g.ok && d.isVec && d.aligned (if short then 2 else 3) && !i.isImm
  | .rhitCnt d => d.isS && d.ok64
  | .rprog _ kind r => kind.toNat ≤ 15 && r.ok
  | .visJob _ d r => !d.isVec && r.ok
  | .visGet g d job _ => g.ok && d.isVec && d.aligned 2 && job.okUni
  | .trap _ | .bkpt _ => true
  | .csrr wide d csr => d.isS && (!wide || (d.ok64 && csr.toNat % 2 == 0))
  | .csrw d a _ => !d.isVec && a.okUni && !a.isNone
  | .ksave set m => (match set with | .p => m.toNat < 2 ^ 7 | _ => true)
  | .tlbi _ op scope a =>
    (scope == .die || scope == .pkg || scope == .pod) &&
      (match op with | .va | .gpa => a.isSPair | .ctx | .vm => a.isS | .all => a.isNone)
  | .spawn _ d r shape => !d.isVec && r.ok && (shape.isNone || shape.isSPair)
  | .qpost _ q r => q.toNat ≤ 63 && r.ok
  | .qwaitDone d n q => !d.isVec && n.okUni && q.toNat ≤ 63
  | .qwaitSpace d q => !d.isVec && q.toNat ≤ 63
  | _ => true

/-- Whether the instruction must be the last of its clause (02 R39, 16 R455). -/
def Instr.endsClause : Instr → Bool
  | .bra .. | .brv .. | .brm .. | .join | .brk .. | .cont .. | .call .. | .ret | .exit .. | .loop .. | .next ..
  | .spin | .trap .. | .bkpt .. | .rfe | .yield => true
  | _ => false

end Sys2Proof
end

