-- ==== Sys2Proof/Decode.lean ====
section
/-! DEFINITION. The bits of the instruction stream (02 R34 to R56): fields of the 64-bit layout, decoding of an
object's fields into a term of `Instr` with a name for each refusal, the encoder written from the same encoding rules,
parcels, clause headers, and the reading of one object from its parcels. -/

namespace Sys2Proof

/-- The fields of an instruction (02 R44) with its extra parcels; a parcel that the length does not give is zero. -/
structure Enc where
  len : BitVec 2
  op  : BitVec 8
  dst : BitVec 8
  a   : BitVec 8
  b   : BitVec 8
  c   : BitVec 8
  g   : BitVec 3
  gn  : BitVec 1
  sub : BitVec 3
  rs  : BitVec 3
  fs  : BitVec 1
  ty  : BitVec 3
  md  : BitVec 8
  p3  : Word
  p4  : Word
  deriving DecidableEq, Repr

/-- Why a pattern is no instruction. Every one of them faults with ILLOP (02 R56); the order is that of R57. -/
inductive DecodeErr where
  | headerField
  | crossing
  | opcode
  | length
  | field
  | operand
  deriving DecidableEq, Repr

/-! ### Operand specifiers (02 R48) -/

def Special.code : Special → BitVec 8
  | .lane => 0xC8 | .team => 0xC9 | .core => 0xCA | .quad => 0xCB | .die => 0xCC | .pkg => 0xCD | .pod => 0xCE
  | .lanes => 0xCF | .frame => 0xD0 | .clkLo => 0xD1 | .clkHi => 0xD2

def Special.dec (x : BitVec 8) : Option Special :=
  match x.toNat with
  | 0xC8 => some .lane | 0xC9 => some .team | 0xCA => some .core | 0xCB => some .quad | 0xCC => some .die
  | 0xCD => some .pkg | 0xCE => some .pod | 0xCF => some .lanes | 0xD0 => some .frame | 0xD1 => some .clkLo
  | 0xD2 => some .clkHi | _ => none

def Src.code : Src → BitVec 8
  | .v n => n.setWidth 8
  | .s n => 0x80 ||| n.setWidth 8
  | .sp x => x.code
  | .k n => 0xE0 ||| n.setWidth 8
  | .imm _ => 0xFF
  | .none => 0xFF

/-- A source specifier; a predicate or a reserved value names no source. -/
def Src.dec (x : BitVec 8) : Option Src :=
  if x.toNat < 0x80 then some (.v (x.setWidth 7))
  else if x.toNat < 0xC0 then some (.s (x.setWidth 6))
  else if x == 0xFF then some .none
  else if 0xE0 ≤ x.toNat ∧ x.toNat < 0xF0 then some (.k (x.setWidth 4))
  else (Special.dec x).map .sp

def Dst.code : Dst → BitVec 8
  | .v n => n.setWidth 8
  | .s n => 0x80 ||| n.setWidth 8
  | .none => 0xFF

def Dst.dec (x : BitVec 8) : Option Dst :=
  if x.toNat < 0x80 then some (.v (x.setWidth 7))
  else if x.toNat < 0xC0 then some (.s (x.setWidth 6))
  else if x == 0xFF then some .none
  else Option.none

def predCode (p : PredIx) : BitVec 8 := 0xC0 ||| p.setWidth 8

def predDec (x : BitVec 8) : Option PredIx :=
  if 0xC0 ≤ x.toNat ∧ x.toNat < 0xC8 then some (x.setWidth 3) else none

/-- A predicate, or 0xFF for none. -/
def optPredCode : Option PredIx → BitVec 8
  | some p => predCode p
  | none => 0xFF

def optPredDec (x : BitVec 8) : Option (Option PredIx) :=
  if x == 0xFF then some none else (predDec x).map some

def PDst.code : PDst → BitVec 8
  | .v n => n.setWidth 8
  | .s n => 0x80 ||| n.setWidth 8
  | .p n => predCode n
  | .none => 0xFF

def PDst.dec (x : BitVec 8) : Option PDst :=
  match predDec x with
  | some n => some (.p n)
  | Option.none =>
    match Dst.dec x with
    | some (.v n) => some (.v n)
    | some (.s n) => some (.s n)
    | some .none => some .none
    | Option.none => Option.none

/-- A scalar register specifier. -/
def sCode (n : BitVec 6) : BitVec 8 := 0x80 ||| n.setWidth 8

def sDec (x : BitVec 8) : Option (BitVec 6) :=
  if 0x80 ≤ x.toNat ∧ x.toNat < 0xC0 then some (x.setWidth 6) else none

/-! ### Types, scopes and sub-fields -/

def IType.code : IType → BitVec 3
  | .i32 => 0 | .n32 => 1 | .b32 => 2 | .i64 => 3 | .n64 => 4 | .i16x2 => 5 | .n8x4 => 6

def IType.dec (x : BitVec 3) : Option IType :=
  match x.toNat with
  | 0 => some .i32 | 1 => some .n32 | 2 => some .b32 | 3 => some .i64 | 4 => some .n64 | 5 => some .i16x2
  | 6 => some .n8x4 | _ => none

def FType.code : FType → BitVec 3
  | .f32 => 0 | .f16x2 => 1 | .bf16x2 => 2 | .f64 => 3

def FType.dec (x : BitVec 3) : Option FType :=
  match x.toNat with
  | 0 => some .f32 | 1 => some .f16x2 | 2 => some .bf16x2 | 3 => some .f64 | _ => none

def Scope.code : Scope → BitVec 3
  | .team => 0 | .core => 1 | .quad => 2 | .die => 3 | .pkg => 4 | .pod => 5 | .sys => 6

def Scope.dec (x : BitVec 3) : Option Scope :=
  match x.toNat with
  | 0 => some .team | 1 => some .core | 2 => some .quad | 3 => some .die | 4 => some .pkg | 5 => some .pod
  | 6 => some .sys | _ => none

def Width.code : Width → BitVec 3
  | .w8 => 0 | .w16 => 1 | .w32 => 2 | .w64 => 3 | .w128 => 4

def Width.dec (x : BitVec 3) : Option Width :=
  match x.toNat with
  | 0 => some .w8 | 1 => some .w16 | 2 => some .w32 | 3 => some .w64 | 4 => some .w128 | _ => none

/-- The order of `ld` and `st`, held in SUB (08 R212). -/
def Order.memSub : Order → BitVec 3
  | .plain => 0 | .acq => 1 | .rel => 2 | .sc => 3 | .acqrel => 7

def Order.decMemSub (x : BitVec 3) : Option Order :=
  match x.toNat with
  | 0 => some .plain | 1 => some .acq | 2 => some .rel | 3 => some .sc | _ => none

/-- The order of an atomic, MOD[7:5] (10 R257). -/
def Order.atomCode : Order → BitVec 3
  | .plain => 0 | .acq => 1 | .rel => 2 | .acqrel => 3 | .sc => 4

def Order.decAtom (x : BitVec 3) : Option Order :=
  match x.toNat with
  | 0 => some .plain | 1 => some .acq | 2 => some .rel | 3 => some .acqrel | 4 => some .sc | _ => none

def bit1 (b : Bool) : BitVec 1 := if b then 1 else 0

def ICond.code : ICond → BitVec 3
  | .eq => 0 | .ne => 1 | .lt => 2 | .le => 3 | .gt => 4 | .ge => 5 | .tst => 6 | .ntst => 7

def ICond.dec (x : BitVec 3) : ICond :=
  match x.toNat with
  | 0 => .eq | 1 => .ne | 2 => .lt | 3 => .le | 4 => .gt | 5 => .ge | 6 => .tst | _ => .ntst

def FCond.code : FCond → BitVec 3
  | .eq => 0 | .ne => 1 | .lt => 2 | .le => 3 | .gt => 4 | .ge => 5 | .num => 6 | .nan => 7

def FCond.dec (x : BitVec 3) : FCond :=
  match x.toNat with
  | 0 => .eq | 1 => .ne | 2 => .lt | 3 => .le | 4 => .gt | 5 => .ge | 6 => .num | _ => .nan

/-- MOD[1:0] and SRCC of a combining comparison (04 R116). -/
def Combine.codes : Combine → BitVec 8 × BitVec 8
  | .none => (0, 0xFF)
  | .and p => (1, predCode p)
  | .or p => (2, predCode p)
  | .xor p => (3, predCode p)

def Combine.dec (md c : BitVec 8) : Option Combine :=
  match md.toNat with
  | 0 => some .none
  | 1 => (predDec c).map .and
  | 2 => (predDec c).map .or
  | 3 => (predDec c).map .xor
  | _ => Option.none

def PlogOp.code : PlogOp → BitVec 3
  | .and => 0 | .or => 1 | .xor => 2 | .andn => 3 | .orn => 4 | .not => 5

def PlogOp.dec (x : BitVec 3) : Option PlogOp :=
  match x.toNat with
  | 0 => some .and | 1 => some .or | 2 => some .xor | 3 => some .andn | 4 => some .orn | 5 => some .not | _ => none

def ShflMode.code : ShflMode → BitVec 3
  | .idx => 0 | .up => 1 | .down => 2 | .xor => 3

def ShflMode.dec (x : BitVec 3) : Option ShflMode :=
  match x.toNat with
  | 0 => some .idx | 1 => some .up | 2 => some .down | 3 => some .xor | _ => none

/-- SUB, TYPE and MOD[0] of a reduction (07 R186). -/
def RedOp.codes : RedOp → BitVec 3 × BitVec 3 × BitVec 8
  | .add t => (0, t.code, 0) | .min t => (1, t.code, 0) | .max t => (2, t.code, 0)
  | .and t => (3, t.code, 0) | .or t => (4, t.code, 0) | .xor t => (5, t.code, 0)
  | .fadd t => (0, t.code, 1) | .fmin t => (1, t.code, 1) | .fmax t => (2, t.code, 1)

def RedOp.dec (sub ty : BitVec 3) (flt : Bool) : Option RedOp :=
  if flt then
    match sub.toNat with
    | 0 => (FType.dec ty).map .fadd | 1 => (FType.dec ty).map .fmin | 2 => (FType.dec ty).map .fmax | _ => none
  else
    match sub.toNat with
    | 0 => (IType.dec ty).map .add | 1 => (IType.dec ty).map .min | 2 => (IType.dec ty).map .max
    | 3 => (IType.dec ty).map .and | 4 => (IType.dec ty).map .or | 5 => (IType.dec ty).map .xor | _ => none

/-- SUB, TYPE and MOD[3] of an atomic (10 R259). -/
def AtomOp.codes : AtomOp → BitVec 3 × BitVec 3 × BitVec 1
  | .add t => (0, t.code, 0) | .min t => (1, t.code, 0) | .max t => (2, t.code, 0)
  | .and t => (3, t.code, 0) | .or t => (4, t.code, 0) | .xor t => (5, t.code, 0)
  | .xchg t => (6, t.code, 0) | .inc t => (7, t.code, 0)
  | .fadd t => (0, t.code, 1) | .fmin t => (1, t.code, 1) | .fmax t => (2, t.code, 1)

def AtomOp.dec (sub ty : BitVec 3) (flt : Bool) : Option AtomOp :=
  if flt then
    match sub.toNat with
    | 0 => (FType.dec ty).map .fadd | 1 => (FType.dec ty).map .fmin | 2 => (FType.dec ty).map .fmax | _ => none
  else
    match sub.toNat with
    | 0 => (IType.dec ty).map .add | 1 => (IType.dec ty).map .min | 2 => (IType.dec ty).map .max
    | 3 => (IType.dec ty).map .and | 4 => (IType.dec ty).map .or | 5 => (IType.dec ty).map .xor
    | 6 => (IType.dec ty).map .xchg | _ => (IType.dec ty).map .inc

def PfLevel.code : PfLevel → BitVec 3
  | .l2 => 0 | .l1 => 1 | .ro => 2

def FlushOp.code : FlushOp → BitVec 3
  | .wb => 0 | .inv => 1 | .wbinv => 2

def BcntOp.code : BcntOp → BitVec 3
  | .popc => 0 | .clz => 1 | .ctz => 2

def BitfOp.code : BitfOp → BitVec 3
  | .ext => 0 | .ins => 1 | .rev => 2

def FabsOp.code : FabsOp → BitVec 3
  | .abs => 0 | .neg => 1 | .cpsgn => 2

def FscalOp.code : FscalOp → BitVec 3
  | .ldexp => 0 | .mant => 1 | .exp => 2

def WaitCmp.code : WaitCmp → BitVec 3
  | .eq => 0 | .ne => 1 | .lt => 2 | .ge => 3 | .sge => 4

def KsaveSet.code : KsaveSet → BitVec 3
  | .vlo => 0 | .vhi => 1 | .s => 2 | .p => 3

def TlbiOp.code : TlbiOp → BitVec 3
  | .va => 0 | .ctx => 1 | .vm => 2 | .gpa => 3 | .all => 4

def CollForm.code : CollForm → BitVec 3
  | .allgather => 0 | .redscat => 1 | .alltoall => 2 | .allred => 3 | .p2p => 4

def CollRed.code : CollRed → BitVec 3
  | .add => 0 | .min => 1 | .max => 2

/-- The element of a list that a SUB value names. -/
def pick (xs : List α) (sub : BitVec 3) : Option α := xs[sub.toNat]?

/-! ### Encoding -/

/-- Every operand field 0xFF, unguarded, everything else zero. -/
def Enc.plain (op : BitVec 8) (len : BitVec 2 := 0) : Enc :=
  { len, op, dst := 0xFF, a := 0xFF, b := 0xFF, c := 0xFF, g := 7, gn := 0, sub := 0, rs := 0, fs := 0, ty := 0,
    md := 0, p3 := 0, p4 := 0 }

def Enc.guard (e : Enc) (g : Guard) : Enc := { e with g := g.p, gn := bit1 g.neg }

/-- Source B in a form that may be 96-bit (02 R46). -/
def Enc.srcB (e : Enc) (b : Src) : Enc :=
  match b with
  | .imm w => { e with len := 1, b := 0xFF, p3 := w }
  | _ => { e with b := b.code }

def encAlu (op : BitVec 8) (x : Alu) (sub : BitVec 3 := 0) (md : BitVec 8 := 0) : Enc :=
  ({ Enc.plain op with dst := x.d.code, a := x.a.code, c := x.c.code, sub, ty := x.ty.code, md }.guard x.g).srcB x.b

def encFpu (op : BitVec 8) (x : Fpu) (sub : BitVec 3 := 0) (md : BitVec 8 := 0) : Enc :=
  ({ Enc.plain op with
      dst := x.d.code, a := x.a.code, c := x.c.code, sub, ty := x.ty.code, rs := x.rs,
      md := md ||| (bit1 x.sat).setWidth 8 }.guard x.g).srcB x.b

def encNarrow (op : BitVec 8) (x : Narrow) : Enc :=
  { Enc.plain op with dst := x.d.code, a := x.a.code, b := x.b.code, rs := x.slot }.guard x.g

/-- SRCB and HIDX of a handle (08 R211). -/
def HRef.srcb : HRef → BitVec 8
  | .idx _ => 0xFF
  | .word s => sCode s

def HRef.hidx : HRef → BitVec 12
  | .idx i => i
  | .word _ => 0

/-- A parcel with OFF in [31:12] and HIDX in [11:0]. -/
def offParcel (off : BitVec 20) (h : BitVec 12) : Word := off ++ h

def Enc.mem (e : Enc) (m : MemRef) : Enc :=
  let e := { e with a := m.off.code, b := m.h.srcb, md := e.md ||| (if m.o64 then 0x10 else 0) }
  if m.long then { e with len := 2, p3 := m.h.hidx.setWidth 32, p4 := m.imm }
  else { e with len := 1, p3 := offParcel (m.imm.setWidth 20) m.h.hidx }

def encMem (op : BitVec 8) (x : MemAcc) (sub : BitVec 3) (sx : Bool) : Enc :=
  ({ Enc.plain op with
      sub, fs := bit1 x.fs,
      md := (x.w.code ++ (0 : BitVec 1) ++ bit1 sx ++ x.scope.code : BitVec 8) }.guard x.g).mem x.m

def encAtom (op : BitVec 8) (x : AtomAcc) (sub ty : BitVec 3) (flt : BitVec 1) : Enc :=
  ({ Enc.plain op with
      sub, ty, fs := bit1 x.fs,
      md := (x.ord.atomCode ++ (0 : BitVec 1) ++ flt ++ x.scope.code : BitVec 8) }.guard x.g).mem x.m

/-- A record operand in parcel 3 (13 R344). -/
def Enc.record (e : Enc) (r : RecRef) : Enc :=
  { e with a := r.off.code, b := r.h.srcb, p3 := offParcel r.imm r.h.hidx }

/-- MOD[3:0] of an optional record predicate (07 R183). -/
def recMod : Option PredIx → BitVec 8
  | some p => 8 ||| p.setWidth 8
  | none => 0

def encFence (sub : BitVec 3) (scope : Scope) : Enc :=
  { Enc.plain 0x88 with sub, md := scope.code.setWidth 8 }

/-- The five offsets of `brm` and its predicate fields (03 R86). -/
def brmParcels (pairs : List BrmPair) (jn : BitVec 12) : BitVec 64 :=
  let o (i : Nat) : BitVec 12 := (pairs[i]?.map (·.off)).getD 0
  (0 : BitVec 4) ++ jn ++ o 3 ++ o 2 ++ o 1 ++ o 0

def brmPred (pairs : List BrmPair) (i : Nat) : BitVec 8 := (pairs[i]?.map (predCode ·.p)).getD 0xFF

def brmNeg (pairs : List BrmPair) (i : Nat) : BitVec 1 := (pairs[i]?.map (bit1 ·.neg)).getD 0

/-- The fields of an instruction by the encoding rule of its class; an event row of the table has none. -/
def encode : Instr → Option Enc
  | .nop => some (Enc.plain 0x00)
  | .bra .always off => some { Enc.plain 0x01 1 with p3 := off }
  | .bra (.z s) off => some { Enc.plain 0x01 1 with a := sCode s, sub := 1, p3 := off }
  | .bra (.nz s) off => some { Enc.plain 0x01 1 with a := sCode s, sub := 2, p3 := off }
  | .brv p neg taken jn =>
    some { Enc.plain 0x02 2 with a := predCode p, sub := (bit1 neg).setWidth 3, p3 := taken, p4 := jn }
  | .brm pairs jn =>
    some { Enc.plain 0x03 2 with
      a := brmPred pairs 0, b := brmPred pairs 1, c := brmPred pairs 2, dst := brmPred pairs 3,
      sub := BitVec.ofNat 3 (pairs.length - 1),
      md := ((0 : BitVec 4) ++ brmNeg pairs 3 ++ brmNeg pairs 2 ++ brmNeg pairs 1 ++ brmNeg pairs 0 : BitVec 8),
      p3 := lo32 (brmParcels pairs jn), p4 := hi32 (brmParcels pairs jn) }
  | .join => some (Enc.plain 0x04)
  | .brk g n => some ({ Enc.plain 0x05 with c := n }.guard g)
  | .cont g n => some ({ Enc.plain 0x06 with c := n }.guard g)
  | .call (.direct off) => some { Enc.plain 0x07 1 with p3 := off }
  | .call (.ind s) => some { Enc.plain 0x07 1 with a := sCode s, sub := 1 }
  | .ret => some (Enc.plain 0x08)
  | .exit g => some ((Enc.plain 0x09).guard g)
  | .reorder signed k => some { Enc.plain 0x0A with a := k.setWidth 8, ty := if signed then 0 else 1 }
  | .loop off => some { Enc.plain 0x0B 1 with p3 := off }
  | .next p neg => some { Enc.plain 0x0C with a := predCode p, sub := (bit1 neg).setWidth 3 }
  | .spin => some (Enc.plain 0x0D)
  | .add x sat => some (encAlu 0x10 x 0 ((bit1 sat).setWidth 8))
  | .sub x sat => some (encAlu 0x11 x 0 ((bit1 sat).setWidth 8))
  | .mul x => some (encAlu 0x12 x)
  | .mulhi x => some (encAlu 0x13 x)
  | .mad x sat => some (encAlu 0x14 x 0 ((bit1 sat).setWidth 8))
  | .min x => some (encAlu 0x15 x)
  | .max x => some (encAlu 0x16 x)
  | .absn x neg sat => some (encAlu 0x17 x ((bit1 neg).setWidth 3) ((bit1 sat).setWidth 8))
  | .and x inv => some (encAlu 0x18 x ((bit1 inv).setWidth 3))
  | .or x inv => some (encAlu 0x19 x ((bit1 inv).setWidth 3))
  | .xor x inv => some (encAlu 0x1A x ((bit1 inv).setWidth 3))
  | .shl x => some (encAlu 0x1B x)
  | .shr x => some (encAlu 0x1C x)
  | .rot x right => some (encAlu 0x1D x ((bit1 right).setWidth 3))
  | .bcnt x op => some (encAlu 0x1E x op.code)
  | .bitf x op => some (encAlu 0x1F x op.code)
  | .setp g ty cond comb pd a b =>
    some (({ Enc.plain 0x20 with
      dst := predCode pd, a := a.code, c := comb.codes.2, sub := cond.code, ty := ty.code,
      md := comb.codes.1 }.guard g).srcB b)
  | .sel x pc => some { encAlu 0x21 x with c := predCode pc }
  | .plog g op pd pa pb =>
    some ({ Enc.plain 0x22 with
      dst := predCode pd, a := predCode pa, b := if op == PlogOp.not then 0xFF else predCode pb, sub := op.code }.guard g)
  | .mov x => some (encAlu 0x23 x)
  | .movi g ty d (.i32 w) =>
    some ({ Enc.plain 0x24 1 with dst := d.code, ty := ty.code, p3 := w }.guard g)
  | .movi g ty d (.i64 w) =>
    some ({ Enc.plain 0x24 2 with dst := d.code, ty := ty.code, p3 := lo32 w, p4 := hi32 w }.guard g)
  | .lea x x32 sh => some (encAlu 0x25 x 0 ((0 : BitVec 2) ++ bit1 x32 ++ sh : BitVec 8))
  | .div x r nz => some (encAlu 0x26 x ((bit1 r).setWidth 3) ((bit1 nz).setWidth 8))
  | .ext x (.sext n) => some (encAlu 0x27 x 0 (n.setWidth 8))
  | .ext x (.zext n) => some (encAlu 0x27 x 1 (n.setWidth 8))
  | .ext x .trunc => some (encAlu 0x27 x 2)
  | .addc x ci co => some { encAlu 0x28 x 0 (co.setWidth 8) with c := optPredCode ci }
  | .subb x bi bo => some { encAlu 0x29 x 0 (bo.setWidth 8) with c := optPredCode bi }
  | .mulw x => some (encAlu 0x2A x)
  | .csub x (.p pc) => some { encAlu 0x2B x 0 with c := predCode pc }
  | .csub x (.ge pq) => some (encAlu 0x2B x 1 (pq.setWidth 8))
  | .clamp x => some (encAlu 0x2C x)
  | .fadd x => some (encFpu 0x30 x)
  | .fsub x => some (encFpu 0x31 x)
  | .fmul x => some (encFpu 0x32 x)
  | .fma x => some (encFpu 0x33 x)
  | .fmin x => some (encFpu 0x34 x)
  | .fmax x => some (encFpu 0x35 x)
  | .fabsn x op => some (encFpu 0x36 x op.code)
  | .fsetp g ty cond comb pd a b =>
    some (({ Enc.plain 0x37 with
      dst := predCode pd, a := a.code, c := comb.codes.2, sub := cond.code, ty := ty.code,
      md := comb.codes.1 }.guard g).srcB b)
  | .frcp x => some (encFpu 0x38 x)
  | .frsq x => some (encFpu 0x39 x)
  | .fsqrt x => some (encFpu 0x3A x)
  | .fexp2 x => some (encFpu 0x3B x)
  | .flog2 x => some (encFpu 0x3C x)
  | .fsincos x => some (encFpu 0x3D x)
  | .fdiv x => some (encFpu 0x3E x)
  | .fclass x => some (encFpu 0x3F x)
  | .cvtif x src => some (encFpu 0x40 x 0 (src.code.setWidth 8))
  | .cvtfi x dst => some (encFpu 0x41 x 0 (dst.code.setWidth 8))
  | .cvtff x src hi => some (encFpu 0x42 x ((bit1 hi).setWidth 3) (src.code.setWidth 8))
  | .frnd x => some (encFpu 0x43 x)
  | .fscal x op => some (encFpu 0x44 x op.code)
  | .dot2 x => some (encFpu 0x45 x)
  | .qscale x => some (encNarrow 0x50 x)
  | .quant x => some (encNarrow 0x51 x)
  | .dequant x => some (encNarrow 0x52 x)
  | .qpack x => some (encNarrow 0x53 x)
  | .qunpack x => some (encNarrow 0x54 x)
  | .fmtq x => some (encNarrow 0x55 x)
  | .rngNext g d => some ({ Enc.plain 0x56 with dst := d.code }.guard g)
  | .rngUnif g d => some ({ Enc.plain 0x56 with dst := d.code, sub := 1 }.guard g)
  | .rngSeed g a => some ({ Enc.plain 0x56 with a := a.code, sub := 2 }.guard g)
  | .shfl g mode wide d a b r =>
    some (({ Enc.plain 0x60 with
      dst := d.code, a := a.code, sub := mode.code, ty := if wide then 4 else 2, md := recMod r }.guard g).srcB b)
  | .vote g d (.any p) => some ({ Enc.plain 0x61 with dst := d.code, a := predCode p, sub := 0 }.guard g)
  | .vote g d (.all p) => some ({ Enc.plain 0x61 with dst := d.code, a := predCode p, sub := 1 }.guard g)
  | .vote g d (.uni p) => some ({ Enc.plain 0x61 with dst := d.code, a := predCode p, sub := 2 }.guard g)
  | .vote g d (.eq a) => some ({ Enc.plain 0x61 with dst := d.code, a := a.code, sub := 3 }.guard g)
  | .ballot g d p (.word w) => some (({ Enc.plain 0x62 with dst := d.code, a := predCode p }.guard g).srcB w)
  | .ballot g d p .wv => some ({ Enc.plain 0x62 with dst := d.code, a := predCode p, sub := 1 }.guard g)
  | .ballot g d p .cnt => some ({ Enc.plain 0x62 with dst := d.code, a := predCode p, sub := 2 }.guard g)
  | .tred g op rs d a =>
    some ({ Enc.plain 0x63 with
      dst := d.code, a := a.code, sub := op.codes.1, ty := op.codes.2.1, md := op.codes.2.2, rs }.guard g)
  | .tscan g op excl d a =>
    some ({ Enc.plain 0x64 with
      dst := d.code, a := a.code, sub := op.codes.1, ty := op.codes.2.1,
      md := op.codes.2.2 ||| (if excl then 2 else 0) }.guard g)
  | .bcast g wide d a n =>
    some (({ Enc.plain 0x65 with dst := d.code, a := a.code, ty := if wide then 4 else 2 }.guard g).srcB n)
  | .ld x sx d => some { encMem 0x70 x x.ord.memSub sx with dst := d.code }
  | .st x c => some { encMem 0x71 x x.ord.memSub false with c := c.code }
  | .ldro x sx d => some { encMem 0x72 x 0 sx with dst := d.code }
  | .lds x sx d => some { encMem 0x73 x 0 sx with dst := d.code }
  | .sts x c => some { encMem 0x74 x 0 false with c := c.code }
  | .samp g fs d u v q h =>
    some ({ Enc.plain 0x75 1 with
      dst := d.code, a := u.code, b := v.code, c := q.code, fs := bit1 fs,
      p3 := ((0 : BitVec 12) ++ h.srcb ++ h.hidx : BitVec 32) }.guard g)
  | .pf x level => some (encMem 0x76 x level.code false)
  | .hmap fs d m r => some { ({ Enc.plain 0x77 with dst := d.code, fs := bit1 fs }).mem r with c := sCode m }
  | .hflush fs op h =>
    some { Enc.plain 0x78 1 with b := h.srcb, sub := op.code, fs := bit1 fs, p3 := h.hidx.setWidth 32 }
  | .hquery g op d h =>
    some ({ Enc.plain 0x79 1 with
      dst := d.code, b := h.srcb, sub := (match op with | .info => 0 | .len => 1), p3 := h.hidx.setWidth 32 }.guard g)
  | .atom x op d c => some { encAtom 0x80 x op.codes.1 op.codes.2.1 op.codes.2.2 with dst := d.code, c := c.code }
  | .cas x ty d c => some { encAtom 0x81 x 0 ty.code 0 with dst := d.code, c := c.code }
  | .red x op c => some { encAtom 0x82 x op.codes.1 op.codes.2.1 op.codes.2.2 with c := c.code }
  | .barSync scope id n => some { Enc.plain 0x83 with a := n.code, c := id, md := scope.code.setWidth 8 }
  | .barArv scope id d n =>
    some { Enc.plain 0x83 with dst := d.code, a := n.code, c := id, sub := 1, md := scope.code.setWidth 8 }
  | .barWait scope id tok => some { Enc.plain 0x83 with a := tok.code, c := id, sub := 2, md := scope.code.setWidth 8 }
  | .waitaddr cmp ty acq scope d off o64 h imm c timeout =>
    some { Enc.plain 0x84 2 with
      dst := d.code, a := off.code, b := h.srcb, c := c.code, sub := cmp.code, ty := ty.code,
      md := ((0 : BitVec 2) ++ bit1 acq ++ bit1 o64 ++ (0 : BitVec 1) ++ scope.code : BitVec 8),
      p3 := offParcel imm h.hidx, p4 := timeout }
  | .cbputAcq d k => some { Enc.plain 0x85 with dst := d.code, c := k }
  | .cbputCom k => some { Enc.plain 0x85 with c := k, sub := 1 }
  | .cbget d k => some { Enc.plain 0x86 with dst := d.code, c := k }
  | .cbrel k => some { Enc.plain 0x87 with c := k }
  | .fenceAcq scope => some (encFence 0 scope)
  | .fenceRel scope => some (encFence 1 scope)
  | .fenceAcqrel scope => some (encFence 2 scope)
  | .fenceSc scope => some (encFence 3 scope)
  | .fenceRo scope => some (encFence 4 scope)
  | .fenceOpr scope => some (encFence 5 scope)
  | .waitf any m d =>
    some { Enc.plain 0x89 with
      dst := d.code, c := m.setWidth 8, sub := (bit1 any).setWidth 3, md := (m >>> 8).setWidth 8 }
  | .sig fs set eng wide scope m v =>
    some { ({ Enc.plain 0x8A with
        c := v.code, sub := (bit1 set).setWidth 3, ty := if wide then 4 else 1, fs := bit1 fs,
        md := ((0 : BitVec 4) ++ bit1 eng ++ scope.code : BitVec 8) }).mem m with dst := 0xFF }
  | .cbinit k h size count =>
    some { Enc.plain 0x8B 1 with a := size.code, b := count.code, c := k, p3 := h.setWidth 32 }
  | .tdecl fs r hb =>
    some { (Enc.plain 0x90 2).record r with c := hb.srcb, fs := bit1 fs, p4 := hb.hidx.setWidth 32 }
  | .tdeclRm fs hb => some { Enc.plain 0x90 2 with c := hb.srcb, fs := bit1 fs, sub := 1, p4 := hb.hidx.setWidth 32 }
  | .ttile d r hb => some { (Enc.plain 0x91 2).record r with dst := d.code, c := hb.srcb, p4 := hb.hidx.setWidth 32 }
  | .topenR t => some { Enc.plain 0x92 with a := t.code }
  | .topenW t => some { Enc.plain 0x92 with a := t.code, sub := 1 }
  | .topenWRecall t => some { Enc.plain 0x92 with a := t.code, sub := 2 }
  | .tseal fs t => some { Enc.plain 0x93 with a := t.code, fs := bit1 fs }
  | .tdrop fs t => some { Enc.plain 0x94 with a := t.code, fs := bit1 fs }
  | .tsplit d t k c => some { Enc.plain 0x95 with dst := d.code, a := t.code, b := k.code, c := c.code }
  | .tfree t => some { Enc.plain 0x96 with a := t.code }
  | .tquery d t => some { Enc.plain 0x97 with dst := d.code, a := t.code }
  | .menq fs slot d k => some { Enc.plain 0xA0 with dst := d.code, a := sCode k, rs := slot, fs := bit1 fs }
  | .mwaitId d t => some { Enc.plain 0xA1 with dst := d.code, a := t.code }
  | .mwaitFlag fs t => some { Enc.plain 0xA1 with a := t.code, sub := 1, fs := bit1 fs }
  | .mwld fs slot d t ts =>
    some { Enc.plain 0xA2 with dst := d.code, a := t.code, b := ts.code, rs := slot, fs := bit1 fs }
  | .mwrel r => some { Enc.plain 0xA3 with a := r.code }
  | .macz fs t => some { Enc.plain 0xA4 with a := t.code, fs := bit1 fs }
  | .macrd g fs raw slot d t row col =>
    some ({ Enc.plain 0xA5 with
      dst := d.code, a := t.code, b := row.code, c := col.code, rs := slot, fs := bit1 fs,
      md := (bit1 raw).setWidth 8 }.guard g)
  | .wsld fs slot img t ts =>
    some { Enc.plain 0xA6 1 with a := t.code, b := ts.code, rs := slot, fs := bit1 fs, p3 := img.setWidth 32 }
  | .wsinfoCal d e => some { Enc.plain 0xA7 with dst := d.code, a := e.code }
  | .wsinfoNow d => some { Enc.plain 0xA7 with dst := d.code, sub := 1 }
  | .mquery d t => some { Enc.plain 0xA8 with dst := d.code, a := t.code }
  | .dcopy fs scope r => some { (Enc.plain 0xB0 1).record r with fs := bit1 fs, md := scope.code.setWidth 8 }
  | .dfill fs scope wide r v =>
    some { (Enc.plain 0xB1 1).record r with
      c := v.code, fs := bit1 fs, ty := if wide then 4 else 2, md := scope.code.setWidth 8 }
  | .grpMake d key n rank => some { Enc.plain 0xB2 with dst := d.code, a := key.code, b := n.code, c := rank.code }
  | .grpFree g => some { Enc.plain 0xB2 with a := g.code, sub := 1 }
  | .grpInfo d g => some { Enc.plain 0xB2 with dst := d.code, a := g.code, sub := 2 }
  | .coll fs form op ty src dst grp hs hd n =>
    some { Enc.plain 0xB3 2 with
      a := src.code, b := dst.code, c := grp.code, sub := form.code, fs := bit1 fs,
      ty := (match ty with | .int t => t.code | .flt t => t.code),
      md := (op.code ++ (0 : BitVec 1) ++ (match ty with | .int _ => (0 : BitVec 1) | .flt _ => 1) ++ (0 : BitVec 3) :
        BitVec 8),
      p3 := ((0 : BitVec 8) ++ hd ++ hs : BitVec 32), p4 := n }
  | .gbarSync g => some { Enc.plain 0xB4 with a := g.code }
  | .gbarArv fs g => some { Enc.plain 0xB4 with a := g.code, sub := 1, fs := bit1 fs }
  | .sclook g fs d a => some ({ Enc.plain 0xC0 with dst := d.code, a := a.code, fs := bit1 fs }.guard g)
  | .scwait g d a => some ({ Enc.plain 0xC1 with dst := d.code, a := a.code }.guard g)
  | .scfill fs item => some { Enc.plain 0xC2 with a := item.code, fs := bit1 fs }
  | .scinv fs obj tag => some { Enc.plain 0xC3 with a := obj.code, b := tag.code, fs := bit1 fs }
  | .frameCtx d => some { Enc.plain 0xC4 with dst := d.code }
  | .frameTag d tag => some { Enc.plain 0xC4 with dst := d.code, a := tag.code, sub := 1 }
  | .gtake k => some { Enc.plain 0xC5 with dst := sCode k }
  | .pfill fs item => some { Enc.plain 0xC6 with a := item.code, fs := bit1 fs }
  | .pfail fs item status => some { Enc.plain 0xC7 with a := item.code, b := status.code, fs := bit1 fs }
  | .prangeAdd fs r hw => some { (Enc.plain 0xC8 1).record r with c := hw.code, fs := bit1 fs }
  | .prangeRm fs hw => some { Enc.plain 0xC8 1 with c := hw.code, sub := 1, fs := bit1 fs }
  | .prangeClr fs hw => some { Enc.plain 0xC8 1 with c := hw.code, sub := 2, fs := bit1 fs }
  | .prangeLayer fs r n => some { (Enc.plain 0xC8 1).record r with c := n.code, sub := 3, fs := bit1 fs }
  | .rtrace fs first sr n sh hr hs hh =>
    some { Enc.plain 0xD0 2 with
      a := sr.code, b := n.code, c := sh.code, sub := (bit1 first).setWidth 3, fs := bit1 fs,
      p3 := ((0 : BitVec 8) ++ hr ++ hs : BitVec 32), p4 := hh.setWidth 32 }
  | .rhit g short d i h imm r =>
    some ({ Enc.plain 0xD1 1 with
      dst := d.code, a := i.code, sub := (bit1 short).setWidth 3, md := recMod r, p3 := offParcel imm h }.guard g)
  -- it runs in the Nib and so takes no guard (02 R54, 15 R412 against R408; DEDUCED, log entry 119)
  | .rhitCnt d => some { Enc.plain 0xD1 1 with dst := d.code, sub := 2 }
  | .rsort fs first sr n sh hr hs hh =>
    some { Enc.plain 0xD2 2 with
      a := sr.code, b := n.code, c := sh.code, sub := (bit1 first).setWidth 3, fs := bit1 fs,
      p3 := ((0 : BitVec 8) ++ hr ++ hs : BitVec 32), p4 := hh.setWidth 32 }
  | .rprog fs kind r => some { (Enc.plain 0xD3 1).record r with c := kind, fs := bit1 fs }
  | .visJob fs d r => some { (Enc.plain 0xD4 1).record r with dst := d.code, fs := bit1 fs }
  | .visGet g d job r => some ({ Enc.plain 0xD4 with dst := d.code, a := job.code, sub := 1, md := recMod r }.guard g)
  | .trap n => some { Enc.plain 0xE0 with c := n }
  | .rfe => some (Enc.plain 0xE1)
  | .csrr wide d csr => some { Enc.plain 0xE2 1 with dst := d.code, ty := if wide then 4 else 1, p3 := csr.setWidth 32 }
  | .csrw d a csr => some { Enc.plain 0xE3 1 with dst := d.code, a := a.code, ty := 1, p3 := csr.setWidth 32 }
  | .yield => some (Enc.plain 0xE4)
  | .ksave set m => some { Enc.plain 0xE5 2 with sub := set.code, p3 := lo32 m, p4 := hi32 m }
  | .tlbi fs op scope a =>
    some { Enc.plain 0xE6 with a := a.code, sub := op.code, fs := bit1 fs, md := scope.code.setWidth 8 }
  | .bkpt n => some { Enc.plain 0xE7 with c := n }
  | .spawn fs d r shape => some { (Enc.plain 0xF0 1).record r with dst := d.code, c := shape.code, fs := bit1 fs }
  | .qpost fs q r => some { (Enc.plain 0xF1 1).record r with c := q, fs := bit1 fs }
  | .qwaitDone d n q => some { Enc.plain 0xF2 with dst := d.code, a := n.code, c := q }
  | .qwaitSpace d q => some { Enc.plain 0xF2 with dst := d.code, c := q, sub := 1 }
  | _ => none

/-! ### Decoding

`candidate` reads the fields that the form of an opcode uses; `decodeEnc` accepts its term exactly when the encoder
gives every field back, which checks the unused fields (02 R45), and when the term is well formed. -/

def Enc.grd (e : Enc) : Guard := ⟨e.gn == 1, e.g⟩

/-- Source B, or the immediate of a 96-bit form (02 R46). -/
def Enc.decB (e : Enc) : Option Src := if e.len == 1 then some (.imm e.p3) else Src.dec e.b

def Enc.alu (e : Enc) : Option Alu := do
  some { g := e.grd, ty := ← IType.dec e.ty, d := ← Dst.dec e.dst, a := ← Src.dec e.a, b := ← e.decB, c := ← Src.dec e.c }

/-- As `Enc.alu` where SRCC is a predicate field. -/
def Enc.aluNoC (e : Enc) : Option Alu := do
  some { g := e.grd, ty := ← IType.dec e.ty, d := ← Dst.dec e.dst, a := ← Src.dec e.a, b := ← e.decB, c := .none }

def Enc.fpu (e : Enc) (sat : Bool) : Option Fpu := do
  some { g := e.grd, ty := ← FType.dec e.ty, rs := e.rs, sat, d := ← Dst.dec e.dst, a := ← Src.dec e.a, b := ← e.decB,
         c := ← Src.dec e.c }

def Enc.narrow (e : Enc) : Option Narrow := do
  some { g := e.grd, slot := e.rs, d := ← Dst.dec e.dst, a := ← Src.dec e.a, b := ← Src.dec e.b }

/-- The handle named by SRCB and the HIDX in the low bits of a parcel (08 R211). -/
def hrefDec (srcb : BitVec 8) (hidx : BitVec 12) : Option HRef :=
  if srcb == 0xFF then some (.idx hidx) else (sDec srcb).map .word

def Enc.memRef (e : Enc) : Option MemRef := do
  let long := e.len == 2
  some { off := ← Src.dec e.a, o64 := e.md.getLsbD 4, h := ← hrefDec e.b (e.p3.setWidth 12),
         imm := if long then e.p4 else (e.p3.extractLsb' 12 20).signExtend 32, long }

def Enc.memAcc (e : Enc) (ord : Order) : Option MemAcc := do
  some { g := e.grd, fs := e.fs == 1, w := ← Width.dec (e.md.extractLsb' 5 3), ord,
         scope := ← Scope.dec (e.md.setWidth 3), m := ← e.memRef }

def Enc.atomAcc (e : Enc) : Option AtomAcc := do
  some { g := e.grd, fs := e.fs == 1, ord := ← Order.decAtom (e.md.extractLsb' 5 3),
         scope := ← Scope.dec (e.md.setWidth 3), m := ← e.memRef }

def Enc.recRef (e : Enc) : Option RecRef := do
  some { off := ← Src.dec e.a, h := ← hrefDec e.b (e.p3.setWidth 12), imm := e.p3.extractLsb' 12 20 }

/-- The record predicate of MOD[3:0]. -/
def recDec (md : BitVec 8) : Option PredIx := if md.getLsbD 3 then some (md.setWidth 3) else none

def Enc.scope (e : Enc) : Option Scope := Scope.dec (e.md.setWidth 3)

def Enc.fsel (e : Enc) : Bool := e.fs == 1

/-- The pairs of a `brm` (03 R86). -/
def Enc.brmPairs (e : Enc) : Option (List BrmPair) := do
  let x := pair32 e.p3 e.p4
  let one (i : Nat) (f : BitVec 8) : Option BrmPair := do
    some { p := ← predDec f, neg := e.md.getLsbD i, off := x.extractLsb' (12 * i) 12 }
  let n := e.sub.toNat + 1
  let p0 ← one 0 e.a
  let p1 ← if 1 < n then (one 1 e.b).map ([·]) else some []
  let p2 ← if 2 < n then (one 2 e.c).map ([·]) else some []
  let p3 ← if 3 < n then (one 3 e.dst).map ([·]) else some []
  some (p0 :: (p1 ++ p2 ++ p3))

/-- 0x00 to 0x0F (03 R80). -/
def candControl (e : Enc) : Option Instr :=
  match e.op.toNat with
  | 0x00 => some .nop
  | 0x01 =>
    match e.sub.toNat with
    | 0 => some (.bra .always e.p3)
    | 1 => (sDec e.a).map fun s => .bra (.z s) e.p3
    | 2 => (sDec e.a).map fun s => .bra (.nz s) e.p3
    | _ => none
  | 0x02 => (predDec e.a).map fun p => .brv p (e.sub == 1) e.p3 e.p4
  | 0x03 => e.brmPairs.map fun ps => .brm ps ((pair32 e.p3 e.p4).extractLsb' 48 12)
  | 0x04 => some .join
  | 0x05 => some (.brk e.grd e.c)
  | 0x06 => some (.cont e.grd e.c)
  | 0x07 =>
    match e.sub.toNat with
    | 0 => some (.call (.direct e.p3))
    | 1 => (sDec e.a).map fun s => .call (.ind s)
    | _ => none
  | 0x08 => some .ret
  | 0x09 => some (.exit e.grd)
  | 0x0A => some (.reorder (e.ty == 0) (e.a.setWidth 7))
  | 0x0B => some (.loop e.p3)
  | 0x0C => (predDec e.a).map fun p => .next p (e.sub == 1)
  | 0x0D => some .spin
  | _ => none

/-- 0x10 to 0x1F (04 R107). -/
def candInt1 (e : Enc) : Option Instr :=
  match e.op.toNat with
  | 0x10 => e.alu.map fun x => .add x (e.md == 1)
  | 0x11 => e.alu.map fun x => .sub x (e.md == 1)
  | 0x12 => e.alu.map .mul
  | 0x13 => e.alu.map .mulhi
  | 0x14 => e.alu.map fun x => .mad x (e.md == 1)
  | 0x15 => e.alu.map .min
  | 0x16 => e.alu.map .max
  | 0x17 => e.alu.map fun x => .absn x (e.sub == 1) (e.md == 1)
  | 0x18 => e.alu.map fun x => .and x (e.sub == 1)
  | 0x19 => e.alu.map fun x => .or x (e.sub == 1)
  | 0x1A => e.alu.map fun x => .xor x (e.sub == 1)
  | 0x1B => e.alu.map .shl
  | 0x1C => e.alu.map .shr
  | 0x1D => e.alu.map fun x => .rot x (e.sub == 1)
  | 0x1E => do some (.bcnt (← e.alu) (← pick [.popc, .clz, .ctz] e.sub))
  | 0x1F => do some (.bitf (← e.alu) (← pick [.ext, .ins, .rev] e.sub))
  | _ => none

/-- 0x20 to 0x2F (04 R107). -/
def candInt2 (e : Enc) : Option Instr :=
  match e.op.toNat with
  | 0x20 => do
    some (.setp e.grd (← IType.dec e.ty) (ICond.dec e.sub) (← Combine.dec e.md e.c) (← predDec e.dst)
      (← Src.dec e.a) (← e.decB))
  | 0x21 => do some (.sel (← e.aluNoC) (← predDec e.c))
  | 0x22 => do
    let op ← PlogOp.dec e.sub
    some (.plog e.grd op (← predDec e.dst) (← predDec e.a) (← if op == PlogOp.not then some 0 else predDec e.b))
  | 0x23 => e.alu.map .mov
  | 0x24 => do
    some (.movi e.grd (← IType.dec e.ty) (← Dst.dec e.dst)
      (if e.len == 2 then .i64 (pair32 e.p3 e.p4) else .i32 e.p3))
  | 0x25 => e.alu.map fun x => .lea x (e.md.getLsbD 5) (e.md.setWidth 5)
  | 0x26 => e.alu.map fun x => .div x (e.sub == 1) (e.md == 1)
  | 0x27 => do some (.ext (← e.alu) (← pick [.sext (e.md.setWidth 6), .zext (e.md.setWidth 6), .trunc] e.sub))
  | 0x28 => do some (.addc (← e.aluNoC) (← optPredDec e.c) (e.md.setWidth 3))
  | 0x29 => do some (.subb (← e.aluNoC) (← optPredDec e.c) (e.md.setWidth 3))
  | 0x2A => e.alu.map .mulw
  | 0x2B => do
    if e.sub == 0 then some (.csub (← e.aluNoC) (.p (← predDec e.c)))
    else some (.csub (← e.alu) (.ge (e.md.setWidth 3)))
  | 0x2C => e.alu.map .clamp
  | _ => none

/-- 0x30 to 0x3F (05 R135). -/
def candFloat1 (e : Enc) : Option Instr :=
  let x := e.fpu (e.md == 1)
  match e.op.toNat with
  | 0x30 => x.map .fadd
  | 0x31 => x.map .fsub
  | 0x32 => x.map .fmul
  | 0x33 => x.map .fma
  | 0x34 => x.map .fmin
  | 0x35 => x.map .fmax
  | 0x36 => do some (.fabsn (← x) (← pick [.abs, .neg, .cpsgn] e.sub))
  | 0x37 => do
    some (.fsetp e.grd (← FType.dec e.ty) (FCond.dec e.sub) (← Combine.dec e.md e.c) (← predDec e.dst)
      (← Src.dec e.a) (← e.decB))
  | 0x38 => x.map .frcp
  | 0x39 => x.map .frsq
  | 0x3A => x.map .fsqrt
  | 0x3B => x.map .fexp2
  | 0x3C => x.map .flog2
  | 0x3D => x.map .fsincos
  | 0x3E => x.map .fdiv
  | 0x3F => x.map .fclass
  | _ => none

/-- 0x40 to 0x4F (05 R135). -/
def candFloat2 (e : Enc) : Option Instr :=
  match e.op.toNat with
  | 0x40 => do some (.cvtif (← e.fpu false) (← IType.dec (e.md.setWidth 3)))
  | 0x41 => do some (.cvtfi (← e.fpu false) (← IType.dec (e.md.setWidth 3)))
  | 0x42 => do some (.cvtff (← e.fpu false) (← FType.dec (e.md.setWidth 3)) (e.sub == 1))
  | 0x43 => (e.fpu false).map .frnd
  | 0x44 => do some (.fscal (← e.fpu false) (← pick [.ldexp, .mant, .exp] e.sub))
  | 0x45 => (e.fpu false).map .dot2
  | _ => none

/-- 0x50 to 0x5F (06 R165). -/
def candNarrow (e : Enc) : Option Instr :=
  match e.op.toNat with
  | 0x50 => e.narrow.map .qscale
  | 0x51 => e.narrow.map .quant
  | 0x52 => e.narrow.map .dequant
  | 0x53 => e.narrow.map .qpack
  | 0x54 => e.narrow.map .qunpack
  | 0x55 => e.narrow.map .fmtq
  | 0x56 =>
    match e.sub.toNat with
    | 0 => (Dst.dec e.dst).map (.rngNext e.grd)
    | 1 => (Dst.dec e.dst).map (.rngUnif e.grd)
    | 2 => (Src.dec e.a).map (.rngSeed e.grd)
    | _ => none
  | _ => none

/-- 0x60 to 0x6F (07 R181). `ballot` has no predicate destination, as the table of R181 says (DEDUCED, log entry 103). -/
def candCross (e : Enc) : Option Instr :=
  match e.op.toNat with
  | 0x60 => do
    some (.shfl e.grd (← ShflMode.dec e.sub) (e.ty == 4) (← Dst.dec e.dst) (← Src.dec e.a) (← e.decB) (recDec e.md))
  | 0x61 => do
    let d ← PDst.dec e.dst
    match e.sub.toNat with
    | 0 => (predDec e.a).map fun p => .vote e.grd d (.any p)
    | 1 => (predDec e.a).map fun p => .vote e.grd d (.all p)
    | 2 => (predDec e.a).map fun p => .vote e.grd d (.uni p)
    | 3 => (Src.dec e.a).map fun a => .vote e.grd d (.eq a)
    | _ => none
  | 0x62 => do
    let d ← Dst.dec e.dst
    let p ← predDec e.a
    match e.sub.toNat with
    | 0 => e.decB.map fun w => .ballot e.grd d p (.word w)
    | 1 => some (.ballot e.grd d p .wv)
    | 2 => some (.ballot e.grd d p .cnt)
    | _ => none
  | 0x63 => do
    some (.tred e.grd (← RedOp.dec e.sub e.ty (e.md.getLsbD 0)) e.rs (← Dst.dec e.dst) (← Src.dec e.a))
  | 0x64 => do
    some (.tscan e.grd (← RedOp.dec e.sub e.ty (e.md.getLsbD 0)) (e.md.getLsbD 1) (← Dst.dec e.dst) (← Src.dec e.a))
  | 0x65 => do some (.bcast e.grd (e.ty == 4) (← Dst.dec e.dst) (← Src.dec e.a) (← e.decB))
  | _ => none

/-- 0x70 to 0x7F (08 R212). -/
def candMemory (e : Enc) : Option Instr :=
  match e.op.toNat with
  | 0x70 => do some (.ld (← e.memAcc (← Order.decMemSub e.sub)) (e.md.getLsbD 3) (← Dst.dec e.dst))
  | 0x71 => do some (.st (← e.memAcc (← Order.decMemSub e.sub)) (← Src.dec e.c))
  | 0x72 => do some (.ldro (← e.memAcc .plain) (e.md.getLsbD 3) (← Dst.dec e.dst))
  | 0x73 => do some (.lds (← e.memAcc .plain) (e.md.getLsbD 3) (← Dst.dec e.dst))
  | 0x74 => do some (.sts (← e.memAcc .plain) (← Src.dec e.c))
  | 0x75 => do
    some (.samp e.grd e.fsel (← Dst.dec e.dst) (← Src.dec e.a) (← Src.dec e.b) (← Src.dec e.c)
      (← hrefDec (e.p3.extractLsb' 12 8) (e.p3.setWidth 12)))
  | 0x76 => do some (.pf (← e.memAcc .plain) (← pick [.l2, .l1, .ro] e.sub))
  | 0x77 => do some (.hmap e.fsel (← Dst.dec e.dst) (← sDec e.c) (← e.memRef))
  | 0x78 => do some (.hflush e.fsel (← pick [.wb, .inv, .wbinv] e.sub) (← hrefDec e.b (e.p3.setWidth 12)))
  | 0x79 => do
    some (.hquery e.grd (← pick [.info, .len] e.sub) (← Dst.dec e.dst) (← hrefDec e.b (e.p3.setWidth 12)))
  | _ => none

/-- 0x80 to 0x8F (09 R247, 10 R257 to R276). -/
def candSync (e : Enc) : Option Instr :=
  match e.op.toNat with
  | 0x80 => do
    some (.atom (← e.atomAcc) (← AtomOp.dec e.sub e.ty (e.md.getLsbD 3)) (← Dst.dec e.dst) (← Src.dec e.c))
  | 0x81 => do some (.cas (← e.atomAcc) (← IType.dec e.ty) (← Dst.dec e.dst) (← Src.dec e.c))
  | 0x82 => do some (.red (← e.atomAcc) (← AtomOp.dec e.sub e.ty (e.md.getLsbD 3)) (← Src.dec e.c))
  | 0x83 => do
    let s ← e.scope
    let a ← Src.dec e.a
    match e.sub.toNat with
    | 0 => some (.barSync s e.c a)
    | 1 => (Dst.dec e.dst).map fun d => .barArv s e.c d a
    | 2 => some (.barWait s e.c a)
    | _ => none
  | 0x84 => do
    some (.waitaddr (← pick [.eq, .ne, .lt, .ge, .sge] e.sub) (← IType.dec e.ty) (e.md.getLsbD 5) (← e.scope)
      (← Dst.dec e.dst) (← Src.dec e.a) (e.md.getLsbD 4) (← hrefDec e.b (e.p3.setWidth 12)) (e.p3.extractLsb' 12 20)
      (← Src.dec e.c) e.p4)
  | 0x85 => if e.sub == 0 then (Dst.dec e.dst).map fun d => .cbputAcq d e.c else some (.cbputCom e.c)
  | 0x86 => (Dst.dec e.dst).map fun d => .cbget d e.c
  | 0x87 => some (.cbrel e.c)
  | 0x88 => do
    let s ← e.scope
    pick [.fenceAcq s, .fenceRel s, .fenceAcqrel s, .fenceSc s, .fenceRo s, .fenceOpr s] e.sub
  | 0x89 => do some (.waitf (e.sub == 1) ((e.md.setWidth 4) ++ e.c : BitVec 12) (← Dst.dec e.dst))
  | 0x8A => do
    some (.sig e.fsel (e.sub == 1) (e.md.getLsbD 3) (e.ty == 4) (← e.scope) (← e.memRef) (← Src.dec e.c))
  | 0x8B => do some (.cbinit e.c (e.p3.setWidth 12) (← Src.dec e.a) (← Src.dec e.b))
  | _ => none

/-- 0x90 to 0x9F (11 R297). -/
def candTile (e : Enc) : Option Instr :=
  match e.op.toNat with
  | 0x90 => do
    let hb ← hrefDec e.c (e.p4.setWidth 12)
    if e.sub == 0 then some (.tdecl e.fsel (← e.recRef) hb) else some (.tdeclRm e.fsel hb)
  | 0x91 => do some (.ttile (← Dst.dec e.dst) (← e.recRef) (← hrefDec e.c (e.p4.setWidth 12)))
  | 0x92 => do
    let t ← Src.dec e.a
    pick [.topenR t, .topenW t, .topenWRecall t] e.sub
  | 0x93 => (Src.dec e.a).map (.tseal e.fsel)
  | 0x94 => (Src.dec e.a).map (.tdrop e.fsel)
  | 0x95 => do some (.tsplit (← Dst.dec e.dst) (← Src.dec e.a) (← Src.dec e.b) (← Src.dec e.c))
  | 0x96 => (Src.dec e.a).map .tfree
  | 0x97 => do some (.tquery (← Dst.dec e.dst) (← Src.dec e.a))
  | _ => none

/-- 0xA0 to 0xAF (12 R324). -/
def candMatrix (e : Enc) : Option Instr :=
  match e.op.toNat with
  | 0xA0 => do some (.menq e.fsel e.rs (← Dst.dec e.dst) (← sDec e.a))
  | 0xA1 => do
    let t ← Src.dec e.a
    if e.sub == 0 then some (.mwaitId (← Dst.dec e.dst) t) else some (.mwaitFlag e.fsel t)
  | 0xA2 => do some (.mwld e.fsel e.rs (← Dst.dec e.dst) (← Src.dec e.a) (← Src.dec e.b))
  | 0xA3 => (Src.dec e.a).map .mwrel
  | 0xA4 => (Src.dec e.a).map (.macz e.fsel)
  | 0xA5 => do
    some (.macrd e.grd e.fsel (e.md == 1) e.rs (← Dst.dec e.dst) (← Src.dec e.a) (← Src.dec e.b) (← Src.dec e.c))
  | 0xA6 => do some (.wsld e.fsel e.rs (e.p3.setWidth 13) (← Src.dec e.a) (← Src.dec e.b))
  | 0xA7 => do
    let d ← Dst.dec e.dst
    if e.sub == 0 then some (.wsinfoCal d (← Src.dec e.a)) else some (.wsinfoNow d)
  | 0xA8 => do some (.mquery (← Dst.dec e.dst) (← Src.dec e.a))
  | _ => none

/-- 0xB0 to 0xBF (13 R344, R350, R353, R357). -/
def candEngine (e : Enc) : Option Instr :=
  match e.op.toNat with
  | 0xB0 => do some (.dcopy e.fsel (← e.scope) (← e.recRef))
  | 0xB1 => do some (.dfill e.fsel (← e.scope) (e.ty == 4) (← e.recRef) (← Src.dec e.c))
  | 0xB2 => do
    let a ← Src.dec e.a
    match e.sub.toNat with
    | 0 => some (.grpMake (← Dst.dec e.dst) a (← Src.dec e.b) (← Src.dec e.c))
    | 1 => some (.grpFree a)
    | 2 => some (.grpInfo (← Dst.dec e.dst) a)
    | _ => none
  | 0xB3 => do
    some (.coll e.fsel (← pick [.allgather, .redscat, .alltoall, .allred, .p2p] e.sub)
      (← pick [.add, .min, .max] (e.md.extractLsb' 5 3))
      (← if e.md.getLsbD 3 then (FType.dec e.ty).map .flt else (IType.dec e.ty).map .int)
      (← Src.dec e.a) (← Src.dec e.b) (← Src.dec e.c) (e.p3.setWidth 12) (e.p3.extractLsb' 12 12) e.p4)
  | 0xB4 => do
    let a ← Src.dec e.a
    if e.sub == 0 then some (.gbarSync a) else some (.gbarArv e.fsel a)
  | _ => none

/-- 0xC0 to 0xCF (14 R382). -/
def candFill (e : Enc) : Option Instr :=
  match e.op.toNat with
  | 0xC0 => do some (.sclook e.grd e.fsel (← Dst.dec e.dst) (← Src.dec e.a))
  | 0xC1 => do some (.scwait e.grd (← Dst.dec e.dst) (← Src.dec e.a))
  | 0xC2 => (Src.dec e.a).map (.scfill e.fsel)
  | 0xC3 => do some (.scinv e.fsel (← Src.dec e.a) (← Src.dec e.b))
  | 0xC4 => do
    let d ← Dst.dec e.dst
    if e.sub == 0 then some (.frameCtx d) else some (.frameTag d (← Src.dec e.a))
  | 0xC5 => (sDec e.dst).map .gtake
  | 0xC6 => (Src.dec e.a).map (.pfill e.fsel)
  | 0xC7 => do some (.pfail e.fsel (← Src.dec e.a) (← Src.dec e.b))
  | 0xC8 => do
    let c ← Src.dec e.c
    match e.sub.toNat with
    | 0 => some (.prangeAdd e.fsel (← e.recRef) c)
    | 1 => some (.prangeRm e.fsel c)
    | 2 => some (.prangeClr e.fsel c)
    | 3 => some (.prangeLayer e.fsel (← e.recRef) c)
    | _ => none
  | _ => none

/-- 0xD0 to 0xDF (15 R408). -/
def candRay (e : Enc) : Option Instr :=
  match e.op.toNat with
  | 0xD0 => do
    some (.rtrace e.fsel (e.sub == 1) (← Src.dec e.a) (← Src.dec e.b) (← Src.dec e.c) (e.p3.extractLsb' 12 12)
      (e.p3.setWidth 12) (e.p4.setWidth 12))
  | 0xD1 => do
    let d ← Dst.dec e.dst
    if e.sub == 2 then some (.rhitCnt d)
    else some (.rhit e.grd (e.sub == 1) d (← Src.dec e.a) (e.p3.setWidth 12) (e.p3.extractLsb' 12 20) (recDec e.md))
  | 0xD2 => do
    some (.rsort e.fsel (e.sub == 1) (← Src.dec e.a) (← Src.dec e.b) (← Src.dec e.c) (e.p3.extractLsb' 12 12)
      (e.p3.setWidth 12) (e.p4.setWidth 12))
  | 0xD3 => do some (.rprog e.fsel e.c (← e.recRef))
  | 0xD4 => do
    let d ← Dst.dec e.dst
    if e.sub == 0 then some (.visJob e.fsel d (← e.recRef)) else some (.visGet e.grd d (← Src.dec e.a) (recDec e.md))
  | _ => none

/-- 0xE0 to 0xEF (16 R455). -/
def candSystem (e : Enc) : Option Instr :=
  match e.op.toNat with
  | 0xE0 => some (.trap e.c)
  | 0xE1 => some .rfe
  | 0xE2 => do some (.csrr (e.ty == 4) (← Dst.dec e.dst) (e.p3.setWidth 12))
  | 0xE3 => do some (.csrw (← Dst.dec e.dst) (← Src.dec e.a) (e.p3.setWidth 12))
  | 0xE4 => some .yield
  | 0xE5 => do some (.ksave (← pick [.vlo, .vhi, .s, .p] e.sub) (pair32 e.p3 e.p4))
  | 0xE6 => do some (.tlbi e.fsel (← pick [.va, .ctx, .vm, .gpa, .all] e.sub) (← e.scope) (← Src.dec e.a))
  | 0xE7 => some (.bkpt e.c)
  | _ => none

/-- 0xF0 to 0xFF (17 R470). -/
def candLaunch (e : Enc) : Option Instr :=
  match e.op.toNat with
  | 0xF0 => do some (.spawn e.fsel (← Dst.dec e.dst) (← e.recRef) (← Src.dec e.c))
  | 0xF1 => do some (.qpost e.fsel e.c (← e.recRef))
  | 0xF2 => do
    let d ← Dst.dec e.dst
    if e.sub == 0 then some (.qwaitDone d (← Src.dec e.a) e.c) else some (.qwaitSpace d e.c)
  | _ => none

/-- The term that the used fields of an object give. -/
def candidate (e : Enc) : Option Instr :=
  match e.op.toNat / 16 with
  | 0x0 => candControl e
  | 0x1 => candInt1 e
  | 0x2 => candInt2 e
  | 0x3 => candFloat1 e
  | 0x4 => candFloat2 e
  | 0x5 => candNarrow e
  | 0x6 => candCross e
  | 0x7 => candMemory e
  | 0x8 => candSync e
  | 0x9 => candTile e
  | 0xA => candMatrix e
  | 0xB => candEngine e
  | 0xC => candFill e
  | 0xD => candRay e
  | 0xE => candSystem e
  | _ => candLaunch e

/-- Opcodes 0x00 to 0xFF that R55 lists: below this count in each row of sixteen. -/
def opcodeRow (hi : Nat) : Nat :=
  ([14, 16, 13, 16, 6, 7, 6, 10, 12, 8, 9, 5, 9, 5, 8, 3][hi]?).getD 0

def opcodeListed (op : BitVec 8) : Bool := op.toNat % 16 < opcodeRow (op.toNat / 16)

/-- Decoding of an object's fields, total, with a name for each refusal. -/
def decodeEnc (e : Enc) : Except DecodeErr Instr :=
  if !opcodeListed e.op then .error .opcode
  else
    match candidate e with
    | none => .error .field
    | some i =>
      match encode i with
      | none => .error .field
      | some e' =>
        if e' = e then (if i.wf then .ok i else .error .operand)
        else if e'.len = e.len then .error .field
        else .error .length

/-! ### Parcels -/

/-- Parcel 1: LEN, OP, DST, SRCA and the low bits of SRCB (02 R44). -/
def Enc.parcel1 (e : Enc) : Word := (e.b.extractLsb' 0 6) ++ e.a ++ e.dst ++ e.op ++ e.len

/-- Parcel 2: the high bits of SRCB, SRCC, GUARD, GN, SUB, RS, FS, TYPE and MOD. -/
def Enc.parcel2 (e : Enc) : Word := e.md ++ e.ty ++ e.fs ++ e.rs ++ e.sub ++ e.gn ++ e.g ++ e.c ++ (e.b.extractLsb' 6 2)

def Enc.parcels (e : Enc) : List Word :=
  [e.parcel1, e.parcel2] ++ (if 1 ≤ e.len.toNat then [e.p3] else []) ++ (if 2 ≤ e.len.toNat then [e.p4] else [])

/-- The fields that two to four parcels hold. -/
def Enc.ofParcels (w1 w2 w3 w4 : Word) : Enc :=
  { len := w1.setWidth 2, op := w1.extractLsb' 2 8, dst := w1.extractLsb' 10 8, a := w1.extractLsb' 18 8,
    b := (w2.setWidth 2) ++ (w1.extractLsb' 26 6), c := w2.extractLsb' 2 8, g := w2.extractLsb' 10 3,
    gn := w2.extractLsb' 13 1, sub := w2.extractLsb' 14 3, rs := w2.extractLsb' 17 3, fs := w2.extractLsb' 20 1,
    ty := w2.extractLsb' 21 3, md := w2.extractLsb' 24 8, p3 := w3, p4 := w4 }

/-- How many parcels an object with this first parcel has (02 R34). -/
def parcelCount (w1 : Word) : Nat :=
  match w1.toNat % 4 with
  | 1 => 3 | 2 => 4 | _ => 2

def isHeaderParcel (w1 : Word) : Bool := w1.toNat % 4 == 3

/-- A clause header from its two parcels (02 R40). -/
def decodeHeader (w1 w2 : Word) : Except DecodeErr Header :=
  let h : Header :=
    { region := w2.extractLsb' 16 16, gap := w1.extractLsb' 28 4, count := w1.extractLsb' 24 4,
      setb := w1.extractLsb' 20 4, seta := w1.extractLsb' 16 4, wait := w1.extractLsb' 4 12,
      kind := w1.extractLsb' 2 2 }
  let flagOk (f : BitVec 4) : Bool := f.toNat < 12 || f == 15
  if isHeaderParcel w1 && w2.setWidth 16 == (0 : BitVec 16) && flagOk h.setb && flagOk h.seta && h.kind.toNat ≤ 1
  then .ok h else .error .headerField

/-- The two parcels of a clause header. -/
def encodeHeader (h : Header) : List Word :=
  [h.gap ++ h.count ++ h.setb ++ h.seta ++ h.wait ++ h.kind ++ (3 : BitVec 2), h.region ++ (0 : BitVec 16)]

/-- An instruction from its parcels, those it does not have read as zero. -/
def decodeParcels (w1 w2 w3 w4 : Word) : Except DecodeErr Instr :=
  let n := parcelCount w1
  if isHeaderParcel w1 then .error .field
  else decodeEnc (Enc.ofParcels w1 w2 (if 3 ≤ n then w3 else 0) (if 4 ≤ n then w4 else 0))

/-- The parcels of a well-formed instruction; none for an event row of the table. -/
def encodeParcels (i : Instr) : List Word :=
  match encode i with
  | some e => e.parcels
  | none => []

/-! ### Uniform instructions (02 R51) -/

/-- Opcodes whose field C is a number, not an operand. -/
def rawC : List (BitVec 8) := [0x83, 0x85, 0x86, 0x87, 0x89, 0x8B, 0xD3, 0xE0, 0xE7, 0xF1, 0xF2]

/-- Opcodes that always take the issue pipe: they read or write lanes or predicates, or occupy it (07, 09 R249); `rng.seed`
writes lanes whatever its source is (06 R165, R174; DEDUCED, log entry 115). -/
def pipeOps : List (BitVec 8) := [0x20, 0x22, 0x37, 0x50, 0x51, 0x52, 0x53, 0x54, 0x55, 0x56, 0x60, 0x61, 0x62, 0x63, 0x64, 0x65, 0x88]

/-- A scalar register, special operand, constant or 0xFF. -/
def uniSpec (x : BitVec 8) : Bool := x.msb && !(0xC0 ≤ x.toNat && x.toNat ≤ 0xC7)

/-- Whether a pattern names a predicate in MOD that it writes: the decision predicate of `csub.ge` (04 R103), and the out
predicate of `addc` and `subb` (DEDUCED, log entry 94). -/
def Enc.writesModPred (e : Enc) : Bool :=
  ([0x28, 0x29].contains e.op || (e.op == 0x2B && e.sub == 1)) && e.md.setWidth 3 != (7 : BitVec 3)

/-- Whether a pattern is a uniform instruction, which the Nib executes (01 R16, 03 R73). -/
def Enc.isUni (e : Enc) : Bool :=
  if e.op.toNat < 0x10 then [0x01, 0x07, 0x08].contains e.op
  else !e.writesModPred && !pipeOps.contains e.op && uniSpec e.dst && uniSpec e.a && (e.len == 1 || uniSpec e.b) && (rawC.contains e.op || uniSpec e.c)

/-! ### Fetch (02 R35, R36) -/

/-- What stands at a code address: an object with its address and length in bytes. -/
inductive Fetched where
  | header (addr : Nat) (h : Header)
  | instr (addr : Nat) (bytes : Nat) (i : Instr)
  | bad (addr : Nat) (isHeader uni : Bool) (opc : BitVec 8) (err : DecodeErr)
  deriving DecidableEq, Repr

/-- The little-endian word of four bytes (00 R2). -/
def word4 (b0 b1 b2 b3 : Byte) : Word := b3 ++ b2 ++ b1 ++ b0

/-- Parcel `i` of a fetch block given as eight parcels. -/
def blockParcel (blk : List Word) (i : Nat) : Word := (blk[i]?).getD 0

/-- Reads the object at parcel `i` of the block at `base`. `due` says that a header is due (02 R38). A last parcel of
the block that is zero is a fill parcel, for which the answer is `none`; another parcel whose object would cross the
block's end is no instruction (R36). -/
def readObject (base : Nat) (blk : List Word) (i : Nat) (due : Bool) : Option Fetched :=
  let w := blockParcel blk i
  let a := base + 4 * i
  let opc := w.extractLsb' 2 8
  if i == 7 && w == 0 then none
  else if 8 < i + parcelCount w then some (.bad a true false opc .crossing)
  else if isHeaderParcel w then
    if due then
      match decodeHeader w (blockParcel blk (i + 1)) with
      | .ok h => some (.header a h)
      | .error e => some (.bad a true false opc e)
    else some (.bad a true false opc .field)
  else if due then some (.bad a false false opc .headerField)
  else
    let (w2, w3, w4) := (blockParcel blk (i + 1), blockParcel blk (i + 2), blockParcel blk (i + 3))
    match decodeParcels w w2 w3 w4 with
    | .ok ins => some (.instr a (4 * parcelCount w) ins)
    | .error e => some (.bad a false (opcodeListed opc && (Enc.ofParcels w w2 w3 w4).isUni) opc e)

/-! ### The table's numbering -/

/-- Word `k` of a number whose bit 0 is the least significant bit of the first parcel. -/
def tableParcel (w k : Nat) : Word := BitVec.ofNat 32 (w / 2 ^ (32 * k))

/-- The instruction that the decoder reads from bits numbered as the opcode table numbers them; bits above `nbits`
are zero. A clause header starts a clause. -/
def decodeTableWord (nbits w : Nat) : Option Instr :=
  let x := w % 2 ^ nbits
  if isHeaderParcel (tableParcel x 0) then
    match decodeHeader (tableParcel x 0) (tableParcel x 1) with
    | .ok h => some (.clauseStart h)
    | .error _ => none
  else match decodeParcels (tableParcel x 0) (tableParcel x 1) (tableParcel x 2) (tableParcel x 3) with
  | .ok i => some i
  | .error _ => none

end Sys2Proof
end

