-- ==== Sys2Proof/Machine/State.lean ====
section
/-! DEFINITION. The state of the machine as plain data: teams, outstanding operations, memory, contexts, grids, queues,
caches and directories, tiles, tile-task engines, copies and collectives. Every piece of state the spec names has its
field; INVENTORY.md lists them with their rules. Die numbers in places and keys are global: package × 4 + die. -/

namespace Sys2Proof.Machine

/-! ### Memory -/

/-- Bytes of a storage: strictly rising addresses, no entry equal to what an unlisted address reads as (0, DESIGN CHOICE, log entry 1). -/
abbrev Memory := List Host.Cell

/-! ### Faults and records (16 R418 to R421) -/

/-- A fault as an instruction or unit raises it. -/
structure FaultInfo where
  code   : BitVec 8
  opc    : BitVec 8 := 0
  unif   : Bool := false
  hdr    : Bool := false
  detail : Word := 0
  lanes  : Mask := 0
  ipc    : DWord := 0
  addr   : DWord := 0
  gpa    : DWord := 0
  s2     : Bool := false
  deriving DecidableEq, Repr

/-- The place of a team: global die, core, slot (01 R7, R10, R13). -/
structure Place where
  die  : Nat
  core : Nat
  slot : Nat
  deriving DecidableEq, Repr

/-- A fault record (16 R420); SEQ is given when it is queued. -/
structure FaultRec where
  finfo0 : Word
  finfo1 : Word
  finfo2 : Word
  finfo3 : Word
  ctx    : Word
  grid   : Word
  team   : Word
  place  : Place
  ipc    : DWord
  rpc    : DWord
  addr   : DWord
  gpa    : DWord
  vmid   : BitVec 16
  lanes  : Mask
  deriving DecidableEq, Repr

/-! ### Control state of a team (03 R69) -/

structure LoopRec where
  h : DWord
  x : DWord
  i : Mask
  k : Mask
  v : Mask
  deriving DecidableEq, Repr

/-- A pending path of a DIV entry. -/
structure Path where
  pc      : DWord
  m       : Mask
  carried : Option LoopRec
  deriving DecidableEq, Repr

/-- An entry of the reconvergence stack. -/
inductive Entry where
  | div (j : DWord) (c : Mask) (q : List Path) (v : Mask)
  | loop (l : LoopRec)
  | call (ra : DWord) (m : Mask)
  deriving DecidableEq, Repr

/-- One lane: its vector registers, predicates (bit 7 unused, p7 reads true) and random state (01 R24, 06 R174). -/
structure Lane where
  v   : List Word
  p   : BitVec 8
  rng : DWord
  deriving DecidableEq, Repr

/-- A MAPPED binding (08 R202), with the policy and the kind override of its handle, by which its chunks are filled (08
R203). -/
structure Binding where
  h     : BitVec 12
  va    : DWord
  gen   : BitVec 12
  soff  : Nat
  len   : Nat
  base  : DWord
  valid : List Nat
  dirty : List Nat
  made  : Nat
  policy : Nat
  pko   : Nat
  deriving DecidableEq, Repr

/-- A circular-buffer descriptor (10 R275). -/
structure Cb where
  init      : Bool
  h         : BitVec 12
  size      : Nat
  count     : Nat
  reserved  : Word
  committed : Word
  taken     : Word
  released  : Word
  deriving DecidableEq, Repr

def Cb.zero : Cb := ⟨false, 0, 0, 0, 0, 0, 0, 0⟩

/-- Position in the clause (02 R38 to R42): instructions left (0: a header is due), flags A and B (15: none). -/
structure ClauseCtx where
  left : Nat
  seta : Nat
  setb : Nat
  gap  : Nat
  deriving DecidableEq, Repr

/-- What a watch compares (10 R270, 16 R437): the virtual address and the line of its location, the comparison, the value, the
cycle of issue and the timeout. -/
structure Watch where
  va      : DWord
  line    : Nat
  cmp     : WaitCmp
  ty      : IType
  value   : DWord
  since   : DWord
  timeout : Word
  deriving DecidableEq, Repr

/-- What a waiting team waits for: items by die and index, Shading Cache entries by key, space and owner, the room of a full queue at
which a save captures the team (12 R313, 17 R471, R472). The instruction runs again when the condition holds. -/
inductive Wait where
  | stall
  | full
  | clause (m : BitVec 12)
  | block (op : Nat)
  | flags (any : Bool) (m : BitVec 12)
  | drain
  | fence (rel : Bool)
  | bar (key : BarKey) (gen : Word)
  | barThird (key : BarKey) (gen : Word)
  | addr (w : Watch)
  | cbFree (k : Nat)
  | cbFilled (k : Nat)
  | group (key : Word)
  | gbar (group : Nat) (k : Nat)
  | tile (ctx : Word) (tile : Nat)
  | fill (items : List (Nat × Nat)) (opc : BitVec 8) (unif : Bool)
  | mapFill (h : BitVec 12) (chunk : Nat) (opc : BitVec 8) (unif : Bool)
  | remote (op : Nat)
  | task (die id : Nat)
  | keys (ks : List (DWord × Bool × BitVec 16))
  | held (ks : List DWord)
  | job (die n : Nat) (need : Nat)
  | queue (part q : Nat)
  deriving DecidableEq, Repr

/-- A park report of a team (16 R423, R424): its stage, its 32 KiB granule, its place in the queue, and the fill items whose
chains the parked instruction has joined besides (14 R363). -/
structure ParkRep where
  s2      : Bool
  granule : Nat
  seq     : Word
  rpt     : FaultRec
  joins   : List (Nat × Nat) := []
  deriving DecidableEq, Repr

/-- A team's standing. A stopping team waits for its outstanding work before its record is queued (16 R426). -/
inductive Status where
  | running
  | waiting (w : Wait)
  | parked (rs : List ParkRep)
  | stopping (r : FaultRec)
  | stopped (r : FaultRec) (seq : Word)
  deriving DecidableEq, Repr

/-- A team on its way into its context's image: `yield` saves its ksave set, a forced save every register (16 R440, R441). -/
inductive Leave where
  | stay
  | yielded
  | forced
  deriving DecidableEq, Repr

/-- A fault of an ended engine command, raised at a wait on its flag (13 R336). -/
structure EngineFault where
  flag : Option Nat
  info : FaultInfo
  seq  : Nat
  deriving DecidableEq, Repr

/-- Grid-relative indices (01 R29). -/
structure GridIx where
  a : Nat
  b : Nat
  d : Nat
  e : Nat
  g : Nat
  deriving DecidableEq, Repr

/-- Registers of a team outside its lanes (05 R126, R127; 16 R421, R439, R453, R454). -/
structure Ctl where
  mode   : Word
  fstat  : Word
  regctr : Word
  finfo  : List Word
  epc    : DWord
  repc   : DWord
  genr   : Bool
  slend  : Bool
  hmode  : Bool
  ksv    : BitVec 128
  kss    : BitVec 64
  ksp    : BitVec 8
  deriving DecidableEq, Repr

/-- A team (01 R17 to R32, 03 R69, R98, 08 R214). `unfin` is the unfinished-lane mask of a parked instruction; `since`
is the cycle in which a waiting instruction issued, `mark` what it has already done (a barrier arrival), `reply` the
words that the home has answered, `acquired` the lanes that have made an acquire (09 R243), `slotRec` the record that its slot of
the slot table holds (17 R469). -/
structure Team where
  uid      : Nat
  ctx      : Word
  grid     : Word
  teamNo   : Word
  ix       : GridIx
  place    : Place
  nlanes   : Nat
  nvregs   : Nat
  spillD   : Nat
  lanes    : List Lane
  s        : List Word
  active   : Mask
  exited   : Mask
  stack    : List Entry
  pc       : DWord
  clause   : ClauseCtx
  ctl      : Ctl
  flags    : List Nat
  scratchLen : Nat
  scratch  : Memory
  binds    : List Binding
  cbs      : List Cb
  status   : Status
  unfin    : Option Mask
  since    : Option DWord
  mark     : Option Word
  reply    : List Word
  efaults  : List EngineFault
  age      : Nat
  passed   : Nat
  leave    : Leave
  noRelaunch : Bool
  retiring : Bool
  acquired : Mask
  slotRec  : BindRec
  deriving DecidableEq, Repr

/-! ### Outstanding operations -/

/-- Where a line is homed (01 R12, 08 R217): an HBM4 or CXL home die, or host memory. -/
inductive HomeKind where
  | hbm (die : Nat)
  | cxl (die port : Nat)
  | host
  deriving DecidableEq, Repr

/-- Page kinds (09 R234 to R236). -/
inductive PageKind where
  | s | r | u
  deriving DecidableEq, Repr

/-- What a delivered operation writes in its team: for each lane the registers from `d` on. -/
structure Deliver where
  d    : Dst
  vals : List (Nat × List Word)
  deriving DecidableEq, Repr

/-- One side of a copy or fill (13 R339): a handle with its entry, a tile with the address of its buffer, a circular
buffer with the scratchpad offset of its region, a value. -/
inductive CopySide where
  | mem (h : BitVec 12) (entry : Nat)
  | tile (word : Word) (base : DWord)
  | cb (k soff : Nat)
  | value (bytes : List Byte)
  deriving DecidableEq, Repr

/-- An accepted copy descriptor (13 R338). -/
structure CopyCmd where
  esize  : Nat
  ext    : List Nat
  src    : CopySide
  soff   : Int
  sstr   : List Int
  dst    : CopySide
  doff   : Int
  dstr   : List Int
  cnt    : Option (BitVec 12 × Nat × Word)
  scope  : Scope
  pos    : Nat
  started : Bool
  srcSlot : Nat
  dstSlot : Nat
  deriving DecidableEq, Repr

/-- A launch record (17 R463) as the fields it holds. -/
structure Launch where
  entry   : DWord
  yieldPc : DWord
  lanes   : Nat
  vregs   : Nat
  spillD  : Nat
  scratch : Nat
  tpc     : Nat
  cpq     : Nat
  qpd     : Nat
  dies    : Nat
  pkgs    : Nat
  part    : Nat
  idemp   : Bool
  wphase  : Bool
  gfx     : Bool
  prio    : Nat
  htbase  : DWord
  htlimit : Nat
  sigvec  : BitVec 16
  cntva   : DWord
  fmts    : List DWord
  resvOk  : Bool
  deriving DecidableEq, Repr

/-- A registered layer (14 R373). -/
structure Layer where
  ctx    : Word
  n      : Nat
  tag    : BitVec 16
  maxgen : Nat
  staleMiss : Bool
  big    : Bool
  lr     : Launch
  deriving DecidableEq, Repr

/-- What a `prange` does once its wait is over (14 R384). -/
inductive PrangeOp where
  | add
  | rm (n : Nat)
  | clr (n : Nat)
  | layer (l : Layer)
  deriving DecidableEq, Repr

/-- What an outstanding operation does when its completion event takes place (02 R42, 13 R336). -/
inductive OpKind where
  | load (w : Deliver) (remote : Bool)
  | store (cells : List Host.Cell) (remote rel : Bool)
  | atomic (w : Deliver) (remote : Bool)
  | sig (as : List Nat) (wide set : Bool) (v : DWord) (eng : Bool) (scope : Scope) (free : List Nat)
  | hmap (d : Dst) (word : Word)
  | flush
  | cbCommit (k : Nat)
  | cbRelease (k : Nat)
  | tileOp (word : Word) (what : Nat)
  | task (die id : Nat)
  | taskWait (die id : Nat)
  | mwld (entry : Nat) (d : Dst) (word : Word)
  | macz (word : Word)
  | wsld (img : Nat) (word scale : Word) (slot : DWord)
  | copy (c : CopyCmd)
  | coll (group k : Nat)
  | gbar (group k : Nat)
  | sclook (w : Deliver)
  | take (w : Deliver)
  | fillCommit (item : Word) (shading ok : Bool) (status : BitVec 16)
  | scinv (obj : BitVec 24) (tag : Option (BitVec 16))
  | prange (what : PrangeOp)
  | rays (batch : Nat)
  | rprog (kind pw : Nat) (steps : List DWord)
  | visJob (die job : Nat)
  | tlbi (op : TlbiOp) (scope : Scope) (arg : DWord)
  | launch
  deriving DecidableEq, Repr

/-- An outstanding operation: its team, the flag it counts in, whether it holds the next clause (02 R42), its opcode
and address for a report (13 R336), the lines of memory that it reaches for its lanes, which lane wrote each of a
store's bytes (09 R236), what a report of it names in place of lanes: a ray (15 R410), and whether the Nib ran it (16 R421). -/
structure Op where
  id    : Nat
  uid   : Nat
  ctx   : Word
  grid  : Word
  die   : Nat
  core  : Nat
  flag  : Option Nat
  block : Bool
  opc   : BitVec 8
  ipc   : DWord
  kind  : OpKind
  lines : List Nat := []
  who   : List (Nat × Nat) := []
  names : Mask := 0
  unif  : Bool := false
  deriving DecidableEq, Repr

/-- Storage that an engine command uses between its issue and its completion (09 R245): the bytes of a run of memory, or
of a team's scratchpad, that lie in a set of elements of `w` bytes, one for each choice of coordinates of `dims` (count,
stride); the run begins `at_` bytes above the lowest element. `dst` for bytes that the command writes; `spoiled` once
another agent has written them. `virt` is the virtual address of a run whose page could not be reached at the command's
issue; `own` for bytes of a slot of a circular buffer that only the command itself still uses (13 R342, R343); `tile` for a
tile that the command reads, whose sealed bytes its copy protects (11 R288, R306). -/
structure InUse where
  op      : Nat
  dst     : Bool
  scratch : Option Nat
  base    : Nat
  len     : Nat
  at_     : Nat
  w       : Nat
  dims    : List (Nat × Nat)
  spoiled : Bool
  virt    : Option (Word × DWord) := none
  own     : Bool := false
  tile    : Bool := false
  deriving DecidableEq, Repr

/-! ### Contexts, grids, scheduling (16 R453, 17 R463 to R469) -/

/-- A fault queue's device side: the header's physical address, the next SEQ, records that wait for room (16 R422). -/
structure FaultQueue where
  header  : Nat
  nextSeq : Word
  pending : List (Word × FaultRec)
  deriving DecidableEq, Repr

/-- A context (16 R428, R454; 17 R465): `desc` is its descriptor, `pend` the DEBUG and YBUDGET of its next slice, `debt` the cycles by which that is shortened and
`due` the cycle in which the running slice ends (16 R443; DESIGN CHOICE, log entry 66). -/
structure Ctx where
  id        : Word
  tid       : BitVec 16
  cls       : BitVec 2
  sys       : Bool
  furrow    : Bool
  debug     : Bool
  part      : Nat
  s1root    : Nat
  s2root    : Nat
  vmid      : BitVec 16
  ybudget   : Word
  budget    : Option Word
  fq        : FaultQueue
  pool      : Nat
  npool     : Nat
  sharemask : Word
  sharetab  : List Word
  frame     : DWord
  invalidRays : DWord
  nonce     : DWord
  halted    : Option (BitVec 8)
  sliceEnd  : Bool
  debt      : Nat
  desc      : List Byte
  pend      : Option (Bool × Word)
  due       : Option DWord := none
  deriving DecidableEq, Repr

/-- A grid (01 R29, R30; 17 R467): `bound` and `retired` are teams, `gen` says which generator it is and of which die's
Sower, `cores` the cores that firmware has chosen, in the order of the grid-relative indices, `dies` the dies that it has
used (12 R321). -/
structure Grid where
  id       : Word
  ctx      : Word
  part     : Nat
  lr       : Launch
  queue    : Option Nat
  nteams   : Nat
  bound    : List Word
  retired  : List Word
  released : Bool
  complete : Bool
  gen      : Option (GenKey × Nat)
  cores    : List (Nat × Nat)
  dies     : List Nat := []
  deriving DecidableEq, Repr

/-- One of the 64 hardware queues of a partition (17 R466, R467). -/
structure HwQueue where
  ctx     : Word
  enable  : Bool
  ordered : Bool
  priocap : Nat
  ring    : Nat
  recs    : List (Word × Launch)
  posted  : Word
  done    : Word
  live    : Option Word
  ringPos : Word
  deriving DecidableEq, Repr

/-- A record in a die's spawn queue (17 R472), or a generator team that the die's Sower has posted (14 R366). -/
structure Spawn where
  die : Nat
  ctx : Word
  id  : Word
  lr  : Launch
  gen : Option GenKey
  deriving DecidableEq, Repr

/-- A partition (17 R466); `next` is the queue whose turn it is. -/
structure Part where
  id      : Nat
  slice   : Word
  wdlimit : Word
  gshare  : BitVec 16
  cores   : List (BitVec 64)
  copyEng : List (BitVec 8)
  coll    : BitVec 8
  rast    : BitVec 8
  furw    : BitVec 8
  tqshare : Nat
  cqshare : Nat
  imglo   : Nat
  imghi   : Nat
  vmtab   : List (BitVec 16 × Nat)
  queues  : List HwQueue
  spawns  : List Spawn
  sliceNo : Nat
  next    : Nat
  deriving DecidableEq, Repr

/-- A barrier (10 R262, R263): the completed count and the two open generations. -/
structure BarGen where
  counted : Option Nat
  arrived : List Word
  number  : Nat
  deriving DecidableEq, Repr

structure Bar where
  key       : BarKey
  completed : Word
  cur       : Option BarGen
  nxt       : Option BarGen
  deriving DecidableEq, Repr

/-! ### Caches and translation (08 R205 to R210, 16 R432) -/

/-- A cached translation of a core (16 R432). -/
structure TlbEntry where
  die  : Nat
  core : Nat
  vmid : BitVec 16
  ctx  : Word
  page : Nat
  size : Nat
  pa   : Nat
  gpa  : Nat
  kind : PageKind
  r    : Bool
  w    : Bool
  x    : Bool
  dirty : Bool
  deriving DecidableEq, Repr

/-- A line of a read-only cache (08 R206). -/
structure RoLine where
  die  : Nat
  core : Nat
  line : Nat
  data : List Byte
  deriving DecidableEq, Repr

/-- A waiter record of a pending line (08 R208) with the operation that it stands for: kind, store-buffer entry, width
code, byte offset in the line, pass, team slot, core, die, package. -/
structure Waiter where
  op    : Nat
  kind  : Nat
  sb    : Option Nat
  width : Nat
  off   : Nat
  pass  : Nat
  slot  : Nat
  core  : Nat
  die   : Nat
  pkg   : Nat
  deriving DecidableEq, Repr

/-- A line of an L2 slice: recency position, pinned (12 R316, 14 R372), the waiters of a pending line and the starved
requester of its header (08 R208, R209), the class that brought it (16 R452). -/
structure L2Line where
  die     : Nat
  line    : Nat
  pos     : Nat
  pinned  : Bool
  pending : List Waiter
  starved : Option Nat
  cls     : BitVec 2
  deriving DecidableEq, Repr

/-- What an access asks of a line's home once its own slice has taken the request (11 R291, R292): by which core, for a write, under
its team's tenure, at the home slice itself, and whether its store waits for the line. -/
structure LineUse where
  die    : Nat
  core   : Nat
  write  : Bool
  own    : Bool := false
  atHome : Bool := false
  now    : Bool := false
  deriving DecidableEq, Repr

/-- A request refused with NACK-retry (08 R209), as it is sent again; `told` once the refusal has reached the requester; `use`
is what it asks of the line's home, none for the home slice of another die. -/
structure Nack where
  who    : Waiter
  die    : Nat
  line   : Nat
  cls    : BitVec 2
  stream : Bool
  count  : Nat
  told   : Bool
  use    : Option LineUse := none
  deriving DecidableEq, Repr

/-- The reserved register of a set of a slice: the starved requester of its ways (08 R209). -/
structure StarvedSet where
  die   : Nat
  slice : Nat
  set   : Nat
  op    : Nat
  deriving DecidableEq, Repr

/-- A handle entry in a core's cache, by its virtual address (08 R190). -/
structure HandleLine where
  die  : Nat
  core : Nat
  ctx  : Word
  va   : DWord
  raw  : Nat
  deriving DecidableEq, Repr

/-- A table descriptor in a die's walk cache (16 R432): stage, virtual machine, context of a stage-1 table, level, and the
part of the address that led to it. -/
structure WalkEntry where
  die    : Nat
  stage2 : Bool
  vmid   : BitVec 16
  ctx    : Word
  lv     : Nat
  page   : Nat
  desc   : Nat
  deriving DecidableEq, Repr

/-- A line that a core's L1 holds (08 R205). Its data is that of L2. -/
structure L1Line where
  die  : Nat
  core : Nat
  line : Nat
  deriving DecidableEq, Repr

/-- A read that a router holds pending toward an L2 slice, with the reply it will get (09 R243): of kind U, or on the
read-only path. `barred` are the fences, by place and scope, behind which a read of the read-only path does not take it (09
R244). -/
structure RouterRead where
  op   : Nat
  line : Nat
  ro   : Bool
  data : List Byte
  barred : List (Place × Scope) := []
  deriving DecidableEq, Repr

structure Caches where
  tlb     : List TlbEntry
  walks   : List WalkEntry
  handles : List HandleLine
  l1      : List L1Line
  ro      : List RoLine
  l2      : List L2Line
  nacks   : List Nack
  starved : List StarvedSet
  routers : List RouterRead
  deriving DecidableEq, Repr

/-! ### Line coherence (11 R292 to R294) -/

inductive LineState where
  | i | s | e | m | o
  deriving DecidableEq, Repr

/-- A line directory entry at its home. -/
structure LineDir where
  home    : Nat
  line    : Nat
  st      : LineState
  owner   : Option Requester
  sharers : List Requester
  await   : List Requester
  deriving DecidableEq, Repr

/-- A line held by a caching agent. -/
structure Held where
  who  : Requester
  line : Nat
  st   : LineState
  deriving DecidableEq, Repr

/-- Grant sequences of a home for one requester, the grants it has not seen acknowledged, and the latest sequence the
requester has received (11 R294). -/
structure SeqState where
  home    : Nat
  who     : Requester
  sent    : BitVec 4
  unacked : Nat
  recvd   : BitVec 4
  deriving DecidableEq, Repr

/-- Directories, lines held off their home, grant sequences, messages on their way and probes held back, dead agents; `behind` is
what memory itself holds of each line that an owner off its home may have changed (20 R520): `State.mem` has the line's value. -/
structure Coh where
  dir  : List LineDir
  held : List Held
  seqs : List SeqState
  net  : List Instr
  hold : List Instr
  dead : List Agent
  die0Dead : Bool
  behind : List (Nat × List Byte) := []
  deriving DecidableEq, Repr

/-! ### Buffers and tiles (11 R280 to R285) -/

structure Shape where
  ndim   : Nat
  esize  : Nat
  ext    : List Nat
  stride : List Nat
  deriving DecidableEq, Repr

structure Buf where
  ctx   : Word
  no    : Nat
  home  : Nat
  base  : DWord
  shape : Shape
  foot  : Nat
  deriving DecidableEq, Repr

inductive TileState where
  | idle
  | opened
  | sealed
  deriving DecidableEq, Repr

/-- A request that waits at the home of a tile since a cycle (11 R287, R301). -/
structure TileWait where
  uid    : Nat
  write  : Bool
  recl : Bool
  since  : DWord
  deriving DecidableEq, Repr

/-- A tile with its directory fields (11 R285, 12 R314); holders are teams by (context, grid, %team). `dir` says whether the
home's directory holds its entry, last used at a step `used`; `probed` are the dies whose BackInv acknowledgement the home
awaits, `leaving` while the entry is evicted (11 R286). -/
structure Tile where
  ctx      : Word
  ix       : Nat
  gen      : BitVec 12
  live     : Bool
  buf      : Nat
  lo       : List Nat
  sz       : List Nat
  st       : TileState
  holder   : Option (Word × Word)
  refs     : Nat
  copies   : List ((Word × Word) × Nat)
  engines  : List Nat
  owner    : Option Nat
  presence : List Nat
  seals    : BitVec 16
  waiters  : List TileWait
  hold     : Bool
  sealing  : Bool
  dir      : Bool
  used     : Nat
  probed   : List Nat
  leaving  : Bool
  deriving DecidableEq, Repr

structure Tiles where
  bufs  : List Buf
  tiles : List Tile
  deriving DecidableEq, Repr

/-! ### Tile-task engines (12) -/

inductive TaskState where
  | queued | ready | running | done | aborted | faulted | depfail
  deriving DecidableEq, Repr

/-- A task and its status (12 R311, R317); `cntE` is the entry of its counter's handle, `order` its operation, `turn` its place
among the records of its die's queue, `away` while it stands in its context's image and not in the queue (12 R322). -/
structure Task where
  die    : Nat
  id     : Nat
  uid    : Nat
  ctx    : Word
  grid   : Word
  part   : Nat
  fields : List Word
  aslot  : DWord
  bslot  : DWord
  cntE   : Nat
  st     : TaskState
  eng    : Nat
  nangrp : Bool
  ovf    : Bool
  parity : Bool
  bheld  : Bool
  fcode  : BitVec 8
  freed  : Bool
  order  : Nat
  turn   : Nat
  merges : List (Nat × Word)
  start  : DWord
  time   : Word
  computed : Bool
  away   : Bool
  deriving DecidableEq, Repr

/-- A residency (12 R327): B's blocks, column by column. `away` while its context is saved (R322). -/
structure Resid where
  die   : Nat
  entry : Nat
  gen   : BitVec 10
  live  : Bool
  uid   : Nat
  ctx   : Word
  core  : Nat
  word  : Word
  scale : Word
  slot  : DWord
  kn    : Nat
  n     : Nat
  cells : List (List Int × Int)
  nan   : Bool
  bad   : Bool
  ready : Bool
  away  : Bool
  releasing : Bool
  deriving DecidableEq, Repr

/-- The B that an engine's macros hold (12 R314): tile word of a context, seal count, slot and scale word, or an image range. -/
structure HeldB where
  die   : Nat
  core  : Nat
  word  : Word
  seals : BitVec 16
  slot  : DWord
  scale : Word
  img   : Option (Nat × Nat)
  kn    : Nat
  n     : Nat
  cells : List (List Int × Int)
  nan   : Bool
  ctx   : Word
  deriving DecidableEq, Repr

/-- A weight-store image (12 R319): columns of 256 cells with exponents by block, its geometry and plane; `nan` when a group
of it held no finite value (12 R317). -/
structure Image where
  die   : Nat
  n     : Nat
  cols  : Nat
  rows  : Nat
  hi    : Bool
  cells : List (List Int × List Int)
  bad   : Bool
  nan   : Bool
  deriving DecidableEq, Repr

/-- An entry of the refresh calendar (12 R320); its values after reset are the model's own (DESIGN CHOICE, log entry 9). -/
structure CalEntry where
  start : Nat
  len   : Nat
  group : Nat
  deriving DecidableEq, Repr

structure Mat where
  tasks  : List Task
  nextId : List (Nat × Nat)
  resid  : List Resid
  held   : List HeldB
  images : List Image
  cal    : List CalEntry
  deriving DecidableEq, Repr

/-! ### Groups and collectives (13 R349 to R357) -/

structure Group where
  ctx     : Word
  ix      : Nat
  gen     : BitVec 12
  n       : Nat
  members : List (Nat × Nat)
  nextColl : List (Nat × Nat)
  nextBar  : List (Nat × Nat)
  left    : List Nat
  die0    : Nat
  deriving DecidableEq, Repr

structure Forming where
  ctx     : Word
  key     : Word
  n       : Nat
  members : List (Nat × Nat)
  deriving DecidableEq, Repr

/-- A member's part of a collective or of a group barrier. -/
structure CollPart where
  ctx   : Word
  group : Nat
  k     : Nat
  uid   : Nat
  rank  : Nat
  op    : Option Nat
  form  : CollForm
  red   : CollRed
  ty    : CollType
  cnt   : Nat
  srcH  : BitVec 12
  dstH  : BitVec 12
  srcE  : Nat
  dstE  : Nat
  srcO  : Nat
  dstO  : Nat
  deriving DecidableEq, Repr

/-- An arrival of a member at a generation of a group's barrier, with the operation of `gbar.arv`. -/
structure BarArrival where
  ctx   : Word
  group : Nat
  k     : Nat
  uid   : Nat
  op    : Option Nat
  deriving DecidableEq, Repr

structure Eng where
  groups  : List Group
  forming : List Forming
  parts   : List CollPart
  barArr  : List BarArrival
  deriving DecidableEq, Repr

/-! ### Fill engine and Shading Cache (14) -/

/-- A registered procedural range (14 R359, R360). -/
structure Range where
  ctx    : Word
  n      : Nat
  base   : DWord
  len    : Nat
  blk    : Nat
  budget : Nat
  maxgen : Nat
  failEmpty : Bool
  lr     : Launch
  deriving DecidableEq, Repr

/-- The fill state of a block; a block that is not listed is EMPTY (14 R361). -/
inductive FillState where
  | filling
  | filled
  | faulted (st : BitVec 16)
  deriving DecidableEq, Repr

/-- A block that is not EMPTY; `pins` are woken waiters that have not replayed, `readers` engine commands that have read
it (14 R364). -/
structure Block where
  ctx    : Word
  n      : Nat
  b      : Nat
  st     : FillState
  frames : List Nat
  stored : Bool
  order  : Nat
  pins   : List Nat
  readers : List Nat
  deriving DecidableEq, Repr

inductive TagState where
  | inFlight | valid | stale
  deriving DecidableEq, Repr

/-- A tag entry (14 R372); an entry that is not listed is INVALID. `way` is none in the tag spill; `ctx` is the context whose
frame counter a private entry has (14 R377). -/
structure TagEntry where
  die     : Nat
  set     : Nat
  way     : Option Nat
  key     : DWord
  shared  : Bool
  owner   : BitVec 16
  wclass  : BitVec 2
  wtenant : BitVec 16
  st      : TagState
  reshade : Bool
  heap    : Nat
  oldHeap : Nat
  uframe  : Word
  sframe  : Word
  rev     : BitVec 16
  ctx     : Word
  deriving DecidableEq, Repr

/-- What a work item is for (14 R380). -/
inductive ItemFor where
  | block (range b : Nat)
  | tile (layer : Nat) (key : DWord) (shared : Bool) (owner : BitVec 16) (heap : Nat) (rev : BitVec 16)
  deriving DecidableEq, Repr

/-- A work item of a die's fill engine: `starved` while it waits for frames or for room in the range's budget; `cmds` are
the engine commands that wait for it. -/
structure Item where
  die     : Nat
  ix      : Nat
  ctx     : Word
  what    : ItemFor
  depth   : Nat
  holder  : Option Nat
  starved : Bool
  order   : Nat
  cmds    : List Nat
  deriving DecidableEq, Repr

/-- A heap record in use, or released at a frame of its space (14 R379), in 1 KiB units. -/
structure HeapRec where
  die    : Nat
  at_    : Nat
  big    : Bool
  shared : Bool
  owner  : BitVec 16
  ctx    : Word
  freed  : Option DWord
  deriving DecidableEq, Repr

/-- A revision that is not zero (14 R376). -/
structure ObjRev where
  shared : Bool
  owner  : BitVec 16
  obj    : BitVec 24
  rev    : BitVec 16
  deriving DecidableEq, Repr

structure Fill where
  ranges  : List Range
  blocks  : List Block
  layers  : List Layer
  entries : List TagEntry
  items   : List Item
  heap    : List HeapRec
  revs    : List ObjRev
  tagFrames : List (BitVec 16 × DWord)
  order   : Nat
  deriving DecidableEq, Repr

/-! ### Rays and raster (15) -/

/-- An installed program of a primitive kind: words loaded per primitive and step words (15 R399). -/
structure KindProg where
  ctx   : Word
  kind  : Nat
  pw    : Nat
  steps : List DWord
  deriving DecidableEq, Repr

/-- An accepted ray batch (15 R409): the structure's handle and entry, its header's fields, the places of rays and records in
the team's scratchpad, whether its rays have been classified, the rays that the Furrow holds of it, and the cycle since which
it holds them. -/
structure RayBatch where
  op      : Nat
  ctx     : Word
  die     : Nat
  h       : BitVec 12
  entry   : Nat
  root    : Nat
  nodeOff : Nat
  primOff : Nat
  nodes   : Nat
  prims   : Nat
  cellExp : Int
  rays    : Nat
  hits    : Nat
  n       : Nat
  first   : Bool
  trap    : Bool
  entered : Bool
  held    : Nat
  furrow  : Option DWord
  deriving DecidableEq, Repr

/-- A raster job (15 R403 to R407): its descriptor's fields, the samples it has still to write once it has read its
triangles, the places of written samples that nobody has taken, the counts. It is open while its operation is outstanding. -/
structure RasterJob where
  die      : Nat
  seq      : Nat
  op       : Nat
  ctx      : Word
  triH     : BitVec 12
  triE     : Nat
  ringH    : BitVec 12
  ringE    : Nat
  tcount   : Nat
  width    : Nat
  height   : Nat
  cull     : Bool
  toff     : Nat
  soff     : Nat
  cap      : Nat
  samples  : Option (List (List Word))
  ready    : List (List (Nat × Nat))
  produced : Nat
  taken    : Nat
  deriving DecidableEq, Repr

/-- The vis units: installed kinds, ray batches, raster jobs; `left` are the rays that have left a Furrow and are not traced, in the
order in which they left: die, batch, ray (15 R402). -/
structure Vis where
  kinds   : List KindProg
  batches : List RayBatch
  jobs    : List RasterJob
  nextJob : List (Nat × Nat)
  left    : List (Nat × Nat × Nat) := []
  deriving DecidableEq, Repr

/-! ### Migration (16 R433 to R436) -/

/-- The migration registers of a die. -/
structure MigRegs where
  die   : Nat
  frame : Nat
  dest  : Nat
  stat  : Nat
  cmd   : Nat
  mask  : BitVec 256
  deriving DecidableEq, Repr

/-- Dirty chunks (line numbers), media locations of switched frames (die, frame, location), media contents that no frame
maps, as die × 2^51 + location × 2^15 + byte. -/
structure Mig where
  dirty  : List Nat
  places : List (Nat × Nat × Nat)
  media  : Memory
  regs   : List MigRegs
  deriving DecidableEq, Repr

/-! ### Management (17 R480 to R498) -/

/-- OWNER (17 R481), the cycles of the last handover and of the last heartbeat. -/
structure Owner where
  master   : BitVec 2
  valid    : Bool
  handPend : Bool
  handTo   : BitVec 2
  epoch    : BitVec 8
  handAt   : DWord
  beatAt   : DWord
  deriving DecidableEq, Repr

/-- The mailbox (17 R487); it runs while a context ends. -/
structure Mailbox where
  status : Nat
  ending : Option Word
  arg0   : DWord
  arg1   : DWord
  len    : BitVec 16
  buf    : Memory
  deriving DecidableEq, Repr

/-- An attestation block of a master (17 R489). -/
structure Attest where
  nonce  : BitVec 256
  status : Nat
  run    : Bool
  len    : Nat
  result : List Byte
  deriving DecidableEq, Repr

/-- Management state. `acl` holds each access-table byte xor 0x55; `msix` the vectors raised, oldest first; `corrected` the
errors each die has counted; `fuse` the next one-time-signature index. -/
structure Mgmt where
  owner    : Owner
  dieDead  : BitVec 4
  recovery : Bool
  ready    : Bool
  clk      : List (BitVec 8)
  aclLast  : BitVec 2
  aclCount : Nat
  pwrcap   : BitVec 12
  mbox     : Mailbox
  acl      : Memory
  att      : List Attest
  keys     : List (BitVec 16 × List Byte)
  fuse     : Nat
  kemEpoch : Nat
  msix     : List (BitVec 16)
  corrected : List (Nat × Nat)
  partDesc : List (Nat × List Byte)
  shutdown : Bool
  deriving DecidableEq, Repr

/-! ### Saved contexts (16 R440 to R451) -/

/-- A context's saved teams with its image: HALTED, the nonce, the bytes that left the die, whether the image is
complete, the cycle from which the slice's debt counts, the tenant key under which the image was sealed, and whether a restore
has checked it (16 R451). -/
structure Saved where
  ctx      : Word
  halted   : Bool
  nonce    : DWord
  image    : List Byte
  teams    : List Team
  since    : DWord
  complete : Bool
  key      : Option Nat := none
  checked  : Bool := false
  deriving DecidableEq, Repr

/-! ### Boot configuration (01 R12, R22) -/

/-- A range of physical addresses with its home. -/
structure Region where
  base : Nat
  size : Nat
  home : HomeKind
  deriving DecidableEq, Repr

/-- What firmware, fuses and straps fix before the first program: this machine's first package number and pod number,
the physical memory map, the silicon stepping, the place and size of the Shading Cache heap (DESIGN CHOICE, log entry 9), and whether the fabric manager
has given a pod grant (17 R464). -/
structure Boot where
  pkg     : Nat
  pod     : Nat
  step    : Nat
  regions : List Region
  heap    : Nat
  heapLen : Nat
  grant   : Bool
  deriving DecidableEq, Repr

/-! ### The whole -/

/-- What the outside world does to the machine (17): an event of the table, or a write of bytes by a master, or by a
CXL agent (09 R246). -/
inductive Input where
  | event (i : Instr)
  | hostWrite (m : Option (BitVec 2)) (pa : Nat) (bytes : List Byte)
  deriving DecidableEq, Repr

/-- Why a step stops. -/
inductive Fault where
  /-- Raised by a meaning of an instruction when no team is current; the step never lets that happen. Safe: the
  hardware has no such situation, since only a team issues instructions. -/
  | noTeam
  deriving DecidableEq, Repr

/-- Why an instruction has no meaning here. -/
inductive Refusal where
  /-- Raised by the dispatch of an instruction that has no meaning yet. Safe: the machine stops. -/
  | notModelled (mnemonic : String)
  deriving DecidableEq, Repr

/-- The machine. `ghosts` are retired teams whose engine commands still run (DESIGN CHOICE, log entry 85), `eparks` holds the reports of engine commands that wait (13 R341), `answers` the writes to ANSWER that
are not processed (16 R424); `inbox`, `cur`, `ticks` are the model's own (DESIGN CHOICE, log entries 5, 7); `clk` counts cycles
(DESIGN CHOICE, log entry 4). -/
structure State where
  inbox   : List Input
  cur     : Nat
  ticks   : Nat
  clk     : DWord
  boot    : Boot
  mem     : Memory
  poison  : List Nat
  teams   : List Team
  ghosts  : List Team
  ops     : List Op
  uses    : List InUse
  eparks  : List (Nat × List ParkRep)
  nextOp  : Nat
  nextUid : Nat
  nextAge : Nat
  ctxs    : List Ctx
  vmqs    : List (BitVec 16 × FaultQueue)
  grids   : List Grid
  parts   : List Part
  bars    : List Bar
  caches  : Caches
  coh     : Coh
  tiles   : Tiles
  mat     : Mat
  eng     : Eng
  fill    : Fill
  vis     : Vis
  mig     : Mig
  mgmt    : Mgmt
  saved   : List Saved
  answers : List (QueueId × DWord)
  deriving DecidableEq, Repr

/-- The machine right after reset: no context, no team, nothing outstanding, every cache and directory empty. -/
def State.reset : State :=
  { inbox := [], cur := 0, ticks := 0, clk := 0,
    boot := { pkg := 0, pod := 0, step := 0, regions := [], heap := 0, heapLen := 0, grant := false },
    mem := [], poison := [], teams := [], ghosts := [], ops := [], uses := [], eparks := [], nextOp := 0, nextUid := 0, nextAge := 0,
    ctxs := [], vmqs := [], grids := [], parts := [], bars := [],
    caches := { tlb := [], walks := [], handles := [], l1 := [], ro := [], l2 := [], nacks := [], starved := [], routers := [] },
    coh := { dir := [], held := [], seqs := [], net := [], hold := [], dead := [], die0Dead := false },
    tiles := { bufs := [], tiles := [] },
    mat := { tasks := [], nextId := [], resid := [], held := [], images := [],
             cal := (List.range 16).map fun k => ⟨2 ^ 16 * k, 1, k⟩ },
    eng := { groups := [], forming := [], parts := [], barArr := [] },
    fill := { ranges := [], blocks := [], layers := [], entries := [], items := [], heap := [], revs := [],
              tagFrames := [], order := 0 },
    vis := { kinds := [], batches := [], jobs := [], nextJob := [] },
    mig := { dirty := [], places := [], media := [], regs := [] },
    mgmt := {
      owner := ⟨0, false, false, 0, 0, 0, 0⟩, dieDead := 0, recovery := false, ready := false, clk := [84, 84, 84, 84],
      aclLast := 0, aclCount := 0, pwrcap := 3600, mbox := ⟨0, none, 0, 0, 0, []⟩, acl := [],
      att := List.replicate 4 ⟨0, 0, false, 0, []⟩, keys := [], fuse := 0, kemEpoch := 0, msix := [], corrected := [],
      partDesc := [], shutdown := false },
    saved := [], answers := [] }

end Sys2Proof.Machine
end

