-- ==== Sys2Proof/Machine/Ops.lean ====
section
/-! DEFINITION. Named operations over the state: teams and their registers, the pc, taking a fault, returning from a
handler, lists of cells. -/

namespace Sys2Proof.Machine

open Host (Cell)

/-- The outcome of an instruction or event. -/
abbrev Out := Host.Outcome State Fault Refusal

/-! ### Cells: a storage in canonical form (DESIGN CHOICE, log entry 1) -/

/-- What an unlisted address reads as. -/
def emptyByte : Byte := 0

def Memory.read (m : Memory) (a : Nat) : Byte :=
  match m with
  | [] => emptyByte
  | c :: r => if c.1 = a then c.2 else Memory.read r a

/-- Writes one byte and keeps the canonical form. -/
def Memory.write (m : Memory) (a : Nat) (b : Byte) : Memory :=
  match m with
  | [] => if b = emptyByte then [] else [(a, b)]
  | c :: r =>
    if a < c.1 then (if b = emptyByte then c :: r else (a, b) :: c :: r)
    else if a = c.1 then (if b = emptyByte then r else (a, b) :: r)
    else c :: Memory.write r a b

/-- Strictly rising addresses above `lo`, no entry equal to the empty byte. -/
def Memory.wfFrom (lo : Nat) : Memory → Bool
  | [] => true
  | c :: r => decide (lo ≤ c.1) && decide (c.2 ≠ emptyByte) && Memory.wfFrom (c.1 + 1) r

/-- The canonical form. -/
def Memory.wf (m : Memory) : Bool := Memory.wfFrom 0 m

def Memory.writeBytes (m : Memory) (a : Nat) : List Byte → Memory
  | [] => m
  | b :: r => Memory.writeBytes (m.write a b) (a + 1) r

def Memory.writeCells (m : Memory) : List Cell → Memory
  | [] => m
  | c :: r => Memory.writeCells (m.write c.1 c.2) r

def Memory.readBytes (m : Memory) (a n : Nat) : List Byte := (List.range n).map fun i => m.read (a + i)

/-- The little-endian number of a list of bytes (00 R2). -/
def leNat : List Byte → Nat
  | [] => 0
  | b :: r => b.toNat + 256 * leNat r

/-- The n little-endian bytes of a number. -/
def leBytes (n x : Nat) : List Byte := (List.range n).map fun i => BitVec.ofNat 8 (x / 2 ^ (8 * i))

def Memory.readLE (m : Memory) (a n : Nat) : Nat := leNat (m.readBytes a n)

/-- The byte that the last cell of a list for an address holds. -/
def cellLookup (cs : List Cell) (a : Nat) : Option Byte :=
  match cs with
  | [] => none
  | c :: r => match cellLookup r a with
    | some b => some b
    | none => if c.1 = a then some c.2 else none

/-! ### Teams in the state -/

def State.team? (s : State) (uid : Nat) : Option Team := s.teams.find? (·.uid == uid)

/-- The team that issues. -/
def State.curTeam (s : State) : Option Team := s.team? s.cur

/-- Replaces a team by its uid. -/
def State.setTeam (s : State) (t : Team) : State :=
  { s with teams := s.teams.map fun u => if u.uid == t.uid then t else u }

/-- Changes a team by its uid, where it stands, in its context's image, or among those that have retired. -/
def State.updTeam (s : State) (uid : Nat) (f : Team → Team) : State :=
  let upd (u : Team) : Team := if u.uid == uid then f u else u
  { s with
    teams := s.teams.map upd
    ghosts := s.ghosts.map upd
    saved := if s.saved.isEmpty then [] else s.saved.map fun v => { v with teams := v.teams.map upd } }

def State.ctx? (s : State) (id : Word) : Option Ctx := s.ctxs.find? (·.id == id)

def State.updCtx (s : State) (id : Word) (f : Ctx → Ctx) : State :=
  { s with ctxs := s.ctxs.map fun c => if c.id == id then f c else c }

def State.grid? (s : State) (id : Word) : Option Grid := s.grids.find? (·.id == id)

def State.updGrid (s : State) (id : Word) (f : Grid → Grid) : State :=
  { s with grids := s.grids.map fun g => if g.id == id then f g else g }

def State.part? (s : State) (id : Nat) : Option Part := s.parts.find? (·.id == id)

def State.updPart (s : State) (id : Nat) (f : Part → Part) : State :=
  { s with parts := s.parts.map fun p => if p.id == id then f p else p }

def State.op? (s : State) (id : Nat) : Option Op := s.ops.find? (·.id == id)

def State.updOp (s : State) (id : Nat) (f : Op → Op) : State :=
  { s with ops := s.ops.map fun o => if o.id == id then f o else o }

def State.dropOp (s : State) (id : Nat) : State := { s with ops := s.ops.filter (·.id != id) }

/-- The outstanding operations of a team. -/
def State.opsOf (s : State) (uid : Nat) : List Op := s.ops.filter (·.uid == uid)

/-- Runs the meaning of an instruction for the current team. -/
def onTeam (s : State) (f : Team → Out) : Out :=
  match s.curTeam with
  | some t => f t
  | none => .fault .noTeam

/-! ### Lanes, registers and predicates -/

def Team.lane (t : Team) (L : Nat) : Lane := (t.lanes[L]?).getD ⟨[], 0, 0⟩

def Team.vreg (t : Team) (L n : Nat) : Word := ((t.lane L).v[n]?).getD 0

def Team.sreg (t : Team) (n : Nat) : Word := (t.s[n]?).getD 0

/-- A predicate of a lane; p7 reads true (02 R48). -/
def Team.pred (t : Team) (L : Nat) (p : PredIx) : Bool := if p == 7 then true else (t.lane L).p.getLsbD p.toNat

def Lane.setV (l : Lane) (n : Nat) (w : Word) : Lane := { l with v := l.v.set n w }

/-- Writes a predicate; a write to p7 is ignored (02 R48). -/
def Lane.setP (l : Lane) (p : PredIx) (b : Bool) : Lane :=
  if p == 7 then l
  else { l with p := if b then l.p ||| (1#8 <<< p.toNat) else l.p &&& ~~~(1#8 <<< p.toNat) }

/-- Applies a function to every lane with its number. -/
def Team.mapLanes (t : Team) (f : Nat → Lane → Lane) : Team := { t with lanes := t.lanes.mapIdx f }

/-- Applies a function to the lanes of a mask. -/
def Team.onLanes (t : Team) (m : Mask) (f : Nat → Lane → Lane) : Team :=
  t.mapLanes fun L l => if m.has L then f L l else l

def Team.setS (t : Team) (n : Nat) (w : Word) : Team := { t with s := t.s.set n w }

/-- Writes the words of a result to registers n, n + 1, … of a lane. -/
def Lane.setVs (l : Lane) (n : Nat) : List Word → Lane
  | [] => l
  | w :: r => Lane.setVs (l.setV n w) (n + 1) r

def Team.setSs (t : Team) (n : Nat) : List Word → Team
  | [] => t
  | w :: r => Team.setSs (t.setS n w) (n + 1) r

/-- The active lanes whose guard, after its negation, is true (01 R19). -/
def Team.eligible (t : Team) (g : Guard) : Mask :=
  if g.p == 7 then (if g.neg then 0 else t.active)
  else Mask.ofLanes ((t.active.lanes t.nlanes).filter fun L => t.pred L g.p != g.neg)

/-- Writes words to a destination: a vector destination in the lanes of the mask, each with its own words; a scalar
destination once, with lane 0's words; nothing for 0xFF. -/
def Team.writeDst (t : Team) (m : Mask) (d : Dst) (f : Nat → List Word) : Team :=
  match d with
  | .v n => t.onLanes m fun L l => l.setVs n.toNat (f L)
  | .s n => t.setSs n.toNat (f 0)
  | .none => t

/-- Writes one team-uniform value. -/
def Team.writeUni (t : Team) (d : Dst) (ws : List Word) : Team := t.writeDst 0 d fun _ => ws

/-! ### Special operands (01 R22) -/

/-- The 64-bit cycle counter of a global die. -/
def State.clock (s : State) (die : Nat) : DWord := s.clk + Config.clockOffset die

/-- The low 32 bits of the context's frame counter. -/
def State.frameOf (s : State) (ctx : Word) : Word := ((s.ctx? ctx).map (lo32 ·.frame)).getD 0

/-- A special operand as 32 bits; `uni` holds when a uniform instruction reads it. -/
def readSpecial (s : State) (t : Team) (uni : Bool) (L : Nat) : Special → Word
  | .lane => if uni then Config.laneInUniform s.ticks else BitVec.ofNat 32 L
  | .team => t.teamNo
  | .core => BitVec.ofNat 32 t.place.core
  | .quad => BitVec.ofNat 32 (t.place.core / 4)
  | .die => BitVec.ofNat 32 (t.place.die % 4)
  | .pkg => BitVec.ofNat 32 (t.place.die / 4)
  | .pod => BitVec.ofNat 32 s.boot.pod
  | .lanes => BitVec.ofNat 32 t.nlanes
  | .frame => s.frameOf t.ctx
  | .clkLo => lo32 (s.clock t.place.die)
  | .clkHi => hi32 (s.clock t.place.die)

/-! ### Position in the code -/

/-- The length of an instruction in bytes (02 R34). -/
def instrBytes (i : Instr) : Nat :=
  match encode i with
  | some e => 4 * (e.len.toNat + 2)
  | none => 0

def instrOpc (i : Instr) : BitVec 8 :=
  match encode i with
  | some e => e.op
  | none => 0

/-- Whether an instruction runs in the Nib: a uniform one (01 R16). An object that is no instruction of the set never
starts on a pipe. -/
def inNib (i : Instr) : Bool :=
  match encode i with
  | some e => e.isUni
  | none => true

/-- The pc past an instruction. -/
def Team.after (t : Team) (i : Instr) : DWord := t.pc + BitVec.ofNat 64 (instrBytes i)

/-- Ends an instruction that does not transfer: the pc moves past it and the clause counts it (02 R38). -/
def Team.advance (t : Team) (i : Instr) : Team :=
  { t with
    pc := t.after i, clause := { t.clause with left := t.clause.left - 1 }, unfin := none, since := none, mark := none, reply := [] }

/-- A transfer: the clause is over and the pc stands at a header. -/
def Team.goto (t : Team) (pc : DWord) : Team :=
  { t with pc, clause := { t.clause with left := 0 }, unfin := none, since := none, mark := none, reply := [] }

/-! ### Taking a fault (16 R419 to R426) -/

/-- The lowest lane of a mask. -/
def firstLane (m : Mask) (n : Nat) : Nat := (m.lanes n).headD 0

/-- FINFO0 (16 R421). -/
def finfo0 (f : FaultInfo) (replay : Bool) : Word :=
  f.code ++ (if f.hdr then (0 : BitVec 8) else f.opc) ++ bit1 f.s2 ++ bit1 replay ++ bit1 f.unif ++ bit1 f.hdr ++
    (0 : BitVec 12)

/-- FINFO3: the number of lanes named below n, and the lowest of them. -/
def finfo3 (m : Mask) (n : Nat) : Word :=
  BitVec.ofNat 11 (m.count n) ++ (0 : BitVec 11) ++ BitVec.ofNat 10 (firstLane m n)

/-- The resume pc of a stop: the region entry, or in handler mode the saved header address (16 R439, R420). -/
def Team.resumePc (t : Team) : DWord := if t.ctl.hmode then t.ctl.epc else t.ctl.repc

/-- The record of a fault of a team. -/
def mkRecord (s : State) (t : Team) (f : FaultInfo) (replay : Bool) (rpc : DWord) : FaultRec :=
  { finfo0 := finfo0 f replay, finfo1 := t.ctl.regctr, finfo2 := f.detail, finfo3 := finfo3 f.lanes (f.lanes.toNat.log2 + 1),
    ctx := t.ctx, grid := t.grid, team := t.teamNo, place := t.place, ipc := f.ipc, rpc, addr := f.addr, gpa := f.gpa,
    vmid := ((s.ctx? t.ctx).map (·.vmid)).getD 0, lanes := f.lanes }

/-- Loads FINFO0 to FINFO3 of the team from its record (16 R420). -/
def Team.loadFinfo (t : Team) (r : FaultRec) : Team :=
  { t with ctl := { t.ctl with finfo := [r.finfo0, r.finfo1, r.finfo2, r.finfo3] } }

/-- A stop: the team issues nothing further; its record is queued once its outstanding work has completed (R426). -/
def stopTeam (s : State) (t : Team) (f : FaultInfo) : Team :=
  let r := mkRecord s t f false t.resumePc
  { (t.loadFinfo r) with status := .stopping r }

/-- Takes the fault of an instruction: the one shared entry of every stop raised by an instruction. -/
def takeFault (s : State) (t : Team) (i : Instr) (f : FaultInfo) : State :=
  let unif := f.unif || inNib i
  s.setTeam (stopTeam s t
    { f with opc := instrOpc i, ipc := t.pc, unif, lanes := if unif && f.lanes == 0 then t.active else f.lanes })

/-- Restart of a stopped team at its region entry; a stop in handler mode resumes at the header (16 R426, R439). -/
def Team.restart (t : Team) : Team :=
  { t with
    status := .running, pc := t.resumePc, clause := { t.clause with left := 0 }, unfin := none, since := none,
    mark := none, reply := [], flags := List.replicate 12 0, ctl := { t.ctl with hmode := false } }

/-- Handler entry at a region-entry header (16 R439). -/
def Team.enterHandler (t : Team) (handler : DWord) : Team :=
  { t with
    pc := handler, clause := { t.clause with left := 0 },
    ctl := { t.ctl with epc := t.pc, hmode := true, ksv := 0, kss := 0, ksp := 0 } }

/-- Return from the handler (16 R458). -/
def Team.leaveHandler (t : Team) : Team :=
  { t with pc := t.ctl.epc, clause := { t.clause with left := 0 }, ctl := { t.ctl with hmode := false } }

/-! ### Fault values -/

def codeIllop : BitVec 8 := 0x01
def codePriv : BitVec 8 := 0x02
def codeAlign : BitVec 8 := 0x03
def codeBounds : BitVec 8 := 0x04
def codeStale : BitVec 8 := 0x05
def codePage : BitVec 8 := 0x06
def codePageS2 : BitVec 8 := 0x07
def codePageS2Walk : BitVec 8 := 0x08
def codePerm : BitVec 8 := 0x09
def codeShare : BitVec 8 := 0x0B
def codeFillGen : BitVec 8 := 0x0C
def codeFillDepth : BitVec 8 := 0x0D
def codeSealed : BitVec 8 := 0x0E
def codeOverlap : BitVec 8 := 0x0F
def codeStack : BitVec 8 := 0x10
def codeEcc : BitVec 8 := 0x11
def codeAbsent : BitVec 8 := 0x12
def codeContained : BitVec 8 := 0x13
def codeWatchdog : BitVec 8 := 0x14
def codeRay : BitVec 8 := 0x15
def codeArith : BitVec 8 := 0x16
def codeBkpt : BitVec 8 := 0x17
def codeTrap : BitVec 8 := 0x18
def codeWeight : BitVec 8 := 0x19
def codeImage : BitVec 8 := 0x1A
def codeAborted : BitVec 8 := 0x1B

def illop : FaultInfo := { code := codeIllop }

/-- A fault of a uniform instruction, which names every active lane (08 R195). -/
def Team.uniFault (t : Team) (code : BitVec 8) (detail : Word := 0) : FaultInfo :=
  { code, unif := true, detail, lanes := t.active }

/-- The end of an instruction that computes a new team or a fault. -/
def finish (s : State) (t : Team) (i : Instr) (r : Except FaultInfo Team) : Out :=
  match r with
  | .ok t' => .next (s.setTeam (t'.advance i))
  | .error f => .next (takeFault s t i f)

/-- A wait: the team stands at the instruction, which runs again when the condition holds. -/
def waitHere (s : State) (t : Team) (w : Wait) : Out := .next (s.setTeam { t with status := .waiting w })

/-! ### Fault queues (16 R422, R423) -/

/-- Puts a record into a queue's list of records that wait to be written, under the next SEQ. -/
def FaultQueue.push (q : FaultQueue) (r : FaultRec) : Word × FaultQueue :=
  (q.nextSeq, { q with nextSeq := q.nextSeq + 1, pending := q.pending ++ [(q.nextSeq, r)] })

/-- Queues a record: its SEQ and the state. A context without a queue, or a machine without a stage-2 queue, keeps
nothing. -/
def State.queueRecord (s : State) (q : QueueId) (r : FaultRec) : Word × State :=
  match q with
  | .ctx id =>
    match s.ctx? id with
    | some c => let (n, f) := c.fq.push r; (n, s.updCtx id fun c => { c with fq := f })
    | none => (0, s)
  | .vm id =>
    match s.vmqs.find? (·.1 == id) with
    | some e =>
      let (n, f) := e.2.push r
      (n, { s with vmqs := s.vmqs.map fun e => if e.1 == id then (id, f) else e })
    | none => (0, s)

/-! ### Register allocation (01 R24) -/

def Src.inAlloc (n : Nat) : Src → Bool
  | .v k => k.toNat < n
  | _ => true

def Dst.inAlloc (n : Nat) : Dst → Bool
  | .v k => k.toNat < n
  | _ => true

/-- Registers named by an instruction lie within the team's allocation; an aligned group begins within it exactly when
it lies within it, since allocations are multiples of 8 (01 R18, 02 R49). -/
def allocOk (t : Team) (d : Dst) (srcs : List Src) : Bool :=
  Dst.inAlloc t.nvregs d && srcs.all (Src.inAlloc t.nvregs)

/-- Runs an instruction body after the allocation check. -/
def withAlloc (t : Team) (d : Dst) (srcs : List Src) (r : Except FaultInfo Team) : Except FaultInfo Team :=
  if allocOk t d srcs then r else .error illop

end Sys2Proof.Machine
end

