-- ==== Sys2Proof/Machine/Operands.lean ====
section
/-! DEFINITION. Operand values: integer and bit-pattern positions of 32 and 64 bits, floating-point positions, elements
of packed types (02 R48 to R51, 04 R101). -/

namespace Sys2Proof.Machine

/-- Inline constants in integer and .b32 positions (02 R50). -/
def constWord (n : Nat) : Word :=
  ([0, 1, 2, 4, 0xFFFFFFFF, 0x3F000000, 0x3F800000, 0x40000000, 0xBF800000, 0xBF000000, 0x40800000, 0x7F800000,
    0x7FFFFFFF, 0x80000000, 0x3FC90FDB, 0xFFFFFFFF][n]?).getD 0

/-- A 32-bit operand in an integer position. -/
def val32 (s : State) (t : Team) (uni : Bool) (L : Nat) : Src → Word
  | .v n => t.vreg L n.toNat
  | .s n => t.sreg n.toNat
  | .sp x => readSpecial s t uni L x
  | .k n => constWord n.toNat
  | .imm w => w
  | .none => 0

/-- A 64-bit operand in an integer position (02 R46, R49, R50): `signed` says how the immediate is widened. -/
def val64 (s : State) (t : Team) (uni : Bool) (L : Nat) (signed : Bool) : Src → DWord
  | .v n => pair32 (t.vreg L n.toNat) (t.vreg L (n.toNat + 1))
  | .s n => pair32 (t.sreg n.toNat) (t.sreg (n.toNat + 1))
  | .sp .clkLo => s.clock t.place.die
  | .sp x => (readSpecial s t uni L x).setWidth 64
  | .k n => if n.toNat ≤ 4 then (constWord n.toNat).signExtend 64 else (constWord n.toNat).setWidth 64
  | .imm w => if signed then w.signExtend 64 else w.setWidth 64
  | .none => 0

/-- An operand of an integer type as one number: 64 bits for a wide type, else 32. -/
def valI (s : State) (t : Team) (uni : Bool) (L : Nat) (ty : IType) (x : Src) : Nat :=
  if ty.wide then (val64 s t uni L ty.signed x).toNat else (val32 s t uni L x).toNat

/-- Element width of an integer type (04 R101). -/
def IType.width : IType → Nat
  | .i32 | .n32 | .b32 => 32
  | .i64 | .n64 => 64
  | .i16x2 => 16
  | .n8x4 => 8

/-- Elements of one operand. -/
def IType.elems : IType → Nat
  | .i16x2 => 2
  | .n8x4 => 4
  | _ => 1

/-- Element e of an operand, as the type reads it (04 R101). -/
def IType.elem (ty : IType) (x e : Nat) : Int :=
  let w := IType.width ty
  if ty.signed then natToInt (natField x (w * e) w) w else (natField x (w * e) w : Nat)

/-- Element e read unsigned. -/
def IType.elemN (ty : IType) (x e : Nat) : Nat := natField x (IType.width ty * e) (IType.width ty)

/-- The operand whose elements are given, each reduced to the element width. -/
def IType.pack (ty : IType) (f : Nat → Int) : Nat :=
  (List.range (IType.elems ty)).foldl (fun x e => x + intToNat (f e) (IType.width ty) * 2 ^ (IType.width ty * e)) 0

/-- The registers of a result: a pair for a wide type. -/
def wordsOf (wide : Bool) (x : Nat) : List Word :=
  if wide then [BitVec.ofNat 32 x, BitVec.ofNat 32 (x / 2 ^ 32)] else [BitVec.ofNat 32 x]

/-- Whether a form is uniform: no vector destination and no vector source (02 R51). -/
def isUni (d : Dst) (srcs : List Src) : Bool := !d.isVec && srcs.all Src.isUni

/-- The lanes over which an instruction computes: lane 0 stands for a uniform instruction. -/
def computeLanes (uni : Bool) (t : Team) (m : Mask) : List Nat := if uni then [0] else m.lanes t.nlanes

/-! ### Floating-point positions -/

/-- FP32 images of the inline constants in floating-point positions (02 R50). -/
def constF32 (n : Nat) : Word :=
  ([0, 0x3F800000, 0x40000000, 0x40800000, 0xBF800000, 0x3F000000, 0x3F800000, 0x40000000, 0xBF800000, 0xBF000000,
    0x40800000, 0x7F800000, 0x7FFFFFFF, 0x80000000, 0x3FC90FDB, 0xFFFFFFFF][n]?).getD 0

/-- A 32-bit operand in a floating-point position (02 R50). -/
def valF32 (s : State) (t : Team) (uni : Bool) (L : Nat) : Src → Word
  | .k n => constF32 n.toNat
  | x => val32 s t uni L x

/-- Constants that are bit patterns and are not converted. -/
def constIsPattern (n : Nat) : Bool := n == 12 || n == 13 || n == 15

end Sys2Proof.Machine
end

