-- ==== Sys2Proof/Machine/Translate.lean ====
section
/-! DEFINITION. Translation (16 R428 to R432): table walks of both stages with accessed and dirty bits, the TLBs of the
cores, homes of physical addresses (01 R12), and instruction fetch (02 R35). -/

namespace Sys2Proof.Machine

/-- What an access is, for permissions and reports (16 R421). -/
inductive Access where
  | read | write | atomic | fetch | engRead | engWrite | descr
  deriving DecidableEq, Repr

def Access.code : Access → Nat
  | .read => 0 | .write => 1 | .atomic => 2 | .fetch => 3 | .engRead => 4 | .engWrite => 5 | .descr => 6

def Access.writes : Access → Bool
  | .write | .atomic | .engWrite => true
  | _ => false

def Access.reads : Access → Bool
  | .write | .engWrite | .fetch => false
  | _ => true

/-- Why a translation fails. `detail` is the DETAIL of a page report (16 R421). -/
structure XFault where
  code   : BitVec 8
  detail : Word
  gpa    : DWord
  deriving DecidableEq, Repr

/-- A table descriptor that a walk has fetched: stage, level, the part of the address that led to it. -/
structure FetchedTable where
  stage2 : Bool
  lv     : Nat
  page   : Nat
  desc   : Nat
  deriving DecidableEq, Repr

/-- What a walk works on: memory with the bytes it has written there, accessed and dirty bits, and the table descriptors
that it has fetched. -/
structure WalkMem where
  mem    : Memory
  cells  : List Host.Cell
  tables : List FetchedTable
  deriving DecidableEq, Repr

def WalkMem.of (m : Memory) : WalkMem := ⟨m, [], []⟩

/-- What a walker meets beside memory: reads that get an error response, with the agent's DETAIL (08 R229), and the table
descriptors of the die's walk cache by stage, level and address (16 R432). -/
structure WalkView where
  fails : Nat → Option Word
  look  : Bool → Nat → Nat → Option Nat

/-- A walk of memory alone. -/
def WalkView.plain : WalkView := ⟨fun _ => none, fun _ _ _ => none⟩

/-- A finished translation: physical and guest-physical address, kind of the page, permissions, the page's size, and
what the walk has done to memory. -/
structure XOk where
  pa   : Nat
  gpa  : Nat
  kind : PageKind
  r    : Bool
  w    : Bool
  x    : Bool
  size : Nat
  wm   : WalkMem
  deriving DecidableEq, Repr

/-- S over R over U (08 R198). -/
def PageKind.strongest : PageKind → PageKind → PageKind
  | .s, _ => .s
  | _, .s => .s
  | .r, _ => .r
  | _, .r => .r
  | .u, .u => .u

/-! ### Descriptors (16 R429) -/

/-- First index bit and number of index bits of a level (16 R428). -/
def levelShift (lv : Nat) : Nat := [48, 39, 30, 21, 15][lv]?.getD 15
def levelBits (lv : Nat) : Nat := if lv == 4 then 6 else 9

inductive Desc where
  | invalid
  | malformed
  | table (addr : Nat)
  | leaf (addr : Nat) (kind : PageKind) (x w r af dirty : Bool)
  deriving DecidableEq, Repr

/-- A descriptor at a level. A table's address is aligned to the table's size, a leaf's to the page's. -/
def descOf (lv d : Nat) : Desc :=
  let ty := natField d 62 2
  let addr := natField d 9 43 * 512
  if ty == 0 then .invalid
  else if ty == 3 || natField d 52 3 != 0 || natField d 0 9 != 0 then .malformed
  else if ty == 1 then
    if lv == 4 || natField d 55 7 != 0 || addr % (if lv == 3 then 512 else 4096) != 0 then .malformed
    else .table addr
  else
    let k := natField d 60 2
    if lv ≤ 1 || k == 0 || addr % 2 ^ levelShift lv != 0 then .malformed
    else .leaf addr (if k == 1 then .s else if k == 2 then .r else .u) (natBit d 59) (natBit d 58) (natBit d 57)
      (natBit d 56) (natBit d 55)

/-- A descriptor with AF set, and DIRTY for a write. -/
def descMark (d : Nat) (wr : Bool) : Nat :=
  d + (if natBit d 56 then 0 else 2 ^ 56) + (if wr && !natBit d 55 then 2 ^ 55 else 0)

def permOk (acc : Access) (x w r : Bool) : Bool :=
  (!acc.writes || w) && (!acc.reads || r) && (acc != .fetch || x)

def xdetail (acc : Access) (lv : Nat) (permf malf : Bool) : Word :=
  BitVec.ofNat 32 (acc.code + 16 * lv + 256 * b2n permf + 512 * b2n malf)

/-- Where a walk ends: the leaf, its level, the physical address of its descriptor. -/
structure LeafAt where
  addr  : Nat
  lv    : Nat
  at_   : Nat
  desc  : Nat
  kind  : PageKind
  x     : Bool
  w     : Bool
  r     : Bool
  deriving DecidableEq, Repr

inductive WalkEnd where
  | leaf (l : LeafAt)
  | bad (lv : Nat) (malf : Bool)
  | error (detail : Word)
  deriving DecidableEq, Repr

/-- The part of an address that leads to a descriptor of a level. -/
def walkPage (lv a : Nat) : Nat := a / 2 ^ levelShift lv

/-- A descriptor of a walk: from the walk cache, else from memory, where a table's descriptor is noted; none for an error
response. -/
def fetchDesc (v : WalkView) (w : WalkMem) (s2 : Bool) (lv a pa : Nat) : Except Word (Nat × WalkMem) :=
  match v.look s2 lv (walkPage lv a) with
  | some d => .ok (d, w)
  | none =>
    match v.fails pa with
    | some x => .error x
    | none =>
      let d := w.mem.readLE pa 8
      match descOf lv d with
      | .table _ => .ok (d, { w with tables := w.tables ++ [⟨s2, lv, walkPage lv a, d⟩] })
      | _ => .ok (d, w)

/-- A walk of stage 2 over a guest-physical address. -/
def walk2 (v : WalkView) (w : WalkMem) (tbl a : Nat) : List Nat → WalkEnd × WalkMem
  | [] => (.bad 4 true, w)
  | lv :: rest =>
    let pos := tbl + 8 * natField a (levelShift lv) (levelBits lv)
    match fetchDesc v w true lv a pos with
    | .error x => (.error x, w)
    | .ok (d, w) =>
      match descOf lv d with
      | .invalid => (.bad lv false, w)
      | .malformed => (.bad lv true, w)
      | .table t => walk2 v w t a rest
      | .leaf p k x wr r _ _ =>
        (.leaf { addr := p + a % 2 ^ levelShift lv, lv, at_ := pos, desc := d, kind := k, x, w := wr, r }, w)

/-- Sets the new bits of a descriptor: the update is atomic, so bits set since it was read stay. -/
def markAt (w : WalkMem) (pa d mark : Nat) : WalkMem :=
  if mark == d then w
  else
    let bs := leBytes 8 (w.mem.readLE pa 8 ||| mark)
    { w with mem := w.mem.writeBytes pa bs, cells := w.cells ++ bs.mapIdx fun i b => (pa + i, b) }

def markLeaf (m : WalkMem) (l : LeafAt) (wr : Bool) : WalkMem := markAt m l.at_ l.desc (descMark l.desc wr)

/-- A walk that gets an error response (08 R229, 11 R295). -/
def walkError (detail : Word) : XFault := { code := codeContained, detail, gpa := 0 }

/-- Stage 2 of an address: physical address, leaf and the marked memory; the identity without stage 2. -/
def stage2 (v : WalkView) (m : WalkMem) (s2root a : Nat) (acc : Access) (wr : Bool) :
    Except XFault (Nat × Option LeafAt × WalkMem) :=
  if s2root == 0 then .ok (a, none, m)
  else
    match walk2 v m s2root a [0, 1, 2, 3, 4] with
    | (.bad lv malf, _) => .error { code := codePageS2, detail := xdetail acc lv false malf, gpa := BitVec.ofNat 64 a }
    | (.error x, _) => .error (walkError x)
    | (.leaf l, m) =>
      if permOk acc l.x l.w l.r then .ok (l.addr, some l, markLeaf m l wr)
      else .error { code := codePageS2, detail := xdetail acc l.lv true false, gpa := BitVec.ofNat 64 a }

/-- A stage-2 failure of a descriptor's fetch or update, as PAGE_S2_WALK; an error response stays one. -/
def s2WalkFault (f : XFault) (acc : Access) (lv pos : Nat) : XFault :=
  if f.code == codeContained then f
  else { f with
    code := codePageS2Walk, gpa := BitVec.ofNat 64 pos,
    detail := xdetail acc lv (f.detail.getLsbD 8) (f.detail.getLsbD 9) }

/-- A walk of stage 1; each descriptor fetch is translated by stage 2 first, and a failure there is PAGE_S2_WALK. The
leaf's `at_` is the guest-physical address of its descriptor. -/
def walk1 (v : WalkView) (m : WalkMem) (s2root tbl va : Nat) (acc : Access) : List Nat → Except XFault (LeafAt × WalkMem)
  | [] => .error { code := codePage, detail := xdetail acc 4 false true, gpa := 0 }
  | lv :: rest =>
    let pos := tbl + 8 * natField va (levelShift lv) (levelBits lv)
    let fetched : Except XFault (Nat × WalkMem) :=
      match v.look false lv (walkPage lv va) with
      | some d => .ok (d, m)
      | none =>
        match stage2 v m s2root pos .descr false with
        | .error f => .error (s2WalkFault f acc lv pos)
        | .ok (pa, _, m) =>
          match fetchDesc v m false lv va pa with
          | .error x => .error (walkError x)
          | .ok r => .ok r
    match fetched with
    | .error f => .error f
    | .ok (d, m) =>
      match descOf lv d with
      | .invalid => .error { code := codePage, detail := xdetail acc lv false false, gpa := 0 }
      | .malformed => .error { code := codePage, detail := xdetail acc lv false true, gpa := 0 }
      | .table t => walk1 v m s2root t va acc rest
      | .leaf p k x w r _ _ =>
        .ok ({ addr := p + va % 2 ^ levelShift lv, lv, at_ := pos, desc := d, kind := k, x, w, r }, m)

/-- A whole walk (16 R430). -/
def walk (v : WalkView) (m : WalkMem) (c : Ctx) (va : DWord) (acc : Access) : Except XFault XOk :=
  let a := va.toNat % 2 ^ 57
  match walk1 v m c.s2root c.s1root a acc [0, 1, 2, 3, 4] with
  | .error f => .error f
  | .ok (l, m) =>
    if !permOk acc l.x l.w l.r then .error { code := codePerm, detail := 0xFFF, gpa := 0 }
    else
      match stage2 v m c.s2root l.addr acc acc.writes with
      | .error f => .error f
      | .ok (pa, l2, m) =>
        let wr := acc.writes
        let mark := descMark l.desc wr
        -- the atomic update of the stage-1 descriptor needs stage-2 write permission for its page
        match (if mark == l.desc then Except.ok (0, none, m) else stage2 v m c.s2root l.at_ .atomic true) with
        | .error f => .error (s2WalkFault f acc l.lv l.at_)
        | .ok (dpa, _, m) =>
          let m := markAt m dpa l.desc mark
          let (k2, x2, w2, r2, lv2) := match l2 with
            | some e => (e.kind, e.x, e.w, e.r, e.lv)
            | none => (PageKind.u, true, true, true, 2)
          .ok { pa, gpa := l.addr, kind := PageKind.strongest l.kind k2, x := l.x && x2, w := l.w && w2,
                r := l.r && r2, size := 2 ^ levelShift (Nat.max l.lv lv2), wm := m }

/-! ### Homes (01 R12) -/

/-- The home of a physical address; an address that no region names is HBM4 memory of die 0 (DESIGN CHOICE, log entry 9). -/
def homeOf (s : State) (pa : Nat) : HomeKind :=
  match s.boot.regions.find? fun r => decide (r.base ≤ pa) && decide (pa < r.base + r.size) with
  | some r => r.home
  | none => .hbm (4 * s.boot.pkg)

def HomeKind.die : HomeKind → Nat
  | .hbm d => d
  | .cxl d _ => d
  | .host => 0

/-- Whether an access from a die is remote (08 R215): another die or package, CXL memory or the host. -/
def isRemote (s : State) (die pa : Nat) : Bool :=
  match homeOf s pa with
  | .hbm d => d != die
  | .cxl .. => true
  | .host => true

/-- The 128-byte line of a physical address. -/
def lineOf (a : Nat) : Nat := a / 128

/-- The chunks of a write join the dirty chunks of the migration tables (16 R433). -/
def addDirty (d : List Nat) : List Host.Cell → List Nat
  | [] => d
  | c :: r => addDirty (if d.contains (lineOf c.1) then d else lineOf c.1 :: d) r

/-- Whether the agent that serves an address is dead (11 R295). -/
def deadHome (s : State) (pa : Nat) : Bool :=
  match homeOf s pa with
  | .hbm d => s.coh.dead.contains (.die d)
  | .cxl d p => s.coh.dead.contains (.cxl p) || s.coh.dead.contains (.die d)
  | .host => s.coh.dead.contains .host

/-- DETAIL of a CONTAINED fault: the agent is a die (16 R421). -/
def dieDetail (die : Nat) : Word := BitVec.ofNat 32 (1 + 256 * die)

/-- DETAIL of a CONTAINED fault: the agent that serves an address. -/
def agentDetail (s : State) (pa : Nat) : Word :=
  match homeOf s pa with
  | .hbm d => dieDetail d
  | .cxl _ p => BitVec.ofNat 32 (3 + 256 * p)
  | .host => 4

/-- Whether a read of bytes meets poison. -/
def State.poisoned (s : State) (a n : Nat) : Bool :=
  s.poison.any fun l => decide (lineOf a ≤ l) && decide (l ≤ lineOf (a + n - 1))

/-- DETAIL of the error response that a read of bytes gets: its home is dead, or a line of it is poisoned (08 R229, 11 R295). -/
def errorAt (s : State) (pa n : Nat) : Option Word :=
  if deadHome s pa || s.poisoned pa n then some (agentDetail s pa) else none

/-! ### The walk caches of the dies (16 R432) -/

/-- Table descriptors that a die's walk cache holds. -/
def walkSize : Nat := 1024

/-- Whether an entry serves a walk of a context. -/
def WalkEntry.serves (e : WalkEntry) (die : Nat) (c : Ctx) : Bool :=
  e.die == die && e.vmid == c.vmid && (e.stage2 || e.ctx == c.id)

/-- Puts a table descriptor into a die's walk cache; past its size the oldest leaves (DESIGN CHOICE, log entry 11). -/
def walkInsert (es : List WalkEntry) (e : WalkEntry) : List WalkEntry :=
  let es := es.filter (· != e)
  let mine := es.filter (·.die == e.die)
  let es := if mine.length < walkSize then es
    else match mine.getLast? with
      | some old => es.filter (· != old)
      | none => es
  e :: es

/-- How a walker of a die sees descriptors for a context. -/
def State.walkView (s : State) (die : Nat) (c : Ctx) : WalkView :=
  { fails := fun pa => errorAt s pa 8
    look := fun s2 lv page =>
      (s.caches.walks.find? fun e => e.serves die c && e.stage2 == s2 && e.lv == lv && e.page == page).map (·.desc) }

/-- What a walk leaves: its writes with their dirty chunks (16 R433), its table descriptors in the walk cache. -/
def State.walked (s : State) (die : Nat) (c : Ctx) (w : WalkMem) : State :=
  { s with
    mem := w.mem
    mig := { s.mig with dirty := addDirty s.mig.dirty w.cells }
    caches := { s.caches with
      walks := w.tables.foldl (fun es x => walkInsert es ⟨die, x.stage2, c.vmid, c.id, x.lv, x.page, x.desc⟩) s.caches.walks } }

/-! ### TLBs -/

/-- The entries a core may hold: 64 and 2,048 (16 R432). -/
def tlbSize : Nat := 2112

def tlbFind (es : List TlbEntry) (die core : Nat) (c : Ctx) (va : Nat) : Option TlbEntry :=
  es.find? fun e => e.die == die && e.core == core && e.vmid == c.vmid && e.ctx == c.id && e.page == va / e.size

/-- Puts a translation into a core's TLB; past the size the oldest entry of the core leaves (DESIGN CHOICE, log entry 11). -/
def tlbInsert (es : List TlbEntry) (e : TlbEntry) : List TlbEntry :=
  let same (f : TlbEntry) : Bool := f.die == e.die && f.core == e.core
  let es := es.filter fun f => !(same f && f.vmid == e.vmid && f.ctx == e.ctx && f.page == e.page && f.size == e.size)
  let mine := es.filter same
  let es := if mine.length < tlbSize then es
    else match mine.getLast? with
      | some old => es.filter (· != old)
      | none => es
  e :: es

/-- What an access gets from translation: physical address and kind. -/
structure Xlat where
  pa   : Nat
  kind : PageKind
  deriving DecidableEq, Repr

/-- Translation by a core for a context: a TLB entry that allows the access, else a walk whose result enters the TLB. -/
def translate (s : State) (c : Ctx) (die core : Nat) (va : DWord) (acc : Access) : Except XFault (Xlat × State) :=
  let a := va.toNat % 2 ^ 57
  match (tlbFind s.caches.tlb die core c a).filter fun e => permOk acc e.x e.w e.r && (!acc.writes || e.dirty) with
  | some e => .ok ({ pa := e.pa + a % e.size, kind := e.kind }, s)
  | none =>
    match walk (s.walkView die c) (.of s.mem) c va acc with
    | .error f => .error f
    | .ok o =>
      let s := s.walked die c o.wm
      let e : TlbEntry :=
        { die, core, vmid := c.vmid, ctx := c.id, page := a / o.size, size := o.size, pa := o.pa - a % o.size,
          gpa := o.gpa - a % o.size, kind := o.kind, r := o.r, w := o.w, x := o.x, dirty := acc.writes }
      .ok ({ pa := o.pa, kind := o.kind },
        { s with caches := { s.caches with tlb := tlbInsert s.caches.tlb e } })

/-! ### Fetch (02 R35, R36) -/

/-- The eight parcels of the fetch block that holds a code address. -/
inductive FetchRes where
  | block (ws : List Word) (s : State)
  | fault (f : XFault)

def parcelsOf (bs : List Byte) : List Word :=
  (List.range 8).map fun i => BitVec.ofNat 32 (leNat ((bs.drop (4 * i)).take 4))

/-- The block is read at each fetch from performed memory; which moment's bytes a fetched block holds is the model's
choice (DESIGN CHOICE, log entry 97). -/
def fetchBlock (s : State) (c : Ctx) (t : Team) (pc : DWord) : FetchRes :=
  let base := pc - BitVec.ofNat 64 (pc.toNat % 32)
  match translate s c t.place.die t.place.core base .fetch with
  | .error f => .fault f
  | .ok (x, s) =>
    match errorAt s x.pa 32 with
    | some d => .fault (walkError d)
    | none => .block (parcelsOf (s.mem.readBytes x.pa 32)) s

/-- The instruction at a team's pc; none for a header, for what is no instruction and where the fetch fails. -/
def instrAt (s : State) (c : Ctx) (t : Team) : Option Instr :=
  match fetchBlock s c t t.pc with
  | .block ws _ =>
    (match readObject (t.pc.toNat - t.pc.toNat % 32) ws (t.pc.toNat % 32 / 4) (t.clause.left == 0) with
     | some (.instr _ _ i) => some i
     | _ => none)
  | .fault _ => none

/-- A page that an instruction cannot reach: an address, the lanes that meet it, and why. -/
structure ParkCause where
  va    : DWord
  lanes : Mask
  f     : XFault
  deriving DecidableEq, Repr

/-- The queue of a park report: the stage-2 queue of the virtual machine, or the context's own (16 R423). -/
def parkQueue (s : State) (t : Team) (f : XFault) : QueueId :=
  if f.code == codePage then .ctx t.ctx else .vm (((s.ctx? t.ctx).map (·.vmid)).getD 0)

/-- The record of one cause. -/
def parkRecord (s : State) (t : Team) (opc : BitVec 8) (hdr uni : Bool) (c : ParkCause) : FaultRec :=
  mkRecord s t
    { code := c.f.code, opc, unif := uni, hdr, detail := c.f.detail, lanes := c.lanes, ipc := t.pc, addr := c.va,
      gpa := c.f.gpa, s2 := c.f.code != codePage } true t.pc

/-- Queues one park report for each page met (16 R423) and gives the reports the team then waits on. -/
def queueParks (s : State) (t : Team) (opc : BitVec 8) (hdr uni : Bool) : List ParkCause → State × List ParkRep
  | [] => (s, [])
  | c :: rest =>
    let r := parkRecord s t opc hdr uni c
    let s2 := c.f.code != codePage
    let (seq, s') := s.queueRecord (parkQueue s t c.f) r
    let (s'', reps) := queueParks s' t opc hdr uni rest
    (s'', { s2, granule := (if s2 then c.f.gpa.toNat else c.va.toNat % 2 ^ 57) / 2 ^ 15, seq, rpt := r } :: reps)

/-- The first parcel at a code address is a header (03 R75). -/
inductive TargetRes where
  | ok (s : State)
  | bad
  | fault (va : DWord) (f : XFault)

/-- Reads the first parcel at each address that a transfer goes to or records. -/
def checkTargets (s : State) (c : Ctx) (t : Team) : List DWord → TargetRes
  | [] => .ok s
  | pc :: rest =>
    match fetchBlock s c t pc with
    | .fault f => .fault pc f
    | .block ws s =>
      if isHeaderParcel (blockParcel ws (pc.toNat % 32 / 4)) then checkTargets s c t rest else .bad

/-- The context of a team; a team never stands without one. -/
def State.ctxOf (s : State) (t : Team) : Ctx :=
  (s.ctx? t.ctx).getD
    { id := t.ctx, tid := 0, cls := 0, sys := false, furrow := false, debug := false, part := 0, s1root := 0,
      s2root := 0, vmid := 0, ybudget := 0, budget := none, fq := ⟨0, 0, []⟩, pool := 0, npool := 0, sharemask := 0,
      sharetab := [], frame := 0, invalidRays := 0, nonce := 0, halted := none, sliceEnd := false, debt := 0, desc := [], pend := none }

end Sys2Proof.Machine
end

