-- ==== Sys2Proof/Machine/Paths.lean ====
section
/-! DEFINITION. The reconvergence stack (03 R69 to R79, R95): entries without lanes, the end of a path, rotation. The
stack is a list with its top first. -/

namespace Sys2Proof.Machine

/-! ### Lanes of an entry -/

def LoopRec.lanesOf (l : LoopRec) : Mask := l.i ||| l.k ||| l.v

def carriedLanes : Option LoopRec → Mask
  | some l => LoopRec.lanesOf l
  | none => 0

def Path.lanesOf (p : Path) : Mask := p.m ||| carriedLanes p.carried

/-- The union of the masks of an entry (R69). -/
def Entry.lanesOf : Entry → Mask
  | .div _ c q v => q.foldl (fun m p => m ||| Path.lanesOf p) (c ||| v)
  | .loop l => LoopRec.lanesOf l
  | .call _ m => m

def LoopRec.without (l : LoopRec) (x : Mask) : LoopRec :=
  { l with i := l.i.diff x, k := l.k.diff x, v := l.v.diff x }

def Path.without (p : Path) (x : Mask) : Path :=
  { p with m := p.m.diff x, carried := p.carried.map (LoopRec.without · x) }

/-- Removes lanes from every mask of an entry; a pending path left without lanes leaves the queue (R79). -/
def Entry.without (e : Entry) (x : Mask) : Entry :=
  match e with
  | .div j c q v => .div j (c.diff x) ((q.map (Path.without · x)).filter fun p => !(Path.lanesOf p).isEmpty) (v.diff x)
  | .loop l => .loop (LoopRec.without l x)
  | .call ra m => .call ra (m.diff x)

/-- Removes lanes from entries and discards those left empty (R79). -/
def removeLanes (x : Mask) (es : List Entry) : List Entry :=
  (es.map (Entry.without · x)).filter fun e => !(Entry.lanesOf e).isEmpty

/-! ### The running configuration -/

/-- Stack, active mask, pc, and whether the team retires. -/
structure Paths where
  stack  : List Entry
  active : Mask
  pc     : DWord
  retire : Bool := false
  deriving DecidableEq, Repr

/-- Resume and rotation, given what to do when a resumed path is empty (R78). -/
def resumeWith (onEmpty : Paths → Paths) (c : Paths) : Paths :=
  match c.stack with
  | .div j _ (p :: q) v :: rest =>
    let base := Entry.div j (Path.lanesOf p) q v :: rest
    let st := match p.carried with
      | some l => .loop { l with i := p.m } :: base
      | none => base
    let c := { c with stack := st, active := p.m, pc := p.pc }
    if p.m.isEmpty then onEmpty c else c
  | _ => c

/-- Rotate: the running path, with a LOOP entry on top, goes to the back of the queue (R78). -/
def rotateWith (onEmpty : Paths → Paths) (c : Paths) : Paths :=
  match c.stack with
  | .loop l :: .div j m q v :: rest =>
    resumeWith onEmpty { c with stack := .div j m (q ++ [⟨c.pc, c.active, some l⟩]) v :: rest }
  | .div j m q v :: rest =>
    resumeWith onEmpty { c with stack := .div j m (q ++ [⟨c.pc, c.active, none⟩]) v :: rest }
  | _ => c

/-- Whether a taken backward transfer switches paths (R95). -/
def rotateDue (st : List Entry) : Bool :=
  match st with
  | .div _ _ (_ :: _) _ :: _ => true
  | .loop _ :: .div _ _ (_ :: _) _ :: _ => true
  | _ => false

/-- EndPath (R78). `fuel` bounds the entries popped and paths resumed. -/
def endPath : Nat → Paths → Paths
  | 0, c => c
  | fuel + 1, c =>
    match c.stack with
    | [] => { c with retire := true }
    | .div j _ [] v :: rest =>
      let c := { c with stack := rest, active := v, pc := j }
      if v.isEmpty then endPath fuel c else c
    | .div _ _ (_ :: _) _ :: _ => resumeWith (endPath fuel) c
    | .loop l :: rest =>
      if l.k.isEmpty then
        let c := { c with stack := rest, active := l.v, pc := l.x }
        if l.v.isEmpty then endPath fuel c else c
      else
        let c := { c with stack := .loop { l with i := l.k, k := 0 } :: rest, active := l.k, pc := l.h }
        if rotateDue c.stack then rotateWith (endPath fuel) c else c
    | .call _ _ :: rest => endPath fuel { c with stack := rest, active := 0 }

/-- More than the pops and resumptions that a stack allows. -/
def pathFuel (st : List Entry) : Nat :=
  1 + (st.map fun e => match e with | .div _ _ q _ => 3 + 3 * q.length | _ => 3).sum

def Paths.ended (c : Paths) : Paths := endPath (pathFuel c.stack) c

/-- CheckRotate after a taken backward transfer (R78). -/
def Paths.checkRotate (c : Paths) : Paths :=
  if rotateDue c.stack then rotateWith (endPath (pathFuel c.stack + 6)) c else c

/-- The configuration of a team. -/
def Team.paths (t : Team) : Paths := ⟨t.stack, t.active, t.pc, false⟩

/-- Puts a configuration into a team: its next clause starts at the pc; a team without lanes begins to retire. -/
def Team.withPaths (t : Team) (c : Paths) : Team :=
  { (t.goto c.pc) with
    stack := c.stack, active := c.active, retiring := c.retire,
    status := if c.retire then .waiting .drain else t.status }

/-- Room for one more entry (R70, R72). -/
def Team.pushOk (t : Team) : Bool := t.stack.length < 16 + t.spillD

end Sys2Proof.Machine
end

