-- ==== Sys2Proof/Machine/Work.lean ====
section
/-! DEFINITION. Outstanding work (02 R42, 13 R336): flags, operations, completions, the store queue of a core
(09 R232), and poisoned lines (08 R229). -/

namespace Sys2Proof.Machine

open Host (Cell)

/-! ### Scopes (01 R21) -/

/-- The number of the unit of a scope that holds a place. -/
def scopeInst (p : Place) : Scope → Nat
  | .team | .core => p.die * 64 + p.core
  | .quad => p.die * 16 + p.core / 4
  | .die => p.die
  | .pkg => p.die / 4
  | .pod | .sys => 0

/-- Whether a scope of one place holds a core of another die. -/
def scopeHolds (p : Place) (sc : Scope) (die core : Nat) : Bool := scopeInst p sc == scopeInst ⟨die, core, 0⟩ sc

/-- Whether a write must reach its home to be performed at a scope (09 R232). -/
def Scope.beyondCore : Scope → Bool
  | .team | .core => false
  | _ => true

/-! ### Completion flags (02 R42) -/

/-- The flag that an instruction's flag-select bit names in the running clause. -/
def Team.flagOf (t : Team) (fs : Bool) : Option Nat :=
  let f := if fs then t.clause.setb else t.clause.seta
  if f == 15 then none else some f

def Team.flag (t : Team) (n : Nat) : Nat := (t.flags[n]?).getD 0

def Team.addFlag (t : Team) : Option Nat → Team
  | some n => { t with flags := t.flags.set n (t.flag n + 1) }
  | none => t

def Team.dropFlag (t : Team) : Option Nat → Team
  | some n => { t with flags := t.flags.set n (t.flag n - 1) }
  | none => t

/-- Whether issue stalls because the flag would pass 63. A replayed instruction has counted its flag. -/
def Team.flagFull (t : Team) (fs : Bool) : Bool :=
  match t.flagOf fs with
  | some n => t.unfin.isNone && 63 ≤ t.flag n
  | none => false

/-- Counts the flag of a long-latency instruction at its first issue. -/
def Team.issueFlag (t : Team) (fs : Bool) : Team := if t.unfin.isNone then t.addFlag (t.flagOf fs) else t

/-! ### Operations -/

/-- The operation of an instruction, as it starts. -/
def newOp (s : State) (t : Team) (i : Instr) (fs : Bool) (kind : OpKind) : Op :=
  { id := s.nextOp, uid := t.uid, ctx := t.ctx, grid := t.grid, die := t.place.die, core := t.place.core,
    flag := t.flagOf fs, block := (t.flagOf fs).isNone, opc := instrOpc i, ipc := t.pc, kind, unif := inNib i }

def State.addOp (s : State) (o : Op) : State := { s with ops := s.ops ++ [o], nextOp := s.nextOp + 1 }

/-- Starts an operation and ends the instruction's issue: the team goes on behind it. -/
def issueOp (s : State) (t : Team) (i : Instr) (fs : Bool) (kind : OpKind) : State :=
  (s.addOp (newOp s t i fs kind)).setTeam ((t.issueFlag fs).advance i)

/-- As `issueOp`, with the team waiting for the operation: a remote load or atomic (08 R215, 10 R256). -/
def issueRemote (s : State) (t : Team) (i : Instr) (fs : Bool) (kind : OpKind) : State :=
  (s.addOp (newOp s t i fs kind)).setTeam
    { ((t.issueFlag fs).advance i) with status := .waiting (.remote s.nextOp) }

/-- Every lane has made an acquire: a fence, a barrier's wait, a grant, the end of an engine command (09 R243, R245). -/
def Team.acquireAll (t : Team) : Team := { t with acquired := Mask.ofLanes (List.range t.nlanes) }

/-- What is kept of a team that has left goes with its last outstanding operation, unless a fault of it is still to be raised
(13 R336). -/
def State.dropGhosts (s : State) : State :=
  if s.ghosts.isEmpty then s
  else { s with ghosts := s.ghosts.filter fun t => !t.efaults.isEmpty || s.ops.any (·.uid == t.uid) }

/-- An operation ends: it leaves the list, its flag falls, and a team that waited for it alone goes on. -/
def completeOp (s : State) (o : Op) : State :=
  ((s.dropOp o.id).updTeam o.uid fun t =>
    { (t.dropFlag o.flag) with
      status := if t.status == .waiting (.remote o.id) then .running else t.status }).dropGhosts

/-- An ended command drops its engine copies of tiles (11 R306); the halves of a split tile each hold one. -/
def engineDrop (s : State) (op : Nat) : State :=
  let drop (u : Tile) : Tile :=
    if u.engines.contains op then
      { u with refs := u.refs - u.engines.count op, engines := u.engines.filter (· != op) }
    else u
  { s with tiles := { s.tiles with tiles := s.tiles.tiles.map drop } }

/-- A task's state as its status shows it when it ends (12 R317). -/
def endTask (s : State) (o : Op) (st : TaskState) (code : BitVec 8) : State :=
  let done (x : Task) : Task :=
    if x.order == o.id && !x.freed then
      { x with st, fcode := code, freed := true, merges := [], time := if x.st == .running then lo32 (s.clk - x.start) else 0 }
    else x
  { s with mat := { s.mat with tasks := s.mat.tasks.map done } }

/-- An engine command's operation ends: the fall of its flag is an acquire of its team (09 R245). -/
def completeAcq (s : State) (o : Op) : State := completeOp (s.updTeam o.uid Team.acquireAll) o

/-- An engine command ends: its copies, the storage it used and its waits are over. -/
def endCommand (s : State) (o : Op) : State :=
  let s := engineDrop s o.id
  completeAcq
    { s with
      uses := s.uses.filter (·.op != o.id)
      eparks := s.eparks.filter (·.1 != o.id)
      fill := { s.fill with
        items := s.fill.items.map fun i => { i with cmds := i.cmds.filter (· != o.id) }
        blocks := s.fill.blocks.map fun b => { b with readers := b.readers.filter (· != o.id) } } } o

/-- The hit records of a ray batch that faults are undefined (15 R410). -/
def spoilHits (s : State) (o : Op) : State :=
  match s.vis.batches.find? (·.op == o.id) with
  | some b => s.updTeam o.uid fun t => { t with
      scratch := t.scratch.writeCells ((List.range (32 * b.n)).map fun k => (b.hits + k, Config.freeByte s.ticks k)) }
  | none => s

/-- A ray batch is over. -/
def dropBatch (s : State) (op : Nat) : State :=
  { s with vis := { s.vis with batches := s.vis.batches.filter (·.op != op), left := s.vis.left.filter (·.2.1 != op) } }

/-- An engine command ends FAULTED or ABORTED: its fault waits in the team for a wait on its flag (13 R336). A task shows
it in its status (12 R312) and raises nothing. -/
def faultOp (s : State) (o : Op) (f : FaultInfo) : State :=
  match o.kind with
  | .task .. => endCommand (endTask s o .faulted f.code) o
  | _ =>
    endCommand ((dropBatch (spoilHits s o) o.id).updTeam o.uid fun t =>
      { t with
        efaults := t.efaults ++ [{ flag := o.flag, info := { f with opc := o.opc, ipc := o.ipc, lanes := o.names }, seq := o.id }] }) o

/-- A long-latency instruction: it stalls while its flag is full (R42). -/
def longOp (s : State) (fs : Bool) (f : Team → Out) : Out :=
  onTeam s fun t => if t.flagFull fs then waitHere s t .stall else f t

/-- The team has issued an engine command, an atomic or a barrier (08 R228). -/
def Team.spent (t : Team) : Team := { t with noRelaunch := true }

/-- Whether an outstanding operation of the team still owes it a register (03 R91, R94, 02 R43). -/
def owesRegister : OpKind → Bool
  | .load w _ | .atomic w _ | .sclook w | .take w => w.d != .none
  | .hmap d _ | .mwld _ d _ => d != .none
  | _ => false

def State.regPending (s : State) (t : Team) : Bool := s.ops.any fun o => o.uid == t.uid && owesRegister o.kind

/-! ### Stores (09 R232) -/

/-- Cells that an outstanding operation has yet to write. -/
def OpKind.cells : OpKind → List Cell
  | .store cs _ _ => cs
  | _ => []

def OpKind.isStore : OpKind → Bool
  | .store .. => true
  | _ => false

def OpKind.isRel : OpKind → Bool
  | .store _ _ rel => rel
  | _ => false

/-- The pending stores of a core in order of issue. -/
def State.queue (s : State) (die core : Nat) : List Op :=
  s.ops.filter fun o => o.die == die && o.core == core && o.kind.isStore

def State.queueCells (s : State) (die core : Nat) : List Cell :=
  ((s.queue die core).map fun o => o.kind.cells).flatten

/-- A byte as memory holds it once a core's pending stores are performed. -/
def State.coreByte (s : State) (die core a : Nat) : Byte :=
  match cellLookup (s.queueCells die core) a with
  | some b => b
  | none => s.mem.read a

/-- Lines whose every byte a list of cells writes. -/
def fullLines (cs : List Cell) (lines : List Nat) : List Nat :=
  lines.filter fun l => (List.range 128).all fun i => cs.any fun c => c.1 == 128 * l + i

/-- The fault queues with their header addresses (16 R422). -/
def State.faultQueues (s : State) : List (QueueId × Nat) :=
  (s.ctxs.map fun c => (QueueId.ctx c.id, c.fq.header)) ++ s.vmqs.map fun e => (QueueId.vm e.1, e.2.header)

/-- The answers that a write gives: it covers the eight bytes of ANSWER of a queue's header (16 R424). -/
def answersOf (s : State) (cs : List Cell) : List (QueueId × DWord) :=
  s.faultQueues.filterMap fun q =>
    let bs := (List.range 8).map fun i => cellLookup cs (q.2 + 24 + i)
    if q.2 != 0 && bs.all Option.isSome then some (q.1, BitVec.ofNat 64 (leNat (bs.map (·.getD 0)))) else none

/-- Performs a write: memory, the dirty chunks, answers to fault records, and the poison of lines written whole
(08 R229). -/
def State.writeMem (s : State) (cs : List Cell) : State :=
  { s with
    answers := s.answers ++ answersOf s cs
    mem := s.mem.writeCells cs
    mig := { s.mig with dirty := addDirty s.mig.dirty cs }
    poison := if s.poison.isEmpty then [] else let f := fullLines cs s.poison; s.poison.filter fun l => !f.contains l }

/-- Performs the pending cells of a core that a test selects, and takes them from the queue. -/
def State.performSel (s : State) (die core : Nat) (sel : Op → Cell → Bool) : State :=
  let cs := ((s.queue die core).map fun o => o.kind.cells.filter (sel o)).flatten
  if cs.isEmpty then s
  else
    { (s.writeMem cs) with
      ops := s.ops.map fun o =>
        if o.die == die && o.core == core then
          match o.kind with
          | .store k r rel => { o with kind := .store (k.filter fun c => !sel o c) r rel }
          | _ => o
        else o }

/-- Whether a byte lies in the aligned eight bytes of one of a list: the bytes of an aligned access of up to eight bytes are
performed together (08 R198). -/
def sharesUnit (as : List Nat) (a : Nat) : Bool := as.any fun b => b / 8 == a / 8

/-- Performs the pending stores of a core to the aligned eight bytes that hold the given bytes, among those of operations up to
`last`; a release among them is performed with everything before it (09 R239). -/
def State.performBytes (s : State) (die core last : Nat) (as : List Nat) : State :=
  let rels := (s.queue die core).filter fun o =>
    decide (o.id ≤ last) && o.kind.isRel && o.kind.cells.any fun c => sharesUnit as c.1
  let s := match rels.getLast? with
    | some r => s.performSel die core fun o _ => o.id ≤ r.id
    | none => s
  s.performSel die core fun o c => decide (o.id ≤ last) && sharesUnit as c.1

/-- Performs at once the pending stores of a core to the given bytes. -/
def State.drainBytes (s : State) (die core : Nat) (as : List Nat) : State := s.performBytes die core s.nextOp as

/-- Performs every pending store of a core. -/
def State.drainCore (s : State) (die core : Nat) : State := s.performSel die core fun _ _ => true

/-- The store records that wait in a pending line of L2, in order (08 R208); a release keeps its own order (09 R239). -/
def State.recordsOf (s : State) (line : Nat) : List Op :=
  ((s.caches.l2.filter (·.line == line)).map fun x => x.pending.filterMap fun w =>
    if w.kind == 2 then (s.op? w.op).filter fun o => o.kind.isStore && !o.kind.isRel else none).flatten

/-- A byte as its home answers a request that arrives now: behind the store records of a pending line (08 R208). -/
def State.homeByte (s : State) (a : Nat) : Byte :=
  (cellLookup ((s.recordsOf (lineOf a)).map fun o => o.kind.cells).flatten a).getD (s.mem.read a)

/-- A byte as a core's access finds it: the latest pending store of the core, else what its home answers. -/
def State.viewByte (s : State) (die core a : Nat) : Byte :=
  match cellLookup (s.queueCells die core) a with
  | some b => b
  | none => s.homeByte a

/-- Applies the store records to the given bytes that a write of them comes behind (08 R208). -/
def State.settle (s : State) (as : List Nat) : State :=
  ((((as.map lineOf).eraseDups).map s.recordsOf).flatten).foldl (fun s o => s.performBytes o.die o.core o.id as) s

/-- Cells of consecutive bytes. -/
def cellsAt (a : Nat) (bs : List Byte) : List Cell := bs.mapIdx fun i b => (a + i, b)

/-! ### Waits that need no event of their own -/

/-- Operations of a team that hold the next clause (02 R42). -/
def State.blocked (s : State) (t : Team) : Bool := s.ops.any fun o => o.uid == t.uid && o.block

/-- Whether a flag wait of a clause header or `waitf` is met (02 R41, 10 R273). -/
def Team.flagsClear (t : Team) (any : Bool) (m : BitVec 12) : Bool :=
  let ns := (List.range 12).filter (m.getLsbD ·)
  if any then ns.any fun n => t.flag n == 0 else ns.all fun n => t.flag n == 0

/-- Stores of a team that are not performed. -/
def State.storesOut (s : State) (uid : Nat) : Bool :=
  s.ops.any fun o => o.uid == uid && (match o.kind with
    | .store .. | .atomic .. | .sig .. => true
    | _ => false)

/-- Every access of a team is performed: its loads, stores and atomics have ended. -/
def State.accessesOut (s : State) (uid : Nat) : Bool :=
  s.ops.any fun o => o.uid == uid && (match o.kind with
    | .load .. | .store .. | .atomic .. => true
    | _ => false)

/-- Engine commands of a team that have not ended. -/
def OpKind.isEngine : OpKind → Bool
  | .task .. | .taskWait .. | .mwld .. | .macz .. | .wsld .. | .copy .. | .coll .. | .gbar .. | .rays .. | .rprog .. | .visJob .. => true
  | _ => false

def State.enginesOut (s : State) (uid : Nat) : Bool := s.ops.any fun o => o.uid == uid && o.kind.isEngine

end Sys2Proof.Machine
end

