-- ==== Sys2Proof/Machine/TileOps.lean ====
section
/-! DEFINITION. Buffers, boxes and the tile directory (11 R280 to R291): what contains a byte, what overlaps, and how
tenure changes. -/

namespace Sys2Proof.Machine

/-! ### Shapes and boxes (11 R281 to R284) -/

def Shape.elemBytes (sh : Shape) : Nat := 2 ^ sh.esize

/-- The largest offset of an element plus its size. -/
def Shape.footprint (sh : Shape) : Nat :=
  ((sh.ext.zip sh.stride).map fun d => (d.1 - 1) * d.2).sum + sh.elemBytes

/-- A dimension of a box: first coordinate, number of coordinates, stride. -/
structure Dim where
  lo : Nat
  sz : Nat
  st : Nat
  deriving DecidableEq, Repr

/-- Largest reach of the remaining dimensions above their first element. -/
def dimsSpan (ds : List Dim) : Nat := (ds.map fun d => (d.sz - 1) * d.st).sum

/-- Whether some element of a box, taken relative to its first, starts within `w` bytes below offset `x`. -/
def reaches (w : Nat) : List Dim → Nat → Bool
  | [], x => x < w
  | d :: ds, x =>
    if d.st == 0 then reaches w ds x
    else
      -- the coordinates whose remainder the other dimensions can still cover
      let top := Nat.min (d.sz - 1) (x / d.st)
      let low := (x + 1 - (dimsSpan ds + w) + (d.st - 1)) / d.st
      (List.range (top + 1 - low)).any fun k => reaches w ds (x - (low + k) * d.st)

/-- Inserts a dimension by descending stride. -/
def insertDim (d : Dim) : List Dim → List Dim
  | [] => [d]
  | e :: r => if e.st < d.st then d :: e :: r else e :: insertDim d r

/-- Whether a box of a shape contains the byte at an offset. -/
def boxHas (sh : Shape) (lo sz : List Nat) (off : Nat) : Bool :=
  let ds := ((lo.zip sz).zip sh.stride).foldr (fun d r => insertDim ⟨d.1.1, d.1.2, d.2⟩ r) []
  let first := (ds.map fun d => d.lo * d.st).sum
  first ≤ off && reaches sh.elemBytes ds (off - first)

/-- Boxes overlap when each starts below the other's end in every dimension (R284). -/
def boxesMeet (lo sz lo' sz' : List Nat) : Bool :=
  ((lo.zip sz).zip (lo'.zip sz')).all fun p => p.1.1 < p.2.1 + p.2.2 && p.2.1 < p.1.1 + p.1.2

def Tile.overlaps (a b : Tile) : Bool := a.ctx == b.ctx && a.buf == b.buf && boxesMeet a.lo a.sz b.lo b.sz

/-! ### Lookups -/

def Tiles.buf? (x : Tiles) (ctx : Word) (no : Nat) : Option Buf := x.bufs.find? fun b => b.ctx == ctx && b.no == no

/-- The tile that a handle word names (R283). -/
def Tiles.named (x : Tiles) (ctx word : Word) : Option Tile :=
  x.tiles.find? fun t =>
    t.live && t.ctx == ctx && t.ix == natField word.toNat 0 20 && t.gen == BitVec.ofNat 12 (word.toNat / 2 ^ 20)

def Tiles.at? (x : Tiles) (ctx : Word) (ix : Nat) : Option Tile :=
  x.tiles.find? fun t => t.live && t.ctx == ctx && t.ix == ix

def Tile.word (t : Tile) : Word := t.gen ++ BitVec.ofNat 20 t.ix

def State.setTiles (s : State) (f : Tile → Tile) : State :=
  { s with tiles := { s.tiles with tiles := s.tiles.tiles.map f } }

def Tile.same (a b : Tile) : Bool := a.ctx == b.ctx && a.ix == b.ix

def State.updTile (s : State) (t : Tile) (f : Tile → Tile) : State :=
  s.setTiles fun u => if u.same t && u.live then f u else u

/-- A team as the directory names it. -/
def Team.who (t : Team) : Word × Word := (t.grid, t.teamNo)

def State.tileNow (s : State) (t : Tile) : Tile := ((s.tiles.tiles.find? fun u => u.live && u.same t)).getD t

/-- Whether the directory cannot evict a tile's entry (R286). -/
def Tile.kept (x : Tile) : Bool := x.st == .opened || 0 < x.refs || !x.waiters.isEmpty

/-- Takes waiters from a tile; no read is held for a write that no longer waits (R301). -/
def Tile.keepWaiters (x : Tile) (p : TileWait → Bool) : Tile :=
  let ws := x.waiters.filter p
  { x with waiters := ws, hold := x.hold && ws.any (·.write) }

/-- The declared buffer of a BUFFER handle in a context. -/
def State.bufOf (s : State) (ctx : Word) (no : Nat) : Option Buf := s.tiles.buf? ctx no

/-! ### The lines of a tile -/

/-- Offsets of a tile's first byte and of the byte behind its last. -/
def Tile.span (sh : Shape) (x : Tile) : Nat × Nat :=
  let first := ((x.lo.zip sh.stride).map fun d => d.1 * d.2).sum
  (first, first + ((x.sz.zip sh.stride).map fun d => (d.1 - 1) * d.2).sum + sh.elemBytes)

/-- The physical lines of a tile that its context's tables map, of those virtual lines that `keep` selects. -/
def linesWhere (s : State) (c : Ctx) (x : Tile) (keep : Nat → Bool) : List Nat :=
  match s.bufOf x.ctx x.buf with
  | none => []
  | some b =>
    let (lo, hi) := x.span b.shape
    let base := b.base.toNat
    let first := (base + lo) / 128
    (((List.range ((base + hi - 1) / 128 + 1 - first)).filter fun k => keep (first + k)).filterMap fun k =>
      let a := Nat.max (base + lo) (128 * (first + k))
      let n := Nat.min (base + hi) (128 * (first + k + 1)) - a
      if (List.range n).any fun i => boxHas b.shape x.lo x.sz (a - base + i) then
        match walk .plain (.of s.mem) c (BitVec.ofNat 64 a) .read with
        | .ok o => some (lineOf o.pa)
        | .error _ => none
      else none).eraseDups

/-- The physical lines of a tile that its context's tables map. -/
def tileLines (s : State) (c : Ctx) (x : Tile) : List Nat := linesWhere s c x fun _ => true

/-- The physical lines of a tile. -/
def State.linesOf (s : State) (x : Tile) : List Nat :=
  match s.ctx? x.ctx with
  | some c => tileLines s c x
  | none => []

/-- Whether a tile has a byte in a physical line: a page of 32 KiB or more keeps a line's place among 256 (01 R25). -/
def tileHas (s : State) (x : Tile) (line : Nat) : Bool :=
  match s.ctx? x.ctx with
  | some c => (linesWhere s c x fun v => v % 256 == line % 256).contains line
  | none => false

/-- Whether a line holds bytes of a SEALED tile: other dies hold it as read-only copies (R291). -/
def State.sealedLine (s : State) (line : Nat) : Bool :=
  s.tiles.tiles.any fun x => x.live && x.st == .sealed && tileHas s x line

/-- A die whose L2 takes in a line is in the presence masks of the tiles that have bytes in it (R285). -/
def State.enterPresence (s : State) (dies : List Nat) (line : Nat) : State :=
  s.setTiles fun u =>
    let new := dies.filter (!u.presence.contains ·)
    if u.live && u.dir && !new.isEmpty && tileHas s u line then { u with presence := new ++ u.presence } else u

/-! ### Scalar access (R288) -/

inductive TileGate where
  | go
  | wait (ix : Nat)
  | sealed
  deriving DecidableEq, Repr

/-- The first state that applies to one byte. -/
def byteGate (s : State) (t : Team) (b : Buf) (off : Nat) (write : Bool) : TileGate :=
  let ts := s.tiles.tiles.filter fun x =>
    x.live && x.ctx == b.ctx && x.buf == b.no && x.st != .idle && boxHas b.shape x.lo x.sz off
  let mine (x : Tile) : Bool := x.holder == some t.who
  match ts.find? fun x => x.st == .opened && !mine x with
  | some x => .wait x.ix
  | none =>
    if write && ts.any fun x => x.st == .sealed || (mine x && x.sealing) then .sealed else .go

/-- The gate of an access of n bytes; a seal comes before a wait, as a check of 08 R195 does. -/
def tileGate (s : State) (t : Team) (b : Buf) (off n : Nat) (write : Bool) : TileGate :=
  let gs := (List.range n).map fun i => byteGate s t b (off + i) write
  if gs.contains .sealed then .sealed else (gs.find? fun g => g != .go).getD .go

/-! ### Who holds lines of a tile (R285) -/

/-- The home of a tile: its buffer's. -/
def State.tileHome (s : State) (x : Tile) : Nat := ((s.bufOf x.ctx x.buf).map (·.home)).getD (4 * s.boot.pkg)

/-- The dies of a requester; another package stands by its four. -/
def reqDies : Requester → List Nat
  | .core d _ | .slice d _ => [d]
  | .remotePkg p => (List.range 4).map (4 * p + ·)
  | .host => []

/-- The dies whose L2 holds lines of a tile. -/
def State.holderDies (s : State) (x : Tile) : List Nat :=
  let home := s.tileHome x
  ((s.linesOf x).flatMap fun l =>
    (s.coh.dir.filter (·.line == l)).flatMap (fun d => (d.owner.toList ++ d.sharers).flatMap reqDies) ++
      (if s.caches.l2.any fun y => y.die == home && y.line == l then [home] else [])).eraseDups

/-! ### Tenure (R287) -/

def State.overlapping (s : State) (t : Tile) : List Tile := s.tiles.tiles.filter fun u => u.live && u.overlaps t

/-- Copies that teams hold of a tile. -/
def Tile.teamCopies (t : Tile) : Nat := (t.copies.map (·.2)).sum

def Tile.copiesOf (t : Tile) (w : Word × Word) : Nat := ((t.copies.find? (·.1 == w)).map (·.2)).getD 0

def Tile.addCopy (t : Tile) (w : Word × Word) : Tile :=
  { t with
    refs := t.refs + 1
    copies := if t.copies.any (·.1 == w) then t.copies.map fun c => if c.1 == w then (w, c.2 + 1) else c
      else t.copies ++ [(w, 1)] }

/-- Drops one copy of a holder; nothing for a team that holds none. -/
def Tile.dropCopy (t : Tile) (w : Word × Word) : Tile :=
  if t.copiesOf w == 0 then t
  else
    { t with
      refs := t.refs - 1
      copies := (t.copies.map fun c => if c.1 == w then (w, c.2 - 1) else c).filter fun c => c.2 != 0 }

/-- Drops every copy that teams hold. -/
def Tile.recalled (t : Tile) : Tile := { t with refs := t.refs - t.teamCopies, copies := [] }

/-- Whether a waiting topen.w has waited more than 10,000 cycles (R301). -/
def Tile.starved (t : Tile) (clk : DWord) : Bool := t.waiters.any fun w => w.write && 10000 < (clk - w.since).toNat

/-- Whether an earlier write request of another team waits on the tile (R301). -/
def Tile.behind (t : Tile) (uid : Nat) : Bool :=
  match t.waiters.find? (·.write) with
  | some w => w.uid != uid
  | none => false

/-- Whether an overlapping tile is OPEN by another team than `who`: every request waits (R287). -/
def State.openElse (s : State) (who : Word × Word) (x : Tile) : Bool :=
  (s.overlapping x).any fun u => u.st == .opened && u.holder != some who

/-- Whether a request of a team on a tile that no other team has open may be granted (R287, R301); a recall has already
dropped the copies of teams. -/
def mayOpen (s : State) (t : Team) (x : Tile) (write : Bool) : Bool :=
  if write then !((s.overlapping x).any fun u => u.st == .sealed && 0 < u.refs) && !x.behind t.uid
  else !(x.refs == 65535 || (x.copies.length == 255 && x.copiesOf t.who == 0) || x.hold || x.starved s.clk)

/-- A tile granted to a team (R287). -/
def openTile (s : State) (t : Team) (x : Tile) (write : Bool) : State :=
  if write then
    let s := s.setTiles fun u =>
      if u.live && u.overlaps x && !u.same x && u.st == .sealed then { u with st := .idle, owner := none, seals := u.seals + 1 } else u
    let dies := s.holderDies x
    s.updTile x fun u =>
      { u with
        st := .opened, holder := some t.who, owner := none, refs := 0, copies := [], seals := u.seals + 1
        hold := false, presence := u.presence.filter (dies.contains ·) }
  else
    s.updTile x fun u =>
      let u := if u.st == .idle then { u with st := .sealed, owner := none, refs := 0, copies := [] } else u
      u.addCopy t.who

/-- The end of an OPEN tenure as `tseal` ends it (R287): engine copies stay counted, the holder's die owns the data. -/
def Tile.seal (t : Tile) (die : Nat) : Tile :=
  { t with st := .sealed, holder := none, owner := some die, seals := t.seals + 1, sealing := false }

/-- The end of a tenure without a seal. -/
def Tile.toIdle (t : Tile) : Tile := { t with st := .idle, holder := none, owner := none, sealing := false }

/-- Frees a tile's index: its generation advances (R283). -/
def Tile.retire (t : Tile) : Tile :=
  { t with
    live := false, gen := t.gen + 1, st := .idle, holder := none, refs := 0, copies := [], engines := [], owner := none,
    presence := [], waiters := [], hold := false, sealing := false, dir := false, probed := [], leaving := false }

/-- The tile indices of a context that are free: retired ones keep their generation. -/
def Tiles.freeSlot (x : Tiles) (ctx : Word) (pick : Nat) : Option (Nat × BitVec 12) :=
  let mine := x.tiles.filter (·.ctx == ctx)
  let dead := mine.filter fun t => !t.live
  match dead[pick % (dead.length + 1)]? with
  | some t => some (t.ix, t.gen)
  | none => if mine.length < 2 ^ 20 then some (mine.length, 0) else (dead.head?).map fun t => (t.ix, t.gen)

/-- Puts a new tile in place of a retired one of its index. -/
def State.putTile (s : State) (t : Tile) : State :=
  { s with tiles := { s.tiles with tiles := (s.tiles.tiles.filter fun u => !u.same t) ++ [t] } }

/-- A killed team drops its copies and waits, and each tile that it held OPEN becomes IDLE; no seal or drop of it is under way
any more (R290). -/
def killTiles (s : State) (t : Team) : State :=
  let tile (k : OpKind) : Bool := match k with
    | .tileOp .. => true
    | _ => false
  let s := { s with ops := s.ops.filter fun o => !(o.uid == t.uid && tile o.kind) }
  s.setTiles fun u =>
    if !u.live then u
    else
      let u := if u.st == .opened && u.holder == some t.who then u.toIdle else u
      { (u.keepWaiters (·.uid != t.uid)) with
        refs := u.refs - u.copiesOf t.who, copies := u.copies.filter fun c => c.1 != t.who }

/-- A tile operation that a team owes as it retires: it counts in the grid's outstanding work (R290). -/
def owedTileOp (s : State) (t : Team) (word : Word) (what : Nat) : State :=
  s.addOp { id := s.nextOp, uid := t.uid, ctx := t.ctx, grid := t.grid, die := t.place.die, core := t.place.core, flag := none,
            block := false, opc := 0, ipc := t.pc, kind := .tileOp word what }

/-- A team that retires ends its OPEN tenures as `tseal` would and drops every copy that it still holds (R290). -/
def retireTiles (s : State) (t : Team) : State :=
  let s := s.setTiles fun u => if u.live then u.keepWaiters (·.uid != t.uid) else u
  s.tiles.tiles.foldl (fun s u =>
    if !u.live || u.ctx != t.ctx then s
    else if u.st == .opened && u.holder == some t.who && !u.sealing then
      owedTileOp (s.updTile u fun u => { u with sealing := true }) t u.word 1
    else (List.range (u.copiesOf t.who)).foldl (fun s _ => owedTileOp s t u.word 2) s) s

/-! ### Tasks that write a tile (12 R309, R311) -/

/-- The record as a number of 512 bits. -/
def recNat : List Word → Nat
  | [] => 0
  | w :: r => w.toNat + 2 ^ 32 * recNat r

def Task.f (x : Task) (lo w : Nat) : Nat := natField (recNat x.fields) lo w
def Task.tileC (x : Task) : Word := BitVec.ofNat 32 (x.f 128 32)

/-- Whether a task of a team that writes a tile has not ended: the tile's tenure goes on. -/
def State.writersOut (s : State) (uid : Nat) (word : Word) : Bool :=
  s.mat.tasks.any fun x => x.uid == uid && !x.freed && x.tileC == word

/-! ### Grants of a home (11 R294) -/

def State.updCoh (s : State) (f : Coh → Coh) : State := { s with coh := f s.coh }

def State.seqOf (s : State) (home : Nat) (who : Requester) : SeqState :=
  (s.coh.seqs.find? fun x => x.home == home && x.who == who).getD ⟨home, who, 0, 0, 0⟩

def State.updSeq (s : State) (home : Nat) (who : Requester) (f : SeqState → SeqState) : State :=
  let x := f (s.seqOf home who)
  s.updCoh fun c => { c with seqs := x :: c.seqs.filter fun y => !(y.home == home && y.who == who) }

/-- Whether a home may send a further grant: at most eight stand unacknowledged. -/
def State.mayGrant (s : State) (home : Nat) (who : Requester) : Bool := (s.seqOf home who).unacked < 8

/-- The home counts a grant or a data reply to a requester. -/
def State.countGrant (s : State) (home : Nat) (who : Requester) : State :=
  s.updSeq home who fun x => { x with sent := x.sent + 1, unacked := x.unacked + 1 }

/-- Puts a message on its way. -/
def State.send (s : State) (m : Instr) : State := { s with coh := { s.coh with net := s.coh.net ++ [m] } }

/-- A tile grant of a home to a team's core: its `line` names the team, and `excl` says that the team waits for it (R293,
R294). -/
def State.tileGrant (s : State) (x : Tile) (die core uid : Nat) (waits : Bool) : State :=
  let (home, who) := (s.tileHome x, Requester.core die core)
  let s := s.countGrant home who
  s.send (.grant ⟨home, who, uid, (s.seqOf home who).sent, 0, who, false, waits⟩)

/-- The name by which a refusal of a team's request to a tile's home finds the team. -/
def tileName (uid : Nat) : Nat := 2 ^ 61 + uid

/-- Whether a message between a team and the home of a tile is on its way. -/
def State.tileMail (s : State) (uid : Nat) : Bool :=
  s.coh.net.any fun i => match i with
    | .tileOpenReq m _ _ => m.uid == uid
    | .splitReq m _ _ => m.uid == uid
    | .freeReq m => m.uid == uid
    | .nackRetry op => op == tileName uid
    | .grant m => (match m.peer with
      | .core .. => m.line == uid && m.excl
      | _ => false)
    | _ => false

/-! ### Lines held off their home's die (R292) -/

/-- How a requester holds a line. -/
def State.heldLine (s : State) (who : Requester) (line : Nat) : LineState :=
  ((s.coh.held.find? fun h => h.who == who && h.line == line).map (·.st)).getD .i

/-- How a requester holds a line from now on: an owner may change it, and memory itself keeps what it holds until the line comes
back (20 R520). -/
def State.setHeldLine (s : State) (who : Requester) (line : Nat) (st : LineState) : State :=
  let rest := s.coh.held.filter fun h => !(h.who == who && h.line == line)
  let keeps := (st == .e || st == .m) && !s.coh.behind.any (·.1 == line)
  s.updCoh fun c => { c with
    held := if st == .i then rest else ⟨who, line, st⟩ :: rest
    behind := if keeps then (line, s.mem.readBytes (line * 128) 128) :: c.behind else c.behind }

/-- Whether a holder owns the line. -/
def LineState.owns (st : LineState) : Bool := st == .e || st == .m || st == .o

/-- Whether a holder has data that memory lacks. -/
def LineState.dirty (st : LineState) : Bool := st == .m || st == .o

/-- The copies of a line in the L2 and L1 caches of dies go (08 R205). -/
def State.dropCopies (s : State) (dies : List Nat) (line : Nat) : State :=
  { s with caches := { s.caches with
    l2 := s.caches.l2.filter fun x => !(dies.contains x.die && x.line == line && x.pending.isEmpty && !x.pinned)
    l1 := s.caches.l1.filter fun x => !(dies.contains x.die && x.line == line) } }

/-- A holder gives a line up, with the copies of its dies. -/
def State.giveUp (s : State) (who : Requester) (line : Nat) : State := (s.setHeldLine who line .i).dropCopies (reqDies who) line

/-- The entry of a line in its home's directory. -/
def State.lineDir (s : State) (home line : Nat) : LineDir :=
  (s.coh.dir.find? fun d => d.home == home && d.line == line).getD ⟨home, line, .i, none, [], []⟩

/-- An entry that nobody holds or is asked about is freed; what memory holds of a line without an owner is the line. -/
def State.setLineDir (s : State) (d : LineDir) : State :=
  let rest := s.coh.dir.filter fun x => !(x.home == d.home && x.line == d.line)
  let gone := d.owner.isNone && d.sharers.isEmpty && d.await.isEmpty
  s.updCoh fun c => { c with
    dir := if gone then rest else d :: rest
    behind := if d.owner.isNone then c.behind.filter (·.1 != d.line) else c.behind }

/-- Whether a requester is a die's own. -/
def ofDie (die : Nat) : Requester → Bool
  | .core d _ => d == die
  | .slice d _ => d == die
  | .remotePkg p => p == die / 4
  | .host => false

/-- A probe of a home to a holder, with the latest sequence that the home has sent there (R294). -/
def probeOf (m : LineMsg) (s : State) (who : Requester) : LineMsg :=
  { m with peer := who, seq := (s.seqOf m.home who).sent, dirty := false, excl := false }

/-- Sends BackInv to some holders and Inv to others, and awaits their acknowledgements. -/
def probeHolders (s : State) (d : LineDir) (back inv : List Requester) : State :=
  let m (w : Requester) : LineMsg := probeOf ⟨d.home, w, d.line, 0, 0, w, false, false⟩ s w
  let s := back.foldl (fun s w => s.send (.backInv (m w))) s
  let s := inv.foldl (fun s w => s.send (.inv (m w))) s
  s.setLineDir { d with await := d.await ++ back ++ inv }

/-- Whether none of the holders of a line that `who` names is left (`own` for its owner); else they are probed: the owner by
BackInv, the sharers by Inv, or by BackInv too (`back`). -/
def clearLine (s : State) (back : Bool) (who : Bool → Requester → Bool) (line : Nat) : Bool × State :=
  match homeOf s (line * 128) with
  | .hbm home | .cxl home _ =>
    let d := s.lineDir home line
    let (os, ss) := (d.owner.toList.filter (who true), d.sharers.filter (who false))
    if !d.await.isEmpty then (false, s)
    else if os.isEmpty && ss.isEmpty then (true, s)
    else (false, if back then probeHolders s d (os ++ ss) [] else probeHolders s d os ss)
  | .host => (true, s)

/-- The same for lines of a list: whether every one is clear. -/
def clearLines (s : State) (back : Bool) (who : Bool → Requester → Bool) (ls : List Nat) : Bool × State :=
  ls.foldl (fun x l => let (ok, s) := clearLine x.2 back who l; (x.1 && ok, s)) (true, s)

/-! ### The directory of a home (R286) -/

/-- The set of a tile's entry (DESIGN CHOICE, log entry 21). -/
def Tile.set (x : Tile) : Nat := x.ix % 4096

/-- The entries of a tile's set. -/
def State.dirSet (s : State) (x : Tile) : List Tile :=
  s.tiles.tiles.filter fun u => u.live && u.dir && u.set == x.set && s.tileHome u == s.tileHome x

/-- The entry that leaves a set: the least recently used one that may. -/
def dirVictim (us : List Tile) : Option Tile :=
  (us.filter fun u => !u.kept).foldl (fun a u => match a with
    | some v => if u.used < v.used then some u else a
    | none => some u) none

/-- A tile whose entry has left the directory: its state stands in its record, with owner memory. -/
def Tile.evicted (x : Tile) : Tile := { x with dir := false, leaving := false, owner := none, presence := [], probed := [] }

/-- Whether a BackInv of a tile's lines to a die is not acknowledged. -/
def State.tileAwaits (s : State) (x : Tile) (die : Nat) : Bool :=
  (s.linesOf x).any fun l => s.coh.dir.any fun d => d.line == l && d.await.any (ofDie die)

/-- BackInv goes to every holder of a tile's lines on the dies of its presence mask, and the home's own copies go (R286, R287);
`probed` are the dies whose acknowledgements are awaited. -/
def probeTile (s : State) (x : Tile) (leaving : Bool) : State :=
  let ls := s.linesOf x
  let home := s.tileHome x
  let s := (clearLines s true (fun _ w => x.presence.any fun d => ofDie d w) ls).2
  let s := if x.presence.contains home then ls.foldl (fun s l => s.dropCopies [home] l) s else s
  let waits := x.presence.filter (s.tileAwaits x)
  s.updTile x fun u => { u with probed := waits, presence := [], leaving := u.leaving || leaving }

/-- Tiles whose BackInvs are acknowledged: one that was to leave the directory has left it (R286). -/
def State.settleTiles (s : State) : State :=
  s.setTiles fun u =>
    if !u.live || (u.probed.isEmpty && !u.leaving) then u
    else
      let u := { u with probed := u.probed.filter (s.tileAwaits u) }
      if u.leaving && u.probed.isEmpty then u.evicted else u

/-- Whether a tile's set holds 16 entries of which none may leave: requests are refused with NACK-retry. -/
def State.setFull (s : State) (x : Tile) : Bool := 16 ≤ (s.dirSet x).length && (s.dirSet x).all Tile.kept

/-- Asks for the records of tiles that are not resident, unless they are on their way. -/
def fetchTiles (s : State) (ctx : Word) (words : List Word) : State :=
  words.foldl (fun s w => match s.tiles.named ctx w with
    | some x =>
      let f := Instr.tileRecordFetch x.ctx x.ix
      if x.dir || s.coh.net.contains f then s else s.send f
    | none => s) s

/-- A tile's entry is taken into the directory with its presence mask, when its set has a way; else another leaves first. -/
def admitTile (s : State) (x : Tile) : State :=
  let enter (s : State) : State :=
    let dies := s.holderDies x
    s.updTile x fun u => { u with dir := true, used := s.ticks, presence := dies }
  let us := s.dirSet x
  if x.dir then s
  else if us.length < 16 then enter s
  else if us.any (·.leaving) then s
  else match dirVictim us with
    | none => s
    | some v =>
      let s := (probeTile s v true).settleTiles
      if (s.dirSet x).length < 16 then enter s else s

/-! ### Engine copies (R306) -/

/-- The lines of an IDLE tile are collected for its seal (R287): whether they are. -/
def collectTile (s : State) (x : Tile) : Bool × State :=
  if x.st == .idle then clearLines s false (fun own _ => own) (s.linesOf x) else (true, s)

/-- Whether an engine command of a team may take a copy of a tile, which is in the directory and whose lines are collected if it is
IDLE, and the state in which that is asked for. -/
def engineMay (s : State) (who : Word × Word) (x : Tile) : Bool × State :=
  if !x.dir then (false, fetchTiles s x.ctx [x.word])
  else if x.refs == 65535 || x.leaving || s.openElse who x then (false, s)
  else collectTile s x

/-- Operation `op` holds a copy of a tile; an IDLE tile is sealed. -/
def engineCopy (s : State) (x : Tile) (op : Nat) : State :=
  s.updTile x fun u =>
    match u.st with
    | .idle => { u with st := .sealed, owner := none, refs := 1, copies := [], engines := [op], used := s.ticks }
    | _ => { u with refs := u.refs + 1, engines := op :: u.engines, used := s.ticks }

/-- An engine command of a team takes its copies of tiles, or the state in which it waits for one of them. -/
def engineTake (s : State) (who : Word × Word) (xs : List Tile) (op : Nat) : Except State State :=
  let (may, s) := xs.foldl (fun r x => let (ok, s) := engineMay r.2 who x; (r.1 && ok, s)) (true, s)
  if may then .ok (xs.foldl (fun s x => engineCopy s x op) s) else .error s

end Sys2Proof.Machine
end

