-- ==== Sys2Proof/Machine/L2.lean ====
section
/-! DEFINITION. The L2 slices of the dies with their waiters (08 R207 to R210, 16 R452), ways pinned by the tag spill of the
Shading Cache (14 R371), and the L1 caches of the cores (08 R205). -/

namespace Sys2Proof.Machine

/-! ### L2 slices (R207 to R210, 16 R452) -/

/-- The slice of an address (R207). -/
def sliceOf (a : Nat) : Nat := (natField a 7 6) ^^^ (natField a 13 6) ^^^ (natField a 19 6)

/-- The set of a line within its slice (DESIGN CHOICE, log entry 20). -/
def l2Set (line : Nat) : Nat := line / 64 % 1024

def L2Line.near (x : L2Line) (die line : Nat) : Bool :=
  x.die == die && sliceOf (x.line * 128) == sliceOf (line * 128) && l2Set x.line == l2Set line

/-- Moves a line to a recency position of its set; lines between shift. -/
def l2Place (xs : List L2Line) (l : L2Line) (dst : Nat) : List L2Line :=
  let rest := xs.filter fun x => !(x.die == l.die && x.line == l.line)
  { l with pos := dst } :: rest.map fun x =>
    if x.near l.die l.line then
      if dst ≤ x.pos && x.pos < l.pos then { x with pos := x.pos + 1 }
      else if l.pos < x.pos && x.pos ≤ dst then { x with pos := x.pos - 1 } else x
    else x

/-- The recency position of a set's free way that is used next: the one nearest the eviction end. -/
def freeWay (xs : List L2Line) (die line : Nat) : Option Nat :=
  ((List.range 16).map (15 - ·)).find? fun p => !xs.any fun x => x.near die line && x.pos == p

/-- The position at which a class inserts a line. -/
def l2InsertPos (cls : BitVec 2) (stream : Bool) : Nat :=
  if stream then 15 else ([15, 8, 0, 0][cls.toNat]?).getD 15

/-- The line of a set that leaves for a miss of a class: from position 15 up among lines neither pending nor pinned; a
class-3 line stays while a miss of class 0 or 1 finds another. -/
def l2Victim (xs : List L2Line) (die line : Nat) (cls : BitVec 2) : Option L2Line :=
  let can := xs.filter fun x => x.near die line && x.pending.isEmpty && !x.pinned
  let low := if cls.toNat ≤ 1 then can.filter fun x => x.cls != 3 else can
  let last (ys : List L2Line) : Option L2Line := ys.foldl (fun a x => match a with
    | some y => if y.pos < x.pos then some x else a
    | none => some x) none
  (last low).orElse fun _ => last can

/-- Entries of a slice's store buffer (R208). -/
def storeBuffer : Nat := 32

/-- A record that joins a list of waiters: a store or an atomic takes an entry of the slice's store buffer; none if that is
full, and the request is refused as one that finds no record (DESIGN CHOICE, log entry 109). -/
def takeRecord (xs : List L2Line) (die line : Nat) (w : Waiter) : Option Waiter :=
  if w.kind != 2 && w.kind != 3 then some w
  else
    let slice := sliceOf (line * 128)
    let used := ((xs.filter fun x => x.die == die && sliceOf (x.line * 128) == slice).map fun x => x.pending.filterMap (·.sb)).flatten
    ((List.range storeBuffer).find? fun k => !used.contains k).map fun k => { w with sb := some k }

/-- A request for a line at its home slice; none is the NACK of R209. A prefetch waits for nothing. -/
def l2Ask (xs : List L2Line) (die line : Nat) (w : Option Waiter) (cls : BitVec 2) (stream : Bool) : Option (List L2Line) :=
  let join (go : List Waiter → List L2Line) : Option (List L2Line) :=
    match w with
    | none => some (go [])
    | some w => (takeRecord xs die line w).map fun w => go [w]
  match xs.find? fun x => x.die == die && x.line == line with
  | some x =>
    if x.pending.isEmpty then some (l2Place xs x (if cls == 0 then Nat.min x.pos 8 else 0))
    else if x.pending.length < 15 then
      join fun ws => xs.map fun y => if y.die == die && y.line == line then { y with pending := y.pending ++ ws } else y
    else none
  | none =>
    let fresh (pos : Nat) (ys : List L2Line) : Option (List L2Line) :=
      join fun ws => l2Place ys ⟨die, line, pos, false, ws, none, cls⟩ (l2InsertPos cls stream)
    match freeWay xs die line with
    | some pos => fresh pos xs
    | none => (l2Victim xs die line cls).bind fun v => fresh v.pos (xs.filter fun x => !(x.die == v.die && x.line == v.line))

/-- Whether a line is present and waits for its data. -/
def State.l2Pending (s : State) (die line : Nat) : Bool :=
  s.caches.l2.any fun x => x.die == die && x.line == line && !x.pending.isEmpty

/-- The requester that takes the next record of a pending line, or the next way of a set, before any other: the first that was
refused eight times in a row, while it is still refused (R209). -/
def State.starvedAt (s : State) (die line : Nat) : Option Nat :=
  let who := if s.l2Pending die line then
      (s.caches.l2.find? fun x => x.die == die && x.line == line).bind (·.starved)
    else (s.caches.starved.find? fun x =>
      x.die == die && x.slice == sliceOf (line * 128) && x.set == l2Set line).map (·.op)
  who.filter fun op => s.caches.nacks.any fun n => n.who.op == op && n.die == die &&
    (if s.l2Pending die line then n.line == line
     else sliceOf (n.line * 128) == sliceOf (line * 128) && l2Set n.line == l2Set line && !s.l2Pending die n.line)

/-- Enters a refused requester in the header of its pending line, or in the register of its set. -/
def State.noteStarved (s : State) (die line op : Nat) : State :=
  if (s.starvedAt die line).isSome then s
  else if s.l2Pending die line then
    { s with caches := { s.caches with
        l2 := s.caches.l2.map fun x => if x.die == die && x.line == line then { x with starved := some op } else x } }
  else
    let e : StarvedSet := ⟨die, sliceOf (line * 128), l2Set line, op⟩
    { s with caches := { s.caches with
        starved := e :: s.caches.starved.filter fun x => !(x.die == e.die && x.slice == e.slice && x.set == e.set) } }

/-- A request at its home slice, unless a starved one goes first. -/
def l2Try (s : State) (die line : Nat) (w : Option Waiter) (cls : BitVec 2) (stream : Bool) : Option (List L2Line) :=
  let hit := s.caches.l2.any fun x => x.die == die && x.line == line && x.pending.isEmpty
  match s.starvedAt die line with
  | some op => if hit || w.any (·.op == op) then l2Ask s.caches.l2 die line w cls stream else none
  | none => l2Ask s.caches.l2 die line w cls stream

/-- The home die of a line, in whose slice it is homed (R207, 01 R12); none for the host's. -/
def l2Home (s : State) (line : Nat) : Option Nat :=
  match homeOf s (line * 128) with
  | .hbm d | .cxl d _ => some d
  | .host => none

/-- The caching slice by which a die holds lines of another home, or its package for a home in another package. -/
def lineRequester (die home line : Nat) : Requester :=
  if die / 4 == home / 4 then .slice die (sliceOf (line * 128)) else .remotePkg (die / 4)

/-- A line leaves a die's L2: one that it owns off its home's die is written back (11 R292); that a clean one in E goes the same
way is the model's choice (DESIGN CHOICE, log entry 122). -/
def loseLine (s : State) (x : L2Line) : State :=
  match l2Home s x.line with
  | some home =>
    let who := lineRequester x.die home x.line
    let st := s.heldLine who x.line
    if x.die == home || st == .i then s
    else
      let s := s.setHeldLine who x.line .i
      if st.owns then s.send (.writeBack ⟨home, who, x.line, 0, 0, who, st.dirty, false⟩) else s
  | none => s

/-- The lines of L2 after a request: the L1 caches hold no line that has left (R205), and the data of a SEALED tile whose
owner a line has left is in memory (11 R291). -/
def State.setL2 (s : State) (xs : List L2Line) : State :=
  let gone := s.caches.l2.filter fun x => !xs.any fun y => y.die == x.die && y.line == x.line
  let s := if gone.isEmpty then s
    else gone.foldl loseLine (s.setTiles fun u =>
      if u.live && gone.any (fun x => u.owner == some x.die && tileHas s u x.line) then { u with owner := none } else u)
  { s with caches := { s.caches with
    l2 := xs, l1 := if gone.isEmpty then s.caches.l1 else s.caches.l1.filter fun x => !gone.any fun y => y.die == x.die && y.line == x.line } }

/-! ### A request to the slices of a line and to its home (11 R291, R292) -/

/-- What a die asks of the home of a line for an access, given how it holds the line (11 R292): none when a held copy
serves it. An access under tenure takes the line for itself (20 R518). -/
def lineAsk (st : LineState) (write own : Bool) (m : LineMsg) : Option Instr :=
  match st, write with
  | .i, false => some (if own then .readExclusive m else .readShared m)
  | .i, true => some (.readExclusive m)
  | .s, true => some (.upgrade m)
  | .o, true => some (.upgrade m)
  | _, _ => none

/-- What a core asks of a home whose slice itself serves it: something when an agent off the home's die holds the line (11 R292). -/
def homeAsk (s : State) (home : Nat) (u : LineUse) (line : Nat) : Option Instr :=
  let m : LineMsg := ⟨home, .core u.die u.core, line, 0, 0, .core u.die u.core, false, false⟩
  let d := s.lineDir home line
  if u.write then if d.owner.isSome || !d.sharers.isEmpty then some (.readExclusive m) else none
  else if d.owner.isSome then some (.readShared m) else none

/-- The home slice answers a core: a reply in the core's sequence, acknowledged at once (11 R294). -/
def State.localReply (s : State) (home : Nat) (u : LineUse) : State :=
  s.updSeq home (.core u.die u.core) fun x => { x with sent := x.sent + 1, recvd := x.recvd + 1 }

/-- One line of an access: a request to its home, unless one is under way; a store by a holder in E makes the line M. -/
def askLine (s : State) (u : LineUse) (line : Nat) : State :=
  let put (s : State) (m : Option Instr) : State := match m with
    | some m => if s.coh.net.contains m then s else s.send m
    | none => s
  match l2Home s line with
  | none => s
  | some home =>
    if u.atHome || home == u.die then
      match homeAsk s home u line with
      | some m => put s (some m)
      | none => s.localReply home u
    else
      let who := lineRequester u.die home line
      let st := s.heldLine who line
      let s := if u.write && st == .e then s.setHeldLine who line .m else s
      put s (lineAsk st u.write u.own ⟨home, who, line, 0, 0, who, u.now, false⟩)

/-- A slice has taken a request: its lines, the line's home is asked, and the home's die enters the presence masks. -/
def sliceTakes (s : State) (die line : Nat) (use : Option LineUse) (xs : List L2Line) : State :=
  let s := s.setL2 xs
  let s := if l2Home s line == some die then s.enterPresence [die] line else s
  match use with
  | some u => askLine s u line
  | none => s

/-- Sends a request to one slice; a refused one is kept to be sent again (R209). -/
def sliceAsk (s : State) (die line : Nat) (w : Waiter) (cls : BitVec 2) (stream : Bool) (use : Option LineUse) : State :=
  match l2Try s die line (some w) cls stream with
  | some xs => sliceTakes s die line use xs
  | none => { s with caches := { s.caches with nacks := s.caches.nacks ++ [⟨w, die, line, cls, stream, 1, false, use⟩] } }

/-- Sends an access's requests to the slices of their lines: to the caching slice of the requester's die (11 R292), and to the
home's, but for a line of a SEALED tile and one under tenure, which the requester's die alone takes in (11 R291); an atomic goes
to the home slice (10 R251). -/
def l2Request (s : State) (cls : BitVec 2) (stream : Bool) (u : LineUse) : List (Nat × Waiter) → State
  | [] => s
  | (line, w) :: rest =>
    let s := match l2Home s line with
      | none => s
      | some home =>
        if u.atHome then sliceAsk s home line w cls stream (some u)
        else if u.die == home then sliceAsk s home line w cls stream (some u)
        else
          let far := !u.own && !s.sealedLine line
          let s := sliceAsk s u.die line w cls stream (some u)
          if far then sliceAsk s home line w cls stream none else s
    l2Request s cls stream u rest

/-- The requester and the line of a request for a line, or of the answer to one (11 R293). -/
def askerOf : Instr → Option (Requester × Nat)
  | .readShared m | .readExclusive m | .upgrade m | .dataRsp m | .forwardedData m | .grant m => some (m.peer, m.line)
  | .forwardShared m | .forwardExclusive m => some (m.dest, m.line)
  | _ => none

/-- Whether a request of one of these requesters for a line is under way between it and the line's home. -/
def State.lineBusy (s : State) (who : Requester → Bool) (line : Nat) : Bool :=
  (s.coh.net ++ s.coh.hold).any fun m => (askerOf m).any fun a => who a.1 && a.2 == line

/-- Whether an operation waits for the home of one of its lines. -/
def State.lineAsked (s : State) (o : Op) : Bool :=
  !s.coh.net.isEmpty && o.lines.any fun l => match l2Home s l with
    | some h => s.lineBusy (fun w => w == .core o.die o.core || w == lineRequester o.die h l) l
    | none => false

/-- Whether the data of a pending line is still on its way to the die. -/
def State.dataOut (s : State) (die line : Nat) : Bool := !s.coh.net.isEmpty && s.lineBusy (ofDie die) line

/-- Whether an operation still waits for a line of L2, was refused there, or waits for a home. -/
def State.l2Waits (s : State) (op : Nat) : Bool :=
  s.caches.l2.any (fun x => x.pending.any (·.op == op)) || s.caches.nacks.any (·.who.op == op) || (s.op? op).any s.lineAsked

/-! ### L1 (R205, R210) -/

/-- Lines that a core's L1 holds. -/
def l1Lines : Nat := 1024

/-- Puts a line into a core's L1; the oldest leaves when it is full (DESIGN CHOICE, log entry 11). -/
def l1Insert (s : State) (l : L1Line) : State :=
  let xs := s.caches.l1.filter (· != l)
  let mine := xs.filter fun x => x.die == l.die && x.core == l.core
  let xs := if mine.length < l1Lines then xs
    else match mine.getLast? with
      | some o => xs.filter (· != o)
      | none => xs
  { s with caches := { s.caches with l1 := l :: xs } }

/-! ### Ways pinned by the tag spill (R207, 14 R371) -/

/-- The line of a die's L2 that holds entries 4k to 4k + 3 of its tag spill: it is no line of memory (DESIGN CHOICE, log
entry 20). -/
def spillLine (k : Nat) : Nat := 2 ^ 60 + k

/-- Pins a line, which takes a way if it has none; none while its set has no way to give, or keeps it for a starved request. -/
def l2Pin (s : State) (die line : Nat) : Option (List L2Line) :=
  (l2Try s die line none 3 false).map fun ys => ys.map fun x => if x.die == die && x.line == line then { x with pinned := true } else x

/-- Makes room for the n-th entry of a die's tag spill. -/
def State.pinSpill (s : State) (die n : Nat) : Option State :=
  if n % 4 == 1 then (l2Pin s die (spillLine (n / 4))).map s.setL2 else some s

/-- Gives back the ways that no entry of a tag spill needs any more. -/
def State.unpinSpill (s : State) : State :=
  let n (die : Nat) : Nat := (s.fill.entries.filter fun e => e.die == die && e.way.isNone).length
  { s with caches := { s.caches with
    l2 := s.caches.l2.filter fun x => decide (x.line < 2 ^ 60) || decide (x.line - 2 ^ 60 < (n x.die + 3) / 4) } }

end Sys2Proof.Machine
end

