-- ==== Sys2Proof/Machine/FillOps.lean ====
section
/-! DEFINITION. Procedural blocks, work items and the Shading Cache (14 R359 to R380): states, frames, lookups. -/

namespace Sys2Proof.Machine

/-! ### Rights and frames of a context (16 R454) -/

/-- Whether a context's SHAREMASK admits a tag with a right: 0 any, 1 read, 2 write. -/
def Ctx.shares (c : Ctx) (tag : BitVec 16) (right : Nat) : Bool :=
  tag != 0 && (List.range 8).any fun k =>
    let e := (c.sharetab[k]?).getD 0
    c.sharemask.getLsbD k && e.setWidth 16 == tag &&
      (right == 0 || (right == 1 && e.getLsbD 16) || (right == 2 && e.getLsbD 17))

/-- The frame counter of a tag (R377). -/
def State.tagFrame (s : State) (tag : BitVec 16) : DWord := ((s.fill.tagFrames.find? (·.1 == tag)).map (·.2)).getD 0

/-- The frame counter of a space: a context's or a tag's. -/
def State.spaceFrame (s : State) (shared : Bool) (owner : BitVec 16) (ctx : Word) : DWord :=
  if shared then s.tagFrame owner else ((s.ctx? ctx).map (·.frame)).getD 0

/-- The global number of a home die of this package. -/
def State.homeDie (s : State) (k : Nat) : Nat := 4 * s.boot.pkg + k % 4

def State.updFill (s : State) (f : Fill → Fill) : State := { s with fill := f s.fill }

/-- The first number below a bound that is not in a list, from a starting point on; as many candidates as the list has
members, and one more, hold one that is free. -/
def pickFree (used : List Nat) (bound start : Nat) : Option Nat :=
  ((List.range (Nat.min bound (used.length + 1))).map fun k => (start + k) % bound).find? fun k => !used.contains k

/-! ### Blocks (R360 to R365) -/

def State.range? (s : State) (ctx : Word) (n : Nat) : Option Range := s.fill.ranges.find? fun r => r.ctx == ctx && r.n == n

def State.block? (s : State) (ctx : Word) (n b : Nat) : Option Block :=
  s.fill.blocks.find? fun x => x.ctx == ctx && x.n == n && x.b == b

def Block.is (x : Block) (ctx : Word) (n b : Nat) : Bool := x.ctx == ctx && x.n == n && x.b == b

def State.updBlock (s : State) (ctx : Word) (n b : Nat) (f : Block → Block) : State :=
  s.updFill fun x => { x with blocks := x.blocks.map fun k => if k.is ctx n b then f k else k }

/-- The block of a context that holds a byte of virtual memory (R360): its range, number and the byte's offset in it. -/
def State.blockAt (s : State) (ctx : Word) (va : DWord) : Option (Range × Nat × Nat) :=
  let at_ (r : Range) : Nat := (va - r.base).toNat
  (s.fill.ranges.find? fun r => r.ctx == ctx && decide (at_ r < r.len)).map fun r => (r, at_ r / r.blk, at_ r % r.blk)

/-- A store to a FILLED block sets its STORED bit (R362). -/
def State.storeBlock (s : State) (ctx : Word) (va : DWord) : State :=
  match s.blockAt ctx va with
  | some (r, b, _) => s.updBlock ctx r.n b fun x => if x.st == .filled then { x with stored := true } else x
  | none => s

/-- The physical address of a byte of a block that has frames. -/
def Block.pa (x : Block) (o : Nat) : Nat := (x.frames[o / 2 ^ 15]?).getD 0 + o % 2 ^ 15

/-- The item of a block. -/
def State.blockItem (s : State) (ctx : Word) (n b : Nat) : Option Item :=
  s.fill.items.find? fun i => i.ctx == ctx && i.what == .block n b

/-- The position of the last-level descriptor of a virtual address, when its table exists. -/
def leafSlot (m : Memory) (c : Ctx) (a : Nat) : Nat → List Nat → Option Nat
  | _, [] => none
  | tbl, lv :: rest =>
    match stage2 .plain (.of m) c.s2root (tbl + 8 * natField a (levelShift lv) (levelBits lv)) .descr false with
    | .error _ => none
    | .ok (pa, _, _) =>
      if lv == 4 then some pa
      else match descOf lv (m.readLE pa 8) with
        | .table t => leafSlot m c a t rest
        | _ => none

/-- The descriptor the Sower writes for a frame: kind R, readable and writable, accessed and dirty (DESIGN CHOICE, log entry 12). -/
def frameDesc (pa : Nat) : Nat := pa + 2 * 2 ^ 62 + 2 * 2 ^ 60 + 2 ^ 58 + 2 ^ 57 + 2 ^ 56 + 2 ^ 55

/-- Writes the descriptors of a block's pages. -/
def mapPages (s : State) (c : Ctx) (va : Nat) : List Nat → State
  | [] => s
  | pa :: rest =>
    let s := match leafSlot s.mem c (va % 2 ^ 57) c.s1root [0, 1, 2, 3, 4] with
      | some at_ => s.writeMem (cellsAt at_ (leBytes 8 (if pa == 0 then 0 else frameDesc pa)))
      | none => s
    mapPages s c (va + 2 ^ 15) rest

/-- Drops the cached translations of a block's pages. -/
def dropTlb (s : State) (ctx : Word) (va len : Nat) : State :=
  let a := va % 2 ^ 57
  { s with
    caches := { s.caches with
      tlb := s.caches.tlb.filter fun e => !(e.ctx == ctx && e.page * e.size < a + len && a < (e.page + 1) * e.size) } }

def Range.blockVa (r : Range) (b : Nat) : Nat := (r.base + BitVec.ofNat 64 (b * r.blk)).toNat

def Range.frames (r : Range) : Nat := r.blk / 2 ^ 15

/-- Blocks of a range whose home is a die. -/
def Range.homeOf (s : State) (r : Range) (b : Nat) : Nat := s.homeDie (r.n + b)

/-- Returns a block to EMPTY: its pages are unmapped and its frames released. -/
def emptyBlock (s : State) (x : Block) : State :=
  let s := s.updFill fun f => { f with blocks := f.blocks.filter fun k => !k.is x.ctx x.n x.b }
  match s.range? x.ctx x.n, s.ctx? x.ctx with
  | some r, some c =>
    dropTlb (mapPages s c (r.blockVa x.b) (x.frames.map fun _ => 0)) x.ctx (r.blockVa x.b) r.blk
  | _, _ => s

/-- Whether a lane's access to a block is in flight. -/
def Block.inFlight (s : State) (x : Block) : Bool :=
  s.ops.any fun o => o.lines.any fun l => x.frames.any fun p => p / 2 ^ 15 == l / 2 ^ 8

/-- Whether a FILLED block may be evicted (R364). -/
def Block.evictable (s : State) (x : Block) : Bool :=
  x.st == .filled && !x.stored && x.pins.isEmpty && x.readers.isEmpty && !x.inFlight s

/-- The block filled longest ago among those of a list. -/
def oldestBlock (xs : List Block) : Option Block :=
  xs.foldl (fun a x => match a with
    | some y => if x.order < y.order then some x else a
    | none => some x) none

/-- The free frames of a context's pool. -/
def freeFrames (s : State) (c : Ctx) : List Nat :=
  let used := ((s.fill.blocks.filter (·.ctx == c.id)).map (·.frames)).flatten
  ((List.range c.npool).map fun k => s.mem.readLE (c.pool + 8 * k) 8).filter fun p => !used.contains p

/-- Evicts blocks one at a time until n frames are free, or no block can go (R365). -/
def makeRoom (c : Ctx) (n : Nat) : Nat → State → State
  | 0, s => s
  | fuel + 1, s =>
    if n ≤ (freeFrames s c).length then s
    else match oldestBlock (s.fill.blocks.filter fun x => x.ctx == c.id && x.evictable s) with
      | some x => makeRoom c n fuel (emptyBlock s x)
      | none => s

/-- Blocks of a range on a die that are FILLING with frames, or FILLED. -/
def holdsFrames (s : State) (r : Range) (die : Nat) : List Block :=
  s.fill.blocks.filter fun x =>
    x.ctx == r.ctx && x.n == r.n && Range.homeOf s r x.b == die && !x.frames.isEmpty && (x.st == .filling || x.st == .filled)

/-- Whether the range's budget on its home die has room for a block, by eviction if need be. -/
def budgetRoom (s : State) (r : Range) (b : Nat) : Bool :=
  let xs := holdsFrames s r (Range.homeOf s r b)
  xs.length < (r.budget + 3) / 4 || xs.any (Block.evictable s)

/-- Whether an item raised before an order waits for frames of a context's pool with room in its range's budget. -/
def behindItem (s : State) (ctx : Word) (order : Nat) : Bool :=
  s.fill.items.any fun j => j.starved && j.ctx == ctx && j.order < order && (match j.what with
    | .block n b => (s.range? j.ctx n).any fun r => budgetRoom s r b
    | .tile .. => false)

/-- Gives a FILLING block its frames, if the range's budget and the pool allow, and says whether it has them; blocks evicted
for it stay evicted (R364, R365). -/
def takeFrames (s : State) (r : Range) (c : Ctx) (b : Nat) : Bool × State :=
  let die := Range.homeOf s r b
  let full (s : State) : Bool := (r.budget + 3) / 4 ≤ (holdsFrames s r die).length
  let s := if full s then ((oldestBlock ((holdsFrames s r die).filter (Block.evictable s))).map (emptyBlock s)).getD s else s
  if full s then (false, s)
  else
    let s := makeRoom c r.frames s.fill.blocks.length s
    let fs := (freeFrames s c).take r.frames
    if fs.length < r.frames then (false, s)
    else
      let s := s.updBlock r.ctx r.n b fun x => { x with frames := fs }
      (true, dropTlb (mapPages s c (r.blockVa b) fs) r.ctx (r.blockVa b) r.blk)

/-- The item of a block goes on with its frames. -/
def State.fed (s : State) (die ix : Nat) : State :=
  s.updFill fun f => { f with items := f.items.map fun i => if i.die == die && i.ix == ix then { i with starved := false } else i }

/-- Raises the item of an EMPTY block (R361), which takes its frames behind the items that already wait for some (R365);
none when the die's item table of 4,096 is full: the access then waits, as a held lookup does (DESIGN CHOICE, log entry 113). -/
def raiseBlock (s : State) (r : Range) (c : Ctx) (b depth : Nat) : Option State :=
  let die := Range.homeOf s r b
  let used := (s.fill.items.filter (·.die == die)).map (·.ix)
  match pickFree used 4096 (Config.freeNat s.ticks (1000 + s.fill.order)) with
  | none => none
  | some ix =>
    let order := s.fill.order
    let s := s.updFill fun f => { f with
      blocks := ⟨r.ctx, r.n, b, .filling, [], false, 0, [], []⟩ :: f.blocks
      items := f.items ++ [⟨die, ix, r.ctx, .block r.n b, depth, none, true, order, []⟩]
      order := order + 1 }
    if behindItem s r.ctx order then some s
    else match takeFrames s r c b with
      | (true, s) => some (s.fed die ix)
      | (false, s) => some s

/-! ### Items -/

/-- Items that a team holds. -/
def State.heldItems (s : State) (uid : Nat) : List Item := s.fill.items.filter (·.holder == some uid)

/-- The depth of an item that a team would raise (R367). -/
def State.itemDepth (s : State) (uid : Nat) : Nat := ((s.heldItems uid).map (·.depth)).foldl Nat.max 0 + 1

def State.dropItem (s : State) (i : Item) : State :=
  s.updFill fun f => { f with items := f.items.filter fun k => !(k.die == i.die && k.ix == i.ix) }

/-- The items whose chains a team has joined: it waits for their fills, or for a page besides. -/
def Team.fills (t : Team) : List (Nat × Nat) :=
  match t.status with
  | .waiting (.fill is _ _) => is
  | .parked rs => (rs.map (·.joins)).flatten
  | _ => []

/-- Whether a team waits on an item: parked on its block, in `scwait` on its entry, or by an engine command (R367). -/
def waitsOn (s : State) (uid : Nat) (i : Item) : Bool :=
  i.cmds.any (fun op => (s.op? op).any (·.uid == uid)) ||
    (s.team? uid).any fun t => t.fills.contains (i.die, i.ix) || (match t.status, i.what with
      | .waiting (.keys ks), .tile _ key shared owner _ _ => ks.contains (key, shared, owner)
      | _, _ => false)

/-- Adds the items whose holders wait on items of a list (R367). -/
def growChain (s : State) : Nat → List Item → List Item
  | 0, is => is
  | fuel + 1, is =>
    let more := s.fill.items.filter fun i => !is.contains i && i.holder.any fun u => is.any (waitsOn s u)
    if more.isEmpty then is else growChain s fuel (is ++ more)

/-- The chain of a team: the items it holds and those that wait on them. -/
def chainOf (s : State) (uid : Nat) : List Item := growChain s s.fill.items.length (s.heldItems uid)

/-- Teams parked on a block's item go on, those that also wait for a page once it is answered; they pin the block until they
replay, engine commands until they end (R363, R364). The wake is an acquire (R369). -/
def wakeFill (s : State) (i : Item) : State :=
  let ws := (s.teams.filter fun t => t.fills.contains (i.die, i.ix)).map (·.uid)
  let wake (t : Team) : Team :=
    if ws.contains t.uid then
      { t.acquireAll with status := match t.status with
          | .waiting _ => .running
          | st => st }
    else t
  let s := { s with teams := s.teams.map wake }
  match i.what with
  | .block n b => s.updBlock i.ctx n b fun x => { x with
      pins := ws ++ x.pins, readers := i.cmds.filter (fun k => !x.readers.contains k) ++ x.readers }
  | _ => s

/-- Teams parked on a block's item fault (R361, R368); engine commands that wait end FAULTED (13 R341). -/
def failWaiters (s : State) (i : Item) (code : BitVec 8) (detail : Word) : State :=
  let halt (t : Team) (opc : BitVec 8) (unif : Bool) : Team :=
    stopTeam s t { code, opc, unif, detail, lanes := t.unfin.getD t.active, ipc := t.pc }
  let stop (t : Team) : Team :=
    if !t.fills.contains (i.die, i.ix) then t
    else match t.status with
      | .waiting (.fill _ opc unif) => halt t opc unif
      | .parked (r :: _) => halt t (r.rpt.finfo0.extractLsb' 16 8) (r.rpt.finfo0.getLsbD 13)
      | _ => t
  let s := { s with teams := s.teams.map stop }
  i.cmds.foldl (fun s id => match s.op? id with
    | some o => faultOp s o { code, detail }
    | none => s) s

/-! ### The Shading Cache -/

def State.layer? (s : State) (ctx : Word) (n : Nat) : Option Layer := s.fill.layers.find? fun l => l.ctx == ctx && l.n == n

/-- Fields of a key (R370). -/
def keyLayer (k : DWord) : Nat := natField k.toNat 0 4
def keyLevel (k : DWord) : Nat := natField k.toNat 4 4
def keyTv (k : DWord) : Nat := natField k.toNat 8 16
def keyTu (k : DWord) : Nat := natField k.toNat 24 16
def keyObj (k : DWord) : Nat := natField k.toNat 40 24

/-- R371. -/
def State.keyDie (s : State) (k : DWord) : Nat :=
  let x := b2n (natBit (keyTu k) 0 != natBit (keyObj k) 0)
  let y := b2n (natBit (keyTv k) 0 != natBit (keyObj k) 1)
  s.homeDie (x + 2 * y)

def keySet (k : DWord) : Nat :=
  let o := keyObj k
  ((natField o 0 16) ^^^ (natField o 16 8 * 2 ^ 8) ^^^ (keyTu k / 2) ^^^ (keyTv k / 2 * 2 ^ 7) ^^^ (keyLevel k * 2 ^ 12) ^^^
    keyLayer k) % 2 ^ 16

def TagEntry.is (e : TagEntry) (k : DWord) (shared : Bool) (owner : BitVec 16) : Bool :=
  e.key == k && e.shared == shared && e.owner == owner

def State.entry? (s : State) (k : DWord) (shared : Bool) (owner : BitVec 16) : Option TagEntry :=
  s.fill.entries.find? (TagEntry.is · k shared owner)

def State.updEntry (s : State) (k : DWord) (shared : Bool) (owner : BitVec 16) (f : TagEntry → TagEntry) : State :=
  s.updFill fun x => { x with entries := x.entries.map fun e => if e.is k shared owner then f e else e }

def State.dropEntry (s : State) (k : DWord) (shared : Bool) (owner : BitVec 16) : State :=
  (s.updFill fun x => { x with entries := x.entries.filter fun e => !e.is k shared owner }).unpinSpill

/-- The revision of an object (R376). -/
def State.objRev (s : State) (shared : Bool) (owner : BitVec 16) (obj : BitVec 24) : BitVec 16 :=
  ((s.fill.revs.find? fun r => r.shared == shared && r.owner == owner && r.obj == obj).map (·.rev)).getD 0

/-- Releases a heap record at the present frame of its space (R379). -/
def releaseRec (s : State) (die at_ : Nat) : State :=
  s.updFill fun f => { f with
    heap := f.heap.map fun h => if h.die == die && h.at_ == at_ && h.freed.isNone then
      { h with freed := some (s.spaceFrame h.shared h.owner h.ctx) } else h }

/-- Whether a heap record may be taken: never used, or its space's frame has advanced twice since its release. -/
def HeapRec.busy (s : State) (h : HeapRec) : Bool :=
  match h.freed with
  | none => true
  | some f => (s.spaceFrame h.shared h.owner h.ctx - f).toNat < 2

/-- Drops the lines of a heap record from every read-only cache (R379), and the replies under way to one, which no later read may be
given. -/
def dropRecLines (s : State) (at_ size : Nat) : State :=
  let lo := (s.boot.heap + at_ * 1024) / 128
  let has (line : Nat) : Bool := lo ≤ line && line < lo + size * 8
  { s with caches := { s.caches with
    ro := s.caches.ro.filter fun l => !has l.line, routers := s.caches.routers.filter fun r => !(r.ro && has r.line) } }

/-- Takes a heap record of a layer on a die (R379), aligned to its size; its lines leave every read-only cache. None when none
is free. -/
def takeRec (s : State) (die : Nat) (big shared : Bool) (owner : BitVec 16) (ctx : Word) : Option (Nat × State) :=
  let size := if big then 2 else 1
  let quarter := s.boot.heapLen / 1024 / 4
  let first := (quarter * (die % 4) + size - 1) / size * size
  let busy := s.fill.heap.filter fun h => h.die == die && h.busy s
  let clash (at_ : Nat) : Bool := busy.any fun h => h.at_ < at_ + size && at_ < h.at_ + (if h.big then 2 else 1)
  let n := (quarter * (die % 4 + 1) - first) / size
  let start := Config.freeNat s.ticks (3000 + s.fill.order)
  match (List.range n).find? fun k => !clash (first + (start + k) % n * size) with
  | none => none
  | some k =>
    let at_ := first + (start + k) % n * size
    some (at_, (dropRecLines s at_ size).updFill fun f => { f with
      heap := ⟨die, at_, big, shared, owner, ctx, none⟩ ::
        f.heap.filter fun h => !(h.die == die && h.at_ < at_ + size && at_ < h.at_ + (if h.big then 2 else 1)) })

/-- The entry of a set that goes first (R378): largest age since use in its own space, lowest class, lowest way. The frame of a
private entry is the counter of the context that raised it, as for the release of its record; a lookup of it uses the counter of the
context that looks it up (DESIGN CHOICE, log entry 111). -/
def evictFirst (s : State) (es : List TagEntry) : Option TagEntry :=
  let age (e : TagEntry) : Nat := (lo32 (s.spaceFrame e.shared e.owner e.ctx) - e.uframe).toNat
  let better (a b : TagEntry) : Bool :=
    age b < age a || (age a == age b && (a.wclass.toNat < b.wclass.toNat ||
      (a.wclass == b.wclass && a.way.getD 0 < b.way.getD 0)))
  es.foldl (fun acc e => match acc with
    | some b => if better e b then some e else acc
    | none => some e) none

/-- Whether an entry may be evicted. -/
def TagEntry.evictable (e : TagEntry) : Bool := e.st != .inFlight && !e.reshade

/-- A place for a new entry: a way of its set, or the tag spill; the entry evicted for it has left. The spill holds 4,096
entries and pins the L2 ways that hold them (R207). -/
def placeEntry (s : State) (die set : Nat) : Option (Option Nat × State) :=
  let es := s.fill.entries.filter fun e => e.die == die && e.set == set && e.way.isSome
  match pickFree (es.map fun e => e.way.getD 0) 16 0 with
  | some w => some (some w, s)
  | none =>
    match evictFirst s (es.filter TagEntry.evictable) with
    | some e => some (e.way, (releaseRec s die e.heap).dropEntry e.key e.shared e.owner)
    | none =>
      let n := (s.fill.entries.filter fun e => e.die == die && e.way.isNone).length
      if 4096 ≤ n then none else (s.pinSpill die (n + 1)).map fun s => (none, s)

/-- Raises the item of a shading tile (R375): the item and its heap record; none while no record or item is free. -/
def raiseTile (s : State) (c : Ctx) (l : Layer) (k : DWord) (shared : Bool) (owner : BitVec 16) (depth : Nat) :
    Option (Nat × State) :=
  let die := s.keyDie k
  let used := (s.fill.items.filter (·.die == die)).map (·.ix)
  match pickFree used 4096 (Config.freeNat s.ticks (2000 + s.fill.order)), takeRec s die l.big shared owner c.id with
  | some ix, some (at_, s) =>
    let rev := s.objRev shared owner (BitVec.ofNat 24 (keyObj k))
    some (at_, s.updFill fun f => { f with
      items := f.items ++ [⟨die, ix, c.id, .tile l.n k shared owner at_ rev, depth, none, false, f.order, []⟩]
      order := f.order + 1 })
  | _, _ => none

/-- An answer of a lookup (R387): 0 MISS, 1 IN_FLIGHT, 2 HIT, 3 STALE_HIT. -/
structure Answer where
  status : Nat
  shared : Bool
  age    : Nat
  rev    : BitVec 16
  heap   : Nat
  deriving DecidableEq, Repr

/-- The four registers of an answer; the heap offset is in bytes. -/
def Answer.words (a : Answer) : List Word :=
  [BitVec.ofNat 32 (a.status * 2 ^ 30 + b2n a.shared * 2 ^ 29 + a.age), a.rev.setWidth 32,
   BitVec.ofNat 32 (a.heap * 1024), BitVec.ofNat 32 (a.heap * 1024 / 2 ^ 32)]

/-- Marks an entry STALE when its object's revision has moved (R376). -/
def staleNow (s : State) (e : TagEntry) : TagEntry :=
  if e.st == .valid && e.rev != s.objRev e.shared e.owner (BitVec.ofNat 24 (keyObj e.key)) then { e with st := .stale }
  else e

/-- How a lookup ends. -/
inductive Lookup where
  | answer (a : Answer) (s : State)
  | held
  | deep

/-- A lookup in one space by the rows of R375. `mayRaise` is the right to raise items there; `raise` is false for
`scwait`; `depth` is that of an item it would raise. -/
def lookupIn (s : State) (c : Ctx) (l : Layer) (k : DWord) (shared : Bool) (owner : BitVec 16) (mayRaise raise : Bool)
    (depth : Nat) : Lookup :=
  let f := lo32 (s.spaceFrame shared owner c.id)
  let miss : Answer := ⟨0, shared, 0, 0, 0⟩
  let hit (st : Nat) (e : TagEntry) (heap : Nat) : Answer :=
    ⟨st, shared, Nat.min (f - e.sframe).toNat (2 ^ 29 - 1), e.rev, heap⟩
  let use (s : State) : State := if raise then s.updEntry k shared owner fun e => { e with uframe := f } else s
  match (s.entry? k shared owner).map (staleNow s) with
  | none =>
    if !raise then .answer miss s
    else if 4 < depth then .deep
    else
      let die := s.keyDie k
      match placeEntry s die (keySet k) with
      | none => .held
      | some (way, s) =>
        match raiseTile s c l k shared owner depth with
        | none => .held
        | some (at_, s) =>
          .answer miss (s.updFill fun x => { x with
            entries := ⟨die, keySet k, way, k, shared, owner, 0, 0, .inFlight, false, at_, 0, 0, 0, 0, c.id⟩ ::
              x.entries })
  | some e =>
    match e.st with
    | .inFlight => .answer ⟨1, shared, 0, 0, 0⟩ s
    | .valid => .answer (hit 2 e e.heap) (use s)
    | .stale =>
      let s := s.updEntry k shared owner fun x => { x with st := .stale }
      if l.staleMiss then
        if !raise then .answer miss s
        else if e.reshade then
          -- the item of the re-shade serves the entry (DEDUCED, log entry 98)
          .answer miss ((releaseRec s e.die e.oldHeap).updEntry k shared owner fun x =>
            { x with st := .inFlight, oldHeap := 0, reshade := false })
        else if 4 < depth then .deep
        else match raiseTile (releaseRec s e.die e.heap) c l k shared owner depth with
          | none => .held
          | some (at_, s) =>
            .answer miss (s.updEntry k shared owner fun x => { x with st := .inFlight, heap := at_, reshade := false })
      else if e.reshade then .answer (hit 3 e e.oldHeap) (use s)
      else if raise && mayRaise then
        if 4 < depth then .deep
        else match raiseTile s c l k shared owner depth with
          | none => .held
          | some (at_, s) =>
            .answer (hit 3 e e.heap)
              (use (s.updEntry k shared owner fun x => { x with reshade := true, oldHeap := x.heap, heap := at_ }))
      else .answer (hit 3 e e.heap) (use s)

/-- The space in which a lookup is made, with the right to raise items there (R374). -/
def lookupSpace (s : State) (c : Ctx) (l : Layer) (k : DWord) : Bool × BitVec 16 × Bool :=
  if c.shares l.tag 1 then
    let wr := c.shares l.tag 2
    match (s.entry? k true l.tag).map (staleNow s) with
    | some e => if e.st == .stale && l.staleMiss && !wr then (false, c.tid, true) else (true, l.tag, wr)
    | none => if wr then (true, l.tag, true) else (false, c.tid, true)
  else (false, c.tid, true)

/-- A lookup by a context (R374). -/
def lookupKey (s : State) (c : Ctx) (l : Layer) (k : DWord) (raise : Bool) (depth : Nat) : Lookup :=
  let (shared, owner, may) := lookupSpace s c l k
  lookupIn s c l k shared owner may raise depth

/-- Whether a key's entry, in its space, is in flight. -/
def keyInFlight (s : State) (c : Ctx) (l : Layer) (k : DWord) : Bool :=
  let (shared, owner, _) := lookupSpace s c l k
  (s.entry? k shared owner).any fun e => e.st == .inFlight

/-- The end of a shading item without data (R375, `pfail` rows). -/
def failTile (s : State) (die : Nat) (k : DWord) (shared : Bool) (owner : BitVec 16) : State :=
  match s.entry? k shared owner with
  | none => s
  | some e =>
    let s := releaseRec s die e.heap
    if e.st == .inFlight then s.dropEntry k shared owner
    else s.updEntry k shared owner fun x => { x with heap := x.oldHeap, oldHeap := 0, reshade := false }

/-- The end of a shading item with data (R375, `scfill` rows) by a committing context. -/
def fillTile (s : State) (c : Ctx) (die : Nat) (k : DWord) (shared : Bool) (owner rev : BitVec 16) : State :=
  let f := lo32 (s.spaceFrame shared owner c.id)
  match s.entry? k shared owner with
  | none => s
  | some e =>
    let s := if e.reshade then releaseRec s die e.oldHeap else s
    let big := s.fill.heap.any fun h => h.die == die && h.at_ == e.heap && h.freed.isNone && h.big
    let s := dropRecLines s e.heap (if big then 2 else 1)
    s.updEntry k shared owner fun x =>
      { x with
        st := .valid, reshade := false, oldHeap := 0, rev, sframe := f, uframe := f, wclass := c.cls, wtenant := c.tid }

/-- The end of an item that fails (R361, R368): `empty` leaves a block EMPTY whatever FAILPOL says. -/
def failItem (s : State) (i : Item) (code : BitVec 8) (status : BitVec 16) (empty : Bool) : State :=
  let s := failWaiters s i code (if code == codeFillDepth then 0 else status.setWidth 32)
  let s := match i.what with
    | .block n b =>
      match s.block? i.ctx n b, s.range? i.ctx n with
      | some x, some r =>
        if empty || r.failEmpty then emptyBlock s x
        else s.updBlock i.ctx n b fun x => { x with st := .faulted status }
      | some x, none => emptyBlock s x
      | none, _ => s
    | .tile _ k shared owner _ _ => failTile s i.die k shared owner
  s.dropItem i

/-- The end of an item that commits (R361, R375). -/
def commitItem (s : State) (c : Ctx) (i : Item) : State :=
  match i.what with
  | .block n b =>
    let s := wakeFill s i
    let s := s.updBlock i.ctx n b fun x => { x with st := .filled, order := s.fill.order }
    (s.updFill fun f => { f with order := f.order + 1 }).dropItem i
  | .tile _ k shared owner _ rev => (fillTile s c i.die k shared owner rev).dropItem i

end Sys2Proof.Machine
end

