-- ==== Sys2Proof/Machine/Retire.lean ====
section
/-! DEFINITION. How a team leaves: retirement (01 R30), a kill (08 R228), the halt of a context (16 R447), the failure of a
generator chain (14 R367). -/

namespace Sys2Proof.Machine

/-! ### What a team leaves behind -/

/-- Whether a collective or a barrier of a group is outstanding. -/
def State.groupBusy (s : State) (g : Group) : Bool :=
  s.eng.parts.any (fun p => p.ctx == g.ctx && p.group == g.ix) || s.eng.barArr.any fun a => a.ctx == g.ctx && a.group == g.ix

/-- A group with the ranks that have left; one that every member has left, with nothing outstanding, is retired and its
generation advances (13 R351). -/
def Group.over (g : Group) (busy : Bool) (left : List Nat) : Group :=
  if left.length == g.members.length && !busy then { g with members := [], left := [], gen := g.gen + 1 } else { g with left }

/-- Retires the groups that every member has left once nothing of theirs is outstanding. -/
def retireGroups (s : State) : State :=
  { s with eng := { s.eng with
      groups := s.eng.groups.map fun g => if g.members.isEmpty || g.left.isEmpty then g else g.over (s.groupBusy g) g.left } }

/-- Leaves the groups of a team (13 R351). -/
def leaveGroups (s : State) (uid : Nat) : State :=
  let leave (g : Group) : Group :=
    match g.members.find? (·.1 == uid) with
    | some m =>
      if g.left.contains m.2 then g
      else
        g.over (s.groupBusy g) (m.2 :: g.left)
    | none => g
  { s with eng := { s.eng with
      groups := s.eng.groups.map leave
      forming := (s.eng.forming.map fun f => { f with members := f.members.filter (·.1 != uid) }).filter fun f =>
        !f.members.isEmpty } }

/-- Releases the residencies of a team (12 R328). -/
def releaseResids (s : State) (uid : Nat) : State :=
  { s with mat := { s.mat with resid := s.mat.resid.map fun r => if r.uid == uid then { r with releasing := true } else r } }

/-- Takes a team out of its slot and counts it retired in its grid. -/
def dropTeam (s : State) (t : Team) : State :=
  let s := s.updGrid t.grid fun g => { g with retired := if g.retired.contains t.teamNo then g.retired else t.teamNo :: g.retired }
  { s with
    teams := s.teams.filter (·.uid != t.uid)
    saved := s.saved.map fun v => if v.teams.any (·.uid == t.uid) then { v with teams := v.teams.filter (·.uid != t.uid) } else v }

/-- Keeps what the outstanding work of a team that has left still uses of it, until that ends (DESIGN CHOICE, log entry 85). -/
def keepGhost (s : State) (t : Team) : State :=
  if (s.opsOf t.uid).isEmpty then s else { s with ghosts := t :: s.ghosts }

/-- The items that a team holds fail with a hardware status (14 R368). -/
def failHeld (s : State) (uid : Nat) (status : BitVec 16) : State :=
  (s.heldItems uid).foldl (fun s i => failItem s i codeFillGen status false) s

/-- Whether a commit of an item is under way. -/
def State.committing (s : State) (i : Item) : Bool :=
  s.ops.any fun o => some o.uid == i.holder && (match o.kind with
    | .fillCommit w _ _ _ => natField w.toNat 0 24 == i.die % 4 * 2 ^ 22 + i.ix
    | _ => false)

/-- Whether an operation only owes its team a register. -/
def OpKind.owed : OpKind → Bool
  | .load .. | .atomic .. | .hmap .. | .sclook .. | .take _ => true
  | _ => false

/-- A team ends without retiring (08 R228): results still owed are dropped, issued writes stand, copies are dropped, open
tiles become IDLE, residencies and groups are left. -/
def killTeam (s : State) (t : Team) : State :=
  let s := failHeld s t.uid 0xFFFF
  let s := { s with ops := s.ops.filter fun o => !(o.uid == t.uid && o.kind.owed) }
  keepGhost (dropTeam (releaseResids (leaveGroups (killTiles s t) t.uid) t.uid) t) t

/-! ### Blocking points (16 R437) -/

/-- Whether a wait is a blocking point. -/
def Wait.blocks : Wait → Bool
  | .bar .. | .barThird .. | .addr .. | .cbFree .. | .cbFilled .. | .group .. | .gbar .. | .tile .. | .fill .. | .mapFill ..
  | .remote .. | .keys .. | .held _ | .job .. => true
  | .stall | .full | .clause .. | .block .. | .flags .. | .drain | .fence .. | .task .. | .queue .. => false

def Status.blocks : Status → Bool
  | .waiting w => w.blocks
  | .parked _ => true
  | _ => false

/-- Cycles waited so far, kept in place of the cycle since which a team waits (10 R272). -/
def Team.elapsed (t : Team) (clk : DWord) : Team := { t with since := t.since.map fun e => clk - e }

/-- What of a team's wait a save keeps: a fill of its map unit is asked for anew. -/
def Team.keepWait (t : Team) : Team :=
  match t.status with
  | .waiting (.mapFill ..) => { t with mark := none }
  | _ => t

/-- A team as a halt puts it aside: saved at once at a blocking point, else forced once its outstanding work has ended (16 R441, R444);
a remote access is no longer waited for then. -/
def Team.haltForm (t : Team) (clk : DWord) : Team :=
  match t.leave, t.status with
  | .yielded, _ => t
  | _, .waiting (.remote _) => { t with leave := .forced }
  | _, st => if st.blocks then { t.keepWait.elapsed clk with leave := .stay } else { t with leave := .forced }

/-! ### Halts -/

/-- A record that concerns no team (16 R419, 17 R464). -/
def ctxRecord (s : State) (ctx grid : Word) (code opc : BitVec 8) (detail : Word) : FaultRec :=
  { finfo0 := finfo0 { code, opc } false, finfo1 := 0, finfo2 := detail, finfo3 := 0, ctx, grid, team := 0xFFFFFFFF,
    place := ⟨4 * s.boot.pkg, 0, 0⟩, ipc := 0, rpc := 0, addr := 0, gpa := 0,
    vmid := ((s.ctx? ctx).map (·.vmid)).getD 0, lanes := 0 }

/-- Puts the teams of a context aside for its image. -/
def setAside (s : State) (ctx : Word) (halted : Bool) (ts : List Team) : State :=
  let c := s.ctx? ctx
  let ts := ts.map (·.haltForm s.clk)
  match s.saved.find? (·.ctx == ctx) with
  | some _ =>
    { s with
      teams := s.teams.filter fun t => !ts.any (·.uid == t.uid)
      saved := s.saved.map fun v => if v.ctx == ctx then
        { v with halted := v.halted || halted, teams := v.teams ++ ts, complete := false, checked := false } else v }
  | none =>
    { s with
      teams := s.teams.filter fun t => !ts.any (·.uid == t.uid)
      saved := s.saved ++ [{ ctx, halted, nonce := (c.map (·.nonce)).getD 0, image := [], teams := ts, since := s.clk, complete := false }] }

/-- A team where it stands, in its context's image, or retired with engine commands that still run. -/
def State.teamAny (s : State) (uid : Nat) : Option Team :=
  (s.team? uid).orElse fun _ => ((s.saved.map (·.teams)).flatten ++ s.ghosts).find? (·.uid == uid)

/-- A context halts (R447): its teams go into an image marked HALTED, a halt record is queued, its generators' items
fail. A context halts once. -/
def haltCtx (s : State) (ctx : Word) (r : FaultRec) : State :=
  match s.ctx? ctx with
  | none => s
  | some c =>
    if c.halted.isSome then s
    else
      let s := (s.fill.items.filter (·.ctx == ctx)).foldl (fun s i => failItem s i codeFillGen 0xFFFE false) s
      let s := s.updCtx ctx fun c => { c with halted := some ((r.finfo0 >>> 24).setWidth 8) }
      let s := (s.queueRecord (.ctx ctx) r).2
      setAside s ctx true (s.teams.filter (·.ctx == ctx))

/-- A halt with a code that names no team. -/
def haltCode (s : State) (ctx : Word) (code : BitVec 8) (detail : Word) : State :=
  haltCtx s ctx (ctxRecord s ctx 0 code 0 detail)

/-- A halt whose record concerns a team. -/
def haltTeam (s : State) (t : Team) (opc code : BitVec 8) (detail : Word) (hdr : Bool := false) (names : Mask := 0)
    (unif : Bool := false) : State :=
  let lanes := if names == 0 then t.active else names
  haltCtx s t.ctx (mkRecord s t { code, opc, hdr, unif, detail, lanes, ipc := t.pc } false t.resumePc)

/-- A halt with the fault of a command that its team no longer waits for (13 R336). -/
def haltFault (s : State) (t : Team) (e : EngineFault) : State :=
  haltTeam s { t with pc := e.info.ipc } e.info.opc e.info.code e.info.detail false e.info.lanes e.info.unif

/-- A halt whose record concerns an operation: its team, wherever that is, the operation's opcode and first parcel (16
R420). -/
def haltOp (s : State) (o : Op) (code : BitVec 8) (detail : Word) : State :=
  match s.teamAny o.uid with
  | some t => haltTeam s { t with place := ⟨o.die, o.core, t.place.slot⟩, pc := o.ipc } o.opc code detail false o.names (o.unif && !o.kind.isEngine)
  | none => haltCtx s o.ctx { ctxRecord s o.ctx o.grid code o.opc detail with place := ⟨o.die, o.core, 0⟩, ipc := o.ipc, lanes := o.names }

/-! ### Parks (08 R214, 16 R427) -/

/-- Parks a team at its instruction with the lanes that are not finished, and the chains that it has joined; an error response
of a walk halts its context (08 R229). -/
def parkTeam (s : State) (t : Team) (opc : BitVec 8) (hdr uni : Bool) (cs : List ParkCause) (unfin : Option Mask)
    (joins : List (Nat × Nat) := []) : State :=
  match cs.find? (·.f.code == codeContained) with
  | some c => haltTeam s t opc codeContained c.f.detail hdr (unif := uni)
  | none =>
    let (s, reps) := queueParks s t opc hdr uni cs
    let t := match reps.getLast? with
      | some r => t.loadFinfo r.rpt
      | none => t
    s.setTeam { t with status := .parked (reps.map fun r => { r with joins }), unfin }

/-- A failed translation of an instruction's fetch, at the team's pc, or of a transfer's target check, at the transfer: PERM
stops, an error response halts, the rest parks (16 R427). -/
def fetchFault (s : State) (t : Team) (va : DWord) (f : XFault) : State :=
  if f.code == codePerm then
    s.setTeam (stopTeam s t { code := codePerm, hdr := true, detail := 0xFFF, ipc := t.pc, addr := va })
  else parkTeam s t 0 true false [{ va, lanes := t.active, f }] (some t.active)

/-! ### Generator chains (14 R367) -/

/-- The chain of a generator team fails: its generator teams are killed, its items fail with FILL_DEPTH. -/
def failChain (s : State) (uid : Nat) : State :=
  let is := chainOf s uid
  let s := is.foldl (fun s i => failItem s i codeFillDepth 0 true) s
  is.foldl (fun s i => match i.holder with
    | some u => (match s.teamAny u with
      | some t => if t.ctl.genr then killTeam s t else s
      | none => s)
    | none => s) s

end Sys2Proof.Machine
end

