-- ==== Sys2Proof/Machine/Handles.lean ====
section
/-! DEFINITION. Handles (08 R190 to R196): entries, validity, generations, rights, offsets, scratchpad regions and
MAPPED bindings. -/

namespace Sys2Proof.Machine

open Host (Cell)

/-! ### Storage that engine commands use (09 R245) -/

/-- The physical address of a byte that can be reached now. -/
def quietPa (s : State) (c : Ctx) (va : DWord) : Option Nat :=
  match s.blockAt c.id va with
  | some (r, b, o) => (s.block? c.id r.n b).bind fun x => if x.st == .filled then some (x.pa o) else none
  | none =>
    match walk .plain (.of s.mem) c va .read with
    | .ok x => some x.pa
    | .error _ => none

/-- Whether a byte belongs to storage in use. -/
def InUse.has (u : InUse) (scratch : Option Nat) (a : Nat) : Bool :=
  u.scratch == scratch && u.base ≤ a && a < u.base + u.len &&
    reaches u.w (u.dims.foldr (fun d r => insertDim ⟨0, d.1, d.2⟩ r) []) (u.at_ + (a - u.base))

/-- A run of storage in use, where its page can be reached now. -/
def State.useAt (s : State) (u : InUse) : InUse :=
  match u.virt with
  | none => u
  | some (c, va) =>
    match (s.ctx? c).bind fun c => quietPa s c va with
    | some pa => { u with base := pa }
    | none => { u with len := 0 }

/-- Whether a command, other than one given, uses a byte of memory or of a team's scratchpad (09 R245); a read of a sealed
tile as such does not count the tiles that commands read (DEDUCED, log entry 22). -/
def State.usedBy (s : State) (scratch : Option Nat) (a : Nat) (own : Option Nat := none) (calm : Bool := false) : Bool :=
  s.uses.any fun u => own != some u.op && !u.own && !(calm && u.tile) && (s.useAt u).has scratch a

/-- A byte that a team's load sees: undefined while an engine command uses it. -/
def State.seeByte (s : State) (die core a : Nat) (calm : Bool := false) : Byte :=
  if s.usedBy none a none calm then Config.freeByte s.ticks a else s.viewByte die core a

def State.seeBytes (s : State) (die core a n : Nat) (calm : Bool := false) : List Byte :=
  (List.range n).map fun i => s.seeByte die core (a + i) calm

/-- Cells as a store leaves them: undefined bytes in storage that an engine command uses. -/
def State.storeCells (s : State) (cs : List Cell) (own : Option Nat := none) : List Cell :=
  if s.uses.isEmpty then cs
  else cs.map fun c => if s.usedBy none c.1 own then (c.1, Config.freeByte s.ticks c.1) else c

/-- Marks the commands whose storage a write touches. -/
def State.spoil (s : State) (scratch : Option Nat) (as : List Nat) (own : Option Nat := none) : State :=
  let mark (u : InUse) : InUse :=
    if own != some u.op && !u.own && as.any ((s.useAt u).has scratch ·) then { u with spoiled := true } else u
  if s.uses.isEmpty then s else { s with uses := s.uses.map mark }

/-! ### Entries (R191, R192) -/

/-- A handle entry as a 256-bit number. -/
structure HEnt where
  raw : Nat
  deriving DecidableEq, Repr

def HEnt.base (e : HEnt) : DWord := BitVec.ofNat 64 (natField e.raw 0 64)
def HEnt.len (e : HEnt) : Nat := natField e.raw 64 48
def HEnt.gen (e : HEnt) : BitVec 12 := BitVec.ofNat 12 (natField e.raw 112 12)
def HEnt.kind (e : HEnt) : Nat := natField e.raw 124 4
def HEnt.share (e : HEnt) : BitVec 16 := BitVec.ofNat 16 (natField e.raw 128 16)
def HEnt.rights (e : HEnt) : Nat := natField e.raw 144 4
def HEnt.policy (e : HEnt) : Nat := natField e.raw 148 3
def HEnt.pko (e : HEnt) : Nat := natField e.raw 151 2
def HEnt.soff (e : HEnt) : Nat := natField e.raw 153 18
def HEnt.aux (e : HEnt) : Nat := natField e.raw 192 64

def kGlobal : Nat := 1
def kScratch : Nat := 2
def kMapped : Nat := 3
def kProcedural : Nat := 4
def kBuffer : Nat := 5
def kSampler : Nat := 6
def kHeap : Nat := 7

/-- Rights bits: R, W, A, G. -/
def HEnt.right (e : HEnt) (bit : Nat) : Bool := natBit e.rights bit
def rR : Nat := 0
def rW : Nat := 1
def rA : Nat := 2
def rG : Nat := 3

/-- AUX that its kind refuses (R191, R220, R280, R360). -/
def HEnt.badAux (e : HEnt) : Bool :=
  match e.kind with
  | 4 => 256 ≤ e.aux
  | 5 => 4096 ≤ e.aux
  | 6 => natField e.aux 52 12 != 0 || 2 ≤ natField e.aux 49 2 || 2 ≤ natField e.aux 47 2 || 6 ≤ natField e.aux 44 3
  | _ => e.aux != 0

/-- An invalid entry (R192). A SCRATCH entry uses neither BASE nor POLICY nor PKO (DEDUCED, log entry 13). -/
def HEnt.invalid (e : HEnt) : Bool :=
  let b := e.base.toInt
  e.kind == 0 || 8 ≤ e.kind || natField e.raw 171 21 != 0 || 4 ≤ e.policy ||
    decide (b < -(2 ^ 56)) || decide (2 ^ 56 ≤ b) || decide (2 ^ 56 < b + e.len) ||
    (e.kind == kMapped && (e.base.toNat % 128 != 0 || e.len % 128 != 0 || e.soff % 128 != 0)) ||
    (e.kind != kScratch && e.kind != kMapped && e.soff != 0) ||
    (e.kind == kScratch && (e.base != 0 || e.policy != 0 || e.pko != 0)) || e.badAux

/-! ### Bindings of MAPPED handles (R202) -/

def Team.binding (t : Team) (h : BitVec 12) : Option Binding := t.binds.find? (·.h == h)

def Team.setBinding (t : Team) (b : Binding) : Team :=
  { t with binds := t.binds.map fun x => if x.h == b.h then b else x }

/-- The binding a team makes at its first use of a handle. -/
def freshBinding (h : BitVec 12) (e : HEnt) (made : Nat) : Binding :=
  { h, va := e.base, gen := e.gen, soff := e.soff, len := e.len, base := e.base, valid := [], dirty := [], made, policy := e.policy,
    pko := e.pko }

/-- The current generation of an entry for a team. -/
def Team.genOf (t : Team) (h : BitVec 12) (e : HEnt) : BitVec 12 :=
  if e.kind == kMapped then ((t.binding h).map (·.gen)).getD e.gen else e.gen

/-! ### Resolving a handle operand (R190, R193) -/

/-- What a handle operand leads to. -/
inductive HRes where
  | ok (ix : BitVec 12) (e : HEnt) (s : State)
  | bad (code : BitVec 8) (ix : Word)
  | park (va : DWord) (f : XFault)

/-- Entries that a core's handle cache holds (R190). -/
def handleSize : Nat := 256

/-- Puts an entry into a core's handle cache; past its size the oldest leaves (DESIGN CHOICE, log entry 11). -/
def handleInsert (es : List HandleLine) (e : HandleLine) : List HandleLine :=
  let mine := es.filter fun x => x.die == e.die && x.core == e.core
  let es := if mine.length < handleSize then es
    else match mine.getLast? with
      | some old => es.filter (· != old)
      | none => es
  e :: es

/-- Cached entries of a context leave: its table may have been written between grids (R190; DEDUCED, log entry 84). -/
def dropHandles (s : State) (ctx : Word) : State :=
  { s with caches := { s.caches with handles := s.caches.handles.filter (·.ctx != ctx) } }

/-- Reads the entry of an index whole, from the core's cache or by a translation of the team's core; an error response
halts as that of a walk (R229). -/
def readEntry (s : State) (t : Team) (ix : BitVec 12) : HRes :=
  let c := s.ctxOf t
  let lr := (s.grid? t.grid).map (·.lr)
  let va := (lr.map (·.htbase)).getD 0 + BitVec.ofNat 64 (32 * ix.toNat)
  if (lr.map (·.htlimit)).getD 0 ≤ ix.toNat then .bad codeBounds (ix.setWidth 32)
  else
    let (die, core) := (t.place.die, t.place.core)
    match s.caches.handles.find? fun e => e.die == die && e.core == core && e.ctx == t.ctx && e.va == va with
    | some e => .ok ix ⟨e.raw⟩ s
    | none =>
      match translate s c die core va .read with
      | .error f => .park va f
      | .ok (x, s) =>
        match errorAt s x.pa 32 with
        | some d => .park va (walkError d)
        | none =>
          let raw := leNat (s.seeBytes die core x.pa 32)
          if (List.range 32).any fun i => s.usedBy none (x.pa + i) then .ok ix ⟨raw⟩ s
          else .ok ix ⟨raw⟩ { s with caches := { s.caches with handles := handleInsert s.caches.handles ⟨die, core, t.ctx, va, raw⟩ } }

/-- An operand to its entry: checks of the handle word, the index, the entry and the generation. `any` skips the
validity of the entry (`hquery`, R226); a stale word that names an invalid entry is stale (DEDUCED, log entry 99). -/
def resolve (s : State) (t : Team) (h : HRef) (any : Bool := false) : HRes :=
  match h with
  | .idx ix =>
    match readEntry s t ix with
    | .ok ix e s => if !any && e.invalid then .bad codeStale (ix.setWidth 32) else .ok ix e s
    | r => r
  | .word n =>
    let w := t.sreg n.toNat
    let ix : BitVec 12 := w.setWidth 12
    if w >>> 24 != 0 then .bad codeStale (ix.setWidth 32)
    else
      match readEntry s t ix with
      | .ok ix e s =>
        if (!any && e.invalid) || (w >>> 12).setWidth 12 != t.genOf ix e then .bad codeStale (ix.setWidth 32)
        else .ok ix e s
      | r => r

/-! ### Offsets (R196, R200) -/

/-- The offset of a lane as an exact integer. -/
def memOffset (s : State) (t : Team) (uni : Bool) (L : Nat) (m : MemRef) : Int :=
  let a : Int :=
    if m.o64 then (val64 s t uni L true m.off).toInt
    else ((val32 s t uni L m.off).toNat : Int)
  a + m.imm.toInt

/-- Whether an offset fails HANDLE_BOUNDS for an access of `size` bytes. -/
def outOfRange (e : HEnt) (off : Int) (size : Nat) : Bool := decide (off < 0) || decide ((e.len : Int) < off + size)

/-- A scratchpad region that the allocation does not hold (R200). -/
def regionBad (t : Team) (e : HEnt) : Bool := (e.kind == kScratch || e.kind == kMapped) && t.scratchLen < e.soff + e.len

/-- A fault of the checks of R195 that concerns a handle. -/
def handleFault (code : BitVec 8) (uni : Bool) (lanes : Mask) (ix : Word) : FaultInfo :=
  { code, unif := uni, detail := ix, lanes }

/-- The virtual address of an offset. -/
def HEnt.va (e : HEnt) (off : Int) : DWord := BitVec.ofInt 64 (e.base.toInt + off)

/-- The page kind of an access after the handle's override (R198). -/
def HEnt.kindOf (e : HEnt) (k : PageKind) : PageKind :=
  match e.pko with
  | 1 => .s
  | 2 => PageKind.strongest k .r
  | _ => k

/-! ### Uniform operands -/

/-- The memory operand of a record. -/
def recMem (r : RecRef) : MemRef := { off := r.off, o64 := false, h := r.h, imm := r.imm.signExtend 32, long := false }

/-- The order of R195 for one access of a uniform instruction: generation, index, offset, kind and right, share tag,
alignment. -/
def uniCheck (s : State) (t : Team) (e : HEnt) (ix : BitVec 12) (off : Int) (size align : Nat) (kindOk right : Bool) :
    Option FaultInfo :=
  let f (code : BitVec 8) : Option FaultInfo := some (handleFault code true t.active (ix.setWidth 32))
  let c := s.ctxOf t
  if regionBad t e || outOfRange e off size then f codeBounds
  else if !kindOk || !right then f codePerm
  else if e.share != 0 && !c.shares e.share 0 then f codeShare
  else if off % align != 0 then f codeAlign
  else none

end Sys2Proof.Machine
end

