-- ==== Sys2Proof/Machine/Access.lean ====
section
/-! DEFINITION. Memory accesses of a team's lanes (08 R194 to R218): which handles serve which instruction, the checks
made before any lane accesses memory, the parts of an access, parks, and the L2 and read-only caches. -/

namespace Sys2Proof.Machine

open Host (Cell)

/-! ### Which handle serves which use (R194, 10 R251) -/

inductive Use where
  | ld | st | ldro | samp | lds | sts | pf (ro : Bool) | atom | sig | watch | readRec | engR | engW | chunk
  deriving DecidableEq, Repr

/-- An access of an engine command: to an element (13 R340), or by its first touch of a mapped chunk (13 R341). -/
def Use.engine (u : Use) : Bool := u == .engR || u == .engW || u == .chunk

/-- Kind and right. The handles that `waitaddr` takes are those of a load (DEDUCED, log entry 107). -/
def Use.admits (u : Use) (t : Team) (e : HEnt) : Bool :=
  let one (ks : List Nat) (bit : Nat) : Bool := ks.contains e.kind && e.right bit
  match u with
  | .ld | .watch | .chunk => one [kGlobal, kProcedural, kBuffer, kHeap] rR
  | .readRec => one [kGlobal] rR
  | .st => one [kGlobal, kProcedural, kBuffer] rW || (e.kind == kHeap && e.right rG && t.ctl.genr)
  | .ldro => one [kGlobal, kProcedural, kHeap] rR
  | .samp => one [kSampler] rR
  | .lds => one [kScratch, kMapped] rR
  | .sts => one [kScratch, kMapped] rW
  | .pf ro => one [kGlobal, kProcedural, kBuffer, kHeap] rR || (ro && one [kSampler] rR)
  | .atom => one [kGlobal, kProcedural, kBuffer, kScratch] rA
  | .sig => one [kGlobal, kProcedural, kBuffer] rA
  | .engR => one [kGlobal, kProcedural, kBuffer, kHeap, kScratch, kMapped] rR
  | .engW => one [kGlobal, kProcedural, kBuffer, kScratch, kMapped] rW || (e.kind == kHeap && e.right rG && t.ctl.genr)

/-- Whether a store into the heap stays within a record that the team's items hold (14 R380). -/
def inHeldRecord (s : State) (t : Team) (off : Int) (size : Nat) : Bool :=
  (s.heldItems t.uid).any fun i =>
    match i.what with
    | .tile n _ _ _ heap _ =>
      let len : Nat := if ((s.layer? i.ctx n).map (·.big)).getD false then 2048 else 1024
      decide ((heap * 1024 : Nat) ≤ off) && decide (off + size ≤ (heap * 1024 + len : Nat))
    | .block .. => false

/-! ### The checks of R195 -/

/-- One access by every lane of a list, each at its own offset; `plain` for a load without an order. -/
structure Req where
  t     : Team
  c     : Ctx
  ix    : BitVec 12
  e     : HEnt
  uni   : Bool
  use   : Use
  acc   : Access
  size  : Nat
  align : Nat
  lanes : List (Nat × Int)
  opc   : BitVec 8 := 0
  plain : Bool := false
  tile  : Bool := false
  deriving DecidableEq, Repr

/-- The lanes that a fault or report names: every active lane for a uniform access. -/
def Req.mask (q : Req) (ls : List Nat) : Mask := if q.uni then q.t.active else Mask.ofLanes ls

/-- The offset of an access from the start of its buffer. -/
def bufOff (b : Buf) (e : HEnt) (off : Int) : Nat := ((e.va off - b.base).toNat)

/-- The gate of tiles for one lane (11 R288); a buffer that is not declared takes no tile state (11 R299). -/
def laneGate (s : State) (q : Req) (off : Int) (n : Nat) : TileGate :=
  if q.e.kind != kBuffer then .go
  else match s.bufOf q.c.id q.e.aux with
    | some b => tileGate s q.t b (bufOff b q.e off) n q.acc.writes
    | none => .go

/-- The first failing check of R195 over all lanes. -/
def Req.check (s : State) (q : Req) : Option FaultInfo :=
  let f (code : BitVec 8) (ls : List (Nat × Int)) : Option FaultInfo :=
    if ls.isEmpty then none else some (handleFault code q.uni (q.mask (ls.map (·.1))) (q.ix.setWidth 32))
  let all (b : Bool) : List (Nat × Int) := if b then q.lanes else []
  let stale := q.e.kind == kProcedural && (s.range? q.c.id q.e.aux).isNone
  (f codeStale (all stale)).orElse fun _ =>
  (f codeBounds (q.lanes.filter fun l => outOfRange q.e l.2 q.size)).orElse fun _ =>
  (f codeBounds (all (regionBad q.t q.e))).orElse fun _ =>
  (f codePerm (all (!q.use.admits q.t q.e))).orElse fun _ =>
  (f codePerm (q.lanes.filter fun l =>
    (q.use == .st || q.use == .engW) && q.e.kind == kHeap && !inHeldRecord s q.t l.2 q.size)).orElse fun _ =>
  (f codeShare (all (q.e.share != 0 && !q.c.shares q.e.share 0))).orElse fun _ =>
  (f codeAlign (q.lanes.filter fun l => l.2 % q.align != 0)).orElse fun _ =>
  f codeSealed (q.lanes.filter fun l => q.acc.writes && !q.use.engine && laneGate s q l.2 q.size == .sealed)

/-! ### Parts of an access (R198) -/

/-- The parts of an access between lines: offset and bytes. -/
def partsOf (va : Nat) (off : Int) : Nat → Nat → List (Int × Nat)
  | _, 0 => []
  | 0, _ => []
  | fuel + 1, n =>
    let k := Nat.min n (128 - va % 128)
    (off, k) :: partsOf (va + k) (off + k) fuel (n - k)

/-- Where a part of an access ends; `bad` is the DETAIL of an error response that the access gets there. -/
inductive PartRes where
  | at_ (pa : Nat) (kind : PageKind) (bad : Option Word) (s : State)
  | park (f : XFault) (s : State)
  | wait (w : Wait) (s : State)
  | fault (code : BitVec 8) (detail : Word) (s : State)
  | gone (s : State)

/-- An access to a byte of a procedural block, at an offset in it (14 R361, R362, R367), through a handle of any kind (DEDUCED, log
entry 104). -/
def blockPart (s : State) (q : Req) (r : Range) (b o : Nat) : PartRes :=
  let wait (s : State) : PartRes :=
    match s.blockItem q.c.id r.n b with
    | some i => .wait (.fill [(i.die, i.ix)] q.opc q.uni) s
    | none => .wait .stall s
  let go (x : Block) (s : State) : PartRes := .at_ (x.pa o) (q.e.kindOf .r) none s
  match s.block? q.c.id r.n b with
  | none =>
    if 4 < s.itemDepth q.t.uid then .gone (failChain s q.t.uid)
    else match raiseBlock s r q.c b (s.itemDepth q.t.uid) with
      | some s => wait s
      | none => .wait .stall s
  | some x =>
    match x.st with
    | .filled => go x (if q.acc.writes then s.updBlock q.c.id r.n b fun x => { x with stored := true } else s)
    | .faulted st => .fault codeFillGen (st.setWidth 32) s
    | .filling =>
      match s.blockItem q.c.id r.n b with
      | some i =>
        if i.holder == some q.t.uid && !q.use.engine then go x s
        else if (chainOf s q.t.uid).contains i then .gone (failChain s q.t.uid)
        else wait s
      | none => wait s

/-- One part: tile gate, the procedural block that holds its bytes (14 R361), then translation. A signal meets its home only
when it is performed (10 R274). -/
def partAt (s : State) (q : Req) (off : Int) (n : Nat) : PartRes :=
  match laneGate s q off n with
  | .wait ix => .wait (.tile q.c.id ix) s
  | .sealed => if q.acc.writes then .fault codeSealed (q.ix.setWidth 32) s else .gone s
  | .go =>
    let r : PartRes :=
      match s.blockAt q.c.id (q.e.va off) with
      | some (r, b, o) => blockPart s q r b o
      | none =>
        match translate s q.c q.t.place.die q.t.place.core (q.e.va off) q.acc with
        | .error f => if f.code == codePerm then .fault codePerm (q.ix.setWidth 32) s else .park f s
        | .ok (x, s) => .at_ x.pa (q.e.kindOf x.kind) none s
    match r with
    | .at_ pa k _ s =>
      .at_ pa k (if q.use == .sig then none else if q.acc.reads then errorAt s pa n else if deadHome s pa then some (agentDetail s pa) else none) s
    | r => r

/-! ### Bytes read and written -/

/-- Whether two tiles with disjoint boxes contain one byte of a buffer through aliasing (11 R282). -/
def aliased (s : State) (b : Buf) (off : Nat) : Bool :=
  let ts := s.tiles.tiles.filter fun x => x.live && x.ctx == b.ctx && x.buf == b.no && boxHas b.shape x.lo x.sz off
  ts.any fun x => ts.any fun y => !x.overlaps y

/-- Whether a buffer of another context holds the frame of a physical address (11 R282). -/
def foreignBuffer (s : State) (ctx : Word) (pa : Nat) : Bool :=
  s.tiles.bufs.any fun b => b.ctx != ctx && (match s.ctx? b.ctx with
    | some c => (List.range (b.foot / 2 ^ 15 + 2)).any fun k =>
        (match walk .plain (.of s.mem) c (b.base + BitVec.ofNat 64 (2 ^ 15 * k)) .read with
         | .ok o => decide (2 ^ 15 * k ≤ b.foot + 2 ^ 15) && o.pa / 2 ^ 15 == pa / 2 ^ 15
         | .error _ => false)
    | none => false)

/-- The buffers through which an access reaches its bytes: that of a BUFFER handle, or those of an engine's tile. -/
def Req.bufs (q : Req) (s : State) : List Buf :=
  if q.e.kind == kBuffer then (s.bufOf q.c.id q.e.aux).toList
  else if q.tile then s.tiles.bufs.filter fun b => b.ctx == q.c.id && b.base == q.e.base
  else []

/-- Whether a byte is undefined through its handle: in a heap record that may have been taken again since its release, by its
offset or its place (14 R379), and in buffers whose bytes are shared (11 R282). -/
def openAt (s : State) (q : Req) (off : Int) (a : Nat) : Bool :=
  let inRec (h : HeapRec) (x : Nat) : Bool := h.at_ * 1024 ≤ x && x < h.at_ * 1024 + (if h.big then 2048 else 1024)
  let reused := s.fill.heap.any fun h =>
    h.freed.isSome && !h.busy s && (q.e.kind == kHeap && inRec h off.toNat || s.boot.heap ≤ a && inRec h (a - s.boot.heap))
  reused || (q.bufs s).any fun b => aliased s b (bufOff b q.e off) || foreignBuffer s q.c.id a

/-- A byte as its handle lets it be read. -/
def openByte (s : State) (q : Req) (off : Int) (a : Nat) (b : Byte) : Byte :=
  if openAt s q off a then Config.freeByte s.ticks a else b

/-- A byte as a U load may see it: without the pending writes of its own lane (09 R236). -/
def State.byteBelow (s : State) (die core uid tag a : Nat) : Byte :=
  let cells (o : Op) : List Cell := if o.uid == uid && o.who.contains (a, tag) then [] else o.kind.cells
  if s.usedBy none a then Config.freeByte s.ticks a
  else (cellLookup ((s.queue die core).map cells).flatten a).getD (s.mem.read a)

/-- Whether a tile of the access's buffer contains the byte of an offset. -/
def Req.inTile (q : Req) (s : State) (x : Tile) (off : Int) : Bool :=
  x.live && x.ctx == q.c.id && x.buf == q.e.aux &&
    (s.bufOf q.c.id q.e.aux).any fun b => boxHas b.shape x.lo x.sz (bufOff b q.e off)

/-- Whether an access reads a tile as a tile: an engine's operand, or a byte of a SEALED tile through its buffer, which has the
value that it held when the tile was sealed (11 R288). -/
def Req.calm (q : Req) (s : State) (off : Int) : Bool :=
  q.tile || (q.e.kind == kBuffer && s.tiles.tiles.any fun x => x.st == .sealed && q.inTile s x off)

/-- The lane by which a store's bytes are known: a uniform access has a number of its own. -/
def Req.tag (q : Req) (L : Nat) : Nat := if q.uni then 1024 else L

/-- Whether no other lane of an access reads any of these bytes (R199). -/
def Req.sole (q : Req) (L : Nat) (off : Int) (n : Nat) : Bool :=
  q.lanes.all fun l => l.1 == L || decide (l.2 + q.size ≤ off) || decide (off + n ≤ l.2)

/-- Whether a fence bars a core's reads of the read-only path from a pending reply (09 R244). -/
def RouterRead.bars (r : RouterRead) (p : Place) : Bool := r.barred.any fun b => scopeHolds b.1 b.2 p.die p.core

/-- The replies that a read may be given in a router (09 R243): those of pending reads of its line on the same path; none
after an acquire of one of its lanes. -/
def mergeable (s : State) (q : Req) (ro : Bool) (line : Nat) : List (List Byte) :=
  let late := if q.uni then !(q.t.acquired &&& q.t.active).isEmpty else q.lanes.any fun l => q.t.acquired.has l.1
  if !q.plain || late then []
  else (s.caches.routers.filter fun r => r.ro == ro && r.line == line && (s.op? r.op).isSome && !r.bars q.t.place).map (·.data)

/-- One of the alternatives that the hardware has; the same for every lane of an instruction on one line (DESIGN CHOICE, log entry 24). -/
def pickOne (s : State) (line : Nat) (first : List Byte) (more : List (List Byte)) : List Byte :=
  if more.isEmpty then first else ((first :: more)[Config.freeNat s.ticks line % (more.length + 1)]?).getD first

/-- The bytes of a line as its home holds them. -/
def homeLine (s : State) (line : Nat) : List Byte :=
  (List.range 128).map fun i => let a := line * 128 + i; if s.usedBy none a then Config.freeByte s.ticks a else s.homeByte a

/-- The bytes of a part of a load: what its core sees; on kind U also a reply merged in a router, or what stands below the
lane's own pending writes (09 R236, R243). -/
def loadBytes (s : State) (q : Req) (L : Nat) (off : Int) (pa n : Nat) (k : PageKind) : List Byte :=
  let (die, core) := (q.t.place.die, q.t.place.core)
  let seen := s.seeBytes die core pa n (q.calm s off)
  if k != .u || !q.plain then seen
  else
    let mine := q.sole L off n && (s.queue die core).any fun o => o.uid == q.t.uid && (List.range n).any fun i =>
      o.who.contains (pa + i, q.tag L)
    let below : List (List Byte) := if mine then [(List.range n).map fun i => s.byteBelow die core q.t.uid (q.tag L) (pa + i)] else []
    pickOne s (lineOf pa) seen ((mergeable s q false (lineOf pa)).map (fun d => (d.drop (pa % 128)).take n) ++ below)

/-! ### Read-only cache (R206, R210) -/

def roLines : Nat := 512

/-- Puts a line into a core's read-only cache; the oldest leaves when it is full (DESIGN CHOICE, log entry 11). -/
def roInsert (s : State) (l : RoLine) : State :=
  let mine := s.caches.ro.filter fun x => x.die == l.die && x.core == l.core
  let ro := if mine.length < roLines then s.caches.ro
    else match mine.getLast? with
      | some o => s.caches.ro.filter (· != o)
      | none => s.caches.ro
  { s with caches := { s.caches with ro := l :: ro } }

/-- What a read by the read-only path finds: bytes, and the line that it brings in on a miss. -/
def roRead (s : State) (q : Req) (pa n : Nat) : List Byte × Option (List Byte) × State :=
  let (die, core, line) := (q.t.place.die, q.t.place.core, lineOf pa)
  let part (d : List Byte) : List Byte := (d.drop (pa % 128)).take n
  match s.caches.ro.find? fun l => q.e.policy ≤ 1 && l.die == die && l.core == core && l.line == line with
  | some l => ((part l.data).mapIdx fun i b => if s.usedBy none (pa + i) then Config.freeByte s.ticks (pa + i) else b, none, s)
  | none =>
    let data := pickOne s line (homeLine s line) (mergeable s q true line)
    let used := (List.range 128).any fun i => s.usedBy none (line * 128 + i)
    (part data, some data, if q.e.policy == 0 && !used then roInsert s ⟨die, core, line, data⟩ else s)

/-! ### What goes to L2 -/

/-- Lines of an access that go to L2: none for `direct` (R210). -/
def HEnt.l2Lines (e : HEnt) (ls : List Nat) : List Nat := if e.policy == 3 then [] else ls.eraseDups

/-- Whether a load finds its line in L1. -/
def Req.l1Hit (q : Req) (s : State) (line : Nat) : Bool :=
  q.use == .ld && q.e.policy ≤ 1 && s.caches.l1.contains ⟨q.t.place.die, q.t.place.core, line⟩

/-! ### All lanes -/

/-- What the lanes of an access have met: the state, bytes read by finished lanes, cells written with their lanes, reads that
go to a router, and why the others are not finished: pages, a wait, or an error response with its DETAIL. -/
structure Got where
  s      : State
  data   : List (Nat × List Byte) := []
  cells  : List Cell := []
  pas    : List (Nat × Nat) := []
  strong : Bool := false
  remote : Bool := false
  lines  : List Nat := []
  who    : List (Nat × Nat) := []
  routed : List (Nat × Bool × List Byte) := []
  parks  : List ParkCause := []
  wait   : Option Wait := none
  left   : List Nat := []
  error  : Option Word := none
  deriving DecidableEq, Repr

/-- Two waits of an access: it waits for the items of every block that it has met (14 R363), else for the first; when it
replays it meets again what else it waited for. -/
def Wait.both : Option Wait → Wait → Wait
  | some (.fill is opc u), .fill js _ _ => .fill (is ++ js.filter fun j => !is.contains j) opc u
  | some (.fill is opc u), _ => .fill is opc u
  | _, .fill js opc u => .fill js opc u
  | some w, _ => w
  | none, w => w

/-- The items of the fills that a wait is for. -/
def Wait.items : Option Wait → List (Nat × Nat)
  | some (.fill is _ _) => is
  | _ => []

/-- How the lanes of an access end. -/
inductive Gather where
  | got (g : Got)
  | fault (f : FaultInfo) (g : Got)
  | gone (s : State)

/-- Adds a page that a lane met: one report for each page (16 R423). -/
def addCause (cs : List ParkCause) (c : ParkCause) : List ParkCause :=
  let same (x : ParkCause) : Bool := x.va.toNat / 2 ^ 15 == c.va.toNat / 2 ^ 15 && x.f.code == c.f.code
  if cs.any same then cs.map fun x => if same x then { x with lanes := x.lanes ||| c.lanes } else x else cs ++ [c]

/-- One lane over its parts. `bytes` is what a store writes, from the part's first byte on; `skip` says which bytes a
later lane has already written (R199, R214). -/
def gatherLane (q : Req) (L : Nat) (skip : Int → Bool) :
    Got → List (Int × Nat) → List Byte → List Byte → Bool → Gather
  | g, [], _, acc, ok => .got (if ok then { g with data := g.data ++ [(L, acc)] } else { g with left := g.left ++ [L] })
  | g, (off, n) :: rest, bytes, acc, ok =>
    match partAt g.s q off n with
    | .at_ _ _ (some d) s =>
      gatherLane q L skip { g with s, error := g.error.orElse fun _ => some d } rest (bytes.drop n) acc false
    | .at_ pa k none s =>
      let line := lineOf pa
      let open_ (bs : List Byte) : List Byte := bs.mapIdx fun i b => openByte s q (off + i) (pa + i) b
      let (old, routed, s') : List Byte × List (Nat × Bool × List Byte) × State :=
        if !q.acc.reads then ([], [], s)
        else if q.use == .ldro || q.use == .samp then
          let (bs, miss, s) := roRead s q pa n
          (open_ bs, (miss.toList.map fun d => (line, true, d)), s)
        else
          (open_ (loadBytes s q L off pa n k),
           if k == .u && q.plain && !q.l1Hit s line then [(line, false, homeLine s line)] else [], s)
      let new := if q.use == .st then
          ((bytes.take n).mapIdx fun i b => (off + i, (pa + i, b))).filter fun c => !skip c.1
        else []
      let g : Got := { g with
        s := s', strong := g.strong || k == .s, remote := g.remote || isRemote s q.t.place.die pa,
        cells := g.cells ++ new.map (·.2), lines := g.lines ++ [line], pas := g.pas ++ [(L, pa)],
        who := g.who ++ (if k == .u then new.map fun c => (c.2.1, q.tag L) else []),
        routed := g.routed ++ routed.filter fun r => !g.routed.contains r }
      gatherLane q L skip g rest (bytes.drop n) (acc ++ old) ok
    | .park f s =>
      gatherLane q L skip { g with s, parks := addCause g.parks ⟨q.e.va off, q.mask [L], f⟩ } rest (bytes.drop n) acc false
    | .wait w s =>
      gatherLane q L skip { g with s, wait := some (Wait.both g.wait w) } rest (bytes.drop n) acc false
    | .fault code detail s =>
      .fault { code, unif := q.uni, detail, lanes := q.mask [L], addr := q.e.va off } { g with s }
    | .gone s => .gone s

/-- The end of an access over all its lanes: an error response halts the context once every lane has been translated (10
R252). -/
def gathered (q : Req) (g : Got) : Gather :=
  match g.error with
  | some d => if g.parks.isEmpty && g.wait.isNone then .gone (haltTeam g.s q.t q.opc codeContained d (unif := q.uni)) else .got g
  | none => .got g

/-- Every lane in ascending order; `src` is what each lane stores. -/
def gatherAll (q : Req) (src : Nat → List Byte) (skip : Nat → Int → Bool) : Got → List (Nat × Int) → Gather
  | g, [] => gathered q g
  | g, (L, off) :: rest =>
    match gatherLane q L (skip L) g (partsOf (q.e.va off).toNat off (q.size + 1) q.size) (src L) [] true with
    | .got g => gatherAll q src skip g rest
    | r => r

/-- Ends the pins of a team on blocks: it has replayed (14 R364). -/
def State.unpin (s : State) (uid : Nat) : State :=
  if s.fill.blocks.isEmpty then s
  else s.updFill fun f => { f with blocks := f.blocks.map fun b => { b with pins := b.pins.filter (· != uid) } }

/-! ### Ends shared by memory instructions -/

/-- The team at its place after lanes have finished: a park or a wait with the unfinished lanes. -/
def parkAccess (s : State) (t : Team) (i : Instr) (fs : Option Bool) (uni : Bool) (g : Got) : State :=
  let t := match fs with
    | some b => t.issueFlag b
    | none => t
  let left := if uni then t.active else Mask.ofLanes g.left
  let opc := instrOpc i
  if g.parks.isEmpty then
    s.setTeam { t with status := .waiting (g.wait.getD .stall), unfin := some left }
  else parkTeam s t opc false uni g.parks (some left) (Wait.items g.wait)

/-- Words of a loaded value (R197). -/
def loadWords (w : Width) (sx : Bool) (bs : List Byte) : List Word :=
  let x := leNat bs
  match w with
  | .w8 => [if sx then (BitVec.ofNat 8 x).signExtend 32 else BitVec.ofNat 32 x]
  | .w16 => [if sx then (BitVec.ofNat 16 x).signExtend 32 else BitVec.ofNat 32 x]
  | .w32 => [BitVec.ofNat 32 x]
  | .w64 => [BitVec.ofNat 32 x, BitVec.ofNat 32 (x / 2 ^ 32)]
  | .w128 => (List.range 4).map fun i => BitVec.ofNat 32 (x / 2 ^ (32 * i))

/-- Bytes of a stored value: the low bytes of one, two or four registers. -/
def storeBytes (s : State) (t : Team) (uni : Bool) (L : Nat) (w : Width) (x : Src) : List Byte :=
  match w with
  | .w128 =>
    (List.range 4).flatMap fun i =>
      match x with
      | .v n => leBytes 4 (t.vreg L (n.toNat + i)).toNat
      | .s n => leBytes 4 (t.sreg (n.toNat + i)).toNat
      | _ => leBytes 4 (if i == 0 then val32 s t uni L x else 0).toNat
  | .w64 => leBytes 8 (val64 s t uni L true x).toNat
  | w => leBytes w.bytes (val32 s t uni L x).toNat

/-- The lanes that an access still has to serve, with their offsets. -/
def accLanes (s : State) (t : Team) (uni : Bool) (g : Guard) (m : MemRef) : List (Nat × Int) :=
  let ok := t.eligible g
  let ls := if uni then (if ok.isEmpty then [] else [0])
    else (match t.unfin with
      | some u => ok &&& u
      | none => ok).lanes t.nlanes
  ls.map fun L => (L, memOffset s t uni L m)

end Sys2Proof.Machine
end

