-- ==== Sys2Proof/Machine/Flags.lean ====
section
/-! DEFINITION. Results of integer arithmetic reduced to their type, carries, and the sticky flags and traps of
floating-point and narrow instructions (04 R102, 05 R126 to R132). -/

namespace Sys2Proof.Machine

/-! ### Integer results (04 R102) -/

def IType.minT (ty : IType) : Int := if ty.signed then -(2 ^ (IType.width ty - 1) : Nat) else 0

def IType.maxT (ty : IType) : Int :=
  if ty.signed then (2 ^ (IType.width ty - 1) : Nat) - 1 else (2 ^ IType.width ty : Nat) - 1

/-- Sat of R102. -/
def IType.sat (ty : IType) (x : Int) : Int :=
  if x < IType.minT ty then IType.minT ty else if IType.maxT ty < x then IType.maxT ty else x

/-- Wrap of R102: reduction to W bits, read back in the type. -/
def IType.wrap (ty : IType) (x : Int) : Int :=
  if ty.signed then natToInt (intToNat x (IType.width ty)) (IType.width ty)
  else (intToNat x (IType.width ty) : Nat)

def IType.reduce (ty : IType) (sat : Bool) (x : Int) : Int := if sat then IType.sat ty x else IType.wrap ty x

/-! ### FSTAT (05 R127) -/

/-- Flags placed as in FSTAT[6:0]. -/
abbrev FFlags := BitVec 7

def flagNV : FFlags := 0b0000001
def flagDZ : FFlags := 0b0000010
def flagOF : FFlags := 0b0000100
def flagUF : FFlags := 0b0001000
def flagNX : FFlags := 0b0010000
def flagQLOSS : FFlags := 0b0100000
def flagQSAT : FFlags := 0b1000000

/-- The flags whose trap MODE enables: MODE[12:7] stand for QLOSS, NX, UF, OF, DZ, NV (05 R126). -/
def trapMask (mode : Word) : FFlags :=
  (if mode.getLsbD 7 then flagNV else 0) ||| (if mode.getLsbD 8 then flagDZ else 0) |||
  (if mode.getLsbD 9 then flagOF else 0) ||| (if mode.getLsbD 10 then flagUF else 0) |||
  (if mode.getLsbD 11 then flagNX else 0) ||| (if mode.getLsbD 12 then flagQLOSS else 0)

/-- Reserved bits of MODE and of FSTAT read zero. -/
def modeMask : Word := 0x00009FF7

def fstatMask : Word := 0x0000007F

/-- Writing MODE: an illegal rounding leaves ROUND as it was (05 R126). -/
def writeMode (old w : Word) : Word :=
  let r := w &&& 7
  let r' := if r == 0 || r == 6 || r == 7 then old &&& 7 else r
  (w &&& 0x00009FF0) ||| r'

/-- The controls of the rounding pipeline. -/
structure FCtl where
  rm  : Nat
  daz : Bool
  ftz : Bool
  sat : Bool
  deriving DecidableEq, Repr

/-- MODE with the rounding that RS selects (02 R53): 1 RNE, 2 RTZ, 3 RUP, 4 RDN, 5 RNA. -/
def fctl (mode : Word) (rs : BitVec 3) : FCtl :=
  { rm := if rs == 0 then (mode &&& 7).toNat else rs.toNat, daz := mode.getLsbD 4, ftz := mode.getLsbD 5,
    sat := mode.getLsbD 6 }

/-- The OR of the flags of lanes. -/
def gatherFlags (ls : List Nat) (f : Nat → FFlags) : FFlags := ls.foldl (fun a L => a ||| f L) 0

/-- The lanes that raised an enabled flag. -/
def trapLanes (mode : Word) (ls : List Nat) (f : Nat → FFlags) : Mask :=
  Mask.ofLanes (ls.filter fun L => (f L &&& trapMask mode) != 0)

/-- Adds flags to FSTAT. -/
def Team.orFstat (t : Team) (f : FFlags) : Team :=
  { t with ctl := { t.ctl with fstat := t.ctl.fstat ||| f.setWidth 32 } }

/-- The end of an instruction that raises flags (05 R132): an enabled flag faults with ARITH and nothing is written;
otherwise the result is written and FSTAT gathers the flags. `named` are the lanes a report names. -/
def withFlags (t : Team) (uni : Bool) (f : FFlags) (named : Mask) (r : Team) : Except FaultInfo Team :=
  if (f &&& trapMask t.ctl.mode) != 0 then
    .error { code := codeArith, unif := uni, detail := f.setWidth 32, lanes := named }
  else .ok (r.orFstat f)

end Sys2Proof.Machine
end

