-- ==== Sys2Proof/Machine/FloatFmt.lean ====
section
/-! DEFINITION. Binary floating-point formats and the rounding pipeline (05 R125 to R133): decoding of bit patterns,
exact sums, products, quotients and roots, rounding with flags, and the approximate functions within their bounds.
Bit patterns are natural numbers here. -/

namespace Sys2Proof.Machine

/-- A format: exponent and fraction widths. -/
structure Fmt where
  ebits : Nat
  mbits : Nat
  deriving DecidableEq, Repr

def fmt16 : Fmt := ⟨5, 10⟩
def fmtB16 : Fmt := ⟨8, 7⟩
def fmt32 : Fmt := ⟨8, 23⟩
def fmt64 : Fmt := ⟨11, 52⟩

def Fmt.bias (f : Fmt) : Nat := 2 ^ (f.ebits - 1) - 1
def Fmt.width (f : Fmt) : Nat := 1 + f.ebits + f.mbits
def Fmt.emax (f : Fmt) : Int := f.bias
def Fmt.emin (f : Fmt) : Int := 1 - (f.bias : Int)

/-- Sign bit over exponent field over fraction. -/
def Fmt.make (f : Fmt) (neg : Bool) (e m : Nat) : Nat := b2n neg * 2 ^ (f.width - 1) + e * 2 ^ f.mbits + m

def Fmt.inf (f : Fmt) (neg : Bool) : Nat := f.make neg (2 ^ f.ebits - 1) 0
def Fmt.zero (f : Fmt) (neg : Bool) : Nat := f.make neg 0 0
def Fmt.maxFin (f : Fmt) (neg : Bool) : Nat := f.make neg (2 ^ f.ebits - 2) (2 ^ f.mbits - 1)

/-- The canonical quiet NaN (R125). -/
def Fmt.nan (f : Fmt) : Nat := f.make false (2 ^ f.ebits - 1) (2 ^ (f.mbits - 1))

/-- 1.0. -/
def Fmt.one (f : Fmt) : Nat := f.make false f.bias 0

def Fmt.sign (f : Fmt) (x : Nat) : Bool := natBit x (f.width - 1)
def Fmt.expo (f : Fmt) (x : Nat) : Nat := natField x f.mbits f.ebits
def Fmt.frac (f : Fmt) (x : Nat) : Nat := natField x 0 f.mbits

def Fmt.isNan (f : Fmt) (x : Nat) : Bool := f.expo x == 2 ^ f.ebits - 1 && f.frac x != 0
def Fmt.isSnan (f : Fmt) (x : Nat) : Bool := f.isNan x && !natBit x (f.mbits - 1)
def Fmt.isInf (f : Fmt) (x : Nat) : Bool := f.expo x == 2 ^ f.ebits - 1 && f.frac x == 0
def Fmt.isZero (f : Fmt) (x : Nat) : Bool := f.expo x == 0 && f.frac x == 0
def Fmt.isSub (f : Fmt) (x : Nat) : Bool := f.expo x == 0 && f.frac x != 0

/-- A number m × 2^e with a sign; m = 0 is a zero. -/
structure Num where
  neg : Bool
  m   : Nat
  e   : Int
  deriving DecidableEq, Repr

inductive FVal where
  | nan
  | inf (neg : Bool)
  | num (n : Num)
  deriving DecidableEq, Repr

/-- The value of a pattern. -/
def Fmt.val (f : Fmt) (x : Nat) : FVal :=
  if f.isNan x then .nan
  else if f.isInf x then .inf (f.sign x)
  else if f.expo x == 0 then .num ⟨f.sign x, f.frac x, f.emin - f.mbits⟩
  else .num ⟨f.sign x, f.frac x + 2 ^ f.mbits, (f.expo x : Int) - f.bias - f.mbits⟩

/-- DAZ: a subnormal input reads as zero of its sign. -/
def Fmt.daz (f : Fmt) (c : FCtl) (x : Nat) : Nat := if c.daz && f.isSub x then f.zero (f.sign x) else x

/-- A result with the flags it raises. -/
structure FR where
  v : Nat
  f : FFlags
  deriving DecidableEq, Repr

/-! ### Rounding -/

/-- An exact positive magnitude: m × 2^e, or strictly between m × 2^e and (m + 1) × 2^e when `sticky`. -/
structure Exact where
  neg    : Bool
  m      : Nat
  e      : Int
  sticky : Bool
  deriving DecidableEq, Repr

/-- The exponent of the last place that `p` fraction bits give, not below `floor`. -/
def quantum (p : Nat) (floor : Option Int) (m : Nat) (e : Int) : Int :=
  let q := e + (Nat.log2 m : Nat) - p
  match floor with
  | some fl => if q < fl then fl else q
  | none => q

/-- Multiples of 2^q in a magnitude, with what is left over: quotient, remainder, bits dropped. -/
def splitAt (x : Exact) (q : Int) : Nat × Nat × Nat :=
  if q ≤ x.e then (x.m * 2 ^ (x.e - q).toNat, 0, 0)
  else
    let k := (q - x.e).toNat
    (x.m / 2 ^ k, x.m % 2 ^ k, k)

/-- Rounds a magnitude to a multiple of 2^q by a rounding mode: the multiple, and whether it differs. -/
def roundAt (rm : Nat) (x : Exact) (q : Int) : Nat × Bool :=
  let (n, rem, k) := splitAt x q
  let half := 2 ^ (k - 1)
  let inexact := rem != 0 || x.sticky
  let up :=
    match rm with
    | 1 => k != 0 && (decide (half < rem) || (rem == half && (x.sticky || n % 2 == 1)))
    | 2 => false
    | 3 => !x.neg && inexact
    | 4 => x.neg && inexact
    | _ => k != 0 && decide (half ≤ rem)
  (n + b2n up, inexact)

/-- As `roundAt`, stochastic with a 16-bit draw (R133). -/
def roundStochAt (u : Nat) (x : Exact) (q : Int) : Nat × Bool :=
  let (n, rem, k) := splitAt x q
  (n + b2n (decide (2 ^ 16 ≤ rem * 2 ^ 16 / 2 ^ k + u)), rem != 0 || x.sticky)

/-- The pattern of n × 2^q, which the format represents. -/
def Fmt.encode (f : Fmt) (neg : Bool) (n : Nat) (q : Int) : Nat :=
  if n == 0 then f.zero neg
  else
    let l := Nat.log2 n
    let top := q + (l : Nat)
    if top < f.emin then f.make neg 0 (n * 2 ^ (q - (f.emin - f.mbits)).toNat)
    else f.make neg (top + f.bias).toNat (n * 2 ^ f.mbits / 2 ^ l % 2 ^ f.mbits)

/-- Overflow of R129. -/
def Fmt.overflow (f : Fmt) (c : FCtl) (neg : Bool) : Nat :=
  if c.sat then f.maxFin neg
  else if c.rm == 1 || c.rm == 5 || (c.rm == 3 && !neg) || (c.rm == 4 && neg) then f.inf neg
  else f.maxFin neg

/-- The end of R129 for a rounding function: overflow, underflow after rounding, flushing. -/
def Fmt.finishRound (f : Fmt) (c : FCtl) (x : Exact) (round : Exact → Int → Nat × Bool) : FR :=
  let q := quantum f.mbits (some (f.emin - f.mbits)) x.m x.e
  let (n, inexact) := round x q
  let top := q + (Nat.log2 n : Nat)
  if n != 0 && decide (f.emax < top) then ⟨f.overflow c x.neg, flagOF ||| flagNX⟩
  else
    let q' := quantum f.mbits none x.m x.e
    let n' := (round x q').1
    let tiny := decide (q' + (Nat.log2 n' : Nat) < f.emin)
    let fl := (if inexact then flagNX else 0) ||| (if inexact && tiny then flagUF else 0)
    if c.ftz && n != 0 && decide (top < f.emin) then ⟨f.zero x.neg, fl ||| flagUF ||| flagNX⟩
    else ⟨f.encode x.neg n q, fl⟩

/-- RoundTo with the flags of R129. -/
def Fmt.round (f : Fmt) (c : FCtl) (x : Exact) : FR := f.finishRound c x (roundAt c.rm)

/-- Stochastic rounding (R133); an overflow is handled with RNA. Whether a result is tiny after rounding (R129) is asked of the value
rounded with the same draw at the unbounded exponent (DESIGN CHOICE, log entry 114). -/
def Fmt.roundStoch (f : Fmt) (c : FCtl) (u : Nat) (x : Exact) : FR :=
  f.finishRound { c with rm := 5 } x (roundStochAt u)

/-- `.sat` of R129 and R130. -/
def Fmt.clamp01 (f : Fmt) (sat : Bool) (r : FR) : FR :=
  if !sat then r
  else if f.isNan r.v || f.sign r.v || f.isZero r.v then ⟨f.zero false, r.f⟩
  else if f.one < r.v then ⟨f.one, r.f⟩
  else r

/-! ### Exact results -/

def Num.exact (n : Num) : Exact := ⟨n.neg, n.m, n.e, false⟩

/-- A number as a signed integer at a given exponent not above its own. -/
def Num.at_ (n : Num) (e : Int) : Int := (if n.neg then -1 else 1) * (n.m * 2 ^ (n.e - e).toNat : Nat)

/-- The sum of numbers, exactly. -/
def sumNums (xs : List Num) : Num :=
  let xs' := xs.filter (·.m != 0)
  let e := xs'.foldl (fun e n => if n.e < e then n.e else e) ((xs'.head?.map (·.e)).getD 0)
  let v := xs'.foldl (fun v n => v + n.at_ e) (0 : Int)
  ⟨decide (v < 0), v.natAbs, e⟩

/-- The sign of an exact zero sum (IEEE 754): that of all addends when they are zeros of one sign, else minus only
when rounding down. -/
def zeroSumSign (rm : Nat) (xs : List Num) : Bool :=
  if xs.all (fun n => n.m == 0 && n.neg) then true
  else if xs.all (fun n => n.m == 0 && !n.neg) then false
  else rm == 4

def mulNum (a b : Num) : Num := ⟨a.neg != b.neg, a.m * b.m, a.e + b.e⟩

/-- Rounds a number, a zero keeping the sign given. -/
def Fmt.roundNum (f : Fmt) (c : FCtl) (n : Num) : FR :=
  if n.m == 0 then ⟨f.zero n.neg, 0⟩ else f.round c n.exact

/-- The value of a product, or none for ∞ × 0. -/
def mulVal : FVal → FVal → Option FVal
  | .nan, _ => some .nan
  | _, .nan => some .nan
  | .inf s, .inf r => some (.inf (s != r))
  | .inf s, .num n => if n.m == 0 then none else some (.inf (s != n.neg))
  | .num n, .inf s => if n.m == 0 then none else some (.inf (s != n.neg))
  | .num a, .num b => some (.num (mulNum a b))

/-- The sum of values rounded once; `bad` says that a product was ∞ × 0. A NaN gives NaN quietly, opposite infinities
and a bad product raise NV (R137, R151). -/
def Fmt.sumVals (f : Fmt) (c : FCtl) (bad : Bool) (vs : List FVal) : FR :=
  let pinf := vs.any (· == .inf false)
  let ninf := vs.any (· == .inf true)
  if bad then ⟨f.nan, flagNV⟩
  else if vs.any (· == .nan) then ⟨f.nan, 0⟩
  else if pinf && ninf then ⟨f.nan, flagNV⟩
  else if pinf then ⟨f.inf false, 0⟩
  else if ninf then ⟨f.inf true, 0⟩
  else
    let ns := vs.filterMap fun v => match v with
      | .num n => some n
      | _ => none
    let t := sumNums ns
    if t.m == 0 then ⟨f.zero (zeroSumSign c.rm ns), 0⟩ else f.round c t.exact

/-- Adds NV when an input is a signalling NaN. -/
def Fmt.snans (f : Fmt) (xs : List Nat) (r : FR) : FR :=
  if xs.any f.isSnan then ⟨r.v, r.f ||| flagNV⟩ else r

def Fmt.add (f : Fmt) (c : FCtl) (a b : Nat) : FR :=
  let a := f.daz c a
  let b := f.daz c b
  f.snans [a, b] (f.sumVals c false [f.val a, f.val b])

/-- The pattern with its sign inverted. -/
def Fmt.neg (f : Fmt) (x : Nat) : Nat := if f.sign x then x - 2 ^ (f.width - 1) else x + 2 ^ (f.width - 1)

def Fmt.sub (f : Fmt) (c : FCtl) (a b : Nat) : FR := f.add c a (f.neg b)

def Fmt.mul (f : Fmt) (c : FCtl) (a b : Nat) : FR :=
  let a := f.daz c a
  let b := f.daz c b
  f.snans [a, b] (match mulVal (f.val a) (f.val b) with
    | none => ⟨f.nan, flagNV⟩
    | some .nan => ⟨f.nan, 0⟩
    | some (.inf s) => ⟨f.inf s, 0⟩
    | some (.num n) => f.roundNum c n)

/-- a × b + c, rounded once. -/
def Fmt.fma (f : Fmt) (k : FCtl) (a b c : Nat) : FR :=
  let a := f.daz k a
  let b := f.daz k b
  let c := f.daz k c
  f.snans [a, b, c] (match mulVal (f.val a) (f.val b) with
    | none => f.sumVals k true []
    | some v => f.sumVals k false [v, f.val c])

/-- A quotient of magnitudes with at least `bits` bits, truncated, with its sticky bit. -/
def divExact (neg : Bool) (a b : Num) (bits : Nat) : Exact :=
  let k := bits + 1 + Nat.log2 b.m
  let n := a.m * 2 ^ k
  ⟨neg, n / b.m, a.e - b.e - k, n % b.m != 0⟩

/-- R138. -/
def Fmt.div (f : Fmt) (c : FCtl) (a b : Nat) : FR :=
  let a := f.daz c a
  let b := f.daz c b
  let s := f.sign a != f.sign b
  f.snans [a, b] (match f.val a, f.val b with
    | .nan, _ => ⟨f.nan, 0⟩
    | _, .nan => ⟨f.nan, 0⟩
    | .inf _, .inf _ => ⟨f.nan, flagNV⟩
    | .inf _, .num _ => ⟨f.inf s, 0⟩
    | .num _, .inf _ => ⟨f.zero s, 0⟩
    | .num x, .num y =>
      if y.m == 0 then (if x.m == 0 then ⟨f.nan, flagNV⟩ else ⟨f.inf s, flagDZ⟩)
      else if x.m == 0 then ⟨f.zero s, 0⟩
      else f.round c (divExact s x y (f.mbits + 4)))

/-- The integer square root by bits, from bit i down. -/
def isqrtAux (n : Nat) : Nat → Nat → Nat
  | 0, r => r
  | i + 1, r => isqrtAux n i (if (r + 2 ^ i) * (r + 2 ^ i) ≤ n then r + 2 ^ i else r)

def isqrt (n : Nat) : Nat := isqrtAux n (Nat.log2 n / 2 + 1) 0

/-- The root of a positive number to at least `bits` bits, with its sticky bit. -/
def sqrtExact (a : Num) (bits : Nat) : Exact :=
  let m := if a.e % 2 == 0 then a.m else 2 * a.m
  let e := if a.e % 2 == 0 then a.e else a.e - 1
  let n := m * 2 ^ (2 * bits)
  let r := isqrt n
  ⟨false, r, e / 2 - bits, r * r != n⟩

/-- R138. -/
def Fmt.sqrt (f : Fmt) (c : FCtl) (a : Nat) : FR :=
  let a := f.daz c a
  f.snans [a] (match f.val a with
    | .nan => ⟨f.nan, 0⟩
    | .inf s => if s then ⟨f.nan, flagNV⟩ else ⟨f.inf false, 0⟩
    | .num n =>
      if n.m == 0 then ⟨f.zero n.neg, 0⟩
      else if n.neg then ⟨f.nan, flagNV⟩
      else f.round c (sqrtExact n (f.mbits + 4)))

/-! ### Comparisons -/

/-- An order key of a pattern that is no NaN, −0 below +0. -/
def Fmt.key (f : Fmt) (x : Nat) : Int :=
  let mag := x % 2 ^ (f.width - 1)
  if f.sign x then -(mag : Int) - 1 else mag

/-- As `key`, with the two zeros equal. -/
def Fmt.keyEq (f : Fmt) (x : Nat) : Int := if f.isZero x then 0 else f.key x

/-- minimumNumber, or maximumNumber (R139). -/
def Fmt.minmax (f : Fmt) (c : FCtl) (max : Bool) (a b : Nat) : FR :=
  let a := f.daz c a
  let b := f.daz c b
  f.snans [a, b]
    (if f.isNan a then (if f.isNan b then ⟨f.nan, 0⟩ else ⟨b, 0⟩)
     else if f.isNan b then ⟨a, 0⟩
     else if (f.key a ≤ f.key b) != max then ⟨a, 0⟩ else ⟨b, 0⟩)

/-- The condition of `fsetp` (R141) with its flag. -/
def Fmt.compare (f : Fmt) (c : FCtl) (cond : FCond) (a b : Nat) : Bool × FFlags :=
  let a := f.daz c a
  let b := f.daz c b
  let un := f.isNan a || f.isNan b
  let sn := f.isSnan a || f.isSnan b
  let x := f.keyEq a
  let y := f.keyEq b
  let sig : FFlags := if un then flagNV else 0
  let quiet : FFlags := if sn then flagNV else 0
  match cond with
  | .eq => (!un && x == y, quiet)
  | .ne => (un || x != y, quiet)
  | .lt => (!un && decide (x < y), sig)
  | .le => (!un && decide (x ≤ y), sig)
  | .gt => (!un && decide (y < x), sig)
  | .ge => (!un && decide (y ≤ x), sig)
  | .num => (!un, quiet)
  | .nan => (un, quiet)

/-- The class mask of R142. -/
def Fmt.classOf (f : Fmt) (x : Nat) : Nat :=
  let s := f.sign x
  let b :=
    if f.isSnan x then 0
    else if f.isNan x then 1
    else if f.isInf x then (if s then 2 else 9)
    else if f.isZero x then (if s then 5 else 6)
    else if f.isSub x then (if s then 4 else 7)
    else (if s then 3 else 8)
  2 ^ b

/-! ### Integers and integral values -/

/-- An integer rounded to the format; zero is +0. -/
def Fmt.ofInt (f : Fmt) (c : FCtl) (k : Int) : FR :=
  if k == 0 then ⟨f.zero false, 0⟩ else f.round c ⟨decide (k < 0), k.natAbs, 0, false⟩

/-- A value rounded to an integer clamped to [lo, hi] (R147). -/
def Fmt.toInt (f : Fmt) (c : FCtl) (lo hi : Int) (a : Nat) : Int × FFlags :=
  match f.val (f.daz c a) with
  | .nan => (0, flagNV)
  | .inf s => (if s then lo else hi, flagNV)
  | .num n =>
    if n.m == 0 then (0, 0)
    else
      let (k, inexact) := roundAt c.rm n.exact 0
      let v : Int := if n.neg then -(k : Int) else k
      if hi < v then (hi, flagNV)
      else if v < lo then (lo, flagNV)
      else (v, if inexact then flagNX else 0)

/-- roundToIntegral (R149). -/
def Fmt.integral (f : Fmt) (c : FCtl) (a : Nat) : FR :=
  let a := f.daz c a
  f.snans [a] (match f.val a with
    | .nan => ⟨f.nan, 0⟩
    | .inf s => ⟨f.inf s, 0⟩
    | .num n =>
      if n.m == 0 || decide (0 ≤ n.e) then ⟨a, 0⟩ else ⟨f.encode n.neg (roundAt c.rm n.exact 0).1 0, 0⟩)

/-- A value of one format in another, rounded (R148). -/
def Fmt.convert (src dst : Fmt) (c : FCtl) (a : Nat) : FR :=
  let a := src.daz c a
  src.snans [a] (match src.val a with
    | .nan => ⟨dst.nan, 0⟩
    | .inf s => ⟨dst.inf s, 0⟩
    | .num n => dst.roundNum c n)

/-- As `convert` with a stochastic draw. -/
def Fmt.convertStoch (src dst : Fmt) (c : FCtl) (u a : Nat) : FR :=
  let a := src.daz c a
  src.snans [a] (match src.val a with
    | .nan => ⟨dst.nan, 0⟩
    | .inf s => ⟨dst.inf s, 0⟩
    | .num n => if n.m == 0 then ⟨dst.zero n.neg, 0⟩ else dst.roundStoch c u n.exact)

/-- The controls of RNE with nothing flushed and no saturation. -/
def ctlRne : FCtl := ⟨1, false, false, false⟩

/-! ### ldexp, mantissa, exponent (R150) -/

/-- An exponent step beyond the range of any format changes nothing further. -/
def clampExp (b : Int) : Int := if b < -8192 then -8192 else if 8192 < b then 8192 else b

def Fmt.ldexp (f : Fmt) (c : FCtl) (a : Nat) (b : Int) : FR :=
  let a := f.daz c a
  f.snans [a] (match f.val a with
    | .nan => ⟨f.nan, 0⟩
    | .inf s => ⟨f.inf s, 0⟩
    | .num n => f.roundNum c { n with e := n.e + clampExp b })

def Fmt.mant (f : Fmt) (c : FCtl) (a : Nat) : FR :=
  let a := f.daz c a
  f.snans [a] (match f.val a with
    | .nan => ⟨f.nan, 0⟩
    | .inf s => ⟨f.inf s, 0⟩
    | .num n => if n.m == 0 then ⟨a, 0⟩ else ⟨f.encode n.neg n.m (-(Nat.log2 n.m : Nat) - 1), 0⟩)

/-- The exponent as an integer; `big` stands for infinities and NaNs. -/
def Fmt.exponent (f : Fmt) (c : FCtl) (a : Nat) (big : Int) : Int × FFlags :=
  let a := f.daz c a
  match f.val a with
  | .nan => (big, if f.isSnan a then flagNV else 0)
  | .inf _ => (big, 0)
  | .num n => (if n.m == 0 then 0 else n.e + (Nat.log2 n.m : Nat) + 1, 0)

/-! ### Approximate functions (R143 to R145)

A faithful function returns one of the two neighbours of the exact value, which one being free. The others return the
value rounded to nearest, moved by a free number of places as long as the bound of R143 holds. -/

/-- The two flags of an approximate result: OF for an infinity, UF for a zero or subnormal; FTZ acts last. Beyond the range R143
leaves the neighbour open: infinity stands (DESIGN CHOICE, log entry 101). -/
def Fmt.approxEnd (f : Fmt) (c : FCtl) (neg : Bool) (n : Nat) (q : Int) : FR :=
  let top := q + (Nat.log2 n : Nat)
  if n != 0 && decide (f.emax < top) then ⟨f.inf neg, flagOF⟩
  else if n == 0 then ⟨f.zero neg, flagUF⟩
  else if top < f.emin then (if c.ftz then ⟨f.zero neg, flagUF⟩ else ⟨f.encode neg n q, flagUF⟩)
  else ⟨f.encode neg n q, 0⟩

/-- A neighbour of an exact value: the value itself when it is representable. -/
def Fmt.faithful (f : Fmt) (c : FCtl) (fn input : Nat) (x : Exact) : FR :=
  let q := quantum f.mbits (some (f.emin - f.mbits)) x.m x.e
  let (n, rem, _) := splitAt x q
  let up := (rem != 0 || x.sticky) && Config.faithfulUp fn (f.width * 2 ^ 8 + f.ebits) input
  f.approxEnd c x.neg (n + b2n up) q

/-- R143, R144. -/
def Fmt.rcp (f : Fmt) (c : FCtl) (a : Nat) : FR :=
  let a := f.daz c a
  f.snans [a] (match f.val a with
    | .nan => ⟨f.nan, 0⟩
    | .inf s => ⟨f.zero s, 0⟩
    | .num n =>
      if n.m == 0 then ⟨f.inf n.neg, flagDZ⟩
      else f.faithful c 1 a (divExact n.neg ⟨false, 1, 0⟩ n (f.mbits + 4)))

/-- 1 ÷ √a to at least `bits` bits, truncated. -/
def rsqExact (a : Num) (bits : Nat) : Exact :=
  let m := if a.e % 2 == 0 then a.m else 2 * a.m
  let e := if a.e % 2 == 0 then a.e else a.e - 1
  let k := bits + Nat.log2 m
  let r := isqrt (2 ^ (2 * k) / m)
  ⟨false, r, -(e / 2) - k, r * r * m != 2 ^ (2 * k)⟩

/-- R143, R144. -/
def Fmt.rsq (f : Fmt) (c : FCtl) (a : Nat) : FR :=
  let a := f.daz c a
  f.snans [a] (match f.val a with
    | .nan => ⟨f.nan, 0⟩
    | .inf s => if s then ⟨f.nan, flagNV⟩ else ⟨f.zero false, 0⟩
    | .num n =>
      if n.m == 0 then ⟨f.inf n.neg, flagDZ⟩
      else if n.neg then ⟨f.nan, flagNV⟩
      else f.faithful c 2 a (rsqExact n (f.mbits + 4)))

/-- Fraction bits of the fixed-point numbers of the transcendental functions. -/
def fixBits : Nat := 256

/-- ln 2 × 2^256, truncated. -/
def ln2Fix : Nat := 0xb17217f7d1cf79abc9e3b39803f2f6af40f343267298b62d8a0d175b8baafa2b

/-- 2π × 2^640, truncated. -/
def twoPiFix : Nat :=
  0x6487ed5110b4611a62633145c06e0e68948127044533e63a0105df531d89cd9128a5043cc71a026ef7ca8cd9e69d218d98158536f92f8a1ba7f09ab6b6a8e122f242dabb312f3f637a262174d31bf6b58

/-- Σ y^k ÷ k!, in fixed point. -/
def expFix (y : Nat) : Nat :=
  ((List.range 70).foldl (fun (acc : Nat × Nat) k => (acc.1 + acc.2, acc.2 * y / 2 ^ fixBits / (k + 1)))
    (0, 2 ^ fixBits)).1

/-- 2^y for a fixed-point fraction y in [0, 1). -/
def exp2Fix (y : Nat) : Nat := expFix (y * ln2Fix / 2 ^ fixBits)

/-- The fraction bits of log₂ m for m in [1, 2), both in fixed point: repeated squaring. -/
def log2Fix (m : Nat) : Nat :=
  ((List.range 120).foldl
    (fun (acc : Nat × Nat) k =>
      let sq := acc.2 * acc.2 / 2 ^ fixBits
      if 2 ^ (fixBits + 1) ≤ sq then (acc.1 + 2 ^ (fixBits - 1 - k), sq / 2) else (acc.1, sq))
    (0, m)).1

/-- sin and cos of a fixed-point angle. -/
def sinCosFix (y : Int) : Int × Int :=
  let r := (List.range 100).foldl
    (fun (acc : Int × Int × Int) k =>
      let (sn, cs, term) := acc
      let next := term * y / (2 ^ fixBits : Nat) / (k + 1 : Nat)
      match k % 4 with
      | 0 => (sn, cs + term, next)
      | 1 => (sn + term, cs, next)
      | 2 => (sn, cs - term, next)
      | _ => (sn - term, cs, next))
    ((0 : Int), (0 : Int), ((2 ^ fixBits : Nat) : Int))
  (r.1, r.2.1)

/-- The value v × 2^−256 rounded to nearest in the format and moved by `steps` places when the distance from the exact
value then stays within `bound` × 2^−256. In a 16-bit format no element may lie within the bound: the nearest stands (DEDUCED, log
entry 102). -/
def Fmt.near (f : Fmt) (c : FCtl) (v : Int) (e : Int) (bound : Nat) (steps : Int) : FR :=
  let x : Exact := ⟨decide (v < 0), v.natAbs, e, false⟩
  let q := quantum f.mbits (some (f.emin - f.mbits)) x.m x.e
  let n := (roundAt 1 x q).1
  let moved := (n : Int) + steps
  let (base, _, k) := splitAt x q
  let dist : Int := (moved - base) * (2 ^ k : Nat) - (x.m % 2 ^ k : Nat)
  if decide (0 ≤ moved) && decide (dist.natAbs ≤ bound) && k != 0 then f.approxEnd c x.neg moved.toNat q
  else f.approxEnd c x.neg n q

/-- R143, R144: 2^a. An a of 2^16 or more in magnitude, and an integer a without an element for 2^a, are settled by DESIGN CHOICE,
DESIGN CHOICE, log entry 101. -/
def Fmt.exp2 (f : Fmt) (c : FCtl) (a : Nat) : FR :=
  let a := f.daz c a
  f.snans [a] (match f.val a with
    | .nan => ⟨f.nan, 0⟩
    | .inf s => if s then ⟨f.zero false, 0⟩ else ⟨f.inf false, 0⟩
    | .num n =>
      if n.m == 0 then ⟨f.one, 0⟩
      else if decide (16 ≤ n.e + (Nat.log2 n.m : Nat)) then
        (if n.neg then ⟨f.zero false, flagUF⟩ else ⟨f.inf false, flagOF⟩)
      else
        let w : Int := if n.e < -(fixBits : Int) then n.at_ n.e / (2 ^ (-(fixBits : Int) - n.e).toNat : Nat)
          else n.at_ (-(fixBits : Int))
        let ip := w / (2 ^ fixBits : Nat)
        let fp := (w % (2 ^ fixBits : Nat)).toNat
        let y := exp2Fix fp
        -- an integer exponent is exact; otherwise two places of the result
        if fp == 0 then f.near c 1 ip 0 0
        else
          let e := ip - fixBits
          let q := quantum f.mbits (some (f.emin - f.mbits)) y e
          f.near c y e (2 * 2 ^ (q - e).toNat) (Config.approxError 3 (f.width * 2 ^ 8 + f.ebits) a))

/-- R143, R144: log₂ a, within 2 places outside [0.75, 1.5] and within 2^−22 inside. -/
def Fmt.log2 (f : Fmt) (c : FCtl) (a : Nat) : FR :=
  let a := f.daz c a
  f.snans [a] (match f.val a with
    | .nan => ⟨f.nan, 0⟩
    | .inf s => if s then ⟨f.nan, flagNV⟩ else ⟨f.inf false, 0⟩
    | .num n =>
      if n.m == 0 then ⟨f.inf true, flagDZ⟩
      else if n.neg then ⟨f.nan, flagNV⟩
      else
        let l := Nat.log2 n.m
        let ip := n.e + (l : Nat)
        let fp := log2Fix (n.m * 2 ^ fixBits / 2 ^ l)
        let v := ip * (2 ^ fixBits : Nat) + fp
        if v == 0 then ⟨f.zero false, 0⟩
        else if fp == 0 then f.near c ip 0 0 0
        else
          let inside := f.make false (f.bias - 1) (2 ^ (f.mbits - 1)) ≤ a ∧ a ≤ f.make false f.bias (2 ^ (f.mbits - 1))
          let q := quantum f.mbits (some (f.emin - f.mbits)) v.natAbs (-(fixBits : Int))
          let bound := if inside then 2 ^ (fixBits - 22) else 2 * 2 ^ (q + fixBits).toNat
          f.near c v (-(fixBits : Int)) bound (Config.approxError 4 (f.width * 2 ^ 8 + f.ebits) a))

/-- The angle of a finite value modulo 2π, in fixed point. -/
def reduceAngle (n : Num) : Int :=
  let x : Nat := if n.e < -640 then n.m / 2 ^ (-640 - n.e).toNat else n.m * 2 ^ (n.e + 640).toNat
  let r : Nat := x % twoPiFix / 2 ^ (640 - fixBits)
  if n.neg then -(r : Int) else r

/-- R143 to R145: sine (`cosine` false) or cosine, within 2^−21. -/
def Fmt.sincos (f : Fmt) (c : FCtl) (cosine : Bool) (a : Nat) : FR :=
  let a := f.daz c a
  f.snans [a] (match f.val a with
    | .nan => ⟨f.nan, 0⟩
    | .inf _ => ⟨f.nan, flagNV⟩
    | .num n =>
      if n.m == 0 then (if cosine then ⟨f.one, 0⟩ else ⟨a, 0⟩)
      else
        let (sn, cs) := sinCosFix (reduceAngle n)
        f.near c (if cosine then cs else sn) (-(fixBits : Int)) (2 ^ (fixBits - 21))
          (Config.approxError (if cosine then 6 else 5) (f.width * 2 ^ 8 + f.ebits) a))

/-! ### Elements of floating-point operands -/

def FType.fmt : FType → Fmt
  | .f32 => fmt32
  | .f16x2 => fmt16
  | .bf16x2 => fmtB16
  | .f64 => fmt64

def FType.elems : FType → Nat
  | .f16x2 | .bf16x2 => 2
  | _ => 1

/-- A constant of R50 in a position of the type: converted RNE to the element format and placed in every element. -/
def constF (ty : FType) (n : Nat) : Nat :=
  let w := (constF32 n).toNat
  match ty with
  | .f32 => w
  | .f64 => if constIsPattern n then w else (fmt32.convert fmt64 ctlRne w).v
  | .f16x2 => if constIsPattern n then w else let h := (fmt32.convert fmt16 ctlRne w).v; h + h * 2 ^ 16
  | .bf16x2 => if constIsPattern n then w else let h := (fmt32.convert fmtB16 ctlRne w).v; h + h * 2 ^ 16

/-- An FP32 immediate in an .f64 position, converted exactly; a NaN keeps its quiet bit and payload. -/
def widenImm (w : Word) : Nat :=
  if fmt32.isNan w.toNat then fmt64.make (fmt32.sign w.toNat) 2047 (fmt32.frac w.toNat * 2 ^ 29)
  else (fmt32.convert fmt64 ctlRne w.toNat).v

/-- An operand of a floating-point type as a bit pattern of 32 or 64 bits. -/
def valF (s : State) (t : Team) (uni : Bool) (L : Nat) (ty : FType) (x : Src) : Nat :=
  match x with
  | .k n => constF ty n.toNat
  | .imm w => if ty.wide then widenImm w else w.toNat
  | _ => if ty.wide then (val64 s t uni L false x).toNat else (val32 s t uni L x).toNat

/-- Element e of a floating-point operand. -/
def FType.elem (ty : FType) (x e : Nat) : Nat := natField x (16 * e) (Fmt.width (FType.fmt ty))

/-- Packs element results and gathers their flags. -/
def FType.pack (ty : FType) (f : Nat → FR) : FR :=
  (List.range (FType.elems ty)).foldl
    (fun r e => let x := f e; ⟨r.v + x.v * 2 ^ (16 * e), r.f ||| x.f⟩) ⟨0, 0⟩

end Sys2Proof.Machine
end

