-- ==== Sys2Proof/Machine/Memory.lean ====
section
/-! DEFINITION. Memory instructions (08 R211 to R226): loads, stores, the read-only path, the scratchpad, sampling,
prefetch and handle instructions. -/

namespace Sys2Proof.Machine

open Host (Cell)

/-! ### The way of a memory instruction to its accesses -/

/-- A team whose handle entry cannot be read: it parks; PERM stops it. -/
def entryParked (s : State) (t : Team) (i : Instr) (fs : Option Bool) (uni : Bool) (mask : Mask) (va : DWord) (f : XFault) :
    State :=
  if f.code == codePerm then
    takeFault s t i { code := codePerm, unif := uni, detail := 0xFFF, lanes := mask, addr := va }
  else
    let t := match fs with
      | some b => t.issueFlag b
      | none => t
    parkTeam s t (instrOpc i) false uni [⟨va, mask, f⟩] (some mask)

def parkEntry (s : State) (t : Team) (i : Instr) (fs : Option Bool) (uni : Bool) (mask : Mask) (va : DWord) (f : XFault) :
    Out := .next (entryParked s t i fs uni mask va f)

/-- A handle operand resolved for an instruction, or the fault or park that ends it. -/
def withHandle (s : State) (t : Team) (i : Instr) (fs : Option Bool) (uni : Bool) (mask : Mask) (h : HRef)
    (go : BitVec 12 → HEnt → State → Out) : Out :=
  match resolve s t h with
  | .bad code ix => .next (takeFault s t i (handleFault code uni mask ix))
  | .park va f => parkEntry s t i fs uni mask va f
  | .ok ix e s => go ix e s

/-- A checked request (R195); an instruction without eligible lanes ends at once. -/
def request (s : State) (t : Team) (i : Instr) (fs : Option Bool) (uni : Bool) (g : Guard) (m : MemRef) (use : Use)
    (acc : Access) (size align : Nat) (go : Req → State → Out) : Out :=
  let ls := accLanes s t uni g m
  if ls.isEmpty then .next (s.setTeam (t.advance i))
  else
    withHandle s t i fs uni (if uni then t.active else Mask.ofLanes (ls.map (·.1))) m.h fun ix e s =>
      let q : Req := { t, c := s.ctxOf t, ix, e, uni, use, acc, size, align, lanes := ls, opc := instrOpc i }
      match q.check s with
      | some f => .next (takeFault s t i f)
      | none => go q s

/-- The words of finished lanes written to the destination. -/
def Team.writeGot (t : Team) (d : Dst) (w : Width) (sx : Bool) (data : List (Nat × List Byte)) : Team :=
  t.writeDst (Mask.ofLanes (data.map (·.1))) d fun L =>
    loadWords w sx (((data.find? (·.1 == L)).map (·.2)).getD [])

/-- What an operation delivers for finished lanes. -/
def deliverOf (d : Dst) (w : Width) (sx : Bool) (data : List (Nat × List Byte)) : Deliver :=
  ⟨d, data.map fun x => (x.1, loadWords w sx x.2)⟩

/-- Class of a team's context for L2 insertion. -/
def Req.cls (q : Req) : BitVec 2 := q.c.cls

/-- The kind of a request in its waiter record (R208). -/
def Use.record (u : Use) : Nat :=
  match u with
  | .ld | .lds | .sts | .pf _ | .watch | .readRec => 0
  | .ldro | .samp => 1
  | .st => 2
  | .atom | .sig => 3
  | .chunk => 4
  | .engR | .engW => 5

/-- The pass of a lane: its rank among the lanes of the access in its column (01 R19). -/
def Req.pass (q : Req) (L : Nat) : Nat := (q.lanes.filter fun l => l.1 % 32 == L % 32 && l.1 < L).length

/-- The waiter record of a lane's request (R208). -/
def Req.waiter (q : Req) (op L pa : Nat) : Waiter :=
  { op, kind := q.use.record, sb := none, width := Nat.log2 q.size, off := pa % 128, pass := q.pass L, slot := q.t.place.slot,
    core := q.t.place.core, die := q.t.place.die % 4, pkg := q.t.place.die / 4 }

/-- The record of a fill by a team's map unit (R203, R208); `op` is the command that it is for, or the team's own name. -/
def mapWaiter (t : Team) (op : Nat) : Waiter :=
  { op, kind := 4, sb := none, width := 7, off := 0, pass := 0, slot := t.place.slot, core := t.place.core, die := t.place.die % 4,
    pkg := t.place.die / 4 }

/-- The requests of an access: one for each line of each pass. -/
def Req.asks (q : Req) (op : Nat) (pas : List (Nat × Nat)) : List (Nat × Waiter) :=
  pas.foldl (fun xs p =>
    let w := q.waiter op p.1 p.2
    if xs.any fun x => x.1 == lineOf p.2 && x.2.pass == w.pass then xs else xs ++ [(lineOf p.2, w)]) []

/-- Lines of an operation that its die holds in E are M once its write is performed (11 R292). -/
def State.dirtied (s : State) (o : Op) : State :=
  o.lines.foldl (fun s l => match l2Home s l with
    | some home =>
      let who := lineRequester o.die home l
      if home != o.die && s.heldLine who l == .e then s.setHeldLine who l .m else s
    | none => s) s

/-- Reads that routers hold pending for an operation (09 R243). -/
def State.route (s : State) (op : Nat) (xs : List (Nat × Bool × List Byte)) : State :=
  if xs.isEmpty then s
  else { s with caches := { s.caches with
    routers := s.caches.routers.filter (fun r => (s.op? r.op).isSome) ++ xs.map fun x => ⟨op, x.1, x.2.1, x.2.2, []⟩ } }

/-- Whether a lane acts under its team's tenure: its line belongs in the L2 of the team's die (11 R288, R291). -/
def Req.tenured (q : Req) (s : State) (L : Nat) : Bool :=
  q.e.kind == kBuffer && (q.lanes.find? (·.1 == L)).any fun l =>
    s.tiles.tiles.any fun x => x.st == .opened && x.holder == some q.t.who && q.inTile s x l.2

/-- How a team's access asks for a line. -/
def Req.lineUse (q : Req) (own : Bool) : LineUse :=
  { die := q.t.place.die, core := q.t.place.core, write := q.acc.writes, own, atHome := q.acc == .atomic }

/-- Sends an issued operation's requests to L2 and to the homes of their lines, but for lines that L1 holds, and notes the reads
that are pending in routers. -/
def Req.toL2 (q : Req) (s : State) (op : Nat) (g : Got) : State :=
  let miss := g.pas.filter fun p => q.e.policy != 3 && !q.l1Hit s (lineOf p.2)
  let (own, rest) := miss.partition fun p => q.acc != .atomic && q.tenured s p.1
  let (die, core) := (q.t.place.die, q.t.place.core)
  let stream := q.e.policy == 1
  let s := s.updOp op fun o => { o with lines := g.lines.eraseDups, who := g.who }
  let s := l2Request (l2Request s q.cls stream (q.lineUse false) (q.asks op rest)) q.cls stream (q.lineUse true) (q.asks op own)
  let s := if q.use == .ld && q.e.policy == 0 then
      (miss.map fun p => lineOf p.2).eraseDups.foldl (fun s l => l1Insert s ⟨die, core, l⟩) s
    else s
  s.route op g.routed

/-- Whether a queued signal of a team has a location in one of these lines (09 R233). -/
def State.sigOn (s : State) (uid : Nat) (lines : List Nat) : Bool :=
  s.ops.any fun o => o.uid == uid && (match o.kind with
    | .sig as .. => as.any fun a => lines.contains (lineOf a)
    | _ => false)

/-- A signal of the team that is not performed holds back its later releases. -/
def State.sigsOut (s : State) (uid : Nat) : Bool :=
  s.ops.any fun o => o.uid == uid && (match o.kind with
    | .sig .. => true
    | _ => false)

/-- Whether an access waits for queued signals of its team: one on its lines comes before it in the coherence order (09
R233), and accesses of kind S are in program order (09 R234; DEDUCED, log entry 105). -/
def State.behindSig (s : State) (uid : Nat) (g : Got) : Bool := s.sigOn uid g.lines || (g.strong && s.sigsOut uid)

/-- Whether the lanes that an access has served, or the one that it serves, come behind queued signals of its team: then the
access waits before any of them takes effect. -/
def State.heldBack (s : State) (uid : Nat) (r : Gather) : Bool :=
  match r with
  | .got g | .fault _ g => s.behindSig uid g
  | .gone _ => false

/-! ### ld, ldro (R216, R218) -/

/-- The lanes of an acquire access have made an acquire (09 R243). -/
def Team.acquire (t : Team) (uni : Bool) (g : Guard) : Team :=
  { t with acquired := t.acquired ||| (if uni then t.active else t.eligible g) }

def loadMeaning (s : State) (i : Instr) (x : MemAcc) (sx : Bool) (d : Dst) (use : Use) : Out :=
  longOp s x.fs fun t =>
    if !allocOk t d [x.m.off] then .next (takeFault s t i illop)
    else
      let uni := isUni d [x.m.off]
      let align := if x.ord == .plain then 1 else x.w.bytes
      request s t i (some x.fs) uni x.g x.m use .read x.w.bytes align fun q s0 =>
        let q := { q with plain := x.ord == .plain }
        let r := gatherAll q (fun _ => []) (fun _ _ => false) { s := s0 } q.lanes
        if use == .ld && s0.heldBack t.uid r then waitHere s0 t .stall
        else match r with
        | .gone s => .next (s.unpin t.uid)
        | .fault f g => .next (takeFault (g.s.unpin t.uid) (t.writeGot d x.w sx g.data) i f)
        | .got g =>
          let s := g.s.unpin t.uid
          if !g.left.isEmpty then .next (parkAccess s (t.writeGot d x.w sx g.data) i (some x.fs) uni g)
          else
            let k := OpKind.load (deliverOf d x.w sx g.data) g.remote
            let t := if x.ord == .plain then t else t.acquire uni x.g
            let s' := if g.remote then issueRemote s t i x.fs k else issueOp s t i x.fs k
            .next (q.toL2 s' s.nextOp g)

/-- R216. -/
def execLd (x : MemAcc) (sx : Bool) (d : Dst) (s : State) : Out := loadMeaning s (.ld x sx d) x sx d .ld

/-- R218. -/
def execLdro (x : MemAcc) (sx : Bool) (d : Dst) (s : State) : Out := loadMeaning s (.ldro x sx d) x sx d .ldro

/-! ### st (R216, R217) -/

/-- Whether a lane above L that finished before a park has written the byte of an offset: no lower lane writes it again
(R199). -/
def finishedSpans (s : State) (t : Team) (uni : Bool) (g : Guard) (m : MemRef) (size : Nat) (L : Nat) (o : Int) : Bool :=
  match t.unfin with
  | none => false
  | some u =>
    ((t.eligible g).diff u).lanes t.nlanes |>.any fun L' =>
      decide (L < L') && decide (memOffset s t uni L' m ≤ o) && decide (o < memOffset s t uni L' m + size)

/-- Performs cells at once, behind the records that wait for their lines (R208) and the core's earlier stores to the same
bytes, or behind all of these. -/
def performNow (s : State) (t : Team) (all : Bool) (cs : List Cell) : State :=
  let s := s.settle (cs.map (·.1))
  let s := if all then s.drainCore t.place.die t.place.core
    else s.drainBytes t.place.die t.place.core (cs.map (·.1))
  s.writeMem cs

/-- Cells that a store leaves, with the commands whose storage it touches marked. -/
def usedCells (s : State) (cs : List Cell) : State × List Cell := (s.spoil none (cs.map (·.1)), s.storeCells cs)

/-- R216. -/
def execSt (x : MemAcc) (c : Src) (s : State) : Out :=
  let i := Instr.st x c
  longOp s x.fs fun t =>
    if !allocOk t .none [x.m.off, c] then .next (takeFault s t i illop)
    else
      let uni := isUni .none [x.m.off, c]
      let size := x.w.bytes
      let strict := x.ord != .plain
      request s t i (some x.fs) uni x.g x.m .st .write size (if strict then size else 1) fun q s0 =>
        let r := gatherAll q (fun L => storeBytes s0 t uni L x.w c) (finishedSpans s0 t uni x.g x.m size) { s := s0 } q.lanes
        if strict && s0.sigsOut t.uid || s0.heldBack t.uid r then waitHere s0 t .stall
        else match r with
        | .gone s => .next (s.unpin t.uid)
        | .fault f g =>
          let (s, cs) := usedCells g.s g.cells
          .next (takeFault ((performNow s t strict cs).unpin t.uid) t i f)
        | .got g =>
          let (s, cs) := usedCells (g.s.unpin t.uid) g.cells
          if !g.left.isEmpty then .next (parkAccess (performNow s t strict cs) t i (some x.fs) uni g)
          else
            let now := g.strong || x.ord == .sc
            let s := if now then performNow s t (x.ord != .plain) cs else s
            let k := OpKind.store (if now then [] else cs) g.remote strict
            .next (q.toL2 (issueOp s t i x.fs k) s.nextOp g)

/-! ### Records

Instructions that run once for the team read a record as one plain load: through a handle, or at a virtual address. -/

/-- The access of a record after the checks of R195, or the state in which these end the instruction. -/
def recReq (s : State) (t : Team) (i : Instr) (fs : Option Bool) (use : Use) (r : RecRef) (size align : Nat) :
    Except State (Req × State) :=
  match resolve s t r.h with
  | .bad code ix => .error (takeFault s t i (handleFault code true t.active ix))
  | .park va f => .error (entryParked s t i fs true t.active va f)
  | .ok ix e s =>
    let q : Req :=
      { t, c := s.ctxOf t, ix, e, uni := true, use, acc := .read, size, align, lanes := [(0, memOffset s t true 0 (recMem r))],
        opc := instrOpc i }
    match q.check s with
    | some f => .error (takeFault s t i f)
    | none => .ok (q, s)

/-- The bytes of a checked record, or the state in which a park, a wait, a fault or a halt leaves the team. -/
def recBytes (s : State) (t : Team) (i : Instr) (fs : Option Bool) (q : Req) : Except State (List Byte × State) :=
  let r := gatherAll q (fun _ => []) (fun _ _ => false) { s } q.lanes
  if s.heldBack t.uid r then .error (s.setTeam { t with status := .waiting .stall })
  else match r with
    | .gone s => .error (s.unpin t.uid)
    | .fault f g => .error (takeFault (g.s.unpin t.uid) t i f)
    | .got g =>
      let s := g.s.unpin t.uid
      if g.left.isEmpty then .ok (((g.data.head?).map (·.2)).getD [], s) else .error (parkAccess s t i fs true g)

/-- Reads a record through its handle. -/
def readRecord (s : State) (t : Team) (i : Instr) (fs : Option Bool) (use : Use) (r : RecRef) (size align : Nat) :
    Except State (List Byte × State) :=
  match recReq s t i fs use r size align with
  | .error s => .error s
  | .ok (q, s) => recBytes s t i fs q

/-- The entry by which bytes are reached from a virtual address, with no handle of their own. -/
def vaEntry (base : DWord) : HEnt := ⟨base.toNat + kGlobal * 2 ^ 124⟩

/-- Reads a record at a virtual address. -/
def recordAt (s : State) (t : Team) (i : Instr) (fs : Option Bool) (va : DWord) (size : Nat) : Except State (List Byte × State) :=
  recBytes s t i fs
    { t, c := s.ctxOf t, ix := 0xFFF, e := vaEntry va, uni := true, use := .ld, acc := .read, size, align := 1, lanes := [(0, 0)],
      opc := instrOpc i }

/-! ### lds, sts (R200 to R203, R219) -/

/-- A byte of a team's scratchpad as its accesses see it. -/
def scratchByte (s : State) (t : Team) (a : Nat) : Byte :=
  if s.usedBy (some t.uid) a then Config.freeByte s.ticks a else t.scratch.read a

/-- Writes bytes to a team's scratchpad; undefined where an engine command uses them. -/
def scratchStore (s : State) (t : Team) (cs : List Cell) : State × Team :=
  let cs' := if s.uses.isEmpty then cs
    else cs.map fun c => if s.usedBy (some t.uid) c.1 then (c.1, Config.freeByte s.ticks c.1) else c
  (s.spoil (some t.uid) (cs.map (·.1)), { t with scratch := t.scratch.writeCells cs' })

/-- Removes a binding after its write-back. -/
def Team.dropBinding (t : Team) (h : BitVec 12) : Team := { t with binds := t.binds.filter (·.h != h) }

/-- The binding that was made first. -/
def oldestBinding (bs : List Binding) : Option Binding :=
  bs.foldl (fun a b => match a with
    | some x => if b.made < x.made then some b else a
    | none => some b) none

def nextMade (bs : List Binding) : Nat := (bs.map (·.made)).foldl Nat.max 0 + 1

/-- An access of the map unit through a binding (R203, R204): by the policy and the kind override of its handle, as one that a
router never merges (09 R243). -/
def Binding.req (b : Binding) (s : State) (t : Team) (use : Use) (acc : Access) (size : Nat) (opc : BitVec 8) : Req :=
  let e : HEnt := ⟨b.va.toNat + b.len * 2 ^ 64 + kGlobal * 2 ^ 124 + b.policy * 2 ^ 148 + b.pko * 2 ^ 151⟩
  { t, c := s.ctxOf t, ix := b.h, e, uni := true, use, acc, size, align := 1, lanes := [], opc }

/-- The bytes of a write-back, each a store of its own. -/
def gatherDirty (q : Req) (t : Team) (b : Binding) : Got → List Nat → Gather
  | g, [] => gathered q g
  | g, k :: rest =>
    match gatherLane q 0 (fun _ => false) g [(k, 1)] [t.scratch.read (b.soff + k)] [] true with
    | .got g => gatherDirty q t b g rest
    | r => r

/-- How the write-back of a binding goes (R204): its bytes, a page or a block to wait for, a fault. -/
def dirtyBytes (s : State) (t : Team) (b : Binding) (opc : BitVec 8) : Gather :=
  gatherDirty (b.req s t .st .write 1 opc) t b { s } b.dirty

/-- The name by which a team's map unit is known in L2. -/
def mapName (uid : Nat) : Nat := 2 ^ 60 + uid

/-- Performs the stores of a write-back: their lines are asked of L2 and of their homes for an operation, or for the map
unit. -/
def putBack (t : Team) (b : Binding) (op : Nat) (g : Got) : State :=
  let (s, cs) := usedCells g.s g.cells
  let s := performNow s t false cs
  let ls := g.lines.eraseDups
  if b.policy == 3 then s
  else l2Request s (s.ctxOf t).cls (b.policy == 1) { die := t.place.die, core := t.place.core, write := true, now := true }
    (ls.map fun l => (l, { mapWaiter t op with kind := 2 }))

/-- The end of a write-back that is not done: a fault, a park, a halt. -/
def wbStop (t : Team) (i : Instr) (fs : Option Bool) : Gather → State
  | .gone s => s
  | .fault f g => takeFault g.s t i f
  | .got g => parkAccess g.s t i fs true g

/-- Writes back the dirty bytes of a binding for an instruction that then starts an operation, or ends it; with the lines for
which the operation waits. -/
def writeBack (s : State) (t : Team) (i : Instr) (fs : Bool) (b : Binding) : Except State (List Nat × State) :=
  match dirtyBytes s t b (instrOpc i) with
  | .got g => if g.left.isEmpty then .ok (g.lines.eraseDups, putBack t b g.s.nextOp g) else .error (wbStop t i (some fs) (.got g))
  | r => .error (wbStop t i (some fs) r)

/-- Starts the operation of a write-back. -/
def issueBack (s : State) (t : Team) (i : Instr) (fs : Bool) (k : OpKind) (lines : List Nat) : State :=
  (issueOp s t i fs k).updOp s.nextOp fun o => { o with lines }

/-- How a binding is reached or made: it may have to wait for a write-back. -/
inductive BindRes where
  | ok (b : Binding) (t : Team) (s : State)
  | held (r : Gather)

/-- The team's binding of a handle, made now if need be; a ninth releases the oldest (R202), once its dirty bytes are written
back (R204). -/
def bindOf (s : State) (t : Team) (h : BitVec 12) (e : HEnt) (opc : BitVec 8) : BindRes :=
  match t.binding h with
  | some b => .ok b t s
  | none =>
    let make (t : Team) (s : State) : BindRes :=
      let b := freshBinding h e (nextMade t.binds)
      .ok b { t with binds := t.binds ++ [b] } s
    if t.binds.length < 8 then make t s
    else match oldestBinding t.binds with
      | none => make t s
      | some o =>
        match dirtyBytes s t o opc with
        | .got g => if g.left.isEmpty then make (t.dropBinding o.h) (putBack t o (mapName t.uid) g) else .held (.got g)
        | r => .held r

/-- The first chunk of a lane's bytes that is not valid. -/
def badChunk (b : Binding) (off size : Nat) : Option Nat :=
  [off / 128, (off + size - 1) / 128].find? fun k => !b.valid.contains k

/-- What scratchpad accesses share: the handle, the checks, the binding of a MAPPED handle; `go` gets the lanes that have
their bytes and runs them, and the first chunk that is missing parks the rest. -/
def scratchLanes (s : State) (t : Team) (i : Instr) (uni : Bool) (h : HRef) (ls : List (Nat × Int)) (use : Use) (acc : Access)
    (size align : Nat) (go : State → Team → Req → List (Nat × Int) → State × Team) : Out :=
  if ls.isEmpty then .next (s.setTeam (t.advance i))
  else withHandle s t i none uni (if uni then t.active else Mask.ofLanes (ls.map (·.1))) h fun ix e s =>
    let q : Req := { t, c := s.ctxOf t, ix, e, uni, use, acc, size, align, lanes := ls, opc := instrOpc i }
    match q.check s with
    | some f => .next (takeFault s t i f)
    | none =>
      if e.kind != kMapped then
        let (s, t) := go s t q ls
        .next (s.setTeam (t.advance i))
      else
        match bindOf s t q.ix q.e q.opc with
        | .held r => .next (wbStop t i none r)
        | .ok b t s =>
          let good := ls.filter fun l => (badChunk b l.2.toNat size).isNone
          let rest := ls.filter fun l => (badChunk b l.2.toNat size).isSome
          let (s, t) := go s t q good
          match rest with
          | [] => .next (s.setTeam (t.advance i))
          | l :: _ =>
            let k := (badChunk b l.2.toNat size).getD 0
            .next (s.setTeam { t with
              status := .waiting (.mapFill q.ix k (instrOpc i) uni),
              unfin := some (if uni then t.active else Mask.ofLanes (rest.map (·.1))) })

/-- `lds` and `sts` over their memory operand. -/
def scratchMeaning (s : State) (i : Instr) (x : MemAcc) (d : Dst) (srcs : List Src) (use : Use) (acc : Access)
    (go : State → Team → Req → List (Nat × Int) → State × Team) : Out :=
  onTeam s fun t =>
    if !allocOk t d srcs then .next (takeFault s t i illop)
    else
      let uni := isUni d srcs
      scratchLanes s t i uni x.m.h (accLanes s t uni x.g x.m) use acc x.w.bytes 1 go

/-- R219. -/
def execLds (x : MemAcc) (sx : Bool) (d : Dst) (s : State) : Out :=
  scratchMeaning s (.lds x sx d) x d [x.m.off] .lds .read fun s t q ls =>
    let data := ls.map fun l =>
      (l.1, (List.range q.size).map fun k => scratchByte s t (q.e.soff + l.2.toNat + k))
    (s, t.writeGot d x.w sx data)

/-- R219. -/
def execSts (x : MemAcc) (c : Src) (s : State) : Out :=
  scratchMeaning s (.sts x c) x .none [x.m.off, c] .sts .write fun s t q ls =>
    let uni := q.uni
    let put (l : Nat × Int) : List (Nat × Nat × Byte) :=
      (storeBytes s t uni l.1 x.w c).mapIdx fun k b => (l.2.toNat + k, q.e.soff + l.2.toNat + k, b)
    let cells := (ls.map fun l => (put l).filter fun c => !finishedSpans s t uni x.g x.m q.size l.1 c.1).flatten
    let (s, t) := scratchStore s t (cells.map (·.2))
    (s, match t.binding q.ix with
      | some b =>
        if q.e.kind == kMapped then
          t.setBinding { b with dirty := cells.foldl (fun d c => if d.contains c.1 then d else c.1 :: d) b.dirty }
        else t
      | none => t)

/-! ### samp (R220, R221) -/

/-- A sampler descriptor (R220). -/
structure Sampler where
  bilinear : Bool
  wrapU : Bool
  wrapV : Bool
  fmt    : Nat
  levels : Nat
  layers : Nat
  h      : Nat
  w      : Nat
  deriving DecidableEq, Repr

def samplerOf (e : HEnt) : Sampler :=
  { bilinear := natBit e.aux 51, wrapU := natField e.aux 47 2 == 1, wrapV := natField e.aux 49 2 == 1,
    fmt := natField e.aux 44 3, levels := natField e.aux 40 4 + 1, layers := natField e.aux 32 8 + 1,
    h := natField e.aux 16 16 + 1, w := natField e.aux 0 16 + 1 }

def Sampler.texel (p : Sampler) : Nat := ([4, 8, 16, 2, 8, 4][p.fmt]?).getD 4
def Sampler.comps (p : Sampler) : Nat := ([1, 2, 4, 1, 4, 4][p.fmt]?).getD 1
def Sampler.wl (p : Sampler) (l : Nat) : Nat := Nat.max 1 (p.w / 2 ^ l)
def Sampler.hl (p : Sampler) (l : Nat) : Nat := Nat.max 1 (p.h / 2 ^ l)

/-- Bytes of the levels below l. -/
def Sampler.below (p : Sampler) (l : Nat) : Nat := ((List.range l).map fun j => p.wl j * p.hl j * p.texel).sum

def Sampler.stride (p : Sampler) : Nat := p.below p.levels

def Sampler.texelOff (p : Sampler) (k l x y : Nat) : Nat :=
  k * p.stride + p.below l + (y * p.wl l + x) * p.texel

/-- floor(c × n × 2^k) of an FP32 coordinate, NaN and infinities read as 0. -/
def coordFloor (c : Word) (n k : Nat) : Int :=
  match fmt32.val c.toNat with
  | .num v =>
    let m : Int := (if v.neg then -1 else 1) * (v.m * n * 2 ^ k : Nat)
    if 0 ≤ v.e then m * (2 ^ v.e.toNat : Nat) else m / (2 ^ (-v.e).toNat : Nat)
  | _ => 0

def texAddr (wrap : Bool) (i : Int) (n : Nat) : Nat :=
  if wrap then (i % (n : Int)).toNat else (if i < 0 then 0 else if (n : Int) - 1 < i then n - 1 else i.toNat)

/-- The coordinates that a lane reads along one axis with their weights in 256ths, those of weight zero left out. -/
def axisTaps (bilinear wrap : Bool) (c : Word) (n : Nat) : List (Nat × Nat) :=
  if bilinear then
    let s := coordFloor c n 8 - 128
    let f := (s % 256).toNat
    ([(texAddr wrap (s / 256) n, 256 - f), (texAddr wrap (s / 256 + 1) n, f)]).filter fun t => t.2 != 0
  else [(texAddr wrap (coordFloor c n 0) n, 256)]

/-- Component j of a texel as an FP32 pattern. -/
def texelComp (p : Sampler) (bs : List Byte) (j : Nat) : Nat :=
  let field (n : Nat) : Nat := leNat ((bs.drop (n * j)).take n)
  let f32 := match p.fmt with
    | 3 | 4 => (fmt16.convert fmt32 ctlRne (field 2)).v
    | 5 => (fmt32.div ctlRne (fmt32.ofInt ctlRne (field 1 : Nat)).v (fmt32.ofInt ctlRne 255).v).v
    | _ => field 4
  if fmt32.isNan f32 then fmt32.nan else f32

/-- RNE32 of a sum of products with weights in 256ths; a zero sum takes the sign that an IEEE sum in RNE has (DESIGN CHOICE, log entry 96). -/
def weighted (xs : List (Nat × Nat)) : Nat :=
  (fmt32.sumVals ctlRne false (xs.map fun x =>
    match fmt32.val x.1 with
    | .num n => .num { n with m := n.m * x.2, e := n.e - 8 }
    | v => v)).v

/-- The taps of one lane: level, layer and both axes; none when the layer does not exist. -/
def lanePlan (p : Sampler) (u v q : Word) : Option (Nat × Nat × List (Nat × Nat) × List (Nat × Nat)) :=
  let l := Nat.min (natField q.toNat 0 4) (p.levels - 1)
  let k := natField q.toNat 8 8
  if p.layers ≤ k then none
  else some (l, k, axisTaps p.bilinear p.wrapU u (p.wl l), axisTaps p.bilinear p.wrapV v (p.hl l))

/-- The parts that a lane's taps read, row by row. -/
def tapParts (q : Req) (p : Sampler) (plan : Option (Nat × Nat × List (Nat × Nat) × List (Nat × Nat))) : List (Int × Nat) :=
  match plan with
  | none => []
  | some (l, k, us, vs) =>
    (vs.map fun y => (us.map fun x =>
      let off : Int := (p.texelOff k l x.1 y.1 : Nat)
      partsOf (q.e.va off).toNat off (p.texel + 1) p.texel).flatten).flatten

/-- The result words of a lane from the bytes of its taps. -/
def sampleWords (p : Sampler) (plan : Option (Nat × Nat × List (Nat × Nat) × List (Nat × Nat))) (bs : List Byte) : List Word :=
  (List.range p.comps).map fun j =>
    match plan with
    | none => 0
    | some (_, _, us, vs) =>
      let tap (n : Nat) : Nat := texelComp p ((bs.drop (n * p.texel)).take p.texel) j
      if p.bilinear then
        let rows := vs.mapIdx fun r y => (weighted (us.mapIdx fun c x => (tap (r * us.length + c), x.2)), y.2)
        BitVec.ofNat 32 (weighted rows)
      else BitVec.ofNat 32 (tap 0)

def gatherTaps (q : Req) (p : Sampler) (plan : Nat → Option (Nat × Nat × List (Nat × Nat) × List (Nat × Nat))) :
    Got → List (Nat × Int) → Gather
  | g, [] => gathered q g
  | g, (L, _) :: rest =>
    match gatherLane q L (fun _ => false) g (tapParts q p (plan L)) [] [] true with
    | .got g => gatherTaps q p plan g rest
    | r => r

def dstFits (d : Dst) (n : Nat) : Bool := d.aligned (if n == 1 then 0 else if n == 2 then 1 else 2)

/-- R221. -/
def execSamp (g : Guard) (fs : Bool) (d : Dst) (u v qw : Src) (h : HRef) (s : State) : Out :=
  let i := Instr.samp g fs d u v qw h
  longOp s fs fun t =>
    if !allocOk t d [u, v, qw] then .next (takeFault s t i illop)
    else
      let uni := isUni d [u, v, qw]
      let ls := accLanes s t uni g ⟨.none, false, h, 0, false⟩
      if ls.isEmpty then .next (s.setTeam (t.advance i))
      else
        withHandle s t i (some fs) uni (if uni then t.active else Mask.ofLanes (ls.map (·.1))) h fun ix e s =>
          let p := samplerOf e
          let q : Req :=
            { t, c := s.ctxOf t, ix, e, uni, use := .samp, acc := .read, align := 1, lanes := ls, opc := instrOpc i, plain := true,
              size := if e.kind == kSampler then p.layers * p.stride else 0 }
          match q.check s with
          | some f => .next (takeFault s t i f)
          | none =>
            if !dstFits d p.comps || !(match d with | .v n => n.toNat < t.nvregs | _ => true) then
              .next (takeFault s t i illop)
            else
              let plan (L : Nat) := lanePlan p (valF32 s t uni L u) (valF32 s t uni L v) (val32 s t uni L qw)
              let put (t : Team) (data : List (Nat × List Byte)) : Team :=
                t.writeDst (Mask.ofLanes (data.map (·.1))) d fun L =>
                  sampleWords p (plan L) (((data.find? (·.1 == L)).map (·.2)).getD [])
              match gatherTaps q p plan { s } ls with
              | .gone s => .next (s.unpin t.uid)
              | .fault f g => .next (takeFault (g.s.unpin t.uid) (put t g.data) i f)
              | .got g =>
                let s := g.s.unpin t.uid
                if !g.left.isEmpty then .next (parkAccess s (put t g.data) i (some fs) uni g)
                else
                  let k := OpKind.load ⟨d, g.data.map fun x => (x.1, sampleWords p (plan x.1) x.2)⟩ g.remote
                  let s' := if g.remote then issueRemote s t i fs k else issueOp s t i fs k
                  .next (q.toL2 s' s.nextOp g)

/-! ### pf (R222) -/

/-- The address of a part when it can be reached without a fault, a park or a fill. -/
def quietPart (s : State) (q : Req) (off : Int) (n : Nat) : Option (Nat × State) :=
  if laneGate s q off n != .go then none
  else
    let r : Option (Nat × State) :=
      match s.blockAt q.c.id (q.e.va off) with
      | some _ => (quietPa s q.c (q.e.va off)).map fun pa => (pa, s)
      | none =>
        match translate s q.c q.t.place.die q.t.place.core (q.e.va off) .read with
        | .ok (x, s) => some (x.pa, s)
        | .error _ => none
    match r with
    | some (pa, s) => if (errorAt s pa n).isSome then none else some (pa, s)
    | none => none

/-- Lines that the parts of a lane reach; none when one of them cannot be reached. -/
def quietLane (q : Req) : State → List (Int × Nat) → Option (List Nat × State)
  | s, [] => some ([], s)
  | s, (off, n) :: rest =>
    match quietPart s q off n with
    | some (pa, s) => (quietLane q s rest).map fun r => (lineOf pa :: r.1, r.2)
    | none => none

/-- Lines that the lanes of a prefetch reach; a lane that would fault, park or start a fill is ignored. -/
def quietLines (q : Req) : State → List (Nat × Int) → List Nat × State
  | s, [] => ([], s)
  | s, l :: rest =>
    match quietLane q s (partsOf (q.e.va l.2).toNat l.2 (q.size + 1) q.size) with
    | some (ls, s) => let (ms, s) := quietLines q s rest; (ls ++ ms, s)
    | none => quietLines q s rest

/-- Brings a line into L2 without a waiting request: the line is present at once, and a refused one is not asked for again
(DESIGN CHOICE, log entry 108). -/
def l2Prefetch (s : State) (cls : BitVec 2) (stream : Bool) (die core line : Nat) : State :=
  match l2Home s line with
  | some _ =>
    match l2Try s die line none cls stream with
    | some xs => sliceTakes s die line (some { die, core, write := false }) xs
    | none => s
  | none => s

/-- R222. -/
def execPf (x : MemAcc) (level : PfLevel) (s : State) : Out :=
  let i := Instr.pf x level
  onTeam s fun t =>
    if !allocOk t .none [x.m.off] then .next (takeFault s t i illop)
    else
      let uni := isUni .none [x.m.off]
      let ls := accLanes s t uni x.g x.m
      let mask := if uni then t.active else Mask.ofLanes (ls.map (·.1))
      if ls.isEmpty then .next (s.setTeam (t.advance i))
      else match resolve s t x.m.h with
        | .bad code ix =>
          if code == codeStale then .next (takeFault s t i (handleFault code uni mask ix))
          else .next (s.setTeam (t.advance i))
        | .park _ _ => .next (s.setTeam (t.advance i))
        | .ok ix e s =>
          let q : Req :=
            { t, c := s.ctxOf t, ix, e, uni, use := .pf (level == .ro), acc := .read, size := x.w.bytes, align := 1,
              lanes := ls }
          match q.check s with
          | some f => .next (if f.code == codeStale then takeFault s t i f else s.setTeam (t.advance i))
          | none =>
            let (lines, s) := quietLines q s ls
            let lines := lines.eraseDups
            let s := if level == .ro && e.policy == 0 then lines.foldl (fun s l => (roRead s q (l * 128) 1).2.2) s else s
            let s := if level == .l1 && e.policy == 0 then
                lines.foldl (fun s l => l1Insert s ⟨t.place.die, t.place.core, l⟩) s else s
            let s := (e.l2Lines lines).foldl (fun s l => l2Prefetch s q.cls (e.policy == 1) t.place.die t.place.core l) s
            .next (s.setTeam (t.advance i))

/-! ### hmap, hflush, hquery (R223 to R226) -/

/-- The handle word of an index and generation (R193). -/
def handleWord (ix gen : BitVec 12) : Word := (gen ++ ix).setWidth 32

/-- The checks of `hmap` over both handles, in the order of R195 (DEDUCED, log entry 100): the scratchpad region is M's, the
offset G's. -/
def hmapCheck (s : State) (t : Team) (mix gix : BitVec 12) (me ge : HEnt) (off : Int) : Option FaultInfo :=
  let c := s.ctxOf t
  let f (b : Bool) (code : BitVec 8) (ix : BitVec 12) : Option FaultInfo :=
    if b then some (handleFault code true t.active (ix.setWidth 32)) else none
  let denied (e : HEnt) : Bool := e.share != 0 && !c.shares e.share 0
  let lacks (bit : Nat) : Bool := me.right bit && !ge.right bit
  (f (outOfRange ge off me.len) codeBounds gix).orElse fun _ =>
  (f (regionBad t me) codeBounds mix).orElse fun _ =>
  (f (me.kind != kMapped) codePerm mix).orElse fun _ =>
  (f (ge.kind != kGlobal || !ge.right rR || lacks rR || lacks rW) codePerm gix).orElse fun _ =>
  (f (denied me) codeShare mix).orElse fun _ =>
  (f (denied ge) codeShare gix).orElse fun _ =>
  f ((ge.va off).toNat % 128 != 0) codeAlign gix

/-- Two handle operands of one instruction: a stale one faults before an index beyond the table (R195). -/
def withHandles (s : State) (t : Team) (i : Instr) (fs : Option Bool) (a b : HRef)
    (go : BitVec 12 → HEnt → BitVec 12 → HEnt → State → Out) : Out :=
  let fault (code : BitVec 8) (ix : Word) : Out := .next (takeFault s t i (handleFault code true t.active ix))
  match resolve s t a with
  | .park va f => parkEntry s t i fs true t.active va f
  | .ok aix ae s => withHandle s t i fs true t.active b fun bix be s => go aix ae bix be s
  | .bad code ix =>
    if code == codeStale then fault code ix
    else match resolve s t b with
      | .park va f => parkEntry s t i fs true t.active va f
      | .bad code' ix' => if code' == codeStale then fault code' ix' else fault code ix
      | .ok .. => fault code ix

/-- R223. -/
def execHmap (fs : Bool) (d : Dst) (m : BitVec 6) (r : MemRef) (s : State) : Out :=
  let i := Instr.hmap fs d m r
  longOp s fs fun t =>
    withHandles s t i (some fs) (.word m) r.h fun mix me gix ge s =>
      let off := memOffset s t true 0 r
      match hmapCheck s t mix gix me ge off with
      | some f => .next (takeFault s t i f)
      | none =>
        match bindOf s t mix me (instrOpc i) with
        | .held r => .next (wbStop t i (some fs) r)
        | .ok b t s =>
          match writeBack s t i fs b with
          | .error s => .next s
          | .ok (ls, s) =>
            let gen := b.gen + 1
            let t := t.setBinding { b with va := ge.va off, gen, valid := [], dirty := [] }
            .next (issueBack s t i fs (.hmap d (handleWord mix gen)) ls)

/-- R224. -/
def execHflush (fs : Bool) (op : FlushOp) (h : HRef) (s : State) : Out :=
  let i := Instr.hflush fs op h
  longOp s fs fun t =>
    withHandle s t i (some fs) true t.active h fun ix e s =>
      let c := s.ctxOf t
      let fault (code : BitVec 8) : Out := .next (takeFault s t i (handleFault code true t.active (ix.setWidth 32)))
      if regionBad t e then fault codeBounds
      else if e.kind != kMapped then fault codePerm
      else if e.share != 0 && !c.shares e.share 0 then fault codeShare
      else match t.binding ix with
        | none => .next (issueOp s t i fs .flush)
        | some b =>
          let clean (b : Binding) : Binding :=
            match op with
            | .wb => { b with dirty := [] }
            | _ => { b with dirty := [], valid := [] }
          if op == .inv then .next (issueOp s (t.setBinding (clean b)) i fs .flush)
          else match writeBack s t i fs b with
            | .error s => .next s
            | .ok (ls, s) => .next (issueBack s (t.setBinding (clean b)) i fs .flush ls)

/-- The words of `hquery` (R225, R226). -/
def queryWords (t : Team) (op : QueryOp) (ix : BitVec 12) (e : HEnt) : List Word :=
  if e.invalid then [0, 0]
  else match op with
    | .len => [BitVec.ofNat 32 e.len, BitVec.ofNat 32 (e.len / 2 ^ 32)]
    | .info =>
      [BitVec.ofNat 4 e.rights ++ BitVec.ofNat 4 e.kind ++ t.genOf ix e ++ ix,
       BitVec.ofNat 32 (e.pko * 2 ^ 19 + e.policy * 2 ^ 16 + e.share.toNat)]

/-- R225. -/
def execHquery (g : Guard) (op : QueryOp) (d : Dst) (h : HRef) (s : State) : Out :=
  let i := Instr.hquery g op d h
  onTeam s fun t =>
    if !allocOk t d [] then .next (takeFault s t i illop)
    else
      let uni := isUni d []
      let m := if uni then t.active else t.eligible g
      if m.isEmpty then .next (s.setTeam (t.advance i))
      else match resolve s t h true with
        | .bad code ix => .next (takeFault s t i (handleFault code uni m ix))
        | .park va f => parkEntry s t i none uni m va f
        | .ok ix e s => .next (s.setTeam ((t.writeDst m d fun _ => queryWords t op ix e).advance i))

end Sys2Proof.Machine
end

