-- ==== Sys2Proof/Machine/Atomic.lean ====
section
/-! DEFINITION. Read-modify-writes (10 R251 to R261): the operation, scratchpad and memory atomics. -/

namespace Sys2Proof.Machine

open Host (Cell)

/-! ### The operation (R255, R259) -/

def AtomOp.bytes (op : AtomOp) : Nat := if op.wide then 8 else 4

/-- The operand of a lane as the operation's type reads it. -/
def atomOperand (s : State) (t : Team) (uni : Bool) (L : Nat) (op : AtomOp) (c : Src) : Nat :=
  match op with
  | .add ty | .min ty | .max ty | .and ty | .or ty | .xor ty | .xchg ty | .inc ty => valI s t uni L ty c
  | .fadd ty | .fmin ty | .fmax ty => valF s t uni L ty c

/-- An integer minimum or maximum by type. -/
def atomPick (ty : IType) (max : Bool) (x c : Nat) : Nat :=
  if decide (IType.elem ty x 0 < IType.elem ty c 0) == max then c else x

/-- The value that the operation stores over x with operand c. -/
def atomNew (op : AtomOp) (x c : Nat) : Nat :=
  let w := 8 * AtomOp.bytes op
  match op with
  | .add _ => (x + c) % 2 ^ w
  | .min ty => atomPick ty false x c
  | .max ty => atomPick ty true x c
  | .and _ => x &&& c
  | .or _ => x ||| c
  | .xor _ => x ^^^ c
  | .xchg _ => c
  | .inc _ => if c ≤ x then 0 else x + 1
  | .fadd ty => (FType.pack ty fun e => (FType.fmt ty).add ctlRne (FType.elem ty x e) (FType.elem ty c e)).v
  | .fmin ty => ((FType.fmt ty).minmax ctlRne false x c).v
  | .fmax ty => ((FType.fmt ty).minmax ctlRne true x c).v

/-- Registers c and c + k of a register group of 32-bit values. -/
def groupReg (s : State) (t : Team) (uni : Bool) (L : Nat) (c : Src) (k : Nat) : Word :=
  match c with
  | .v n => t.vreg L (n.toNat + k)
  | .s n => t.sreg (n.toNat + k)
  | x => val32 s t uni L x

/-- The compare and new values of `cas` (R260). -/
def casOperands (s : State) (t : Team) (uni : Bool) (L : Nat) (wide : Bool) (c : Src) : Nat × Nat :=
  let r (k : Nat) : Nat := (groupReg s t uni L c k).toNat
  if wide then (r 0 + r 1 * 2 ^ 32, r 2 + r 3 * 2 ^ 32) else (r 0, r 1)

/-! ### Performing -/

/-- The bytes of a lane's location from the physical places of its parts: one part, but where BASE is no multiple of the
width (DEDUCED, log entry 14). -/
def locBytes (q : Req) (pas : List (Nat × Nat)) (l : Nat × Int) : List Nat :=
  let ps := partsOf (q.e.va l.2).toNat l.2 (q.size + 1) q.size
  ((ps.zip (pas.filter fun p => p.1 == l.1)).map fun p => (List.range p.1.2).map (p.2.2 + ·)).flatten

/-- The locations of all lanes. -/
def locsOf (q : Req) (pas : List (Nat × Nat)) : List (Nat × List Nat) := q.lanes.map fun l => (l.1, locBytes q pas l)

/-- The bytes of the lanes' locations that are undefined through their handle. -/
def freeOf (s : State) (q : Req) (pas : List (Nat × Nat)) : List Nat :=
  (q.lanes.map fun l => ((locBytes q pas l).mapIdx fun i a => (a, openAt s q (l.2 + i) a)).filterMap fun x =>
    if x.2 then some x.1 else none).flatten

/-- One read-modify-write of the bytes of a location: the old value and the state. Bytes of `free`, and bytes in use, are
undefined. -/
def rmw (s : State) (free : List Nat) (as : List Nat) (f : Nat → Nat) : Nat × State :=
  let x := leNat (as.map fun a => if free.contains a || s.usedBy none a then Config.freeByte s.ticks a else s.mem.read a)
  let cs := as.zip (leBytes as.length (f x))
  (x, (s.spoil none (cs.map (·.1))).writeMem (s.storeCells cs))

/-- Every lane in ascending order (R253). -/
def rmwAll (free : List Nat) (f : Nat → Nat → Nat) : State → List (Nat × List Nat) → List (Nat × Nat) × State
  | s, [] => ([], s)
  | s, (L, as) :: rest =>
    let (x, s) := rmw s free as (f L)
    let (xs, s) := rmwAll free f s rest
    ((L, x) :: xs, s)

/-- The same in a team's scratchpad. -/
def scratchRmw (n : Nat) (f : Nat → Nat → Nat) : State → Team → List (Nat × Nat) → List (Nat × Nat) × State × Team
  | s, t, [] => ([], s, t)
  | s, t, (L, a) :: rest =>
    let x := leNat ((List.range n).map fun i => scratchByte s t (a + i))
    let (s, t) := scratchStore s t (cellsAt a (leBytes n (f L x)))
    let (xs, s, t) := scratchRmw n f s t rest
    ((L, x) :: xs, s, t)

def Order.releases (o : Order) : Bool := o == .rel || o == .acqrel || o == .sc
def Order.acquires (o : Order) : Bool := o == .acq || o == .acqrel || o == .sc

/-- The way shared by `atom`, `cas` and `red`: `f` maps a lane and an old value to the new one; `keep` says that the
destination and the park for remote lanes count. -/
def atomMeaning (s : State) (i : Instr) (x : AtomAcc) (d : Dst) (srcs : List Src) (bytes : Nat) (keep : Bool)
    (f : State → Team → Bool → Nat → Nat → Nat) : Out :=
  longOp s x.fs fun t =>
    if !allocOk t d srcs then .next (takeFault s t i illop)
    else
      let uni := isUni d srcs
      request s t i (some x.fs) uni x.g x.m .atom .atomic bytes bytes fun q s =>
        let s0 := s
        let after (t : Team) : Team := if Order.acquires x.ord then t.spent.acquire uni x.g else t.spent
        let words (xs : List (Nat × Nat)) : Deliver := ⟨d, xs.map fun r => (r.1, wordsOf (bytes == 8) r.2)⟩
        if Order.releases x.ord && s.sigsOut t.uid then waitHere s t .stall
        else if q.e.kind == kScratch then
          let (xs, s', t') := scratchRmw bytes (f s t uni) s t (q.lanes.map fun l => (l.1, q.e.soff + l.2.toNat))
          .next (issueOp s' (after t') i x.fs (.atomic (words xs) false))
        else
          match gatherAll q (fun _ => []) (fun _ _ => false) { s } q.lanes with
          | .gone s => .next (s.unpin t.uid)
          | .fault fi g => .next (takeFault (g.s.unpin t.uid) t i fi)
          | .got g =>
            let s := g.s.unpin t.uid
            if s0.behindSig t.uid g then waitHere s0 t .stall
            else if !g.left.isEmpty then .next (parkAccess s t i (some x.fs) uni { g with left := q.lanes.map (·.1) })
            else
              let (die, core) := (t.place.die, t.place.core)
              let s := s.settle ((locsOf q g.pas).map (·.2)).flatten
              let s := if Order.releases x.ord then s.drainCore die core
                else s.drainBytes die core ((locsOf q g.pas).map (·.2)).flatten
              let (xs, s) := rmwAll (freeOf s q g.pas) (f s t uni) s (locsOf q g.pas)
              let k := OpKind.atomic (words xs) g.remote
              let s' := if keep && g.remote then issueRemote s (after t) i x.fs k else issueOp s (after t) i x.fs k
              .next (q.toL2 s' s.nextOp g)

/-- R259. -/
def execAtom (x : AtomAcc) (op : AtomOp) (d : Dst) (c : Src) (s : State) : Out :=
  atomMeaning s (.atom x op d c) x d [x.m.off, c] (AtomOp.bytes op) true fun s t uni L old =>
    atomNew op old (atomOperand s t uni L op c)

/-- R260. -/
def execCas (x : AtomAcc) (ty : IType) (d : Dst) (c : Src) (s : State) : Out :=
  atomMeaning s (.cas x ty d c) x d [x.m.off, c] (if ty.wide then 8 else 4) true fun s t uni L old =>
    let (cmp, new) := casOperands s t uni L ty.wide c
    if old == cmp then new else old

/-- R261. -/
def execRed (x : AtomAcc) (op : AtomOp) (c : Src) (s : State) : Out :=
  atomMeaning s (.red x op c) x .none [x.m.off, c] (AtomOp.bytes op) false fun s t uni L old =>
    atomNew op old (atomOperand s t uni L op c)

end Sys2Proof.Machine
end

