-- ==== Sys2Proof/Machine/Integer.lean ====
section
/-! DEFINITION. Integer and address arithmetic instructions (04 R101 to R124). -/

namespace Sys2Proof.Machine

/-- A per-lane instruction without flags: `val` gives the words of a lane from the team as it stands. -/
def laneOp (s : State) (i : Instr) (pipe : Bool) (g : Guard) (d : Dst) (srcs : List Src)
    (val : Team → Bool → Nat → List Word) : Out :=
  onTeam s fun t =>
    let uni := !pipe && isUni d srcs
    finish s t i (withAlloc t d srcs (.ok (t.writeDst (t.eligible g) d (val t uni))))

/-- An elementwise instruction of an integer type with sources a, b, c of the type's width. -/
def aluOp (s : State) (i : Instr) (x : Alu) (f : Int → Int → Int → Int) : Out :=
  laneOp s i false x.g x.d [x.a, x.b, x.c] fun t uni L =>
    let a := valI s t uni L x.ty x.a
    let b := valI s t uni L x.ty x.b
    let c := valI s t uni L x.ty x.c
    wordsOf x.ty.wide
      (IType.pack x.ty fun e => f (IType.elem x.ty a e) (IType.elem x.ty b e) (IType.elem x.ty c e))

/-- R108. -/
def execAdd (x : Alu) (sat : Bool) (s : State) : Out :=
  aluOp s (.add x sat) x fun a b _ => IType.reduce x.ty sat (a + b)

/-- R108. -/
def execSub (x : Alu) (sat : Bool) (s : State) : Out :=
  aluOp s (.sub x sat) x fun a b _ => IType.reduce x.ty sat (a - b)

/-- R108. -/
def execMul (x : Alu) (s : State) : Out := aluOp s (.mul x) x fun a b _ => IType.wrap x.ty (a * b)

/-- R109: the high W bits of the exact product. -/
def execMulhi (x : Alu) (s : State) : Out :=
  aluOp s (.mulhi x) x fun a b _ => (a * b) / (2 ^ IType.width x.ty : Nat)

/-- R108: one reduction after the addition. -/
def execMad (x : Alu) (sat : Bool) (s : State) : Out :=
  aluOp s (.mad x sat) x fun a b c => IType.reduce x.ty sat (a * b + c)

/-- R110. -/
def execMin (x : Alu) (s : State) : Out := aluOp s (.min x) x fun a b _ => if a ≤ b then a else b

/-- R110. -/
def execMax (x : Alu) (s : State) : Out := aluOp s (.max x) x fun a b _ => if a ≤ b then b else a

/-- R111. -/
def execAbsn (x : Alu) (neg sat : Bool) (s : State) : Out :=
  aluOp s (.absn x neg sat) x fun a _ _ =>
    IType.reduce x.ty sat (if neg then -a else if a < 0 then -a else a)

/-- Bitwise operation on both operands as bit patterns of the type's width. -/
def bitOp (s : State) (i : Instr) (x : Alu) (inv : Bool) (f : DWord → DWord → DWord) : Out :=
  laneOp s i false x.g x.d [x.a, x.b, x.c] fun t uni L =>
    let a := BitVec.ofNat 64 (valI s t uni L x.ty x.a)
    let b := BitVec.ofNat 64 (valI s t uni L x.ty x.b)
    wordsOf x.ty.wide (f a (if inv then ~~~b else b)).toNat

/-- R112. -/
def execAnd (x : Alu) (inv : Bool) (s : State) : Out := bitOp s (.and x inv) x inv fun a b => a &&& b

/-- R112. -/
def execOr (x : Alu) (inv : Bool) (s : State) : Out := bitOp s (.or x inv) x inv fun a b => a ||| b

/-- R112: ¬(a ⊕ b) is a ⊕ ¬b. -/
def execXor (x : Alu) (inv : Bool) (s : State) : Out := bitOp s (.xor x inv) x inv fun a b => a ^^^ b

/-- An elementwise shift or rotation, whose count is a 32-bit operand for every type (R113). -/
def shiftOp (s : State) (i : Instr) (x : Alu) (f : Int → Nat → Int) : Out :=
  laneOp s i false x.g x.d [x.a, x.b, x.c] fun t uni L =>
    let a := valI s t uni L x.ty x.a
    let c := (val32 s t uni L x.b).toNat
    let n (e : Nat) : Nat := if x.ty.packed then IType.elemN x.ty c e else c
    wordsOf x.ty.wide (IType.pack x.ty fun e => f (IType.elem x.ty a e) (n e))

/-- R113. -/
def execShl (x : Alu) (s : State) : Out :=
  shiftOp s (.shl x) x fun a n => if IType.width x.ty ≤ n then 0 else a * (2 ^ n : Nat)

/-- R113: arithmetic for signed types. -/
def execShr (x : Alu) (s : State) : Out :=
  shiftOp s (.shr x) x fun a n =>
    if IType.width x.ty ≤ n then (if a < 0 then -1 else 0) else a / (2 ^ n : Nat)

/-- A W-bit pattern rotated left by k < W. -/
def rotLeft (w x k : Nat) : Nat := (x * 2 ^ k + x / 2 ^ (w - k)) % 2 ^ w

/-- R113. -/
def execRot (x : Alu) (right : Bool) (s : State) : Out :=
  shiftOp s (.rot x right) x fun a n =>
    let w := IType.width x.ty
    let k := n % w
    (rotLeft w (intToNat a w) (if right then (w - k) % w else k) : Nat)

/-- Ones, leading zeros and trailing zeros over W bits (R114). -/
def popCount (w x : Nat) : Nat := ((List.range w).filter (natBit x ·)).length

def leadingZeros (w x : Nat) : Nat := if x % 2 ^ w = 0 then w else w - 1 - Nat.log2 (x % 2 ^ w)

def trailingZeros (w x : Nat) : Nat := ((List.range w).find? (natBit x ·)).getD w

/-- R114: one 32-bit destination for every type. -/
def execBcnt (x : Alu) (op : BcntOp) (s : State) : Out :=
  laneOp s (.bcnt x op) false x.g x.d [x.a, x.b, x.c] fun t uni L =>
    let a := valI s t uni L x.ty x.a
    let w := IType.width x.ty
    [BitVec.ofNat 32 (match op with
      | .popc => popCount w a
      | .clz => leadingZeros w a
      | .ctz => trailingZeros w a)]

/-- The bits of a W-bit pattern in reverse order. -/
def reverseBits (w x : Nat) : Nat := (List.range w).foldl (fun r i => r + b2n (natBit x i) * 2 ^ (w - 1 - i)) 0

/-- The field operation of R115 on patterns a and c of W bits under control word k. -/
def bitField (op : BitfOp) (signed : Bool) (w a c k : Nat) : Nat :=
  let o := natField k 0 8
  let n := natField k 8 8
  let n' := Nat.min n (w - o)
  match op with
  | .ext =>
    if n == 0 || w ≤ o then 0
    else
      let f := natField a o n'
      if signed then intToNat (natToInt f n') w else f
  | .ins =>
    if n == 0 || w ≤ o then a
    else a - natField a o n' * 2 ^ o + natField c 0 n' * 2 ^ o
  | .rev => reverseBits w a

/-- R115. -/
def execBitf (x : Alu) (op : BitfOp) (s : State) : Out :=
  laneOp s (.bitf x op) false x.g x.d [x.a, x.b, x.c] fun t uni L =>
    let a := valI s t uni L x.ty x.a
    let c := valI s t uni L x.ty x.c
    let k := (val32 s t uni L x.b).toNat
    wordsOf x.ty.wide (bitField op x.ty.signed (IType.width x.ty) a c k)

/-! ### Predicates -/

/-- Writes a predicate in the lanes of a mask. -/
def Team.writePred (t : Team) (m : Mask) (p : PredIx) (f : Nat → Bool) : Team :=
  t.onLanes m fun L l => l.setP p (f L)

/-- A comparison combined with a predicate (R116). -/
def combine (t : Team) (c : Combine) (L : Nat) (b : Bool) : Bool :=
  match c with
  | .none => b
  | .and p => b && t.pred L p
  | .or p => b || t.pred L p
  | .xor p => b != t.pred L p

def iCompare (ty : IType) (c : ICond) (a b : Nat) : Bool :=
  let x := IType.elem ty a 0
  let y := IType.elem ty b 0
  match c with
  | .eq => x == y
  | .ne => x != y
  | .lt => x < y
  | .le => x ≤ y
  | .gt => y < x
  | .ge => y ≤ x
  | .tst => (BitVec.ofNat 64 a &&& BitVec.ofNat 64 b) != 0
  | .ntst => (BitVec.ofNat 64 a &&& BitVec.ofNat 64 b) == 0

/-- R116. -/
def execSetp (g : Guard) (ty : IType) (cond : ICond) (comb : Combine) (pd : PredIx) (a b : Src) (s : State) : Out :=
  onTeam s fun t =>
    let r (L : Nat) : Bool :=
      combine t comb L (iCompare ty cond (valI s t false L ty a) (valI s t false L ty b))
    finish s t (.setp g ty cond comb pd a b) (withAlloc t .none [a, b] (.ok (t.writePred (t.eligible g) pd r)))

/-- R118. -/
def execSel (x : Alu) (pc : PredIx) (s : State) : Out :=
  laneOp s (.sel x pc) true x.g x.d [x.a, x.b, x.c] fun t uni L =>
    wordsOf x.ty.wide (if t.pred L pc then valI s t uni L x.ty x.a else valI s t uni L x.ty x.b)

/-- R117. -/
def execPlog (g : Guard) (op : PlogOp) (pd pa pb : PredIx) (s : State) : Out :=
  onTeam s fun t =>
    let r (L : Nat) : Bool :=
      let a := t.pred L pa
      let b := t.pred L pb
      match op with
      | .and => a && b
      | .or => a || b
      | .xor => a != b
      | .andn => a && !b
      | .orn => a || !b
      | .not => !a
    finish s t (.plog g op pd pa pb) (.ok (t.writePred (t.eligible g) pd r))

/-- R120. -/
def execMov (x : Alu) (s : State) : Out :=
  laneOp s (.mov x) false x.g x.d [x.a, x.b, x.c] fun t uni L => wordsOf x.ty.wide (valI s t uni L x.ty x.a)

/-- R120: the 96-bit form widens its immediate for 64-bit types. -/
def execMovi (g : Guard) (ty : IType) (d : Dst) (imm : MovImm) (s : State) : Out :=
  laneOp s (.movi g ty d imm) false g d [] fun _ _ _ =>
    match imm with
    | .i32 w => wordsOf ty.wide (if ty.signed then (w.signExtend 64).toNat else w.toNat)
    | .i64 w => wordsOf true w.toNat

/-- R122. -/
def execLea (x : Alu) (x32 : Bool) (sh : BitVec 5) (s : State) : Out :=
  laneOp s (.lea x x32 sh) false x.g x.d [x.a, x.b, x.c] fun t uni L =>
    let a := IType.elem x.ty (valI s t uni L x.ty x.a) 0
    let c := IType.elem x.ty (valI s t uni L x.ty x.c) 0
    let b : Int :=
      if x32 then
        let w := val32 s t uni L x.b
        if x.ty.signed then w.toInt else (w.toNat : Int)
      else IType.elem x.ty (valI s t uni L x.ty x.b) 0
    wordsOf x.ty.wide (intToNat (a + b * (2 ^ sh.toNat : Nat) + c) (IType.width x.ty))

/-- Quotient or remainder of R123 as a W-bit pattern; the divisor may be zero under `.nz`. -/
def divVal (ty : IType) (rem : Bool) (a b : Nat) : Nat :=
  let w := IType.width ty
  let x := IType.elem ty a 0
  let y := IType.elem ty b 0
  if y == 0 then (if rem then a % 2 ^ w else 2 ^ w - 1)
  else intToNat (if rem then x.tmod y else x.tdiv y) w

/-- R123: a zero divisor faults with ARITH for the whole instruction unless `.nz`; nothing is written then. -/
def execDiv (x : Alu) (rem nz : Bool) (s : State) : Out :=
  onTeam s fun t =>
    let uni := isUni x.d [x.a, x.b, x.c]
    let m := t.eligible x.g
    let zero (L : Nat) : Bool := valI s t uni L x.ty x.b == 0
    let bad := (computeLanes uni t m).filter zero
    let r : Except FaultInfo Team :=
      if !nz && !bad.isEmpty then
        .error { code := codeArith, unif := uni, detail := flagDZ.setWidth 32,
                 lanes := if uni then t.active else Mask.ofLanes bad }
      else
        .ok (t.writeDst m x.d fun L =>
          wordsOf x.ty.wide (divVal x.ty rem (valI s t uni L x.ty x.a) (valI s t uni L x.ty x.b)))
    finish s t (.div x rem nz) (withAlloc t x.d [x.a, x.b, x.c] r)

/-- R121: source a is a pair when n > 32, and for `.trunc`. -/
def execExt (x : Alu) (op : ExtOp) (s : State) : Out :=
  laneOp s (.ext x op) false x.g x.d [x.a, x.b, x.c] fun t uni L =>
    let src (n : Nat) : Nat :=
      if 32 < n then (val64 s t uni L x.ty.signed x.a).toNat else (val32 s t uni L x.a).toNat
    match op with
    | .sext n => let k := n.toNat + 1; wordsOf x.ty.wide (intToNat (natToInt (src k) k) 64)
    | .zext n => let k := n.toNat + 1; wordsOf x.ty.wide (src k % 2 ^ k)
    | .trunc => [lo32 (val64 s t uni L false x.a)]

/-- R124: the out predicate is written after every source is read. -/
def carryOp (s : State) (i : Instr) (x : Alu) (ci : Option PredIx) (co : PredIx) (f : Nat → Nat → Nat → Nat × Bool) :
    Out :=
  onTeam s fun t =>
    let uni := isUni x.d [x.a, x.b] && ci.isNone && co == 7
    let r (L : Nat) : Nat × Bool :=
      let c := match ci with
        | some p => b2n (t.pred L p)
        | none => 0
      f (val32 s t uni L x.a).toNat (val32 s t uni L x.b).toNat c
    let m := t.eligible x.g
    finish s t i (withAlloc t x.d [x.a, x.b]
      (.ok ((t.writeDst m x.d fun L => [BitVec.ofNat 32 (r L).1]).writePred m co fun L => (r L).2)))

/-- R124. -/
def execAddc (x : Alu) (ci : Option PredIx) (co : PredIx) (s : State) : Out :=
  carryOp s (.addc x ci co) x ci co fun a b c => (a + b + c, decide (2 ^ 32 ≤ a + b + c))

/-- R124. -/
def execSubb (x : Alu) (bi : Option PredIx) (bo : PredIx) (s : State) : Out :=
  carryOp s (.subb x bi bo) x bi bo fun a b c => (a + 2 ^ 33 - b - c, decide (a < b + c))

/-- R109: the exact 64-bit product, sign-extended for .i32. -/
def execMulw (x : Alu) (s : State) : Out :=
  laneOp s (.mulw x) false x.g x.d [x.a, x.b, x.c] fun t uni L =>
    let a := IType.elem x.ty (val32 s t uni L x.a).toNat 0
    let b := IType.elem x.ty (val32 s t uni L x.b).toNat 0
    wordsOf true (intToNat (a * b) 64)

/-- R119: `.ge` writes its decision to the predicate. -/
def execCsub (x : Alu) (form : CsubForm) (s : State) : Out :=
  onTeam s fun t =>
    let pipe := match form with
      | .p _ => true
      | .ge q => q != 7
    let uni := !pipe && isUni x.d [x.a, x.b]
    let av (L : Nat) : Int := IType.elem x.ty (valI s t uni L x.ty x.a) 0
    let bv (L : Nat) : Int := IType.elem x.ty (valI s t uni L x.ty x.b) 0
    let dec (L : Nat) : Bool := match form with
      | .p p => t.pred L p
      | .ge _ => decide (bv L ≤ av L)
    let m := t.eligible x.g
    let t' := t.writeDst m x.d fun L =>
      wordsOf x.ty.wide (intToNat (if dec L then av L - bv L else av L) (IType.width x.ty))
    let t'' := match form with
      | .p _ => t'
      | .ge q => t'.writePred m q dec
    finish s t (.csub x form) (withAlloc t x.d [x.a, x.b] (.ok t''))

/-- R110. -/
def execClamp (x : Alu) (s : State) : Out :=
  aluOp s (.clamp x) x fun a lo hi =>
    let y := if a ≤ lo then lo else a
    if y ≤ hi then y else hi

end Sys2Proof.Machine
end

