-- ==== Sys2Proof/Machine/Float.lean ====
section
/-! DEFINITION. Floating-point instructions (05 R134 to R151) and the random stream of a lane (06 R174). -/

namespace Sys2Proof.Machine

/-- The words a lane receives and the flags it raises. -/
structure LaneRes where
  ws : List Word
  f  : FFlags
  deriving DecidableEq, Repr

/-- The end of an instruction whose lanes raise flags (R132): a trapped flag faults and names the lanes that raised it,
otherwise `r` receives the gathered flags. -/
def endFlags (t : Team) (uni : Bool) (ls : List Nat) (f : Nat → FFlags) (r : Team) : Except FaultInfo Team :=
  withFlags t uni (gatherFlags ls f) (if uni then t.active else trapLanes t.ctl.mode ls f) r

/-- An instruction that computes words and flags per lane. -/
def flagOp (s : State) (i : Instr) (g : Guard) (d : Dst) (srcs : List Src) (val : Team → Bool → Nat → LaneRes) : Out :=
  onTeam s fun t =>
    let uni := isUni d srcs
    let m := t.eligible g
    let r := val t uni
    finish s t i (withAlloc t d srcs
      (endFlags t uni (computeLanes uni t m) (fun L => (r L).f) (t.writeDst m d fun L => (r L).ws)))

def fpuCtl (t : Team) (x : Fpu) : FCtl := fctl t.ctl.mode x.rs

/-- An elementwise instruction whose operands and result have the type of `x`. -/
def fpuOp (s : State) (i : Instr) (x : Fpu) (f : Fmt → FCtl → Nat → Nat → Nat → FR) : Out :=
  flagOp s i x.g x.d [x.a, x.b, x.c] fun t uni L =>
    let a := valF s t uni L x.ty x.a
    let b := valF s t uni L x.ty x.b
    let c := valF s t uni L x.ty x.c
    let r := FType.pack x.ty fun e =>
      f (FType.fmt x.ty) (fpuCtl t x) (FType.elem x.ty a e) (FType.elem x.ty b e) (FType.elem x.ty c e)
    ⟨wordsOf x.ty.wide r.v, r.f⟩

/-- R137. -/
def execFadd (x : Fpu) (s : State) : Out :=
  fpuOp s (.fadd x) x fun f c a b _ => f.clamp01 x.sat (f.add c a b)

/-- R137. -/
def execFsub (x : Fpu) (s : State) : Out :=
  fpuOp s (.fsub x) x fun f c a b _ => f.clamp01 x.sat (f.sub c a b)

/-- R137. -/
def execFmul (x : Fpu) (s : State) : Out :=
  fpuOp s (.fmul x) x fun f c a b _ => f.clamp01 x.sat (f.mul c a b)

/-- R137: one rounding. -/
def execFma (x : Fpu) (s : State) : Out :=
  fpuOp s (.fma x) x fun f k a b c => f.clamp01 x.sat (f.fma k a b c)

/-- R139. -/
def execFmin (x : Fpu) (s : State) : Out := fpuOp s (.fmin x) x fun f c a b _ => f.minmax c false a b

/-- R139. -/
def execFmax (x : Fpu) (s : State) : Out := fpuOp s (.fmax x) x fun f c a b _ => f.minmax c true a b

/-- Bit operations on the sign (R140). -/
def fabsnBits (f : Fmt) (op : FabsOp) (a b : Nat) : Nat :=
  let mag := a % 2 ^ (f.width - 1)
  match op with
  | .abs => mag
  | .neg => f.neg a
  | .cpsgn => mag + b2n (f.sign b) * 2 ^ (f.width - 1)

/-- R140. -/
def execFabsn (x : Fpu) (op : FabsOp) (s : State) : Out :=
  fpuOp s (.fabsn x op) x fun f _ a b _ => ⟨fabsnBits f op a b, 0⟩

/-- R141: always in the pipe; a lane's flags are those of its comparison. -/
def execFsetp (g : Guard) (ty : FType) (cond : FCond) (comb : Combine) (pd : PredIx) (a b : Src) (s : State) : Out :=
  onTeam s fun t =>
    let c := fctl t.ctl.mode 0
    let r (L : Nat) : Bool × FFlags :=
      (FType.fmt ty).compare c cond (valF s t false L ty a) (valF s t false L ty b)
    let m := t.eligible g
    finish s t (.fsetp g ty cond comb pd a b) (withAlloc t .none [a, b]
      (endFlags t false (m.lanes t.nlanes) (fun L => (r L).2) (t.writePred m pd fun L => combine t comb L (r L).1)))

/-- R143, R144. -/
def execFrcp (x : Fpu) (s : State) : Out := fpuOp s (.frcp x) x fun f c a _ _ => f.rcp c a

/-- R143, R144. -/
def execFrsq (x : Fpu) (s : State) : Out := fpuOp s (.frsq x) x fun f c a _ _ => f.rsq c a

/-- R138. -/
def execFsqrt (x : Fpu) (s : State) : Out := fpuOp s (.fsqrt x) x fun f c a _ _ => f.sqrt c a

/-- R143, R144. -/
def execFexp2 (x : Fpu) (s : State) : Out := fpuOp s (.fexp2 x) x fun f c a _ _ => f.exp2 c a

/-- R143, R144. -/
def execFlog2 (x : Fpu) (s : State) : Out := fpuOp s (.flog2 x) x fun f c a _ _ => f.log2 c a

/-- R145: sines to d, cosines to the next register. -/
def execFsincos (x : Fpu) (s : State) : Out :=
  flagOp s (.fsincos x) x.g x.d [x.a, x.b, x.c] fun t uni L =>
    let a := valF s t uni L x.ty x.a
    let half (cosine : Bool) : FR :=
      FType.pack x.ty fun e => (FType.fmt x.ty).sincos (fpuCtl t x) cosine (FType.elem x.ty a e)
    ⟨[BitVec.ofNat 32 (half false).v, BitVec.ofNat 32 (half true).v], (half false).f ||| (half true).f⟩

/-- R138. -/
def execFdiv (x : Fpu) (s : State) : Out := fpuOp s (.fdiv x) x fun f c a b _ => f.div c a b

/-- R142: one 32-bit register for every type. -/
def execFclass (x : Fpu) (s : State) : Out :=
  flagOp s (.fclass x) x.g x.d [x.a, x.b, x.c] fun t uni L =>
    let a := valF s t uni L x.ty x.a
    let w := FType.pack x.ty fun e => ⟨(FType.fmt x.ty).classOf (FType.elem x.ty a e), 0⟩
    ⟨[BitVec.ofNat 32 w.v], 0⟩

/-- R146. -/
def execCvtif (x : Fpu) (src : IType) (s : State) : Out :=
  flagOp s (.cvtif x src) x.g x.d [x.a, x.b, x.c] fun t uni L =>
    let a := valI s t uni L src x.a
    let r := FType.pack x.ty fun e => (FType.fmt x.ty).ofInt (fpuCtl t x) (IType.elem src a e)
    ⟨wordsOf x.ty.wide r.v, r.f⟩

/-- R147: saturating, whatever MODE.SAT says. -/
def execCvtfi (x : Fpu) (dst : IType) (s : State) : Out :=
  flagOp s (.cvtfi x dst) x.g x.d [x.a, x.b, x.c] fun t uni L =>
    let a := valF s t uni L x.ty x.a
    let k (e : Nat) : Int × FFlags :=
      (FType.fmt x.ty).toInt (fpuCtl t x) (IType.minT dst) (IType.maxT dst) (FType.elem x.ty a e)
    ⟨wordsOf dst.wide (IType.pack dst fun e => (k e).1),
      (List.range (IType.elems dst)).foldl (fun f e => f ||| (k e).2) 0⟩

/-! ### The random stream (06 R174) -/

/-- One step of the state. -/
def rngStep (t : DWord) : DWord :=
  let a := t ^^^ (t <<< 13)
  let b := a ^^^ (a >>> 7)
  b ^^^ (b <<< 17)

/-- The output of a state after its step. -/
def rngOut (t : DWord) : Word := hi32 (t * 0x2545F4914F6CDD1D)

/-- A 16-bit draw of a state after its step. -/
def rngDraw (t : DWord) : Nat := (rngOut t).toNat / 2 ^ 16

/-- The state after k steps. -/
def rngSteps : Nat → DWord → DWord
  | 0, t => t
  | k + 1, t => rngSteps k (rngStep t)

/-- The e-th draw of a lane within an instruction, the first being 0. -/
def Lane.draw (l : Lane) (e : Nat) : Nat := rngDraw (rngSteps (e + 1) l.rng)

/-- Steps the streams of the lanes of a mask k times. -/
def Team.stepRng (t : Team) (m : Mask) (k : Nat) : Team :=
  t.onLanes m fun _ l => { l with rng := rngSteps k l.rng }

/-! ### Conversions between formats -/

/-- One element of a conversion, drawn when the rounding is stochastic. -/
def cvtElem (src dst : Fmt) (c : FCtl) (draw : Option Nat) (a : Nat) : FR :=
  match draw with
  | some u => src.convertStoch dst c u a
  | none => src.convert dst c a

/-- The words and flags of a `cvtff` lane (R148). -/
def cvtffLane (s : State) (t : Team) (uni : Bool) (x : Fpu) (src : FType) (hi : Bool) (L : Nat) : LaneRes :=
  let c := fpuCtl t x
  let stoch := x.rs == 6
  let dr (e : Nat) : Option Nat := if stoch then some ((t.lane L).draw e) else none
  let a := valF s t uni L src x.a
  let sf := FType.fmt src
  let df := FType.fmt x.ty
  match src, x.ty with
  | .f32, .f16x2 | .f32, .bf16x2 =>
    -- the two sources give the two elements; SRCB 0xFF reads +0.0
    let r := FType.pack x.ty fun e => cvtElem sf df c (dr e) (if e == 0 then a else valF s t uni L .f32 x.b)
    ⟨wordsOf false r.v, r.f⟩
  | .f16x2, .bf16x2 | .bf16x2, .f16x2 =>
    let r := FType.pack x.ty fun e => cvtElem sf df c (dr e) (FType.elem src a e)
    ⟨wordsOf false r.v, r.f⟩
  | _, _ =>
    -- widening is exact, so FTZ does not act on it; `.f64` to `.f32` is a narrowing
    let c := if x.ty == .f32 && src == .f64 then c else { c with ftz := false }
    let r := cvtElem sf df c none (if src.packed then FType.elem src a (b2n hi) else a)
    ⟨wordsOf x.ty.wide r.v, r.f⟩

/-- R148, R133: each element takes one draw; a fault leaves every stream as it was. -/
def execCvtff (x : Fpu) (src : FType) (hi : Bool) (s : State) : Out :=
  onTeam s fun t =>
    let srcs := [x.a, x.b, x.c]
    let uni := isUni x.d srcs
    let m := t.eligible x.g
    let r := cvtffLane s t uni x src hi
    let w := t.writeDst m x.d fun L => (r L).ws
    let w' := if x.rs == 6 then w.stepRng m 2 else w
    finish s t (.cvtff x src hi) (withAlloc t x.d srcs
      (endFlags t uni (computeLanes uni t m) (fun L => (r L).f) w'))

/-- R149. -/
def execFrnd (x : Fpu) (s : State) : Out := fpuOp s (.frnd x) x fun f c a _ _ => f.integral c a

/-- Packs 16-bit integers, or gives one of 32 bits, with the flags of the elements. -/
def packExp (ty : FType) (f : Nat → Int × FFlags) : LaneRes :=
  let w := if ty.packed then 16 else 32
  let v := (List.range (FType.elems ty)).foldl (fun v e => v + intToNat (f e).1 w * 2 ^ (16 * e)) 0
  ⟨[BitVec.ofNat 32 v], (List.range (FType.elems ty)).foldl (fun fl e => fl ||| (f e).2) 0⟩

/-- R150. The second operand of `.ldexp` is an integer. -/
def execFscal (x : Fpu) (op : FscalOp) (s : State) : Out :=
  match op with
  | .ldexp =>
    flagOp s (.fscal x op) x.g x.d [x.a, x.b, x.c] fun t uni L =>
      let a := valF s t uni L x.ty x.a
      let b := (val32 s t uni L x.b).toNat
      let step (e : Nat) : Int :=
        if x.ty.packed then IType.elem .i16x2 b e else IType.elem .i32 b 0
      let r := FType.pack x.ty fun e => (FType.fmt x.ty).ldexp (fpuCtl t x) (FType.elem x.ty a e) (step e)
      ⟨wordsOf x.ty.wide r.v, r.f⟩
  | .mant => fpuOp s (.fscal x op) x fun f c a _ _ => f.mant c a
  | .exp =>
    flagOp s (.fscal x op) x.g x.d [x.a, x.b, x.c] fun t uni L =>
      let a := valF s t uni L x.ty x.a
      packExp x.ty fun e =>
        (FType.fmt x.ty).exponent (fpuCtl t x) (FType.elem x.ty a e) (if x.ty.packed then 0x7FFF else 0x7FFFFFFF)

/-- The exact sum of R151, rounded once to FP32; the inputs pass DAZ in their own formats. -/
def dot2Val (f : Fmt) (c : FCtl) (a0 b0 a1 b1 z : Nat) : FR :=
  let xs := [a0, b0, a1, b1].map (f.daz c)
  let z := fmt32.daz c z
  let v (k : Nat) : FVal := f.val ((xs[k]?).getD 0)
  let p0 := mulVal (v 0) (v 1)
  let p1 := mulVal (v 2) (v 3)
  let bad := p0.isNone || p1.isNone
  f.snans xs (fmt32.snans [z]
    (fmt32.sumVals c bad [p0.getD .nan, p1.getD .nan, fmt32.val z]))

/-- R151. -/
def execDot2 (x : Fpu) (s : State) : Out :=
  flagOp s (.dot2 x) x.g x.d [x.a, x.b, x.c] fun t uni L =>
    let a := valF s t uni L x.ty x.a
    let b := valF s t uni L x.ty x.b
    let r := dot2Val (FType.fmt x.ty) (fpuCtl t x) (FType.elem x.ty a 0) (FType.elem x.ty b 0) (FType.elem x.ty a 1)
      (FType.elem x.ty b 1) (valF s t uni L .f32 x.c)
    ⟨[BitVec.ofNat 32 r.v], r.f⟩

end Sys2Proof.Machine
end

