-- ==== Sys2Proof/Machine/Narrow.lean ====
section
/-! DEFINITION. Narrow formats, format slots, quantisation and the random stream (06 R152 to R175), and the values and
alignment that the tile-task engines share with them (R176, R177). -/

namespace Sys2Proof.Machine

/-! ### Format slots (R159) -/

/-- A format slot record's fields. -/
structure Slot where
  elem   : Nat
  scale  : Nat
  block  : Nat
  sdir   : Nat
  eround : Nat
  ovf    : Bool
  ratio  : Nat
  deriving DecidableEq, Repr

def Slot.ofWord (w : DWord) : Slot :=
  let x := w.toNat
  { elem := natField x 0 4, scale := natField x 4 2,
    block := [32, 16, 64, 32][natField x 6 2]?.getD 32, sdir := natField x 8 2, eround := natField x 10 2,
    ovf := natBit x 12, ratio := 2 ^ (2 + natField x 13 2) }

/-- The slot record k of a team's grid. -/
def State.slotWord (s : State) (t : Team) (k : Nat) : DWord :=
  (((s.grid? t.grid).map (·.lr.fmts)).getD [])[k]?.getD 0

def State.slot (s : State) (t : Team) (k : Nat) : Slot := Slot.ofWord (s.slotWord t k)

/-- What the dispatch hardware refuses in a slot record (R160). -/
def slotRefused (w : DWord) : Bool :=
  let x := w.toNat
  let e := natField x 0 4
  natField x 15 49 != 0 || natField x 10 2 == 3 || natField x 8 2 == 3 || natField x 6 2 == 3 || natField x 4 2 == 3 ||
    11 ≤ e || (e == 0 && x != 0) || (natBit x 12 && !(e == 1 || e == 2 || e == 9 || e == 10)) ||
    (e == 8 && natField x 4 2 != 0) || ((e == 9 || e == 10) && natField x 4 2 != 2) || (e != 8 && natField x 13 2 != 0)

/-! ### Element formats (R152 to R154) -/

/-- The layout of a minifloat element format; the others are integers. -/
def elemFmt (elem : Nat) : Option Fmt :=
  match elem with
  | 1 => some ⟨4, 3⟩
  | 2 => some ⟨5, 2⟩
  | 3 => some ⟨2, 3⟩
  | 4 => some ⟨3, 2⟩
  | 5 => some ⟨2, 1⟩
  | 9 => some fmt16
  | 10 => some fmtB16
  | _ => none

/-- Bits of a code. -/
def elemBits (elem : Nat) : Nat := ([0, 8, 8, 6, 6, 4, 8, 4, 4, 16, 16][elem]?).getD 0

/-- The code of Mmax. -/
def elemMaxCode (elem : Nat) : Nat := ([0, 0x7E, 0x7B, 0x1F, 0x1F, 0x7, 127, 7, 7, 0x7BFF, 0x7F7F][elem]?).getD 0

/-- The canonical NaN code, for a format that has one. -/
def elemNan (elem : Nat) : Option Nat :=
  match elem with
  | 1 => some 0x7F
  | 2 => some 0x7E
  | 9 => some 0x7E00
  | 10 => some 0x7FC0
  | _ => none

def intNum (k : Int) : Num := ⟨decide (k < 0), k.natAbs, 0⟩

/-- A minifloat pattern as a finite value. -/
def Fmt.finite (f : Fmt) (x : Nat) : Num :=
  if f.expo x == 0 then ⟨f.sign x, f.frac x, f.emin - f.mbits⟩
  else ⟨f.sign x, f.frac x + 2 ^ f.mbits, (f.expo x : Int) - f.bias - f.mbits⟩

/-- The value of a code of a format other than I4X. -/
def elemVal (elem code : Nat) : FVal :=
  let x := code % 2 ^ elemBits elem
  match elemFmt elem with
  | none => .num (intNum (natToInt x (elemBits elem)))
  | some f =>
    if elem == 1 then (if x % 128 == 127 then .nan else .num (f.finite x))
    else if elem == 2 || elem == 9 || elem == 10 then f.val x
    else .num (f.finite x)

/-- Mmax as a number. -/
def elemMax (elem : Nat) : Num :=
  match elemVal elem (elemMaxCode elem) with
  | .num n => n
  | _ => ⟨false, 0, 0⟩

/-! ### Scales (R155 to R158) -/

/-- The value of a scale record under a scale format; none is NaN. -/
def scaleVal (sf rc : Nat) : Option Num :=
  match sf with
  | 0 => if rc % 256 == 255 then none else some ⟨false, 1, (rc % 256 : Nat) - 127⟩
  | 1 => if rc % 128 == 127 then none else some ((Fmt.mk 4 3).finite (rc % 128))
  | _ => some ⟨false, 1, 0⟩

def Num.abs (n : Num) : Num := { n with neg := false }

/-- Order of numbers. -/
def Num.lt (a b : Num) : Bool :=
  let e := if a.e < b.e then a.e else b.e
  decide (a.at_ e < b.at_ e)

/-- A quotient of numbers to 96 bits with its sticky bit. -/
def quotient (a b : Num) : Exact :=
  if a.m == 0 then ⟨a.neg != b.neg, 0, 0, false⟩ else divExact (a.neg != b.neg) a b 96

/-- RoundScale of a positive quotient: code and whether it saturated (R157). -/
def roundScale (sf sdir : Nat) (x : Exact) : Nat × Bool :=
  if sf == 0 then
    let l := Nat.log2 x.m
    let j0 := x.e + (l : Nat)
    let pow := x.m == 2 ^ l && !x.sticky
    let mid := 3 * 2 ^ l
    let up : Bool :=
      match sdir with
      | 0 => !pow
      | 1 => decide (mid < 2 * x.m) || (mid == 2 * x.m && (x.sticky || (j0 + 127) % 2 == 1))
      | _ => false
    let j := if up then j0 + 1 else j0
    if 127 < j then (0xFE, true) else if j < -127 then (0, false) else ((j + 127).toNat, false)
  else
    let f : Fmt := ⟨4, 3⟩
    let q := quantum f.mbits (some (f.emin - f.mbits)) x.m x.e
    let (n, _) := roundAt (if sdir == 0 then 3 else if sdir == 1 then 1 else 2) x q
    if n == 0 then (1, false)
    else if Num.lt ⟨false, 448, 0⟩ ⟨false, n, q⟩ then (0x7E, true)
    else (f.encode false n q, false)

/-- The largest magnitude of a list. -/
def maxNum (xs : List Num) : Num := xs.foldl (fun a x => if a.lt x.abs then x.abs else a) ⟨false, 0, 0⟩

/-- D of R158. -/
def slotD (sl : Slot) : Num := if sl.elem == 8 then ⟨false, 7 * sl.ratio, 0⟩ else elemMax sl.elem

/-- BlockScale (R158): the scale code of a block's values with the flags it raises. -/
def blockScale (sl : Slot) (xs : List FVal) : Nat × FFlags :=
  if sl.scale == 2 then (0, 0)
  else
    let ns := xs.filterMap fun v => match v with
      | .num n => some n
      | _ => none
    if ns.length != xs.length then (if sl.scale == 0 then 0xFF else 0x7F, flagNV)
    else
      let amax := maxNum ns
      if amax.m == 0 then (if sl.scale == 0 then 0x7F else 0x38, 0)
      else
        let (c, sat) := roundScale sl.scale sl.sdir (quotient amax (slotD sl))
        (c, if sat then flagQSAT else 0)

/-- Whether |RNE(y)| exceeds 7. -/
def isOutlier (y : Exact) : Bool := decide (7 < (roundAt 1 y 0).1)

/-- The element as read by I4X: NaN and infinities are zero. -/
def i4xNum : FVal → Num
  | .num n => n
  | _ => ⟨false, 0, 0⟩

/-- OEXP of R167 for a block's values under a scale. -/
def outlierExp (s : Num) (xs : List FVal) : Nat :=
  let ys := xs.map fun v => quotient (i4xNum v) s
  let big := (ys.filter isOutlier).foldl (fun (a : Exact) y => if Num.lt ⟨false, a.m, a.e⟩ ⟨false, y.m, y.e⟩ then y else a)
    ⟨false, 0, 0, false⟩
  if big.m == 0 then 0
  else
    let f : Fmt := ⟨4, 3⟩
    let q := quantum f.mbits (some (f.emin - f.mbits)) big.m big.e
    let n := (roundAt 1 big q).1
    Nat.min 15 (q + (Nat.log2 n : Nat) + f.bias).toNat

/-- The record of a block and its flags (R167). -/
def blockRecord (sl : Slot) (xs : List FVal) : Nat × FFlags :=
  let (c, f) := blockScale sl xs
  if sl.elem == 8 then
    match scaleVal 0 c with
    | some s => (c + 256 * outlierExp s xs, f)
    | none => (c, f)
  else (c, f)

/-! ### Elements -/

/-- Rounds to a multiple of 2^q by EROUND, with the lane's draw for stochastic rounding. -/
def eround (mode draw : Nat) (x : Exact) (q : Int) : Nat :=
  match mode with
  | 0 => (roundAt 1 x q).1
  | 1 => (roundAt 2 x q).1
  | _ => (roundStochAt draw x q).1

/-- The overflow code of R168. -/
def overflowCode (sl : Slot) (neg : Bool) : Nat × FFlags :=
  if sl.ovf then
    (match sl.elem with
     | 1 => (0x7F, flagOF)
     | e => (match elemFmt e with
       | some f => (f.inf neg, flagOF)
       | none => (0, flagOF)))
  else
    (match elemFmt sl.elem with
     | some f => (elemMaxCode sl.elem + b2n neg * 2 ^ (f.width - 1), flagQSAT)
     | none => (intToNat (if neg then -(elemMaxCode sl.elem : Nat) else (elemMaxCode sl.elem : Nat)) (elemBits sl.elem),
        flagQSAT))

/-- The code of n × 2^q with a sign. -/
def elemCode (elem : Nat) (neg : Bool) (n : Nat) (q : Int) : Nat :=
  match elemFmt elem with
  | some f => f.encode neg n q
  | none => intToNat (if neg then -(n : Int) else n) (elemBits elem)

/-- R168: the code of one value of a format other than I4X, under a scale record. -/
def quantOne (sl : Slot) (draw rc : Nat) (v : FVal) : Nat × FFlags :=
  match scaleVal sl.scale rc, v with
  | none, _ => ((elemNan sl.elem).getD 0, flagNV)
  | _, .nan => ((elemNan sl.elem).getD 0, flagNV)
  | some _, .inf neg => overflowCode sl neg
  | some s, .num x =>
    if s.m == 0 then (if x.m == 0 then (elemCode sl.elem x.neg 0 0, 0) else overflowCode sl x.neg)
    else
      let y := quotient x s
      if y.m == 0 then (elemCode sl.elem x.neg 0 0, 0)
      else
        let q : Int := match elemFmt sl.elem with
          | some f => quantum f.mbits (some (f.emin - f.mbits)) y.m y.e
          | none => 0
        let n := eround sl.eround draw y q
        if (elemMax sl.elem).lt ⟨false, n, q⟩ then overflowCode sl x.neg else (elemCode sl.elem x.neg n q, 0)

/-- R169: the nibble of an I4X lane. `even` says which lane of the pair it is; x and p are its value and its
partner's. -/
def quantI4x (sl : Slot) (draw rc : Nat) (even : Bool) (x p : FVal) : Nat × FFlags :=
  match scaleVal 0 rc with
  | none => (0, flagNV)
  | some s =>
    let y := quotient (i4xNum x) s
    let yp := quotient (i4xNum p) s
    let o := isOutlier y
    let op := isOutlier yp
    let nv : FFlags := match x with
      | .num _ => 0
      | _ => flagNV
    let ax := (i4xNum x).abs
    let ap := (i4xNum p).abs
    -- whether the pair's outlier is this lane
    let mine := o && (!op || ap.lt ax || (!ax.lt ap && even))
    if mine then (8, nv)
    else if !o && !op then
      let k := eround sl.eround draw y 0
      let k' := if 7 < k then 7 else k
      (intToNat (if y.neg then -(k' : Int) else k') 4, nv ||| (if 7 < k then flagQSAT else 0))
    else
      let q : Int := (natField rc 8 4 : Nat) - 7
      -- (|y| ÷ 2^q − 1) × 8 as a number of eighths above one
      let one := 2 ^ 96
      let v : Nat := (if 96 + yp.e - q < 0 then yp.m / 2 ^ (-(96 + yp.e - q)).toNat else yp.m * 2 ^ (96 + yp.e - q).toNat)
      let m := if v ≤ one then 0 else Nat.min 7 (eround sl.eround draw ⟨false, v - one, -93, false⟩ 0)
      let d := b2n yp.neg * 8 + m
      (if even && d == 8 then 9 else d, nv ||| (if o then flagQLOSS else 0))

/-- The value of lane nibble `mine` in its pair (R154, R170). -/
def i4xVal (rc : Nat) (even : Bool) (mine partner : Nat) : Num :=
  let lo := (if even then mine else partner) % 16
  let hi := (if even then partner else mine) % 16
  let out (n : Nat) : Num := ⟨natBit n 3, 8 + n % 8, (natField rc 8 4 : Nat) - 10⟩
  if lo == 8 then (if even then out hi else ⟨false, 0, 0⟩)
  else if hi == 8 then (if even then ⟨false, 0, 0⟩ else out lo)
  else intNum (natToInt mine 4)

/-- A code's value times its scale, to FP32 (R170). -/
def dequantVal (c : FCtl) (sl : Slot) (rc : Nat) (v : FVal) : FR :=
  match scaleVal (if sl.elem == 8 then 0 else sl.scale) rc, v with
  | none, _ => ⟨fmt32.nan, 0⟩
  | _, .nan => ⟨fmt32.nan, 0⟩
  | some s, .inf neg => if s.m == 0 then ⟨fmt32.nan, flagNV⟩ else ⟨fmt32.inf neg, 0⟩
  | some s, .num n =>
    let r := fmt32.roundNum { c with rm := 1 } (mulNum n s)
    ⟨r.v, r.f &&& ~~~flagNX⟩

/-! ### Instructions -/

/-- An FP32 source of a lane as a value, DAZ applied; +0.0 at or beyond `%lanes` (R162). -/
def blockF (s : State) (t : Team) (c : FCtl) (x : Src) (L : Nat) : FVal :=
  if L < t.nlanes then fmt32.val (fmt32.daz c (valF s t false L .f32 x)) else .num ⟨false, 0, 0⟩

/-- A code or record source of a lane; 0 at or beyond `%lanes`. -/
def blockW (s : State) (t : Team) (x : Src) (L : Nat) : Nat := if L < t.nlanes then (val32 s t false L x).toNat else 0

/-- The lanes of the block of a lane. -/
def blockLanes (sl : Slot) (L : Nat) : List Nat := (List.range sl.block).map (L / sl.block * sl.block + ·)

/-- The partner of an I4X lane. -/
def partner (L : Nat) : Nat := if L % 2 == 0 then L + 1 else L - 1

/-- A quantisation instruction: a slot without a format faults with ILLOP (R164); `draws` says that every eligible lane
takes one draw. -/
def narrowOp (s : State) (i : Instr) (x : Narrow) (draws : Slot → Bool) (keep : Slot → Nat → Bool)
    (val : Team → Slot → FCtl → Nat → LaneRes) : Out :=
  onTeam s fun t =>
    let sl := s.slot t x.slot.toNat
    let m := t.eligible x.g
    let c := fctl t.ctl.mode 0
    let r := val t sl c
    let w := (t.onLanes m fun L l => match x.d with
      | .v n => if keep sl L then l else l.setVs n.toNat (r L).ws
      | _ => l)
    let w' := if draws sl then w.stepRng m 1 else w
    finish s t i (withAlloc t x.d [x.a, x.b]
      (if sl.elem == 0 then .error illop else endFlags t false (m.lanes t.nlanes) (fun L => (r L).f) w'))

def neverDraws (_ : Slot) : Bool := false
def keepNone (_ : Slot) (_ : Nat) : Bool := false
def drawsStoch (sl : Slot) : Bool := sl.eround == 2

/-- The record of the block of a lane. -/
def recordOf (s : State) (t : Team) (c : FCtl) (sl : Slot) (a : Src) (L : Nat) : Nat × FFlags :=
  blockRecord sl ((blockLanes sl L).map (blockF s t c a))

/-- R167. -/
def execQscale (x : Narrow) (s : State) : Out :=
  narrowOp s (.qscale x) x neverDraws keepNone fun t sl c L =>
    let (r, f) := recordOf s t c sl x.a L
    ⟨[BitVec.ofNat 32 r], f⟩

/-- The code of a lane under a record (R168, R169). -/
def quantLane (s : State) (t : Team) (c : FCtl) (sl : Slot) (a : Src) (rc draw L : Nat) : Nat × FFlags :=
  if sl.elem == 8 then quantI4x sl draw rc (L % 2 == 0) (blockF s t c a L) (blockF s t c a (partner L))
  else quantOne sl draw rc (blockF s t c a L)

/-- R168, R169. -/
def execQuant (x : Narrow) (s : State) : Out :=
  narrowOp s (.quant x) x drawsStoch keepNone fun t sl c L =>
    let (r, f) := quantLane s t c sl x.a (blockW s t x.b L) ((t.lane L).draw 0) L
    ⟨[BitVec.ofNat 32 r], f⟩

/-- The value of a lane's code. -/
def codeVal (sl : Slot) (rc L mine other : Nat) : FVal :=
  if sl.elem == 8 then .num (i4xVal rc (L % 2 == 0) mine other) else elemVal sl.elem mine

/-- R170. -/
def execDequant (x : Narrow) (s : State) : Out :=
  narrowOp s (.dequant x) x neverDraws keepNone fun t sl c L =>
    let rc := blockW s t x.b L
    let r := dequantVal c sl rc (codeVal sl rc L (blockW s t x.a L) (blockW s t x.a (partner L)))
    ⟨[BitVec.ofNat 32 r.v], r.f⟩

/-- Bits of a list of w-bit fields, the first lowest. -/
def concatBits (w : Nat) : List Nat → Nat
  | [] => 0
  | x :: r => x % 2 ^ w + 2 ^ w * concatBits w r

/-- R172: lanes from B × w ÷ 32 on keep their destination. -/
def execQpack (x : Narrow) (s : State) : Out :=
  narrowOp s (.qpack x) x neverDraws (fun sl L => sl.block * elemBits sl.elem / 32 ≤ L % sl.block) fun t sl _ L =>
    let str := concatBits (elemBits sl.elem) ((blockLanes sl L).map (blockW s t x.a))
    ⟨[BitVec.ofNat 32 (natField str (32 * (L % sl.block)) 32)], 0⟩

/-- R172. -/
def execQunpack (x : Narrow) (s : State) : Out :=
  narrowOp s (.qunpack x) x neverDraws keepNone fun t sl _ L =>
    let w := elemBits sl.elem
    let n := sl.block * w / 32
    let str := concatBits 32 (((blockLanes sl L).take n).map (blockW s t x.a))
    ⟨[BitVec.ofNat 32 (natField str (w * (L % sl.block)) w)], 0⟩

/-- R171: the value that the lane's code under the block's record stands for; a partner that is not eligible is
quantised with RNE. -/
def execFmtq (x : Narrow) (s : State) : Out :=
  narrowOp s (.fmtq x) x drawsStoch keepNone fun t sl c L =>
    let m := t.eligible x.g
    let (rc, f0) := recordOf s t c sl x.a L
    let (code, f1) := quantLane s t c sl x.a rc ((t.lane L).draw 0) L
    let p := partner L
    let slp := if m.has p then sl else { sl with eround := 0 }
    let other := (quantLane s t c slp x.a rc ((t.lane p).draw 0) p).1
    let r := dequantVal c sl rc (codeVal sl rc L code other)
    ⟨[BitVec.ofNat 32 r.v], f0 ||| f1 ||| r.f⟩

/-- A random-stream instruction that steps and writes. -/
def rngOp (s : State) (i : Instr) (g : Guard) (d : Dst) (out : Word → Word) : Out :=
  onTeam s fun t =>
    let m := t.eligible g
    finish s t i (withAlloc t d []
      (.ok ((t.writeDst m d fun L => [out (rngOut (rngStep (t.lane L).rng))]).stepRng m 1)))

/-- R174. -/
def execRngNext (g : Guard) (d : Dst) (s : State) : Out := rngOp s (.rngNext g d) g d id

/-- R174: out[31:8] × 2^−24 is exact. -/
def execRngUnif (g : Guard) (d : Dst) (s : State) : Out :=
  rngOp s (.rngUnif g d) g d fun w => BitVec.ofNat 32 (fmt32.roundNum ctlRne ⟨false, w.toNat / 256, -24⟩).v

/-- The state that stands for zero. -/
def rngZero : DWord := 0x9E3779B97F4A7C15

/-- R174: a pipe instruction on the eligible lanes, also with a uniform source (DEDUCED, log entry 115). -/
def execRngSeed (g : Guard) (a : Src) (s : State) : Out :=
  onTeam s fun t =>
    let seed (L : Nat) : DWord :=
      let x := val64 s t false L false a
      if x == 0 then rngZero else x
    finish s t (.rngSeed g a) (withAlloc t .none [a]
      (.ok (t.onLanes (t.eligible g) fun L l => { l with rng := seed L })))

/-- The state of a lane at team start (R175). -/
def rngStart (grid team : Word) (L : Nat) : DWord :=
  let x := (pair32 0 grid + (team.setWidth 64 <<< 10) + BitVec.ofNat 64 L) ^^^ rngZero
  if x == 0 then rngZero else x

/-! ### Alignment (R176, R177) -/

/-- The smallest exponent E with |v| ÷ 2^E ≤ mc for every v; 0 when all are zero. -/
def alignExp (vs : List Num) (mc : Nat) : Int :=
  let top := maxNum vs
  if top.m == 0 then 0
  else
    -- |v| = m × 2^e and 2^l ≤ mc < 2^(l+1): E is e + log2 m − l or one more
    let e0 := top.e + (Nat.log2 top.m : Nat) - (Nat.log2 mc : Nat)
    if Num.lt ⟨false, mc, e0⟩ top then e0 + 1 else e0

/-- RNE(v ÷ 2^E). -/
def alignTo (e : Int) (v : Num) : Int :=
  if v.m == 0 then 0
  else
    let n := (roundAt 1 v.exact e).1
    if v.neg then -(n : Int) else n

/-- AlignGroup: the exponent and the integers. -/
def alignGroup (vs : List Num) (mc : Nat) : Int × List Int :=
  let e := alignExp vs mc
  (e, vs.map (alignTo e))

end Sys2Proof.Machine
end

