-- ==== Sys2Proof/Machine/Start.lean ====
section
/-! DEFINITION. How a team starts: the initial state of 01 R31. -/

namespace Sys2Proof.Machine

/-- A launch record of one team of no lanes. -/
def blankLaunch : Launch :=
  { entry := 0, yieldPc := 0, lanes := 0, vregs := 0, spillD := 0, scratch := 0, tpc := 1, cpq := 1, qpd := 1, dies := 1,
    pkgs := 1, part := 0, idemp := false, wphase := false, gfx := false, prio := 0, htbase := 0, htlimit := 0, sigvec := 0,
    cntva := 0, fmts := List.replicate 8 0, resvOk := true }

/-- Registers of a team outside its lanes at its start: MODE is RNE with every control off. -/
def freshCtl (entry : DWord) (genr : Bool) : Ctl :=
  { mode := 1, fstat := 0, regctr := 0, finfo := [0, 0, 0, 0], epc := 0, repc := entry, genr, slend := false,
    hmode := false, ksv := 0, kss := 0, ksp := 0 }

/-- A lane at team start (R31, 06 R175). -/
def freshLane (grid team : Word) (nvregs L : Nat) : Lane := ⟨List.replicate nvregs 0, 0, rngStart grid team L⟩

/-- A team at its start, with a header due at the kernel entry. -/
def freshTeam (uid age : Nat) (ctx grid teamNo : Word) (ix : GridIx) (place : Place) (lr : Launch) (genr : Bool) : Team :=
  { uid, ctx, grid, teamNo, ix, place, nlanes := lr.lanes, nvregs := lr.vregs, spillD := lr.spillD,
    lanes := (List.range lr.lanes).map (freshLane grid teamNo lr.vregs), s := List.replicate 64 0,
    active := Mask.upTo lr.lanes, exited := 0, stack := [], pc := lr.entry, clause := ⟨0, 15, 15, 0⟩,
    ctl := freshCtl lr.entry genr, flags := List.replicate 12 0, scratchLen := lr.scratch, scratch := [], binds := [],
    cbs := List.replicate 8 Cb.zero, status := .running, unfin := none, since := none, mark := none, reply := [], efaults := [],
    age, passed := 0, leave := .stay, noRelaunch := false, retiring := false, acquired := 0,
    slotRec := { grid, team := teamNo, a := ix.a, b := ix.b, d := ix.d, e := ix.e, g := ix.g, slot := place.slot, core := place.core,
                 die := place.die, restore := false, ctx } }

end Sys2Proof.Machine
end

