-- ==== Sys2Proof/Machine/EngineMem.lean ====
section
/-! DEFINITION. Element accesses of engine commands (13 R341, 12 R527): how they reach memory, the scratchpad and tiles, how
they wait, and how they end a command; storage in use (09 R245). -/

namespace Sys2Proof.Machine

open Host (Cell)

/-! ### The commanding team -/

/-- The team as which a command acts, at the command's place and parcel; a team that is gone holds nothing. -/
def opTeam (s : State) (o : Op) : Team :=
  let ghost := freshTeam o.uid 0 o.ctx o.grid 0xFFFFFFFF ⟨0, 0, 0, 0, 0⟩ ⟨o.die, o.core, 0⟩ blankLaunch false
  let t := (s.teamAny o.uid).getD ghost
  { t with place := ⟨o.die, o.core, t.place.slot⟩, pc := o.ipc }

/-- An access of a command through a handle entry. -/
def engReq (s : State) (o : Op) (h : BitVec 12) (e : HEnt) (write : Bool) (size : Nat) : Req :=
  let t := opTeam s o
  { t, c := s.ctxOf t, ix := h, e, uni := true, use := if write then .engW else .engR,
    acc := if write then .engWrite else .engRead, size, align := 1, lanes := [], opc := o.opc, tile := h == 0xFFF }

/-- The entry by which an engine reaches a tile: its buffer's bytes without a byte's own tile state, since the tile's
tenure has been checked (R339). -/
def tileEntry (base : DWord) : HEnt := vaEntry base

/-! ### Waits and ends -/

/-- How an access of a command goes: bytes, a wait until it is tried again, or the end of the command. -/
inductive ERes where
  | ok (bytes : List Byte) (s : State)
  | wait (s : State)
  | over (s : State)

/-- A command ends FAULTED if it has not ended. -/
def overOp (s : State) (o : Op) (f : FaultInfo) : State :=
  match s.op? o.id with
  | some p => faultOp s { p with names := o.names } f
  | none => s

/-- Reports a page fault with the command in place of the pc (R341). -/
def parkOp (s : State) (o : Op) (va : DWord) (f : XFault) : State :=
  let t := opTeam s o
  let s2 := f.code != codePage
  let r := mkRecord s t
    { code := f.code, opc := o.opc, detail := f.detail, ipc := o.ipc, addr := va, gpa := f.gpa, s2 } true o.ipc
  let (seq, s) := s.queueRecord (parkQueue s t f) r
  let rep : ParkRep := { s2, granule := (if s2 then f.gpa.toNat else va.toNat % 2 ^ 57) / 2 ^ 15, seq, rpt := r }
  { s with eparks := s.eparks.filter (·.1 != o.id) ++ [(o.id, [rep])] }

/-- A command joins the waiters of an item. -/
def joinItem (s : State) (op die ix : Nat) : State :=
  s.updFill fun f => { f with
    items := f.items.map fun i => if i.die == die && i.ix == ix && !i.cmds.contains op then { i with cmds := i.cmds ++ [op] } else i }

/-- Whether a command waits for a handler or for a fill. -/
def State.opHeld (s : State) (op : Nat) : Bool := s.eparks.any (·.1 == op) || s.fill.items.any fun i => i.cmds.contains op

/-- An error response ends a command FAULTED with CONTAINED, and its context halts (R341). -/
def opError (s : State) (o : Op) (detail : Word) : State :=
  overOp (haltOp s o codeContained detail) o { code := codeContained, detail }

/-- A page fault of a command: PERM ends it, an error response of a walk halts, the rest waits. -/
def opXFault (s : State) (o : Op) (va : DWord) (detail : Word) (f : XFault) : ERes :=
  if f.code == codePerm then .over (overOp s o { code := codePerm, detail, addr := va })
  else if f.code == codeContained then .over (opError s o f.detail)
  else .wait (parkOp s o va f)

/-- Whether a command acts under its team's tenure: the line belongs in the L2 of its die (11 R291, R306). -/
def tenuredVa (s : State) (t : Team) (va : DWord) : Bool :=
  s.tiles.tiles.any fun x => x.live && x.ctx == t.ctx && x.st == .opened && x.holder == some t.who &&
    (s.bufOf x.ctx x.buf).any fun b => boxHas b.shape x.lo x.sz (va - b.base).toNat

/-- A command's request for a line to its slices, unless it waits there for that line already, and to the line's home (08
R208, 11 R292); its store waits for the line there. -/
def engLine (s : State) (o : Op) (q : Req) (off : Int) (pa : Nat) : State :=
  let line := lineOf pa
  let waits := s.caches.l2.any (fun x => x.line == line && x.pending.any (·.op == o.id)) ||
    s.caches.nacks.any fun n => n.line == line && n.who.op == o.id
  if q.e.policy == 3 || waits then s
  else
    l2Request s q.cls (q.e.policy == 1)
      { die := o.die, core := o.core, write := q.acc.writes, own := tenuredVa s q.t (q.e.va off), atHome := q.acc == .atomic, now := true }
      [(line, q.waiter o.id 0 pa)]

/-- A command that reads a block is among its readers until it ends (14 R364). -/
def State.readBlock (s : State) (ctx : Word) (va : DWord) (op : Nat) : State :=
  match s.blockAt ctx va with
  | some (r, b, _) => s.updBlock ctx r.n b fun x => if x.readers.contains op then x else { x with readers := op :: x.readers }
  | none => s

/-- A part of an access, to its physical address. -/
inductive Reach where
  | at_ (pa : Nat) (s : State)
  | res (r : ERes)

def enginePart (s : State) (o : Op) (q : Req) (off : Int) (n : Nat) : Reach :=
  let va := q.e.va off
  match partAt s q off n with
  | .at_ _ _ (some d) s => .res (.over (opError s o d))
  | .at_ pa _ none s =>
    let s := if q.acc.writes then s.settle ((List.range n).map (pa + ·)) else s
    .at_ pa (engLine (if q.acc.reads then s.readBlock q.c.id va o.id else s) o q off pa)
  | .park f s => .res (opXFault s o va (q.ix.setWidth 32) f)
  | .wait (.fill is _ _) s => .res (.wait (is.foldl (fun s i => joinItem s o.id i.1 i.2) s))
  | .wait _ s => .res (.wait s)
  | .fault code detail s => .res (.over (overOp s o { code, detail, addr := va }))
  | .gone s =>
    let halted := ((s.ctx? o.ctx).map (·.halted.isSome)).getD true
    .res (.over (overOp s o { code := if halted then codeContained else codeFillDepth }))

/-! ### Bytes -/

/-- Whether a byte belongs to a command's own destination or source. -/
def ownUse (s : State) (op : Nat) (dst : Bool) (scratch : Option Nat) (a : Nat) : Bool :=
  s.uses.any fun u => u.op == op && u.dst == dst && (s.useAt u).has scratch a

/-- A byte as a command reads it: undefined in storage that another command uses, but for a tile that both read, and where it
writes itself (R342). -/
def engSee (s : State) (op : Nat) (scratch : Option Nat) (a : Nat) (b : Byte) (calm : Bool := false) : Byte :=
  if s.uses.isEmpty then b
  else if s.usedBy scratch a (some op) calm || ownUse s op true scratch a then Config.freeByte s.ticks a else b

/-- A byte as a command writes it. -/
def engLeave (s : State) (op : Nat) (scratch : Option Nat) (a : Nat) (b : Byte) : Byte :=
  if s.usedBy scratch a (some op) || ownUse s op false scratch a then Config.freeByte s.ticks a else b

def engGet (o : Op) (q : Req) : State → List (Int × Nat) → List Byte → ERes
  | s, [], acc => .ok acc s
  | s, (off, n) :: rest, acc =>
    match enginePart s o q off n with
    | .res r => r
    | .at_ pa s =>
      let bs := (List.range n).map fun (i : Nat) => openByte s q (off + i) (pa + i) (engSee s o.id none (pa + i) (s.homeByte (pa + i)) (q.calm s (off + i)))
      engGet o q s rest (acc ++ bs)

def engPut (o : Op) (q : Req) : State → List (Int × Nat) → List Byte → ERes
  | s, [], _ => .ok [] s
  | s, (off, n) :: rest, bs =>
    match enginePart s o q off n with
    | .res r => r
    | .at_ pa s =>
      let cs : List Cell := (bs.take n).mapIdx fun i b => (pa + i, engLeave s o.id none (pa + i) b)
      engPut o q ((s.spoil none (cs.map (·.1)) (some o.id)).writeMem cs) rest (bs.drop n)

/-- The parts of an access of a command. -/
def engParts (q : Req) (off : Int) (n : Nat) : List (Int × Nat) := partsOf (q.e.va off).toNat off (n + 1) n

/-- Bytes of the commanding team's scratchpad. -/
def scratchGet (s : State) (o : Op) (a n : Nat) : List Byte :=
  let m : Memory := ((s.teamAny o.uid).map (·.scratch)).getD []
  (List.range n).map fun i => engSee s o.id (some o.uid) (a + i) (m.read (a + i))

def scratchPut (s : State) (o : Op) (a : Nat) (bs : List Byte) : State :=
  let cs : List Cell := bs.mapIdx fun i b => (a + i, engLeave s o.id (some o.uid) (a + i) b)
  (s.spoil (some o.uid) (cs.map (·.1)) (some o.id)).updTeam o.uid fun t => { t with scratch := t.scratch.writeCells cs }

/-! ### MAPPED sides (R341) -/

/-- The write-back of a command's own first touch that is not done. -/
def engHeld (o : Op) (h : BitVec 12) : Gather → ERes
  | .gone s => .over (overOp s o { code := codeContained })
  | .fault f g => .over (overOp g.s o f)
  | .got g =>
    match g.parks, g.wait with
    | c :: _, _ => opXFault g.s o c.va (h.setWidth 32) c.f
    | [], some (.fill is _ _) => .wait (is.foldl (fun s i => joinItem s o.id i.1 i.2) g.s)
    | [], _ => .wait g.s

/-- The binding that an access needs, with the chunks of its bytes filled. -/
def engBind (s : State) (o : Op) (h : BitVec 12) (e : HEnt) : ERes :=
  match s.teamAny o.uid with
  | none => .over (overOp s o { code := codeStale, detail := h.setWidth 32 })
  | some t =>
    match bindOf s t h e o.opc with
    | .held r => engHeld o h r
    | .ok _ t' s => .ok [] (s.updTeam o.uid fun _ => t')

/-- Puts filled bytes into the commanding team's scratchpad: the fill is no write of the command. -/
def scratchFill (s : State) (o : Op) (a : Nat) (bs : List Byte) : State :=
  let cs : List Cell := bs.mapIdx fun i b =>
    (a + i, if s.usedBy (some o.uid) (a + i) (some o.id) then Config.freeByte s.ticks (a + i) else b)
  s.updTeam o.uid fun t => { t with scratch := t.scratch.writeCells cs }

/-- Fills one chunk if it is not valid (08 R203): the map unit reads it as the command's, by the policy and the kind override
of the binding (R361, R341). -/
def engChunk (s : State) (o : Op) (h : BitVec 12) (k : Nat) : ERes :=
  match (s.teamAny o.uid).bind (·.binding h) with
  | none => .wait s
  | some b =>
    if b.valid.contains k then .ok [] s
    else
      match engGet o (b.req s (opTeam s o) .chunk .engRead 128 o.opc) s [((128 * k : Nat), 128)] [] with
      | .ok bs s =>
        .ok [] ((scratchFill s o (b.soff + 128 * k) bs).updTeam o.uid fun t => t.setBinding { b with valid := k :: b.valid })
      | r => r

/-- Makes the chunks of an access valid. -/
def engChunks (o : Op) (h : BitVec 12) : State → List Nat → ERes
  | s, [] => .ok [] s
  | s, k :: rest =>
    match engChunk s o h k with
    | .ok _ s => engChunks o h s rest
    | r => r

/-- Readies the mapped bytes of an access. -/
def engMapped (s : State) (o : Op) (h : BitVec 12) (e : HEnt) (off n : Nat) : ERes :=
  match engBind s o h e with
  | .ok _ s => engChunks o h s ([off / 128, (off + n - 1) / 128].eraseDups)
  | r => r

/-! ### One side of a command -/

/-- Reads bytes through a handle entry. -/
def entryGet (s : State) (o : Op) (h : BitVec 12) (e : HEnt) (off : Int) (n : Nat) : ERes :=
  if e.kind == kScratch then .ok (scratchGet s o (e.soff + off.toNat) n) s
  else if e.kind == kMapped then
    match engMapped s o h e off.toNat n with
    | .ok _ s => .ok (scratchGet s o (e.soff + off.toNat) n) s
    | r => r
  else
    let q := engReq s o h e false n
    engGet o q s (engParts q off n) []

/-- Writes bytes through a handle entry. -/
def entryPut (s : State) (o : Op) (h : BitVec 12) (e : HEnt) (off : Int) (bs : List Byte) : ERes :=
  if e.kind == kScratch then .ok [] (scratchPut s o (e.soff + off.toNat) bs)
  else if e.kind == kMapped then
    match engMapped s o h e off.toNat bs.length with
    | .ok _ s =>
      let ds := (List.range bs.length).map (off.toNat + ·)
      .ok [] ((scratchPut s o (e.soff + off.toNat) bs).updTeam o.uid fun t =>
        match t.binding h with
        | some b => t.setBinding { b with dirty := ds.foldl (fun d k => if d.contains k then d else k :: d) b.dirty }
        | none => t)
    | r => r
  else
    let q := engReq s o h e true bs.length
    engPut o q s (engParts q off bs.length) bs

/-! ### Storage in use (09 R245) -/

/-- A set of elements of a side: the lowest offset, the element's bytes, counts with strides. -/
structure Extent where
  lo   : Int
  w    : Nat
  dims : List (Nat × Nat)
  deriving DecidableEq, Repr

/-- The extent of elements with signed strides. -/
def extentOf (off : Int) (w : Nat) (ext : List Nat) (str : List Int) : Extent :=
  let ds := ext.zip str
  { lo := off + (ds.map fun d => if d.2 < 0 then ((d.1 : Int) - 1) * d.2 else 0).sum, w,
    dims := ds.map fun d => (d.1, d.2.natAbs) }

/-- Bytes from the lowest element to the end of the highest. -/
def Extent.size (x : Extent) : Nat := (x.dims.map fun d => (d.1 - 1) * d.2).sum + x.w

/-- The runs of bytes of an extent, page by page; one of a page that cannot be reached yet by its virtual address. -/
def useRuns (s : State) (c : Ctx) (op : Nat) (dst tile : Bool) (e : HEnt) (x : Extent) : Nat → Int → Nat → List InUse
  | 0, _, _ => []
  | _, _, 0 => []
  | fuel + 1, off, n =>
    let k := Nat.min n (2 ^ 15 - (e.va off).toNat % 2 ^ 15)
    let u : InUse := { op, dst, scratch := none, base := 0, len := k, at_ := (off - x.lo).toNat, w := x.w, dims := x.dims,
                       spoiled := false, tile }
    (match quietPa s c (e.va off) with
     | some pa => { u with base := pa }
     | none => { u with virt := some (c.id, e.va off) }) :: useRuns s c op dst tile e x fuel (off + k) (n - k)

/-- Enters an extent of a side as storage in use. -/
def useExtent (s : State) (o : Op) (dst : Bool) (e : HEnt) (x : Extent) (tile : Bool := false) : State :=
  let us : List InUse :=
    if e.kind == kScratch || e.kind == kMapped then
      [{ op := o.id, dst, scratch := some o.uid, base := e.soff + x.lo.toNat, len := x.size, at_ := 0, w := x.w, dims := x.dims,
         spoiled := false }]
    else useRuns s (s.ctxOf (opTeam s o)) o.id dst tile e x (x.size / 2 ^ 15 + 2) x.lo x.size
  { s with uses := s.uses ++ us }

/-- A run of the commanding team's scratchpad that slots of a circular buffer take (R343); `own` for slots that other agents
may use. -/
def useSlot (s : State) (o : Op) (dst own : Bool) (a n : Nat) : State :=
  { s with uses := s.uses ++ [{ op := o.id, dst, scratch := some o.uid, base := a, len := n, at_ := 0, w := n, dims := [],
                                spoiled := false, own }] }

/-- Whether another agent has written a command's storage. -/
def State.spoiledOp (s : State) (op : Nat) : Bool := s.uses.any fun u => u.op == op && u.spoiled

/-- A spoiled command's destination is undefined. -/
def spoilResult (s : State) (o : Op) : State :=
  if !s.spoiledOp o.id then s
  else
    ((s.uses.filter fun u => u.op == o.id && u.dst && !u.own).map s.useAt).foldl (fun s u =>
      let as := ((List.range u.len).map (u.base + ·)).filter (u.has u.scratch ·)
      let cs : List Cell := as.map fun a => (a, Config.freeByte s.ticks a)
      match u.scratch with
      | none => s.writeMem cs
      | some uid => s.updTeam uid fun t => { t with scratch := t.scratch.writeCells cs }) s

/-! ### Completion counters (13 R345, 12 R317) -/

/-- The increment of a counter as a release atomic; a page fault of the counter leaves the command waiting. -/
def countUp (s : State) (o : Op) (h : BitVec 12) (e : HEnt) (off : Nat) : ERes :=
  let q : Req := { engReq s o h e false 4 with acc := .atomic }
  match enginePart s o q off 4 with
  | .res r => r
  | .at_ pa s =>
    let x := leNat ((List.range 4).map fun (i : Nat) => openByte s q (off + i : Nat) (pa + i) (engSee s o.id none (pa + i) (s.mem.read (pa + i))))
    let cs : List Cell := cellsAt pa (leBytes 4 ((x + 1) % 2 ^ 32))
    .ok [] ((s.spoil none (cs.map (·.1)) (some o.id)).writeMem (s.storeCells cs (some o.id)))

/-! ### Issue -/

/-- Reads a descriptor as one plain load of the team (R338), or ends the instruction. -/
def loadRecord (s : State) (t : Team) (i : Instr) (fs : Bool) (r : RecRef) (size align : Nat)
    (go : List Byte → State → Out) : Out :=
  match readRecord s t i (some fs) .ld r size align with
  | .ok (bs, s) => go bs s
  | .error s => .next s

/-- One check of a handle that a command names, by R195, as one access of `size` bytes at an offset. -/
def sideCheck (s : State) (t : Team) (i : Instr) (fs : Bool) (h : BitVec 12) (use : Use) (acc : Access) (off : Int)
    (size align : Nat) (go : HEnt → State → Out) : Out :=
  withHandle s t i (some fs) true t.active (.idx h) fun ix e s =>
    let q : Req :=
      { t, c := s.ctxOf t, ix, e, uni := true, use, acc, size, align, lanes := [(0, off)], opc := instrOpc i }
    match q.check s with
    | some f => .next (takeFault s t i f)
    | none => go e s

/-- The partition of a team's context. -/
def State.partOf (s : State) (t : Team) : Option Part := s.part? (s.ctxOf t).part

/-- The local number of a die, 0 to 3. -/
def dieNo (die : Nat) : Nat := die % 4

/-- Copy engines of a partition on a die (R334). -/
def Part.copyEngines (p : Part) (die : Nat) : Nat :=
  ((List.range 8).filter fun k => ((p.copyEng[dieNo die]?).getD 0).getLsbD k).length

/-- A fault of a missing engine. -/
def absentFault (t : Team) : FaultInfo := t.uniFault codeAbsent

end Sys2Proof.Machine
end

