-- ==== Sys2Proof/Machine/Sync.lean ====
section
/-! DEFINITION. Fences (09 R247 to R250), barriers, waits, signals and circular buffers (10 R262 to R278). -/

namespace Sys2Proof.Machine

/-! ### fence (09 R248)

A fence first stops its team; FENCE_COMPLETE marks it once the accesses it waits for are performed, and the fence then
acts and ends. -/

/-- Reads of a team whose value has not been delivered. -/
def State.readsOut (s : State) (uid : Nat) : Bool :=
  s.ops.any fun o => o.uid == uid && (match o.kind with
    | .load .. | .atomic .. => true
    | _ => false)

/-- Whether a waiting fence may complete; stores in the queue are performed by the fence itself. -/
def fenceMay (s : State) (t : Team) (rel : Bool) : Bool := !s.readsOut t.uid && !(rel && s.sigsOut t.uid)

/-- What the six forms share: whether the fence waits for writes too, whether it acquires. -/
def fenceMeaning (s : State) (i : Instr) (rel acq : Bool) (act : State → Team → State) : Out :=
  onTeam s fun t =>
    if t.mark.isNone then waitHere s t (.fence rel)
    else .next ((act s t).setTeam ((if acq then t.acquireAll else t).advance i))

/-- Earlier accesses are performed at a scope. -/
def performAt (s : State) (t : Team) (sc : Scope) : State :=
  if Scope.beyondCore sc then s.drainCore t.place.die t.place.core else s

def execFenceAcq (scope : Scope) (s : State) : Out := fenceMeaning s (.fenceAcq scope) false true fun s _ => s

def execFenceRel (scope : Scope) (s : State) : Out :=
  fenceMeaning s (.fenceRel scope) true false fun s t => performAt s t scope

def execFenceAcqrel (scope : Scope) (s : State) : Out :=
  fenceMeaning s (.fenceAcqrel scope) true true fun s t => performAt s t scope

/-- R242, R248. -/
def execFenceSc (scope : Scope) (s : State) : Out :=
  fenceMeaning s (.fenceSc scope) true true fun s t => s.drainCore t.place.die t.place.core

/-- R244, R248: the read-only caches of every core of the scope are invalidated, and no read that is on its way answers a
later one of theirs. -/
def execFenceRo (scope : Scope) (s : State) : Out :=
  fenceMeaning s (.fenceRo scope) true false fun s t =>
    let s := s.drainCore t.place.die t.place.core
    { s with caches := { s.caches with
      ro := s.caches.ro.filter fun l => !scopeHolds t.place scope l.die l.core
      routers := s.caches.routers.map fun r => if r.ro then { r with barred := (t.place, scope) :: r.barred } else r } }

/-- R248. -/
def execFenceOpr (scope : Scope) (s : State) : Out :=
  fenceMeaning s (.fenceOpr scope) true false fun s t => s.drainCore t.place.die t.place.core

/-- FENCE_COMPLETE: the accesses that a fence waits for are performed. -/
def execFenceComplete (uid : Nat) (s : State) : Out :=
  match s.team? uid with
  | some t =>
    match t.status with
    | .waiting (.fence rel) =>
      if fenceMay s t rel then .next (s.setTeam { t with status := .running, mark := some 0 }) else .next s
    | _ => .next s
  | none => .next s

/-! ### Barriers (R262 to R267) -/

def State.bar? (s : State) (k : BarKey) : Option Bar := s.bars.find? (·.key == k)

def State.setBar (s : State) (b : Bar) : State :=
  { s with bars := if s.bars.any (·.key == b.key) then s.bars.map fun x => if x.key == b.key then b else x else s.bars ++ [b] }

/-- The instance of a scope that a team belongs to, by its place in the grid: teams of a grid share a unit when they share
these indices (01 R29), on whatever cores they stand, so that a restore elsewhere finds the same barrier (R267). -/
def gridInst (x : GridIx) : Scope → Nat
  | .team | .core => ((x.g * 4 + x.e) * 16 + x.d) * 4 + x.b
  | .quad => (x.g * 4 + x.e) * 16 + x.d
  | .die => x.g * 4 + x.e
  | .pkg => x.g
  | .pod | .sys => 0

def barKey (t : Team) (scope : Scope) (id : BitVec 8) : BarKey := ⟨t.grid, scope, gridInst t.ix scope, id.toNat⟩

/-- Teams of the grid in the instance that have not retired, saved ones included. -/
def barMembers (s : State) (k : BarKey) : List Word :=
  ((s.teams ++ (s.saved.map (·.teams)).flatten).filter fun t =>
    t.grid == k.grid && gridInst t.ix k.scope == k.inst && !t.retiring).map (·.teamNo)

/-- Whether a generation that has arrivals is complete (R263). -/
def genFull (s : State) (k : BarKey) (g : BarGen) : Bool :=
  match g.counted with
  | some n => n ≤ g.number
  | none => (barMembers s k).all g.arrived.contains

/-- An arrival joins a generation, or finds the other mode there. -/
def joinGen (g : Option BarGen) (team : Word) (n : Option Nat) : Option BarGen :=
  match g with
  | none => some ⟨n, [team], 1⟩
  | some g =>
    if g.counted.isSome == n.isSome then some { g with arrived := team :: g.arrived, number := g.number + 1 } else none

/-- Whether a generation takes an arrival of a mode: one the team has not arrived at, or one that is not full. -/
def genOpen (g : Option BarGen) (team : Word) (counted : Bool) : Bool :=
  match g with
  | none => true
  | some g =>
    if counted then
      (match g.counted with
       | some n => g.number < n
       | none => true)
    else !g.arrived.contains team

inductive Arrival where
  | at_ (b : Bar) (gen : Word)
  | mode
  | third

/-- The arrival of a team at a barrier (R263). -/
def arrive (b : Bar) (team : Word) (n : Option Nat) : Arrival :=
  if genOpen b.cur team n.isSome then
    (match joinGen b.cur team n with
     | some g => .at_ { b with cur := some g } b.completed
     | none => .mode)
  else if genOpen b.nxt team n.isSome then
    (match joinGen b.nxt team n with
     | some g => .at_ { b with nxt := some g } (b.completed + 1)
     | none => .mode)
  else .third

/-- A complete current generation of a barrier is over: the next one becomes current. -/
def Bar.next (b : Bar) (full : BarGen → Bool) : Bar :=
  if b.cur.any full then { b with completed := b.completed + 1, cur := b.nxt, nxt := none } else b

/-- A barrier without its complete generations, of which it holds two at most. -/
def Bar.released (b : Bar) (full : BarGen → Bool) : Bar := (b.next full).next full

/-- The count operand: none in all-teams mode, an error outside 1 to 65,535. -/
def barCount (s : State) (t : Team) (n : Src) : Except FaultInfo (Option Nat) :=
  match n with
  | .none => .ok none
  | n =>
    let v := (val32 s t true 0 n).toNat
    if 1 ≤ v && v ≤ 65535 then .ok (some v) else .error illop

/-- Whether generation g of a barrier is complete (R266). -/
def genDone (s : State) (k : BarKey) (g : Word) : Bool :=
  let completed := ((s.bar? k).map (·.completed)).getD 0
  (completed - g - 1).toNat < 2 ^ 31

/-- Wakes the teams of a barrier whose generation is complete, saved ones included (R267). -/
def barWake (s : State) (k : BarKey) : State :=
  let wake (t : Team) : Team :=
    match t.status with
    | .waiting (.bar k' g) => if k' == k && genDone s k g then { t with status := .running } else t
    | .waiting (.barThird k' g) => if k' == k && genDone s k g then { t with status := .running } else t
    | _ => t
  { s with
    teams := s.teams.map wake
    saved := s.saved.map fun v => { v with teams := v.teams.map wake } }

/-- Arrives at a barrier as a release at its scope (R264), then goes on with the generation. -/
def arriveAt (s : State) (t : Team) (i : Instr) (scope : Scope) (id : BitVec 8) (n : Src) (go : State → Word → Out) : Out :=
  let k := barKey t scope id
  match barCount s t n with
  | .error f => .next (takeFault s t i f)
  | .ok n =>
    if s.readsOut t.uid || s.sigsOut t.uid then waitHere s t .stall
    else
      let b := ((s.bar? k).getD ⟨k, 0, none, none⟩).released (genFull s k)
      match arrive b t.teamNo n with
      | .mode => .next (takeFault s t i illop)
      | .third => waitHere s t (.barThird k b.completed)
      | .at_ b g => go (barWake ((performAt s t scope).setBar b) k) g

/-- R266. -/
def execBarSync (scope : Scope) (id : BitVec 8) (n : Src) (s : State) : Out :=
  let i := Instr.barSync scope id n
  onTeam s fun t =>
    if scope == .team then
      if s.readsOut t.uid || s.sigsOut t.uid then waitHere s t .stall else finish s t i (.ok t.acquireAll)
    else
      match t.mark with
      | some g =>
        if genDone s (barKey t scope id) g then finish s t i (.ok t.acquireAll)
        else waitHere s t (.bar (barKey t scope id) g)
      | none =>
        arriveAt s t i scope id n fun s g =>
          .next (s.setTeam { t.spent with mark := some g, status := .waiting (.bar (barKey t scope id) g) })

/-- R266. -/
def execBarArv (scope : Scope) (id : BitVec 8) (d : Dst) (n : Src) (s : State) : Out :=
  let i := Instr.barArv scope id d n
  onTeam s fun t => arriveAt s t i scope id n fun s g => finish s t.spent i (.ok (t.spent.writeUni d [g]))

/-- R266. -/
def execBarWait (scope : Scope) (id : BitVec 8) (tok : Src) (s : State) : Out :=
  let i := Instr.barWait scope id tok
  onTeam s fun t =>
    let g := val32 s t true 0 tok
    if genDone s (barKey t scope id) g then finish s t i (.ok t.spent.acquireAll)
    else waitHere s t.spent (.bar (barKey t scope id) g)

/-- BARRIER_RELEASE: the current generation is complete. -/
def execBarrierRelease (k : BarKey) (s : State) : Out :=
  match s.bar? k with
  | some b => if b.cur.any (genFull s k) then .next (barWake (s.setBar (b.released (genFull s k))) k) else .next s
  | none => .next s

/-! ### waitaddr (R269 to R272) -/

/-- The comparison of an operand type. -/
def waitHolds (cmp : WaitCmp) (ty : IType) (x c : Nat) : Bool :=
  let w := IType.width ty
  match cmp with
  | .eq => x == c
  | .ne => x != c
  | .lt => decide (IType.elem ty x 0 < IType.elem ty c 0)
  | .ge => decide (IType.elem ty c 0 ≤ IType.elem ty x 0)
  | .sge => (x + 2 ^ w - c) % 2 ^ w < 2 ^ (w - 1)

/-- Cycles that a team has waited in its instruction. -/
def State.waited (s : State) (t : Team) : Nat := (s.clk - t.since.getD s.clk).toNat

/-- R270. -/
def execWaitaddr (cmp : WaitCmp) (ty : IType) (acq : Bool) (scope : Scope) (d : Dst) (off : Src) (o64 : Bool) (h : HRef)
    (imm : BitVec 20) (c : Src) (timeout : Word) (s : State) : Out :=
  let i := Instr.waitaddr cmp ty acq scope d off o64 h imm c timeout
  onTeam s fun t =>
    let t := { t with since := some (t.since.getD s.clk) }
    let n := if ty.wide then 8 else 4
    request s t i none true Guard.always ⟨off, o64, h, imm.signExtend 32, false⟩ .watch .read n n fun q s =>
      let s0 := s
      match gatherAll q (fun _ => []) (fun _ _ => false) { s } q.lanes with
      | .gone s => .next (s.unpin t.uid)
      | .fault f g => .next (takeFault (g.s.unpin t.uid) t i f)
      | .got g =>
        let s := g.s.unpin t.uid
        if s0.behindSig t.uid g then waitHere s0 t .stall
        else if !g.left.isEmpty then .next (parkAccess s t i none true g)
        else
          let x := leNat ((g.data.map (·.2)).flatten)
          let cv := valI s t true 0 ty c
          if waitHolds cmp ty x cv || timeout.toNat ≤ s.waited t && timeout != 0xFFFFFFFF then
            finish s t i (.ok ((if acq then t.acquireAll else t).writeUni d (wordsOf ty.wide x)))
          else
            waitHere s { t with unfin := none } (.addr
              { va := q.e.va ((q.lanes.head?.map (·.2)).getD 0), line := (g.lines.head?).getD 0, cmp, ty,
                value := BitVec.ofNat 64 cv, since := t.since.getD s.clk, timeout })

/-- A waiting team reads its location again. -/
def readAgain (s : State) (uid : Nat) (when_ : Team → Watch → Bool) : Out :=
  match s.team? uid with
  | some t =>
    match t.status with
    | .waiting (.addr w) => if when_ t w then .next (s.setTeam { t with status := .running }) else .next s
    | _ => .next s
  | none => .next s

/-- WATCH_FIRE: a write to the watched line (R271). -/
def execWatchFire (uid : Nat) (s : State) : Out := readAgain s uid fun _ _ => true

/-- WATCH_POLL: without a place in the watch table the team reads again every 512 cycles (R271). -/
def execWatchPoll (uid : Nat) (s : State) : Out := readAgain s uid fun _ _ => true

/-- WAITADDR_TIMEOUT (R270): the final read follows. -/
def execWaitaddrTimeout (uid : Nat) (s : State) : Out :=
  readAgain s uid fun t w => w.timeout.toNat ≤ s.waited t && w.timeout != 0xFFFFFFFF

/-! ### waitf (R273) -/

/-- Flags of a mask that are zero. -/
def Team.zeroFlags (t : Team) (m : BitVec 12) : BitVec 12 :=
  BitVec.ofNat 12 (((List.range 12).filter fun n => m.getLsbD n && t.flag n == 0).foldl (fun x n => x + 2 ^ n) 0)

/-- The engine fault that a wait on flags meets: the earliest accepted (13 R336). -/
def Team.efaultOf (t : Team) (flags : List (Option Nat)) : Option EngineFault :=
  (t.efaults.filter fun e => flags.contains e.flag).foldl (fun a e => match a with
    | some b => if e.seq < b.seq then some e else a
    | none => some e) none

/-- A stop at a wait with the fault of an ended engine command, which names the active lanes unless it names a ray. The fault of
another command that ended before is kept for the next wait on its flag, or halts the context when the team retires (DESIGN CHOICE, log
entry 118). -/
def raiseEfault (s : State) (t : Team) (e : EngineFault) : State :=
  s.setTeam (stopTeam s { t with efaults := t.efaults.filter (· != e) }
    { e.info with lanes := if e.info.lanes == 0 then t.active else e.info.lanes })

def flagList (m : BitVec 12) : List (Option Nat) := ((List.range 12).filter (m.getLsbD ·)).map some

/-- R273. -/
def execWaitf (any : Bool) (m : BitVec 12) (d : Dst) (s : State) : Out :=
  let i := Instr.waitf any m d
  onTeam s fun t =>
    let z := t.zeroFlags m
    if (if any then z != 0 else z == m) then
      match t.efaultOf (flagList m) with
      | some e => .next (raiseEfault s t e)
      | none => finish s t i (.ok (t.writeUni d [z.setWidth 32]))
    else waitHere s t (.flags any m)

/-- WAITF_WAKE: a sample finds the condition true; a forced save has captured its team (16 R442). -/
def execWaitfWake (uid : Nat) (s : State) : Out :=
  match s.team? uid with
  | some t =>
    match t.status with
    | .waiting (.flags any m) =>
      if t.flagsClear any m && t.leave != .forced then .next (s.setTeam { t with status := .running }) else .next s
    | _ => .next s
  | none => .next s

/-! ### sig (R274) -/

/-- The size of a core's signal queue. -/
def sigQueue : Nat := 64

def OpKind.isSig : OpKind → Bool
  | .sig .. => true
  | _ => false

/-- R274. -/
def execSig (fs : Bool) (set eng wide : Bool) (scope : Scope) (m : MemRef) (v : Src) (s : State) : Out :=
  let i := Instr.sig fs set eng wide scope m v
  longOp s fs fun t =>
    let n := if wide then 8 else 4
    if sigQueue ≤ (s.ops.filter fun o => o.die == t.place.die && o.core == t.place.core && o.kind.isSig).length then
      waitHere s t .stall
    else
      request s t i (some fs) true Guard.always m .sig .atomic n n fun q s =>
        match gatherAll q (fun _ => []) (fun _ _ => false) { s } q.lanes with
        | .gone s => .next (s.unpin t.uid)
        | .fault f g => .next (takeFault (g.s.unpin t.uid) t i f)
        | .got g =>
          let s := g.s.unpin t.uid
          if !g.left.isEmpty then .next (parkAccess s t i (some fs) true g)
          else
            let value : DWord := if wide then val64 s t true 0 false v else (val32 s t true 0 v).setWidth 64
            .next (issueOp s t i fs
              (.sig ((locsOf q g.pas).map (·.2)).flatten wide set value eng scope (freeOf s q g.pas)))

/-- Whether a queued signal may be performed: earlier accesses of its team are performed, earlier signals of the team
too, and with `.eng` its earlier engine commands have ended. -/
def sigMay (s : State) (o : Op) (eng : Bool) : Bool :=
  !(s.ops.any fun p => p.uid == o.uid && decide (p.id < o.id) &&
    (match p.kind with
     | .load .. | .atomic .. | .sig .. => true
     | k => eng && k.isEngine))

/-- SIG_PERFORM: a release atomic at the home, behind the team's earlier accesses; a dead or poisoned home halts the context
(R252). -/
def execSigPerform (op : Nat) (s : State) : Out :=
  match s.op? op with
  | some o =>
    match o.kind with
    | .sig as wide set v eng scope free =>
      if !sigMay s o eng then .next s
      else
        let n := if wide then 8 else 4
        let s := s.settle as
        let s := if Scope.beyondCore scope then s.performSel o.die o.core fun p _ => p.id < o.id
          else s.performBytes o.die o.core o.id as
        if let some d := as.findSome? (errorAt s · 1) then .next (haltOp (s.dropOp o.id) o codeContained d)
        else
        let (_, s) := rmw s free as fun x => if set then v.toNat % 2 ^ (8 * n) else (x + v.toNat) % 2 ^ (8 * n)
        .next (completeOp s o)
    | _ => .next s
  | none => .next s

/-! ### Circular buffers (R275 to R278) -/

def Team.cb (t : Team) (k : Nat) : Cb := (t.cbs[k]?).getD Cb.zero

def Team.setCb (t : Team) (k : Nat) (c : Cb) : Team := { t with cbs := t.cbs.set k c }

def Cb.free (c : Cb) : Nat := c.count - (c.reserved - c.released).toNat
def Cb.filled (c : Cb) : Nat := (c.committed - c.taken).toNat

/-- The offset of the slot of a sequence count. -/
def Cb.slot (c : Cb) (n : Word) : Word := BitVec.ofNat 32 (n.toNat % c.count * c.size)

/-- Whether a side of a copy names a descriptor. -/
def CopySide.names (x : CopySide) (k : Nat) : Bool :=
  match x with
  | .cb j _ => j == k
  | _ => false

/-- Engine commands of a team that name a circular buffer. -/
def State.cbCopies (s : State) (uid k : Nat) (dst : Bool) : List CopyCmd :=
  s.ops.filterMap fun o =>
    if o.uid != uid then none
    else match o.kind with
      | .copy c => if CopySide.names (if dst then c.dst else c.src) k then some c else none
      | _ => none

/-- Updates of a descriptor that wait for earlier accesses of the team. -/
def State.cbPending (s : State) (uid k : Nat) (commit : Bool) : Nat :=
  (s.ops.filter fun o => o.uid == uid && (match o.kind with
    | .cbCommit j => commit && j == k
    | .cbRelease j => !commit && j == k
    | _ => false)).length

/-- R277. -/
def execCbinit (k : BitVec 8) (h : BitVec 12) (size count : Src) (s : State) : Out :=
  let i := Instr.cbinit k h size count
  onTeam s fun t =>
    withHandle s t i none true t.active (.idx h) fun ix e s =>
      let fault (code : BitVec 8) : Out := .next (takeFault s t i (handleFault code true t.active (ix.setWidth 32)))
      let sz := (val32 s t true 0 size).toNat
      let ct := (val32 s t true 0 count).toNat
      if e.kind != kScratch || !e.right rR || !e.right rW then fault codePerm
      else if sz % 16 != 0 || sz < 16 || 65536 < sz || ct < 1 || 256 < ct then .next (takeFault s t i illop)
      else if e.len < sz * ct then fault codeBounds
      else if !(s.cbCopies t.uid k.toNat true).isEmpty || !(s.cbCopies t.uid k.toNat false).isEmpty then waitHere s t .stall
      else
        let drop (o : Op) : Bool := o.uid == t.uid && (o.kind == .cbCommit k.toNat || o.kind == .cbRelease k.toNat)
        let s := { s with ops := s.ops.filter fun o => !drop o }
        finish s t i (.ok (t.setCb k.toNat ⟨true, h, sz, ct, 0, 0, 0, 0⟩))

/-- The body of an instruction on a descriptor, which must have been initialised. -/
def withCb (s : State) (i : Instr) (k : BitVec 8) (f : Team → Cb → Out) : Out :=
  onTeam s fun t => if (t.cb k.toNat).init then f t (t.cb k.toNat) else .next (takeFault s t i illop)

/-- R278. -/
def execCbputAcq (d : Dst) (k : BitVec 8) (s : State) : Out :=
  let i := Instr.cbputAcq d k
  withCb s i k fun t c =>
    if c.free == 0 then waitHere s t (.cbFree k.toNat)
    else finish s t i (.ok ((t.setCb k.toNat { c with reserved := c.reserved + 1 }).writeUni d [c.slot c.reserved]))

/-- R278. -/
def execCbget (d : Dst) (k : BitVec 8) (s : State) : Out :=
  let i := Instr.cbget d k
  withCb s i k fun t c =>
    if c.filled == 0 then waitHere s t (.cbFilled k.toNat)
    else finish s t i (.ok ((t.acquireAll.setCb k.toNat { c with taken := c.taken + 1 }).writeUni d [c.slot c.taken]))

/-- Queues an update of a descriptor behind the team's earlier accesses. -/
def cbUpdate (s : State) (t : Team) (i : Instr) (kind : OpKind) : Out :=
  .next ((s.addOp { newOp s t i false kind with flag := none, block := false }).setTeam (t.advance i))

/-- R278: nothing when every slot that the team has reserved is committed; slots that engines have reserved count to the
engines. -/
def execCbputCom (k : BitVec 8) (s : State) : Out :=
  let i := Instr.cbputCom k
  withCb s i k fun t c =>
    let engines := ((s.cbCopies t.uid k.toNat true).filter (·.dstSlot != 0)).length
    if (c.reserved - c.committed).toNat ≤ engines + s.cbPending t.uid k.toNat true then finish s t i (.ok t)
    else cbUpdate s t i (.cbCommit k.toNat)

/-- R278. -/
def execCbrel (k : BitVec 8) (s : State) : Out :=
  let i := Instr.cbrel k
  withCb s i k fun t c =>
    let engines := ((s.cbCopies t.uid k.toNat false).filter (·.srcSlot != 0)).length
    if (c.taken - c.released).toNat ≤ engines + s.cbPending t.uid k.toNat false then finish s t i (.ok t)
    else cbUpdate s t i (.cbRelease k.toNat)

/-- Whether a queued update may take place: no earlier store of the team is outstanding. -/
def cbMay (s : State) (o : Op) : Bool :=
  !(s.ops.any fun p => p.uid == o.uid && decide (p.id < o.id) &&
    (match p.kind with
     | .load .. | .store .. | .cbCommit .. | .cbRelease .. => true
     | _ => false))

/-- CB_DEFERRED_UPDATE. -/
def execCbDeferredUpdate (op : Nat) (s : State) : Out :=
  match s.op? op with
  | some o =>
    if !cbMay s o then .next s
    else match o.kind with
      | .cbCommit k =>
        .next ((completeOp s o).updTeam o.uid fun t =>
          t.setCb k { t.cb k with committed := (t.cb k).committed + 1 })
      | .cbRelease k =>
        .next ((completeOp s o).updTeam o.uid fun t =>
          t.setCb k { t.cb k with released := (t.cb k).released + 1 })
      | _ => .next s
  | none => .next s

/-- CB_WAKE: the count a team waits for has risen. -/
def execCbWake (uid : Nat) (s : State) : Out :=
  match s.team? uid with
  | some t =>
    let go (b : Bool) : Out := .next (if b then s.setTeam { t with status := .running } else s)
    match t.status with
    | .waiting (.cbFree k) => go ((t.cb k).free != 0)
    | .waiting (.cbFilled k) => go ((t.cb k).filled != 0)
    | _ => .next s
  | none => .next s

end Sys2Proof.Machine
end

