-- ==== Sys2Proof/Machine/Tiles.lean ====
section
/-! DEFINITION. Tile instructions and the messages to a tile's home (11 R280 to R305). -/

namespace Sys2Proof.Machine

/-! ### Declaring buffers (R281, R282, R299) -/

/-- A shape record; none when R282 refuses it with ILLOP. -/
def shapeOf (bs : List Byte) : Option Shape :=
  let r := leNat bs
  let n := natField r 0 8
  let es := natField r 8 8
  let ext (d : Nat) : Nat := natField r (64 + 32 * d) 32
  let str (d : Nat) : Nat := natField r (448 + 48 * d) 48
  let all (p : Nat → Bool) : Bool := (List.range 12).all p
  if n < 1 || 12 < n || 4 < es || natField r 16 48 != 0 then none
  else if !all (fun d => if d < n then ext d != 0 && str d % 2 ^ es == 0 else ext d == 0 && str d == 0) then none
  else some ⟨n, es, (List.range n).map ext, (List.range n).map str⟩

/-- Whether two ranges of bytes meet. -/
def rangesMeet (a : DWord) (n : Nat) (b : DWord) (m : Nat) : Bool := decide ((b - a).toNat < n) || decide ((a - b).toNat < m)

/-- An error response of the home of a buffer (R295). -/
def bufDead (s : State) (b : Buf) : Bool := s.coh.dead.contains (.die b.home)

/-- The halt of a context whose tile instruction reaches a dead home. -/
def deadTile (s : State) (t : Team) (i : Instr) (home : Nat) : Out :=
  .next (haltTeam s t (instrOpc i) codeContained (dieDetail home))

/-- A handle that must be a BUFFER. -/
def withBuffer (s : State) (t : Team) (i : Instr) (fs : Option Bool) (hb : HRef) (go : BitVec 12 → HEnt → State → Out) : Out :=
  withHandle s t i fs true t.active hb fun ix e s =>
    match uniCheck s t e ix 0 0 1 (e.kind == kBuffer) true with
    | some f => .next (takeFault s t i f)
    | none => go ix e s

/-- Reads a record through its handle, or ends the instruction. -/
def withRecord (s : State) (t : Team) (i : Instr) (fs : Option Bool) (use : Use) (r : RecRef) (size align : Nat)
    (go : List Byte → State → Out) : Out :=
  match readRecord s t i fs use r size align with
  | .error s => .next s
  | .ok (bs, s) => go bs s

/-- R299. -/
def execTdecl (fs : Bool) (r : RecRef) (hb : HRef) (s : State) : Out :=
  let i := Instr.tdecl fs r hb
  longOp s fs fun t =>
    withBuffer s t i (some fs) hb fun ix e s =>
      withRecord s t i (some fs) .readRec r 128 8 fun bs s =>
        let fault (code : BitVec 8) : Out := .next (takeFault s t i (handleFault code true t.active (ix.setWidth 32)))
        match shapeOf bs with
        | none => .next (takeFault s t i illop)
        | some sh =>
          let c := s.ctxOf t
          match translate s c t.place.die t.place.core e.base .read with
          | .error f => parkEntry s t i (some fs) true t.active e.base f
          | .ok (x, s) =>
            let home := (homeOf s x.pa).die
            let mine := s.tiles.bufs.filter (·.ctx == t.ctx)
            if e.len < sh.footprint || 16384 ≤ (s.tiles.bufs.filter (·.home == home)).length then fault codeBounds
            else if mine.any fun b => b.no == e.aux || rangesMeet b.base b.foot e.base sh.footprint then fault codeOverlap
            else if s.coh.dead.contains (.die home) then deadTile s t i home
            else
              let s := { s with tiles := { s.tiles with bufs := s.tiles.bufs ++
                [⟨t.ctx, e.aux, home, e.base, sh, sh.footprint⟩] } }
              .next (issueOp s t i fs (.tileOp 0 3))

/-- R299. -/
def execTdeclRm (fs : Bool) (hb : HRef) (s : State) : Out :=
  let i := Instr.tdeclRm fs hb
  longOp s fs fun t =>
    withBuffer s t i (some fs) hb fun ix e s =>
      let fault (code : BitVec 8) : Out := .next (takeFault s t i (handleFault code true t.active (ix.setWidth 32)))
      match s.bufOf t.ctx e.aux with
      | none => fault codeStale
      | some b =>
        if s.tiles.tiles.any fun x => x.live && x.ctx == t.ctx && x.buf == e.aux then fault codeOverlap
        else if bufDead s b then deadTile s t i b.home
        else
          let s := { s with tiles := { s.tiles with
            bufs := s.tiles.bufs.filter fun b => !(b.ctx == t.ctx && b.no == e.aux) } }
          .next (issueOp s t i fs (.tileOp 0 3))

/-! ### Boxes (R284, R300) -/

/-- The box of a record within a shape; none when R284 refuses it. -/
def boxOf (sh : Shape) (bs : List Byte) : Option (List Nat × List Nat) :=
  let r := leNat bs
  let lo (d : Nat) : Nat := natField r (64 * d) 32
  let sz (d : Nat) : Nat := natField r (64 * d + 32) 32
  if (List.range 12).all fun d =>
      if d < sh.ndim then sz d != 0 && lo d + sz d ≤ (sh.ext[d]?).getD 0 else lo d == 0 && sz d == 0
  then some ((List.range sh.ndim).map lo, (List.range sh.ndim).map sz) else none

def newTile (ctx : Word) (ix : Nat) (gen : BitVec 12) (buf : Nat) (lo sz : List Nat) : Tile :=
  { ctx, ix, gen, live := true, buf, lo, sz, st := .idle, holder := none, refs := 0, copies := [], engines := [],
    owner := none, presence := [], seals := 0, waiters := [], hold := false, sealing := false, dir := false, used := 0, probed := [],
    leaving := false }

/-- R300. -/
def execTtile (d : Dst) (r : RecRef) (hb : HRef) (s : State) : Out :=
  let i := Instr.ttile d r hb
  onTeam s fun t =>
    withBuffer s t i none hb fun ix e s =>
      let fault (code : BitVec 8) : Out := .next (takeFault s t i (handleFault code true t.active (ix.setWidth 32)))
      match s.bufOf t.ctx e.aux with
      | none => fault codeStale
      | some b =>
        withRecord s t i none .readRec r 96 8 fun bs s =>
          match boxOf b.shape bs with
          | none => fault codeBounds
          | some (lo, sz) =>
            if bufDead s b then deadTile s t i b.home
            else match s.tiles.freeSlot t.ctx (Config.freeNat s.ticks 100) with
              | none => fault codeBounds
              | some (n, gen) =>
                let x := newTile t.ctx n gen b.no lo sz
                let s1 := s.putTile x
                -- whether a new tile is in the directory is open (DESIGN CHOICE, log entry 21)
                let s2 := if Config.freeNat s.ticks 104 % 2 == 1 then admitTile s1 x else s1
                finish s2 t i (.ok (t.writeUni d [x.word]))

/-! ### Tile handle words (R283) -/

/-- The scalar value of a tile operand. -/
def tileArg (s : State) (t : Team) (x : Src) : Word := val32 s t true 0 x

/-- A tile that a word names, or the stale fault; a dead home halts. -/
def withTile (s : State) (t : Team) (i : Instr) (word : Word) (go : Tile → Out) : Out :=
  match s.tiles.named t.ctx word with
  | none => .next (takeFault s t i (t.uniFault codeStale 0xFFF))
  | some x =>
    match s.bufOf t.ctx x.buf with
    | some b => if bufDead s b then deadTile s t i b.home else go x
    | none => go x

/-! ### Requests at a tile's home (R286) -/

/-- A message goes back to the end of the home's queue. -/
def again (s : State) (i : Instr) : Out := .next (s.send i)

/-- A team's request to a tile's home, unless one of the team is already on its way. -/
def askTile (s : State) (t : Team) (ix : Nat) (m : Instr) : Out := waitHere (if s.tileMail t.uid then s else s.send m) t (.tile t.ctx ix)

/-- A request meets its tile's entry in the home's directory. A tile that is not resident is fetched first, and the request
comes back behind; a set whose entries may not leave refuses it, and the team sends it again (R286). A grant waits while eight are unacknowledged (R294). -/
def atHome (s : State) (t : Team) (x : Tile) (m : Instr) (go : State → Out) : Out :=
  if x.leaving || !s.mayGrant (s.tileHome x) (.core t.place.die t.place.core) then again s m
  else if x.dir then go (s.updTile x fun u => { u with used := s.ticks })
  else if s.setFull x then .next (s.send (.nackRetry (tileName t.uid)))
  else
    let f := Instr.tileRecordFetch x.ctx x.ix
    again (if s.coh.net.contains f then s else s.send f) m

/-- The home's answer to a team that waits: `ws` is what its instruction writes once the answer has arrived. -/
def answerTile (s : State) (t : Team) (x : Tile) (ws : List Word) : State :=
  (s.tileGrant x t.place.die t.place.core t.uid true).updTeam t.uid fun t => { t with reply := ws }

/-! ### topen (R287, R301) -/

/-- The team sends its request and waits; once the home has granted it, or ignored it, it goes on. The grant is an acquire
(R289). -/
def topenMeaning (s : State) (i : Instr) (x : Src) (write recl : Bool) : Out :=
  onTeam s fun t =>
    if t.mark.isSome then finish s t i (.ok t.acquireAll)
    else
      let w := tileArg s t x
      withTile s t i w fun u => askTile s t u.ix (.tileOpenReq ⟨t.uid, w⟩ write recl)

def execTopenR (x : Src) (s : State) : Out := topenMeaning s (.topenR x) x false false
def execTopenW (x : Src) (s : State) : Out := topenMeaning s (.topenW x) x true false
def execTopenWRecall (x : Src) (s : State) : Out := topenMeaning s (.topenWRecall x) x true true

/-- Whether a team waits for a tile. -/
def Team.waitsTile (t : Team) : Bool :=
  match t.status with
  | .waiting (.tile ..) => true
  | _ => false

/-- The recall of topen.w.recall: BackInv goes to every die that holds lines of an overlapping sealed tile with copies, and
the copies of teams are counted dropped. -/
def recallCopies (s : State) (x : Tile) : State :=
  (s.overlapping x).foldl (fun s u =>
    if u.st == .sealed && 0 < u.refs then probeTile (s.updTile u Tile.recalled) u false else s) s

/-- Lines of a tile leave the dies that must not hold them any more: whether they have. For a write these are all but the team's
die; the die that owns the data of a SEALED tile keeps it until the holder's first access takes the line from it (20 R521; DEDUCED,
DEDUCED, log entry 121). -/
def clearTile (s : State) (t : Team) (x : Tile) (write : Bool) : Bool × State :=
  if write then
    let owners := (s.overlapping x).filterMap fun u => if u.st == .sealed then u.owner else none
    let leaves (own : Bool) (w : Requester) : Bool := !ofDie t.place.die w && !(own && owners.any fun d => ofDie d w)
    clearLines s false leaves (s.linesOf x)
  else collectTile s x

/-- A request is listed among the tile's waiters. -/
def listWaiter (s : State) (t : Team) (x : Tile) (write recl : Bool) : State :=
  s.updTile x fun u => if u.waiters.any (·.uid == t.uid) then u else { u with waiters := u.waiters ++ [⟨t.uid, write, recl, s.clk⟩] }

/-- The home examines an open request: grants it, or lists it among the tile's waiters (R287). A tile that the team has open
is left as it is. -/
def examineOpen (s : State) (t : Team) (x : Tile) (write recl : Bool) : State :=
  let grant (s : State) : State := answerTile (s.updTile x fun u => u.keepWaiters (·.uid != t.uid)) t x []
  if x.st == .opened && x.holder == some t.who then grant s
  else if s.openElse t.who x then listWaiter s t x write recl
  else
    let s := if recl then recallCopies s x else s
    if !mayOpen s t (s.tileNow x) write then listWaiter s t x write recl
    else
      let (clear, s) := clearTile s t (s.tileNow x) write
      if clear then grant (openTile s t (s.tileNow x) write) else listWaiter s t x write recl

/-- TILE_OPEN_REQ at the home; a word gone stale sends the team back to its instruction. -/
def execTileOpenReq (m : TileMsg) (write recl : Bool) (s : State) : Out :=
  match s.team? m.uid with
  | some t =>
    if !t.waitsTile then .next s
    else match s.tiles.named t.ctx m.word with
      | some x => atHome s t x (.tileOpenReq m write recl) fun s => .next (examineOpen s t (s.tileNow x) write recl)
      | none => .next (s.setTeam { t with status := .running })
  | none => .next s

/-- The request of a team that a tile lists. -/
def State.tileWait (s : State) (uid : Nat) : Option (Tile × TileWait) :=
  match s.tiles.tiles.find? fun x => x.live && x.waiters.any (·.uid == uid) with
  | some x => (x.waiters.find? (·.uid == uid)).map fun w => (x, w)
  | none => none

/-- TILE_REQUEST_RETRY: a waiting request is examined again (R286, R287); a refused one is sent again, and a parked access
runs again (R288). -/
def execTileRequestRetry (uid : Nat) (s : State) : Out :=
  match s.team? uid with
  | some t =>
    if !t.waitsTile || s.tileMail uid then .next s
    else match s.tileWait uid with
      | some (x, w) =>
        if s.mayGrant (s.tileHome x) (.core t.place.die t.place.core) then .next (examineOpen s t x w.write w.recl) else .next s
      | none => .next (s.setTeam { t with status := .running })
  | none => .next s

/-- TOPEN_W_STARVATION_HOLD (R301). -/
def execTopenWStarvationHold (ctx : Word) (tile : Nat) (s : State) : Out :=
  .next (s.setTiles fun x => if x.live && x.ctx == ctx && x.ix == tile && x.starved s.clk then { x with hold := true } else x)

/-- TILE_RECORD_FETCH: a tile's record is read and its entry is taken into the directory (R286). -/
def execTileRecordFetch (ctx : Word) (tile : Nat) (s : State) : Out :=
  match s.tiles.at? ctx tile with
  | some x => .next (admitTile s x)
  | none => .next s

/-! ### tseal, tdrop (R287, R289, R302)

What a queued operation stands at: 1 a seal requested, 2 a drop requested, 3 recorded at the home, 4 answered with an error. -/

def execTseal (fs : Bool) (x : Src) (s : State) : Out :=
  let i := Instr.tseal fs x
  longOp s fs fun t =>
    let w := tileArg s t x
    withTile s t i w fun u =>
      if u.st == .sealed then .next (issueOp s t i fs (.tileOp w 3))
      else if u.st == .opened && u.holder == some t.who then
        .next (issueOp (s.updTile u fun u => { u with sealing := true }) t i fs (.tileOp w 1))
      else .next (takeFault s t i (t.uniFault codePerm 0xFFF))

def execTdrop (fs : Bool) (x : Src) (s : State) : Out :=
  let i := Instr.tdrop fs x
  longOp s fs fun t =>
    let w := tileArg s t x
    withTile s t i w fun _ => .next (issueOp s t i fs (.tileOp w 2))

/-- Whether the earlier accesses of a team that a queued tile operation waits for are performed (R289). -/
def tileMay (s : State) (o : Op) : Bool :=
  !(s.ops.any fun p => p.uid == o.uid && decide (p.id < o.id) &&
    (match p.kind with
     | .load .. | .atomic .. | .sig .. => true
     | _ => false))

/-- The oldest queued operation of a team on a tile that stands at a stage. -/
def State.tileOp? (s : State) (m : TileMsg) (what : Nat) : Option Op :=
  s.ops.find? fun o => o.uid == m.uid && o.kind == .tileOp m.word what

def recordTileOp (s : State) (o : Op) (word : Word) : State := s.updOp o.id fun o => { o with kind := .tileOp word 3 }

/-- A queued operation of a team on a tile at its home: a dead home gives an error response (R295); a word gone stale is
recorded; else it takes its effect and is recorded with a grant. -/
def tileOpAt (s : State) (o : Op) (m : TileMsg) (msg : Instr) (act : Tile → Tile) : Out :=
  match s.tiles.named o.ctx m.word with
  | none => .next (recordTileOp s o m.word)
  | some x =>
    let home := s.tileHome x
    if s.coh.dead.contains (.die home) then
      .next ((s.updOp o.id fun o => { o with kind := .tileOp m.word 4 }).send (.errorRsp o.id))
    else if !s.mayGrant home (.core o.die o.core) then again s msg
    else .next (recordTileOp ((s.updTile x fun u => { act u with used := s.ticks }).tileGrant x o.die o.core o.uid false) o m.word)

/-- Whether a team's seal of a tile may go to the home: earlier accesses are performed, and no task writes the tile. -/
def sealMay (s : State) (o : Op) (word : Word) : Bool := tileMay s o && !s.writersOut o.uid word

/-- SEAL_REQ: a release, then the tenure ends (R287, R289). -/
def execSealReq (m : TileMsg) (s : State) : Out :=
  match s.tileOp? m 1, s.teamAny m.uid with
  | some o, some t =>
    if !sealMay s o m.word then .next s
    else tileOpAt (s.drainCore o.die o.core) o m (.sealReq m) fun u =>
      if u.st == .opened && u.holder == some t.who then u.seal o.die else u
  | some o, none => .next (recordTileOp s o m.word)
  | none, _ => .next s

/-- DROP_REQ: one copy less (R287). -/
def execDropReq (m : TileMsg) (s : State) : Out :=
  match s.tileOp? m 2, s.teamAny m.uid with
  | some o, some t => if !tileMay s o then .next s else tileOpAt s o m (.dropReq m) fun u => u.dropCopy t.who
  | some o, none => .next (recordTileOp s o m.word)
  | none, _ => .next s

/-- TILE_OP_COMPLETE: the home has recorded the operation. -/
def execTileOpComplete (op : Nat) (s : State) : Out :=
  match s.op? op with
  | some o =>
    match o.kind with
    | .tileOp _ 3 => .next (completeOp s o)
    | _ => .next s
  | none => .next s

/-! ### tsplit, tfree (R303, R304) -/

/-- Whether a coordinate splits a tile along a dimension. -/
def splitFits (x : Tile) (k c : Nat) : Bool :=
  match x.lo[k]?, x.sz[k]? with
  | some lo, some sz => lo < c && c < lo + sz
  | _, _ => false

/-- R303. -/
def execTsplit (d : Dst) (x k c : Src) (s : State) : Out :=
  let i := Instr.tsplit d x k c
  onTeam s fun t =>
    match t.mark, t.reply with
    | some _, [a, b] => finish s t i (.ok (t.writeUni d [a, b]))
    | some _, _ => .next (takeFault s t i (t.uniFault codeBounds 0xFFF))
    | none, _ =>
      let w := tileArg s t x
      withTile s t i w fun u =>
        if !splitFits u (val32 s t true 0 k).toNat (val32 s t true 0 c).toNat then
          .next (takeFault s t i (t.uniFault codeBounds 0xFFF))
        else askTile s t u.ix (.splitReq ⟨t.uid, w⟩ (val32 s t true 0 k) (val32 s t true 0 c))

/-- The two halves of a tile, in two free indices. -/
def splitHalves (s : State) (x : Tile) (k c : Nat) : Option (Tile × Tile) :=
  let lo := (x.lo[k]?).getD 0
  let sz := (x.sz[k]?).getD 0
  let x0 := { x with waiters := [], hold := false, dir := false, probed := [], leaving := false }
  match s.tiles.freeSlot x.ctx (Config.freeNat s.ticks 101) with
  | none => none
  | some (n0, g0) =>
    let t0 := { x0 with ix := n0, gen := g0, sz := x.sz.set k (c - lo) }
    match (s.putTile t0).tiles.freeSlot x.ctx (Config.freeNat s.ticks 102) with
    | none => none
    | some (n1, g1) => some (t0, { x0 with ix := n1, gen := g1, lo := x.lo.set k c, sz := x.sz.set k (lo + sz - c) })

/-- The halves take the tile's place: it is retired, and they enter the directory where it has room. -/
def splitTile (s : State) (x a b : Tile) : State :=
  let half (s : State) (h : Tile) : State :=
    let s := admitTile (s.putTile h) h
    if (s.tileNow h).dir then s.updTile h fun u => { u with presence := x.presence } else s
  (half (half s a) b).updTile x fun u => u.retire

/-- Whether a queued operation of some team names a tile: a seal or a drop comes before a split of it. -/
def State.tileOpsOn (s : State) (x : Tile) : Bool :=
  s.ops.any fun o => o.ctx == x.ctx && (o.kind == .tileOp x.word 1 || o.kind == .tileOp x.word 2)

/-- Starts the eviction of an entry where a tile's set is full. -/
def roomFor (s : State) (x : Tile) : State :=
  let us := s.dirSet x
  if us.length < 16 || us.any (·.leaving) then s
  else match dirVictim us with
    | some v => (probeTile s v true).settleTiles
    | none => s

/-- SPLIT_REQ. -/
def execSplitReq (m : TileMsg) (k c : Word) (s : State) : Out :=
  match s.team? m.uid with
  | some t =>
    if !t.waitsTile then .next s
    else match s.tiles.named t.ctx m.word with
      | none => .next (s.setTeam { t with status := .running })
      | some x =>
        atHome s t x (.splitReq m k c) fun s =>
          if x.st == .opened && x.holder != some t.who then .next s
          else if s.tileOpsOn x then again s (.splitReq m k c)
          else if !splitFits x k.toNat c.toNat then .next (s.setTeam { t with status := .running })
          else match splitHalves s (s.tileNow x) k.toNat c.toNat with
            | some (a, b) =>
              let s' := splitTile s (s.tileNow x) a b
              -- a half that its set has no way for keeps the request waiting, while an entry of that set leaves
              if [a, b].any fun h => h.kept && !(s'.tileNow h).dir then again (roomFor (roomFor s a) b) (.splitReq m k c)
              else .next (answerTile s' t x [a.word, b.word])
            | none => .next (answerTile s t x [])
  | none => .next s

/-- R304. -/
def execTfree (x : Src) (s : State) : Out :=
  let i := Instr.tfree x
  onTeam s fun t =>
    if t.mark.isSome then finish s t i (.ok t)
    else
      let w := tileArg s t x
      withTile s t i w fun u => askTile s t u.ix (.freeReq ⟨t.uid, w⟩)

/-- The lines of a tile that its owner's die holds, or its holder's, go to memory: whether they have (R304). -/
def writeOut (s : State) (t : Team) (x : Tile) : Bool × State :=
  match (if x.st == .opened then some t.place.die else x.owner) with
  | some d => clearLines s false (fun own w => own && ofDie d w) (s.linesOf x)
  | none => (true, s)

/-- FREE_REQ: once no copy is outstanding and the owner's lines are in memory, the tile's index is free again. -/
def execFreeReq (m : TileMsg) (s : State) : Out :=
  match s.team? m.uid with
  | some t =>
    if !t.waitsTile then .next s
    else match s.tiles.named t.ctx m.word with
      | none => .next (s.setTeam { t with status := .running })
      | some x =>
        atHome s t x (.freeReq m) fun s =>
          if 0 < x.refs || (x.st == .opened && x.holder != some t.who) || s.writersOut t.uid m.word then .next s
          else if s.tileOpsOn x then again s (.freeReq m)
          else
            let (out, s) := writeOut (s.drainCore t.place.die t.place.core) t x
            if out then .next (answerTile (s.updTile x fun u => u.retire) t x []) else again s (.freeReq m)
  | none => .next s

/-! ### tquery (R305) -/

/-- The two words of a tile. A tile that is IDLE or OPEN has no owner field (R285), and reads as one whose owner is memory (DESIGN CHOICE,
DESIGN CHOICE, log entry 117). -/
def queryTile (t : Team) (x : Tile) (ndim : Nat) : List Word :=
  let st := match x.st with
    | .idle => 0
    | .opened => 1
    | .sealed => 2
  let mine := x.st == .opened && x.holder == some t.who
  let (pkg, die, mem) := match (if x.st == .sealed then x.owner else none) with
    | some d => (d / 4, d % 4, false)
    | none => (0, 0, true)
  [BitVec.ofNat 32 (st * 2 ^ 30 + b2n mine * 2 ^ 29 + b2n x.dir * 2 ^ 28 +
     Nat.min (x.copiesOf t.who) 4095 * 2 ^ 16 + x.refs),
   BitVec.ofNat 32 (x.buf * 2 ^ 20 + (ndim - 1) * 2 ^ 16 + pkg * 2 ^ 10 + die * 2 ^ 8 + b2n mem * 2 ^ 7)]

/-- R305. -/
def execTquery (d : Dst) (x : Src) (s : State) : Out :=
  let i := Instr.tquery d x
  onTeam s fun t =>
    withTile s t i (tileArg s t x) fun u =>
      finish s t i (.ok (t.writeUni d (queryTile t u u.lo.length)))

end Sys2Proof.Machine
end

