-- ==== Sys2Proof/Machine/Complete.lean ====
section
/-! DEFINITION. Clause headers (02 R38 to R42), completions of loads, stores and atomics (08 R203, R209, R217, R223, 10
R256), memory errors (08 R227 to R229), walks (16 R430). -/

namespace Sys2Proof.Machine

/-! ### Clause headers -/

/-- The clause that a header starts (R40, R41). -/
def Team.startClause (t : Team) (h : Header) : Team :=
  let entry := h.kind == 1
  { t with
    status := .running, unfin := none, since := none, mark := none, reply := [], pc := t.pc + 8
    clause := { left := h.count.toNat + 1, seta := h.seta.toNat, setb := h.setb.toNat, gap := h.gap.toNat }
    ctl := if entry then
        { t.ctl with regctr := t.ctl.regctr + 1, repc := if t.ctl.hmode then t.ctl.repc else t.pc } else t.ctl }

/-- The yield handler of a team's grid (16 R438). -/
def State.yieldPc (s : State) (t : Team) : DWord := ((s.grid? t.grid).map (·.lr.yieldPc)).getD 0

/-- CLAUSE_START: a team at a header enters its handler (16 R439), waits for the flags, or starts the clause; a fault of
an ended engine command on a flag that the header waits for stops it (13 R336). -/
def execClauseStart (h : Header) (s : State) : Out :=
  onTeam s fun t =>
    if h.kind == 1 && t.ctl.slend && !t.ctl.hmode then .next (s.setTeam (t.enterHandler (s.yieldPc t)))
    else if !t.flagsClear false h.wait || s.blocked t then waitHere s t (.clause h.wait)
    else match t.efaultOf (none :: flagList h.wait) with
      | some e => .next (raiseEfault s t e)
      | none => .next (s.setTeam (t.startClause h))

/-- ILLOP_PATTERN: what stands at the pc is no instruction, or no header where one is due (02 R36, R38, R56). -/
def execIllopPattern (hdr uni : Bool) (opc : BitVec 8) (s : State) : Out :=
  onTeam s fun t =>
    .next (s.setTeam (stopTeam s t { code := codeIllop, opc, hdr, unif := uni, lanes := t.active, ipc := t.pc }))

/-! ### Completions -/

/-- Writes the results of an operation in its team. -/
def Team.deliver (t : Team) (w : Deliver) : Team :=
  t.writeDst (Mask.ofLanes (w.vals.map (·.1))) w.d fun L => ((w.vals.find? (·.1 == L)).map (·.2)).getD []

/-- LOAD_COMPLETE (R217). -/
def execLoadComplete (op : Nat) (s : State) : Out :=
  match s.op? op with
  | some o =>
    match o.kind with
    | .load w _ => if s.l2Waits op then .next s else .next (completeOp (s.updTeam o.uid (·.deliver w)) o)
    | .take w => .next (completeOp (s.updTeam o.uid (·.deliver w)) o)
    | _ => .next s
  | none => .next s

/-- Whether a store may be performed: a release waits for the team's earlier reads and signals (09 R239). -/
def storeMay (s : State) (o : Op) (rel : Bool) : Bool :=
  !s.l2Waits o.id && !(rel && s.ops.any fun p => p.uid == o.uid && decide (p.id < o.id) && (match p.kind with
    | .load .. | .atomic .. | .sig .. => true
    | _ => false))

/-- STORE_COMPLETE (R217): the writes are performed, behind earlier ones of the core to the same bytes. -/
def execStoreComplete (op : Nat) (s : State) : Out :=
  match s.op? op with
  | some o =>
    match o.kind with
    | .store cs _ rel =>
      if !storeMay s o rel then .next s
      else
        let s := if rel then s.performSel o.die o.core fun p _ => decide (p.id ≤ op)
          else s.performBytes o.die o.core op (cs.map (·.1))
        .next (completeOp (s.dirtied o) o)
    | _ => .next s
  | none => .next s

/-- ATOMIC_COMPLETE (10 R256). -/
def execAtomicComplete (op : Nat) (s : State) : Out :=
  match s.op? op with
  | some o =>
    match o.kind with
    | .atomic w _ => if s.l2Waits op then .next s else .next (completeOp ((s.updTeam o.uid (·.deliver w)).dirtied o) o)
    | _ => .next s
  | none => .next s

/-- HMAP_COMPLETE (R223, R224): the write-back is performed; `hmap` gives the new handle word. -/
def execHmapComplete (op : Nat) (s : State) : Out :=
  match s.op? op with
  | some o =>
    match o.kind with
    | .hmap d w => if s.l2Waits op then .next s else .next (completeOp (s.updTeam o.uid (·.writeUni d [w])) o)
    | .flush => if s.l2Waits op then .next s else .next (completeOp s o)
    | _ => .next s
  | none => .next s

/-- The plain load of a chunk of a binding (R203). -/
def fillReq (s : State) (t : Team) (b : Binding) (k : Nat) (opc : BitVec 8) : Req :=
  { b.req s { t with active := t.unfin.getD t.active } .ld .read 128 opc with lanes := [(0, 128 * k)] }

/-- The map unit's request to the slice of its line and to the line's home. -/
def fillAsk (s : State) (t : Team) (q : Req) (g : Got) : State :=
  let ls := (g.lines.filter fun l => q.e.policy != 3 && !q.l1Hit s l).eraseDups
  let s := l2Request s q.cls (q.e.policy == 1) { die := t.place.die, core := t.place.core, write := false }
    (ls.map fun l => (l, mapWaiter t (mapName t.uid)))
  if q.e.policy == 0 then ls.foldl (fun s l => l1Insert s ⟨t.place.die, t.place.core, l⟩) s else s

/-- The fill of one chunk of a mapped handle (R203): the request goes out; once it is answered the bytes stand in the
scratchpad. A page or a block that is not there makes the team wait for it. -/
def fillChunk (s : State) (t : Team) (b : Binding) (k : Nat) (opc : BitVec 8) (unif : Bool) : State :=
  let q := fillReq s t b k opc
  match gatherAll q (fun _ => []) (fun _ _ => false) { s } q.lanes with
  | .gone s => s.unpin t.uid
  | .fault f g => (g.s.unpin t.uid).setTeam (stopTeam g.s t { f with opc, unif, ipc := t.pc })
  | .got g =>
    let s := g.s.unpin t.uid
    if !g.left.isEmpty then
      if g.parks.isEmpty then s.setTeam { t with status := .waiting (g.wait.getD .stall) }
      else parkTeam s t opc false unif g.parks t.unfin (Wait.items g.wait)
    else if t.mark.isNone then (fillAsk s t q g).setTeam { t with mark := some 1 }
    else
      let (s, t) := scratchStore s t (cellsAt (b.soff + 128 * k) (((g.data.head?).map (·.2)).getD []))
      s.setTeam { (t.setBinding { b with valid := k :: b.valid }) with status := .running, mark := none }

/-- MAP_FILL_COMPLETE: the instruction then runs again for its unfinished lanes. -/
def execMapFillComplete (uid : Nat) (s : State) : Out :=
  match s.team? uid with
  | some t =>
    match t.status with
    | .waiting (.mapFill h k opc unif) =>
      match t.binding h with
      | some b =>
        if b.valid.contains k || b.len ≤ 128 * k then .next (s.setTeam { t with status := .running, mark := none })
        else if s.l2Waits (mapName uid) then .next s
        else .next (fillChunk s t b k opc unif)
      | none => .next (s.setTeam { t with status := .running, mark := none })
    | _ => .next s
  | none => .next s

/-! ### Retirement (01 R30) -/

/-- Writes back every binding of a retiring team (08 R204), or leaves it with what it has to wait for. -/
def retireBack (s : State) (t : Team) : List Binding → Except State (State × Team)
  | [] => .ok (s, t)
  | b :: rest =>
    let i := Instr.exit Guard.always
    match dirtyBytes s t b (instrOpc i) with
    | .got g =>
      if g.left.isEmpty then retireBack (putBack t b (mapName t.uid) g) (t.setBinding { b with dirty := [] }) rest
      else .error (wbStop t i none (.got g))
    | r => .error (wbStop t i none r)

/-- A team retires with its work done (R30): mapped bytes are written back, tenure ends as a seal, copies, residencies
and groups are left; an engine fault nobody waited for halts the context (13 R336); items still held fail. A write-back that
faults or parks does so as of the last `exit`, with the handle of its binding. -/
def retireTeam (s : State) (t : Team) : State :=
  match retireBack s t t.binds with
  | .error s => s
  | .ok (s, t) =>
    let s := ((s.heldItems t.uid).filter fun i => !s.committing i).foldl (fun s i => failItem s i codeFillGen 0xFFFD false) s
    let s := retireTiles s t
    let gone := dropTeam (releaseResids (leaveGroups s t.uid) t.uid) t
    match t.efaults with
    | e :: _ => haltFault gone t e
    | [] => keepGhost gone t

/-- A command of a retired team has ended FAULTED: the context halts with its code (13 R336). -/
def ghostFault (s : State) (t : Team) : State :=
  let s := { s with ghosts := s.ghosts.filter (·.uid != t.uid) }
  match t.efaults with
  | e :: _ => haltFault s t e
  | [] => s

/-! ### L2 -/

/-- A store that waited in a slice's store buffer is applied to its line (R208); a release keeps its own order (09 R239). -/
def applyRecord (line : Nat) (s : State) (w : Waiter) : State :=
  match s.op? w.op with
  | some o =>
    match o.kind with
    | .store cs _ false => s.performBytes o.die o.core o.id ((cs.map (·.1)).filter fun a => lineOf a == line)
    | _ => s
  | none => s

/-- L2_FILL_ARRIVAL (R208): the line's data arrives; its records are applied and answered in order. -/
def execL2FillArrival (die line : Nat) (s : State) : Out :=
  let ws := ((s.caches.l2.find? fun x => x.die == die && x.line == line).map (·.pending)).getD []
  let s := (ws.filter (·.kind == 2)).foldl (applyRecord line) s
  .next { s with caches := { s.caches with
    l2 := s.caches.l2.map fun x => if x.die == die && x.line == line then { x with pending := [], starved := none } else x } }

/-- NACK_RETRY: a refusal reaches its requester (R209). -/
def execNackRetry (op : Nat) (s : State) : Out :=
  .next { s with caches := { s.caches with
    nacks := s.caches.nacks.map fun n => if n.who.op == op then { n with told := true } else n } }

/-- Sends one refused request again, as it was; one that is refused eight times in a row is known to the slice (R209). -/
def resend (s : State) (n : Nack) : State :=
  let others := s.caches.nacks.filter fun m => m != n
  match l2Try s n.die n.line (some n.who) n.cls n.stream with
  | some xs => sliceTakes { s with caches := { s.caches with nacks := others } } n.die n.line n.use xs
  | none =>
    let s := { s with caches := { s.caches with nacks := others ++ [{ n with count := n.count + 1, told := false }] } }
    if 8 ≤ n.count + 1 then s.noteStarved n.die n.line n.who.op else s

/-- NACK_RETRY_RESEND: the requester sends again what was refused (R209). -/
def execNackRetryResend (op : Nat) (s : State) : Out :=
  .next ((s.caches.nacks.filter fun n => n.who.op == op && n.told).foldl resend s)

/-! ### Walks (16 R430) -/

/-- A walk for a team ends: with a translation in its core's TLB, a park report, or a stop. -/
def execPageWalkComplete (uid : Nat) (va : DWord) (write : Bool) (s : State) : Out :=
  match s.team? uid with
  | some t =>
    if t.status != .running then .next s
    else match translate s (s.ctxOf t) t.place.die t.place.core va (if write then .write else .read) with
      | .ok (_, s) => .next s
      | .error f =>
        let i := instrAt s (s.ctxOf t) t
        let (opc, hdr, unif) := ((i.map instrOpc).getD 0, t.clause.left == 0, i.any inNib)
        if f.code == codePerm then
          .next (s.setTeam (stopTeam s t { code := codePerm, opc, hdr, unif, detail := 0xFFF, lanes := t.active, ipc := t.pc, addr := va }))
        else
          .next (parkTeam s t opc hdr unif [⟨va, t.active, f⟩] t.unfin)
  | none => .next s

/-! ### Errors of memory (R227 to R229, 11 R295) -/

/-- An error is counted in its die's log. -/
def State.countError (s : State) (die : Nat) : State :=
  let cs := s.mgmt.corrected
  let n := ((cs.find? (·.1 == die)).map (·.2)).getD 0
  { s with mgmt := { s.mgmt with corrected := (die, n + 1) :: cs.filter (·.1 != die) } }

/-- ECC_CORRECTABLE: the error is corrected and counted. An uncorrectable one in a line of a core's L1 or read-only cache
(`drop`: core and line) makes the cache drop it, to be fetched again (R227). -/
def execEccCorrectable (e : EccLine) (s : State) : Out :=
  let s := s.countError e.die
  match e.drop with
  | none => .next s
  | some (core, line) =>
    .next { s with caches := { s.caches with
      l1 := s.caches.l1.filter fun x => !(x.die == e.die && x.core == core && x.line == line)
      ro := s.caches.ro.filter fun x => !(x.die == e.die && x.core == core && x.line == line) } }

/-- The fault of an uncorrectable error in a team's storage. -/
def eccFault (t : Team) (source : BitVec 2) (word : BitVec 18) : FaultInfo :=
  { code := codeEcc, detail := word ++ (0 : BitVec 12) ++ source, lanes := t.active, ipc := t.pc }

/-- A team in the place of a killed one, at its start (R228). -/
def relaunch (s : State) (t : Team) (lr : Launch) : State :=
  let u := freshTeam s.nextUid s.nextAge t.ctx t.grid t.teamNo t.ix t.place lr t.ctl.genr
  let s := s.updGrid t.grid fun g => { g with retired := g.retired.filter (· != t.teamNo) }
  { s with teams := s.teams ++ [u], nextUid := s.nextUid + 1, nextAge := s.nextAge + 1 }

/-- ECC_SCRATCH_ERROR (R228): the team is killed; it starts again, or its context halts. An error that meets no team is
counted in its die's log. -/
def execEccScratchError (site : EccSite) (source : BitVec 2) (word : BitVec 18) (s : State) : Out :=
  match s.team? site.uid with
  | some t =>
    let f := eccFault t source word
    let r := mkRecord s t f false t.resumePc
    match s.grid? t.grid with
    | some g =>
      if g.lr.idemp && !t.noRelaunch then
        let s := (s.queueRecord (.ctx t.ctx) r).2
        .next (relaunch (killTeam s t) t g.lr)
      else .next (haltCtx (killTeam s t) t.ctx r)
    | none => .next (haltCtx (killTeam s t) t.ctx r)
  | none => .next (s.countError site.die)

/-- L2_POISON (R229): the line is poisoned. -/
def execL2Poison (line : Nat) (s : State) : Out :=
  .next { s with poison := if s.poison.contains line then s.poison else line :: s.poison }

/-- DETAIL of an error response to an operation: a tile's dead home, or the agent of the first of its lines that answers so (16
R421). -/
def opAgent (s : State) (o : Op) : Word :=
  let home : Option Word := match o.kind with
    | .tileOp w _ => ((s.tiles.named o.ctx w).map s.tileHome).bind fun h => if s.coh.dead.contains (.die h) then some (dieDetail h) else none
    | _ => none
  home.getD <| ((o.lines.findSome? fun l => errorAt s (128 * l) 128).orElse fun _ => (o.lines.head?).map fun l => agentDetail s (128 * l)).getD 0

/-- ERROR_RSP (R229, R295): the context of the transaction halts; a tile operation at a dead home ends with it. -/
def execErrorRsp (op : Nat) (s : State) : Out :=
  match s.op? op with
  | some o =>
    let halted := haltOp s o codeContained (opAgent s o)
    .next (match o.kind with
      | .tileOp .. => completeOp halted o
      | k => if k.isEngine then overOp halted o { code := codeContained, detail := opAgent s o } else halted)
  | none => .next s

end Sys2Proof.Machine
end

