-- ==== Sys2Proof/Machine/Copies.lean ====
section
/-! DEFINITION. Copies and fills (13 R334 to R348). -/

namespace Sys2Proof.Machine

/-! ### The descriptor (R338, R339) -/

/-- The fields of a copy descriptor. -/
structure CopyDesc where
  dstr : List Int
  sstr : List Int
  ext  : List Nat
  doff : Int
  soff : Int
  dtile : Word
  stile : Word
  coff : Nat
  chidx : BitVec 12
  cnt  : Bool
  sten : Bool
  dten : Bool
  scb  : Option Nat
  dcb  : Option Nat
  scbRaw : Nat
  dhidx : BitVec 12
  shidx : BitVec 12
  ndim : Nat
  esize : Nat
  resv : Bool
  deriving DecidableEq, Repr

def copyDesc (bs : List Byte) : CopyDesc :=
  let r := leNat bs
  let f (lo w : Nat) : Nat := natField r lo w
  { dstr := (List.range 12).map fun d => natToInt (f (1472 + 48 * d) 48) 48
    sstr := (List.range 12).map fun d => natToInt (f (896 + 48 * d) 48) 48
    ext := (List.range 12).map fun d => f (512 + 32 * d) 32
    doff := natToInt (f 448 64) 64, soff := natToInt (f 384 64) 64
    dtile := BitVec.ofNat 32 (f 352 32), stile := BitVec.ofNat 32 (f 320 32)
    coff := f 96 32, chidx := BitVec.ofNat 12 (f 84 12), cnt := natBit r 83, sten := natBit r 73, dten := natBit r 72
    scb := if natBit r 71 then some (f 68 3) else none
    dcb := if natBit r 67 then some (f 64 3) else none
    scbRaw := f 68 3
    dhidx := BitVec.ofNat 12 (f 52 12), shidx := BitVec.ofNat 12 (f 40 12), ndim := f 36 4, esize := f 29 3
    resv := f 128 192 != 0 || f 74 9 != 0 || f 32 4 != 0 || f 0 29 != 0 }

/-- Whether all dimensions from NDIM on are zero, and all below are not. -/
def CopyDesc.dimsOk (x : CopyDesc) : Bool :=
  (List.range 12).all fun d =>
    let z (l : List Int) : Bool := l[d]? == some 0
    if d < x.ndim then (x.ext[d]?).getD 0 != 0 else x.ext[d]? == some 0 && z x.sstr && z x.dstr

/-- A side without a place of its own in the descriptor. -/
def sideBlank (h : BitVec 12) (off : Int) (str : List Int) : Bool := h == 0 && off == 0 && str.all (· == 0)

/-- The rules of R339 that need no tile. -/
def CopyDesc.sidesOk (x : CopyDesc) (fill : Bool) : Bool :=
  (fill || (!(x.sten && x.scb.isSome) && (!(x.sten || x.scb.isSome) || sideBlank x.shidx x.soff x.sstr))) &&
    !(x.dten && x.dcb.isSome) && (!(x.dten || x.dcb.isSome) || sideBlank x.dhidx x.doff x.dstr) &&
    !(x.scb.isSome && x.dcb.isSome && x.scb == x.dcb)

/-- R346: the source fields of a fill are zero. -/
def CopyDesc.fillOk (x : CopyDesc) (wide : Bool) : Bool :=
  x.esize == (if wide then 3 else 2) && sideBlank x.shidx x.soff x.sstr && x.stile == 0 && !x.sten && x.scb.isNone &&
    x.scbRaw == 0

/-- The first ILLOP row of R340. -/
def CopyDesc.wf (x : CopyDesc) (fill : Option Bool) : Bool :=
  !x.resv && x.esize ≤ 4 && 1 ≤ x.ndim && x.ndim ≤ 12 && x.dimsOk && x.sidesOk fill.isSome &&
    (x.cnt || (x.chidx == 0 && x.coff == 0)) && (match fill with
      | some wide => x.fillOk wide
      | none => true)

def CopyDesc.extent (x : CopyDesc) : List Nat := x.ext.take x.ndim
def CopyDesc.total (x : CopyDesc) : Nat := x.extent.foldl (· * ·) 1
def CopyDesc.bytes (x : CopyDesc) : Nat := 2 ^ x.esize

/-- The circular buffers that a descriptor names. -/
def CopyDesc.cbs (x : CopyDesc) : List Nat := x.scb.toList ++ x.dcb.toList

/-- The circular-buffer row of R340. -/
def cbRowOk (t : Team) (x : CopyDesc) : Bool :=
  x.cbs.all fun k => (t.cb k).init && x.total * x.bytes % (t.cb k).size == 0

/-- Whether a tile can be a side (R339). -/
def tileFits (s : State) (x : CopyDesc) (u : Tile) : Bool :=
  match s.bufOf u.ctx u.buf with
  | some b => b.shape.ndim == x.ndim && x.extent == u.sz && b.shape.esize == x.esize
  | none => false

/-- Offset and strides of a tile within its buffer. -/
def tilePlace (s : State) (u : Tile) : DWord × Int × List Int :=
  match s.bufOf u.ctx u.buf with
  | some b => (b.base, ((u.lo.zip b.shape.stride).map fun p => (p.1 : Int) * p.2).sum, b.shape.stride.map fun (k : Nat) => (k : Int))
  | none => (0, 0, [])

/-- Reads the entry of a side's handle and checks it as one access; a tile and a circular buffer have no such check. -/
def copySide (s : State) (t : Team) (i : Instr) (fs : Bool) (x : CopyDesc) (dst : Bool)
    (go : CopySide → Int → List Int → State → Out) : Out :=
  let (ten, tile, cb, h, off, str) :=
    if dst then (x.dten, x.dtile, x.dcb, x.dhidx, x.doff, x.dstr) else (x.sten, x.stile, x.scb, x.shidx, x.soff, x.sstr)
  match ten, cb with
  | true, _ =>
    match s.tiles.named t.ctx tile with
    | some u => let (base, o, st) := tilePlace s u; go (.tile tile base) o st s
    | none => .next (takeFault s t i (t.uniFault codeStale 0xFFF))
  | false, some k =>
    withHandle s t i (some fs) true t.active (.idx (t.cb k).h) fun _ e s => go (.cb k e.soff) 0 [] s
  | false, none =>
    let ex := extentOf off x.bytes x.extent (str.take x.ndim)
    sideCheck s t i fs h (if dst then .engW else .engR) (if dst then .engWrite else .engRead) ex.lo ex.size 1
      fun e s => go (.mem h e.raw) off (str.take x.ndim) s

/-- Whether the offset and the strides of a handle side are multiples of the element size. -/
def sideAligned (w : Nat) (side : CopySide) (off : Int) (str : List Int) : Bool :=
  match side with
  | .mem .. => off % w == 0 && str.all fun k => k % (w : Int) == 0
  | _ => true

/-- Enters one side of an accepted command as storage in use; the slots of a circular buffer are entered as the command
takes them. -/
def useSide (s : State) (o : Op) (dst : Bool) (x : CopyDesc) (side : CopySide) (off : Int) (str : List Int) : State :=
  let ex := extentOf off x.bytes x.extent str
  match side with
  | .mem _ e => useExtent s o dst ⟨e⟩ ex
  | .tile _ base => useExtent s o dst (tileEntry base) ex (!dst)
  | _ => s

/-- Commands of a partition in the copy queue of a die (R348). -/
def copyQueue (s : State) (part die : Nat) : List Op :=
  s.ops.filter fun o => o.die == die && ((s.ctx? o.ctx).map (·.part)) == some part && (match o.kind with
    | .copy _ => true
    | _ => false)

/-- Accepts a command. -/
def acceptCopy (s : State) (t : Team) (i : Instr) (fs : Bool) (x : CopyDesc) (c : CopyCmd) : State :=
  let id := s.nextOp
  let s := issueOp s t.spent i fs (.copy c)
  match s.op? id with
  | some o => useSide (useSide s o false x c.src c.soff c.sstr) o true x c.dst c.doff c.dstr
  | none => s

/-- The checks of R340 from the destination on, the counter and the engine, then acceptance. -/
def copyTail (s : State) (t : Team) (i : Instr) (fs : Bool) (scope : Scope) (x : CopyDesc) (src : CopySide) (soff : Int)
    (sstr : List Int) : Out :=
  copySide s t i fs x true fun dst doff dstr s =>
    if !sideAligned x.bytes src soff sstr then .next (takeFault s t i (t.uniFault codeAlign (x.shidx.setWidth 32)))
    else if !sideAligned x.bytes dst doff dstr then .next (takeFault s t i (t.uniFault codeAlign (x.dhidx.setWidth 32)))
    else
      let last (cnt : Option (BitVec 12 × Nat × Word)) (s : State) : Out :=
        match s.partOf t with
        | none => .next (takeFault s t i (absentFault t))
        | some p =>
          if p.copyEngines t.place.die == 0 then .next (takeFault s t i (absentFault t))
          else if p.cqshare ≤ (copyQueue s p.id t.place.die).length then waitHere s t .stall
          else
            .next (acceptCopy s t i fs x
              { esize := x.esize, ext := x.extent, src, soff, sstr, dst, doff, dstr, cnt, scope, pos := 0, started := false,
                srcSlot := 0, dstSlot := 0 })
      if x.cnt then
        sideCheck s t i fs x.chidx .sig .atomic x.coff 4 4 fun e s => last (some (x.chidx, e.raw, BitVec.ofNat 32 x.coff)) s
      else last none s

/-- The side-rule row of R340 for tiles that a word names comes before the row of stale words. -/
def copyTiles (s : State) (t : Team) (i : Instr) (x : CopyDesc) (go : Out) : Out :=
  let words := (if x.sten then [x.stile] else []) ++ (if x.dten then [x.dtile] else [])
  if words.any fun w => (s.tiles.named t.ctx w).any fun u => !tileFits s x u then .next (takeFault s t i illop)
  else if words.any fun w => (s.tiles.named t.ctx w).isNone then .next (takeFault s t i (t.uniFault codeStale 0xFFF))
  else go

/-- R345. -/
def execDcopy (fs : Bool) (scope : Scope) (r : RecRef) (s : State) : Out :=
  let i := Instr.dcopy fs scope r
  longOp s fs fun t =>
    loadRecord s t i fs r 256 8 fun bs s =>
      let x := copyDesc bs
      if !x.wf none || !cbRowOk t x then .next (takeFault s t i illop)
      else copyTiles s t i x (copySide s t i fs x false fun src off str s => copyTail s t i fs scope x src off str)

/-- R346. -/
def execDfill (fs : Bool) (scope : Scope) (wide : Bool) (r : RecRef) (v : Src) (s : State) : Out :=
  let i := Instr.dfill fs scope wide r v
  longOp s fs fun t =>
    loadRecord s t i fs r 256 8 fun bs s =>
      let x := copyDesc bs
      let value := if wide then leBytes 8 (val64 s t true 0 false v).toNat else leBytes 4 (val32 s t true 0 v).toNat
      if !x.wf (some wide) || !cbRowOk t x then .next (takeFault s t i illop)
      else copyTiles s t i x (copyTail s t i fs scope x (.value value) 0 [])

/-! ### Running (R341 to R345) -/

/-- Copies that run on a die for a partition. -/
def copiesRunning (s : State) (part die : Nat) : Nat :=
  ((copyQueue s part die).filter fun o => match o.kind with
    | .copy c => c.started
    | _ => false).length

/-- The slots of a circular-buffer side that a command may take, for the bytes that it both reads and writes (R342): every slot, since
the team and other commands may take some between (R343; DEDUCED, log entry 120). -/
def useSlots (s : State) (o : Op) (c : CopyCmd) (dst : Bool) : State :=
  match (if dst then c.dst else c.src), s.teamAny o.uid with
  | .cb k soff, some t => useSlot s o dst true soff ((t.cb k).size * (t.cb k).count)
  | _, _ => s

/-- COPY_START: an idle engine takes the command with its copy of a source tile (R348, 11 R306). -/
def startCopy (s : State) (o : Op) (c : CopyCmd) : State :=
  let t := opTeam s o
  let part := (s.ctxOf t).part
  let engines := ((s.part? part).map (·.copyEngines o.die)).getD 0
  if c.started || engines ≤ copiesRunning s part o.die then s
  else
    let dstBad : Option FaultInfo := match c.dst with
      | .tile w _ => (match s.tiles.named o.ctx w with
        | some u => if u.st == .opened && u.holder == some t.who then none else some { code := codePerm, detail := 0xFFF }
        | none => some { code := codeStale, detail := 0xFFF })
      | _ => none
    match dstBad with
    | some f => faultOp s o f
    | none =>
      let run (s : State) : State :=
        (useSlots (useSlots s o c false) o c true).updOp o.id fun o => { o with kind := .copy { c with started := true } }
      match c.src with
      | .tile w _ =>
        match s.tiles.named o.ctx w with
        | some u =>
          if s.coh.dead.contains (.die (s.tileHome u)) then opError s o (dieDetail (s.tileHome u))
          else match engineTake s t.who [u] o.id with
            | .ok s => run s
            | .error s => s
        | none => faultOp s o { code := codeStale, detail := 0xFFF }
      | _ => run s

def execCopyStart (op : Nat) (s : State) : Out :=
  match s.op? op with
  | some o =>
    match o.kind with
    | .copy c => .next (startCopy s o c)
    | _ => .next s
  | none => .next s

/-- The coordinates of the p-th element of a walk, dimension 0 innermost. -/
def walkCoords : List Nat → Nat → List Nat
  | [], _ => []
  | e :: r, p => p % e :: walkCoords r (p / e)

/-- The offset of an element of a side. -/
def walkOff (off : Int) (str : List Int) (cs : List Nat) : Int := off + ((cs.zip str).map fun p => (p.1 : Int) * p.2).sum

/-- How the run of a copy stands. -/
inductive CopyRun where
  | go (c : CopyCmd) (s : State)
  | wait (c : CopyCmd) (s : State)
  | over (s : State)

/-- Takes or reserves the slot of a circular-buffer side when the stream stands at its start (R343). -/
def openSlot (s : State) (o : Op) (c : CopyCmd) (dst : Bool) : CopyRun :=
  let side := if dst then c.dst else c.src
  let slot := if dst then c.dstSlot else c.srcSlot
  match side with
  | .cb k soff =>
    if slot != 0 then .go c s
    else match s.teamAny o.uid with
      | none => .over (overOp s o { code := codeStale, detail := 0xFFF })
      | some t =>
        let b := t.cb k
        if dst then
          if b.free == 0 then .wait c s
          else
            .go { c with dstSlot := 1 + (b.slot b.reserved).toNat }
              ((useSlot s o true false (soff + (b.slot b.reserved).toNat) b.size).updTeam o.uid fun t =>
                t.setCb k { b with reserved := b.reserved + 1 })
        else if b.filled == 0 then .wait c s
        else
          .go { c with srcSlot := 1 + (b.slot b.taken).toNat }
            ((useSlot s o false false (soff + (b.slot b.taken).toNat) b.size).updTeam o.uid fun t =>
              t.setCb k { b with taken := b.taken + 1 })
  | _ => .go c s

/-- A slot that a command has committed or released is storage of its own only; undefined where another agent has written
it. -/
def leaveSlot (s : State) (o : Op) (dst : Bool) (a : Nat) : State :=
  let mine (u : InUse) : Bool := u.op == o.id && u.dst == dst && u.scratch == some o.uid && u.base == a && !u.own
  let bad := (s.uses.filter fun u => mine u && u.dst && u.spoiled).flatMap fun u => (List.range u.len).map (u.base + ·)
  { (s.updTeam o.uid fun t => { t with scratch := t.scratch.writeCells (bad.map fun a => (a, Config.freeByte s.ticks a)) }) with
    uses := s.uses.map fun u => if mine u then { u with own := true } else u }

/-- Commits or releases the slot of a side when the stream has passed its end. -/
def closeSlot (s : State) (o : Op) (c : CopyCmd) (dst : Bool) : CopyCmd × State :=
  let w := 2 ^ c.esize
  match (if dst then c.dst else c.src), s.teamAny o.uid with
  | .cb k soff, some t =>
    let b := t.cb k
    let s := if (c.pos + 1) * w % b.size != 0 then s
      else leaveSlot s o dst (soff + ((if dst then c.dstSlot else c.srcSlot) - 1))
    if (c.pos + 1) * w % b.size != 0 then (c, s)
    else if dst then
      ({ c with dstSlot := 0 }, s.updTeam o.uid fun t => t.setCb k { b with committed := b.committed + 1 })
    else ({ c with srcSlot := 0 }, s.updTeam o.uid fun t => t.setCb k { b with released := b.released + 1 })
  | _, _ => (c, s)

/-- The scratchpad place of the stream in an open slot. -/
def slotPlace (s : State) (o : Op) (k soff slot pos w : Nat) : Nat :=
  let size := ((s.teamAny o.uid).map fun t => (t.cb k).size).getD 1
  soff + (slot - 1) + pos * w % size

/-- Reads the source element of a copy. -/
def copyGet (s : State) (o : Op) (c : CopyCmd) : ERes :=
  let w := 2 ^ c.esize
  let off := walkOff c.soff c.sstr (walkCoords c.ext c.pos)
  match c.src with
  | .mem h e => entryGet s o h ⟨e⟩ off w
  | .tile _ base => entryGet s o 0xFFF (tileEntry base) off w
  | .cb k soff => .ok (scratchGet s o (slotPlace s o k soff c.srcSlot c.pos w) w) s
  | .value bs => .ok bs s

/-- Writes the destination element of a copy. -/
def copyPut (s : State) (o : Op) (c : CopyCmd) (bs : List Byte) : ERes :=
  let off := walkOff c.doff c.dstr (walkCoords c.ext c.pos)
  match c.dst with
  | .mem h e => entryPut s o h ⟨e⟩ off bs
  | .tile _ base => entryPut s o 0xFFF (tileEntry base) off bs
  | .cb k soff => .ok [] (scratchPut s o (slotPlace s o k soff c.dstSlot c.pos bs.length) bs)
  | .value _ => .ok [] s

/-- One element. -/
def copyElem (s : State) (o : Op) (c : CopyCmd) : CopyRun :=
  match openSlot s o c false with
  | .go c s =>
    match openSlot s o c true with
    | .go c s =>
      match copyGet s o c with
      | .wait s => .wait c s
      | .over s => .over s
      | .ok bs s =>
        match copyPut s o c bs with
        | .wait s => .wait c s
        | .over s => .over s
        | .ok _ s =>
          let (c, s) := closeSlot s o c false
          let (c, s) := closeSlot s o c true
          .go { c with pos := c.pos + 1 } s
    | r => r
  | r => r

/-- The elements that are left, in walk order. -/
def copyRun (o : Op) : Nat → State → CopyCmd → CopyRun
  | 0, s, c => .go c s
  | n + 1, s, c =>
    match copyElem s o c with
    | .go c s => copyRun o n s c
    | r => r

/-- The end of a copy: undefined results, the counter, the flag (R345). -/
def finishCopy (s : State) (o : Op) (c : CopyCmd) : State :=
  let s := spoilResult s o
  match c.cnt with
  | none => endCommand s o
  | some (h, e, off) =>
    match countUp s o h ⟨e⟩ off.toNat with
    | .ok _ s => endCommand s o
    | .wait s => s
    | .over s => s

/-- COPY_COMPLETE: the engine walks on from where the copy waits. -/
def execCopyComplete (op : Nat) (s : State) : Out :=
  match s.op? op with
  | some o =>
    match o.kind with
    | .copy c =>
      if !c.started || s.opHeld op then .next s
      else
        let keep (c : CopyCmd) (s : State) : State := s.updOp op fun o => { o with kind := .copy c }
        match copyRun o (c.ext.foldl (· * ·) 1 - c.pos) s c with
        | .go c s => .next (finishCopy (keep c s) o c)
        | .wait c s => .next (keep c s)
        | .over s => .next s
    | _ => .next s
  | none => .next s

end Sys2Proof.Machine
end

