-- ==== Sys2Proof/Machine/Matrix.lean ====
section
/-! DEFINITION. Matrix instructions and the tile-task engines (12 R307 to R333, R527): the task record and its checks, the
queue of a die, alignment and the partials, merges, residencies, the weight store, and their events. -/

namespace Sys2Proof.Machine

open Host (Cell)

def State.updMat (s : State) (f : Mat → Mat) : State := { s with mat := f s.mat }

/-! ### The task record (R311) -/

def Task.tileA (x : Task) : Word := BitVec.ofNat 32 (x.f 0 32)
def Task.scaleA (x : Task) : Word := BitVec.ofNat 32 (x.f 32 32)
def Task.bref (x : Task) : Nat := x.f 64 32
def Task.tileB (x : Task) : Word := BitVec.ofNat 32 x.bref
def Task.scaleB (x : Task) : Word := BitVec.ofNat 32 (x.f 96 32)
def Task.k0 (x : Task) : Nat := x.f 160 16
def Task.kn (x : Task) : Nat := x.f 176 16
def Task.zf (x : Task) : Bool := x.f 198 1 == 1
def Task.lp (x : Task) : Bool := x.f 199 1 == 1
def Task.bsrc (x : Task) : Nat := x.f 200 2
def Task.cnt (x : Task) : Bool := x.f 202 1 == 1
def Task.dep (x : Task) (i : Nat) : Nat := x.f (224 + 16 * i) 16
def Task.chidx (x : Task) : BitVec 12 := BitVec.ofNat 12 (x.f 256 12)
def Task.coff (x : Task) : Nat := x.f 288 32
def Task.cscope (x : Task) : Nat := x.f 320 3
def Task.slotA (x : Task) : Slot := Slot.ofWord x.aslot
def Task.slotB (x : Task) : Slot := Slot.ofWord x.bslot

/-- Whether a format's B takes a pair of macros (R308). -/
def Slot.pair (sl : Slot) : Bool := sl.elem == 9 || sl.elem == 10

/-- Bytes of a scale record. -/
def Slot.recBytes (sl : Slot) : Nat := if sl.elem == 8 then 2 else 1

/-- Whether a format has scale records. -/
def Slot.scaled (sl : Slot) : Bool := sl.scale != 2

/-- The first ILLOP row of R312. -/
def Task.row1 (x : Task) (rs : BitVec 3) : Bool :=
  x.f 203 21 == 0 && x.f 268 20 == 0 && x.f 323 189 == 0 && x.bsrc != 3 && x.f 192 3 == rs.toNat &&
    (if x.cnt then 1 ≤ x.cscope && x.cscope ≤ 6 else x.cscope == 0) && (x.bsrc == 0 || x.f 195 3 == 0) &&
    ((x.bsrc == 0 && x.slotB.scaled) || x.scaleB == 0) && (x.slotA.scaled || x.scaleA == 0)

/-- The format row. -/
def Task.row2 (x : Task) : Bool := x.slotA.elem != 0 && (x.bsrc != 0 || (x.slotB.elem != 0 && x.slotB.elem != 8))

/-- The sizes row. -/
def Task.row3 (x : Task) : Bool :=
  x.kn != 0 && x.kn % 32 == 0 && x.kn % x.slotA.block == 0 && (x.bsrc != 0 || x.kn % x.slotB.block == 0) &&
    x.kn ≤ (if x.bsrc == 0 && x.slotB.pair then 1024 else 2048) && x.k0 % 32 == 0 && x.k0 % x.slotA.block == 0

/-- The tiles that a task reads. -/
def Task.reads (x : Task) : List Word :=
  [x.tileA] ++ (if x.slotA.scaled then [x.scaleA] else []) ++ (if x.bsrc == 0 then [x.tileB] else []) ++
    (if x.bsrc == 0 && x.slotB.scaled then [x.scaleB] else [])

/-- Every tile word of a task. -/
def Task.words (x : Task) : List Word := x.reads ++ [x.tileC]

/-! ### Shapes (R310) -/

/-- What a check of an operand's shape needs: sizes of the box. -/
structure Geo where
  s0 : Nat
  s1 : Nat
  deriving DecidableEq, Repr

/-- The box of a tile whose buffer has two dimensions, an element size and a first stride. -/
def geoOf (s : State) (ctx w : Word) (esize str0 : Nat) : Option Geo :=
  match s.tiles.named ctx w with
  | none => none
  | some u =>
    match s.bufOf u.ctx u.buf, u.sz with
    | some b, [s0, s1] => if b.shape.esize == esize && b.shape.stride.headD 0 == str0 then some ⟨s0, s1⟩ else none
    | _, _ => none

/-- k elements of a packed row; none when the box cuts one. -/
def kOf (sl : Slot) (s0 : Nat) : Option Nat := if s0 * 8 % elemBits sl.elem == 0 then some (s0 * 8 / elemBits sl.elem) else none

/-- A packed operand with its scale tile, if it is to have one: k elements and rows, or none when R310 refuses them. -/
def packedGeo (s : State) (ctx : Word) (sl : Slot) (w sw : Word) (scaled : Bool := sl.scaled) : Option Geo :=
  match geoOf s ctx w 0 1 with
  | none => none
  | some g =>
    match kOf sl g.s0 with
    | none => none
    | some k =>
      let rowsOk := 1 ≤ g.s1 && g.s1 ≤ 256
      let scaleOk := if !scaled then true
        else match geoOf s ctx sw (sl.recBytes - 1) sl.recBytes with
          | some h => h.s0 * sl.block == k && h.s1 == g.s1
          | none => false
      if rowsOk && scaleOk then some ⟨k, g.s1⟩ else none

/-- The shape row of R312. -/
def shapesOk (s : State) (x : Task) : Bool :=
  match packedGeo s x.ctx x.slotA x.tileA x.scaleA, geoOf s x.ctx x.tileC 2 4 with
  | some a, some c =>
    decide (x.k0 + x.kn ≤ a.s0) && c.s1 == a.s1 && 1 ≤ c.s0 && c.s0 ≤ 256 &&
      (x.bsrc != 0 || (match packedGeo s x.ctx x.slotB x.tileB x.scaleB with
        | some b => b.s0 == x.kn && b.s1 == c.s0
        | none => false))
  | _, _ => false

/-! ### The queue of a die (R313) -/

/-- The latest task with an id on a die. -/
def State.task? (s : State) (die id : Nat) : Option Task := s.mat.tasks.find? fun x => x.die == die && x.id == id

/-- The task of an operation. -/
def State.taskOf (s : State) (op : Nat) : Option Task := s.mat.tasks.find? (·.order == op)

/-- The task that an event of a die and an id concerns: of those that have not ended the oldest in the queue, else the oldest in an
image. -/
def State.taskLive (s : State) (die id : Nat) : Option Task :=
  let xs := s.mat.tasks.filter fun x => x.die == die && x.id == id && !x.freed
  ((xs.filter (!·.away)).getLast?).orElse fun _ => xs.getLast?

def State.updTask (s : State) (x : Task) (f : Task → Task) : State :=
  s.updMat fun m => { m with tasks := m.tasks.map fun y => if y.die == x.die && y.order == x.order then f y else y }

def TaskState.over : TaskState → Bool
  | .done | .aborted | .faulted | .depfail => true
  | _ => false

def TaskState.code : TaskState → Nat
  | .queued => 1 | .ready => 2 | .running => 3 | .done => 4 | .aborted => 5 | .faulted => 6 | .depfail => 7

/-- The status word (R317). -/
def Task.status (x : Task) : Word :=
  BitVec.ofNat 32 (x.st.code * 2 ^ 28 + x.eng % 64 * 2 ^ 22 + b2n x.nangrp * 2 ^ 21 + b2n x.ovf * 2 ^ 20 +
    b2n x.parity * 2 ^ 19 + b2n x.bheld * 2 ^ 18 + x.bsrc * 2 ^ 16 + (if x.st == .faulted then x.fcode.toNat else 0) * 2 ^ 8)

/-- The next id of a die: 0xFFFF is skipped. -/
def State.nextTask (s : State) (die : Nat) : Nat := ((s.mat.nextId.find? (·.1 == die)).map (·.2)).getD 0

/-- Tasks in the order of their places in the queue. -/
def inQueueOrder (xs : List Task) : List Task :=
  let before (x y : Task) : Bool := x.turn < y.turn || (x.turn == y.turn && x.order < y.order)
  xs.foldl (fun acc x => acc.filter (before · x) ++ [x] ++ acc.filter fun y => !before y x) []

/-- Records of a partition in a die's queue. -/
def queueUsed (s : State) (part die : Nat) : Nat :=
  (s.mat.tasks.filter fun x => x.die == die && x.part == part && !x.freed && !x.away).length

/-- Whether an ended task is still named by one that waits for it. -/
def stillNamed (ts : List Task) (x : Task) : Bool :=
  ts.any fun y => y.die == x.die && y.st == .queued && x.order < y.order && (y.dep 0 == x.id || y.dep 1 == x.id)

/-- Puts a task into its die's queue under the next id. -/
def enqueue (s : State) (x : Task) : State :=
  let next := if x.id + 1 == 0xFFFF then 0 else x.id + 1
  s.updMat fun m => { m with
    tasks := x :: m.tasks.filter fun y => !(y.die == x.die && y.id == x.id && y.freed && !stillNamed m.tasks y)
    nextId := (x.die, next) :: m.nextId.filter (·.1 != x.die) }

/-- The task that a record makes. -/
def newTask (s : State) (t : Team) (part : Nat) (ws : List Word) : Task :=
  let x : Task :=
    { die := t.place.die, id := s.nextTask t.place.die, uid := t.uid, ctx := t.ctx, grid := t.grid, part, fields := ws, aslot := 0,
      bslot := 0, cntE := 0, st := .queued, eng := 0, nangrp := false, ovf := false, parity := false, bheld := false, fcode := 0,
      freed := false, order := s.nextOp, turn := s.nextOp, merges := [], start := 0, time := 0, computed := false, away := false }
  { x with aslot := s.slotWord t (x.f 192 3), bslot := s.slotWord t (x.f 195 3) }

/-- Enters a tile of a command as storage in use: one that it writes, or one that it reads. -/
def useTile (s : State) (o : Op) (dst : Bool) (w : Word) : State :=
  match s.tiles.named o.ctx w with
  | some u =>
    let (base, off, str) := tilePlace s u
    let e := ((s.bufOf u.ctx u.buf).map (·.shape.elemBytes)).getD 1
    useExtent s o dst (tileEntry base) (extentOf off e u.sz str) (!dst)
  | none => s

/-- Enters the tiles of a command as storage in use: those that it reads, and the one that it writes. -/
def useTiles (s : State) (op : Nat) (reads writes : List Word) : State :=
  match s.op? op with
  | some o => writes.foldl (useTile · o true ·) (reads.foldl (useTile · o false ·) s)
  | none => s

/-- R325: the checks of R312 in their order, then the queue. -/
def execMenq (fs : Bool) (slot : BitVec 3) (d : Dst) (k : BitVec 6) (s : State) : Out :=
  let i := Instr.menq fs slot d k
  longOp s fs fun t =>
    let ws := (List.range 16).map fun j => t.sreg (k.toNat + j)
    let x := newTask s t ((s.ctxOf t).part) ws
    let fault (f : FaultInfo) : Out := .next (takeFault s t i f)
    if !x.row1 slot || !x.row2 || !x.row3 then fault illop
    else if x.words.any fun w => (s.tiles.named t.ctx w).isNone then fault (t.uniFault codeStale 0xFFF)
    else if !shapesOk s x then fault (t.uniFault codeBounds 0xFFF)
    else
      let accept (e : Nat) (s : State) : Out :=
        match s.partOf t with
        | none => .next (takeFault s t i (absentFault t))
        | some p =>
          if (p.cores[dieNo t.place.die]?).getD 0 == 0 then .next (takeFault s t i (absentFault t))
          else if p.tqshare ≤ queueUsed s p.id t.place.die then waitHere s t .full
          else
            let w := BitVec.ofNat 32 x.id
            let s := issueOp (enqueue s { x with cntE := e }) (t.spent.writeUni d [w]) i fs (.task x.die x.id)
            .next (useTiles s x.order x.reads [x.tileC])
      if x.cnt then sideCheck s t i fs x.chidx .sig .atomic x.coff 4 4 fun e s => accept e.raw s
      else accept 0 s

/-! ### Waiting for tasks (R326, R333) -/

/-- Whether the task that an id names has ended, or there is none. -/
def taskOver (s : State) (die id : Nat) : Bool := ((s.task? die id).map (·.st.over)).getD true

def statusOf (s : State) (die id : Nat) : Word := ((s.task? die id).map Task.status).getD 0

/-- Ends the waits for tasks that have ended. -/
def settleTasks (s : State) : State :=
  let s := (s.ops.filter fun o => match o.kind with
    | .taskWait die id => taskOver s die id
    | _ => false).foldl completeAcq s
  { s with teams := s.teams.map fun t => match t.status with
      | .waiting (.task die id) => if taskOver s die id && t.leave != .forced then { t with status := .running } else t
      | _ => t }

/-- R326: not a blocking point; the instruction runs again when the task ends. A wait that completes is an acquire. -/
def execMwaitId (d : Dst) (x : Src) (s : State) : Out :=
  let i := Instr.mwaitId d x
  onTeam s fun t =>
    let id := (val32 s t true 0 x).toNat % 2 ^ 16
    if taskOver s t.place.die id then finish s t i (.ok (t.acquireAll.writeUni d [statusOf s t.place.die id]))
    else waitHere s t (.task t.place.die id)

/-- R326. -/
def execMwaitFlag (fs : Bool) (x : Src) (s : State) : Out :=
  let i := Instr.mwaitFlag fs x
  longOp s fs fun t =>
    let id := (val32 s t true 0 x).toNat % 2 ^ 16
    let s := issueOp s t i fs (.taskWait t.place.die id)
    .next (if taskOver s t.place.die id then settleTasks s else s)

/-- R333. -/
def execMquery (d : Dst) (x : Src) (s : State) : Out :=
  let i := Instr.mquery d x
  onTeam s fun t =>
    let id := (val32 s t true 0 x).toNat % 2 ^ 16
    let time := ((s.task? t.place.die id).map (·.time)).getD 0
    finish s t i (.ok (t.writeUni d [statusOf s t.place.die id, time]))

/-! ### Reading packed operands -/

/-- How a read of several rows goes. -/
inductive Rows where
  | ok (rows : List (List Byte)) (s : State)
  | stop (r : ERes)

/-- Reads runs of bytes at offsets of a tile's buffer. -/
def rowsGet (o : Op) (base : DWord) (n : Nat) : State → List Int → List (List Byte) → Rows
  | s, [], acc => .ok acc s
  | s, off :: rest, acc =>
    match entryGet s o 0xFFF (tileEntry base) off n with
    | .ok bs s => rowsGet o base n s rest (acc ++ [bs])
    | r => .stop r

/-- Reads bytes `start` to `start + n - 1` of every row of a tile. -/
def tileRows (s : State) (o : Op) (ctx w : Word) (start n : Nat) : Rows :=
  match s.tiles.named ctx w with
  | none => .stop (.over (overOp s o { code := codeStale, detail := 0xFFF }))
  | some u =>
    let (base, off, str) := tilePlace s u
    rowsGet o base n s ((List.range (u.sz.getD 1 1)).map fun (r : Nat) => off + start + (r : Int) * (str.getD 1 0)) []

/-! ### Alignment (R176, R177, R315) -/

/-- Element k of a packed row. -/
def codeAt (sl : Slot) (row : List Byte) (k : Nat) : Nat :=
  let w := elemBits sl.elem
  natField (leNat (row.drop (k * w / 8))) (k * w % 8) w

/-- The scale record of element k. -/
def recAt (sl : Slot) (recs : List Byte) (k : Nat) : Nat :=
  if !sl.scaled then 0 else leNat ((recs.drop (k / sl.block * sl.recBytes)).take sl.recBytes)

/-- The exact value of element k: code times block scale; none for NaN, an infinity or a NaN scale. -/
def exactAt (sl : Slot) (row recs : List Byte) (k : Nat) : Option Num :=
  let rc := recAt sl recs k
  match scaleVal (if sl.elem == 8 then 0 else sl.scale) rc with
  | none => none
  | some sc =>
    if sl.elem == 8 then
      some (mulNum (i4xVal rc (k % 2 == 0) (codeAt sl row k) (codeAt sl row (if k % 2 == 0 then k + 1 else k - 1))) sc)
    else match elemVal sl.elem (codeAt sl row k) with
      | .num n => some (mulNum n sc)
      | _ => none

/-- Values of a group; none when one of them is no finite value. -/
def groupVals (sl : Slot) (row recs : List Byte) (g : Nat) : Option (List Num) :=
  ((List.range 32).map fun t => exactAt sl row recs (32 * g + t)).foldr (fun v acc => match v, acc with
    | some n, some ns => some (n :: ns)
    | _, _ => none) (some [])

/-- The width of an A group (R176). -/
def groupWidth (sl : Slot) (row : List Byte) (g : Nat) : Nat :=
  if sl.elem == 5 || sl.elem == 7 then 4
  else if sl.elem == 9 || sl.elem == 10 then 16
  else if sl.elem == 8 then (if (List.range 32).any fun t => codeAt sl row (32 * g + t) == 8 then 8 else 4)
  else 8

/-- One aligned group: the integers, the exponent, and whether it held no finite value. -/
structure Aligned where
  a   : List Int
  e   : Int
  nan : Bool
  deriving DecidableEq, Repr

def alignVals (vs : Option (List Num)) (mc : Nat) : Aligned :=
  match vs with
  | none => ⟨List.replicate 32 0, 0, true⟩
  | some ns => let r := alignGroup ns mc; ⟨r.2, r.1, false⟩

/-- A's groups of one row. -/
def alignRowA (sl : Slot) (kn : Nat) (row recs : List Byte) : List Aligned :=
  (List.range (kn / 32)).map fun g => alignVals (groupVals sl row recs g) (2 ^ (groupWidth sl row g - 1) - 1)

/-- B's blocks of one column. -/
def alignColB (sl : Slot) (kn : Nat) (col recs : List Byte) : List Aligned :=
  (List.range (kn / 32)).map fun g => alignVals (groupVals sl col recs g) (if sl.pair then 32639 else 127)

/-- Pairs rows with their scale records. -/
def withRecs (rows recs : List (List Byte)) : List (List Byte × List Byte) :=
  rows.mapIdx fun i r => (r, (recs[i]?).getD [])

/-- The blocks of B, column by column. -/
def alignB (sl : Slot) (kn : Nat) (rows recs : List (List Byte)) : List Aligned :=
  ((withRecs rows recs).map fun p => alignColB sl kn p.1 p.2).flatten

def blocksOf (xs : List Aligned) : List (List Int × Int) := xs.map fun x => (x.a, x.e)

/-- A sum of products. -/
def dotInt (a b : List Int) : Int := ((a.zip b).map fun p => p.1 * p.2).sum

/-- An accumulator with its overflow mark. -/
structure Acc where
  v   : Nat
  ovf : Bool
  deriving DecidableEq, Repr

/-- RNE32(a + b), with the mark set for an infinite sum of finite values (R315, R317). -/
def addRne (a : Acc) (b : Nat) : Acc :=
  let r := (fmt32.add ctlRne a.v b).v
  ⟨r, a.ovf || (fmt32.isInf r && !fmt32.isInf a.v && !fmt32.isInf b)⟩

/-- One step of R315: acc ← RNE32(acc + Scale32(p × 2^e)). -/
def accStep (acc : Acc) (p e : Int) : Acc :=
  let x := (fmt32.roundNum ctlRne ⟨decide (p < 0), p.natAbs, e⟩).v
  addRne ⟨acc.v, acc.ovf || fmt32.isInf x⟩ x

/-- One element of the partial: groups of A's row against blocks of B's column. -/
def dotElem (row : List Aligned) (col : List (List Int × Int)) : Acc :=
  (row.zip col).foldl (fun acc p => accStep acc (dotInt p.1.a p.2.1) (p.1.e + p.2.2)) ⟨0, false⟩

/-- The partial: for each row and column its element. -/
def partialOf (rows : List (List Aligned)) (b : List (List Int × Int)) (kn n : Nat) : List Acc :=
  (rows.map fun row => (List.range n).map fun j => dotElem row ((b.drop (j * (kn / 32))).take (kn / 32))).flatten

/-! ### Engines (R307, R314) -/

/-- Whether a task occupies an engine, and whether it still computes there. -/
def engineTasks (s : State) (die core : Nat) : List Task :=
  s.mat.tasks.filter fun x => x.die == die && x.eng == core && x.st == .running

/-- An engine is idle when no task computes on it and at most one drains its partials. -/
def engineIdle (s : State) (die core : Nat) : Bool :=
  let xs := engineTasks s die core
  xs.all (·.computed) && xs.length ≤ 1

/-- The residency that holds an engine. -/
def residAt (s : State) (die core : Nat) : Option Resid :=
  s.mat.resid.find? fun r => r.die == die && r.core == core && r.live && !r.away

/-- The residency that an id names. -/
def residNamed (s : State) (die id : Nat) : Option Resid :=
  s.mat.resid.find? fun r => r.die == die && r.entry == id % 64 && r.gen == BitVec.ofNat 10 (id / 64) && r.live

def heldAt (s : State) (die core : Nat) : Option HeldB := s.mat.held.find? fun h => h.die == die && h.core == core

/-- The images of a die from one on. -/
def imagesOf (s : State) (die first m : Nat) : List (Option Image) :=
  (List.range m).map fun k => s.mat.images.find? fun x => x.die == die && x.n == first + k

/-- The images that an outstanding `wsld` writes: the first, how many, and whether they are pairs of planes. -/
def wsldRange (s : State) (o : Op) : Option (Nat × Nat × Bool) :=
  match o.kind with
  | .wsld img w sw slot =>
    let sl := Slot.ofWord slot
    (packedGeo s o.ctx sl w sw).map fun g => (img, (g.s0 + 255) / 256 * (if sl.pair then 2 else 1), sl.pair)
  | _ => none

/-- The outstanding `wsld` of a die that writes an image. -/
def unwritten (s : State) (die n : Nat) : Option (Nat × Nat × Bool) :=
  (s.ops.filter (·.die == die)).findSome? fun o => (wsldRange s o).filter fun r => r.1 ≤ n && n < r.1 + r.2.1

/-- Whether the images of a task are planes of a pair: the second is a hi plane, or will be (DEDUCED, log entry 53). -/
def imagesPair (s : State) (x : Task) : Bool :=
  match unwritten s x.die (x.f 64 13) with
  | some r => r.2.2
  | none => ((s.mat.images.find? fun y => y.die == x.die && y.n == x.f 64 13 + 1).map (·.hi)).getD false

/-- Images of a task: pair mode and how many. -/
def imageCount (s : State) (x : Task) : Bool × Nat :=
  let m := (x.kn + 255) / 256
  if imagesPair s x then (true, 2 * m) else (false, m)

/-- A `wsld` that has not completed writes an image the task reads: its cells are undefined (R321). -/
def readsUnwritten (s : State) (x : Task) : Bool :=
  x.bsrc == 2 && (List.range (imageCount s x).2).any fun k => (unwritten s x.die (x.f 64 13 + k)).isSome

/-- Whether the images of a task lie in range and have its geometry (R319); that of an image to be written is not known
(R321). -/
def imagesFit (s : State) (x : Task) (n : Nat) : Bool :=
  let (pair, m) := imageCount s x
  let first := x.f 64 13
  let inPart := ((s.part? x.part).map fun p => decide (p.imglo ≤ first) && decide (first + m ≤ p.imghi + 1)).getD false
  let ok (k : Nat) (y : Option Image) : Bool :=
    match y with
    | some y =>
      let q := if pair then k / 2 else k
      y.cols == n && y.rows == Nat.min 256 (x.kn - 256 * q) && y.hi == (pair && k % 2 == 1)
    | none => false
  inPart && decide (first + m ≤ 8192) && decide (x.kn ≤ (if pair then 1024 else 2048)) &&
    (readsUnwritten s x || ((imagesOf s x.die first m).mapIdx ok).all id)

/-- Whether the macros of an engine already hold a task's B. -/
def holdsB (s : State) (x : Task) (core : Nat) : Bool :=
  match heldAt s x.die core with
  | none => false
  | some h =>
    if x.bsrc == 2 then h.img == some (x.f 64 13, (imageCount s x).2)
    else
      h.img.isNone && h.ctx == x.ctx && h.word == x.tileB && h.slot == x.bslot && h.scale == x.scaleB &&
        (s.tiles.named x.ctx x.tileB).any fun u => u.seals == h.seals

/-- The cores of a partition on a die, ascending. -/
def Part.coresOn (p : Part) (die : Nat) : List Nat :=
  (List.range 64).filter fun k => ((p.cores[dieNo die]?).getD 0).getLsbD k

/-- The engine for a task (R314), of its context's partition (R307): none while there is no idle one. -/
def pickEngine (s : State) (x : Task) : Option Nat :=
  let cores := ((s.part? x.part).map (·.coresOn x.die)).getD []
  if x.bsrc == 1 then
    match residNamed s x.die x.bref with
    | some r => if r.ready && !r.away && cores.contains r.core && engineIdle s x.die r.core then some r.core else none
    | none => some 0
  else
    let free := cores.filter fun k => engineIdle s x.die k && (residAt s x.die k).isNone
    (free.find? fun k => holdsB s x k).orElse fun _ => free.head?

/-! ### Endings -/

/-- A task ends FAULTED with a code. -/
def failTask (s : State) (x : Task) (code : BitVec 8) : State :=
  match s.op? x.order with
  | some o => settleTasks (endCommand (endTask s o .faulted code) o)
  | none => s

/-- A task ends in a state without a code. -/
def closeTask (s : State) (x : Task) (st : TaskState) : State :=
  match s.op? x.order with
  | some o => settleTasks (endCommand (endTask s o st 0) o)
  | none => s

/-- What a dependence comes to (R313). -/
inductive Dep where
  | met | wait | fail
  deriving DecidableEq, Repr

def depOf (s : State) (x : Task) (id : Nat) : Dep :=
  if id == 0xFFFF then .met
  else match s.mat.tasks.find? fun y => y.die == x.die && y.id == id && y.order < x.order with
    | none => .met
    | some y =>
      match y.st with
      | .done => .met
      | .aborted | .faulted | .depfail => .fail
      | _ => .wait

/-- The reload of a residency after a restore (R322): a load that no instruction waits for. -/
def Op.reloads (o : Op) : Bool :=
  o.flag.isNone && !o.block && (match o.kind with
    | .mwld .. => true
    | _ => false)

/-- Whether the context of a task is being saved, has halted, or has residencies to reload: none of its tasks starts. -/
def ctxAway (s : State) (ctx : Word) : Bool :=
  s.saved.any (fun v => v.ctx == ctx && (v.halted || !v.complete)) || (s.mat.resid.any fun r => r.ctx == ctx && r.live && r.away) ||
    s.ops.any fun o => o.ctx == ctx && o.reloads

/-- Whether a tile that a task reads is OPEN by a team other than the one that enqueued it. -/
def openElsewhere (s : State) (x : Task) (who : Word × Word) : Bool :=
  x.reads.any fun w => (s.tiles.named x.ctx w).any fun u => u.st == .opened && u.holder != some who

/-- A queued task's dependences are met and its operands free (R313, R314); a task of a halted context ends DEPFAIL with the task
that it depends on (R322). -/
def readyTask (s : State) (x : Task) : State :=
  let deps := [depOf s x (x.dep 0), depOf s x (x.dep 1)]
  if x.st != .queued || (x.away && !((s.ctx? x.ctx).any (·.halted.isSome))) then s
  else if deps.contains .fail then closeTask s x .depfail
  else if deps.contains .wait || x.away || ctxAway s x.ctx then s
  else match s.op? x.order with
    | some o => if openElsewhere s x (opTeam s o).who then s else s.updTask x fun x => { x with st := .ready }
    | none => s

/-- An event of the task that an operation stands for. -/
def onTask (op : Nat) (f : State → Task → State) (s : State) : State := ((s.taskOf op).map (f s)).getD s

/-- An event of the task that an id names. -/
def onTaskId (die id : Nat) (f : State → Task → State) (s : State) : State := ((s.taskLive die id).map (f s)).getD s

/-- TASK_READY. -/
def execTaskReady (die id : Nat) (s : State) : Out := .next (onTaskId die id readyTask s)

/-- The first check of R312 that fails when a task starts. -/
def startFails (s : State) (x : Task) (who : Word × Word) : Option (BitVec 8) :=
  let n := ((s.tiles.named x.ctx x.tileC).map fun u => u.sz.headD 0).getD 0
  if x.words.any fun w => (s.tiles.named x.ctx w).isNone then some codeStale
  else if !(s.tiles.named x.ctx x.tileC).any fun u => u.st == .opened && u.holder == some who then some codePerm
  else if x.bsrc == 1 then
    match residNamed s x.die x.bref with
    | none => some codeStale
    | some r => if r.kn != x.kn || r.n != n then some codeBounds else none
  else if x.bsrc == 2 && !imagesFit s x n then some codeBounds
  else none

/-- The dead home of one of some tiles (11 R295). -/
def deadHomeOf (s : State) (ctx : Word) (words : List Word) : Option Nat :=
  (words.filterMap fun w => (s.tiles.named ctx w).bind fun u => s.bufOf u.ctx u.buf).findSome? fun b =>
    if bufDead s b then some b.home else none

/-- Whether a home of a task's tiles is dead (R323). -/
def taskDead (s : State) (x : Task) : Option Nat := deadHomeOf s x.ctx x.words

/-- A task ends FAULTED with CONTAINED and its context halts (R323). -/
def containTask (s : State) (x : Task) (detail : Word) : State :=
  match s.op? x.order with
  | some o => failTask (haltOp s o codeContained detail) x codeContained
  | none => s

/-- Takes the engine copies of the tiles that a command reads, or the state in which it waits for one of them. -/
def takeAll (s : State) (o : Op) (who : Word × Word) (ctx : Word) (words : List Word) : Except State State :=
  if words.all fun w => (s.tiles.named ctx w).isSome then engineTake s who (words.filterMap (s.tiles.named ctx)) o.id else .error s

/-! ### B in the macros -/

/-- The cells of image planes put together, column by column. -/
def imageCells (ys : List Image) (pair : Bool) (kn n : Nat) : List (List Int × Int) :=
  let cell (k j r : Nat) : Int := (((((ys[k]?).map (·.cells)).getD [])[j]?).map fun c => c.1.getD r 0).getD 0
  let expo (k j b : Nat) : Int := (((((ys[k]?).map (·.cells)).getD [])[j]?).map fun c => c.2.getD b 0).getD 0
  ((List.range n).map fun j => (List.range (kn / 32)).map fun g =>
    let p := g / 8
    let k := if pair then 2 * p else p
    ((List.range 32).map fun t =>
      let r := 32 * (g % 8) + t
      if pair then 256 * cell (k + 1) j r + cell k j r else cell k j r,
     expo k j (g % 8))).flatten

/-- The groups of a B operand, or why the engine does not go on. -/
inductive LoadA where
  | ok (b : List Aligned) (s : State)
  | stop (r : ERes)

/-- B for a task: the blocks, whether a group held no finite value, and the state; or why the engine does not go on. -/
inductive LoadB where
  | ok (b : List (List Int × Int)) (nan : Bool) (s : State)
  | stop (r : ERes)

/-- Reads and aligns B from tiles. -/
def loadA (s : State) (o : Op) (ctx w sw : Word) (sl : Slot) (kn : Nat) : LoadA :=
  match tileRows s o ctx w 0 (kn * elemBits sl.elem / 8) with
  | .stop r => .stop r
  | .ok rows s =>
    match (if sl.scaled then tileRows s o ctx sw 0 (kn / sl.block) else .ok [] s) with
    | .stop r => .stop r
    | .ok recs s => .ok (alignB sl kn rows recs) s

def loadB (s : State) (o : Op) (ctx w sw : Word) (sl : Slot) (kn : Nat) : LoadB :=
  match loadA s o ctx w sw sl kn with
  | .ok b s => .ok (blocksOf b) (b.any (·.nan)) s
  | .stop r => .stop r

def setHeld (s : State) (h : HeldB) : State :=
  s.updMat fun m => { m with held := h :: m.held.filter fun x => !(x.die == h.die && x.core == h.core) }

/-- B of a running task: from its residency, the macros, the weight store or memory. -/
def taskB (s : State) (o : Op) (x : Task) (n : Nat) : LoadB :=
  if x.bsrc == 1 then
    match residNamed s x.die x.bref with
    | some r => .ok r.cells r.nan s
    | none => .stop (.over (failTask s x codeStale))
  else match heldAt s x.die x.eng, holdsB s x x.eng with
    | some h, true => .ok h.cells h.nan s
    | _, _ =>
      if x.bsrc == 2 then
        let (pair, m) := imageCount s x
        let ys := (imagesOf s x.die (x.f 64 13) m).filterMap id
        if ys.any (·.bad) && !readsUnwritten s x then .stop (.over (containTask s x (dieDetail x.die)))
        else
          let b := imageCells ys pair x.kn n
          let nan := ys.any (·.nan)
          .ok b nan (setHeld s ⟨x.die, x.eng, 0, 0, 0, 0, some (x.f 64 13, m), x.kn, n, b, nan, x.ctx⟩)
      else
        match loadB s o x.ctx x.tileB x.scaleB x.slotB x.kn with
        | .stop r => .stop r
        | .ok b nan s =>
          let seals := ((s.tiles.named x.ctx x.tileB).map (·.seals)).getD 0
          .ok b nan (setHeld s ⟨x.die, x.eng, x.tileB, seals, x.bslot, x.scaleB, none, x.kn, n, b, nan, x.ctx⟩)

/-- The engine computes the partial of a running task, or waits for an operand (R315, R527). -/
def computeTask (s : State) (o : Op) (x : Task) : State :=
  let n := ((s.tiles.named x.ctx x.tileC).map fun u => u.sz.headD 0).getD 0
  let sl := x.slotA
  let w := elemBits sl.elem
  match taskB s o x n with
  | .stop (.ok _ s) => s
  | .stop (.wait s) => s
  | .stop (.over s) => settleTasks s
  | .ok b nanB s =>
    match tileRows s o x.ctx x.tileA (x.k0 * w / 8) (x.kn * w / 8) with
    | .stop (.ok _ s) => s
    | .stop (.wait s) => s
    | .stop (.over s) => settleTasks s
    | .ok rows s =>
      match (if sl.scaled then
          tileRows s o x.ctx x.scaleA (x.k0 / sl.block * sl.recBytes) (x.kn / sl.block * sl.recBytes) else .ok [] s) with
      | .stop (.ok _ s) => s
      | .stop (.wait s) => s
      | .stop (.over s) => settleTasks s
      | .ok recs s =>
        let ra := (withRecs rows recs).map fun p => alignRowA sl x.kn p.1 p.2
        let p := partialOf ra b x.kn n
        let free := readsUnwritten s x
        s.updTask x fun x => { x with
          computed := true, nangrp := nanB || ra.any fun r => r.any (·.nan), ovf := p.any (·.ovf)
          merges := p.mapIdx fun k a => (k, if free then Config.freeWord s.ticks k else BitVec.ofNat 32 a.v) }

/-- The code of a task that ends for parity, which the spec does not give (DESIGN CHOICE, log entry 52). -/
def parityCode (s : State) : BitVec 8 := Config.freeByte s.ticks 300

/-- The engine of a task goes on: a parity error ends it without merging (R317). -/
def runTask (s : State) (o : Op) (x : Task) : State :=
  if x.parity then failTask s x (parityCode s) else computeTask s o x

/-- Starts a task on an engine. -/
def startTask (s : State) (o : Op) (x : Task) (core : Nat) : State :=
  let who := (opTeam s o).who
  let s' := s.updTask x fun x => { x with st := .running, eng := core, start := s.clk }
  match taskDead s x, startFails s x who with
  | some home, _ => containTask s' x (dieDetail home)
  | none, some code => failTask s' x code
  | none, none =>
    match takeAll s o who x.ctx x.reads with
    | .error s => s
    | .ok s =>
      let held := x.bsrc == 1 || holdsB s x core
      let bad := x.bsrc == 1 && ((residNamed s x.die x.bref).map (·.bad)).getD false
      let f (x : Task) : Task := { x with st := .running, eng := core, start := s.clk, bheld := held, parity := bad }
      runTask (s.updTask x f) o (f x)

/-- The READY tasks of a die in enqueue order. -/
def readyTasks (s : State) (die : Nat) : List Task :=
  inQueueOrder (s.mat.tasks.filter fun x => x.die == die && x.st == .ready && !ctxAway s x.ctx)

/-- The oldest READY task that has an engine starts there (R314); a running task whose operand was not there goes on. -/
def dispatchTask (s : State) (x : Task) : State :=
  match s.op? x.order with
  | none => s
  | some o =>
    if x.st == .running then if x.computed || s.opHeld o.id then s else runTask s o x
    else match (readyTasks s x.die).find? fun y => (pickEngine s y).isSome with
      | some y =>
        if y.order != x.order then s
        else match pickEngine s x with
          | some core => startTask s o x core
          | none => s
      | none => s

/-- TASK_DISPATCH. -/
def execTaskDispatch (die id : Nat) (s : State) : Out := .next (onTaskId die id dispatchTask s)

/-! ### Merges (R316) -/

/-- Whether a byte of C is storage in use by a command other than a merging task. -/
def mergeClash (s : State) (o : Op) (u : InUse) (a : Nat) : Bool :=
  u.op != o.id && !u.own && (s.useAt u).has none a && !(u.dst && (s.op? u.op).any fun p => match p.kind with
    | .task .. => true
    | _ => false)

/-- Marks commands, other than merging tasks, whose storage a merge touches. -/
def spoilMerge (s : State) (o : Op) (as : List Nat) : State :=
  { s with uses := s.uses.map fun u => if as.any (mergeClash s o u ·) then { u with spoiled := true } else u }

/-- The merge of one element at its home slice. -/
def mergeElem (s : State) (o : Op) (x : Task) (u : Tile) (k : Nat) (p : Word) : ERes :=
  let (base, off, str) := tilePlace s u
  let n := Nat.max 1 (u.sz.headD 1)
  let at_ := off + (k % n : Nat) * (str.getD 0 0) + (k / n : Nat) * (str.getD 1 0)
  let q := engReq s o 0xFFF (tileEntry base) true 4
  match enginePart s o q at_ 4 with
  | .res r => r
  | .at_ pa s =>
    if !x.zf && s.poisoned pa 4 then .over (containTask s x (agentDetail s pa))
    else
      let as := (List.range 4).map (pa + ·)
      let old := leNat (as.map fun a => s.mem.read a)
      let r := if x.zf then (⟨p.toNat, x.ovf⟩ : Acc) else addRne ⟨old, x.ovf⟩ p.toNat
      let cs := (cellsAt pa (leBytes 4 r.v)).map fun c =>
        if s.uses.any fun u => mergeClash s o u c.1 then (c.1, Config.freeByte s.ticks c.1) else c
      .ok [] (((spoilMerge s o as).writeMem cs).updTask x fun x => { x with ovf := r.ovf })

/-- Merges elements in turn; those merged leave the list. -/
def mergeAll (o : Op) (u : Tile) : State → List (Nat × Word) → State
  | s, [] => s
  | s, (k, p) :: rest =>
    match s.taskOf o.id with
    | none => s
    | some x =>
      match mergeElem s o x u k p with
      | .ok _ s => mergeAll o u (s.updTask x fun x => { x with merges := x.merges.filter (·.1 != k) }) rest
      | .wait s => s
      | .over s => settleTasks s

/-- A task's partial line `line`, counted row by row, arrives at its home slice. -/
def mergeLine (line : Nat) (s : State) (x : Task) : State :=
  match s.op? x.order, s.tiles.named x.ctx x.tileC with
  | some o, some u =>
    if x.st != .running || !x.computed || s.opHeld o.id then s
    else
      let n := Nat.max 1 (u.sz.headD 1)
      let per := (n + 31) / 32
      mergeAll o u s (x.merges.filter fun m => m.1 / n == line / per && m.1 % n / 32 == line % per)
  | some _, none => if x.st == .running then failTask s x codeStale else s
  | none, _ => s

/-- PARTIAL_MERGE. -/
def execPartialMerge (die id line : Nat) (s : State) : Out := .next (onTaskId die id (mergeLine line) s)

/-! ### Pinned lines -/

/-- Pins lines in their slices, at most four in any set; a line that is not there is brought in. -/
def pinLines (s : State) : List Nat → State
  | [] => s
  | l :: rest =>
    let s := match homeOf s (l * 128) with
      | .hbm d =>
        if 4 ≤ (s.caches.l2.filter fun x => x.near d l && x.pinned && x.line < 2 ^ 60).length then s
        else ((l2Pin s d l).map s.setL2).getD s
      | _ => s
    pinLines s rest

def unpinLines (s : State) (ls : List Nat) : State :=
  { s with caches := { s.caches with l2 := s.caches.l2.map fun x => if ls.contains x.line then { x with pinned := false } else x } }

/-- A task completes (R317): every merge is performed; LP unpins C, the counter counts, the state becomes DONE, the flag
falls. -/
def completeTask (s : State) (x : Task) : State :=
  match s.op? x.order with
  | none => s
  | some o =>
    if x.st != .running || !x.computed || !x.merges.isEmpty || s.opHeld o.id then s
    else
      let s := match x.lp, s.tiles.named x.ctx x.tileC with
        | true, some u => unpinLines s (tileLines s (s.ctxOf (opTeam s o)) u)
        | _, _ => s
      let s := spoilResult s o
      let done (s : State) : State := closeTask s x .done
      if !x.cnt then done s
      else match countUp s o x.chidx ⟨x.cntE⟩ x.coff with
        | .ok _ s => done s
        | .wait s => s
        | .over s => settleTasks s

/-- TASK_COMPLETE. -/
def execTaskComplete (die id : Nat) (s : State) : Out := .next (onTaskId die id completeTask s)

/-! ### mwld, mwrel (R327, R328) -/

/-- The row of R312 on KN, for the k string of a tile of the right shape. -/
def knBad (s : State) (ctx : Word) (sl : Slot) (w : Word) : Bool :=
  ((geoOf s ctx w 0 1).bind fun g => kOf sl g.s0).any fun k =>
    k == 0 || k % 32 != 0 || k % sl.block != 0 || (if sl.pair then 1024 else 2048) < k

/-- The checks of R312 on B tiles in their order, as `mwld` and `wsld` make them, then the rule on the scale word. -/
def bChecks (s : State) (t : Team) (i : Instr) (slot : BitVec 3) (x sx : Src) (go : Slot → Word → Word → Nat → Nat → Out) : Out :=
  let sl := s.slot t slot.toNat
  let w := val32 s t true 0 x
  let sw := if sx == .none then 0 else val32 s t true 0 sx
  let fault (f : FaultInfo) : Out := .next (takeFault s t i f)
  let scaled := sl.scaled && sx != .none
  if sl.elem == 0 || sl.elem == 8 || knBad s t.ctx sl w then fault illop
  else if (s.tiles.named t.ctx w).isNone || (scaled && (s.tiles.named t.ctx sw).isNone) then
    fault (t.uniFault codeStale 0xFFF)
  else match packedGeo s t.ctx sl w sw scaled with
    | none => fault (t.uniFault codeBounds 0xFFF)
    | some g => if (sx == .none) == sl.scaled then fault illop else go sl w sw g.s0 g.s1

/-- Free residency entries of a die keep their generation. -/
def residGen (s : State) (die entry : Nat) : BitVec 10 :=
  ((s.mat.resid.find? fun r => r.die == die && r.entry == entry).map (·.gen)).getD 0

def putResid (s : State) (r : Resid) : State :=
  s.updMat fun m => { m with resid := r :: m.resid.filter fun x => !(x.die == r.die && x.entry == r.entry) }

/-- R327. -/
def execMwld (fs : Bool) (slot : BitVec 3) (d : Dst) (x sx : Src) (s : State) : Out :=
  let i := Instr.mwld fs slot d x sx
  longOp s fs fun t =>
    bChecks s t i slot x sx fun _ w sw kn n =>
      let die := t.place.die
      let used := (s.mat.resid.filter fun r => r.die == die && r.live).map (·.entry)
      match (residAt s die t.place.core).isSome, pickFree used 64 (Config.freeNat s.ticks 400) with
      | false, some e =>
        let r : Resid :=
          { die, entry := e, gen := residGen s die e, live := true, uid := t.uid, ctx := t.ctx, core := t.place.core, word := w,
            scale := sw, slot := s.slotWord t slot.toNat, kn, n, cells := [], nan := false, bad := false, ready := false,
            away := false, releasing := false }
        .next (useTiles (issueOp (putResid s r) t.spent i fs (.mwld e d w)) s.nextOp ([w] ++ if sx == .none then [] else [sw]) [])
      | _, _ => finish s t.spent i (.ok (t.spent.writeUni d [0xFFFF]))

def Resid.id (r : Resid) : Word := BitVec.ofNat 32 (r.gen.toNat * 64 + r.entry)

/-- An entry is free again. -/
def freeResid (s : State) (r : Resid) : State := putResid s { r with live := false, gen := r.gen + 1, ready := false, cells := [] }

/-- Loads B for a residency with an operation's copies of its tiles. -/
def loadResid (s : State) (o : Op) (r : Resid) : LoadB :=
  let sl := Slot.ofWord r.slot
  let words := [r.word] ++ (if sl.scaled then [r.scale] else [])
  if words.any fun w => (s.tiles.named r.ctx w).isNone then
    .stop (.over (overOp s o { code := codeStale, detail := 0xFFF }))
  else
    let took := s.tiles.tiles.any fun u => u.engines.contains o.id
    match deadHomeOf s r.ctx words, (if took then .ok s else takeAll s o (opTeam s o).who r.ctx words) with
    | some home, _ => .stop (.over (opError s o (dieDetail home)))
    | none, .error s => .stop (.wait s)
    | none, .ok s => loadB s o r.ctx r.word r.scale sl r.kn

/-- MWLD_COMPLETE: once its engine is idle, B is aligned into the macros and the residency is held. -/
def execMwldComplete (op : Nat) (s : State) : Out :=
  match s.op? op with
  | some o =>
    match o.kind with
    | .mwld e d _ =>
      match s.mat.resid.find? fun r => r.die == o.die && r.entry == e && r.live with
      | none => .next (endCommand s o)
      | some r =>
        if !engineIdle s o.die r.core || s.opHeld op then .next s
        else match loadResid s o r with
          | .ok b nan s =>
            let seals := ((s.tiles.named r.ctx r.word).map (·.seals)).getD 0
            let s := putResid s { r with cells := b, nan, ready := true }
            let s := setHeld s ⟨r.die, r.core, r.word, seals, r.slot, r.scale, none, r.kn, r.n, b, nan, r.ctx⟩
            .next (endCommand (s.updTeam o.uid fun t => t.writeUni d [r.id]) o)
          | .stop (.over s) => .next (freeResid s r)
          | .stop (.wait s) => .next s
          | .stop (.ok _ s) => .next s
    | _ => .next s
  | none => .next s

/-- Whether the `mwld` of a residency is outstanding: its team does not hold it yet. -/
def firstLoad (s : State) (r : Resid) : Bool :=
  s.ops.any fun o => o.die == r.die && !o.reloads && (match o.kind with
    | .mwld e _ _ => e == r.entry
    | _ => false)

/-- R328: an id that the team does not hold is ignored. -/
def execMwrel (x : Src) (s : State) : Out :=
  let i := Instr.mwrel x
  onTeam s fun t =>
    let id := (val32 s t true 0 x).toNat % 2 ^ 16
    let s := match residNamed s t.place.die id with
      | some r => if r.uid == t.uid && !firstLoad s r then putResid s { r with releasing := true } else s
      | none => s
    finish s t i (.ok t)

/-- Whether a task that has not ended names a residency. -/
def residUsed (s : State) (r : Resid) : Bool :=
  s.mat.tasks.any fun x => x.die == r.die && !x.freed && x.bsrc == 1 && BitVec.ofNat 32 (x.bref % 2 ^ 16) == r.id

/-- RESIDENCY_RELEASE: no task names it any more (R328). -/
def execResidencyRelease (die entry : Nat) (s : State) : Out :=
  match s.mat.resid.find? fun r => r.die == die && r.entry == entry && r.live && r.releasing with
  | some r =>
    let loading := s.ops.any fun o => o.die == die && (match o.kind with
      | .mwld e _ _ => e == entry
      | _ => false)
    if residUsed s r || loading then .next s else .next (freeResid s r)
  | none => .next s

/-! ### macz, macrd (R329, R330) -/

/-- A C operand (R310). -/
def isC (s : State) (u : Tile) : Bool := (geoOf s u.ctx u.word 2 4).isSome

/-- R329. -/
def execMacz (fs : Bool) (x : Src) (s : State) : Out :=
  let i := Instr.macz fs x
  longOp s fs fun t =>
    let w := val32 s t true 0 x
    withTile s t i w fun u =>
      if !isC s u then .next (takeFault s t i (t.uniFault codeBounds 0xFFF))
      else if !(u.st == .opened && u.holder == some t.who) then .next (takeFault s t i (t.uniFault codePerm 0xFFF))
      else
        let id := s.nextOp
        let s := issueOp s t.spent i fs (.macz w)
        let (base, off, str) := tilePlace s u
        match s.op? id with
        | some o => .next (useExtent s o true (tileEntry base) (extentOf off 4 u.sz str))
        | none => .next s

/-- Writes rows of zeros. -/
def zeroRows (o : Op) (base : DWord) (n : Nat) : State → List Int → ERes
  | s, [] => .ok [] s
  | s, off :: rest =>
    match entryPut s o 0xFFF (tileEntry base) off (List.replicate n 0) with
    | .ok _ s => zeroRows o base n s rest
    | r => r

/-- MACZ_COMPLETE: every element is +0.0 at its home slice and the box's lines are pinned. -/
def execMaczComplete (op : Nat) (s : State) : Out :=
  match s.op? op with
  | some o =>
    match o.kind with
    | .macz w =>
      if s.opHeld op then .next s
      else match s.tiles.named o.ctx w with
        | none => .next (faultOp s o { code := codeStale, detail := 0xFFF })
        | some u =>
          let (base, off, str) := tilePlace s u
          let rows := (List.range (u.sz.getD 1 1)).map fun (r : Nat) => off + (r : Int) * str.getD 1 0
          match zeroRows o base (4 * u.sz.headD 0) s rows with
          | .ok _ s =>
            let s := spoilResult s o
            .next (endCommand (pinLines s (tileLines s (s.ctxOf (opTeam s o)) u)) o)
          | .wait s => .next s
          | .over s => .next s
    | _ => .next s
  | none => .next s

/-- The lanes whose elements a `macrd` reads: the eligible ones, or with a format every lane of their blocks. -/
def macrdLanes (t : Team) (sl : Option Slot) (m : Mask) : List Nat :=
  match sl with
  | none => m.lanes t.nlanes
  | some sl => (List.range t.nlanes).filter fun L => (blockLanes sl L).any (m.has ·)

/-- The element of a lane from what was read; +0.0 beyond N. -/
def elemOf (data : List (Nat × List Byte)) (L : Nat) : Nat := leNat (((data.find? (·.1 == L)).map (·.2)).getD [])

/-- The words and flags of a lane of a formatted `macrd`. -/
def macrdLane (t : Team) (sl : Slot) (v : Nat → FVal) (L : Nat) : LaneRes :=
  let (rc, f0) := blockRecord sl ((blockLanes sl L).map v)
  let draw := (t.lane L).draw 0
  let (code, f1) := if sl.elem == 8 then quantI4x sl draw rc (L % 2 == 0) (v L) (v (partner L)) else quantOne sl draw rc (v L)
  ⟨[BitVec.ofNat 32 code, BitVec.ofNat 32 rc], f0 ||| f1⟩

/-- R330. -/
def execMacrd (g : Guard) (fs raw : Bool) (slot : BitVec 3) (d : Dst) (x row col : Src) (s : State) : Out :=
  let i := Instr.macrd g fs raw slot d x row col
  longOp s fs fun t =>
    let m := t.eligible g
    let sl := s.slot t slot.toNat
    if !allocOk t d [] || (!raw && sl.elem == 0) then .next (takeFault s t i illop)
    else withTile s t i (val32 s t true 0 x) fun u =>
      let r := (val32 s t true 0 row).toNat
      let c := (val32 s t true 0 col).toNat
      let n := u.sz.headD 0
      if !isC s u then .next (takeFault s t i (t.uniFault codeBounds 0xFFF))
      else if u.st == .idle || (u.st == .opened && u.holder != some t.who) then
        .next (takeFault s t i (t.uniFault codePerm 0xFFF))
      else if u.sz.getD 1 0 ≤ r then .next (takeFault s t i (t.uniFault codeBounds 0xFFF))
      else
        let (base, off, str) := tilePlace s u
        let at_ (L : Nat) : Int := off + ((c + L : Nat) : Int) * str.getD 0 0 + (r : Int) * str.getD 1 0
        let ls := (macrdLanes t (if raw then none else some sl) m).filter fun L => c + L < n
        let q : Req :=
          { t, c := s.ctxOf t, ix := 0xFFF, e := tileEntry base, uni := false, use := .ld, acc := .read, size := 4, align := 1,
            lanes := ls.map fun L => (L, at_ L), opc := instrOpc i, tile := u.st == .sealed }
        let r := gatherAll q (fun _ => []) (fun _ _ => false) { s } q.lanes
        if s.heldBack t.uid r then waitHere s t .stall
        else match r with
        | .gone s => .next (s.unpin t.uid)
        | .fault f g => .next (takeFault (g.s.unpin t.uid) t i f)
        | .got g =>
          let s := g.s.unpin t.uid
          if !g.left.isEmpty then .next (parkAccess s t i (some fs) false g)
          else
            let cf := fctl t.ctl.mode 0
            let v (L : Nat) : FVal := if L < t.nlanes then fmt32.val (fmt32.daz cf (elemOf g.data L)) else .num ⟨false, 0, 0⟩
            let res (L : Nat) : LaneRes :=
              if raw then ⟨[BitVec.ofNat 32 (elemOf g.data L)], 0⟩ else macrdLane t sl v L
            let es := m.lanes t.nlanes
            let t' := if !raw && sl.eround == 2 then t.stepRng m 1 else t
            match endFlags t false es (fun L => (res L).f) t' with
            | .error f => .next (takeFault s t i f)
            | .ok t' =>
              let k := OpKind.load ⟨d, es.map fun L => (L, (res L).ws)⟩ g.remote
              let s' := if g.remote then issueRemote s t' i fs k else issueOp s t' i fs k
              .next (q.toL2 s' s.nextOp g)

/-! ### The weight store (R319 to R321, R331, R332) -/

/-- The images that a B makes: for each macro, or pair of planes, its columns. -/
def makeImages (die first kn n : Nat) (pair : Bool) (b : List Aligned) : List Image :=
  let blk (j g : Nat) : Aligned := (b[j * (kn / 32) + g]?).getD ⟨[], 0, false⟩
  let plane (hi : Bool) (v : Int) : Int :=
    let lo := (v + 128) % 256 - 128
    if !pair then v else if hi then (v - lo) / 256 else lo
  let one (n0 p : Nat) (hi : Bool) : Image :=
    let rows := Nat.min 256 (kn - 256 * p)
    let col (j : Nat) : List Int × List Int :=
      (((List.range (rows / 32)).map fun k => ((blk j (8 * p + k)).a).map (plane hi)).flatten,
       (List.range (rows / 32)).map fun k => (blk j (8 * p + k)).e)
    let nan := (List.range n).any fun j => (List.range (rows / 32)).any fun k => (blk j (8 * p + k)).nan
    { die, n := n0, cols := n, rows, hi, cells := (List.range n).map col, bad := false, nan }
  ((List.range ((kn + 255) / 256)).map fun p =>
    if pair then [one (first + 2 * p) p false, one (first + 2 * p + 1) p true] else [one (first + p) p false]).flatten

/-- R331. -/
def execWsld (fs : Bool) (slot : BitVec 3) (img : BitVec 13) (x sx : Src) (s : State) : Out :=
  let i := Instr.wsld fs slot img x sx
  longOp s fs fun t =>
    if !((s.grid? t.grid).map (·.lr.wphase)).getD false then .next (takeFault s t i (t.uniFault codeWeight))
    else bChecks s t i slot x sx fun sl w sw kn _ =>
      let m := (kn + 255) / 256 * (if sl.pair then 2 else 1)
      let inPart := ((s.partOf t).map fun p => decide (p.imglo ≤ img.toNat) && decide (img.toNat + m ≤ p.imghi + 1)).getD false
      if !inPart || 8192 < img.toNat + m then .next (takeFault s t i (t.uniFault codeBounds 0xFFF))
      else
        .next (useTiles (issueOp s t.spent i fs (.wsld img.toNat w sw (s.slotWord t slot.toNat))) s.nextOp
          ([w] ++ if sx == .none then [] else [sw]) [])

/-- WSLD_COMPLETE: the images are written; no engine of the die holds a B any more (R314). -/
def execWsldComplete (op : Nat) (s : State) : Out :=
  match s.op? op with
  | some o =>
    match o.kind with
    | .wsld img w sw slot =>
      let sl := Slot.ofWord slot
      match s.opHeld op, packedGeo s o.ctx sl w sw with
      | true, _ => .next s
      | false, none => .next (faultOp s o { code := codeStale, detail := 0xFFF })
      | false, some g =>
        let words := [w] ++ (if sl.scaled then [sw] else [])
        let took := s.tiles.tiles.any fun u => u.engines.contains op
        match deadHomeOf s o.ctx words, (if took then .ok s else takeAll s o (opTeam s o).who o.ctx words) with
        | some home, _ => .next (opError s o (dieDetail home))
        | none, .error s => .next s
        | none, .ok s =>
          match loadA s o o.ctx w sw sl g.s0 with
          | .stop (.over s) => .next s
          | .stop (.wait s) => .next s
          | .stop (.ok _ s) => .next s
          | .ok b s =>
            let new := makeImages o.die img g.s0 g.s1 sl.pair b
            let s := s.updMat fun k => { k with
              images := new ++ k.images.filter fun y => !new.any fun z => z.die == y.die && z.n == y.n
              held := k.held.filter (·.die != o.die) }
            .next (endCommand s o)
    | _ => .next s
  | none => .next s

/-- R332: an entry of the calendar. -/
def execWsinfoCal (d : Dst) (e : Src) (s : State) : Out :=
  let i := Instr.wsinfoCal d e
  onTeam s fun t =>
    let n := (val32 s t true 0 e).toNat
    if 15 < n then .next (takeFault s t i illop)
    else
      let c := (s.mat.cal[n]?).getD ⟨0, 0, 0⟩
      finish s t i (.ok (t.writeUni d [BitVec.ofNat 32 c.start, BitVec.ofNat 32 (c.len % 2 ^ 13 + c.group % 16 * 2 ^ 16)]))

/-- R332: the cycle within the period. -/
def execWsinfoNow (d : Dst) (s : State) : Out :=
  onTeam s fun t =>
    finish s t (.wsinfoNow d) (.ok (t.writeUni d [BitVec.ofNat 32 ((s.clock t.place.die).toNat % 2 ^ 20)]))

/-- REFRESH_WINDOW_END: stalled reads go on; the stall changes no value (R320). -/
def execRefreshWindowEnd (_die : Nat) (s : State) : Out := .next s

/-! ### Errors (R323) -/

/-- CIM_PARITY_ERROR: the B in an engine's macros is bad, and so is the residency there; tasks that use it are marked. -/
def execCimParityError (die core : Nat) (s : State) : Out :=
  .next (s.updMat fun m => { m with
    held := m.held.filter fun h => !(h.die == die && h.core == core)
    resid := m.resid.map fun r => if r.die == die && r.core == core && r.live && !r.away then { r with bad := true } else r
    tasks := m.tasks.map fun x =>
      if x.die == die && x.eng == core && x.st == .running && !x.computed then { x with parity := true } else x })

/-- WEIGHT_STORE_UNCORRECTABLE_ERROR: the image is bad, and a task that reads it ends with CONTAINED. -/
def execWeightStoreUncorrectableError (die image : Nat) (s : State) : Out :=
  let s := s.updMat fun m => { m with
    images := m.images.map fun y => if y.die == die && y.n == image then { y with bad := true } else y }
  let hit (x : Task) : Bool :=
    x.die == die && x.st == .running && !x.computed && x.bsrc == 2 && decide (x.f 64 13 ≤ image) &&
      decide (image < x.f 64 13 + (imageCount s x).2)
  .next ((s.mat.tasks.filter hit).foldl (fun s x => containTask s x (dieDetail die)) s)

end Sys2Proof.Machine
end

