-- ==== Sys2Proof/Machine/Coherence.lean ====
section
/-! DEFINITION. Line coherence between dies (11 R292 to R294, 20 R517): the home directory, the holders, grant sequences
and held probes; agents that miss their deadline (11 R295, R296). Data moves with memory itself; messages move states. -/

namespace Sys2Proof.Machine

/-! ### Grant sequences (R294) -/

/-- Whether a probe came before the grant whose sequence it carries. -/
def probeEarly (s : State) (m : LineMsg) : Bool :=
  let d := m.seq - (s.seqOf m.home m.peer).recvd
  1 ≤ d.toNat && d.toNat ≤ 8

/-- A probe acts on its target, or is held there until the grant arrives. -/
def onProbe (s : State) (i : Instr) (m : LineMsg) (act : State → State) : Out :=
  if probeEarly s m then .next (s.updCoh fun c => { c with hold := c.hold ++ [i] }) else .next (act s)

/-- A grant or a data reply arrives: its sequence is received and acknowledged, and held probes are tried again. -/
def receiveGrant (s : State) (m : LineMsg) : State :=
  let s := s.updSeq m.home m.peer fun x => if (m.seq - x.recvd).toNat ≤ 8 then { x with recvd := m.seq } else x
  let s := s.send (.grantAck m)
  s.updCoh fun c => { c with net := c.hold ++ c.net, hold := [] }

/-! ### The directory (R292) -/

/-- The state of an entry whose owner or sharers have left. -/
def LineDir.settle (d : LineDir) : LineDir :=
  match d.owner with
  | some _ => if !d.sharers.isEmpty then { d with st := .o } else if d.st == .o then { d with st := .m } else d
  | none => { d with st := if d.sharers.isEmpty then .i else .s }

/-- A holder has acknowledged and no longer holds the line. -/
def LineDir.without (d : LineDir) (who : Requester) : LineDir :=
  { d with
    owner := if d.owner == some who then none else d.owner
    sharers := d.sharers.filter (· != who)
    await := d.await.filter (· != who) }.settle

/-- Whether a home's directory has an entry for a requester's lines: it tracks agents off its die (R292). -/
def tracked (home : Nat) : Requester → Bool
  | .core .. => false
  | .slice d _ => d != home
  | _ => true

/-- Entries of a die's line directory (01 R9). -/
def dirSize : Nat := 2 ^ 21

/-- Whether a request has no place in its home's directory: the line has no entry, and every entry is taken. -/
def dirFull (s : State) (m : LineMsg) : Bool :=
  tracked m.home m.peer && !s.coh.dir.any (fun d => d.home == m.home && d.line == m.line) &&
    dirSize ≤ (s.coh.dir.filter (·.home == m.home)).length

/-- The home evicts an entry: BackInv goes to every holder, and the entry is freed with the last acknowledgement. Which entry
goes is open (DESIGN CHOICE, log entry 44). -/
def evictDir (s : State) (home : Nat) : State :=
  let ds := s.coh.dir.filter fun d => d.home == home && d.await.isEmpty
  match ds[Config.freeNat s.ticks 500 % (ds.length + 1)]?.orElse fun _ => ds.head? with
  | some d => probeHolders s d (d.owner.toList ++ d.sharers) []
  | none => s

/-- A data reply of the home. -/
def replyData (s : State) (m : LineMsg) (excl : Bool) : State :=
  let s := s.countGrant m.home m.peer
  s.send (.dataRsp { m with seq := (s.seqOf m.home m.peer).sent, excl })

/-- A forward probe to the owner, with the reply sequence of the requester (20 R517). -/
def forward (s : State) (m : LineMsg) (o : Requester) (excl : Bool) : State :=
  let s := s.countGrant m.home m.peer
  let p := { probeOf m s o with rseq := (s.seqOf m.home m.peer).sent, dest := m.peer, dirty := excl && m.dirty }
  s.send (if excl then .forwardExclusive p else .forwardShared p)

/-- READ_SHARED at the home: a line of a SEALED tile is read as a copy (R291). -/
def execReadShared (m : LineMsg) (s : State) : Out :=
  let d := s.lineDir m.home m.line
  if !d.await.isEmpty || !s.mayGrant m.home m.peer then again s (.readShared m)
  else if dirFull s m then again (evictDir s m.home) (.readShared m)
  else match d.owner with
    | some o =>
      if o == m.peer then .next s
      else .next (forward (s.setLineDir { d with await := [o] }) m o false)
    | none =>
      if !tracked m.home m.peer then .next (replyData s m false)
      else if d.sharers.isEmpty && !s.sealedLine m.line then .next (replyData (s.setLineDir { d with st := .e, owner := some m.peer }) m true)
      else
        let sh := if d.sharers.contains m.peer then d.sharers else d.sharers ++ [m.peer]
        .next (replyData (s.setLineDir { d with st := .s, sharers := sh }) m false)

/-- An owner is entered: the home's own copies of the line go (08 R205). -/
def State.grantOwner (s : State) (d : LineDir) : State :=
  let s := s.setLineDir d
  if d.owner.isSome then s.dropCopies [d.home] d.line else s

/-- READ_EXCLUSIVE at the home: after the sharers' acknowledgements it is taken up again. -/
def execReadExclusive (m : LineMsg) (s : State) : Out :=
  let d := s.lineDir m.home m.line
  let others := d.sharers.filter (· != m.peer)
  if !d.await.isEmpty || !s.mayGrant m.home m.peer then again s (.readExclusive m)
  else if dirFull s m then again (evictDir s m.home) (.readExclusive m)
  else match d.owner with
    | some o =>
      if o == m.peer then .next s
      else
        let s := forward s m o true
        .next (probeHolders s { d with await := [o] } [] others)
    | none =>
      if !others.isEmpty then again (probeHolders s d [] others) (.readExclusive m)
      else
        let own := if tracked m.home m.peer then some m.peer else none
        .next (replyData (s.grantOwner { d with st := if own.isSome then .e else .i, owner := own, sharers := [] }) m true)

/-- UPGRADE at the home: the other holders are invalidated, then the grant is sent. A requester that no longer holds the
line reads it exclusively. -/
def execUpgrade (m : LineMsg) (s : State) : Out :=
  let d := s.lineDir m.home m.line
  let others := (d.sharers ++ d.owner.toList).filter (· != m.peer)
  if !d.await.isEmpty || !s.mayGrant m.home m.peer then again s (.upgrade m)
  else if !(d.sharers.contains m.peer || d.owner == some m.peer) then execReadExclusive m s
  else if others.isEmpty then
    let s := (s.grantOwner { d with st := .e, owner := some m.peer, sharers := [] }).countGrant m.home m.peer
    .next (s.send (.grant { m with seq := (s.seqOf m.home m.peer).sent, excl := true }))
  else again (probeHolders s d [] others) (.upgrade m)

/-- WRITE_BACK at the home: memory holds the line's data; the owner leaves and sharers keep S. -/
def execWriteBack (m : LineMsg) (s : State) : Out :=
  let d := s.lineDir m.home m.line
  if d.owner == some m.peer then .next (s.setLineDir { d with owner := none }.settle) else .next s

/-! ### At a requester -/

/-- The line has come to a requester: it holds it, in E when it was read for it alone, in M when dirty data or a waiting store comes
with it (DEDUCED, log entry 123), and its dies are in the presence masks of the line's tiles (R291). A core of the home's die is
not tracked. -/
def takeLine (s : State) (m : LineMsg) : State :=
  let st : LineState := if !m.excl then .s else if m.dirty then .m else .e
  receiveGrant (if tracked m.home m.peer then (s.setHeldLine m.peer m.line st).enterPresence (reqDies m.peer) m.line else s) m

/-- DATA. -/
def execDataRsp (m : LineMsg) (s : State) : Out := .next (takeLine s m)

/-- FORWARDED_DATA: the owner's reply, under the reply sequence (R517). -/
def execForwardedData (m : LineMsg) (s : State) : Out := .next (takeLine s m)

/-- GRANT: of an upgrade to a caching slice; of a tile's home to a core, where the team that waits for it goes on (R287,
R301). -/
def execGrant (m : LineMsg) (s : State) : Out :=
  match m.peer with
  | .core .. =>
    .next ((receiveGrant s m).updTeam m.line fun t =>
      if m.excl && t.waitsTile then { t with status := .running, mark := some 1 } else t)
  | _ => .next (takeLine s m)

/-- INV. -/
def execInv (m : LineMsg) (s : State) : Out :=
  onProbe s (.inv m) m fun s => (s.giveUp m.peer m.line).send (.invAck m)

/-- The owner sends the line to the requester, whose store may wait for it, and acknowledges. -/
def forwardLine (s : State) (m : LineMsg) (excl dirty : Bool) : State :=
  (s.send (.forwardedData { m with peer := m.dest, seq := m.rseq, excl, dirty := dirty || m.dirty })).send (.forwardAck { m with excl, dirty })

/-- FORWARD_SHARED: a dirty owner keeps the line in O, a clean one in S. -/
def execForwardShared (m : LineMsg) (s : State) : Out :=
  onProbe s (.forwardShared m) m fun s =>
    let dirty := (s.heldLine m.peer m.line).dirty
    forwardLine (s.setHeldLine m.peer m.line (if dirty then .o else .s)) m false dirty

/-- FORWARD_EXCLUSIVE. -/
def execForwardExclusive (m : LineMsg) (s : State) : Out :=
  onProbe s (.forwardExclusive m) m fun s =>
    let dirty := (s.heldLine m.peer m.line).dirty
    forwardLine (s.giveUp m.peer m.line) m true dirty

/-- Whether a tile grant of a home is on its way to a core of a holder's dies: a recall does not overtake it (R294; DEDUCED, log
entry 124). -/
def tileGrantOut (s : State) (m : LineMsg) : Bool :=
  s.coh.net.any fun i => match i with
    | .grant g => (match g.peer with
      | .core d _ => g.home == m.home && (reqDies m.peer).contains d
      | _ => false)
    | _ => false

/-- BACKINV: an owner's dirty data goes to memory before the acknowledgement. -/
def execBackInv (m : LineMsg) (s : State) : Out :=
  if tileGrantOut s m then .next (s.updCoh fun c => { c with hold := c.hold ++ [.backInv m] })
  else onProbe s (.backInv m) m fun s =>
    let s := if (s.heldLine m.peer m.line).dirty then s.send (.writeBack { m with dirty := true }) else s
    (s.giveUp m.peer m.line).send (.backInvAck m)

/-! ### Acknowledgements at the home -/

/-- A holder's acknowledgement that it has given the line up; a tile whose last one it is may leave the directory (R286). -/
def holderGone (m : LineMsg) (s : State) : State := (s.setLineDir ((s.lineDir m.home m.line).without m.peer)).settleTiles

def execInvAck (m : LineMsg) (s : State) : Out := .next (holderGone m s)

/-- BACKINV_ACK. -/
def execBackInvAck (m : LineMsg) (s : State) : Out := .next (holderGone m s)

/-- FORWARD_ACK that the home awaits: the requester is entered; after an exclusive forward it is the owner. -/
def execForwardAck (m : LineMsg) (s : State) : Out :=
  let d := s.lineDir m.home m.line
  let aw := d.await.filter (· != m.peer)
  let add (ws : List Requester) (w : Requester) : List Requester := if ws.contains w || !tracked m.home w then ws else ws ++ [w]
  if !d.await.contains m.peer then .next s
  else if m.excl then
    let own := if tracked m.home m.dest then some m.dest else none
    .next (s.setLineDir { d with st := if own.isSome then .e else .i, owner := own, sharers := d.sharers.filter (· != m.dest), await := aw })
  else if m.dirty then .next (s.setLineDir { d with st := .o, sharers := add d.sharers m.dest, await := aw }.settle)
  else .next (s.setLineDir { d with st := .s, owner := none, sharers := add (add d.sharers m.peer) m.dest, await := aw })

/-- GRANT_ACK. -/
def execGrantAck (m : LineMsg) (s : State) : Out :=
  .next (s.updSeq m.home m.peer fun x => { x with unacked := x.unacked - 1 })

/-! ### Dead agents (R295, R296) -/

/-- Whether an agent serves a line. -/
def agentServes (a : Agent) (s : State) (line : Nat) : Bool :=
  match homeOf s (line * 128) with
  | .hbm d => a == .die d
  | .cxl d p => a == .cxl p || a == .die d
  | .host => a == .host

/-- Whether a holder of lines belongs to an agent. -/
def agentOwns (a : Agent) : Requester → Bool
  | .core d _ => a == .die d
  | .slice d _ => a == .die d
  | .remotePkg _ => false
  | .host => a == .host

/-- Whether an operation is a transaction with an agent: an access to a line that it serves, or a tile operation at its
home. -/
def opWaitsOn (s : State) (a : Agent) (o : Op) : Bool :=
  o.lines.any (agentServes a s) || (match o.kind with
    | .tileOp w 1 | .tileOp w 2 => (s.tiles.named o.ctx w).any fun x => a == .die (s.tileHome x)
    | _ => false)

/-- Whether a team waits for a tile of a dead home. -/
def teamWaitsOn (s : State) (a : Agent) (t : Team) : Bool :=
  match t.status with
  | .waiting (.tile ctx ix) => (s.tiles.at? ctx ix).any fun x => a == .die (s.tileHome x)
  | _ => false

/-- Contexts with a transaction outstanding to an agent. -/
def waitingOn (s : State) (a : Agent) : List Word :=
  ((s.ops.filter (opWaitsOn s a)).map (·.ctx) ++ (s.teams.filter (teamWaitsOn s a)).map (·.ctx)).eraseDups

/-- Lines and tiles whose owner was an agent are poisoned at their homes (R229); what it had not written back is lost. -/
def poisonOwned (s : State) (a : Agent) : State :=
  let byDir := (s.coh.dir.filter fun d => (d.owner.map (agentOwns a)).getD false).map (·.line)
  let byTile := (s.tiles.tiles.filter fun x => x.live && (match x.owner with
    | some d => a == .die d
    | none => false)).flatMap s.linesOf
  let lost := s.coh.behind.filter fun b => byDir.contains b.1
  { s with
    mem := lost.foldl (fun m b => m.writeBytes (b.1 * 128) b.2) s.mem
    poison := (byDir ++ byTile).foldl (fun p l => if p.contains l then p else l :: p) s.poison }

/-- DETAIL of a CONTAINED halt (16 R421). -/
def deadDetail : Agent → Word
  | .die d => dieDetail d
  | .port p => BitVec.ofNat 32 (2 + 256 * p)
  | .cxl p => BitVec.ofNat 32 (3 + 256 * p)
  | .host => 4

/-- The halt of a context that has a transaction outstanding to a dead agent; its record names that transaction. -/
def haltDead (s : State) (a : Agent) (ctx : Word) : State :=
  match s.ops.find? fun o => o.ctx == ctx && opWaitsOn s a o, s.teams.find? fun t => t.ctx == ctx && teamWaitsOn s a t with
  | some o, _ => haltOp s o codeContained (deadDetail a)
  | none, some t =>
    let i := instrAt s (s.ctxOf t) t
    haltTeam s t ((i.map instrOpc).getD 0) codeContained (deadDetail a) (unif := i.any inNib)
  | none, none => haltCode s ctx codeContained (deadDetail a)

/-- A dead agent holds nothing and acknowledges nothing any more: its answers are error responses. -/
def forgetAgent (s : State) (a : Agent) : State :=
  let s := s.coh.dir.foldl (fun s d =>
    let ws := (d.owner.toList ++ d.sharers ++ d.await).filter (agentOwns a)
    if ws.isEmpty then s else s.setLineDir (ws.foldl LineDir.without d)) s
  match a with
  | .die k =>
    (s.setTiles fun u => { u with presence := u.presence.filter (· != k), owner := if u.owner == some k then none else u.owner }).settleTiles
  | _ => s

def State.addDead (s : State) (a : Agent) : State :=
  if s.coh.dead.contains a then s else s.updCoh fun c => { c with dead := a :: c.dead }

/-- Contexts with a team, a tile task, an engine command or a fill item. -/
def busyCtxs (s : State) : List Word :=
  (s.teams.map (·.ctx) ++ s.ops.map (·.ctx) ++ s.fill.items.map (·.ctx)).eraseDups

/-- The owner is gone (17 R482). -/
def State.loseOwner (s : State) : State :=
  let o := s.mgmt.owner
  if o.valid then { s with mgmt := { s.mgmt with owner := { o with valid := false, handPend := false, epoch := o.epoch + 1 } } }
  else s

/-- DIE0_DEAD (R296): the busy contexts halt without an image. -/
def execDie0Dead (s : State) : Out :=
  let a := Agent.die (4 * s.boot.pkg)
  let s := (forgetAgent (poisonOwned s a) a).addDead a
  let cs := busyCtxs s
  let s := cs.foldl (fun s c => haltCode s c codeContained (deadDetail a)) s
  let s := s.loseOwner
  .next { s with
    coh := { s.coh with die0Dead := true }
    saved := s.saved.filter fun v => !cs.contains v.ctx
    mgmt := { s.mgmt with dieDead := s.mgmt.dieDead ||| 1 } }

/-- AGENT_DEADLINE_MISS (R295); a die 0 that is dead is contained without it. -/
def execAgentDeadlineMiss (a : Agent) (s : State) : Out :=
  if a == .die (4 * s.boot.pkg) then execDie0Dead s
  else
    let s := (poisonOwned s a).addDead a
    let cs := waitingOn s a
    let s := cs.foldl (fun s c => haltDead s a c) s
    let s := forgetAgent s a
    let s := match a with
      | .die d => { s with mgmt := { s.mgmt with dieDead := s.mgmt.dieDead ||| (1#4 <<< dieNo d) } }
      | .host => if s.mgmt.owner.master == 0 || s.mgmt.owner.master == 3 then s.loseOwner else s
      | _ => s
    .next s

end Sys2Proof.Machine
end

