-- ==== Sys2Proof/Machine/Control.lean ====
section
/-! DEFINITION. Control-flow instructions (03 R80 to R94). -/

namespace Sys2Proof.Machine

/-- A control transfer ends its clause; anywhere else it faults with ILLOP (02 R39). -/
def lastInClause (t : Team) : Bool := t.clause.left ≤ 1

/-- A transfer after the check of the addresses it goes to or records (R75): ILLOP for one that is no header, a park or
stop for one that cannot be fetched, and no change of state in either case. -/
def transfer (s : State) (t : Team) (i : Instr) (targets : List DWord) (c : Paths) : Out :=
  match checkTargets s (s.ctxOf t) t targets with
  | .ok s' => .next (s'.setTeam (t.withPaths c))
  | .bad => .next (takeFault s t i illop)
  | .fault va f => .next (fetchFault s t va f)

/-- The body of a control instruction, once its place in the clause is checked. -/
def control (s : State) (i : Instr) (f : Team → Out) : Out :=
  onTeam s fun t => if lastInClause t then f t else .next (takeFault s t i illop)

def stackFault : FaultInfo := { code := codeStack }

/-- A byte offset from the address of the instruction. -/
def Team.target (t : Team) (off : Word) : DWord := t.pc + off.signExtend 64

/-- A word offset of `brm`. -/
def Team.target12 (t : Team) (off : BitVec 12) : DWord := t.pc + (off.signExtend 64 <<< 2)

/-- R81. -/
def execNop (s : State) : Out := onTeam s fun t => finish s t .nop (.ok t)

/-- R82. -/
def execBra (c : BraCond) (off : Word) (s : State) : Out :=
  let i := Instr.bra c off
  control s i fun t =>
    let taken := match c with
      | .always => true
      | .z n => t.sreg n.toNat == 0
      | .nz n => t.sreg n.toNat != 0
    if taken then
      let p := { t.paths with pc := t.target off }
      transfer s t i [t.target off] (if off.msb then p.checkRotate else p)
    else .next (s.setTeam (t.goto (t.after i)))

/-- The active lanes in which a predicate, negated or not, holds. -/
def Team.predMask (t : Team) (p : PredIx) (neg : Bool) : Mask :=
  Mask.ofLanes ((t.active.lanes t.nlanes).filter fun L => t.pred L p != neg)

/-- R85. -/
def execBrv (p : PredIx) (neg : Bool) (taken jn : Word) (s : State) : Out :=
  let i := Instr.brv p neg taken jn
  control s i fun t =>
    let tk := t.predMask p neg
    let nt := t.active.diff tk
    let back (c : Paths) : Paths := if taken.msb then c.checkRotate else c
    if nt.isEmpty then transfer s t i [t.target taken] (back { t.paths with pc := t.target taken })
    else if tk.isEmpty then .next (s.setTeam (t.goto (t.after i)))
    else if !t.pushOk then .next (takeFault s t i stackFault)
    else
      transfer s t i [t.target taken, t.target jn]
        (back { stack := .div (t.target jn) tk [⟨t.after i, nt, none⟩] 0 :: t.stack, active := tk, pc := t.target taken })

/-- The path of each lane of a `brm`: the lowest pair that holds, else the fall-through. -/
def brmPath (t : Team) (pairs : List BrmPair) (L : Nat) : Nat :=
  (pairs.findIdx? fun q => t.pred L q.p != q.neg).getD pairs.length

/-- Where the header after the code address `a` stands: in the next block if `a` holds a fill parcel, which fetch skips
(02 R36). -/
def pastFill (s : State) (t : Team) (a : DWord) : DWord :=
  match fetchBlock s (s.ctxOf t) t a with
  | .block ws _ => if a.toNat % 32 / 4 == 7 && blockParcel ws 7 == 0 then a + 4 else a
  | .fault _ => a

/-- R86. Lanes that fall through continue at the header of the next clause (02 R39). -/
def execBrm (pairs : List BrmPair) (jn : BitVec 12) (s : State) : Out :=
  let i := Instr.brm pairs jn
  control s i fun t =>
    let tgt (k : Nat) : DWord := match pairs[k]? with
      | some q => t.target12 q.off
      | none => pastFill s t (t.after i)
    let back (k : Nat) : Bool := match pairs[k]? with
      | some q => q.off.msb
      | none => false
    let lanesFor (k : Nat) : Mask :=
      Mask.ofLanes ((t.active.lanes t.nlanes).filter fun L => brmPath t pairs L == k)
    let ps := ((List.range (pairs.length + 1)).map fun k => (k, lanesFor k)).filter fun q => !q.2.isEmpty
    let tgts : List DWord := ps.map fun q => tgt q.1
    match ps with
    | [] => .next (s.setTeam (t.goto (t.after i)))
    | [(k, _)] =>
      let c := { t.paths with pc := tgt k }
      transfer s t i tgts (if back k then c.checkRotate else c)
    | (k, m) :: rest =>
      if !t.pushOk then .next (takeFault s t i stackFault)
      else
        let q := rest.map fun r => (⟨tgt r.1, r.2, none⟩ : Path)
        let c : Paths := { stack := .div (t.target12 jn) m q 0 :: t.stack, active := m, pc := tgt k }
        transfer s t i (tgts ++ [t.target12 jn]) (if back k then c.checkRotate else c)

/-- R87. -/
def execJoin (s : State) : Out :=
  control s .join fun t =>
    match t.stack with
    | .div j c q v :: rest =>
      .next (s.setTeam (t.withPaths
        (Paths.ended { stack := .div j c q (v ||| t.active) :: rest, active := 0, pc := t.after .join })))
    | _ => .next (takeFault s t .join stackFault)

/-- Splits the stack at the n-th LOOP entry from the top that lies above any CALL entry: the entries above it, the
entry, the entries below (R90). -/
def findLoop : Nat → List Entry → Option (List Entry × LoopRec × List Entry)
  | _, [] => none
  | n, .loop l :: rest =>
    if n ≤ 1 then some ([], l, rest)
    else (findLoop (n - 1) rest).map fun (a, e, b) => (.loop l :: a, e, b)
  | n, .div j c q v :: rest => (findLoop n rest).map fun (a, e, b) => (.div j c q v :: a, e, b)
  | _, .call _ _ :: _ => none

/-- The common part of `brk` and `cont` (R90): `put` adds the leaving lanes to the entry found. -/
def leaveLoops (s : State) (i : Instr) (g : Guard) (n : Nat) (put : LoopRec → Mask → LoopRec) : Out :=
  control s i fun t =>
    let b := t.eligible g
    if b.isEmpty then .next (s.setTeam (t.goto (t.after i)))
    else
      match findLoop n t.stack with
      | none => .next (takeFault s t i stackFault)
      | some (above, l, below) =>
        let st := removeLanes b above ++ .loop (put { l with i := l.i.diff b } b) :: below
        let c : Paths := { stack := st, active := t.active.diff b, pc := t.after i }
        .next (s.setTeam (t.withPaths (if c.active.isEmpty then c.ended else c)))

/-- R90. -/
def execBrk (g : Guard) (n : BitVec 8) (s : State) : Out :=
  leaveLoops s (.brk g n) g n.toNat fun l b => { l with v := l.v ||| b }

/-- R90. -/
def execCont (g : Guard) (n : BitVec 8) (s : State) : Out :=
  leaveLoops s (.cont g n) g n.toNat fun l b => { l with k := l.k ||| b }

/-- R83. -/
def execCall (c : CallTarget) (s : State) : Out :=
  let i := Instr.call c
  control s i fun t =>
    let go (pc : DWord) : Out :=
      if !t.pushOk then .next (takeFault s t i stackFault)
      else transfer s t i [pc] { stack := .call (t.after i) t.active :: t.stack, active := t.active, pc }
    match c with
    | .direct off => go (t.target off)
    | .ind n =>
      let pc := pair32 (t.sreg n.toNat) (t.sreg (n.toNat + 1))
      if pc.toNat % 4 == 0 then go pc
      else .next (takeFault s t i { t.uniFault codeAlign 0xFFF with addr := pc })

/-- R84. -/
def execRet (s : State) : Out :=
  control s .ret fun t =>
    match t.stack with
    | .call ra _ :: rest => .next (s.setTeam (t.withPaths { stack := rest, active := t.active, pc := ra }))
    | _ => .next (takeFault s t .ret stackFault)

/-- R91. -/
def execExit (g : Guard) (s : State) : Out :=
  let i := Instr.exit g
  control s i fun t =>
    let x := t.eligible g
    if x.isEmpty then .next (s.setTeam (t.goto (t.after i)))
    else
      let c : Paths := { stack := removeLanes x t.stack, active := t.active.diff x, pc := t.after i }
      let t' := { t with exited := t.exited ||| x }
      .next (s.setTeam (t'.withPaths (if c.active.isEmpty then c.ended else c)))

/-- Inserts a lane into lanes sorted by key, after equal keys. -/
def insertByKey (key : Nat → Int) (L : Nat) : List Nat → List Nat
  | [] => [L]
  | x :: r => if key L < key x then L :: x :: r else x :: insertByKey key L r

def sortLanes (key : Nat → Int) (ls : List Nat) : List Nat := ls.foldl (fun acc L => insertByKey key L acc) []

/-- The lanes of a team in the order in which `reorder` puts them (R93); the order of exited lanes is open. -/
def reorderList (s : State) (t : Team) (signed : Bool) (k : Nat) : List Nat :=
  let key (L : Nat) : Int := if signed then (t.vreg L k).toInt else ((t.vreg L k).toNat : Int)
  let live := (List.range t.nlanes).filter fun L => !t.exited.has L
  let gone := (List.range t.nlanes).filter fun L => t.exited.has L
  sortLanes key live ++ sortLanes (fun L => (Config.freeNat s.ticks L : Int)) gone

/-- R93, R94. -/
def execReorder (signed : Bool) (k : BitVec 7) (s : State) : Out :=
  let i := Instr.reorder signed k
  onTeam s fun t =>
    if !t.stack.isEmpty || !(k.toNat < t.nvregs) then .next (takeFault s t i illop)
    else if s.regPending t then waitHere s t .drain
    else
      let order := reorderList s t signed k.toNat
      let n := ((List.range t.nlanes).filter fun L => !t.exited.has L).length
      let t' := { t with
        lanes := order.map t.lane, active := Mask.upTo n, exited := (Mask.upTo t.nlanes).diff (Mask.upTo n) }
      finish s t i (.ok t')

/-- R88. -/
def execLoop (off : Word) (s : State) : Out :=
  let i := Instr.loop off
  control s i fun t =>
    if !t.pushOk then .next (takeFault s t i stackFault)
    else
      let l : LoopRec := ⟨t.after i, t.target off, t.active, 0, 0⟩
      transfer s t i [t.target off] { stack := .loop l :: t.stack, active := t.active, pc := t.after i }

/-- R89. -/
def execNext (p : PredIx) (neg : Bool) (s : State) : Out :=
  let i := Instr.next p neg
  control s i fun t =>
    match t.stack with
    | .loop l :: rest =>
      let c := t.predMask p neg
      let v := l.v ||| t.active.diff c
      let g := c ||| l.k
      let r : Paths :=
        if g.isEmpty then
          let e : Paths := { stack := rest, active := v, pc := l.x }
          if v.isEmpty then e.ended else e
        else Paths.checkRotate { stack := .loop { l with i := g, k := 0, v } :: rest, active := g, pc := l.h }
      .next (s.setTeam (t.withPaths r))
    | _ => .next (takeFault s t i stackFault)

/-- R92. -/
def execSpin (s : State) : Out :=
  control s .spin fun t => .next (s.setTeam (t.withPaths { t.paths with pc := t.after .spin }.checkRotate))

end Sys2Proof.Machine
end

