-- ==== Sys2Proof/Machine/CrossLane.lean ====
section
/-! DEFINITION. Cross-lane instructions (07 R178 to R188): every lane position is a source, eligible lanes take part and
receive. -/

namespace Sys2Proof.Machine

/-- A source of one or two registers in a lane. -/
def laneWords (s : State) (t : Team) (wide : Bool) (x : Src) (L : Nat) : List Word :=
  wordsOf wide (if wide then (val64 s t false L false x).toNat else (val32 s t false L x).toNat)

/-- The source position of `shfl`, if it is in range (R183). -/
def shflSource (mode : ShflMode) (lanes L n : Nat) : Option Nat :=
  let p : Option Nat := match mode with
    | .idx => some n
    | .up => if n ≤ L then some (L - n) else none
    | .down => some (L + n)
    | .xor => some (L ^^^ n)
  p.filter (· < lanes)

/-- R183. -/
def execShfl (g : Guard) (mode : ShflMode) (wide : Bool) (d : Dst) (a b : Src) (rc : Option PredIx) (s : State) : Out :=
  onTeam s fun t =>
    let m := t.eligible g
    let src (L : Nat) : Option Nat := shflSource mode t.nlanes L (val32 s t false L b).toNat
    let t' := t.writeDst m d fun L => laneWords s t wide a ((src L).getD L)
    let t'' := match rc with
      | some p => t'.writePred m p fun L => (src L).isSome
      | none => t'
    finish s t (.shfl g mode wide d a b rc) (withAlloc t d [a, b] (.ok t''))

/-- The decision of R184 over the eligible lanes. -/
def voteVal (s : State) (t : Team) (ls : List Nat) (op : VoteOp) : Bool :=
  match op with
  | .any p => ls.any (t.pred · p)
  | .all p => ls.all (t.pred · p)
  | .uni p => ls.all (t.pred · p) || ls.all fun L => !t.pred L p
  | .eq a => ls.all fun L => val32 s t false L a == val32 s t false (ls.headD 0) a

/-- R184. -/
def execVote (g : Guard) (d : PDst) (op : VoteOp) (s : State) : Out :=
  onTeam s fun t =>
    let m := t.eligible g
    let r := voteVal s t (m.lanes t.nlanes) op
    let w : List Word := [if r then 1 else 0]
    let srcs := match op with
      | .eq a => [a]
      | _ => []
    let (dst, t') : Dst × Team := match d with
      | .v n => (.v n, t.writeDst m (.v n) fun _ => w)
      | .s n => (.s n, t.writeDst m (.s n) fun _ => w)
      | .p p => (.none, t.writePred m p fun _ => r)
      | .none => (.none, t)
    finish s t (.vote g d op) (withAlloc t dst srcs (.ok t'))

/-- R185. `%lane` as the uniform word number reads a free word (DESIGN CHOICE, log entry 18). -/
def ballotVal (s : State) (t : Team) (m : Mask) (p : PredIx) (op : BallotOp) : Word :=
  let hit (L : Nat) : Bool := m.has L && t.pred L p
  match op with
  | .word w =>
    let k := (val32 s t true 0 w).toNat
    if t.nlanes / 32 ≤ k then 0
    else BitVec.ofNat 32 ((List.range 32).foldl (fun x c => x + b2n (hit (32 * k + c)) * 2 ^ c) 0)
  | .wv =>
    BitVec.ofNat 32 ((List.range (t.nlanes / 32)).foldl
      (fun x k => x + b2n ((List.range 32).any fun c => hit (32 * k + c)) * 2 ^ k) 0)
  | .cnt => BitVec.ofNat 32 ((List.range t.nlanes).filter hit).length

/-- R185. -/
def execBallot (g : Guard) (d : Dst) (p : PredIx) (op : BallotOp) (s : State) : Out :=
  onTeam s fun t =>
    let m := t.eligible g
    let r := ballotVal s t m p op
    finish s t (.ballot g d p op) (withAlloc t d [] (.ok (t.writeDst m d fun _ => [r])))

/-! ### Reductions (R186, R187) -/

/-- An integer combination on patterns of the type. -/
def joinInt (ty : IType) (f : Int → Int → Int) (a b : Nat) : FR :=
  ⟨intToNat (f (IType.elem ty a 0) (IType.elem ty b 0)) (IType.width ty), 0⟩

/-- How an operation combines two operands as bit patterns, with the flags it raises (R186). DAZ does not apply to a
partial sum of `.fadd` (R187; DEDUCED, log entry 32). -/
def redJoin (op : RedOp) (c : FCtl) (a b : Nat) : FR :=
  match op with
  | .add t => joinInt t (· + ·) a b
  | .min t => joinInt t (fun a b => if a ≤ b then a else b) a b
  | .max t => joinInt t (fun a b => if a ≤ b then b else a) a b
  | .and _ => ⟨a &&& b, 0⟩
  | .or _ => ⟨a ||| b, 0⟩
  | .xor _ => ⟨a ^^^ b, 0⟩
  | .fadd t => (FType.fmt t).add { c with daz := false } a b
  | .fmin t => (FType.fmt t).minmax c false a b
  | .fmax t => (FType.fmt t).minmax c true a b

/-- The identity of R186. -/
def redIdent (op : RedOp) : Nat :=
  match op with
  | .add _ | .or _ | .xor _ => 0
  | .min t => intToNat (IType.maxT t) (IType.width t)
  | .max t => intToNat (IType.minT t) (IType.width t)
  | .and t => 2 ^ IType.width t - 1
  | .fadd t => (FType.fmt t).zero false
  | .fmin t => (FType.fmt t).inf false
  | .fmax t => (FType.fmt t).inf true

/-- A single operand: as read, but a lone NaN of a minimum or maximum gives the canonical NaN (R187). -/
def redLone (op : RedOp) (c : FCtl) (a : Nat) : FR :=
  match op with
  | .fmin t | .fmax t =>
    let f := FType.fmt t
    let a := f.daz c a
    f.snans [a] (if f.isNan a then ⟨f.nan, 0⟩ else ⟨a, 0⟩)
  | _ => ⟨a, 0⟩

/-- The combination of operands in order, the identity for none. -/
def foldCombine (op : RedOp) (c : FCtl) : List Nat → FR
  | [] => ⟨redIdent op, 0⟩
  | x :: xs => xs.foldl (fun r y => let z := redJoin op c r.v y; ⟨z.v, r.f ||| z.f⟩) (redLone op c x)

/-- One level of the tree: a missing child passes the other. -/
def treeLevel (op : RedOp) (c : FCtl) : List (Option FR) → List (Option FR)
  | some a :: some b :: r =>
    let z := redJoin op c a.v b.v
    some ⟨z.v, a.f ||| b.f ||| z.f⟩ :: treeLevel op c r
  | a :: b :: r => a.or b :: treeLevel op c r
  | r => r

/-- The root over the 32 columns of a mask word. -/
def treeRoot (op : RedOp) (c : FCtl) (xs : List (Option FR)) : Option FR :=
  let level := treeLevel op c
  ((level (level (level (level (level xs)))))[0]?).getD none

/-- What `.fadd` takes of a lane: DAZ applies to the inputs (R187). -/
def redLeaf (op : RedOp) (c : FCtl) (x : Nat) : Nat :=
  match op with
  | .fadd t => (FType.fmt t).daz c x
  | _ => x

/-- `.fadd`: the tree of each mask word, the words added to +0.0 in ascending order, also for one eligible lane, as the
pseudocode of R187 has it (DEDUCED, log entry 95). -/
def treeSum (op : RedOp) (c : FCtl) (words : Nat) (leaf : Nat → Option Nat) : FR :=
  (List.range words).foldl
    (fun r w =>
      match treeRoot op c ((List.range 32).map fun j => (leaf (32 * w + j)).map fun x => ⟨redLeaf op c x, 0⟩) with
      | some p => let z := redJoin op c r.v p.v; ⟨z.v, r.f ||| p.f ||| z.f⟩
      | none => r)
    ⟨redIdent op, 0⟩

/-- An operand of a reduction in a lane, in the operation's own table of constants. -/
def redOperand (s : State) (t : Team) (op : RedOp) (a : Src) (L : Nat) : Nat :=
  match op with
  | .add ty | .min ty | .max ty | .and ty | .or ty | .xor ty => valI s t false L ty a
  | .fadd ty | .fmin ty | .fmax ty => valF s t false L ty a

/-- R187. -/
def execTred (g : Guard) (op : RedOp) (rs : BitVec 3) (d : Dst) (a : Src) (s : State) : Out :=
  onTeam s fun t =>
    let m := t.eligible g
    let c := fctl t.ctl.mode rs
    let x := redOperand s t op a
    let r := match op with
      | .fadd _ => treeSum op c (t.nlanes / 32) fun L => if m.has L then some (x L) else none
      | _ => foldCombine op c ((m.lanes t.nlanes).map x)
    finish s t (.tred g op rs d a) (withAlloc t d [a]
      (withFlags t false r.f m (t.writeDst m d fun _ => wordsOf op.wide r.v)))

/-- R187. -/
def execTscan (g : Guard) (op : RedOp) (excl : Bool) (d : Dst) (a : Src) (s : State) : Out :=
  onTeam s fun t =>
    let m := t.eligible g
    let c := fctl t.ctl.mode 0
    let x := redOperand s t op a
    let ls := m.lanes t.nlanes
    let r (L : Nat) : FR := foldCombine op c ((ls.filter fun K => if excl then K < L else K ≤ L).map x)
    finish s t (.tscan g op excl d a) (withAlloc t d [a]
      (withFlags t false (gatherFlags ls fun L => (r L).f) m (t.writeDst m d fun L => wordsOf op.wide (r L).v)))

/-- R188. `%lane` as the uniform lane index reads a free word (DESIGN CHOICE, log entry 18). -/
def execBcast (g : Guard) (wide : Bool) (d : Dst) (a n : Src) (s : State) : Out :=
  onTeam s fun t =>
    let m := t.eligible g
    let k := (val32 s t true 0 n).toNat
    let ws := if k < t.nlanes then laneWords s t wide a k else wordsOf wide 0
    finish s t (.bcast g wide d a n) (withAlloc t d [a, n] (.ok (t.writeDst m d fun _ => ws)))

end Sys2Proof.Machine
end

