-- ==== Sys2Proof/Machine/System.lean ====
section
/-! DEFINITION. System instructions (16 R453 to R462). -/

namespace Sys2Proof.Machine

/-! ### trap, bkpt, rfe, yield, ksave -/

/-- A system instruction that stands last in its clause (R455). -/
def lastInstr (s : State) (i : Instr) (f : Team → Out) : Out :=
  onTeam s fun t => if lastInClause t then f t else .next (takeFault s t i illop)

/-- R457. -/
def execTrap (n : BitVec 8) (s : State) : Out :=
  let i := Instr.trap n
  lastInstr s i fun t => .next (takeFault s t i (t.uniFault codeTrap (n.setWidth 32)))

/-- R457: `bkpt` is ignored while TSTAT.DBG is 0. -/
def execBkpt (n : BitVec 8) (s : State) : Out :=
  let i := Instr.bkpt n
  lastInstr s i fun t =>
    if (s.ctxOf t).debug then .next (takeFault s t i (t.uniFault codeBkpt (n.setWidth 32)))
    else finish s t i (.ok t)

/-- R458. -/
def execRfe (s : State) : Out :=
  lastInstr s .rfe fun t =>
    if t.ctl.hmode then .next (s.setTeam t.leaveHandler) else .next (takeFault s t .rfe illop)

/-- R460: in handler mode the team leaves for its context's image. -/
def execYield (s : State) : Out :=
  lastInstr s .yield fun t =>
    if t.ctl.hmode then .next (s.setTeam { (t.advance .yield) with leave := .yielded }) else finish s t .yield (.ok t)

/-- Whether a mask names a vector register beyond the allocation. -/
def ksaveBeyond (t : Team) (base : Nat) (m : DWord) : Bool :=
  (List.range 64).any fun k => m.getLsbD k && t.nvregs ≤ base + k

/-- R461. -/
def execKsave (set : KsaveSet) (m : DWord) (s : State) : Out :=
  let i := Instr.ksave set m
  onTeam s fun t =>
    let c := t.ctl
    let done (c : Ctl) : Out := finish s t i (.ok { t with ctl := c })
    if !c.hmode then .next (takeFault s t i illop)
    else match set with
      | .vlo => if ksaveBeyond t 0 m then .next (takeFault s t i illop) else done { c with ksv := c.ksv ||| m.setWidth 128 }
      | .vhi =>
        if ksaveBeyond t 64 m then .next (takeFault s t i illop) else done { c with ksv := c.ksv ||| (m.setWidth 128 <<< 64) }
      | .s => done { c with kss := c.kss ||| m }
      | .p => done { c with ksp := c.ksp ||| m.setWidth 8 }

/-! ### Control and status registers (R453, R454) -/

/-- Whether a number names a register. -/
def csrKnown (n : Nat) : Bool := n ≤ 0x018 || n == 0x020 || n == 0x021 || (0x030 ≤ n && n ≤ 0x038) || n == 0x040

def csrPrivileged (n : Nat) : Bool := 0x020 ≤ n

/-- TSTAT. -/
def tstat (t : Team) (c : Ctx) : Word :=
  (0 : BitVec 28) ++ bit1 t.ctl.genr ++ bit1 t.ctl.slend ++ bit1 t.ctl.hmode ++ bit1 c.debug

/-- TENANT. -/
def tenant (c : Ctx) : Word := (0 : BitVec 12) ++ bit1 c.sys ++ bit1 c.furrow ++ c.cls ++ c.tid

/-- The virtual address that TBASE names: VA[46:15], copied upwards from bit 46. -/
def tbaseVa (w : Word) : DWord := ((w ++ (0 : BitVec 15)) : BitVec 47).signExtend 64

/-- The value of a register. -/
def readCsr (s : State) (t : Team) (n : Nat) : Word :=
  let c := s.ctxOf t
  let lr := (s.grid? t.grid).map (·.lr)
  if 0x004 ≤ n && n ≤ 0x007 then (t.ctl.finfo[n - 4]?).getD 0
  else if 0x010 ≤ n && n ≤ 0x017 then lo32 (s.slotWord t (n - 0x010))
  else if 0x031 ≤ n && n ≤ 0x038 then (c.sharetab[n - 0x031]?).getD 0
  else match n with
    | 0x000 => t.ctl.mode
    | 0x001 => t.ctl.fstat
    | 0x002 => t.ctl.regctr
    | 0x003 => c.budget.getD c.ybudget
    | 0x008 => t.teamNo
    | 0x009 => t.grid
    | 0x00A => BitVec.ofNat 32 t.nlanes
    | 0x00B => s.frameOf t.ctx
    | 0x00C => lo32 (s.clock t.place.die)
    | 0x00D => hi32 (s.clock t.place.die)
    | 0x00E => lo32 t.ctl.epc
    | 0x00F => hi32 t.ctl.epc
    | 0x018 => tstat t c
    | 0x020 => ((lr.map (·.htbase)).getD 0 >>> 15).setWidth 32
    | 0x021 => BitVec.ofNat 32 ((lr.map (·.htlimit)).getD 0)
    | 0x030 => c.sharemask
    | 0x040 => tenant c
    | _ => 0

/-- Changes the handle table of every grid of a context (DEDUCED, log entry 10). -/
def State.updLaunches (s : State) (ctx : Word) (f : Launch → Launch) : State :=
  { s with grids := s.grids.map fun g => if g.ctx == ctx then { g with lr := f g.lr } else g }

/-- Registers that say how handles are read: a write of one empties the handle caches (R454). -/
def csrOfHandles (n : Nat) : Bool := n == 0x020 || n == 0x021 || (0x030 ≤ n && n ≤ 0x038)

/-- Writes a register by the access of its fields; read-only ones stay. -/
def writeCsr (s : State) (t : Team) (n : Nat) (w : Word) : State × Team :=
  if 0x031 ≤ n && n ≤ 0x038 then
    (s.updCtx t.ctx fun c => { c with sharetab := c.sharetab.set (n - 0x031) (w &&& 0x0003FFFF) }, t)
  else match n with
    | 0x000 => (s, { t with ctl := { t.ctl with mode := writeMode t.ctl.mode w } })
    | 0x001 => (s, { t with ctl := { t.ctl with fstat := t.ctl.fstat &&& ~~~w } })
    | 0x020 => (s.updLaunches t.ctx fun l => { l with htbase := tbaseVa w }, t)
    | 0x021 =>
      let n := natField w.toNat 0 13
      (if n ≤ 4096 then s.updLaunches t.ctx fun l => { l with htlimit := n } else s, t)
    | 0x030 => (s.updCtx t.ctx fun c => { c with sharemask := w &&& 0xFF }, t)
    | _ => (s, t)

/-- The checks that `csrr` and `csrw` share (R453, R455). -/
def csrFault (s : State) (t : Team) (ns : List Nat) : Option FaultInfo :=
  if !ns.all csrKnown then some illop
  else if ns.any csrPrivileged && !(s.ctxOf t).sys then some (t.uniFault codePriv)
  else none

/-- R459. -/
def execCsrr (wide : Bool) (d : Dst) (csr : BitVec 12) (s : State) : Out :=
  let i := Instr.csrr wide d csr
  onTeam s fun t =>
    let ns := if wide then [csr.toNat, csr.toNat + 1] else [csr.toNat]
    match csrFault s t ns with
    | some f => .next (takeFault s t i f)
    | none => finish s t i (.ok (t.writeUni d (ns.map (readCsr s t))))

/-- R459: the old value is read first. -/
def execCsrw (d : Dst) (a : Src) (csr : BitVec 12) (s : State) : Out :=
  let i := Instr.csrw d a csr
  onTeam s fun t =>
    match csrFault s t [csr.toNat] with
    | some f => .next (takeFault s t i f)
    | none =>
      let old := readCsr s t csr.toNat
      let (s, t') := writeCsr s t csr.toNat (val32 s t true 0 a)
      finish (if csrOfHandles csr.toNat then dropHandles s t.ctx else s) t' i (.ok (t'.writeUni d [old]))

/-! ### tlbi (R462) -/

/-- Whether a cached translation is one that a `tlbi` names. -/
def tlbiHits (op : TlbiOp) (arg : DWord) (ctx : Word) (e : TlbEntry) : Bool :=
  match op with
  | .va => e.ctx == ctx && e.page == arg.toNat % 2 ^ 57 / e.size
  | .ctx => e.ctx == lo32 arg
  | .vm => e.vmid.toNat == arg.toNat
  | .gpa => decide (e.gpa ≤ arg.toNat) && decide (arg.toNat < e.gpa + e.size)
  | .all => true

/-- Whether a table descriptor in a walk cache is one that a `tlbi` names. -/
def tlbiHitsWalk (op : TlbiOp) (arg : DWord) (ctx : Word) (e : WalkEntry) : Bool :=
  match op with
  | .va => !e.stage2 && e.ctx == ctx && e.page == walkPage e.lv (arg.toNat % 2 ^ 57)
  | .ctx => e.ctx == lo32 arg
  | .vm => e.vmid.toNat == arg.toNat
  | .gpa => e.stage2 && e.page == walkPage e.lv arg.toNat
  | .all => true

/-- R462: a release fence of the scope, then the entries are dropped. -/
def execTlbi (fs : Bool) (op : TlbiOp) (scope : Scope) (a : Src) (s : State) : Out :=
  let i := Instr.tlbi fs op scope a
  longOp s fs fun t =>
    if !(s.ctxOf t).sys then .next (takeFault s t i (t.uniFault codePriv))
    else if s.readsOut t.uid || s.sigsOut t.uid then waitHere s t .stall
    else
      let arg := match op with
        | .va | .gpa => val64 s t true 0 false a
        | .ctx | .vm => (val32 s t true 0 a).setWidth 64
        | .all => 0
      .next (issueOp (performAt s t scope) t i fs (.tlbi op scope arg))

/-- TLBI_COMPLETE: the entries of the cores in the scope, and of their dies' walk caches, are gone. -/
def execTlbiComplete (op : Nat) (s : State) : Out :=
  match s.op? op with
  | some o =>
    match o.kind with
    | .tlbi k scope arg =>
      let p : Place := ⟨o.die, o.core, 0⟩
      let tlb := s.caches.tlb.filter fun e => !(tlbiHits k arg o.ctx e && scopeHolds p scope e.die e.core)
      let walks := s.caches.walks.filter fun e => !(tlbiHitsWalk k arg o.ctx e && scopeHolds p scope e.die o.core)
      .next (completeOp { s with caches := { s.caches with tlb, walks } } o)
    | _ => .next s
  | none => .next s

end Sys2Proof.Machine
end

