-- ==== Sys2Proof/Machine/Faults.lean ====
section
/-! DEFINITION. Fault queues, records and their answers (16 R418 to R427). -/

namespace Sys2Proof.Machine

/-! ### Records in memory (R420, R422) -/

/-- The 256 bytes of a record. -/
def recordBytes (r : FaultRec) (seq : Word) : List Byte :=
  let w (x : Word) : List Byte := leBytes 4 x.toNat
  let d (x : DWord) : List Byte := leBytes 8 x.toNat
  w r.finfo0 ++ w r.finfo1 ++ w r.finfo2 ++ w r.finfo3 ++ w r.ctx ++ w r.grid ++ w r.team ++
    [BitVec.ofNat 8 r.place.core, BitVec.ofNat 8 r.place.slot, BitVec.ofNat 8 (r.place.die % 4),
     BitVec.ofNat 8 (r.place.die / 4)] ++
    d r.ipc ++ d r.rpc ++ d r.addr ++ d r.gpa ++ w seq ++ w (r.vmid.setWidth 32) ++ List.replicate 56 0 ++
    leBytes 128 r.lanes.toNat

/-- The fields of a queue's header: RBASE, LOG2N, PROD, CONS, the MSI-X vector. -/
structure QHeader where
  rbase : Nat
  log2n : Nat
  prod  : Nat
  cons  : Nat
  msix  : Nat
  deriving DecidableEq, Repr

def readHeader (m : Memory) (at_ : Nat) : QHeader :=
  { rbase := m.readLE at_ 8, log2n := m.readLE (at_ + 8) 1, prod := m.readLE (at_ + 12) 4, cons := m.readLE (at_ + 16) 4,
    msix := m.readLE (at_ + 32) 4 }

/-- Whether a queue has room; a header whose LOG2N is outside 4 to 16 has none. -/
def QHeader.room (h : QHeader) : Bool :=
  4 ≤ h.log2n && h.log2n ≤ 16 && intToNat ((h.prod : Int) - h.cons) 32 < 2 ^ h.log2n

/-- The fault queue of an id. -/
def State.fq? (s : State) : QueueId → Option FaultQueue
  | .ctx id => (s.ctx? id).map (·.fq)
  | .vm id => (s.vmqs.find? (·.1 == id)).map (·.2)

def State.setFq (s : State) (q : QueueId) (f : FaultQueue) : State :=
  match q with
  | .ctx id => s.updCtx id fun c => { c with fq := f }
  | .vm id => { s with vmqs := s.vmqs.map fun e => if e.1 == id then (id, f) else e }

/-- Whether the oldest waiting record of a queue can be written; with die 0 dead nothing serves the queues (11 R296). -/
def recordMay (s : State) (f : FaultQueue) : Bool :=
  !f.pending.isEmpty && !s.coh.die0Dead && (readHeader s.mem f.header).room

/-- FAULT_RECORD_WRITE: the record, then PROD, then the interrupt (R422). -/
def execFaultRecordWrite (q : QueueId) (s : State) : Out :=
  match s.fq? q with
  | some f =>
    match f.pending with
    | (seq, r) :: rest =>
      if !recordMay s f then .next s
      else
        let h := readHeader s.mem f.header
        let s := s.writeMem (cellsAt (h.rbase + 256 * (h.prod % 2 ^ h.log2n)) (recordBytes r seq))
        let s := s.writeMem (cellsAt (f.header + 12) (leBytes 4 (h.prod + 1)))
        .next { (s.setFq q { f with pending := rest }) with
          mgmt := { s.mgmt with msix := s.mgmt.msix ++ [BitVec.ofNat 16 h.msix] } }
    | [] => .next s
  | none => .next s

/-- STOP_RECORD (R426): a stopping team has no operation outstanding; its record is queued. -/
def execStopRecord (uid : Nat) (s : State) : Out :=
  match s.team? uid with
  | some t =>
    match t.status with
    | .stopping r =>
      if (s.opsOf uid).isEmpty then
        let (seq, s) := s.queueRecord (.ctx t.ctx) r
        .next (s.setTeam { t with status := .stopped r seq })
      else .next s
    | _ => .next s
  | none => .next s

/-! ### Answers (R424) -/

/-- The queue of a park report of a context. -/
def reportQueue (s : State) (ctx : Word) (s2 : Bool) : QueueId :=
  if s2 then .vm (((s.ctx? ctx).map (·.vmid)).getD 0) else .ctx ctx

def Status.parks : Status → List ParkRep
  | .parked rs => rs
  | _ => []

/-- Park reports held by teams and engine commands, with their contexts. -/
def heldReports (s : State) : List (Word × ParkRep) :=
  (s.teams.map fun t => t.status.parks.map fun r => (t.ctx, r)).flatten ++
    (s.eparks.map fun e => match s.op? e.1 with
      | some o => e.2.map fun r => (o.ctx, r)
      | none => []).flatten

/-- The report that a queue's SEQ names. -/
def findReport (s : State) (q : QueueId) (seq : Word) : Option (Word × ParkRep) :=
  (heldReports s).find? fun r => r.2.seq == seq && reportQueue s r.1 r.2.s2 == q

/-- The stopped team that a queue's SEQ names. -/
def findStop (s : State) (q : QueueId) (seq : Word) : Option (Team × FaultRec) :=
  (s.teams.filterMap fun t => match t.status with
    | .stopped r n => if n == seq && QueueId.ctx t.ctx == q then some (t, r) else none
    | _ => none).head?

/-- Whether a report is of the same page at the same stage. -/
def ParkRep.page (a b : ParkRep) : Bool := a.s2 == b.s2 && a.granule == b.granule

/-- A record as a stop, kill or halt of the context's own queue carries it: S2 and REPLAY are 0. -/
def FaultRec.final (r : FaultRec) (rpc : DWord) : FaultRec :=
  { r with finfo0 := r.finfo0 &&& ~~~(0x0000C000 : Word), rpc }

def FaultRec.code (r : FaultRec) : BitVec 8 := r.finfo0.extractLsb' 24 8

/-- Engine commands of a context parked on a page. -/
def parkedCmds (s : State) (ctx : Word) (p : ParkRep) : List (Op × ParkRep) :=
  s.eparks.filterMap fun e => match s.op? e.1 with
    | some o => if o.ctx == ctx then (e.2.find? p.page).map fun r => (o, r) else none
    | none => none

/-- RETRY: whatever is parked on the page at that stage replays. -/
def retryPage (s : State) (ctx : Word) (p : ParkRep) : State :=
  let cmds := (parkedCmds s ctx p).map fun c => c.1.id
  { s with
    teams := s.teams.map fun t => if t.ctx == ctx && t.status.parks.any p.page then { t with status := .running } else t
    eparks := s.eparks.filter fun e => !cmds.contains e.1 }

/-- FAIL: those teams stop with PAGE, and those commands end FAULTED with it; at stage 2 the context halts. -/
def failPage (s : State) (ctx : Word) (p : ParkRep) : State :=
  if p.s2 then
    let r := p.rpt.final p.rpt.rpc
    haltCtx s ctx { r with finfo0 := codePageS2 ++ (r.finfo0.setWidth 24 : BitVec 24) }
  else
    let stop (t : Team) : Team :=
      match t.status.parks.find? p.page with
      | some r =>
        if t.ctx == ctx then
          let f := r.rpt.final t.resumePc
          { (t.loadFinfo f) with status := .stopping f }
        else t
      | none => t
    let cmds := parkedCmds s ctx p
    cmds.foldl (fun s c => faultOp s c.1 { code := codePage, detail := c.2.rpt.finfo2, addr := c.2.rpt.addr })
      { s with teams := s.teams.map stop }

/-- CONTINUE after TRAP or BKPT: the team goes on behind the instruction. -/
def Team.goOn (t : Team) (r : FaultRec) : Team := { (t.goto (r.ipc + 8)) with status := .running }

def execAnswerRetry (q : QueueId) (seq : Word) (s : State) : Out :=
  match findReport s q seq with
  | some (ctx, p) => .next (retryPage s ctx p)
  | none => .next s

def execAnswerFail (q : QueueId) (seq : Word) (s : State) : Out :=
  match findReport s q seq with
  | some (ctx, p) => .next (failPage s ctx p)
  | none => .next s

def execAnswerRestart (q : QueueId) (seq : Word) (s : State) : Out :=
  match findStop s q seq with
  | some (t, _) => .next (s.setTeam t.restart)
  | none => .next s

def execAnswerContinue (q : QueueId) (seq : Word) (s : State) : Out :=
  match findStop s q seq with
  | some (t, r) => .next (s.setTeam (if r.code == codeTrap || r.code == codeBkpt then t.goOn r else t.restart))
  | none => .next s

def execAnswerKill (q : QueueId) (seq : Word) (s : State) : Out :=
  match findStop s q seq with
  | some (t, _) => .next (killTeam s t)
  | none => .next s

def execAnswerHalt (q : QueueId) (seq : Word) (s : State) : Out :=
  match findReport s q seq, findStop s q seq with
  | some (ctx, p), _ => .next (haltCtx s ctx (p.rpt.final p.rpt.rpc))
  | none, some (t, r) => .next (haltCtx s t.ctx r)
  | none, none => .next s

/-- Actions 0 and 7 to 15. -/
def execAnswerIgnored (_q : QueueId) (_seq : Word) (_action : BitVec 4) (s : State) : Out := .next s

/-- The answer that a write to ANSWER gives; bits above the action are zero. -/
def applyAnswer (s : State) (q : QueueId) (w : DWord) : Out :=
  let seq := lo32 w
  if w >>> 36 != 0 then .next s
  else match (w >>> 32).toNat % 16 with
    | 1 => execAnswerRetry q seq s
    | 2 => execAnswerFail q seq s
    | 3 => execAnswerRestart q seq s
    | 4 => execAnswerContinue q seq s
    | 5 => execAnswerKill q seq s
    | 6 => execAnswerHalt q seq s
    | a => execAnswerIgnored q seq (BitVec.ofNat 4 a) s

end Sys2Proof.Machine
end

