-- ==== Sys2Proof/Machine/LaunchRec.lean ====
section
/-! DEFINITION. The launch record (17 R463, R464): its fields, what the firmware refuses, grid ids. -/

namespace Sys2Proof.Machine

/-- A launch record from its 256 bytes. -/
def launchOf (bs : List Byte) : Launch :=
  let r := leNat bs
  let f (lo w : Nat) : Nat := natField r lo w
  { entry := BitVec.ofNat 64 (f 0 64), yieldPc := BitVec.ofNat 64 (f 64 64), lanes := f 128 16, vregs := f 144 8,
    spillD := f 152 8, scratch := f 160 32, tpc := f 192 8, cpq := f 200 8, qpd := f 208 8, dies := f 216 8, pkgs := f 224 8,
    part := f 232 8, idemp := natBit r 240, wphase := natBit r 241, gfx := natBit r 242, prio := f 243 2,
    htbase := BitVec.ofNat 64 (f 256 64), htlimit := f 320 16, sigvec := BitVec.ofNat 16 (f 336 16),
    cntva := BitVec.ofNat 64 (f 384 64), fmts := (List.range 8).map fun k => BitVec.ofNat 64 (f (1024 + 64 * k) 64),
    resvOk := f 245 11 == 0 && f 352 32 == 0 && f 448 576 == 0 && f 1536 512 == 0 }

/-- The spill area of a team (03 R71). -/
def Launch.spillBytes (l : Launch) : Nat := l.spillD * (32 + l.lanes / 2)

/-- Teams of a grid (01 R29). -/
def Launch.teams (l : Launch) : Nat := l.tpc * l.cpq * l.qpd * l.dies * l.pkgs

/-- Fields within the range that the table of R463 gives. -/
def Launch.rangesOk (l : Launch) : Bool :=
  1 ≤ l.tpc && l.tpc ≤ 32 && 1 ≤ l.cpq && l.cpq ≤ 4 && 1 ≤ l.qpd && l.qpd ≤ 16 && 1 ≤ l.dies && l.dies ≤ 4 &&
    1 ≤ l.pkgs && l.pkgs ≤ 64 && l.part ≤ 15 && l.spillD ≤ 240 && l.htlimit ≤ 4096 && l.cntva.toNat % 4 == 0 &&
    l.htbase.toNat % 2 ^ 15 == 0 && decide (-(2 ^ 46) ≤ l.htbase.toInt) && decide (l.htbase.toInt < 2 ^ 46)

/-- LANES and VREGS are legal steps (01 R17, R18). -/
def Launch.stepsOk (l : Launch) : Bool :=
  32 ≤ l.lanes && l.lanes ≤ 1024 && l.lanes % 32 == 0 && 16 ≤ l.vregs && l.vregs ≤ 128 && l.vregs % 8 == 0

def Launch.fits (l : Launch) : Bool :=
  l.tpc * (l.scratch + l.spillBytes) ≤ 262144 && l.tpc * l.lanes * l.vregs ≤ 131072

/-- The number of the first item of R464 that refuses a record of a partition, 10 for the faults of R160; 0 accepts.
`cap` is the queue's PRIOCAP. -/
def Launch.refusal (l : Launch) (part cap : Nat) (grant : Bool) : Nat :=
  if !l.resvOk then 1
  else if !l.rangesOk then 2
  else if !l.stepsOk then 3
  else if l.entry.toNat % 32 != 0 || l.yieldPc.toNat % 32 != 0 then 4
  else if !l.fits then 5
  else if l.part != part then 6
  else if cap < l.prio then 7
  else if l.wphase && l.gfx then 8
  else if 1 < l.pkgs && !grant then 9
  else if l.fmts.any slotRefused then 10
  else 0

/-- Ids of live grids and of accepted records (R467). -/
def State.gridIds (s : State) : List Nat :=
  ((s.grids.filter fun g => !g.complete).map fun g => g.id.toNat) ++
    (s.parts.map fun p => ((p.queues.map fun q => q.recs.map fun r => r.1.toNat).flatten) ++ p.spawns.map fun x => x.id.toNat).flatten

/-- The id that an accepted record is given: one that no live grid has. -/
def newGridId (s : State) : Word :=
  BitVec.ofNat 32 ((pickFree s.gridIds (2 ^ 32) (Config.freeNat s.ticks 500)).getD 0)

/-- Reads a launch record at a virtual address for an instruction of a team. -/
def launchAt (s : State) (t : Team) (i : Instr) (fs : Option Bool) (va : DWord) : Except State (Launch × State) :=
  match recordAt s t i fs va 256 with
  | .error s => .error s
  | .ok (bs, s) => .ok (launchOf bs, s)

end Sys2Proof.Machine
end

