-- ==== Sys2Proof/Machine/Launch.lean ====
section
/-! DEFINITION. Launch instructions, the queues, placement and binding, and the end of a grid (17 R463 to R479, 01 R30). -/

namespace Sys2Proof.Machine

/-! ### Queues (R466, R467) -/

def Part.queue (p : Part) (q : Nat) : Option HwQueue := p.queues[q]?

def State.updQueue (s : State) (part q : Nat) (f : HwQueue → HwQueue) : State :=
  s.updPart part fun p => { p with queues := p.queues.mapIdx fun k x => if k == q then f x else x }

/-- A queue accepts a record: its id is assigned and POSTED counts it. -/
def acceptRecord (s : State) (part q : Nat) (l : Launch) : State :=
  let id := newGridId s
  s.updQueue part q fun x => { x with recs := x.recs ++ [(id, l)], posted := x.posted + 1 }

/-- The queue that an instruction names, when it belongs to the team's context. -/
def State.queueOf (s : State) (t : Team) (q : Nat) : Option (Part × HwQueue) :=
  match s.partOf t with
  | some p => ((p.queue q).filter (·.ctx == t.ctx)).map fun x => (p, x)
  | none => none

/-! ### Reading a record (R471) -/

/-- The record that an instruction names, read as one plain load; `bad` is checked after the handle and its offset, before the
record is read. -/
def withLaunch (s : State) (t : Team) (i : Instr) (fs : Bool) (r : RecRef) (bad : Option FaultInfo)
    (go : Launch → State → Out) : Out :=
  match recReq s t i (some fs) .readRec r 256 8, bad with
  | .error s, _ => .next s
  | .ok (_, s), some f => .next (takeFault s t i f)
  | .ok (q, s), none =>
    match recBytes s t i (some fs) q with
    | .error s => .next s
    | .ok (bs, s) => go (launchOf bs) s

/-- The release at sys of an acceptance (R474): what waits, or the state behind it. -/
def releaseSys (s : State) (t : Team) (go : State → Out) : Out :=
  if s.readsOut t.uid || s.sigsOut t.uid then waitHere s t .stall else go (s.drainCore t.place.die t.place.core)

/-- R471. -/
def execQpost (fs : Bool) (q : BitVec 8) (r : RecRef) (s : State) : Out :=
  let i := Instr.qpost fs q r
  longOp s fs fun t =>
    let bad := match s.queueOf t q.toNat with
      | some (_, x) => if x.enable then none else some (t.uniFault codePerm 0xFFF)
      | none => some (t.uniFault codePerm 0xFFF)
    withLaunch s t i fs r bad fun l s =>
      match s.queueOf t q.toNat with
      | none => .next (takeFault s t i (t.uniFault codePerm 0xFFF))
      | some (p, x) =>
        if 16 ≤ x.recs.length then waitHere s t .full
        else releaseSys s t fun s => finish (acceptRecord s p.id q.toNat l) t.spent i (.ok t.spent)

/-- The shape that a pair of registers gives (R472). -/
def reshape (l : Launch) (sh : DWord) : Launch :=
  let x := sh.toNat
  { l with tpc := natField x 0 8, cpq := natField x 8 8, qpd := natField x 16 8, dies := natField x 24 8, pkgs := natField x 32 8 }

/-- R472. -/
def execSpawn (fs : Bool) (d : Dst) (r : RecRef) (shape : Src) (s : State) : Out :=
  let i := Instr.spawn fs d r shape
  longOp s fs fun t =>
    let sh := val64 s t true 0 false shape
    if shape != .none && sh >>> 40 != 0 then .next (takeFault s t i illop)
    else
      let bad := if (s.partOf t).isSome then none else some (t.uniFault codePerm 0xFFF)
      withLaunch s t i fs r bad fun l s =>
        match s.partOf t with
        | none => .next (takeFault s t i (t.uniFault codePerm 0xFFF))
        | some p =>
          let die := t.place.die
          if 64 ≤ (p.spawns.filter fun x => x.die == die && x.gen.isNone).length then waitHere s t .full
          else releaseSys s t fun s =>
            let id := newGridId s
            let l := if shape == .none then l else reshape l sh
            let s := s.updPart p.id fun p => { p with spawns := p.spawns ++ [⟨die, t.ctx, id, l, none⟩] }
            finish s t.spent i (.ok (t.spent.writeUni d [id]))

/-! ### qwait (R473): not a blocking point -/

def execQwaitDone (d : Dst) (n : Src) (q : BitVec 8) (s : State) : Out :=
  let i := Instr.qwaitDone d n q
  onTeam s fun t =>
    match s.queueOf t q.toNat with
    | none => .next (takeFault s t i (t.uniFault codePerm 0xFFF))
    | some (p, x) =>
      if (x.done - val32 s t true 0 n).toNat < 2 ^ 31 then finish s t i (.ok (t.acquireAll.writeUni d [x.done]))
      else waitHere s t (.queue p.id q.toNat)

def execQwaitSpace (d : Dst) (q : BitVec 8) (s : State) : Out :=
  let i := Instr.qwaitSpace d q
  onTeam s fun t =>
    match s.queueOf t q.toNat with
    | none => .next (takeFault s t i (t.uniFault codePerm 0xFFF))
    | some (p, x) =>
      if x.recs.length < 16 then finish s t i (.ok (t.writeUni d [BitVec.ofNat 32 (16 - x.recs.length)]))
      else waitHere s t (.queue p.id q.toNat)

/-- QWAIT_WAKE: the instruction runs again. -/
def execQwaitWake (uid : Nat) (s : State) : Out :=
  match s.team? uid with
  | some t =>
    match t.status with
    | .waiting (.queue ..) => .next (if t.leave == .forced then s else s.setTeam { t with status := .running })
    | _ => .next s
  | none => .next s

/-! ### Completion counter and signal (01 R30) -/

/-- Increments a grid's completion counter; none while its page cannot be reached (DEDUCED, log entry 60). -/
def countGrid (s : State) (ctx : Word) (l : Launch) : Option State :=
  match l.cntva == 0, s.ctx? ctx with
  | true, _ => some s
  | false, none => some s
  | false, some c =>
    match translate s c (4 * s.boot.pkg) 0 l.cntva .atomic with
    | .error _ => none
    | .ok (x, s) =>
      let v := s.mem.readLE x.pa 4
      let cs : List Host.Cell := cellsAt x.pa (leBytes 4 ((v + 1) % 2 ^ 32))
      some ((s.spoil none (cs.map (·.1))).writeMem (s.storeCells cs))

/-- Raises a grid's signal. -/
def signalGrid (s : State) (l : Launch) : State :=
  if l.sigvec == 0xFFFF then s else { s with mgmt := { s.mgmt with msix := s.mgmt.msix ++ [l.sigvec] } }

/-- The counter and the signal of a launch that is over; a generator's are ignored (14 R366). -/
def finishLaunch (s : State) (ctx : Word) (l : Launch) (gen : Bool) : Option State :=
  if gen then some s else (countGrid s ctx l).map fun s => signalGrid s l

/-! ### Candidates (R467, R468) -/

/-- A record that the firmware may take. -/
structure Cand where
  src : QSrc
  ctx : Word
  id  : Word
  lr  : Launch
  gen : Option GenKey
  cap : Nat
  deriving DecidableEq, Repr

/-- Whether a context's grids may be bound: it is there, not halted and not in its image, and the package has its die 0
(11 R296). -/
def ctxBinds (s : State) (ctx : Word) : Bool :=
  !s.coh.die0Dead && ((s.ctx? ctx).map fun c => c.halted.isNone && !c.sliceEnd).getD false && !s.saved.any (·.ctx == ctx)

/-- The head of a queue; in an ordered one only once the previous grid has completed. -/
def queueHead (s : State) (p : Part) (q : Nat) : Option Cand :=
  match p.queue q with
  | none => none
  | some x =>
    match x.recs with
    | [] => none
    | (id, l) :: _ =>
      if (x.ordered && x.live.isSome) || !ctxBinds s x.ctx then none else some ⟨.queue q, x.ctx, id, l, none, x.priocap⟩

/-- The heads of a die's spawn queue and of the generators its Sower has posted. -/
def spawnHeads (s : State) (p : Part) (die : Nat) : List Cand :=
  let xs := p.spawns.filter fun x => x.die == die && ctxBinds s x.ctx
  ((xs.find? (·.gen.isSome)).toList ++ (xs.find? (·.gen.isNone)).toList).map fun x => ⟨.spawn die, x.ctx, x.id, x.lr, x.gen, 3⟩

/-- Whether the running slice of a partition gives graphics precedence. -/
def Part.gfxSlice (p : Part) : Bool := (p.sliceNo + 1) * p.gshare.toNat / 65536 > p.sliceNo * p.gshare.toNat / 65536

/-- The rank of a candidate: its class, then the precedence of its kind; a smaller one is taken first. -/
def Cand.rank (p : Part) (c : Cand) : Nat := (3 - c.lr.prio) * 2 + b2n (c.lr.gfx != p.gfxSlice)

/-- Puts a candidate behind those of its rank. -/
def insertCand (p : Part) (c : Cand) : List Cand → List Cand
  | [] => [c]
  | x :: r => if c.rank p < x.rank p then c :: x :: r else x :: insertCand p c r

/-- Candidates in the order in which the firmware takes them. -/
def candidates (s : State) (p : Part) : List Cand :=
  let spawns := ((List.range 4).map fun k => spawnHeads s p (s.homeDie k)).flatten
  let queues := (List.range 64).filterMap fun k => queueHead s p ((p.next + k) % 64)
  (spawns ++ queues).foldl (fun acc c => insertCand p c acc) []

/-! ### Placement (R468, 01 R15) -/

/-- Whether a core takes more teams of a record (01 R15). -/
def coreFits (s : State) (l : Launch) (n die core : Nat) : Bool :=
  let ts := s.teams.filter fun t => t.place.die == die && t.place.core == core
  let spill (t : Team) : Nat := t.spillD * (32 + t.nlanes / 2)
  ts.length + n ≤ 32 && (ts.map fun t => t.nlanes * t.nvregs).sum + n * l.lanes * l.vregs ≤ 131072 &&
    (ts.map fun t => t.scratchLen + spill t).sum + n * (l.scratch + l.spillBytes) ≤ 262144

/-- Grids with teams or tasks on a die; tasks in an image are not there. -/
def gridsOn (s : State) (die : Nat) : List Word :=
  ((s.teams.filter fun t => t.place.die == die).map (·.grid)) ++
    ((s.mat.tasks.filter fun x => x.die == die && !x.freed && !x.away).map (·.grid))

/-- Whether a die may take a grid (R321): no other grid is there for a weight phase, and no weight phase of another grid has
begun there that has not completed, be it saved meanwhile. -/
def dieTakes (s : State) (l : Launch) (grid : Word) (die : Nat) : Bool :=
  (!l.wphase || (gridsOn s die).all (· == grid)) &&
    !s.grids.any fun g => g.id != grid && g.lr.wphase && !g.complete && g.dies.contains die

/-- The cores of a quad that fit. -/
def quadFit (s : State) (p : Part) (l : Launch) (die quad : Nat) : List Nat :=
  let mask := (p.cores[dieNo die]?).getD 0
  ((List.range 4).map (4 * quad + ·)).filter fun k => mask.getLsbD k && coreFits s l l.tpc die k

/-- A die's part of a placement from a first quad on. -/
def diePlace (s : State) (p : Part) (l : Launch) (start die : Nat) : Option (List (Nat × Nat)) :=
  let qs := ((List.range 16).map fun k => quadFit s p l die ((start + k) % 16)).filter fun cs => l.cpq ≤ cs.length
  if l.qpd ≤ qs.length then some (((qs.take l.qpd).map (·.take l.cpq)).flatten.map fun k => (die, k)) else none

/-- Cores of this package for a record, if it fits (DESIGN CHOICE, log entry 61). -/
def placeFor (s : State) (p : Part) (l : Launch) (grid : Word) : Option (List (Nat × Nat)) :=
  let start := Config.freeNat s.ticks 510
  let dies := (List.range 4).map fun k => s.homeDie (start + k)
  let ps := (dies.filter (dieTakes s l grid)).filterMap (diePlace s p l start)
  if l.dies ≤ ps.length then some (ps.take l.dies).flatten else none

/-- Whether the package's barrier networks take one grid more: each carries 32, and a grid whose context is in its image is in none
(R468, 10 R262). -/
def netsTake (s : State) : Bool := (s.grids.filter fun g => !g.complete && !g.cores.isEmpty).length < 32

/-- Cores for one grid more. -/
def findPlace (s : State) (p : Part) (l : Launch) (grid : Word) : Option (List (Nat × Nat)) :=
  if netsTake s then placeFor s p l grid else none

/-- Whether two numbers fall in one group of a size. -/
def sameGroup (k i j : Nat) : Bool := i / k == j / k

/-- Whether a placement gives each grid-relative index its cores: groups of one quad, and of one die, all different. -/
def placeLegal (s : State) (p : Part) (l : Launch) (grid : Word) (cs : List (Nat × Nat)) : Bool :=
  let n := l.dies * l.qpd * l.cpq
  let at_ (i : Nat) : Nat × Nat := (cs[i]?).getD (0, 0)
  cs.length == n && netsTake s &&
    (cs.all fun c => ((p.cores[dieNo c.1]?).getD 0).getLsbD c.2 && c.1 / 4 == s.boot.pkg && dieTakes s l grid c.1 &&
      coreFits s l l.tpc c.1 c.2) &&
    (List.range n).all fun i => (List.range n).all fun j =>
      i == j || (at_ i != at_ j && ((at_ i).1 == (at_ j).1) == sameGroup (l.qpd * l.cpq) i j &&
        (decide ((at_ i).1 = (at_ j).1 ∧ (at_ i).2 / 4 = (at_ j).2 / 4)) == sameGroup l.cpq i j)

/-- Whether a team of a grid has still to be bound. -/
def Grid.unbound (g : Grid) (n : Nat) : Bool := !g.bound.contains (BitVec.ofNat 32 n) && !g.retired.contains (BitVec.ofNat 32 n)

/-- The teams that this package binds, those of its own cores: the first of the grid (R468; DESIGN CHOICE, log entry 61). -/
def Grid.ownTeams (g : Grid) : List Nat := List.range (Nat.min g.nteams (g.cores.length * g.lr.tpc))

/-- Whether the firmware still binds teams of some grid. -/
def bindsPending (s : State) : Bool := s.grids.any fun g => !g.released && !g.complete && g.ownTeams.any g.unbound

def Cand.refused (s : State) (p : Part) (c : Cand) : Nat := c.lr.refusal p.id c.cap s.boot.grant

/-- The candidate that is taken next: the first that fits, or that is refused and whose counter can be reached. -/
def nextCand (s : State) (p : Part) : Option Cand :=
  (candidates s p).find? fun c =>
    if c.refused s p != 0 then (finishLaunch s c.ctx c.lr c.gen.isSome).isSome else (findPlace s p c.lr c.id).isSome

/-- Takes a record from its queue. -/
def takeCand (s : State) (p : Part) (c : Cand) (live : Bool) : State :=
  match c.src with
  | .queue q =>
    (s.updQueue p.id q fun x => { x with
      recs := x.recs.drop 1, live := if live then some c.id else x.live, done := if live then x.done else x.done + 1 }).updPart
      p.id fun p => { p with next := (q + 1) % 64 }
  | .spawn _ => s.updPart p.id fun p => { p with spawns := p.spawns.filter (·.id != c.id) }

/-- A refused launch (R464). -/
def refuse (s : State) (p : Part) (c : Cand) (n : Nat) : Option State :=
  (finishLaunch s c.ctx c.lr c.gen.isSome).map fun s =>
    let r := ctxRecord s c.ctx c.id codeIllop 0xF1 (BitVec.ofNat 32 n)
    takeCand (s.queueRecord (.ctx c.ctx) r).2 p c false

/-- The grid that a record makes. -/
def newGrid (p : Part) (c : Cand) (cores : List (Nat × Nat)) : Grid :=
  { id := c.id, ctx := c.ctx, part := p.id, lr := c.lr
    queue := match c.src with
      | .queue q => some q
      | .spawn _ => none
    nteams := c.lr.teams, bound := [], retired := [], released := false, complete := false
    gen := c.gen.map fun k => (k, match c.src with
      | .spawn d => d
      | .queue _ => 0)
    cores, dies := (cores.map (·.1)).eraseDups }

/-- SCHEDULE_LAUNCH: the firmware takes the next candidate, if it stands at this source, and binds it to the cores given;
a record with a fault is refused. The handle table may have been written before the grid (08 R190). -/
def execScheduleLaunch (part : Nat) (src : QSrc) (cores : List (Nat × Nat)) (s : State) : Out :=
  match s.part? part with
  | none => .next s
  | some p =>
    match nextCand s p with
    | none => .next s
    | some c =>
      if c.src != src then .next s
      else match c.refused s p with
        | 0 =>
          if bindsPending s || !placeLegal s p c.lr c.id cores then .next s
          else
            let g := newGrid p c cores
            let s := dropHandles (takeCand s p c true) c.ctx
            .next { s with grids := (s.grids.filter (·.id != c.id)) ++ [g] }
        | n => .next ((refuse s p c n).getD s)

/-! ### Binding (R469, R451) -/

/-- Whether a slot is free and the core takes one more team of a size (01 R15). -/
def slotTakes (s : State) (l : Launch) (die core slot : Nat) : Bool :=
  slot < 32 && core < 64 && coreFits s l 1 die core &&
    !s.teams.any fun t => t.place.die == die && t.place.core == core && t.place.slot == slot

/-- A saved team as it starts again at a place (16 R440, R441, R445): it replays what it waited for. -/
def Team.restored (t : Team) (age : Nat) (place : Place) (clk : DWord) : Team :=
  { t with
    place, age, passed := 0, leave := .stay
    since := t.since.map fun e => clk - e
    status := .running }

/-- The saved team of a context that a bind record names, once a restore has checked its image (R451). -/
def savedTeam (s : State) (ctx grid team : Word) : Option Team :=
  match s.saved.find? (·.ctx == ctx) with
  | none => none
  | some v => if v.halted || !v.complete || !v.checked || s.coh.die0Dead then none else v.teams.find? fun t => t.grid == grid && t.teamNo == team

/-- Whether nothing of an image is left to restore: its teams are placed and its grids have cores. -/
def State.spent (s : State) (v : Saved) : Bool :=
  !v.halted && v.complete && v.teams.isEmpty && s.grids.all fun g => g.ctx != v.ctx || g.complete || !g.cores.isEmpty

def dropEmptyImages (s : State) : State := { s with saved := s.saved.filter fun v => !s.spent v }

/-- Places a saved team. -/
def bindSaved (s : State) (t : Team) (r : BindRec) (place : Place) : State :=
  dropEmptyImages { s with
    teams := s.teams ++ [{ t.restored s.nextAge place s.clk with slotRec := r }], nextAge := s.nextAge + 1
    saved := s.saved.map fun v => if v.ctx == t.ctx then { v with teams := v.teams.filter (·.uid != t.uid) } else v }

/-- The 32 bytes of a record of a slot table (R469). -/
def BindRec.bytes (r : BindRec) : List Byte :=
  let b (n : Nat) : Byte := BitVec.ofNat 8 n
  leBytes 4 r.grid.toNat ++ leBytes 4 r.team.toNat ++ [b r.a, b r.b, b r.d, b r.e, b r.g, b r.slot, b r.core,
    b (b2n r.valid + 2 * b2n r.restore)] ++ leBytes 4 r.ctx.toNat ++ leBytes 4 0 ++ leBytes 8 r.lrec.toNat

/-- The slot table of a die: 2,048 records, core by core; that of a free slot is not VALID. -/
def slotTable (s : State) (die : Nat) : List (List Byte) :=
  (List.range 64).flatMap fun core => (List.range 32).map fun slot =>
    match s.teams.find? fun t => t.place == ⟨die, core, slot⟩ with
    | some t => BindRec.bytes t.slotRec
    | none => List.replicate 32 0

/-- BIND_RECORD: the dispatch hardware places a team, or refuses the bind; a record that is not VALID binds none, and nothing binds
once die 0 is dead (11 R296). -/
def execBindRecord (r : BindRec) (s : State) : Out :=
  match s.grid? r.grid with
  | none => .next s
  | some g =>
    let fresh := r.valid && !s.coh.die0Dead && !g.released && g.ctx == r.ctx && r.team.toNat < g.nteams && !g.bound.contains r.team && !g.retired.contains r.team
    if !fresh || !slotTakes s g.lr r.die r.core r.slot then .next s
    else
      let bound (s : State) : State := s.updGrid g.id fun g => { g with bound := r.team :: g.bound }
      if r.restore then
        match savedTeam s r.ctx r.grid r.team with
        | some t => .next (bindSaved (bound s) t r ⟨r.die, r.core, r.slot⟩)
        | none => .next s
      else
        let s := bound s
        let t := freshTeam s.nextUid s.nextAge g.ctx g.id r.team ⟨r.a, r.b, r.d, r.e, r.g⟩ ⟨r.die, r.core, r.slot⟩ g.lr g.gen.isSome
        .next { s with teams := s.teams ++ [{ t with slotRec := r }], nextUid := s.nextUid + 1, nextAge := s.nextAge + 1 }

/-- The lowest free slot of a core. -/
def freeSlotOf (s : State) (die core : Nat) : Nat :=
  ((List.range 32).find? fun k =>
    !s.teams.any fun t => t.place.die == die && t.place.core == core && t.place.slot == k).getD 32

/-- The bind record of a team by the firmware's choice (01 R29). -/
def bindOfTeam (s : State) (g : Grid) (n : Nat) : BindRec :=
  let l := g.lr
  let (die, core) := (g.cores[n / Nat.max 1 l.tpc]?).getD (0, 0)
  { grid := g.id, team := BitVec.ofNat 32 n, a := n % l.tpc, b := n / l.tpc % l.cpq, d := n / (l.tpc * l.cpq) % l.qpd,
    e := n / (l.tpc * l.cpq * l.qpd) % l.dies, g := n / (l.tpc * l.cpq * l.qpd * l.dies), slot := freeSlotOf s die core, core, die,
    lrec := BitVec.ofNat 64 (Config.freeNat s.ticks 511), restore := (savedTeam s g.ctx g.id (BitVec.ofNat 32 n)).isSome, ctx := g.ctx }

/-- The bind record that is due for a grid. -/
def dueBind (s : State) (g : Grid) : Option BindRec :=
  if g.released || g.complete then none else (g.ownTeams.find? g.unbound).map (bindOfTeam s g)

/-- GRID_RELEASE (01 R30): every team that has not retired holds a slot, on every package (R468). -/
def execGridRelease (grid : Word) (s : State) : Out :=
  match s.grid? grid with
  | some g =>
    if g.released || g.complete || (List.range g.nteams).any g.unbound then .next s
    else .next (s.updGrid grid fun g => { g with released := true })
  | none => .next s

/-! ### The end of a grid (01 R30) -/

/-- Whether every team has retired and nothing is charged to the grid any more, no fault of a command of a team that has left
with it. -/
def gridOver (s : State) (g : Grid) : Bool :=
  !g.complete && g.retired.length == g.nteams && !s.ops.any (·.grid == g.id) &&
    !s.ghosts.any (·.grid == g.id)

/-- GRID_COMPLETION: the counter, the signal, and the queue's DONE. -/
def execGridCompletion (grid : Word) (s : State) : Out :=
  match s.grid? grid with
  | some g =>
    if !gridOver s g then .next s
    else match finishLaunch s g.ctx g.lr g.gen.isSome with
      | none => .next s
      | some s =>
        let s := s.updGrid grid fun g => { g with complete := true }
        let s := { s with bars := s.bars.filter (·.key.grid != grid) }
        match g.queue with
        | some q =>
          .next (s.updQueue g.part q fun x =>
            { x with done := x.done + 1, live := if x.live == some grid then none else x.live })
        | none => .next s
  | none => .next s

/-! ### Host rings (R478, R479) -/

/-- HOST_RING_ENTRY: the front end of a bound ring takes its next entry while the queue has room; a ring that holds more
entries than it has slots disables the queue. The front end is die 0's (11 R296). -/
def execHostRingEntry (part q : Nat) (s : State) : Out :=
  match (s.part? part).bind (·.queue q) with
  | none => .next s
  | some x =>
    if s.coh.die0Dead || x.ring == 0 || !x.enable || 16 ≤ x.recs.length then .next s
    else
      let tail := BitVec.ofNat 32 (s.mem.readLE x.ring 4)
      let n := s.mem.readLE (x.ring + 4) 1
      let head := BitVec.ofNat 32 (s.mem.readLE (x.ring + 128) 4)
      let held := (tail - head).toNat
      if 16 < n || held == 0 then .next s
      else if 2 ^ n < held then .next (s.updQueue part q fun x => { x with enable := false })
      else
        let l := launchOf (s.mem.readBytes (x.ring + 256 + head.toNat % 2 ^ n * 256) 256)
        .next ((acceptRecord s part q l).writeMem (cellsAt (x.ring + 128) (leBytes 4 (head + 1).toNat)))

end Sys2Proof.Machine
end

