-- ==== Sys2Proof/Machine/Fill.lean ====
section
/-! DEFINITION. Fill and Shading Cache instructions with their events (14 R359 to R391). -/

namespace Sys2Proof.Machine

/-! ### prange (R359, R373, R384) -/

/-- A handle word operand. -/
def hrefOf : Src → HRef
  | .s n => .word n
  | _ => .idx 0xFFF

/-- A handle word that names a PROCEDURAL handle. -/
def withProc (s : State) (t : Team) (i : Instr) (fs : Bool) (hw : Src) (go : BitVec 12 → HEnt → State → Out) : Out :=
  withHandle s t i (some fs) true t.active (hrefOf hw) fun ix e s =>
    if e.kind != kProcedural then .next (takeFault s t i (handleFault codePerm true t.active (ix.setWidth 32)))
    else go ix e s

/-- Whether a record makes one team. -/
def Launch.oneTeam (l : Launch) : Bool := l.tpc == 1 && l.cpq == 1 && l.qpd == 1 && l.dies == 1 && l.pkgs == 1

/-- The range of a record on a handle; none when R384 refuses it. -/
def rangeOf (ctx : Word) (e : HEnt) (bs : List Byte) (lr : Launch) : Option Range :=
  let r := leNat bs
  let f (lo w : Nat) : Nat := natField r lo w
  let blk := (f 77 6 + 1) * 2 ^ 15
  if f 128 384 != 0 || f 90 6 != 0 || f 64 13 != 0 || e.len % blk != 0 || e.base.toNat % blk != 0 || f 96 32 == 0 ||
      2 ^ 20 < f 96 32 || !lr.oneTeam then none
  else
    some { ctx, n := e.aux, base := e.base, len := e.len, blk, budget := f 96 32, maxgen := f 84 6 + 1,
           failEmpty := f 83 1 == 1, lr }

/-- Reads the launch record that a range or layer record names, once: every generator of the registration starts from it as it
was then (DESIGN CHOICE, log entry 110). -/
def withGenRecord (s : State) (t : Team) (i : Instr) (fs : Bool) (bs : List Byte) (go : Launch → State → Out) : Out :=
  match launchAt s t i (some fs) (BitVec.ofNat 64 (natField (leNat bs) 0 64)) with
  | .error s => .next s
  | .ok (l, s) => go l s

/-- R384 `.add`. -/
def execPrangeAdd (fs : Bool) (r : RecRef) (hw : Src) (s : State) : Out :=
  let i := Instr.prangeAdd fs r hw
  longOp s fs fun t =>
    withProc s t i fs hw fun _ e s =>
      withRecord s t i (some fs) .ld r 64 8 fun bs s =>
        withGenRecord s t i fs bs fun l s =>
          match rangeOf t.ctx e bs l with
          | none => .next (takeFault s t i illop)
          | some x =>
            if s.fill.ranges.any fun y => y.ctx == t.ctx && (y.n == x.n || rangesMeet y.base y.len x.base x.len) then
              .next (takeFault s t i illop)
            else .next (issueOp (s.updFill fun f => { f with ranges := f.ranges ++ [x] }) t i fs (.prange .add))

/-- A range that must be registered. -/
def withRange (s : State) (t : Team) (i : Instr) (fs : Bool) (hw : Src) (go : Range → State → Out) : Out :=
  withProc s t i fs hw fun ix e s =>
    match s.range? t.ctx e.aux with
    | some r => go r s
    | none => .next (takeFault s t i (handleFault codeStale true t.active (ix.setWidth 32)))

/-- R384 `.rm`. -/
def execPrangeRm (fs : Bool) (hw : Src) (s : State) : Out :=
  let i := Instr.prangeRm fs hw
  longOp s fs fun t => withRange s t i fs hw fun r s => .next (issueOp s t i fs (.prange (.rm r.n)))

/-- R384 `.clr`. -/
def execPrangeClr (fs : Bool) (hw : Src) (s : State) : Out :=
  let i := Instr.prangeClr fs hw
  longOp s fs fun t => withRange s t i fs hw fun r s => .next (issueOp s t i fs (.prange (.clr r.n)))

/-- The layer of a record; none when R384 refuses it. -/
def layerOf (ctx : Word) (n : Nat) (bs : List Byte) (lr : Launch) : Option Layer :=
  let r := leNat bs
  let f (lo w : Nat) : Nat := natField r lo w
  if f 128 384 != 0 || f 90 22 != 0 || f 64 18 != 0 || 15 < n || !lr.oneTeam then none
  else
    some { ctx, n, tag := BitVec.ofNat 16 (f 112 16), maxgen := f 84 6 + 1, staleMiss := f 83 1 == 1, big := f 82 1 == 1, lr }

/-- R384 `.layer`. -/
def execPrangeLayer (fs : Bool) (r : RecRef) (n : Src) (s : State) : Out :=
  let i := Instr.prangeLayer fs r n
  longOp s fs fun t =>
    withRecord s t i (some fs) .ld r 64 8 fun bs s =>
      withGenRecord s t i fs bs fun l s =>
        match layerOf t.ctx (val32 s t true 0 n).toNat bs l with
        | none => .next (takeFault s t i illop)
        | some x =>
          if x.tag != 0 && !(s.ctxOf t).shares x.tag 1 then .next (takeFault s t i (t.uniFault codeShare 0xFFF))
          else .next (issueOp s t i fs (.prange (.layer x)))

/-- Blocks of a range. -/
def blocksIn (s : State) (ctx : Word) (n : Nat) : List Block := s.fill.blocks.filter fun x => x.ctx == ctx && x.n == n

/-- Whether an item of a layer is live. -/
def layerItems (s : State) (ctx : Word) (n : Nat) : Bool :=
  s.fill.items.any fun i => i.ctx == ctx && (match i.what with
    | .tile m .. => m == n
    | .block .. => false)

/-- PRANGE_COMPLETE: once its wait is over, all four dies hold the change and the flag clears. -/
def execPrangeComplete (op : Nat) (s : State) : Out :=
  match s.op? op with
  | some o =>
    match o.kind with
    | .prange .add => .next (completeOp s o)
    | .prange (.rm n) =>
      if (blocksIn s o.ctx n).any (·.st == .filling) then .next s
      else
        let s := (blocksIn s o.ctx n).foldl emptyBlock s
        .next (completeOp (s.updFill fun f => { f with ranges := f.ranges.filter fun r => !(r.ctx == o.ctx && r.n == n) }) o)
    | .prange (.clr n) =>
      let bad (x : Block) : Bool := match x.st with
        | .faulted _ => true
        | _ => false
      .next (completeOp (((blocksIn s o.ctx n).filter bad).foldl emptyBlock s) o)
    | .prange (.layer l) =>
      if layerItems s o.ctx l.n then .next s
      else
        .next (completeOp (s.updFill fun f => { f with
          layers := f.layers.filter (fun x => !(x.ctx == o.ctx && x.n == l.n)) ++ [l] }) o)
    | _ => .next s
  | none => .next s

/-! ### Generators (R366, R368) -/

/-- Generator teams of a die's Sower for a key: posted, or of a grid that has not completed. -/
def genTeams (s : State) (die : Nat) (k : GenKey) : Nat :=
  ((s.parts.map fun p => (p.spawns.filter fun x => x.die == die && x.gen == some k).length).sum) +
    (s.grids.filter fun g => !g.complete && g.gen == some (k, die)).length

/-- Whether an item belongs to a key. -/
def Item.serves (i : Item) (k : GenKey) : Bool :=
  match k, i.what with
  | .range c n, .block m _ => i.ctx == c && m == n
  | .layer c n, .tile m _ _ _ _ _ => i.ctx == c && m == n
  | _, _ => false

/-- The context, generator record and limit of a key. -/
def genInfo (s : State) : GenKey → Option (Word × Launch × Nat)
  | .range c n => (s.range? c n).map fun r => (c, r.lr, r.maxgen)
  | .layer c n => (s.layer? c n).map fun l => (c, l.lr, l.maxgen)

/-- Whether a die has an unclaimed item of a key. -/
def unclaimed (s : State) (die : Nat) (k : GenKey) : Bool :=
  s.fill.items.any fun i => i.die == die && i.serves k && i.holder.isNone && !i.starved

/-- GENERATOR_START: the Sower posts one more generator team of one team's grid. -/
def execGeneratorStart (die : Nat) (k : GenKey) (s : State) : Out :=
  match genInfo s k with
  | none => .next s
  | some (ctx, lr, maxgen) =>
    match (s.ctx? ctx).bind fun c => s.part? c.part with
    | none => .next s
    | some p =>
      if !unclaimed s die k || maxgen ≤ genTeams s die k || !ctxBinds s ctx then .next s
      else .next (s.updPart p.id fun p => { p with spawns := p.spawns ++ [⟨die, ctx, newGridId s, lr, some k⟩] })

/-- GENERATOR_FAILURE: the items of a generator team that has faulted fail. -/
def execGeneratorFailure (uid : Nat) (s : State) : Out :=
  match s.team? uid with
  | some t =>
    match t.status with
    | .stopping _ | .stopped _ _ => .next (failHeld s uid 0xFFFF)
    | _ => .next s
  | none => .next s

/-! ### Frames (R364, R365) -/

/-- FRAME_POOL_GRANT: a waiting item takes its frames once enough are free, in the order of the items. -/
def execFramePoolGrant (die item : Nat) (s : State) : Out :=
  match s.fill.items.find? fun i => i.die == die && i.ix == item && i.starved with
  | none => .next s
  | some i =>
    match i.what with
    | .tile .. => .next s
    | .block n b =>
      match s.range? i.ctx n, s.ctx? i.ctx with
      | some r, some c =>
        if behindItem s i.ctx i.order then .next s
        else
          let (fed, s) := takeFrames s r c b
          .next (if fed then s.fed die item else s)
      | _, _ => .next s

/-! ### gtake (R380, R385) -/

/-- The item id of R380. -/
def Item.id (i : Item) : Nat := i.die % 4 * 2 ^ 22 + i.ix

/-- The eight words of an item. -/
def itemWords (s : State) (i : Item) : List Word :=
  let w (x : Nat) : Word := BitVec.ofNat 32 x
  let pair (x : Nat) : List Word := [w x, w (x / 2 ^ 32)]
  match i.what with
  | .block n b =>
    let blk := ((s.range? i.ctx n).map (·.blk)).getD 0
    [w (2 ^ 28 + i.depth * 2 ^ 24 + i.id), w n] ++ pair (b * blk) ++ [0, 0, w blk, 0]
  | .tile l k shared owner heap rev =>
    [w (2 * 2 ^ 28 + i.depth * 2 ^ 24 + i.id), w l] ++ pair k.toNat ++ pair (heap * 1024) ++
      [rev.setWidth 32, w (b2n shared * 2 ^ 16 + owner.toNat)]

/-- The oldest item of a list. -/
def oldestItem (is : List Item) : Option Item :=
  is.foldl (fun a i => match a with
    | some j => if i.order < j.order then some i else a
    | none => some i) none

/-- The item that a generator team claims: of the team's die first, then the oldest. -/
def nextItem (s : State) (t : Team) (k : GenKey) : Option Item :=
  let is := s.fill.items.filter fun i => i.serves k && i.holder.isNone && !i.starved
  (oldestItem (is.filter (·.die == t.place.die))).orElse fun _ => oldestItem is

/-- R385. -/
def execGtake (k : BitVec 6) (s : State) : Out :=
  let i := Instr.gtake k
  onTeam s fun t =>
    match t.ctl.genr, ((s.grid? t.grid).bind (·.gen)).map (·.1) with
    | true, some key =>
      match nextItem s t key with
      | none => finish s t i (.ok (t.setSs k.toNat (List.replicate 8 0)))
      | some x =>
        let s := s.updFill fun f => { f with
          items := f.items.map fun y => if y.die == x.die && y.ix == x.ix then { y with holder := some t.uid } else y }
        finish s t i (.ok (t.setSs k.toNat (itemWords s x)))
    | _, _ => .next (takeFault s t i (t.uniFault codePerm 0xFFF))

/-! ### Commits (R369, R386, R389) -/

/-- The item that an id names, if the team holds it and no commit of it is under way. -/
def heldItem (s : State) (t : Team) (w : Word) : Option Item :=
  (s.fill.items.find? fun i =>
    i.holder == some t.uid && i.die == s.homeDie (natField w.toNat 22 2) && i.ix == natField w.toNat 0 22).filter fun i =>
    !s.ops.any fun o => match o.kind with
      | .fillCommit w' _ _ _ => natField w'.toNat 0 24 == i.id
      | _ => false

/-- Whether a shared item's context has lost the right to write under its tag. -/
def tileDenied (c : Ctx) (i : Item) : Bool :=
  match i.what with
  | .tile _ _ shared owner _ _ => shared && !c.shares owner 2
  | .block .. => false

def Item.isTile (i : Item) : Bool :=
  match i.what with
  | .tile .. => true
  | .block .. => false

/-- R386. -/
def execPfill (fs : Bool) (item : Src) (s : State) : Out :=
  let i := Instr.pfill fs item
  longOp s fs fun t =>
    let w := val32 s t true 0 item
    match heldItem s t w with
    | none => .next (takeFault s t i (t.uniFault codePerm 0xFFF))
    | some x =>
      if tileDenied (s.ctxOf t) x then .next (takeFault s t i (t.uniFault codeShare 0xFFF))
      else .next (issueOp s t i fs (.fillCommit w x.isTile true 0))

/-- R386. -/
def execPfail (fs : Bool) (item st : Src) (s : State) : Out :=
  let i := Instr.pfail fs item st
  longOp s fs fun t =>
    let w := val32 s t true 0 item
    let code : BitVec 16 := (val32 s t true 0 st).setWidth 16
    match heldItem s t w with
    | none => .next (takeFault s t i (t.uniFault codePerm 0xFFF))
    | some x =>
      if 0xFFF0 ≤ code.toNat then .next (takeFault s t i illop)
      else .next (issueOp s t i fs (.fillCommit w x.isTile false code))

/-- R389. -/
def execScfill (fs : Bool) (item : Src) (s : State) : Out :=
  let i := Instr.scfill fs item
  longOp s fs fun t =>
    let w := val32 s t true 0 item
    match heldItem s t w with
    | none => .next (takeFault s t i (t.uniFault codePerm 0xFFF))
    | some x =>
      if !x.isTile then .next (takeFault s t i (t.uniFault codePerm 0xFFF))
      else if tileDenied (s.ctxOf t) x then .next (takeFault s t i (t.uniFault codeShare 0xFFF))
      else .next (issueOp s t i fs (.fillCommit w true true 0))

/-- Whether earlier accesses or engine commands of a team keep a commit waiting (R369); stores in the queue are performed
by the commit itself. -/
def commitWaits (s : State) (o : Op) : Bool :=
  s.ops.any fun p => p.uid == o.uid && decide (p.id < o.id) && (match p.kind with
    | .load .. | .atomic .. | .sig .. => true
    | k => k.isEngine)

/-- SHADING_COMMIT: after its waits a commit changes the state and releases the item. -/
def execShadingCommit (op : Nat) (s : State) : Out :=
  match s.op? op with
  | some o =>
    match o.kind with
    | .fillCommit w _ ok st =>
      if commitWaits s o then .next s
      else
        let s := s.drainCore o.die o.core
        match s.fill.items.find? fun i => i.holder == some o.uid && i.id == natField w.toNat 0 24 with
        | none => .next (completeOp s o)
        | some i =>
          let c := s.ctxOf (opTeam s o)
          .next (completeOp (if ok then commitItem s c i else failItem s i codeFillGen st false) o)
    | _ => .next s
  | none => .next s

/-! ### Lookups (R374, R375, R387, R388) -/

/-- The lanes of a lookup with their keys, or the fault of a key without a layer record. -/
def keyLanes (s : State) (t : Team) (m : Mask) (a : Src) : List (Nat × DWord) :=
  (m.lanes t.nlanes).map fun L => (L, val64 s t false L false a)

/-- The lanes whose layer has no record. -/
def noLayer (s : State) (t : Team) (ks : List (Nat × DWord)) : List Nat :=
  (ks.filter fun k => (s.layer? t.ctx (keyLayer k.2)).isNone).map (·.1)

/-- How the lookups of an instruction go: answers by lane, the lanes that are held, or a chain too deep. -/
inductive Looked where
  | ok (as : List (Nat × List Word)) (left : List Nat) (s : State)
  | deep (s : State)

/-- Whether a key's entry, in the space of a lookup, is in flight by an item of the team's own chain (R367). -/
def ownEntry (s : State) (c : Ctx) (uid : Nat) (k : DWord) : Bool :=
  match s.layer? c.id (keyLayer k) with
  | none => false
  | some l =>
    let (shared, owner, _) := lookupSpace s c l k
    (chainOf s uid).any fun x => match x.what with
      | .tile _ k' sh ow _ _ => k' == k && sh == shared && ow == owner && keyInFlight s c l k
      | .block .. => false

/-- Lanes in ascending order; from the first held one on the lanes wait. -/
def lookLanes (c : Ctx) (uid depth : Nat) : State → List (Nat × DWord) → List (Nat × List Word) → Looked
  | s, [], as => .ok as [] s
  | s, (L, k) :: rest, as =>
    match s.layer? c.id (keyLayer k) with
    | none => lookLanes c uid depth s rest as
    | some l =>
      if ownEntry s c uid k then .deep s
      else match lookupKey s c l k true depth with
      | .answer a s => lookLanes c uid depth s rest (as ++ [(L, a.words)])
      | .held => .ok as (L :: rest.map (·.1)) s
      | .deep => .deep s

/-- The lanes that a HIT or a STALE_HIT answers have made an acquire of the commit (R369). -/
def Team.acquireHits (t : Team) (as : List (Nat × List Word)) : Team :=
  { t with acquired := t.acquired ||| Mask.ofLanes ((as.filter fun a => a.2.head?.any (·.getLsbD 31)).map (·.1)) }

/-- R387. -/
def execSclook (g : Guard) (fs : Bool) (d : Dst) (a : Src) (s : State) : Out :=
  let i := Instr.sclook g fs d a
  longOp s fs fun t =>
    if !allocOk t d [a] then .next (takeFault s t i illop)
    else
      let m := match t.unfin with
        | some u => t.eligible g &&& u
        | none => t.eligible g
      let ks := keyLanes s t m a
      let bad := noLayer s t ks
      if !bad.isEmpty then .next (takeFault s t i { code := codeStale, detail := 0xFFF, lanes := Mask.ofLanes bad })
      else match lookLanes (s.ctxOf t) t.uid (s.itemDepth t.uid) s ks [] with
        | .deep s => .next (failChain s t.uid)
        | .ok as [] s => .next (issueOp s t i fs (.sclook ⟨d, as⟩))
        | .ok as left s =>
          let t' := ((t.issueFlag fs).acquireHits as).writeDst (Mask.ofLanes (as.map (·.1))) d fun L =>
            ((as.find? (·.1 == L)).map (·.2)).getD []
          .next (s.setTeam { t' with status := .waiting (.held ((ks.filter fun k => left.contains k.1).map (·.2))), unfin := some (Mask.ofLanes left) })

/-- SCLOOK_ANSWER: the registers of the eligible lanes are written and the flag clears. -/
def execSclookAnswer (op : Nat) (s : State) : Out :=
  match s.op? op with
  | some o =>
    match o.kind with
    | .sclook w => .next (completeOp (s.updTeam o.uid fun t => (t.acquireHits w.vals).writeDst (Mask.ofLanes (w.vals.map (·.1))) w.d fun L =>
        ((w.vals.find? (·.1 == L)).map (·.2)).getD []) o)
    | _ => .next s
  | none => .next s

/-- HELD_LOOKUP_RELEASE: the lookup is tried again. -/
def execHeldLookupRelease (uid : Nat) (s : State) : Out :=
  match s.team? uid with
  | some t =>
    match t.status with
    | .waiting (.held _) => .next (s.setTeam { t with status := .running })
    | _ => .next s
  | none => .next s

/-- The entry that a key of a context names, in the space of its lookup, while it is in flight. -/
def keyBusy (s : State) (c : Ctx) (k : DWord) : Option (DWord × Bool × BitVec 16) :=
  ((s.layer? c.id (keyLayer k)).filter fun l => keyInFlight s c l k).map fun l =>
    let (shared, owner, _) := lookupSpace s c l k
    (k, shared, owner)

/-- Whether an entry that a team waits for is still in flight. -/
def keyWaits (s : State) (k : DWord × Bool × BitVec 16) : Bool := (s.entry? k.1 k.2.1 k.2.2).any fun e => e.st == .inFlight

/-- Answers that raise nothing and use nothing. -/
def quietLanes (c : Ctx) : State → List (Nat × DWord) → List (Nat × List Word) → List (Nat × List Word) × State
  | s, [], as => (as, s)
  | s, (L, k) :: rest, as =>
    match (s.layer? c.id (keyLayer k)).map fun l => lookupKey s c l k false 0 with
    | some (.answer a s) => quietLanes c s rest (as ++ [(L, a.words)])
    | _ => quietLanes c s rest as

/-- R388. -/
def execScwait (g : Guard) (d : Dst) (a : Src) (s : State) : Out :=
  let i := Instr.scwait g d a
  onTeam s fun t =>
    if !allocOk t d [a] then .next (takeFault s t i illop)
    else
      let c := s.ctxOf t
      let ks := keyLanes s t (t.eligible g) a
      let bad := noLayer s t ks
      if !bad.isEmpty then .next (takeFault s t i { code := codeStale, detail := 0xFFF, lanes := Mask.ofLanes bad })
      else
        let busy := (ks.map (·.2)).filterMap (keyBusy s c)
        if !busy.isEmpty then
          -- a wait on an entry of the team's own chain fails the chain (R367)
          let own := busy.any fun k => ownEntry s c t.uid k.1
          if own then .next (failChain s t.uid) else waitHere s t (.keys busy.eraseDups)
        else
          let (as, s) := quietLanes c s ks []
          finish s t i (.ok ((t.acquire false g).writeDst (Mask.ofLanes (as.map (·.1))) d fun L => ((as.find? (·.1 == L)).map (·.2)).getD []))

/-- SCWAIT_WAKE: no entry that the team waits for is in flight any more. -/
def execScwaitWake (uid : Nat) (s : State) : Out :=
  match s.team? uid with
  | some t =>
    match t.status with
    | .waiting (.keys ks) =>
      if ks.any (keyWaits s) then .next s else .next (s.setTeam { t with status := .running })
    | _ => .next s
  | none => .next s

/-! ### scinv, frame (R376, R377, R390, R391) -/

/-- R390; bits [31:16] of the share tag are ignored (DESIGN CHOICE, log entry 112). -/
def execScinv (fs : Bool) (obj tag : Src) (s : State) : Out :=
  let i := Instr.scinv fs obj tag
  longOp s fs fun t =>
    let tg : Option (BitVec 16) := if tag == .none then none else some ((val32 s t true 0 tag).setWidth 16)
    if (tg.map fun x => !(s.ctxOf t).shares x 2).getD false then .next (takeFault s t i (t.uniFault codeShare 0xFFF))
    else .next (issueOp s t i fs (.scinv ((val32 s t true 0 obj).setWidth 24) tg))

/-- Advances a revision; one that returns to 0 is not listed. -/
def advanceRev (s : State) (shared : Bool) (owner : BitVec 16) (obj : BitVec 24) : State :=
  let rev := s.objRev shared owner obj + 1
  s.updFill fun f => { f with
    revs := (if rev == 0 then [] else [⟨shared, owner, obj, rev⟩]) ++
      f.revs.filter fun r => !(r.shared == shared && r.owner == owner && r.obj == obj) }

/-- SCINV_COMPLETE: a release at pkg, then every die holds the new revision. -/
def execScinvComplete (op : Nat) (s : State) : Out :=
  match s.op? op with
  | some o =>
    match o.kind with
    | .scinv obj tag =>
      if !tileMay s o then .next s
      else
        let s := s.drainCore o.die o.core
        let s := match tag with
          | some tg => advanceRev s true tg obj
          | none => advanceRev s false (s.ctxOf (opTeam s o)).tid obj
        .next (completeOp s o)
    | _ => .next s
  | none => .next s

/-- R391. -/
def execFrameCtx (d : Dst) (s : State) : Out :=
  let i := Instr.frameCtx d
  onTeam s fun t =>
    let f := ((s.ctx? t.ctx).map (·.frame)).getD 0 + 1
    finish (s.updCtx t.ctx fun c => { c with frame := f }) t i (.ok (t.writeUni d [lo32 f, hi32 f]))

/-- R391; bits [31:16] of the share tag are ignored (DESIGN CHOICE, log entry 112). -/
def execFrameTag (d : Dst) (tag : Src) (s : State) : Out :=
  let i := Instr.frameTag d tag
  onTeam s fun t =>
    let tg : BitVec 16 := (val32 s t true 0 tag).setWidth 16
    if !(s.ctxOf t).shares tg 2 then .next (takeFault s t i (t.uniFault codeShare 0xFFF))
    else
      let f := s.tagFrame tg + 1
      let s := s.updFill fun x => { x with tagFrames := (tg, f) :: x.tagFrames.filter (·.1 != tg) }
      finish s t i (.ok (t.writeUni d [lo32 f, hi32 f]))

end Sys2Proof.Machine
end

