-- ==== Sys2Proof/Machine/Groups.lean ====
section
/-! DEFINITION. Groups, collectives and group barriers (13 R349 to R357). -/

namespace Sys2Proof.Machine

/-! ### Groups (R349, R351) -/

def State.updEng (s : State) (f : Eng → Eng) : State := { s with eng := f s.eng }

/-- The group that a word names in a context. -/
def State.groupOf (s : State) (ctx w : Word) : Option Group :=
  if w >>> 24 != 0 then none
  else s.eng.groups.find? fun g =>
    g.ctx == ctx && g.ix == w.toNat % 4096 && g.gen == BitVec.ofNat 12 (w.toNat / 4096) && !g.members.isEmpty

/-- The rank of a team that has not left. -/
def Group.rankOf (g : Group) (uid : Nat) : Option Nat :=
  ((g.members.find? (·.1 == uid)).map (·.2)).filter fun r => !g.left.contains r

def Group.word (g : Group) : Word := ((0 : BitVec 8) ++ g.gen ++ BitVec.ofNat 12 g.ix)

def Group.same (a b : Group) : Bool := a.ctx == b.ctx && a.ix == b.ix

def State.updGroup (s : State) (g : Group) (f : Group → Group) : State :=
  s.updEng fun e => { e with groups := e.groups.map fun x => if x.same g then f x else x }

/-- A group operand of which the team is a member, or the stale fault. -/
def withGroup (s : State) (t : Team) (i : Instr) (x : Src) (go : Group → Nat → Out) : Out :=
  match s.groupOf t.ctx (val32 s t true 0 x) with
  | some g => (match g.rankOf t.uid with
    | some r => go g r
    | none => .next (takeFault s t i (t.uniFault codeStale 0xFFF)))
  | none => .next (takeFault s t i (t.uniFault codeStale 0xFFF))

/-- Memberships of a team, forming groups included. -/
def memberships (s : State) (uid : Nat) : Nat :=
  (s.eng.groups.filter fun g => (g.rankOf uid).isSome).length +
    (s.eng.forming.filter fun f => f.members.any (·.1 == uid)).length

/-- Whether no entry of a context's group table is free: a group that all have joined has its entry. -/
def groupTableFull (s : State) (ctx : Word) : Bool :=
  4096 ≤ (s.eng.groups.filter fun g => g.ctx == ctx && !g.members.isEmpty).length +
    (s.eng.forming.filter fun f => f.ctx == ctx && f.members.length == f.n).length

/-- Whether two forming groups are one. -/
def Forming.same (a b : Forming) : Bool := a.ctx == b.ctx && a.key == b.key

/-- Whether a partition holds the collective engine of a die (R334). -/
def Part.hasColl (p : Part) (die : Nat) : Bool := p.coll.getLsbD (dieNo die)

def execGrpMake (d : Dst) (key n rank : Src) (s : State) : Out :=
  let i := Instr.grpMake d key n rank
  onTeam s fun t =>
    match t.mark, t.reply with
    | some _, [w] => finish s t i (.ok (t.writeUni d [w]))
    | _, _ =>
      let k := val32 s t true 0 key
      let m := (val32 s t true 0 n).toNat
      let r := (val32 s t true 0 rank).toNat
      let ill : Out := .next (takeFault s t i illop)
      let f := s.eng.forming.find? fun f => f.ctx == t.ctx && f.key == k
      if (f.map fun f => f.members.any (·.1 == t.uid)).getD false then waitHere s t (.group k)
      else if !((s.partOf t).map (·.hasColl t.place.die)).getD false then .next (takeFault s t i (absentFault t))
      else if m < 2 || 65536 < m || m ≤ r || 16 ≤ memberships s t.uid then ill
      else if (f.map fun f => f.n != m || f.members.any (·.2 == r)).getD false then ill
      else if groupTableFull s t.ctx then .next (takeFault s t i (t.uniFault codeBounds 0xFFF))
      else match f with
        | some f =>
          let join (g : Forming) : Forming :=
            if g.same f then { g with members := g.members ++ [(t.uid, r)] } else g
          waitHere (s.updEng fun e => { e with forming := e.forming.map join }) t (.group k)
        | none =>
          waitHere (s.updEng fun e => { e with forming := e.forming ++ [⟨t.ctx, k, m, [(t.uid, r)]⟩] }) t (.group k)

/-- The group that a forming group becomes, in a free entry of the context's table. -/
def formGroup (s : State) (f : Forming) : Option Group :=
  let mine := s.eng.groups.filter (·.ctx == f.ctx)
  let used := (mine.filter fun g => !g.members.isEmpty).map (·.ix)
  (pickFree used 4096 (Config.freeNat s.ticks 200)).map fun ix =>
    let gen := ((mine.find? (·.ix == ix)).map (·.gen)).getD 0
    let die0 := (((f.members.find? (·.2 == 0)).bind fun m => s.teamAny m.1).map (·.place.die)).getD 0
    { ctx := f.ctx, ix, gen, n := f.n, members := f.members, nextColl := [], nextBar := [], left := [], die0 }

/-- A waiting member goes on with an answer. -/
def answerTeam (s : State) (uid : Nat) (m : Word) (ws : List Word) : State :=
  s.updTeam uid fun t => { t with status := .running, mark := some m, reply := ws }

/-- GROUP_FORMED: all n members have joined; each receives the word. -/
def execGroupFormed (ctx key : Word) (s : State) : Out :=
  match s.eng.forming.find? fun f => f.ctx == ctx && f.key == key with
  | some f =>
    if f.members.length != f.n then .next s
    else match formGroup s f with
      | some g =>
        let s := s.updEng fun e => { e with
          forming := e.forming.filter fun x => !(x.ctx == ctx && x.key == key)
          groups := (e.groups.filter fun x => !x.same g) ++ [g] }
        .next (g.members.foldl (fun s m => answerTeam s m.1 1 [g.word]) s)
      | none => .next s
  | none => .next s

/-- Whether a team has commands on a group that have not ended. -/
def groupBusy (s : State) (uid ix : Nat) : Bool :=
  s.ops.any fun o => o.uid == uid && (match o.kind with
    | .coll g _ | .gbar g _ => g == ix
    | _ => false)

/-- Ends one membership; an entry without members is retired once nothing of the group is outstanding (R351). -/
def leaveGroup (s : State) (g : Group) (r : Nat) : State := s.updGroup g fun g => g.over (s.groupBusy g) (r :: g.left)

def execGrpFree (g : Src) (s : State) : Out :=
  let i := Instr.grpFree g
  onTeam s fun t =>
    withGroup s t i g fun g r =>
      if groupBusy s t.uid g.ix then waitHere s t .stall else finish (leaveGroup s g r) t i (.ok t)

def execGrpInfo (d : Dst) (g : Src) (s : State) : Out :=
  let i := Instr.grpInfo d g
  onTeam s fun t =>
    withGroup s t i g fun g r => finish s t i (.ok (t.writeUni d [BitVec.ofNat 32 r, BitVec.ofNat 32 g.n]))

/-- How many operations of a member a count list records. -/
def countOf (xs : List (Nat × Nat)) (uid : Nat) : Nat := ((xs.find? (·.1 == uid)).map (·.2)).getD 0

def countNext (xs : List (Nat × Nat)) (uid : Nat) : List (Nat × Nat) :=
  (uid, countOf xs uid + 1) :: xs.filter (·.1 != uid)

/-- Whether a member left before its k-th operation (R352). -/
def missedBy (g : Group) (next : List (Nat × Nat)) (k : Nat) : Bool :=
  g.members.any fun m => g.left.contains m.2 && countOf next m.1 ≤ k

/-- Whether every member has reached its k-th operation. -/
def reachedBy (g : Group) (next : List (Nat × Nat)) (k : Nat) : Bool := g.members.all fun m => k < countOf next m.1

/-! ### coll (R353 to R356) -/

def CollType.bytes : CollType → Nat
  | .int t => if t.wide then 8 else 4
  | .flt t => if t.wide then 8 else 4

/-- Source and destination bytes of a member (R354). -/
def collBytes (form : CollForm) (n rank ne : Nat) : Nat × Nat :=
  match form with
  | .allgather => (ne, n * ne)
  | .redscat => (n * ne, ne)
  | .alltoall => (n * ne, n * ne)
  | .allred => (ne, ne)
  | .p2p => if n != 2 then (0, 0) else if rank == 0 then (ne, 0) else (0, ne)

/-- Whether a handle may be a side of a collective: GLOBAL or SCRATCH with the right; a side of no bytes is not checked. -/
def collSideOk (e : HEnt) (write : Bool) (size : Nat) : Bool :=
  size == 0 || ((e.kind == kGlobal || e.kind == kScratch) && e.right (if write then rW else rR))

/-- The range of a side of a collective; a side of no bytes has none. -/
def collRange (s : State) (t : Team) (i : Instr) (fs : Bool) (h : BitVec 12) (write : Bool) (off size : Nat) (go : State → Out) :
    Out :=
  if size == 0 then go s
  else
    sideCheck s t i fs h (if write then .engW else .engR) (if write then .engWrite else .engRead) off size 1 fun _ s => go s

/-- The checks of both sides of a collective (R354): the handles, their kinds and rights, both offsets, then the ranges. -/
def collSides (s : State) (t : Team) (i : Instr) (fs : Bool) (hs hd : BitVec 12) (so sb dn db e : Nat)
    (go : HEnt → HEnt → State → Out) : Out :=
  withHandle s t i (some fs) true t.active (.idx hs) fun _ se s =>
    withHandle s t i (some fs) true t.active (.idx hd) fun _ de s =>
      let fault (code : BitVec 8) (h : BitVec 12) : Out := .next (takeFault s t i (handleFault code true t.active (h.setWidth 32)))
      if !collSideOk se false sb then fault codePerm hs
      else if !collSideOk de true db then fault codePerm hd
      else if so % e != 0 then fault codeAlign hs
      else if dn % e != 0 then fault codeAlign hd
      else collRange s t i fs hs false so sb fun s => collRange s t i fs hd true dn db fun s => go se de s

def execColl (fs : Bool) (form : CollForm) (op : CollRed) (ty : CollType) (src dst : Src) (grp : Src) (hs hd : BitVec 12)
    (n : Word) (s : State) : Out :=
  let i := Instr.coll fs form op ty src dst grp hs hd n
  longOp s fs fun t =>
    withGroup s t i grp fun g rank =>
      let e := CollType.bytes ty
      let (sb, db) := collBytes form g.n rank (n.toNat * e)
      let so := (val32 s t true 0 src).toNat
      let dn := (val32 s t true 0 dst).toNat
      collSides s t i fs hs hd so sb dn db e fun se de s =>
        let k := countOf g.nextColl t.uid
        let id := s.nextOp
        let s := issueOp s t.spent i fs (.coll g.ix k)
        let s := s.updGroup g fun g => { g with nextColl := countNext g.nextColl t.uid }
        let s := s.updEng fun x => { x with parts := x.parts ++
          [⟨t.ctx, g.ix, k, t.uid, rank, some id, form, op, ty, n.toNat, hs, hd, se.raw, de.raw, so, dn⟩] }
        match s.op? id with
        | some o =>
          let s := if sb == 0 then s else useExtent s o false se ⟨so, sb, []⟩
          .next (if db == 0 then s else useExtent s o true de ⟨dn, db, []⟩)
        | none => .next s

/-- One fold step on patterns (R355); packed halves are folded in FP32. -/
def collStep (red : CollRed) (ty : CollType) (a b : Nat) : Nat :=
  match ty with
  | .int t =>
    let w := 8 * CollType.bytes ty
    let less := decide (IType.elem t b 0 < IType.elem t a 0)
    (match red with
     | .add => (a + b) % 2 ^ w
     | .min => if less then b else a
     | .max => if less then a else b)
  | .flt t =>
    let f := if t.packed then fmt32 else FType.fmt t
    (match red with
     | .add => (f.add ctlRne a b).v
     | .min => (f.minmax ctlRne false a b).v
     | .max => (f.minmax ctlRne true a b).v)

/-- The reduction of one element over ranks in ascending order. -/
def collReduce (red : CollRed) (ty : CollType) (xs : List Nat) : Nat :=
  let fold (xs : List Nat) : Nat :=
    match xs with
    | [] => 0
    | x :: r => r.foldl (collStep red ty) x
  match ty with
  | .flt t =>
    if t.packed then
      let f := FType.fmt t
      let half (k : Nat) : Nat :=
        (fmt32.convert f ctlRne (fold (xs.map fun x => (f.convert fmt32 ctlRne (natField x (16 * k) 16)).v))).v
      half 0 + half 1 * 2 ^ 16
    else fold xs
  | .int _ => fold xs

/-- Bytes i·e to i·e + e - 1 of a list as a number. -/
def elemAt (bs : List Byte) (e i : Nat) : Nat := leNat ((bs.drop (i * e)).take e)

/-- What a member receives from the sources of every rank in ascending order. -/
def collResult (p : CollPart) (n : Nat) (srcs : List (List Byte)) : List Byte :=
  let e := CollType.bytes p.ty
  let ne := p.cnt * e
  let reduce (base : Nat) : List Byte :=
    ((List.range p.cnt).map fun i => leBytes e (collReduce p.red p.ty (srcs.map fun b => elemAt b e (base + i)))).flatten
  match p.form with
  | .allgather => srcs.flatten
  | .redscat => reduce (p.rank * p.cnt)
  | .alltoall => (srcs.map fun b => (b.drop (p.rank * ne)).take ne).flatten
  | .allred => reduce 0
  | .p2p => if n == 2 && p.rank == 1 then (srcs.head?).getD [] else []

/-- Reads the source of every part in order of rank. -/
def collReads (n : Nat) : State → List CollPart → List (List Byte) → Except State (List (List Byte) × State)
  | s, [], acc => .ok (acc, s)
  | s, p :: rest, acc =>
    match p.op.bind s.op? with
    | none => .error s
    | some o =>
      let size := (collBytes p.form n p.rank (p.cnt * CollType.bytes p.ty)).1
      match (if size == 0 then ERes.ok [] s else entryGet s o p.srcH ⟨p.srcE⟩ p.srcO size) with
      | .ok bs s => collReads n s rest (acc ++ [bs])
      | .wait s => .error s
      | .over s => .error s

/-- Writes every destination. -/
def collWrites : State → List (CollPart × List Byte) → Except State State
  | s, [] => .ok s
  | s, (p, bs) :: rest =>
    match p.op.bind s.op? with
    | none => .error s
    | some o =>
      match (if bs.isEmpty then ERes.ok [] s else entryPut s o p.dstH ⟨p.dstE⟩ p.dstO bs) with
      | .ok _ s => collWrites s rest
      | .wait s => .error s
      | .over s => .error s

/-- The parts of a collective in order of rank. -/
def collParts (s : State) (ctx : Word) (g k : Nat) : List CollPart :=
  let ps := s.eng.parts.filter fun p => p.ctx == ctx && p.group == g && p.k == k
  ps.foldl (fun acc p => (acc.filter (·.rank < p.rank)) ++ [p] ++ acc.filter fun q => p.rank ≤ q.rank) []

/-- Ends every command of a collective. -/
def collEnd (s : State) (ps : List CollPart) (how : State → Op → State) : State :=
  let s := ps.foldl (fun s p => match p.op.bind s.op? with
    | some o => how s o
    | none => s) s
  retireGroups (s.updEng fun e => { e with parts := e.parts.filter fun p => !ps.contains p })

/-- Whether the members' commands agree (R352), and a `.p2p` has two members (R354). -/
def collAgree (n : Nat) (ps : List CollPart) : Bool :=
  match ps with
  | [] => true
  | p :: r =>
    (r.all fun q => q.form == p.form && q.red == p.red && q.ty == p.ty && q.cnt == p.cnt) && (p.form != .p2p || n == 2)

/-- COLL_COMPLETE (R356): every member has issued; the results are written and the flags fall. When one member's command
ends, the others end ABORTED. A collective that waits for a page or a fill runs again whole. -/
def execCollComplete (ctx : Word) (group k : Nat) (s : State) : Out :=
  let ps := collParts s ctx group k
  match s.eng.groups.find? fun g => g.ctx == ctx && g.ix == group with
  | none => .next s
  | some g =>
    if ps.isEmpty then .next s
    else if missedBy g g.nextColl k then .next (collEnd s ps fun s o => faultOp s o { code := codeAborted })
    else if !reachedBy g g.nextColl k then .next s
    else if ps.any fun p => (p.op.map s.opHeld).getD false then .next s
    else if !collAgree g.n ps then .next (collEnd s ps fun s o => faultOp s o illop)
    else
      let fail (s' : State) : Out :=
        if ps.any fun p => (p.op.bind s'.op?).isNone then
          .next (collEnd s' ps fun s o => faultOp s o { code := codeAborted })
        else .next s'
      match collReads g.n s ps [] with
      | .error s' => fail s'
      | .ok (srcs, s1) =>
        match collWrites s1 (ps.map fun p => (p, collResult p g.n srcs)) with
        | .error s' => fail s'
        | .ok s => .next (collEnd s ps fun s o => endCommand (spoilResult s o) o)

/-! ### gbar (R357) -/

/-- An arrival: a release, then the member's next generation. -/
def gbarArrive (s : State) (t : Team) (g : Group) (op : Option Nat) : Nat × State :=
  let k := countOf g.nextBar t.uid
  let s := (s.drainCore t.place.die t.place.core).updGroup g fun g => { g with nextBar := countNext g.nextBar t.uid }
  (k, s.updEng fun e => { e with barArr := e.barArr ++ [⟨t.ctx, g.ix, k, t.uid, op⟩] })

/-- Whether earlier accesses of the team keep its release waiting. -/
def State.releaseWaits (s : State) (t : Team) : Bool := s.readsOut t.uid || s.sigsOut t.uid

def execGbarSync (g : Src) (s : State) : Out :=
  let i := Instr.gbarSync g
  onTeam s fun t =>
    match t.mark, t.reply with
    | some _, [1] => finish s t i (.ok t.acquireAll)
    | some _, [2] => .next (takeFault s t i illop)
    | some _, [_] => .next (takeFault s t i (t.uniFault codeAborted))
    | some k, _ => waitHere s t (.gbar (val32 s t true 0 g).toNat k.toNat)
    | none, _ =>
      withGroup s t i g fun g _ =>
        if s.releaseWaits t then waitHere s t .stall
        else
          let (k, s) := gbarArrive s t g none
          .next (s.setTeam { t.spent with mark := some (BitVec.ofNat 32 k), status := .waiting (.gbar g.ix k) })

def execGbarArv (fs : Bool) (g : Src) (s : State) : Out :=
  let i := Instr.gbarArv fs g
  longOp s fs fun t =>
    withGroup s t i g fun g _ =>
      if s.releaseWaits t then waitHere s t .stall
      else
        let (k, s) := gbarArrive s t g (some s.nextOp)
        .next (issueOp s t.spent i fs (.gbar g.ix k))

/-- GBAR_COMPLETE: every member has arrived, or one left before it could. Members that do not agree in SUB all fault with
ILLOP (R352). -/
def execGbarComplete (ctx : Word) (group k : Nat) (s : State) : Out :=
  match s.eng.groups.find? fun g => g.ctx == ctx && g.ix == group with
  | none => .next s
  | some g =>
    let missed := missedBy g g.nextBar k
    if !missed && !reachedBy g g.nextBar k then .next s
    else
      let as := s.eng.barArr.filter fun a => a.ctx == ctx && a.group == group && a.k == k
      let mixed := as.any (·.op.isSome) && as.any (·.op.isNone)
      let s := retireGroups (s.updEng fun e => { e with barArr := e.barArr.filter fun a => !as.contains a })
      .next (as.foldl (fun s a =>
        match a.op with
        | some id => (match s.op? id with
          | some o => if missed then faultOp s o { code := codeAborted } else if mixed then faultOp s o illop else completeAcq s o
          | none => s)
        | none => answerTeam s a.uid (BitVec.ofNat 32 k) [if missed then 0 else if mixed then 2 else 1]) s)

end Sys2Proof.Machine
end

