-- ==== Sys2Proof/Machine/Image.lean ====
section
/-! DEFINITION. What the sections of a context image hold (16 R450). The spec lists it and gives no layout: here every number
is eight bytes, lists begin with their length, and the fields stand in the order of R450 (DESIGN CHOICE, log entry 71). -/

namespace Sys2Proof.Machine

/-! ### Numbers and lists -/

/-- A list with its length. -/
def listNums {α : Type} (f : α → List Nat) (xs : List α) : List Nat := xs.length :: xs.flatMap f

def optNums {α : Type} (f : α → List Nat) : Option α → List Nat
  | none => [0]
  | some x => 1 :: f x

def pairNums (p : Nat × Nat) : List Nat := [p.1, p.2]

/-- Numbers as bytes. -/
def numBytes (xs : List Nat) : List Byte := xs.flatMap (leBytes 8)

/-- A lane mask: sixteen numbers. -/
def maskNums (m : Mask) : List Nat := (List.range 16).map fun k => natField m.toNat (64 * k) 64

/-! ### CONTEXT and GRID -/

def KindProg.nums (k : KindProg) : List Nat := k.kind :: k.pw :: listNums (fun w => [w.toNat]) k.steps

/-- Type 1: the registers 0x020 to 0x038, of which HTBASE and HTLIMIT are each grid's own, the frame counter, the invalid-ray counter, the kind table. -/
def contextBody (s : State) (c : Ctx) : List Byte :=
  let tables := listNums (fun (g : Grid) => [g.id.toNat, g.lr.htbase.toNat, g.lr.htlimit]) (s.grids.filter fun g => g.ctx == c.id)
  numBytes (tables ++ c.sharemask.toNat :: c.sharetab.map (·.toNat) ++ [c.frame.toNat, c.invalidRays.toNat] ++ listNums KindProg.nums (s.vis.kinds.filter fun k => k.ctx == c.id))

def BarGen.nums (g : BarGen) : List Nat := optNums (fun n => [n]) g.counted ++ listNums (fun w => [w.toNat]) g.arrived ++ [g.number]

def barKeyNums (k : BarKey) : List Nat := [k.grid.toNat, k.scope.code.toNat, k.inst, k.id]

def Bar.nums (b : Bar) : List Nat := barKeyNums b.key ++ [b.completed.toNat] ++ optNums BarGen.nums b.cur ++ optNums BarGen.nums b.nxt

def Group.nums (g : Group) : List Nat := [g.ix, g.gen.toNat, g.n] ++ listNums pairNums g.members

def Forming.nums (f : Forming) : List Nat := [f.key.toNat, f.n] ++ listNums pairNums f.members

def RasterJob.nums (j : RasterJob) : List Nat := [j.die, j.seq, j.produced, j.taken]

/-- Type 2: the id, the complete flag, barriers, memberships of groups that are formed or are forming, raster counts. -/
def gridBody (s : State) (g : Grid) : List Byte :=
  numBytes ([g.id.toNat, b2n g.complete] ++ listNums Bar.nums (s.bars.filter fun b => b.key.grid == g.id) ++
    listNums Group.nums (s.eng.groups.filter fun x => x.ctx == g.ctx) ++
    listNums Forming.nums (s.eng.forming.filter fun x => x.ctx == g.ctx) ++
    listNums RasterJob.nums (s.vis.jobs.filter fun j => j.ctx == g.ctx))

/-! ### TEAM, REGS and SCRATCH -/

def LoopRec.nums (l : LoopRec) : List Nat := [l.h.toNat, l.x.toNat] ++ maskNums l.i ++ maskNums l.k ++ maskNums l.v

def Path.nums (p : Path) : List Nat := p.pc.toNat :: maskNums p.m ++ optNums LoopRec.nums p.carried

def Entry.nums : Entry → List Nat
  | .div j c q v => [0, j.toNat] ++ maskNums c ++ listNums Path.nums q ++ maskNums v
  | .loop l => 1 :: l.nums
  | .call ra m => [2, ra.toNat] ++ maskNums m

/-- The wake condition of a saved team that has waited for a number of cycles (R437); 0 for a team that begins anew at its pc. -/
def Wait.nums (waited : Nat) : Wait → List Nat
  | .bar k g => 1 :: barKeyNums k ++ [g.toNat]
  | .barThird k g => 2 :: barKeyNums k ++ [g.toNat]
  | .gbar g k => [3, g, k]
  | .group k => [4, k.toNat]
  | .addr w => [5, w.va.toNat, w.cmp.code.toNat, w.ty.code.toNat, w.value.toNat,
      if w.timeout == 0xFFFFFFFF then w.timeout.toNat else w.timeout.toNat - waited]
  | .cbFree k => [6, k]
  | .cbFilled k => [7, k]
  | .keys ks => 8 :: listNums (fun k => [k.1.toNat, b2n k.2.1, k.2.2.toNat]) ks
  | .held ks => 9 :: listNums (fun k => [k.toNat]) ks
  | .job die n need => [10, die, n, need]
  | .tile ctx ix => [11, ctx.toNat, ix]
  | .fill .. | .mapFill .. => [12]
  | .stall | .full | .flags .. | .clause _ | .block _ | .drain | .fence _ | .remote _ | .task .. | .queue .. => [0]

def Status.nums (waited : Nat) : Status → List Nat
  | .waiting w => w.nums waited
  | .parked _ => [14]
  | .running | .stopping _ | .stopped .. => [0]

def Cb.nums (x : Cb) : List Nat :=
  [b2n x.init, x.h.toNat, x.size, x.count, x.reserved.toNat, x.committed.toNat, x.taken.toNat, x.released.toNat]

def Binding.nums (b : Binding) : List Nat :=
  [b.h.toNat, b.va.toNat, b.gen.toNat, b.soff, b.len, b.base.toNat, b.made, b.policy, b.pko] ++ listNums (fun k => [k]) b.valid ++
    listNums (fun k => [k]) b.dirty

/-- Type 3. -/
def teamBody (x : Ctx) (t : Team) : List Byte :=
  let c := t.ctl
  numBytes ([t.pc.toNat, c.repc.toNat, c.regctr.toNat, (tstat t x).toNat, c.epc.toNat, c.mode.toNat,
    c.fstat.toNat] ++ maskNums t.active ++ maskNums t.exited ++ listNums Entry.nums t.stack ++ optNums maskNums t.unfin ++ t.status.nums ((t.since.map (·.toNat)).getD 0) ++
    listNums (fun n => [n]) t.flags ++ listNums Cb.nums t.cbs ++ listNums (fun (l : Lane) => [l.rng.toNat]) t.lanes ++
    listNums Binding.nums t.binds)

/-- Type 4: the registers of a mask, all of them unless the team left by `yield` (R440). -/
def regsBody (t : Team) : List Byte :=
  let set := t.leave == .yielded
  let v (k : Nat) : Bool := !set || t.ctl.ksv.getLsbD k
  let sc (k : Nat) : Bool := !set || t.ctl.kss.getLsbD k
  let p : BitVec 8 := if set then t.ctl.ksp else 0xFF
  let pick (f : Nat → Bool) (xs : List Word) : List Nat := ((xs.mapIdx fun k w => (k, w)).filter fun x => f x.1).map (·.2.toNat)
  let bits (f : Nat → Bool) (n : Nat) : Nat := ((List.range n).map fun k => if f k then 2 ^ k else 0).sum
  numBytes ([bits v 64, bits (fun k => v (64 + k)) 64, bits sc 64, p.toNat] ++ listNums (fun w => [w]) (pick sc t.s) ++
    listNums (fun (l : Lane) => (l.p &&& p).toNat :: listNums (fun w => [w]) (pick v l.v)) t.lanes)

/-- Type 5: the bytes of the allocation. -/
def scratchBody (t : Team) : List Byte := t.scratch.readBytes 0 t.scratchLen

/-! ### TASKS and COLL -/

def Task.nums (x : Task) : List Nat :=
  [x.die, x.id, x.uid, b2n (x.st == .ready)] ++ listNums (fun w => [w.toNat]) x.fields ++ [x.aslot.toNat, x.bslot.toNat]

def Resid.nums (r : Resid) : List Nat := [r.die, r.entry, r.uid, r.word.toNat, r.scale.toNat, r.slot.toNat]

/-- Type 6: QUEUED and READY tasks of a grid in enqueue order, and the residencies of its teams. -/
def tasksBody (s : State) (g : Grid) (ts : List Team) : List Byte :=
  let left (x : Task) : Bool := x.grid == g.id && !x.freed && (x.st == .queued || x.st == .ready)
  numBytes (listNums Task.nums (inQueueOrder (s.mat.tasks.filter left)) ++
    listNums Resid.nums (s.mat.resid.filter fun r => r.live && r.ctx == g.ctx && ts.any (·.uid == r.uid)))

/-- An element type: TYPE with MOD[3] above it (13 R353). -/
def CollType.num : CollType → Nat
  | .int t => t.code.toNat
  | .flt t => 8 + t.code.toNat

def CollPart.nums (x : CollPart) : List Nat :=
  [x.group, x.k, x.rank, x.form.code.toNat, x.red.code.toNat, CollType.num x.ty, x.cnt, x.srcH.toNat, x.dstH.toNat, x.srcE, x.dstE, x.srcO, x.dstO]

/-- Type 7: the parts that a team has posted and that have not started. -/
def collBody (s : State) (t : Team) (leaves : Nat → Bool) : List Byte :=
  numBytes (listNums CollPart.nums (s.eng.parts.filter fun x => x.uid == t.uid && x.op.any leaves))

end Sys2Proof.Machine
end

