-- ==== Sys2Proof/Machine/Vis.lean ====
section
/-! DEFINITION. Rays and raster (15): ray batches, the leaf datapath, the Furrow, raster jobs, hit records and samples. -/

namespace Sys2Proof.Machine

/-! ### Rays (R392, R393) -/

/-- A ray as a unit reads it: FP32 patterns, the direction after its flush. -/
structure Ray where
  org  : List Nat
  dir  : List Nat
  tmin : Nat
  tmax : Nat
  user : Nat
  mask : Nat
  deriving DecidableEq, Repr

def rayOf (bs : List Byte) : Ray :=
  let w (k : Nat) : Nat := leNat ((bs.drop (4 * k)).take 4)
  { org := [w 0, w 1, w 2], tmin := w 3, tmax := w 7, user := w 8, mask := w 9 % 256
    dir := [w 4, w 5, w 6].map fun x => if fmt32.isSub x then fmt32.zero (fmt32.sign x) else x }

def Ray.invalid (r : Ray) : Bool :=
  (r.org ++ r.dir).any (fun x => fmt32.isNan x || fmt32.isInf x) || r.dir.all fmt32.isZero || fmt32.isNan r.tmin ||
    fmt32.isNan r.tmax

/-- a ≤ b, for patterns that are no NaN. -/
def leF32 (a b : Nat) : Bool := decide (fmt32.keyEq a ≤ fmt32.keyEq b)

/-- A ray whose interval is empty: MISS without a leaf test. -/
def Ray.empty (r : Ray) : Bool := !leF32 r.tmin r.tmax

/-! ### The box test (R396, R397) -/

/-- A finite pattern in units of 2^-149. -/
def fixed (x : Nat) : Int :=
  match fmt32.val x with
  | .num n => n.at_ (-149)
  | _ => 0

/-- A bound on t: a fraction with a positive denominator. -/
structure Bound where
  n : Int
  d : Int
  deriving DecidableEq, Repr

def Bound.le (a b : Bound) : Bool := decide (a.n * b.d ≤ b.n * a.d)

/-- What an axis demands of t: lower bounds, upper bounds, or that no t meets it. A bound of the box at infinity demands
nothing, or cannot be met. -/
def axisBounds (o d mn mx : Nat) : Option (List Bound × List Bound) :=
  let neg := fmt32.sign d
  let at_ (x : Nat) : Bound :=
    let k := fixed d
    if neg then ⟨-(fixed x - fixed o) * 2 ^ 149, -k⟩ else ⟨(fixed x - fixed o) * 2 ^ 149, k⟩
  if fmt32.isInf mn && !fmt32.sign mn || fmt32.isInf mx && fmt32.sign mx then none
  else if fmt32.isZero d then
    if (fmt32.isInf mn || leF32 mn o) && (fmt32.isInf mx || leF32 o mx) then some ([], []) else none
  else
    let lo := if fmt32.isInf mn then [] else [at_ mn]
    let hi := if fmt32.isInf mx then [] else [at_ mx]
    some (if neg then (hi, lo) else (lo, hi))

/-- The demand of the interval of a ray. -/
def rangeBounds (r : Ray) : Option (List Bound × List Bound) :=
  if fmt32.isInf r.tmin && !fmt32.sign r.tmin || fmt32.isInf r.tmax && fmt32.sign r.tmax then none
  else
    some (if fmt32.isInf r.tmin then [] else [⟨fixed r.tmin, 1⟩], if fmt32.isInf r.tmax then [] else [⟨fixed r.tmax, 1⟩])

/-- Whether a box contains a point of the ray, in exact arithmetic. -/
def boxHit (r : Ray) (box : List Nat) : Bool :=
  let axes := (List.range 3).map fun k => axisBounds (r.org.getD k 0) (r.dir.getD k 0) (box.getD k 0) (box.getD (k + 3) 0)
  let all := rangeBounds r :: axes
  if all.any Option.isNone then false
  else
    let bs := all.filterMap id
    let los := (bs.map (·.1)).flatten
    let his := (bs.map (·.2)).flatten
    los.all fun a => his.all fun b => a.le b

/-- A box that may be entered: no NaN, and no axis on which its min exceeds its max. -/
def boxSound (box : List Nat) : Bool :=
  box.all (fun x => !fmt32.isNan x) && (List.range 3).all fun k => leF32 (box.getD k 0) (box.getD (k + 3) 0)

/-! ### The leaf datapath (R399 to R401) -/

/-- A candidate: distance, coordinates, primitive and its kind, the HIT step. -/
structure HitCand where
  t    : Nat
  u    : Nat
  v    : Nat
  prim : Nat
  kind : Nat
  step : Nat
  deriving DecidableEq, Repr

/-- The order of R397: the smallest T, then the lower primitive, then the earlier step. -/
def HitCand.better (a b : HitCand) : Bool :=
  let x := fmt32.keyEq a.t
  let y := fmt32.keyEq b.t
  decide (x < y) || (x == y && (decide (a.prim < b.prim) || (a.prim == b.prim && decide (a.step < b.step))))

def bestCand (a : Option HitCand) (b : HitCand) : Option HitCand :=
  match a with
  | none => some b
  | some c => if b.better c then some b else some c

/-- Fields of a step word. -/
def stepOp (w : DWord) : Nat := natField w.toNat 60 4
def stepDst (w : DWord) : Nat := natField w.toNat 54 6
def stepA (w : DWord) : Nat := natField w.toNat 48 6
def stepB (w : DWord) : Nat := natField w.toNat 42 6
def stepC (w : DWord) : Nat := natField w.toNat 36 6
def stepCond (w : DWord) : Nat := natField w.toNat 33 3
def stepQ (w : DWord) : Nat := natField w.toNat 30 3
def stepNeg (w : DWord) : Bool := natBit w.toNat 29
def stepNp (w : DWord) : Bool := natBit w.toNat 28
def stepNc (w : DWord) : Bool := natBit w.toNat 27

/-- The last reserved bits, fields that the step's OP does not use, reserved values and slots (R400). -/
def stepOk (w : DWord) : Bool :=
  let z (b : Bool) (x : Nat) : Bool := b || x == 0
  let op := stepOp w
  let dst := op == 0 || op == 2 || op == 3
  natField w.toNat 0 27 == 0 && op ≤ 5 &&
    (if dst then 24 ≤ stepDst w && stepDst w ≤ 55 else stepDst w == 0) &&
    stepA w < 60 && stepB w < 60 && stepC w < 60 &&
    z (op != 5) (stepA w) && z (op != 3 && op != 5) (stepB w) && z (op == 0 || op == 4) (stepC w) &&
    (if op == 1 then stepCond w ≤ 3 else stepCond w == 0) && z (op == 1 || op == 2 || op == 4) (stepQ w) &&
    z (op == 2 || op == 4) (b2n (stepNeg w)) && z (op == 0 || op == 1) (b2n (stepNp w)) && z (op == 0) (b2n (stepNc w))

/-- A program's step words: every one sound, END exactly at the end. -/
def stepsOk (ws : List DWord) : Bool :=
  ws.all stepOk && (ws.getLast?.map stepOp) == some 5 && ws.dropLast.all fun w => stepOp w != 5

/-- A leaf test as it runs: slots, predicates, the step's number, the best candidate. -/
structure LeafRun where
  slots : List Nat
  q     : List Bool
  step  : Nat
  best  : Option HitCand
  deriving DecidableEq, Repr

def LeafRun.slot (x : LeafRun) (n : Nat) : Nat := x.slots.getD n 0

def canonF32 (x : Nat) : Nat := if fmt32.isNan x then fmt32.nan else x

def leafCond : Nat → FCond
  | 0 => .lt
  | 1 => .le
  | 2 => .eq
  | _ => .ne

/-- One step; a `.first` batch takes no candidate after its first (R397). -/
def leafStep (first : Bool) (prim kind : Nat) (x : LeafRun) (w : DWord) : LeafRun :=
  let a := x.slot (stepA w)
  let b := x.slot (stepB w)
  let c := x.slot (stepC w)
  let q := (x.q.getD (stepQ w) false) != stepNeg w
  let put (v : Nat) : LeafRun := { x with slots := x.slots.set (stepDst w) v }
  let neg (n : Bool) (v : Nat) : Nat := if n then fmt32.neg v else v
  let y := match stepOp w with
    | 0 => put (fmt32.fma ctlRne (neg (stepNp w) a) b (neg (stepNc w) c)).v
    | 1 =>
      let r := (fmt32.compare ctlRne (leafCond (stepCond w)) a b).1
      { x with q := x.q.set (stepQ w) (if stepNp w then x.q.getD (stepQ w) false && r else r) }
    | 2 => put (canonF32 (if q then a else b))
    | 3 => put (fmt32.rcp ctlRne a).v
    | 4 =>
      if q && !(first && x.best.isSome) && !fmt32.isNan a && leF32 (x.slot 3) a && leF32 a (x.slot 7) then
        { x with best := bestCand x.best ⟨a, canonF32 b, canonF32 c, prim, kind, x.step⟩ }
      else x
    | _ => x
  { y with step := x.step + 1 }

/-- A leaf test of one primitive. -/
def leafTest (first : Bool) (r : Ray) (k : KindProg) (prim : Nat) (words : List Nat) : Option HitCand :=
  let p := (List.range 16).map fun j => words.getD j 0
  let slots := r.org ++ [r.tmin] ++ r.dir ++ [r.tmax] ++ p ++ List.replicate 32 0 ++
    [0, fmt32.one, fmt32.neg fmt32.one, fmt32.inf false, 0, 0, 0, 0]
  (k.steps.foldl (leafStep first prim k.kind) ⟨slots, List.replicate 8 false, 0, none⟩).best

/-! ### Traversal (R395 to R398) -/

/-- How a traversal goes: a result so far, a wait, the end of the command, a fault of the batch. -/
inductive Walk where
  | ok (best : Option HitCand) (s : State)
  | wait (s : State)
  | over (s : State)
  | bad (code : BitVec 8) (detail : Word) (s : State)

/-- Bytes of the structure. -/
def structGet (s : State) (o : Op) (b : RayBatch) (off n : Nat) : ERes ⊕ Unit :=
  if outOfRange ⟨b.entry⟩ off n then .inr () else .inl (entryGet s o b.h ⟨b.entry⟩ off n)

/-- The visits of a list, in turn; a `.first` batch ends at a candidate. -/
def visitAll (first : Bool) (f : State → Nat → Option HitCand → Walk) : State → List Nat → Option HitCand → Walk
  | s, [], best => .ok best s
  | s, x :: rest, best =>
    if first && best.isSome then .ok best s
    else match f s x best with
      | .ok best s => visitAll first f s rest best
      | r => r

/-- The order in which a unit takes children and primitives: any in a `.first` batch. -/
def visitOrder (s : State) (first : Bool) (salt n : Nat) : List Nat :=
  let k := if first then Config.freeNat s.ticks salt % Nat.max 1 n else 0
  (List.range n).map fun j => (j + k) % Nat.max 1 n

/-- The leaf test of one primitive of a batch. -/
def visitPrim (o : Op) (b : RayBatch) (r : Ray) (k : KindProg) (s : State) (p : Nat) (best : Option HitCand) : Walk :=
  let bounds (s : State) : Walk := .bad codeBounds (b.h.setWidth 32) s
  let test (words : List Nat) (s : State) : Walk :=
    match leafTest b.first r k p words with
    | some c => .ok (bestCand best c) s
    | none => .ok best s
  if b.prims ≤ p then bounds s
  else if k.pw == 0 then test [] s
  else match structGet s o b (b.primOff + 64 * p) (4 * k.pw) with
    | .inr _ => bounds s
    | .inl (.wait s) => .wait s
    | .inl (.over s) => .over s
    | .inl (.ok bs s) => test ((List.range k.pw).map fun j => leNat ((bs.drop (4 * j)).take 4)) s

/-- A visited child: its mask and its box have passed. -/
def visitChild (o : Op) (b : RayBatch) (r : Ray) (node : State → Nat → Option HitCand → Walk) (s : State) (ref : Nat)
    (best : Option HitCand) : Walk :=
  match natField ref 30 2 with
  | 0 => .ok best s
  | 1 => node s (natField ref 0 30) best
  | 2 =>
    match s.vis.kinds.find? fun k => k.ctx == b.ctx && k.kind == natField ref 26 4 with
    | none => .bad codeIllop 0 s
    | some k =>
      let first := natField ref 0 21
      visitAll b.first (fun s j => visitPrim o b r k s (first + j)) s (visitOrder s b.first ref (natField ref 21 5 + 1)) best
  | _ => .bad codeIllop 0 s

/-- A node and what lies below it, at most 64 nodes deep; `salt` tells rays apart. -/
def visitNode (o : Op) (b : RayBatch) (r : Ray) (salt : Nat) : Nat → State → Nat → Option HitCand → Walk
  | 0, s, _, _ => .bad codeBounds (b.h.setWidth 32) s
  | fuel + 1, s, n, best =>
    if b.nodes ≤ n then .bad codeBounds (b.h.setWidth 32) s
    else match structGet s o b (b.nodeOff + 128 * n) 128 with
      | .inr _ => .bad codeBounds (b.h.setWidth 32) s
      | .inl (.wait s) => .wait s
      | .inl (.over s) => .over s
      | .inl (.ok bs s) =>
        let w (k : Nat) : Nat := leNat ((bs.drop k).take 4)
        let child (s : State) (c : Nat) (best : Option HitCand) : Walk :=
          let box := (List.range 6).map fun j => w (24 * c + 4 * j)
          let ref := w (96 + 4 * c)
          let seen := natField ref 30 2 != 0 && ((bs.getD (112 + c) 0) &&& BitVec.ofNat 8 r.mask) != 0 && boxSound box &&
            (boxHit r box || Config.boxExtra s.ticks (salt * 2 ^ 34 + 4 * n + c))
          if seen then visitChild o b r (visitNode o b r salt fuel) s ref best else .ok best s
        visitAll b.first child s (visitOrder s b.first n 4) best

/-! ### Hit records (R394) -/

def hitRecord (r : Ray) (res : Option (Option HitCand)) : List Byte :=
  let inf := fmt32.inf false
  let (t, prim, stat, u, v) := match res with
    | some (some c) => (c.t, c.prim, 2 ^ 24 + c.kind * 2 ^ 20, c.u, c.v)
    | some none => (inf, 2 ^ 32 - 1, 0, 0, 0)
    | none => (inf, 2 ^ 32 - 1, 2 * 2 ^ 24, 0, 0)
  leBytes 4 t ++ leBytes 4 prim ++ leBytes 4 stat ++ leBytes 4 r.user ++ leBytes 4 u ++ leBytes 4 v ++ leBytes 8 0

/-! ### The Furrow (R402) -/

/-- floor(x / 2^e) modulo 512 of a finite pattern. -/
def cellOf (x : Nat) (e : Int) : Nat :=
  let k := fixed x
  let sh := (e + 149).toNat
  (k / (2 ^ sh : Nat) % 512).toNat

/-- The key of a ray: its octant, then the interleaved bits of its origin cell. -/
def furrowKey (e : Int) (r : Ray) : Nat :=
  let oct := ((List.range 3).map fun k => b2n (fmt32.sign (r.dir.getD k 0)) * 2 ^ (2 - k)).sum
  let cs := r.org.map fun x => cellOf x e
  oct * 2 ^ 27 + ((List.range 9).map fun j => ((List.range 3).map fun k => b2n (natBit (cs.getD k 0) j) * 2 ^ (3 * j + k)).sum).sum

/-- Rays by ascending key; equal keys stay in arrival order. -/
def furrowOrder {α : Type} (xs : List (Nat × α)) : List (Nat × α) :=
  xs.foldl (fun acc x => (acc.filter fun y => decide (y.1 ≤ x.1)) ++ [x] ++ acc.filter fun y => decide (x.1 < y.1)) []

/-- The rays of a batch, numbered. -/
def batchRays (s : State) (o : Op) (b : RayBatch) : List (Nat × Ray) :=
  (List.range b.n).map fun k => (k, rayOf (scratchGet s o (b.rays + 48 * k) 48))

/-- The rays that the Furrow holds of a batch, under their keys. -/
def furrowRays (s : State) (b : RayBatch) : List (Nat × Nat × Nat × Nat) :=
  match s.op? b.op with
  | some o => ((batchRays s o b).filter fun r => !r.2.invalid).map fun r => (furrowKey b.cellExp r.2, b.die, b.op, r.1)
  | none => []

/-- Rays that the Furrow of a die holds: an INVALID ray skips it. -/
def furrowLoad (s : State) (die : Nat) : Nat :=
  ((s.vis.batches.filter fun b => b.die == die && b.furrow.isSome).map (·.held)).sum

def State.updVis (s : State) (f : Vis → Vis) : State := { s with vis := f s.vis }

/-- Lets the batches of a selection leave the Furrow: all their rays in one order of keys. -/
def leaveFurrow (s : State) (sel : RayBatch → Bool) : State :=
  let out := furrowOrder ((s.vis.batches.filter fun b => sel b && b.furrow.isSome).flatMap (furrowRays s))
  s.updVis fun v => { v with
    batches := v.batches.map fun b => if sel b then { b with furrow := none } else b
    left := v.left ++ out.map (·.2) }

/-- FURROW_RELEASE: the buffer of a die is full, or its oldest ray has waited 4,096 cycles. -/
def execFurrowRelease (die : Nat) (s : State) : Out :=
  let old := s.vis.batches.any fun b => b.die == die && (match b.furrow with
    | some c => decide (4096 ≤ (s.clk - c).toNat)
    | none => false)
  if old || 65536 ≤ furrowLoad s die then .next (leaveFurrow s fun b => b.die == die) else .next s

/-! ### rtrace, rsort (R409) -/

/-- The header of a structure (R395); none when a reserved field is not zero or an offset is not aligned. -/
def structHead (bs : List Byte) (b : RayBatch) : Option RayBatch :=
  let r := leNat bs
  let f (byte bytes : Nat) : Nat := natField r (8 * byte) (8 * bytes)
  let e := natToInt (f 5 1) 8
  if f 4 1 / 16 != 0 || f 6 2 != 0 || f 32 32 != 0 || f 8 8 % 128 != 0 || f 16 8 % 64 != 0 || decide (e < -16) ||
      decide (15 < e) then none
  else some { b with root := f 0 4, cellExp := e, nodeOff := f 8 8, primOff := f 16 8, nodes := f 24 4, prims := f 28 4 }

/-- Whether the partition of a team has ray units for the instruction. -/
def hasRays (s : State) (t : Team) (sort : Bool) : Bool :=
  match s.partOf t with
  | some p => !sort || p.furw.getLsbD (dieNo t.place.die)
  | none => false

/-- Enters bytes of a handle from one offset on as operands of a command, as far as the handle reaches. -/
def useBytes (s : State) (o : Op) (e : HEnt) (off n : Nat) : State :=
  let k := Nat.min n (e.len - off)
  if k == 0 then s else useExtent s o false e ⟨off, k, []⟩

/-- Accepts a batch: its rays, its structure and its records are storage in use. -/
def acceptRays (s : State) (t : Team) (i : Instr) (fs : Bool) (b : RayBatch) (er eh : HEnt) (sr sh : Int) : State :=
  let id := s.nextOp
  let s := issueOp (s.updVis fun v => { v with batches := v.batches ++ [{ b with op := id }] }) t.spent i fs (.rays id)
  match s.op? id with
  | some o =>
    let e : HEnt := ⟨b.entry⟩
    let s := useBytes (useBytes (useBytes s o e 0 64) o e b.nodeOff (128 * b.nodes)) o e b.primOff (64 * b.prims)
    useExtent (useExtent s o false er ⟨sr, 48 * b.n, []⟩) o true eh ⟨sh, 32 * b.n, []⟩
  | none => s

/-- The access of a structure's header. -/
def headReq (s : State) (t : Team) (i : Instr) (hs : BitVec 12) (es : HEnt) : Req :=
  { t, c := s.ctxOf t, ix := hs, e := es, uni := true, use := .ld, acc := .read, size := 64, align := 1, lanes := [(0, 0)],
    opc := instrOpc i }

def raysMeaning (i : Instr) (sort fs first : Bool) (sr n sh : Src) (hr hs hh : BitVec 12) (s : State) : Out :=
  longOp s fs fun t =>
    let a : Int := (val32 s t true 0 sr).toNat
    let k := (val32 s t true 0 n).toNat
    let z : Int := (val32 s t true 0 sh).toNat
    let fault (code : BitVec 8) (h : BitVec 12) (s : State) : Out := .next (takeFault s t i (t.uniFault code (h.setWidth 32)))
    if sort && !(s.ctxOf t).furrow then .next (takeFault s t i (t.uniFault codePriv))
    else if k == 0 || 4096 < k then .next (takeFault s t i illop)
    else
      withHandle s t i (some fs) true t.active (.idx hs) fun _ es s =>
      withHandle s t i (some fs) true t.active (.idx hr) fun _ er s =>
      withHandle s t i (some fs) true t.active (.idx hh) fun _ eh s =>
        if es.kind != kGlobal then fault codePerm hs s
        else if er.kind != kScratch then fault codePerm hr s
        else if eh.kind != kScratch then fault codePerm hh s
        else
          sideCheck s t i fs hr .engR .engRead a (48 * k) 1 fun er s =>
          sideCheck s t i fs hh .engW .engWrite z (32 * k) 1 fun eh s =>
            if a % 16 != 0 then fault codeAlign hr s
            else if z % 16 != 0 then fault codeAlign hh s
            else
              sideCheck s t i fs hs .ld .read 0 64 1 fun es s =>
                match recBytes s t i (some fs) (headReq s t i hs es) with
                | .error s => .next s
                | .ok (bs, s) =>
                  let b : RayBatch :=
                    { op := 0, ctx := t.ctx, die := t.place.die, h := hs, entry := es.raw, root := 0, nodeOff := 0,
                      primOff := 0, nodes := 0, prims := 0, cellExp := 0, rays := er.soff + a.toNat,
                      hits := eh.soff + z.toNat, n := k, first, trap := t.ctl.mode.getLsbD 15,
                      entered := false, held := 0, furrow := none }
                  match structHead bs b with
                  | none => .next (takeFault s t i illop)
                  | some b =>
                    if !hasRays s t sort then .next (takeFault s t i (absentFault t))
                    else .next (acceptRays s t i fs b er eh a z)

def execRtrace (fs first : Bool) (sr n sh : Src) (hr hs hh : BitVec 12) (s : State) : Out :=
  raysMeaning (.rtrace fs first sr n sh hr hs hh) false fs first sr n sh hr hs hh s

def execRsort (fs first : Bool) (sr n sh : Src) (hr hs hh : BitVec 12) (s : State) : Out :=
  raysMeaning (.rsort fs first sr n sh hr hs hh) true fs first sr n sh hr hs hh s

/-! ### A batch to its end (R409 to R411) -/

/-- What a report names for a ray: the lane of its number; the spec has no room for a number above 1,023 (DEDUCED, log entry
70). -/
def rayMask (ticks i : Nat) : Mask := if i < 1024 then Mask.bit i else BitVec.ofNat 1024 (Config.freeNat ticks i)

/-- Rays of a batch traced in turn: records by ray number. -/
inductive Traced where
  | ok (recs : List (Nat × List Byte)) (s : State)
  | wait (i : Nat) (s : State)
  | over (s : State)
  | bad (i : Nat) (code : BitVec 8) (detail : Word) (s : State)

/-- Rays traced in turn; what a command meets for a ray, it reports under the ray's number (R410). -/
def traceRays (o : Op) (b : RayBatch) : State → List (Nat × Ray) → List (Nat × List Byte) → Traced
  | s, [], acc => .ok acc s
  | s, (i, r) :: rest, acc =>
    if r.invalid then traceRays o b s rest ((i, hitRecord r none) :: acc)
    else if r.empty then traceRays o b s rest ((i, hitRecord r (some none)) :: acc)
    else match visitNode { o with names := rayMask s.ticks i } b r i 64 s b.root none with
      | .ok best s => traceRays o b s rest ((i, hitRecord r (some best)) :: acc)
      | .wait s => .wait i s
      | .over s => .over s
      | .bad code detail s => .bad i code detail s

/-- Counts the invalid rays of a batch in its context (R393). -/
def countInvalid (s : State) (b : RayBatch) (n : Nat) : State :=
  s.updCtx b.ctx fun c => { c with invalidRays := c.invalidRays + BitVec.ofNat 64 n }

def putHits (s : State) (o : Op) (b : RayBatch) (recs : List (Nat × List Byte)) : State :=
  recs.foldl (fun s r => scratchPut s o (b.hits + 32 * r.1) r.2) s

/-- The batch's rays are classified: INVALID ones are counted and recorded at once, the others of a sorted batch enter the
Furrow of the die, which lets everything go when it is full (R402), and at once those of a context whose slice has ended (R417); a
trapped batch with an INVALID ray ends (R411). -/
def enterBatch (s : State) (o : Op) (b : RayBatch) : State :=
  let bad := (batchRays s o b).filter fun r => r.2.invalid
  let s := countInvalid s b bad.length
  match b.trap, bad with
  | true, r :: _ => faultOp (dropBatch s o.id) { o with names := rayMask s.ticks r.1 } { code := codeRay }
  | _, _ =>
    let s := putHits s o b (bad.map fun r => (r.1, hitRecord r.2 none))
    let stays := !((s.ctx? b.ctx).map (·.sliceEnd)).getD true
    let held := b.n - bad.length
    let enter (x : RayBatch) : RayBatch :=
      if x.op == o.id then { x with entered := true, held, furrow := if o.opc == 0xD2 && held != 0 then some s.clk else none } else x
    let s := s.updVis fun v => { v with batches := v.batches.map enter }
    if 65536 ≤ furrowLoad s b.die then leaveFurrow s fun x => x.die == b.die
    else if stays then s else leaveFurrow s fun x => x.op == o.id

/-- The rays that a batch traces now: of a sorted batch those that come first among the rays that have left its die's Furrow, those of
batches that wait left out. -/
def dueRays (s : State) (o : Op) (b : RayBatch) : List (Nat × Ray) :=
  let rays := (batchRays s o b).filter fun r => !r.2.invalid
  if o.opc != 0xD2 then rays
  else
    let mine := (s.vis.left.filter fun x => x.1 == b.die && (x.2.1 == o.id || !s.opHeld x.2.1)).takeWhile (·.2.1 == o.id)
    mine.filterMap fun x => rays.find? (·.1 == x.2.2)

/-- A batch traces the rays whose turn it is; one that waits for a page or a fill traces them again, and its reports name the
ray that waits (R410). -/
def runBatch (s : State) (o : Op) (b : RayBatch) : State :=
  let rays := dueRays s o b
  match traceRays o b s rays [] with
  | .wait i s => s.updOp o.id fun o => { o with names := rayMask s.ticks i }
  | .over s => s
  | .bad i code detail s => faultOp s { o with names := rayMask s.ticks i } { code, detail }
  | .ok recs s =>
    let s := (putHits s o b recs).updVis fun v => { v with left := v.left.filter fun x => !(x.2.1 == o.id && rays.any (·.1 == x.2.2)) }
    if s.vis.left.any (·.2.1 == o.id) then s else endCommand (dropBatch (spoilResult s o) o.id) o

/-- RAY_BATCH_COMPLETE: a batch classifies its rays, and traces them once the Furrow has let them go. -/
def execRayBatchComplete (op : Nat) (s : State) : Out :=
  match s.op? op, s.vis.batches.find? (·.op == op) with
  | some o, some b =>
    if s.opHeld op then .next s
    else if !b.entered then .next (enterBatch s o b)
    else if b.furrow.isSome then .next s
    else .next (runBatch s o b)
  | _, _ => .next s

/-! ### rprog (R413) -/

def execRprog (fs : Bool) (kind : BitVec 8) (r : RecRef) (s : State) : Out :=
  let i := Instr.rprog fs kind r
  longOp s fs fun t =>
    withRecord s t i (some fs) .readRec r 8 8 fun hd s =>
      let h := leNat hd
      let steps := natField h 0 8
      let pw := natField h 8 8
      if natField h 16 48 != 0 || steps == 0 || 64 < steps || 16 < pw then .next (takeFault s t i illop)
      else
        withRecord s t i (some fs) .readRec r (8 + 8 * steps) 8 fun bs s =>
          let ws : List DWord := (List.range steps).map fun k => BitVec.ofNat 64 (leNat ((bs.drop (8 + 8 * k)).take 8))
          if !stepsOk ws then .next (takeFault s t i illop)
          else .next (issueOp s t.spent i fs (.rprog kind.toNat pw ws))

/-- RPROG_INSTALL: every batch of the context accepted before it has completed. -/
def execRprogInstall (op : Nat) (s : State) : Out :=
  match s.op? op with
  | some o =>
    match o.kind with
    | .rprog kind pw steps =>
      let before := s.ops.any fun p => p.ctx == o.ctx && decide (p.id < op) && (match p.kind with
        | .rays _ => true
        | _ => false)
      if before then .next s
      else
        let s := s.updVis fun v => { v with
          kinds := v.kinds.filter (fun k => !(k.ctx == o.ctx && k.kind == kind)) ++ [⟨o.ctx, kind, pw, steps⟩] }
        .next (endCommand s o)
    | _ => .next s
  | none => .next s

/-! ### rhit (R412) -/

def execRhit (g : Guard) (short : Bool) (d : Dst) (x : Src) (h : BitVec 12) (imm : BitVec 20) (pq : Option PredIx) (s : State) :
    Out :=
  let i := Instr.rhit g short d x h imm pq
  onTeam s fun t =>
    if !allocOk t d [x] then .next (takeFault s t i illop)
    else
      let ok := t.eligible g
      let ls := (match t.unfin with
        | some u => ok &&& u
        | none => ok).lanes t.nlanes
      let size := if short then 16 else 32
      let at_ (L : Nat) : Int := ((val32 s t false L x).toNat * 32 : Nat) + imm.toInt
      scratchLanes s t i false (.idx h) (ls.map fun L => (L, at_ L)) .lds .read size 16 fun s t q ls =>
        let data := ls.map fun l => (l.1, (List.range size).map fun k => scratchByte s t (q.e.soff + l.2.toNat + k))
        let bytes (L : Nat) : List Byte := ((data.find? (·.1 == L)).map (·.2)).getD []
        let m := Mask.ofLanes (data.map (·.1))
        let t := t.writeDst m d fun L => (List.range (size / 4)).map fun k => BitVec.ofNat 32 (leNat (((bytes L).drop (4 * k)).take 4))
        (s, match pq with
          | some p => t.onLanes m fun L l => l.setP p ((bytes L).getD 11 0 == 1)
          | none => t)

/-- `rhit.cnt`: it runs in the Nib and takes no guard (DEDUCED, log entry 119). -/
def execRhitCnt (d : Dst) (s : State) : Out :=
  onTeam s fun t =>
    let n := (s.ctxOf t).invalidRays
    .next (s.setTeam ((t.writeUni d [lo32 n, hi32 n]).advance (.rhitCnt d)))

/-! ### Raster jobs (R403 to R407, R414) -/

/-- A job from its descriptor; none when a field is reserved or out of range. -/
def jobOf (bs : List Byte) (j : RasterJob) : Option RasterJob :=
  let r := leNat bs
  let f (byte bytes : Nat) : Nat := natField r (8 * byte) (8 * bytes)
  let cap := f 32 4
  let tc := f 4 4
  let size (n : Nat) : Bool := 1 ≤ n && n ≤ 16384
  if f 0 2 ≥ 4096 || f 2 2 ≥ 4096 || tc == 0 || 2 ^ 24 < tc || !size (f 8 2) || !size (f 10 2) || 2 ≤ f 12 1 || f 13 3 != 0 ||
      f 16 8 % 64 != 0 || f 24 8 % 128 != 0 || !((List.range 21).any fun k => cap == 2 ^ (k + 4)) || f 36 28 != 0 then none
  else
    some { j with
      triH := BitVec.ofNat 12 (f 0 2), ringH := BitVec.ofNat 12 (f 2 2), tcount := tc, width := f 8 2, height := f 10 2,
      cull := f 12 1 == 1, toff := f 16 8, soff := f 24 8, cap }

/-- The offset of a die's ring. -/
def RasterJob.ring (j : RasterJob) : Nat := j.soff + 16 * j.cap * dieNo j.die

/-- Whether a job is not ended. -/
def RasterJob.isOpen (s : State) (j : RasterJob) : Bool := (s.op? j.op).isSome

def RasterJob.id (j : RasterJob) : Word := BitVec.ofNat 32 (dieNo j.die * 2 ^ 16 + j.seq)

/-- Whether the partition holds the raster unit of the team's die. -/
def hasRaster (s : State) (t : Team) : Bool :=
  match s.partOf t with
  | some p => p.rast.getLsbD (dieNo t.place.die)
  | none => false

/-- A handle that a job names: GLOBAL with its rights, over a range (R195). -/
def jobSide (s : State) (t : Team) (i : Instr) (fs : Bool) (h : BitVec 12) (write : Bool) (off size : Nat)
    (go : HEnt → State → Out) : Out :=
  withHandle s t i (some fs) true t.active (.idx h) fun ix e s =>
    match uniCheck s t e ix off size 1 (e.kind == kGlobal) (e.right rR && (!write || e.right rW)) with
    | some f => .next (takeFault s t i f)
    | none => go e s

def blankJob (t : Team) : RasterJob :=
  { die := t.place.die, seq := 0, op := 0, ctx := t.ctx, triH := 0, triE := 0, ringH := 0, ringE := 0, tcount := 0, width := 0,
    height := 0, cull := false, toff := 0, soff := 0, cap := 0, samples := none, ready := [], produced := 0, taken := 0 }

/-- Accepts a job under the next sequence number of its die; its triangles and its ring are storage in use. -/
def acceptJob (s : State) (t : Team) (i : Instr) (fs : Bool) (d : Dst) (j : RasterJob) : State :=
  let seq := ((s.vis.nextJob.find? (·.1 == j.die)).map (·.2)).getD 0
  let op := s.nextOp
  let j := { j with seq, op }
  let s := s.updVis fun v => { v with
    jobs := v.jobs.filter (fun x => !(x.die == j.die && x.seq == seq)) ++ [j]
    nextJob := (j.die, (seq + 1) % 2 ^ 16) :: v.nextJob.filter (·.1 != j.die) }
  let s := issueOp s (t.spent.writeUni d [j.id]) i fs (.visJob j.die seq)
  match s.op? op with
  | some o => useExtent (useBytes s o ⟨j.triE⟩ j.toff (64 * j.tcount)) o true ⟨j.ringE⟩ ⟨j.ring, 16 * j.cap, []⟩
  | none => s

def execVisJob (fs : Bool) (d : Dst) (r : RecRef) (s : State) : Out :=
  let i := Instr.visJob fs d r
  longOp s fs fun t =>
    loadRecord s t i fs r 64 8 fun bs s =>
      match jobOf bs (blankJob t) with
      | none => .next (takeFault s t i illop)
      | some j =>
        jobSide s t i fs j.triH false j.toff (64 * j.tcount) fun et s =>
        jobSide s t i fs j.ringH true j.ring (16 * j.cap) fun es s =>
          if !hasRaster s t then .next (takeFault s t i (absentFault t))
          else if 8 ≤ (s.vis.jobs.filter fun x => x.die == j.die && x.isOpen s).length then waitHere s t .stall
          else .next (acceptJob s t i fs d { j with triE := et.raw, ringE := es.raw })

/-! ### Coverage, depth, samples (R405, R406) -/

/-- A triangle that is not discarded: vertices as (x, y, z, u, v) in units of 2^-149, its area, its tag word. -/
structure Tri where
  ix   : Nat
  vs   : List (List Int)
  area : Int
  tag  : Nat
  deriving DecidableEq, Repr

def Tri.c (t : Tri) (v k : Nat) : Int := (t.vs.getD v []).getD k 0

def triOf (cull : Bool) (ix : Nat) (bs : List Byte) : Option Tri :=
  let w (v k : Nat) : Nat := leNat ((bs.drop (20 * v + 4 * k)).take 4)
  let raw := (List.range 3).map fun v => (List.range 5).map (w v)
  if raw.any fun v => v.any fun x => fmt32.isNan x || fmt32.isInf x then none
  else
    let t : Tri := ⟨ix, raw.map (·.map fixed), 0, leNat (bs.drop 60)⟩
    let area := (t.c 1 0 - t.c 0 0) * (t.c 2 1 - t.c 0 1) - (t.c 1 1 - t.c 0 1) * (t.c 2 0 - t.c 0 0)
    if area == 0 || (decide (area < 0) && cull) then none else some { t with area }

/-- The edge function opposite to vertex v at a point. -/
def Tri.edge (t : Tri) (v : Nat) (x y : Int) : Int :=
  let a := (v + 1) % 3
  let b := (v + 2) % 3
  (t.c b 0 - t.c a 0) * (y - t.c a 1) - (t.c b 1 - t.c a 1) * (x - t.c a 0)

/-- Whether the edge opposite to vertex v is a top edge or a left edge. -/
def Tri.topLeft (t : Tri) (v : Nat) : Bool :=
  let a := (v + 1) % 3
  let b := (v + 2) % 3
  let dy := t.c b 1 - t.c a 1
  if dy == 0 then decide (t.c a 1 < t.c v 1)
  else
    let side := (t.c v 0 - t.c a 0) * dy - (t.c v 1 - t.c a 1) * (t.c b 0 - t.c a 0)
    decide (0 < side * dy)

def Tri.covers (t : Tri) (x y : Int) : Bool :=
  (List.range 3).all fun v =>
    let e := t.edge v x y
    if e == 0 then t.topLeft v else decide (0 < e * t.area)

/-- A vertex value interpolated at a point, as a fraction over a positive denominator. -/
def Tri.at_ (t : Tri) (k : Nat) (x y : Int) : Bound :=
  let n := t.edge 0 x y * t.c 0 k + t.edge 1 x y * t.c 1 k + t.edge 2 x y * t.c 2 k
  if decide (t.area < 0) then ⟨-n, -t.area⟩ else ⟨n, t.area⟩

/-- A quarter of a pixel coordinate in units of 2^-149. -/
def quarter (p q : Nat) : Int := ((4 * p + q) * 2 ^ 147 : Nat)

/-- The triangle that owns a subsample. -/
def subOwner (ts : List Tri) (x y : Int) : Option Nat :=
  (ts.foldl (fun a t =>
    if !t.covers x y then a
    else match a with
      | none => some t
      | some b => if (b.at_ 2 x y).le (t.at_ 2 x y) then some b else some t) none).map (·.ix)

/-- A texel coordinate: floored, clamped to 16 bits. -/
def texelOf (b : Bound) : Nat :=
  let n := b.n / (b.d * (2 ^ 149 : Nat))
  if n < 0 then 0 else Nat.min n.toNat 65535

/-- The samples of a pixel, in order of triangle. -/
def pixelSamples (ts : List Tri) (px py : Nat) : List (List Word) :=
  let owners := (List.range 4).map fun k => subOwner ts (quarter px (1 + 2 * (k % 2))) (quarter py (1 + 2 * (k / 2)))
  ts.filterMap fun t =>
    let cov := ((List.range 4).map fun k => if owners.getD k none == some t.ix then 2 ^ k else 0).sum
    if cov == 0 then none
    else
      let x := quarter px 2
      let y := quarter py 2
      some ([t.tag, py * 2 ^ 16 + px, texelOf (t.at_ 4 x y) * 2 ^ 16 + texelOf (t.at_ 3 x y), cov].map (BitVec.ofNat 32))

/-- Every sample of a job in the order of R407. -/
def jobSamples (j : RasterJob) (ts : List Tri) : List (List Word) :=
  let tiles (n : Nat) : Nat := (n + 31) / 32
  (List.range (tiles j.height)).flatMap fun ty => (List.range (tiles j.width)).flatMap fun tx =>
    if tx % 2 + 2 * (ty % 2) != dieNo j.die then []
    else (List.range 32).flatMap fun dy => (List.range 32).flatMap fun dx =>
      let x := 32 * tx + dx
      let y := 32 * ty + dy
      if j.width ≤ x || j.height ≤ y then [] else pixelSamples ts x y

/-! ### The unit at work -/

def State.job? (s : State) (die seq : Nat) : Option RasterJob := s.vis.jobs.find? fun j => j.die == die && j.seq == seq

def State.updJob (s : State) (die seq : Nat) (f : RasterJob → RasterJob) : State :=
  s.updVis fun v => { v with jobs := v.jobs.map fun j => if j.die == die && j.seq == seq then f j else j }

/-- Triangles of a list from one index on, or why they cannot be read now. -/
def readTris (o : Op) (j : RasterJob) : Nat → State → Nat → List Tri → Except State (List Tri × State)
  | 0, s, _, acc => .ok (acc, s)
  | n + 1, s, k, acc =>
    match entryGet s o j.triH ⟨j.triE⟩ ((j.toff + 64 * k : Nat) : Int) 64 with
    | .ok bs s => readTris o j n s (k + 1) (acc ++ (triOf j.cull k bs).toList)
    | .wait s => .error s
    | .over s => .error s

/-- Writes the bytes of a sample part by part and gives their places. -/
def ringPut (o : Op) (q : Req) : State → List (Int × Nat) → List Byte → List (Nat × Nat) → Except State (List (Nat × Nat) × State)
  | s, [], _, acc => .ok (acc, s)
  | s, (off, n) :: rest, bs, acc =>
    match enginePart s o q off n with
    | .res (.ok _ s) => .error s
    | .res (.wait s) => .error s
    | .res (.over s) => .error s
    | .at_ pa s =>
      let cs : List Host.Cell := (bs.take n).mapIdx fun i b => (pa + i, engLeave s o.id none (pa + i) b)
      ringPut o q ((s.spoil none (cs.map (·.1)) (some o.id)).writeMem cs) rest (bs.drop n) (acc ++ [(pa, n)])

/-- Writes samples while the ring has room. -/
def writeSamples (o : Op) : Nat → State → Nat → Nat → State
  | 0, s, _, _ => s
  | fuel + 1, s, die, seq =>
    match s.job? die seq with
    | none => s
    | some j =>
      match j.samples with
      | some (w :: rest) =>
        if j.cap ≤ j.produced - j.taken then s
        else
          let off : Int := ((j.ring + 16 * (j.produced % j.cap) : Nat) : Int)
          let q := engReq s o j.ringH ⟨j.ringE⟩ true 16
          match ringPut o q s (engParts q off 16) (w.flatMap fun x => leBytes 4 x.toNat) [] with
          | .error s => s
          | .ok (at_, s) =>
            writeSamples o fuel
              (s.updJob die seq fun j => { j with samples := some rest, ready := j.ready ++ [at_], produced := j.produced + 1 })
              die seq
      | _ => s

/-- A job goes on: it reads its triangles, writes samples, ends. -/
def runJob (s : State) (o : Op) (j : RasterJob) : State :=
  match j.samples with
  | none =>
    match readTris o j j.tcount s 0 [] with
    | .error s => s
    | .ok (ts, s) => s.updJob j.die j.seq fun j => { j with samples := some (jobSamples j ts) }
  | some xs =>
    let s := writeSamples o xs.length s j.die j.seq
    match s.job? j.die j.seq, s.op? o.id with
    | some k, some o => if k.samples == some [] then endCommand (spoilResult s o) o else s
    | _, _ => s

/-- VIS_JOB_COMPLETE: the unit of a die works on the job that it accepted first. -/
def execVisJobComplete (die job : Nat) (s : State) : Out :=
  match s.job? die job with
  | none => .next s
  | some j =>
    match s.op? j.op with
    | none => .next s
    | some o =>
      let first := !s.vis.jobs.any fun x => x.die == die && x.isOpen s && decide (x.op < j.op)
      if first && !s.opHeld j.op then .next (runJob s o j) else .next s

/-! ### vis.get (R415) -/

/-- The live job of a context that a job id names. -/
def jobNamed (s : State) (t : Team) (w : Word) : Option RasterJob :=
  if w >>> 18 != 0 then none
  else s.vis.jobs.find? fun j => j.ctx == t.ctx && j.die == t.place.die / 4 * 4 + natField w.toNat 16 2 && j.seq == natField w.toNat 0 16

/-- The words of a sample at the places where it was written. -/
def sampleAt (s : State) (j : RasterJob) (at_ : List (Nat × Nat)) : List Word :=
  let bs := at_.flatMap fun p => (List.range p.2).map fun k =>
    let a := p.1 + k
    if s.usedBy none a (some j.op) then Config.freeByte s.ticks a else s.mem.read a
  (List.range 4).map fun k => BitVec.ofNat 32 (leNat ((bs.drop (4 * k)).take 4))

/-- A take from a job of another die: the team waits as at a remote load, and what it took is delivered even where a save cuts
the wait short (R415). -/
def takeRemote (s : State) (t : Team) (i : Instr) (w : Deliver) : State :=
  let o := { newOp s t i false (.take w) with flag := none, block := true }
  (s.addOp o).setTeam { (t.advance i) with status := .waiting (.remote o.id) }

def execVisGet (g : Guard) (d : Dst) (x : Src) (pq : Option PredIx) (s : State) : Out :=
  let i := Instr.visGet g d x pq
  onTeam s fun t =>
    if !allocOk t d [] then .next (takeFault s t i illop)
    else
      let m := t.eligible g
      let ls := m.lanes t.nlanes
      let end_ (die : Nat) (got : List (List Word)) (s : State) : Out :=
        let pos (L : Nat) : Nat := (ls.filter (· < L)).length
        let words (L : Nat) : List Word := got.getD (pos L) [0, 0, 0, 0]
        let t := match pq with
          | some p => t.onLanes m fun L l => l.setP p (pos L < got.length)
          | none => t
        if die != t.place.die && !ls.isEmpty then .next (takeRemote s t i ⟨d, ls.map fun L => (L, words L)⟩)
        else .next (s.setTeam ((t.writeDst m d words).advance i))
      match jobNamed s t (val32 s t true 0 x) with
      | none => end_ t.place.die [] s
      | some j =>
        if j.ready.length < ls.length && j.isOpen s then waitHere s t (.job j.die j.seq ls.length)
        else
          let n := Nat.min j.ready.length ls.length
          let s' := s.updJob j.die j.seq fun j => { j with ready := j.ready.drop n, taken := j.taken + n }
          match (j.ready.take n).flatten.findSome? fun p => errorAt s p.1 p.2 with
          | some d => .next (haltTeam s t (instrOpc i) codeContained d)
          | none => end_ j.die ((j.ready.take n).map (sampleAt s j)) s'

/-- VIS_GET_WAKE: enough samples, or the job has completed. -/
def execVisGetWake (uid : Nat) (s : State) : Out :=
  match s.team? uid with
  | some t =>
    match t.status with
    | .waiting (.job die n need) =>
      let go := match s.job? die n with
        | some j => decide (need ≤ j.ready.length) || !j.isOpen s
        | none => true
      .next (if go then s.setTeam { t with status := .running } else s)
    | _ => .next s
  | none => .next s

end Sys2Proof.Machine
end

