-- ==== Sys2Proof/Machine/Save.lean ====
section
/-! DEFINITION. The end of a slice and what it saves (16 R437 to R451, 12 R322, 13 R347): teams at blocking points, yields
and forced saves, quiescence, the image, the watchdog. -/

namespace Sys2Proof.Machine

def Status.isStopped : Status → Bool
  | .stopped .. => true
  | _ => false

/-! ### A team as its image holds it -/

/-- Counts of flags by operations that leave with the image. -/
def State.flagCounts (s : State) (uid : Nat) : List Nat :=
  (List.range 12).map fun n => (s.ops.filter fun o => o.uid == uid && o.flag == some n).length

/-- The team begins at a header when it is restored, with the flags that are still counted. -/
def Team.atHeader (t : Team) (pc : DWord) (flags : List Nat) : Team :=
  { t with
    status := .running, pc, clause := ⟨0, 15, 15, 0⟩, unfin := none, since := none, mark := none, reply := [], flags,
    ctl := { t.ctl with hmode := false } }

/-- Registers outside the ksave set read zero after a restore (R440). -/
def Team.keepKsave (t : Team) : Team :=
  let lane (l : Lane) : Lane :=
    { l with v := l.v.mapIdx fun k w => if t.ctl.ksv.getLsbD k then w else 0, p := l.p &&& t.ctl.ksp }
  { t with lanes := t.lanes.map lane, s := t.s.mapIdx fun k w => if t.ctl.kss.getLsbD k then w else 0 }

/-- A team at a remote load (08 R215): the load is performed again. A remote atomic has been performed, and samples have been
taken: their results are delivered (10 R256, 15 R415). -/
def settleRemote (s : State) (t : Team) (op : Nat) : State × Team :=
  match s.op? op with
  | none => (s, { t with status := .running })
  | some o =>
    match o.kind with
    | .load w _ =>
      let m := Mask.ofLanes (w.vals.map (·.1))
      (s.dropOp op, { t with
        status := .running, pc := o.ipc, clause := { t.clause with left := t.clause.left + 1 }
        unfin := some (if w.d.isVec then m else t.active) })
    | _ =>
      let s := completeOp (match o.kind with
        | .atomic w _ | .take w => s.updTeam t.uid (·.deliver w)
        | _ => s) o
      (s, (s.team? t.uid).getD t)

/-- Whether a save captures the team at its instruction, which has changed nothing and runs again: `waitf` (10 R273), `mwait`
(12 R326), `qwait` (17 R473), and `menq`, `qpost` and `spawn` at a full queue (12 R313, 17 R471, R472). -/
def Status.captured : Status → Bool
  | .waiting (.flags ..) | .waiting (.task ..) | .waiting (.queue ..) | .waiting .full => true
  | _ => false

/-- Whether a running team stands at an instruction that it has begun and that goes on from there: it has been woken and has not
replayed (14 R381). -/
def Team.midway (t : Team) : Bool := t.unfin.isSome || t.since.isSome

/-- The team as it is saved: a stopped one and a forced one that is not parked begin at their region entry, one that has
yielded behind its handler, a parked one or one that has been woken to replay as it stands, one whose instruction a save captures at
it (R438, R440, R441). -/
def savedForm (s : State) (t : Team) : State × Team :=
  let flags := s.flagCounts t.uid
  if t.leave == .yielded then (s, (t.atHeader t.ctl.epc flags).keepKsave)
  else if t.status.captured && t.mark.isNone then (s, { t with status := .running, flags })
  else if t.status == .running && t.midway then (s, t.elapsed s.clk)
  else if t.status.isStopped || !t.status.blocks then (s, t.atHeader t.resumePc flags)
  else
    let t := t.keepWait
    let (s, t) := match t.status with
      | .waiting (.remote op) => settleRemote s t op
      | _ => (s, t)
    (s, t.elapsed s.clk)

/-- A team that is in its context's image. -/
def Team.left (t : Team) : Team :=
  { t with leave := if t.leave == .yielded then .yielded else .stay, ctl := { t.ctl with slend := false } }

/-- Moves a team into its context's image; its slot is free. -/
def saveTeam (s : State) (t : Team) : State :=
  let (s, t) := savedForm s t
  let t := t.left
  let s := (s.unpin t.uid).setTiles fun x => x.keepWaiters (·.uid != t.uid)
  { s with
    teams := s.teams.filter (·.uid != t.uid)
    saved := s.saved.map fun v => if v.ctx == t.ctx then { v with teams := v.teams ++ [t] } else v }

/-! ### Quiescence (R442) -/

/-- Whether an operation leaves with the image: a task that does not run, what waits for one, an arrival or a part of a
collective that not every member has issued. -/
def leavesWithImage (s : State) (o : Op) : Bool :=
  let waits (x : Option Task) : Bool := x.any fun x => x.st == .queued || x.st == .ready
  match o.kind with
  | .task .. => waits (s.taskOf o.id)
  | .taskWait die id => waits (s.task? die id)
  | .coll group k =>
    !((s.eng.groups.find? fun g => g.ctx == o.ctx && g.ix == group).map fun g => reachedBy g g.nextColl k).getD false
  | .gbar .. => true
  | _ => false

/-- Whether a leaving team may be saved now: it is in no fence, which goes on to its end (09 R250), and its home has no answer for
it on the way. -/
def teamQuiet (s : State) (t : Team) : Bool :=
  let fenced := match t.status with
    | .waiting (.fence _) => true
    | .stopping _ => true
    | .running => t.mark.isSome
    | _ => false
  let own (o : Op) : Bool := t.status == .waiting (.remote o.id)
  !fenced && !t.retiring && !s.tileMail t.uid && (s.opsOf t.uid).all fun o => own o || leavesWithImage s o

/-- Whether an engine command of the team is stalled on one of its full buffers: the team is not evicted (10 R278). -/
def stalledFull (s : State) (t : Team) : Bool :=
  (s.opsOf t.uid).any fun o => match o.kind with
    | .copy c => c.started && c.dstSlot == 0 && (match c.dst with
      | .cb k _ => (t.cb k).free == 0
      | _ => false)
    | _ => false

/-! ### The end of a slice (R438) -/

/-- What the end of a slice does with one team; one whose command is stalled on its full buffer stays, one with a message of a tile
on the way leaves behind it. -/
def sliceTeam (s : State) (t : Team) : State :=
  if t.retiring || t.leave != .stay || t.ctl.slend || stalledFull s t then s
  else if (t.status.blocks && !s.tileMail t.uid) || t.status.isStopped then saveTeam s t
  else if t.status.blocks then s.setTeam { t with leave := .forced }
  else if s.yieldPc t != 0 then s.setTeam { t with ctl := { t.ctl with slend := true } }
  else s.setTeam { t with leave := .forced }

/-- Whether a slice of a context runs: no image of it is being made or waits to be checked. -/
def State.inSlice (s : State) (ctx : Word) : Bool := s.saved.all fun v => v.ctx != ctx || (v.complete && v.checked)

/-- SLICE_END: an image begins, with the teams that the slice has not restored; BUDGET is loaded, the Furrow lets the context's rays
go (15 R417). -/
def execSliceEnd (ctx : Word) (s : State) : Out :=
  match s.ctx? ctx with
  | none => .next s
  | some c =>
    if c.halted.isSome || !s.inSlice ctx then .next s
    else
      let s := s.updCtx ctx fun c => { c with sliceEnd := true, budget := some c.ybudget, due := none }
      let s := s.updPart c.part fun p => { p with sliceNo := p.sliceNo + 1 }
      let old := ((s.saved.find? (·.ctx == ctx)).map (·.teams)).getD []
      let v : Saved := { ctx, halted := false, nonce := c.nonce, image := [], teams := old, since := s.clk, complete := false }
      let s := leaveFurrow { s with saved := s.saved.filter (·.ctx != ctx) ++ [v] } fun b => b.ctx == ctx
      .next ((s.teams.filter (·.ctx == ctx)).foldl sliceTeam s)

/-- BUDGET_EXPIRY: every team of the context that is not saved is force-saved. -/
def execBudgetExpiry (ctx : Word) (s : State) : Out :=
  match s.ctx? ctx with
  | none => .next s
  | some c =>
    if c.budget != some 0 || !c.sliceEnd then .next s
    else
      .next { s with teams := s.teams.map fun t =>
        if t.ctx == ctx && !t.retiring && t.leave == .stay then { t with leave := .forced } else t }

/-! ### The image (R448 to R450) -/

def imageMagic : Nat := 0x41583949

/-- The key of a tenant. -/
def State.tenantKey (s : State) (tid : BitVec 16) : Option Nat := (s.mgmt.keys.find? (·.1 == tid)).map fun k => leNat k.2

/-- One section: its head and its bytes. -/
def section_ (kind owner : Nat) (bs : List Byte) : List Byte := leBytes 4 kind ++ leBytes 4 bs.length ++ leBytes 8 owner ++ bs

/-- Whether an operation of a number leaves with the image. -/
def leaves (s : State) (id : Nat) : Bool := (s.op? id).any (leavesWithImage s)

/-- The sections of a team. -/
def teamSections (s : State) (t : Team) : List (List Byte) :=
  let n := t.teamNo.toNat
  [section_ 3 n (teamBody (s.ctxOf t) t), section_ 4 n (regsBody t), section_ 5 n (scratchBody t), section_ 7 n (collBody s t (leaves s))]

/-- The sections of an image: the context's, which has no owner, then those of each grid with its teams (DESIGN CHOICE, log entry
71). -/
def imageSections (s : State) (c : Ctx) (ts : List Team) : List (List Byte) :=
  section_ 1 0 (contextBody s c) :: (s.grids.filter fun g => g.ctx == c.id).flatMap fun g =>
    let mine := ts.filter fun t => t.grid == g.id
    section_ 2 g.id.toNat (gridBody s g) :: mine.flatMap (teamSections s) ++ [section_ 6 g.id.toNat (tasksBody s g mine)]

/-- Header bytes 0 to 47. -/
def imageHead (c : Ctx) (halted : Bool) (nonce : DWord) (len nsect : Nat) : List Byte :=
  leBytes 4 imageMagic ++ leBytes 2 1 ++ leBytes 2 (b2n halted) ++ leBytes 4 c.id.toNat ++ leBytes 4 c.tid.toNat ++
    leBytes 8 nonce.toNat ++ leBytes 8 len ++ leBytes 4 nsect ++ leBytes 12 0

/-- The IV of an image: context and nonce, most significant byte first (R449). -/
def imageIv (ctx : Word) (nonce : DWord) : List Byte := (leBytes 4 ctx.toNat).reverse ++ (leBytes 8 nonce.toNat).reverse

/-- The ciphertext, as long as the plaintext, and the tag of 128 bits (16 R448, R449). -/
def gcmSeal (key : Nat) (iv aad plain : List Byte) : List Byte × List Byte :=
  let r := Config.gcmSealed key iv aad plain
  (leBytes plain.length r.1, leBytes 16 r.2)

/-- The bytes of an image. -/
def imageOf (s : State) (c : Ctx) (halted : Bool) (nonce : DWord) (ts : List Team) : List Byte :=
  let secs := imageSections s c ts
  let plain := secs.flatten
  let head := imageHead c halted nonce plain.length secs.length
  let (cipher, tag) := gcmSeal ((s.tenantKey c.tid).getD 0) (imageIv c.id nonce) head plain
  head ++ tag ++ cipher

/-! ### The save completes (R442, R443) -/

/-- The leaving teams of a context that are quiet are saved; one that stayed for a stalled command is handled as at the end of the
slice. -/
def saveQuiet (s : State) (ctx : Word) : State :=
  (s.teams.filter fun t => t.ctx == ctx).foldl (fun s t =>
    match s.team? t.uid with
    | some t => if t.leave == .stay then sliceTeam s t else if teamQuiet s t then saveTeam s t else s
    | none => s) s

/-- Whether a grid of a context has still to be signalled before its image (R445). -/
def gridsDue (s : State) (ctx : Word) : Bool :=
  s.grids.any fun g => g.ctx == ctx && gridOver s g && (finishLaunch s ctx g.lr g.gen.isSome).isSome

/-- Whether every team of a context has left and its outstanding counters have fallen. -/
def ctxQuiet (s : State) (ctx : Word) : Bool :=
  !s.teams.any (·.ctx == ctx) && (s.ops.filter (·.ctx == ctx)).all (leavesWithImage s)

/-- The image leaves: tasks and residencies go with it, the debt ends, its grids wait to be bound again. -/
def finishSave (s : State) (c : Ctx) (v : Saved) : State :=
  let nonce := c.nonce + 1
  let ts := v.teams.map fun t => if t.leave == .stay then t else (savedForm s t).2.left
  let img := imageOf s c v.halted nonce ts
  let s := s.updCtx c.id fun c => { c with
    nonce, sliceEnd := false, budget := none, debt := c.debt + (s.clk - v.since).toNat
    debug := (c.pend.map (·.1)).getD c.debug, ybudget := (c.pend.map (·.2)).getD c.ybudget, pend := none }
  let s := s.updMat fun m => { m with
    tasks := m.tasks.map fun x =>
      if x.ctx == c.id && (x.st == .queued || x.st == .ready) then { x with st := .queued, away := true } else x
    resid := m.resid.map fun r => if r.ctx == c.id && r.live then { r with away := true } else r }
  dropEmptyImages { s with
    grids := s.grids.map fun g => if g.ctx == c.id && !g.complete then { g with released := false, bound := [], cores := [] } else g
    saved := s.saved.map fun w => if w.ctx == c.id then { w with nonce, image := img, teams := ts, complete := true, key := s.tenantKey c.tid } else w }

/-- SAVE_COMPLETE; a context that ends has no image. -/
def execSaveComplete (ctx : Word) (s : State) : Out :=
  let s := saveQuiet s ctx
  match s.ctx? ctx, s.saved.find? (·.ctx == ctx) with
  | some c, some v =>
    if v.complete || !ctxQuiet s ctx || gridsDue s ctx || s.mgmt.mbox.ending == some ctx then .next s else .next (finishSave s c v)
  | _, _ => .next s

/-! ### The watchdog (R444) -/

/-- WDLIMIT of a context's partition in cycles of die 0's clock. -/
def watchdogCycles (s : State) (c : Ctx) : Nat :=
  let us := ((s.part? c.part).map (·.wdlimit.toNat)).getD 0
  us * 25 * ((s.mgmt.clk[0]?).getD 84).toNat

/-- An item ends ABORTED. -/
def abortOp (s : State) (o : Op) : State :=
  match o.kind with
  | .task .. => settleTasks (endCommand (endTask s o .aborted 0) o)
  | .mwld e _ _ =>
    let s := faultOp s o { code := codeAborted }
    s.updMat fun m => { m with resid := m.resid.map fun r =>
      if r.die == o.die && r.entry == e && r.live then { r with live := false, gen := r.gen + 1 } else r }
  | _ => faultOp s o { code := codeAborted }

/-- Work that a save does not stop (R443). -/
def OpKind.unstoppable : OpKind → Bool
  | .task .. | .copy .. | .coll .. | .mwld .. | .rays .. | .visJob .. => true
  | _ => false

/-- Whether an item still runs past the watchdog of its context's save. -/
def overrun (s : State) (o : Op) : Bool :=
  match s.ctx? o.ctx, s.saved.find? (·.ctx == o.ctx) with
  | some c, some v =>
    !v.complete && o.kind.unstoppable && !leavesWithImage s o && decide (watchdogCycles s c < (s.clk - v.since).toNat)
  | _, _ => false

/-- WATCHDOG_EXPIRY: the item ends, the context halts. -/
def execWatchdogExpiry (op : Nat) (s : State) : Out :=
  match s.op? op with
  | some o =>
    if !overrun s o then .next s
    else
      .next (haltOp (abortOp s o) o codeWatchdog 0)
  | none => .next s

/-! ### Restore (R451, 17 R487, R493) -/

/-- Whether the tag of an image holds: bytes that were sealed under the same key open. -/
def tagHolds (s : State) (c : Ctx) (key : Nat) (bs : List Byte) : Bool :=
  (s.saved.any fun v => v.ctx == c.id && v.image == bs && v.key == some key) ||
    (Config.gcmOpen key (imageIv c.id c.nonce) (bs.take 48) (bs.drop 64) ((bs.drop 48).take 16)).isSome

/-- Whether the header and the tag of an image hold (R451). -/
def imageSound (s : State) (c : Ctx) (bs : List Byte) : Bool :=
  let f (byte n : Nat) : Nat := leNat ((bs.drop byte).take n)
  match s.tenantKey c.tid with
  | none => false
  | some key =>
    f 0 4 == imageMagic && f 4 2 == 1 && f 6 2 < 2 && f 36 12 == 0 && f 8 4 == c.id.toNat && f 12 4 == c.tid.toNat &&
      f 16 8 == c.nonce.toNat && f 24 8 == bs.length - 64 && tagHolds s c key bs

/-- What a restore finds. -/
inductive Restoring where
  | refused
  | auth
  | ok
  deriving DecidableEq, Repr

/-- A restore from an address: a HALTED image is refused, one that fails a check halts the context. The teams that it
holds are those of the context's latest save. -/
def restoring (s : State) (c : Ctx) (pa : Nat) : Restoring :=
  let len := 64 + s.mem.readLE (pa + 24) 8
  let bs := s.mem.readBytes pa len
  if natBit (leNat ((bs.drop 6).take 2)) 0 then .refused
  else if imageSound s c bs && (match s.saved.find? (·.ctx == c.id) with
      | some v => !v.complete || v.image == bs
      | none => true) then .ok
  else .auth

/-- Cycles of a slice of a context's partition. -/
def sliceCycles (s : State) (c : Ctx) : Nat :=
  ((s.part? c.part).map (·.slice.toNat)).getD 0 * 25 * ((s.mgmt.clk[0]?).getD 84).toNat

/-- A slice begins with the image checked: it is shortened by the debt, and the tasks are posted before any team issues (R443, R451,
12 R322). -/
def startSlice (s : State) (c : Ctx) : State :=
  let n := sliceCycles s c
  let s := s.updCtx c.id fun c => { c with
    debt := c.debt - n, due := if n == 0 then none else some (s.clk + BitVec.ofNat 64 (n - c.debt)) }
  let s := s.updMat fun m => { m with tasks := m.tasks.map fun x => 
    if x.ctx == c.id && x.away then { x with away := false, turn := s.nextOp } else x }
  { s with saved := s.saved.map fun v => if v.ctx == c.id then { v with checked := true } else v }

/-- The firmware comes to a saved context: a slice shorter than its debt is skipped, else its image is checked (R443, R451; DEDUCED,
DEDUCED, log entry 67). -/
def nextSlice (s : State) (ctx : Word) : State :=
  match s.ctx? ctx, s.saved.find? (·.ctx == ctx) with
  | some c, some v =>
    let n := sliceCycles s c
    if v.halted || !v.complete || v.checked || s.coh.die0Dead then s
    else if n != 0 && n < c.debt then s.updCtx ctx fun c => { c with debt := c.debt - n }
    else if imageSound s c v.image then startSlice s c
    else haltCode s ctx codeImage 0
  | _, _ => s

/-- A residency of a restored context is loaded again by an idle engine that no other residency holds (12 R322). -/
def reloadResid (s : State) (r : Resid) : State :=
  match s.ctx? r.ctx with
  | none => s
  | some c =>
    let cores := ((s.part? c.part).map fun p => p.coresOn r.die).getD []
    match cores.find? fun k => (residAt s r.die k).isNone && engineIdle s r.die k with
    | none => s
    | some core =>
      let t := (s.teamAny r.uid).getD (freshTeam r.uid 0 r.ctx 0 0xFFFFFFFF ⟨0, 0, 0, 0, 0⟩ ⟨r.die, core, 0⟩ blankLaunch false)
      let o : Op :=
        { id := s.nextOp, uid := r.uid, ctx := r.ctx, grid := t.grid, die := r.die, core, flag := none, block := false,
          opc := 0xA2, ipc := t.pc, kind := .mwld r.entry .none r.word }
      putResid (s.addOp o) { r with core, away := false, ready := false }

/-- A checked image whose grid has no cores yet: the firmware chooses them once the grid fits (17 R468). -/
def restoreGrid (s : State) (g : Grid) : State :=
  if g.complete || g.released || !g.cores.isEmpty || bindsPending s || !(s.saved.any fun v =>
      v.ctx == g.ctx && v.complete && v.checked && !v.halted) then s
  else match (s.part? g.part).bind fun p => placeFor s p g.lr g.id with
    | some cores =>
      dropEmptyImages (s.updGrid g.id fun g => { g with cores, dies := (g.dies ++ cores.map (·.1)).eraseDups })
    | none => s

end Sys2Proof.Machine
end

