-- ==== Sys2Proof/Machine/Mgmt.lean ====
section
/-! DEFINITION. Management (17 R480 to R498): ownership, access tables, registers, the mailbox, attestation, resets; the
migration registers of a die (16 R433 to R436). -/

namespace Sys2Proof.Machine

def State.updMgmt (s : State) (f : Mgmt → Mgmt) : State := { s with mgmt := f s.mgmt }

/-! ### Ownership (R482) -/

def State.updOwner (s : State) (f : Owner → Owner) : State := s.updMgmt fun x => { x with owner := f x.owner }

/-- Cycles of one second of die 0's clock (R497). -/
def State.second (s : State) : Nat := 25000000 * ((s.mgmt.clk[0]?).getD 84).toNat

/-- Whether the BMC or the fabric manager, as owner, has written no heartbeat for a second. -/
def State.beatMissed (s : State) : Bool :=
  let o := s.mgmt.owner
  o.valid && (o.master == 1 || o.master == 2) && s.second ≤ (s.clk - o.beatAt).toNat

/-- What the time that has passed makes of the ownership: a missed heartbeat ends it, a handover lapses after 2^31 cycles. -/
def State.expire (s : State) : State :=
  if s.beatMissed then s.loseOwner
  else if s.mgmt.owner.handPend && 2 ^ 31 ≤ (s.clk - s.mgmt.owner.handAt).toNat then s.updOwner fun o => { o with handPend := false }
  else s

def State.isOwner (s : State) (m : BitVec 2) : Bool := !s.beatMissed && s.mgmt.owner.valid && s.mgmt.owner.master == m

/-- CLAIM; nothing answers on a package whose die 0 is dead (11 R296), or in recovery mode (R490). -/
def execClaim (m : BitVec 2) (s : State) : Out :=
  let s := s.expire
  let o := s.mgmt.owner
  if s.coh.die0Dead || s.mgmt.recovery then .next s
  else if !o.valid || (o.handPend && o.handTo == m) then
    let changes := !o.valid || o.master != m
    .next (s.updOwner fun o => { o with
      master := m, valid := true, handPend := false, epoch := if changes then o.epoch + 1 else o.epoch, beatAt := s.clk })
  else .next s

/-- HANDOVER. -/
def execHandover (m target : BitVec 2) (s : State) : Out :=
  if s.isOwner m then .next (s.updOwner fun o => { o with handPend := true, handTo := target, handAt := s.clk }) else .next s

/-- RELEASE. -/
def execRelease (m : BitVec 2) (s : State) : Out := if s.isOwner m then .next s.loseOwner else .next s

/-- HANDOVER_LAPSE: 2^31 cycles after the handover. -/
def execHandoverLapse (s : State) : Out :=
  .next (if s.mgmt.owner.handPend then s.expire else s)

/-! ### Access tables (R484, R488) -/

/-- Counts a denied write. -/
def deny (s : State) (m : BitVec 2) : State :=
  s.updMgmt fun x => { x with aclLast := m, aclCount := Nat.min (x.aclCount + 1) (2 ^ 30 - 1) }

/-- The code of a master in an entry of the access tables. -/
def State.aclCode (s : State) (m : BitVec 2) (entry : Nat) : Nat :=
  natField (s.mgmt.acl.read entry ^^^ 0x55).toNat (2 * m.toNat) 2

/-- Whether a master reads an entry's target. -/
def State.aclReads (s : State) (m : BitVec 2) (entry : Nat) : Bool := s.isOwner m || s.aclCode m entry % 2 == 1

/-- Whether a master writes an entry's target. -/
def State.aclWrites (s : State) (m : BitVec 2) (entry : Nat) : Bool := s.isOwner m || s.aclCode m entry == 3

/-- Whether a master reaches bytes of the package's memory: every 1 GiB window that they touch lets it, and only the owner reaches
32 TiB and above (R488); host memory is none of the device's. An agent that is no master is not checked. -/
def State.windowOk (s : State) (m : Option (BitVec 2)) (write : Bool) (pa n : Nat) : Bool :=
  match m with
  | none => true
  | some m => (List.range (n / 2 ^ 30 + 2)).all fun k =>
      let a := pa / 2 ^ 30 * 2 ^ 30 + k * 2 ^ 30
      let w := a / 2 ^ 30
      decide (pa + n ≤ a) || homeOf s (Nat.max a pa) == .host || s.isOwner m ||
        (decide (w < 32768) && (if write then s.aclWrites m (0x10000 + w) else s.aclReads m (0x10000 + w)))

/-- What a read of memory by a master returns; none completes as an error (R484). -/
def hostRead (s : State) (m : Option (BitVec 2)) (pa n : Nat) : Option (List Byte) :=
  if s.windowOk m false pa n && (errorAt s pa n).isNone then
    some ((List.range n).map fun i => if s.usedBy none (pa + i) then Config.freeByte s.ticks (pa + i) else s.homeByte (pa + i))
  else none

/-- A write of the host or of a CXL agent is performed at every scope (09 R246); one that is denied is dropped and counted (R484). -/
def hostWrite (s : State) (m : Option (BitVec 2)) (pa : Nat) (bs : List Byte) : State :=
  if !s.windowOk m true pa bs.length then (m.map (deny s)).getD s
  else
    let s := s.settle ((List.range bs.length).map (pa + ·))
    let cs := s.storeCells (cellsAt pa bs)
    (s.spoil none (cs.map (·.1))).writeMem cs

/-- A write that only the owner may make. -/
def ownerWrite (s : State) (m : BitVec 2) (go : State) : Out := if s.isOwner m then .next go else .next (deny s m)

/-! ### Identity, status and power (R486) -/

/-- HEARTBEAT. -/
def execHeartbeat (m : BitVec 2) (s : State) : Out := ownerWrite s m (s.updOwner fun o => { o with beatAt := s.clk })

/-- HEARTBEAT_MISS: the BMC or the fabric manager has not written its heartbeat for a second while it is owner. -/
def execHeartbeatMiss (m : BitVec 2) (s : State) : Out :=
  if s.beatMissed && s.mgmt.owner.master == m then .next s.loseOwner else .next s

/-- ACLCLR. -/
def execAclclr (m : BitVec 2) (s : State) : Out := ownerWrite s m (s.updMgmt fun x => { x with aclLast := 0, aclCount := 0 })

/-- PWRCAP. -/
def execPwrcap (m : BitVec 2) (v : Word) (s : State) : Out :=
  let n : BitVec 12 := v.setWidth 12
  ownerWrite s m (if 1000 ≤ n.toNat && n.toNat ≤ 3600 then s.updMgmt fun x => { x with pwrcap := n } else s)

/-- CLOCK_LOWER (R497): 1.0 to 2.1 GHz in steps of 25 MHz. -/
def execClockLower (die : Nat) (clk : BitVec 8) (s : State) : Out :=
  if 40 ≤ clk.toNat && clk.toNat ≤ 84 then .next (s.updMgmt fun x => { x with clk := x.clk.set (dieNo die) clk }) else .next s

/-! ### The mailbox (R487) -/

def stOk : Nat := 0
def stDenied : Nat := 2
def stBadarg : Nat := 3
def stBadkey : Nat := 4
def stFull : Nat := 5
def stRefused : Nat := 6
def stExhausted : Nat := 7

def State.mboxDone (s : State) (st : Nat) : State := s.updMgmt fun x => { x with mbox := { x.mbox with status := st } }

/-- A mailbox command of a master: ignored while one runs and once die 0 is dead (11 R296), DENIED to a master that is not the
owner. -/
def mailbox (s : State) (m : BitVec 2) (go : State) : Out :=
  if s.mgmt.mbox.ending.isSome || s.coh.die0Dead then .next s else if s.isOwner m then .next go else .next (s.mboxDone stDenied)

/-- The buffer's bytes when MBLEN is the command's length. -/
def State.mboxBytes (s : State) (n : Nat) : Option (List Byte) :=
  if s.mgmt.mbox.len.toNat == n then some (s.mgmt.mbox.buf.readBytes 0 n) else none

/-- A command code that names no command. -/
def execMailboxBadarg (m : BitVec 2) (cmd : BitVec 8) (s : State) : Out :=
  if 1 ≤ cmd.toNat && cmd.toNat ≤ 6 then .next s else mailbox s m (s.mboxDone stBadarg)

/-! ### SETCTX, ENDCTX (R465) -/

/-- A context from its descriptor; none for a reserved field that is not zero or a VMID without stage 2. -/
def ctxOfDesc (bs : List Byte) : Option Ctx :=
  let r := leNat bs
  let f (byte bytes : Nat) : Nat := natField r (8 * byte) (8 * bytes)
  if f 6 1 / 32 != 0 || f 26 2 != 0 || f 88 40 != 0 || 16 ≤ f 7 1 || (f 16 8 == 0 && f 24 2 != 0) then none
  else
    some {
      id := BitVec.ofNat 32 (f 0 4), tid := BitVec.ofNat 16 (f 4 2), cls := BitVec.ofNat 2 (f 6 1), sys := natBit (f 6 1) 2,
      furrow := natBit (f 6 1) 3, debug := natBit (f 6 1) 4, part := f 7 1, s1root := f 8 8, s2root := f 16 8,
      vmid := BitVec.ofNat 16 (f 24 2), ybudget := BitVec.ofNat 32 (f 28 4), budget := none, fq := ⟨f 32 8, 0, []⟩,
      pool := f 40 8, npool := f 48 4, sharemask := BitVec.ofNat 32 (f 52 4 % 256),
      sharetab := (List.range 8).map fun k => BitVec.ofNat 32 (f (56 + 4 * k) 4 % 2 ^ 18), frame := 0, invalidRays := 0,
      nonce := 0, halted := none, sliceEnd := false, debt := 0, desc := bs, pend := none }

/-- A descriptor without what a SETCTX may change. -/
def fixedDesc (bs : List Byte) : List Byte :=
  bs.mapIdx fun k b => if k == 6 then b &&& 0xEF else if (28 ≤ k && k < 32) || (48 ≤ k && k < 52) then 0 else b

/-- SETCTX. -/
def setCtx (s : State) : State :=
  match (s.mboxBytes 128).bind ctxOfDesc with
  | none => s.mboxDone stBadarg
  | some c =>
    match s.ctx? c.id with
    | none => { s with ctxs := s.ctxs ++ [c] }.mboxDone stOk
    | some o =>
      if fixedDesc c.desc != fixedDesc o.desc || c.npool < o.npool then s.mboxDone stBadarg
      else
        let now := !s.teams.any (·.ctx == c.id)
        let s := s.updCtx c.id fun x => { x with npool := c.npool, desc := c.desc }
        let s := s.updCtx c.id fun x =>
          if now then { x with debug := c.debug, ybudget := c.ybudget, pend := none } else { x with pend := some (c.debug, c.ybudget) }
        s.mboxDone stOk

def execSetctx (m : BitVec 2) (s : State) : Out := mailbox s m (setCtx s)

/-- ENDCTX begins: the teams are killed, the items fail (14 R368); what runs goes on to its end, with the watchdog of R444. -/
def endCtx (s : State) (id : Word) : State :=
  match s.ctx? id with
  | none => s.mboxDone stBadarg
  | some c =>
    let ts := s.teams.filter (·.ctx == id)
    let s := (s.fill.items.filter (·.ctx == id)).foldl (fun s i => failItem s i codeFillGen 0xFFFE false) s
    let s := ts.foldl (fun s t => killTeam (failHeld s t.uid 0xFFFE) t) s
    let old := ((s.saved.filter (·.ctx == id)).map (·.teams)).flatten
    let s := old.foldl (fun s t => killTeam (failHeld s t.uid 0xFFFE) t) s
    let s := s.updCtx id fun c => { c with sliceEnd := true }
    let s := s.updMgmt fun x => { x with mbox := { x.mbox with ending := some id } }
    { s with saved := s.saved.filter (·.ctx != id) ++
      [{ ctx := id, halted := true, nonce := c.nonce, image := [], teams := [], since := s.clk, complete := false }] }

def execEndctx (m : BitVec 2) (s : State) : Out := mailbox s m (endCtx s (lo32 s.mgmt.mbox.arg0))

/-- What is kept of a queue that served a context. -/
def HwQueue.without (q : HwQueue) (id : Word) : HwQueue := if q.ctx == id then { q with recs := [], live := none } else q

/-- A task of a context that is gone: its ending stays with its die (12 R313; DEDUCED, log entry 106). -/
def Task.orphan (x : Task) : Task := if x.freed then x else { x with st := .aborted, freed := true, merges := [] }

/-- Everything of a context is gone; its tiles and buffers are free (11 R290). The endings of its tasks stay. -/
def dropCtx (s : State) (id : Word) : State :=
  let ops := (s.ops.filter (·.ctx == id)).map (·.id)
  let gids := (s.grids.filter (·.ctx == id)).map (·.id)
  State.unpinSpill { s with
    ctxs := s.ctxs.filter (·.id != id), grids := s.grids.filter (·.ctx != id), saved := s.saved.filter (·.ctx != id)
    ops := s.ops.filter (·.ctx != id), uses := s.uses.filter fun u => !ops.contains u.op
    eparks := s.eparks.filter fun e => !ops.contains e.1
    bars := s.bars.filter fun b => !gids.contains b.key.grid
    parts := s.parts.map fun p => { p with queues := p.queues.map (·.without id), spawns := p.spawns.filter (·.ctx != id) }
    caches := { s.caches with
      tlb := s.caches.tlb.filter (·.ctx != id), walks := s.caches.walks.filter fun e => e.stage2 || e.ctx != id
      handles := s.caches.handles.filter (·.ctx != id) }
    tiles := { bufs := s.tiles.bufs.filter (·.ctx != id), tiles := s.tiles.tiles.filter (·.ctx != id) }
    mat := { s.mat with
      tasks := s.mat.tasks.map fun x => if x.ctx == id then x.orphan else x
      held := s.mat.held.filter (·.ctx != id)
      resid := s.mat.resid.map fun r =>
      if r.ctx == id && r.live then { r with live := false, away := false, gen := r.gen + 1 } else r }
    eng := { groups := s.eng.groups.filter (·.ctx != id), forming := s.eng.forming.filter (·.ctx != id)
             parts := s.eng.parts.filter (·.ctx != id), barArr := s.eng.barArr.filter (·.ctx != id) }
    fill := { s.fill with
      ranges := s.fill.ranges.filter (·.ctx != id), blocks := s.fill.blocks.filter (·.ctx != id)
      layers := s.fill.layers.filter (·.ctx != id), items := s.fill.items.filter (·.ctx != id) }
    vis := { s.vis with
      kinds := s.vis.kinds.filter (·.ctx != id), batches := s.vis.batches.filter (·.ctx != id),
      left := s.vis.left.filter fun x => !s.vis.batches.any fun b => b.op == x.2.1 && b.ctx == id
      jobs := s.vis.jobs.filter (·.ctx != id) } }

/-- The end of ENDCTX: nothing of the context runs any more. -/
def finishEnd (s : State) : State :=
  match s.mgmt.mbox.ending with
  | none => s
  | some id =>
    if !ctxQuiet s id then s
    else (dropCtx s id).updMgmt fun x => { x with mbox := { x.mbox with ending := none, status := stOk } }

/-! ### SETPART (R466) -/

/-- A partition from its descriptor. -/
def partOfDesc (bs : List Byte) : Option Part :=
  let r := leNat bs
  let f (byte bytes : Nat) : Nat := natField r (8 * byte) (8 * bytes)
  let wd := if f 8 4 == 0 then 4000 else f 8 4
  let q (k : Nat) : HwQueue :=
    let w := f (192 + 16 * k + 4) 4
    { ctx := BitVec.ofNat 32 (f (192 + 16 * k) 4), enable := natBit w 0, ordered := natBit w 1, priocap := natField w 2 2
      ring := f (192 + 16 * k + 8) 8, recs := [], posted := 0, done := 0, live := none, ringPos := 0 }
  let vm (k : Nat) : BitVec 16 × Nat :=
    let w := f (64 + 8 * k) 8
    (BitVec.ofNat 16 (w / 2 ^ 48), w % 2 ^ 46 * 64)
  if f 0 1 ≥ 16 || f 1 1 != 0 || f 2 2 != 0 || f 14 2 != 0 || f 55 1 != 0 || f 4 4 < 100 || 1000000 < f 4 4 || wd < 100 ||
      1000000 < wd || f 56 2 == 0 || 1024 < f 56 2 || f 58 2 == 0 || 256 < f 58 2 then none
  else
    some {
      id := f 0 1, slice := BitVec.ofNat 32 (f 4 4), wdlimit := BitVec.ofNat 32 wd, gshare := BitVec.ofNat 16 (f 12 2)
      cores := (List.range 4).map fun d => BitVec.ofNat 64 (f (16 + 8 * d) 8)
      copyEng := (List.range 4).map fun d => BitVec.ofNat 8 (f (48 + d) 1)
      coll := BitVec.ofNat 8 (f 52 1), rast := BitVec.ofNat 8 (f 53 1), furw := BitVec.ofNat 8 (f 54 1)
      tqshare := f 56 2, cqshare := f 58 2, imglo := f 60 2, imghi := f 62 2
      vmtab := ((List.range 16).map vm).filter fun e => e.1 != 0 && e.2 != 0
      queues := (List.range 64).map q, spawns := [], sliceNo := 0, next := 0 }

/-- Whether a partition holds cores on a die. -/
def Part.onDie (p : Part) (d : Nat) : Bool := ((p.cores[d]?).getD 0) != 0

/-- Whether a partition fits beside the others: shares, cores, copy and collective engines (13 R334). -/
def partFits (ps : List Part) (p : Part) : Bool :=
  let all := ps.filter (·.id != p.id)
  (List.range 4).all fun d =>
    let here := (p :: all).filter (·.onDie d)
    (here.map (·.tqshare)).sum ≤ 1024 && (here.map (·.cqshare)).sum ≤ 256 &&
      all.all fun x => x.coll &&& p.coll == 0 && ((x.cores[d]?).getD 0) &&& ((p.cores[d]?).getD 0) == 0 &&
        ((x.copyEng[d]?).getD 0) &&& ((p.copyEng[d]?).getD 0) == 0

/-- Whether a context of a partition is resident: a team in a slot, or a command that runs. -/
def partBusy (s : State) (id : Nat) : Bool := (busyCtxs s).any fun c => ((s.ctx? c).map (·.part)) == some id

/-- The stage-2 fault queues of a partition join those of the machine. -/
def joinVms (vs : List (BitVec 16 × FaultQueue)) (tab : List (BitVec 16 × Nat)) : List (BitVec 16 × FaultQueue) :=
  tab.foldl (fun vs e =>
    if vs.any fun v => v.1 == e.1 && v.2.header == e.2 then vs
    else vs.filter (·.1 != e.1) ++ [(e.1, ⟨e.2, 0, []⟩)]) vs

/-- SETPART. A queue whose context stays keeps its records and counts. -/
def setPart (s : State) : State :=
  match s.mboxBytes 1216 with
  | none => s.mboxDone stBadarg
  | some bs =>
    match partOfDesc bs with
    | none => s.mboxDone stBadarg
    | some p =>
      if partBusy s p.id || !partFits s.parts p then s.mboxDone stBadarg
      else
        let old : Option Part := s.part? p.id
        let keep (k : Nat) (q : HwQueue) : HwQueue :=
          match old.bind fun o => o.queues[k]? with
          | some o => if o.ctx == q.ctx then { o with enable := q.enable, ordered := q.ordered, priocap := q.priocap, ring := q.ring } else q
          | none => q
        let p := { p with queues := p.queues.mapIdx keep, spawns := (old.map fun (o : Part) => o.spawns).getD [] }
        let s := s.updMgmt fun x => { x with partDesc := (p.id, bs) :: x.partDesc.filter (·.1 != p.id) }
        ({ s with parts := (s.parts.filter fun (x : Part) => x.id != p.id) ++ [p], vmqs := joinVms s.vmqs p.vmtab } : State).mboxDone stOk

def execSetpart (m : BitVec 2) (s : State) : Out := mailbox s m (setPart s)

/-! ### Keys (R493, R494) -/

/-- SHAKE256 with an output of n bytes. -/
def shake256 (input : List Byte) (n : Nat) : List Byte := leBytes n (Config.shakeOut input n)

/-- A signature of 2,820 bytes (17 R492). -/
def xmssSign (index : Nat) (message : List Byte) : List Byte := leBytes 2820 (Config.xmssSigned index message)

/-- The shared secret of 32 bytes. -/
def kemDecaps (epoch : Nat) (cipher : List Byte) : List Byte := leBytes 32 (Config.kemShared epoch cipher)

/-- An encapsulation key of 1,568 bytes (17 R489). -/
def kemPublic (epoch : Nat) : List Byte := leBytes 1568 (Config.kemKey epoch)

/-- The 14 ASCII bytes of step 3 of R494. -/
def keyLabel : List Byte := [0x41, 0x58, 0x39, 0x20, 0x54, 0x45, 0x4E, 0x41, 0x4E, 0x54, 0x20, 0x4B, 0x45, 0x59]

/-- SETKEY. -/
def setKey (s : State) : State :=
  match s.mboxBytes 1632 with
  | none => s.mboxDone stBadarg
  | some bs =>
    let part (at_ n : Nat) : List Byte := (bs.drop at_).take n
    let tid := BitVec.ofNat 16 (leNat (part 0 2))
    if part 2 1 != [s.mgmt.owner.epoch] || part 3 1 != [0] then s.mboxDone stBadarg
    else
      let k0 := kemDecaps s.mgmt.kemEpoch (part 16 1568)
      let wrap := leNat (shake256 (keyLabel ++ k0 ++ part 0 4) 32)
      match Config.gcmOpen wrap (part 4 12) (part 0 16) (part 1584 32) (part 1616 16) with
      | none => s.mboxDone stBadkey
      | some key =>
        let others := s.mgmt.keys.filter (·.1 != tid)
        if 4096 ≤ others.length then s.mboxDone stFull
        else (s.updMgmt fun x => { x with keys := (tid, key) :: others }).mboxDone stOk

def execSetkey (m : BitVec 2) (s : State) : Out := mailbox s m (setKey s)

/-- DELKEY. -/
def execDelkey (m : BitVec 2) (s : State) : Out :=
  let tid : BitVec 16 := s.mgmt.mbox.arg0.setWidth 16
  mailbox s m ((s.updMgmt fun x => { x with keys := x.keys.filter (·.1 != tid) }).mboxDone stOk)

/-- RESTORE (16 R451): the firmware takes up an image that passes its checks. -/
def execRestore (m : BitVec 2) (s : State) : Out :=
  mailbox s m (match s.ctx? (lo32 s.mgmt.mbox.arg0) with
    | none => s.mboxDone stBadarg
    | some c =>
      match restoring s c s.mgmt.mbox.arg1.toNat with
      | .refused => s.mboxDone stRefused
      | .auth => (haltCode s c.id codeImage 0).mboxDone stOk
      | .ok => (if (s.saved.any fun v => v.ctx == c.id && v.complete && !v.checked) then startSlice s c else s).mboxDone stOk)

/-! ### Attestation (R489 to R492) -/

/-- Register block 48, the first of the attestation blocks. -/
def State.mayAttest (s : State) (m : BitVec 2) : Bool := s.aclReads m 48

def State.updAtt (s : State) (m : BitVec 2) (f : Attest → Attest) : State :=
  s.updMgmt fun x => { x with att := x.att.mapIdx fun k a => if k == m.toNat then f a else a }

/-- The report over a nonce with an index, before its signature, in the order of R492. -/
def reportBody (s : State) (nonce : BitVec 256) (index : Nat) : List Byte :=
  let digest (bs : List Byte) : List Byte := shake256 bs 32
  leBytes 32 nonce.toNat ++ leBytes 4 index ++ digest (Config.firmware 0) ++ digest (Config.firmware 1) ++
    s.mgmt.partDesc.flatMap (fun p => digest p.2) ++ [s.expire.mgmt.owner.epoch] ++ kemPublic s.mgmt.kemEpoch

/-- REPORT: the next index is consumed; none remains after 2^20. -/
def execReport (m : BitVec 2) (s : State) : Out :=
  if s.mgmt.recovery then .next s
  else if !s.mayAttest m then .next (deny s m)
  else if 2 ^ 20 ≤ s.mgmt.fuse then .next (s.updAtt m fun a => { a with status := stExhausted })
  else
    let index := s.mgmt.fuse
    let body := reportBody s (((s.mgmt.att[m.toNat]?).map (·.nonce)).getD 0) index
    let bs := body ++ xmssSign index body
    .next ((s.updMgmt fun x => { x with fuse := index + 1 }).updAtt m fun a => { a with status := stOk, len := bs.length, result := bs })

/-- KEMKEY. -/
def execKemkey (m : BitVec 2) (s : State) : Out :=
  if s.mgmt.recovery then .next s
  else if !s.mayAttest m then .next (deny s m)
  else .next (s.updAtt m fun a => { a with status := stOk, len := 1568, result := kemPublic s.mgmt.kemEpoch })

/-! ### Migration (16 R433 to R436) -/

def State.migOf (s : State) (die : Nat) : MigRegs := (s.mig.regs.find? (·.die == die)).getD ⟨die, 0, 0, 0, 0, 0⟩

def State.updMig (s : State) (die : Nat) (f : MigRegs → MigRegs) : State :=
  let x := f (s.migOf die)
  { s with mig := { s.mig with regs := x :: s.mig.regs.filter (·.die != die) } }

/-- Media of a die in units of 32 KiB: 192 GiB (01 R24). -/
def mediaUnits : Nat := 6 * 2 ^ 20

/-- The media location of a frame; a frame that was never switched lies at its own number (DESIGN CHOICE, log entry 72). -/
def State.frameLoc (s : State) (die frame : Nat) : Nat :=
  ((s.mig.places.find? fun p => p.1 == die && p.2.1 == frame).map (·.2.2)).getD (frame % mediaUnits)

def mediaKey (die loc : Nat) : Nat := die * 2 ^ 51 + loc * 2 ^ 15

/-- Whether a die's controller serves a frame. -/
def servesFrame (s : State) (die frame : Nat) : Bool := homeOf s (frame * 2 ^ 15) == .hbm die

/-- The dirty bits of a frame. -/
def dirtyMask (s : State) (frame : Nat) : BitVec 256 :=
  (s.mig.dirty.filter fun l => l / 256 == frame).foldl (fun m l => m ||| (1#256 <<< (l % 256))) 0

/-- Whether a destination is taken by another frame of the die. -/
def locTaken (s : State) (die frame loc : Nat) : Bool :=
  s.mig.places.any (fun p => p.1 == die && p.2.1 != frame && p.2.2 == loc) ||
    (loc != frame && servesFrame s die loc && s.frameLoc die loc == loc)

/-- The bytes of the chunks of a mask, from an address on. -/
def maskedCells (m : Memory) (src dst : Nat) (mask : BitVec 256) : List Host.Cell :=
  ((List.range 256).filter (mask.getLsbD ·)).flatMap fun k =>
    (List.range 128).map fun i => (dst + 128 * k + i, m.read (src + 128 * k + i))

/-- HARVEST. -/
def migHarvest (s : State) (die : Nat) : State :=
  let f := (s.migOf die).frame
  let m := dirtyMask s f
  let s := s.updMig die fun x => { x with mask := m }
  { s with mig := { s.mig with dirty := s.mig.dirty.filter fun l => l / 256 != f } }

/-- COPY to media that no frame maps: the chunks of the mask. -/
def migCopy (s : State) (die : Nat) : State :=
  let x := s.migOf die
  if s.frameLoc die x.frame == x.dest then s
  else { s with mig := { s.mig with
    media := s.mig.media.writeCells (maskedCells s.mem (x.frame * 2 ^ 15) (mediaKey die x.dest) x.mask) } }

/-- SWITCH: harvest, copy, and the frame lies at its destination, with every byte that it had: no acknowledged write is lost
(R435; DEDUCED, log entry 72). -/
def migSwitch (s : State) (die : Nat) : State :=
  let s := migHarvest s die
  let x := s.migOf die
  let old := s.frameLoc die x.frame
  if old == x.dest then s
  else
    let base := x.frame * 2 ^ 15
    let take (m : Memory) (src dst : Nat) : List Host.Cell := (List.range (2 ^ 15)).map fun i => (dst + i, m.read (src + i))
    let was := take s.mem base (mediaKey die old)
    let clear := (List.range (2 ^ 15)).map fun i => (mediaKey die x.dest + i, emptyByte)
    { s with
      mig := { s.mig with
        media := (s.mig.media.writeCells was).writeCells clear
        places := (die, x.frame, x.dest) :: s.mig.places.filter fun p => !(p.1 == die && p.2.1 == x.frame) } }

/-- A migration command starts, unless one runs: `cmd` is 1 HARVEST, 2 COPY, 3 SWITCH, 4 a SWITCH whose frozen work would
take too long. -/
def migStart (s : State) (die cmd : Nat) : Out :=
  if (s.migOf die).stat == 1 then .next s else .next (s.updMig die fun x => { x with stat := 1, cmd })

def execHarvest (die : Nat) (s : State) : Out := migStart s die 1
def execCopy (die : Nat) (s : State) : Out := migStart s die 2
def execSwitch (die : Nat) (busy : Bool) (s : State) : Out := migStart s die (if busy then 4 else 3)

/-- MIGRATION_DONE: the command's effect and its state. -/
def execMigrationDone (die : Nat) (s : State) : Out :=
  let x := s.migOf die
  let bad := !servesFrame s die x.frame || mediaUnits ≤ x.dest || (x.cmd != 1 && locTaken s die x.frame x.dest)
  let end_ (s : State) (st : Nat) : Out := .next (s.updMig die fun x => { x with stat := st })
  if x.stat != 1 then .next s
  else if bad || x.cmd == 4 then end_ s 3
  else match x.cmd with
    | 1 => end_ (migHarvest s die) 2
    | 2 => end_ (migCopy s die) 2
    | _ => end_ (migSwitch s die) 2

/-! ### Writes of registers (R483 to R489) -/

/-- OWNCTL. -/
def writeOwnctl (s : State) (m : BitVec 2) (v : Word) : Out :=
  if v >>> 4 != 0 then .next s
  else match (v >>> 2).toNat with
    | 1 => execClaim m s
    | 2 => execHandover m (v.setWidth 2) s
    | 3 => execRelease m s
    | _ => .next s

/-- MBCMD. -/
def writeMbcmd (s : State) (m : BitVec 2) (v : Word) : Out :=
  if v >>> 8 != 0 then .next s
  else match v.toNat with
    | 1 => execSetctx m s
    | 2 => execEndctx m s
    | 3 => execSetpart m s
    | 4 => execSetkey m s
    | 5 => execDelkey m s
    | 6 => execRestore m s
    | n => execMailboxBadarg m (BitVec.ofNat 8 n) s

/-- A 32-bit register of the mailbox block. -/
def writeMbox (s : State) (m : BitVec 2) (off : Nat) (v : Word) : Out :=
  let upd (f : Mailbox → Mailbox) : Out := ownerWrite s m (s.updMgmt fun x => { x with mbox := f x.mbox })
  if off == 0 then writeMbcmd s m v
  else if off == 0x18 then upd fun x => { x with len := v.setWidth 16 }
  else if 0x1000 ≤ off && off < 0x9000 then upd fun x => { x with buf := x.buf.writeBytes (off - 0x1000) (leBytes 4 v.toNat) }
  else .next s

/-- MIGCMD, which only the owner writes. -/
def writeMigcmd (s : State) (m : BitVec 2) (die : Nat) (v : Word) : Out :=
  if !s.isOwner m then .next (deny s m)
  else if v >>> 2 != 0 then .next s
  else match v.toNat with
    | 1 => execHarvest die s
    | 2 => execCopy die s
    | 3 => execSwitch die false s
    | _ => .next s

/-- Whether an offset in the access-table block holds an entry. -/
def aclEntry (k : Nat) : Bool := k < 64 || (0x100 ≤ k && k < 0x110) || (0x10000 ≤ k && k < 0x18000)

/-- Four entries of the access tables. -/
def writeAcl (s : State) (m : BitVec 2) (off : Nat) (v : Word) : Out :=
  let cs : List Host.Cell := ((leBytes 4 v.toNat).mapIdx fun i b => (off + i, b ^^^ 0x55)).filter fun c => aclEntry c.1
  ownerWrite s m (s.updMgmt fun x => { x with acl := x.acl.writeCells cs })

/-- A register of an attestation block: a master writes NONCE and ATTCMD of its own. -/
def writeAttest (s : State) (m : BitVec 2) (block off : Nat) (v : Word) : Out :=
  if block != m.toNat || !s.mayAttest m then .next (deny s m)
  else if off < 0x20 then
    let at_ := 8 * off
    .next (s.updAtt m fun a => { a with
      nonce := (a.nonce &&& ~~~(0xFFFFFFFF#256 <<< at_)) ||| (v.setWidth 256 <<< at_) })
  else if off == 0x40 && v >>> 8 == 0 then
    match v.toNat with
    | 1 => execReport m s
    | 2 => execKemkey m s
    | _ => .next s
  else .next s

/-- A 4-byte write. -/
def writeReg32 (s : State) (m : BitVec 2) (off : Nat) (v : Word) : Out :=
  if off < 0x10000 then
    match off with
    | 0x14 => writeOwnctl s m v
    | 0x18 => execHeartbeat m s
    | 0x24 => execAclclr m s
    | 0x30 => execPwrcap m v s
    | _ => .next s
  else if off < 0x20000 then writeMbox s m (off - 0x10000) v
  else if 0x100000 ≤ off && off < 0x140000 then
    if off % 0x10000 == 0x10 then writeMigcmd s m (s.homeDie ((off - 0x100000) / 0x10000)) v else .next s
  else if 0x200000 ≤ off && off < 0x300000 then writeAcl s m (off - 0x200000) v
  else if 0x300000 ≤ off && off < 0x310000 then writeAttest s m ((off - 0x300000) / 0x4000) ((off - 0x300000) % 0x4000) v
  else .next s

/-- An 8-byte write, which only a 64-bit register takes. -/
def writeReg64 (s : State) (m : BitVec 2) (off : Nat) (v : DWord) : Out :=
  let die := s.homeDie ((off - 0x100000) / 0x10000)
  let mig := 0x100000 ≤ off && off < 0x140000
  if off == 0x10008 then ownerWrite s m (s.updMgmt fun x => { x with mbox := { x.mbox with arg0 := v } })
  else if off == 0x10010 then ownerWrite s m (s.updMgmt fun x => { x with mbox := { x.mbox with arg1 := v } })
  else if mig && off % 0x10000 == 0 then ownerWrite s m (s.updMig die fun x => { x with frame := natField v.toNat 15 37 })
  else if mig && off % 0x10000 == 8 then ownerWrite s m (s.updMig die fun x => { x with dest := natField v.toNat 0 36 })
  else .next s

/-- Whether the mailbox is all that a master reaches: in recovery mode PF0 reaches it and PF1 nothing (R490; DEDUCED, log entry
116). -/
def State.shut (s : State) (m : BitVec 2) (off : Nat) : Bool :=
  s.mgmt.recovery && (m == 3 || (m == 0 && off / 0x10000 != 1))

/-- REGISTER_WRITE: an aligned access of 4 or 8 bytes; any other has no effect (R485). In recovery mode only PF0's reach the
device (R490). -/
def execRegisterWrite (m : BitVec 2) (off : Nat) (wide : Bool) (v : DWord) (s : State) : Out :=
  if s.mgmt.recovery && (m != 0 || s.shut m off) then .next s
  else if wide then (if off % 8 == 0 then writeReg64 s m off v else .next s)
  else if off % 4 == 0 then writeReg32 s m off (lo32 v) else .next s

/-! ### What a read of a register returns (R481 to R489) -/

/-- OWNER. -/
def Owner.word (o : Owner) : Word :=
  (0 : BitVec 16) ++ o.epoch ++ (0 : BitVec 2) ++ o.handTo ++ bit1 o.handPend ++ bit1 o.valid ++ o.master

/-- STATUS. -/
def statusWord (s : State) : Word :=
  let m := s.mgmt
  (0 : BitVec 20) ++ m.dieDead ++ (0 : BitVec 4) ++ bit1 (m.clk.any fun c => decide (c.toNat < 84)) ++ bit1 m.recovery ++
    (0 : BitVec 1) ++ bit1 m.ready

/-- Registers of the identity block. -/
def readIdentity (s : State) (off : Nat) : Word :=
  let m := s.mgmt
  match off with
  | 0x00 => BitVec.ofNat 32 (0x9400 * 2 ^ 16 + s.boot.step % 256 * 2 ^ 8)
  | 0x04 => statusWord s
  | 0x08 => BitVec.ofNat 32 (leNat m.clk)
  | 0x10 => s.expire.mgmt.owner.word
  | 0x20 => m.aclLast ++ BitVec.ofNat 30 m.aclCount
  | 0x30 => m.pwrcap.setWidth 32
  | _ => 0

/-- Registers of the mailbox block. -/
def readMbox (s : State) (off : Nat) : Word :=
  let b := s.mgmt.mbox
  if off == 0x04 then BitVec.ofNat 32 (b2n b.ending.isSome * 256 + b.status)
  else if off == 0x18 then b.len.setWidth 32
  else if 0x1000 ≤ off && off < 0x9000 then BitVec.ofNat 32 (b.buf.readLE (off - 0x1000) 4)
  else 0

/-- Registers of an attestation block. -/
def readAttest (s : State) (block off : Nat) : Word :=
  let a := (s.mgmt.att[block]?).getD ⟨0, 0, false, 0, []⟩
  if off < 0x20 then (a.nonce >>> (8 * off)).setWidth 32
  else if off == 0x44 then BitVec.ofNat 32 (b2n a.run * 256 + a.status)
  else if off == 0x48 then BitVec.ofNat 32 a.len
  else if 0x1000 ≤ off && off < 0x3000 then BitVec.ofNat 32 (leNat ((a.result.drop (off - 0x1000)).take 4))
  else 0

/-- Registers of a migration block. -/
def readMig (s : State) (die off : Nat) : DWord :=
  let x := s.migOf die
  if off == 0 then BitVec.ofNat 64 (x.frame * 2 ^ 15)
  else if off == 8 then BitVec.ofNat 64 x.dest
  else if off == 0x14 then BitVec.ofNat 64 x.stat
  else if 0x20 ≤ off && off < 0x40 then ((x.mask >>> (8 * (off - 0x20))).setWidth 32 : Word).setWidth 64
  else 0

/-- An aligned read of a register by a master; none completes as an error. -/
def readRegister (s : State) (m : BitVec 2) (off : Nat) (wide : Bool) : Option DWord :=
  let at_ := off % 0x10000
  let narrow (w : Word) : Option DWord := if wide || off % 4 != 0 then none else some (w.setWidth 64)
  if s.shut m off || (off < 0x400000 && !s.aclReads m (off / 0x10000)) then none
  else if off < 0x10000 then narrow (readIdentity s off)
  else if off < 0x20000 then
    if off == 0x10008 && wide then some s.mgmt.mbox.arg0
    else if off == 0x10010 && wide then some s.mgmt.mbox.arg1
    else if 8 ≤ at_ && at_ < 0x18 then none else narrow (readMbox s at_)
  else if 0x100000 ≤ off && off < 0x140000 then
    let d := s.homeDie ((off - 0x100000) / 0x10000)
    if wide then (if at_ == 0 || at_ == 8 then some (readMig s d at_) else none)
    else if at_ < 16 then none else narrow (lo32 (readMig s d at_))
  else if 0x200000 ≤ off && off < 0x300000 then
    narrow (BitVec.ofNat 32 (leNat ((List.range 4).map fun k =>
      if aclEntry (off - 0x200000 + k) then s.mgmt.acl.read (off - 0x200000 + k) ^^^ 0x55 else 0)))
  else if 0x300000 ≤ off && off < 0x310000 then narrow (readAttest s ((off - 0x300000) / 0x4000) ((off - 0x300000) % 0x4000))
  else narrow 0

/-! ### Resets (R495 to R498) -/

/-- The machine after a reset that keeps the fuses, the boot configuration and what is not on the package: memory of CXL
devices and of the host, and what the outside has still to bring. A new ML-KEM key pair is made. -/
def afterReset (s : State) : State :=
  let kept := s.mem.filter fun c => match homeOf s c.1 with
    | .hbm _ => false
    | _ => true
  let r := State.reset
  { r with
    inbox := s.inbox, ticks := s.ticks, boot := s.boot, mem := kept
    mat := { r.mat with cal := s.mat.cal }
    mgmt := { r.mgmt with fuse := s.mgmt.fuse, kemEpoch := s.mgmt.kemEpoch + 1 } }

/-- POWER_ON: bring-up ends with READY, or in recovery mode when the firmware is not accepted. -/
def execPowerOn (sigOk versionOk : Bool) (s : State) : Out :=
  let ok := sigOk && versionOk
  .next ((afterReset s).updMgmt fun m => { m with ready := ok, recovery := !ok })

/-- WARM_RESET; a dead die stays dead (R495). -/
def execWarmReset (s : State) : Out :=
  let r := afterReset s
  let dead := s.coh.dead.filter fun a => match a with
    | .die _ => true
    | _ => false
  .next ((r.updCoh fun c => { c with dead, die0Dead := s.coh.die0Dead }).updMgmt fun m =>
    { m with ready := !s.mgmt.recovery, recovery := s.mgmt.recovery, dieDead := s.mgmt.dieDead })

/-- COLD_RESET: power-on follows. -/
def execColdReset (s : State) : Out := .next (afterReset s)

/-- The master of a PCIe function. -/
def pfMaster (pf : BitVec 2) : BitVec 2 := if pf == 0 then 0 else 3

/-- FUNCTION_LEVEL_RESET: contexts whose queues the function reaches halt. -/
def execFunctionLevelReset (pf : BitVec 2) (s : State) : Out :=
  let reached := s.parts.filter fun p => s.aclWrites (pfMaster pf) (0x100 + p.id)
  let cs := ((reached.flatMap (·.queues)).map (·.ctx)).eraseDups
  .next (cs.foldl (fun s c => haltCode s c codeContained 0) s)

/-- LINK_PORT_RETRAIN. -/
def execLinkPortRetrain (port : Nat) (s : State) : Out :=
  .next (s.updCoh fun c => { c with dead := c.dead.filter (· != .port port) })

/-- CXL_PORT_RESET. -/
def execCxlPortReset (port : Nat) (s : State) : Out :=
  .next (s.updCoh fun c => { c with dead := c.dead.filter (· != .cxl port) })

/-- THERMAL_SHUTDOWN. -/
def execThermalShutdown (s : State) : Out := .next ((afterReset s).updMgmt fun m => { m with shutdown := true })

/-- POWER_LOSS: a one-time index whose signature was not released is lost (R491). -/
def execPowerLoss (signing : Bool) (s : State) : Out :=
  let s := if signing then s.updMgmt fun m => { m with fuse := Nat.min (m.fuse + 1) (2 ^ 20) } else s
  .next ((afterReset s).updMgmt fun m => { m with shutdown := true })

end Sys2Proof.Machine
end

