-- ==== Sys2Proof/Machine/Dispatch.lean ====
section
/-! DEFINITION. The dispatch: one arm per constructor of Instr, each one direct call of its meaning. -/

namespace Sys2Proof.Machine

/-- Runs an instruction or an event. -/
def exec (i : Instr) (s : State) : Host.Outcome State Fault Refusal :=
  match i with
  | .nop => Sys2Proof.Machine.execNop s
  | .bra c off => Sys2Proof.Machine.execBra c off s
  | .brv p neg taken join => Sys2Proof.Machine.execBrv p neg taken join s
  | .brm pairs join => Sys2Proof.Machine.execBrm pairs join s
  | .join => Sys2Proof.Machine.execJoin s
  | .brk g n => Sys2Proof.Machine.execBrk g n s
  | .cont g n => Sys2Proof.Machine.execCont g n s
  | .call t => Sys2Proof.Machine.execCall t s
  | .ret => Sys2Proof.Machine.execRet s
  | .exit g => Sys2Proof.Machine.execExit g s
  | .reorder signed k => Sys2Proof.Machine.execReorder signed k s
  | .loop off => Sys2Proof.Machine.execLoop off s
  | .next p neg => Sys2Proof.Machine.execNext p neg s
  | .spin => Sys2Proof.Machine.execSpin s
  | .add x sat => Sys2Proof.Machine.execAdd x sat s
  | .sub x sat => Sys2Proof.Machine.execSub x sat s
  | .mul x => Sys2Proof.Machine.execMul x s
  | .mulhi x => Sys2Proof.Machine.execMulhi x s
  | .mad x sat => Sys2Proof.Machine.execMad x sat s
  | .min x => Sys2Proof.Machine.execMin x s
  | .max x => Sys2Proof.Machine.execMax x s
  | .absn x neg sat => Sys2Proof.Machine.execAbsn x neg sat s
  | .and x inv => Sys2Proof.Machine.execAnd x inv s
  | .or x inv => Sys2Proof.Machine.execOr x inv s
  | .xor x inv => Sys2Proof.Machine.execXor x inv s
  | .shl x => Sys2Proof.Machine.execShl x s
  | .shr x => Sys2Proof.Machine.execShr x s
  | .rot x right => Sys2Proof.Machine.execRot x right s
  | .bcnt x op => Sys2Proof.Machine.execBcnt x op s
  | .bitf x op => Sys2Proof.Machine.execBitf x op s
  | .setp g ty cond comb pd a b => Sys2Proof.Machine.execSetp g ty cond comb pd a b s
  | .sel x pc => Sys2Proof.Machine.execSel x pc s
  | .plog g op pd pa pb => Sys2Proof.Machine.execPlog g op pd pa pb s
  | .mov x => Sys2Proof.Machine.execMov x s
  | .movi g ty d imm => Sys2Proof.Machine.execMovi g ty d imm s
  | .lea x x32 sh => Sys2Proof.Machine.execLea x x32 sh s
  | .div x rem nz => Sys2Proof.Machine.execDiv x rem nz s
  | .ext x op => Sys2Proof.Machine.execExt x op s
  | .addc x ci co => Sys2Proof.Machine.execAddc x ci co s
  | .subb x bi bo => Sys2Proof.Machine.execSubb x bi bo s
  | .mulw x => Sys2Proof.Machine.execMulw x s
  | .csub x form => Sys2Proof.Machine.execCsub x form s
  | .clamp x => Sys2Proof.Machine.execClamp x s
  | .fadd x => Sys2Proof.Machine.execFadd x s
  | .fsub x => Sys2Proof.Machine.execFsub x s
  | .fmul x => Sys2Proof.Machine.execFmul x s
  | .fma x => Sys2Proof.Machine.execFma x s
  | .fmin x => Sys2Proof.Machine.execFmin x s
  | .fmax x => Sys2Proof.Machine.execFmax x s
  | .fabsn x op => Sys2Proof.Machine.execFabsn x op s
  | .fsetp g ty cond comb pd a b => Sys2Proof.Machine.execFsetp g ty cond comb pd a b s
  | .frcp x => Sys2Proof.Machine.execFrcp x s
  | .frsq x => Sys2Proof.Machine.execFrsq x s
  | .fsqrt x => Sys2Proof.Machine.execFsqrt x s
  | .fexp2 x => Sys2Proof.Machine.execFexp2 x s
  | .flog2 x => Sys2Proof.Machine.execFlog2 x s
  | .fsincos x => Sys2Proof.Machine.execFsincos x s
  | .fdiv x => Sys2Proof.Machine.execFdiv x s
  | .fclass x => Sys2Proof.Machine.execFclass x s
  | .cvtif x src => Sys2Proof.Machine.execCvtif x src s
  | .cvtfi x dst => Sys2Proof.Machine.execCvtfi x dst s
  | .cvtff x src hi => Sys2Proof.Machine.execCvtff x src hi s
  | .frnd x => Sys2Proof.Machine.execFrnd x s
  | .fscal x op => Sys2Proof.Machine.execFscal x op s
  | .dot2 x => Sys2Proof.Machine.execDot2 x s
  | .qscale x => Sys2Proof.Machine.execQscale x s
  | .quant x => Sys2Proof.Machine.execQuant x s
  | .dequant x => Sys2Proof.Machine.execDequant x s
  | .qpack x => Sys2Proof.Machine.execQpack x s
  | .qunpack x => Sys2Proof.Machine.execQunpack x s
  | .fmtq x => Sys2Proof.Machine.execFmtq x s
  | .rngNext g d => Sys2Proof.Machine.execRngNext g d s
  | .rngUnif g d => Sys2Proof.Machine.execRngUnif g d s
  | .rngSeed g a => Sys2Proof.Machine.execRngSeed g a s
  | .shfl g mode wide d a b rec => Sys2Proof.Machine.execShfl g mode wide d a b rec s
  | .vote g d op => Sys2Proof.Machine.execVote g d op s
  | .ballot g d p op => Sys2Proof.Machine.execBallot g d p op s
  | .tred g op rs d a => Sys2Proof.Machine.execTred g op rs d a s
  | .tscan g op excl d a => Sys2Proof.Machine.execTscan g op excl d a s
  | .bcast g wide d a n => Sys2Proof.Machine.execBcast g wide d a n s
  | .ld x sx d => Sys2Proof.Machine.execLd x sx d s
  | .st x c => Sys2Proof.Machine.execSt x c s
  | .ldro x sx d => Sys2Proof.Machine.execLdro x sx d s
  | .lds x sx d => Sys2Proof.Machine.execLds x sx d s
  | .sts x c => Sys2Proof.Machine.execSts x c s
  | .samp g fs d u v q h => Sys2Proof.Machine.execSamp g fs d u v q h s
  | .pf x level => Sys2Proof.Machine.execPf x level s
  | .hmap fs d m r => Sys2Proof.Machine.execHmap fs d m r s
  | .hflush fs op h => Sys2Proof.Machine.execHflush fs op h s
  | .hquery g op d h => Sys2Proof.Machine.execHquery g op d h s
  | .atom x op d c => Sys2Proof.Machine.execAtom x op d c s
  | .cas x ty d c => Sys2Proof.Machine.execCas x ty d c s
  | .red x op c => Sys2Proof.Machine.execRed x op c s
  | .barSync scope id n => Sys2Proof.Machine.execBarSync scope id n s
  | .barArv scope id d n => Sys2Proof.Machine.execBarArv scope id d n s
  | .barWait scope id tok => Sys2Proof.Machine.execBarWait scope id tok s
  | .waitaddr cmp ty acq scope d off o64 h imm c timeout => Sys2Proof.Machine.execWaitaddr cmp ty acq scope d off o64 h imm c timeout s
  | .cbputAcq d k => Sys2Proof.Machine.execCbputAcq d k s
  | .cbputCom k => Sys2Proof.Machine.execCbputCom k s
  | .cbget d k => Sys2Proof.Machine.execCbget d k s
  | .cbrel k => Sys2Proof.Machine.execCbrel k s
  | .fenceAcq scope => Sys2Proof.Machine.execFenceAcq scope s
  | .fenceRel scope => Sys2Proof.Machine.execFenceRel scope s
  | .fenceAcqrel scope => Sys2Proof.Machine.execFenceAcqrel scope s
  | .fenceSc scope => Sys2Proof.Machine.execFenceSc scope s
  | .fenceRo scope => Sys2Proof.Machine.execFenceRo scope s
  | .fenceOpr scope => Sys2Proof.Machine.execFenceOpr scope s
  | .fenceComplete uid => Sys2Proof.Machine.execFenceComplete uid s
  | .waitf any m d => Sys2Proof.Machine.execWaitf any m d s
  | .sig fs set eng wide scope m v => Sys2Proof.Machine.execSig fs set eng wide scope m v s
  | .cbinit k h size count => Sys2Proof.Machine.execCbinit k h size count s
  | .tdecl fs r hb => Sys2Proof.Machine.execTdecl fs r hb s
  | .tdeclRm fs hb => Sys2Proof.Machine.execTdeclRm fs hb s
  | .ttile d r hb => Sys2Proof.Machine.execTtile d r hb s
  | .topenR t => Sys2Proof.Machine.execTopenR t s
  | .topenW t => Sys2Proof.Machine.execTopenW t s
  | .topenWRecall t => Sys2Proof.Machine.execTopenWRecall t s
  | .tseal fs t => Sys2Proof.Machine.execTseal fs t s
  | .tdrop fs t => Sys2Proof.Machine.execTdrop fs t s
  | .tsplit d t k c => Sys2Proof.Machine.execTsplit d t k c s
  | .tfree t => Sys2Proof.Machine.execTfree t s
  | .tquery d t => Sys2Proof.Machine.execTquery d t s
  | .menq fs slot d k => Sys2Proof.Machine.execMenq fs slot d k s
  | .mwaitId d t => Sys2Proof.Machine.execMwaitId d t s
  | .mwaitFlag fs t => Sys2Proof.Machine.execMwaitFlag fs t s
  | .mwld fs slot d t ts => Sys2Proof.Machine.execMwld fs slot d t ts s
  | .mwrel r => Sys2Proof.Machine.execMwrel r s
  | .macz fs t => Sys2Proof.Machine.execMacz fs t s
  | .macrd g fs raw slot d t row col => Sys2Proof.Machine.execMacrd g fs raw slot d t row col s
  | .wsld fs slot img t ts => Sys2Proof.Machine.execWsld fs slot img t ts s
  | .wsinfoCal d e => Sys2Proof.Machine.execWsinfoCal d e s
  | .wsinfoNow d => Sys2Proof.Machine.execWsinfoNow d s
  | .mquery d t => Sys2Proof.Machine.execMquery d t s
  | .dcopy fs scope r => Sys2Proof.Machine.execDcopy fs scope r s
  | .dfill fs scope wide r v => Sys2Proof.Machine.execDfill fs scope wide r v s
  | .grpMake d key n rank => Sys2Proof.Machine.execGrpMake d key n rank s
  | .grpFree g => Sys2Proof.Machine.execGrpFree g s
  | .grpInfo d g => Sys2Proof.Machine.execGrpInfo d g s
  | .coll fs form op ty src dst grp hs hd n => Sys2Proof.Machine.execColl fs form op ty src dst grp hs hd n s
  | .gbarSync g => Sys2Proof.Machine.execGbarSync g s
  | .gbarArv fs g => Sys2Proof.Machine.execGbarArv fs g s
  | .sclook g fs d a => Sys2Proof.Machine.execSclook g fs d a s
  | .scwait g d a => Sys2Proof.Machine.execScwait g d a s
  | .scfill fs item => Sys2Proof.Machine.execScfill fs item s
  | .scinv fs obj tag => Sys2Proof.Machine.execScinv fs obj tag s
  | .frameCtx d => Sys2Proof.Machine.execFrameCtx d s
  | .frameTag d tag => Sys2Proof.Machine.execFrameTag d tag s
  | .gtake k => Sys2Proof.Machine.execGtake k s
  | .pfill fs item => Sys2Proof.Machine.execPfill fs item s
  | .pfail fs item st => Sys2Proof.Machine.execPfail fs item st s
  | .prangeAdd fs r hw => Sys2Proof.Machine.execPrangeAdd fs r hw s
  | .prangeRm fs hw => Sys2Proof.Machine.execPrangeRm fs hw s
  | .prangeClr fs hw => Sys2Proof.Machine.execPrangeClr fs hw s
  | .prangeLayer fs r n => Sys2Proof.Machine.execPrangeLayer fs r n s
  | .rtrace fs first sr n sh hr hs hh => Sys2Proof.Machine.execRtrace fs first sr n sh hr hs hh s
  | .rsort fs first sr n sh hr hs hh => Sys2Proof.Machine.execRsort fs first sr n sh hr hs hh s
  | .rhit g short d ix h imm rec => Sys2Proof.Machine.execRhit g short d ix h imm rec s
  | .rhitCnt d => Sys2Proof.Machine.execRhitCnt d s
  | .rprog fs kind r => Sys2Proof.Machine.execRprog fs kind r s
  | .visJob fs d r => Sys2Proof.Machine.execVisJob fs d r s
  | .visGet g d job rec => Sys2Proof.Machine.execVisGet g d job rec s
  | .trap n => Sys2Proof.Machine.execTrap n s
  | .rfe => Sys2Proof.Machine.execRfe s
  | .csrr wide d csr => Sys2Proof.Machine.execCsrr wide d csr s
  | .csrw d a csr => Sys2Proof.Machine.execCsrw d a csr s
  | .yield => Sys2Proof.Machine.execYield s
  | .ksave set m => Sys2Proof.Machine.execKsave set m s
  | .tlbi fs op scope a => Sys2Proof.Machine.execTlbi fs op scope a s
  | .bkpt n => Sys2Proof.Machine.execBkpt n s
  | .spawn fs d r shape => Sys2Proof.Machine.execSpawn fs d r shape s
  | .qpost fs q r => Sys2Proof.Machine.execQpost fs q r s
  | .qwaitDone d n q => Sys2Proof.Machine.execQwaitDone d n q s
  | .qwaitSpace d q => Sys2Proof.Machine.execQwaitSpace d q s
  | .qwaitWake uid => Sys2Proof.Machine.execQwaitWake uid s
  | .clauseStart h => Sys2Proof.Machine.execClauseStart h s
  | .waitfWake uid => Sys2Proof.Machine.execWaitfWake uid s
  | .loadComplete op => Sys2Proof.Machine.execLoadComplete op s
  | .storeComplete op => Sys2Proof.Machine.execStoreComplete op s
  | .atomicComplete op => Sys2Proof.Machine.execAtomicComplete op s
  | .sigPerform op => Sys2Proof.Machine.execSigPerform op s
  | .mapFillComplete uid => Sys2Proof.Machine.execMapFillComplete uid s
  | .hmapComplete op => Sys2Proof.Machine.execHmapComplete op s
  | .l2FillArrival die line => Sys2Proof.Machine.execL2FillArrival die line s
  | .nackRetryResend op => Sys2Proof.Machine.execNackRetryResend op s
  | .faultRecordWrite q => Sys2Proof.Machine.execFaultRecordWrite q s
  | .stopRecord uid => Sys2Proof.Machine.execStopRecord uid s
  | .budgetExpiry ctx => Sys2Proof.Machine.execBudgetExpiry ctx s
  | .saveComplete ctx => Sys2Proof.Machine.execSaveComplete ctx s
  | .gridCompletion grid => Sys2Proof.Machine.execGridCompletion grid s
  | .scheduleLaunch part src cores => Sys2Proof.Machine.execScheduleLaunch part src cores s
  | .bindRecord r => Sys2Proof.Machine.execBindRecord r s
  | .gridRelease grid => Sys2Proof.Machine.execGridRelease grid s
  | .barrierRelease k => Sys2Proof.Machine.execBarrierRelease k s
  | .watchFire uid => Sys2Proof.Machine.execWatchFire uid s
  | .watchPoll uid => Sys2Proof.Machine.execWatchPoll uid s
  | .waitaddrTimeout uid => Sys2Proof.Machine.execWaitaddrTimeout uid s
  | .cbWake uid => Sys2Proof.Machine.execCbWake uid s
  | .cbDeferredUpdate op => Sys2Proof.Machine.execCbDeferredUpdate op s
  | .groupFormed ctx key => Sys2Proof.Machine.execGroupFormed ctx key s
  | .copyStart op => Sys2Proof.Machine.execCopyStart op s
  | .copyComplete op => Sys2Proof.Machine.execCopyComplete op s
  | .collComplete ctx group k => Sys2Proof.Machine.execCollComplete ctx group k s
  | .gbarComplete ctx group k => Sys2Proof.Machine.execGbarComplete ctx group k s
  | .taskReady die id => Sys2Proof.Machine.execTaskReady die id s
  | .taskDispatch die id => Sys2Proof.Machine.execTaskDispatch die id s
  | .taskComplete die id => Sys2Proof.Machine.execTaskComplete die id s
  | .partialMerge die id line => Sys2Proof.Machine.execPartialMerge die id line s
  | .mwldComplete op => Sys2Proof.Machine.execMwldComplete op s
  | .residencyRelease die entry => Sys2Proof.Machine.execResidencyRelease die entry s
  | .wsldComplete op => Sys2Proof.Machine.execWsldComplete op s
  | .generatorStart die k => Sys2Proof.Machine.execGeneratorStart die k s
  | .generatorFailure uid => Sys2Proof.Machine.execGeneratorFailure uid s
  | .framePoolGrant die item => Sys2Proof.Machine.execFramePoolGrant die item s
  | .heldLookupRelease uid => Sys2Proof.Machine.execHeldLookupRelease uid s
  | .sclookAnswer op => Sys2Proof.Machine.execSclookAnswer op s
  | .scwaitWake uid => Sys2Proof.Machine.execScwaitWake uid s
  | .shadingCommit op => Sys2Proof.Machine.execShadingCommit op s
  | .furrowRelease die => Sys2Proof.Machine.execFurrowRelease die s
  | .rayBatchComplete op => Sys2Proof.Machine.execRayBatchComplete op s
  | .visJobComplete die job => Sys2Proof.Machine.execVisJobComplete die job s
  | .tileRecordFetch ctx tile => Sys2Proof.Machine.execTileRecordFetch ctx tile s
  | .tileOpenReq m write recl => Sys2Proof.Machine.execTileOpenReq m write recl s
  | .sealReq m => Sys2Proof.Machine.execSealReq m s
  | .dropReq m => Sys2Proof.Machine.execDropReq m s
  | .splitReq m k c => Sys2Proof.Machine.execSplitReq m k c s
  | .freeReq m => Sys2Proof.Machine.execFreeReq m s
  | .dataRsp m => Sys2Proof.Machine.execDataRsp m s
  | .forwardedData m => Sys2Proof.Machine.execForwardedData m s
  | .grant m => Sys2Proof.Machine.execGrant m s
  | .inv m => Sys2Proof.Machine.execInv m s
  | .forwardShared m => Sys2Proof.Machine.execForwardShared m s
  | .forwardExclusive m => Sys2Proof.Machine.execForwardExclusive m s
  | .backInv m => Sys2Proof.Machine.execBackInv m s
  | .invAck m => Sys2Proof.Machine.execInvAck m s
  | .forwardAck m => Sys2Proof.Machine.execForwardAck m s
  | .backInvAck m => Sys2Proof.Machine.execBackInvAck m s
  | .grantAck m => Sys2Proof.Machine.execGrantAck m s
  | .readShared m => Sys2Proof.Machine.execReadShared m s
  | .readExclusive m => Sys2Proof.Machine.execReadExclusive m s
  | .upgrade m => Sys2Proof.Machine.execUpgrade m s
  | .writeBack m => Sys2Proof.Machine.execWriteBack m s
  | .illopPattern hdr uni opc => Sys2Proof.Machine.execIllopPattern hdr uni opc s
  | .answerRetry q seq => Sys2Proof.Machine.execAnswerRetry q seq s
  | .answerFail q seq => Sys2Proof.Machine.execAnswerFail q seq s
  | .answerRestart q seq => Sys2Proof.Machine.execAnswerRestart q seq s
  | .answerContinue q seq => Sys2Proof.Machine.execAnswerContinue q seq s
  | .answerKill q seq => Sys2Proof.Machine.execAnswerKill q seq s
  | .answerHalt q seq => Sys2Proof.Machine.execAnswerHalt q seq s
  | .answerIgnored q seq action => Sys2Proof.Machine.execAnswerIgnored q seq action s
  | .eccScratchError site source word => Sys2Proof.Machine.execEccScratchError site source word s
  | .eccCorrectable e => Sys2Proof.Machine.execEccCorrectable e s
  | .l2Poison line => Sys2Proof.Machine.execL2Poison line s
  | .agentDeadlineMiss a => Sys2Proof.Machine.execAgentDeadlineMiss a s
  | .die0Dead => Sys2Proof.Machine.execDie0Dead s
  | .pageWalkComplete uid va write => Sys2Proof.Machine.execPageWalkComplete uid va write s
  | .sliceEnd ctx => Sys2Proof.Machine.execSliceEnd ctx s
  | .watchdogExpiry op => Sys2Proof.Machine.execWatchdogExpiry op s
  | .cimParityError die core => Sys2Proof.Machine.execCimParityError die core s
  | .weightStoreUncorrectableError die image => Sys2Proof.Machine.execWeightStoreUncorrectableError die image s
  | .hostRingEntry part q => Sys2Proof.Machine.execHostRingEntry part q s
  | .claim m => Sys2Proof.Machine.execClaim m s
  | .handover m target => Sys2Proof.Machine.execHandover m target s
  | .release m => Sys2Proof.Machine.execRelease m s
  | .handoverLapse => Sys2Proof.Machine.execHandoverLapse s
  | .heartbeat m => Sys2Proof.Machine.execHeartbeat m s
  | .heartbeatMiss m => Sys2Proof.Machine.execHeartbeatMiss m s
  | .aclclr m => Sys2Proof.Machine.execAclclr m s
  | .pwrcap m v => Sys2Proof.Machine.execPwrcap m v s
  | .registerWrite m off wide v => Sys2Proof.Machine.execRegisterWrite m off wide v s
  | .setctx m => Sys2Proof.Machine.execSetctx m s
  | .endctx m => Sys2Proof.Machine.execEndctx m s
  | .setpart m => Sys2Proof.Machine.execSetpart m s
  | .setkey m => Sys2Proof.Machine.execSetkey m s
  | .delkey m => Sys2Proof.Machine.execDelkey m s
  | .restore m => Sys2Proof.Machine.execRestore m s
  | .mailboxBadarg m cmd => Sys2Proof.Machine.execMailboxBadarg m cmd s
  | .report m => Sys2Proof.Machine.execReport m s
  | .kemkey m => Sys2Proof.Machine.execKemkey m s
  | .powerOn sigOk versionOk => Sys2Proof.Machine.execPowerOn sigOk versionOk s
  | .warmReset => Sys2Proof.Machine.execWarmReset s
  | .functionLevelReset pf => Sys2Proof.Machine.execFunctionLevelReset pf s
  | .coldReset => Sys2Proof.Machine.execColdReset s
  | .linkPortRetrain port => Sys2Proof.Machine.execLinkPortRetrain port s
  | .cxlPortReset port => Sys2Proof.Machine.execCxlPortReset port s
  | .clockLower die clk => Sys2Proof.Machine.execClockLower die clk s
  | .thermalShutdown => Sys2Proof.Machine.execThermalShutdown s
  | .powerLoss signing => Sys2Proof.Machine.execPowerLoss signing s
  | .tlbiComplete op => Sys2Proof.Machine.execTlbiComplete op s
  | .prangeComplete op => Sys2Proof.Machine.execPrangeComplete op s
  | .maczComplete op => Sys2Proof.Machine.execMaczComplete op s
  | .scinvComplete op => Sys2Proof.Machine.execScinvComplete op s
  | .rprogInstall op => Sys2Proof.Machine.execRprogInstall op s
  | .tileOpComplete op => Sys2Proof.Machine.execTileOpComplete op s
  | .tileRequestRetry uid => Sys2Proof.Machine.execTileRequestRetry uid s
  | .refreshWindowEnd die => Sys2Proof.Machine.execRefreshWindowEnd die s
  | .topenWStarvationHold ctx tile => Sys2Proof.Machine.execTopenWStarvationHold ctx tile s
  | .nackRetry op => Sys2Proof.Machine.execNackRetry op s
  | .errorRsp op => Sys2Proof.Machine.execErrorRsp op s
  | .visGetWake uid => Sys2Proof.Machine.execVisGetWake uid s
  | .harvest die => Sys2Proof.Machine.execHarvest die s
  | .copy die => Sys2Proof.Machine.execCopy die s
  | .switch die busy => Sys2Proof.Machine.execSwitch die busy s
  | .migrationDone die => Sys2Proof.Machine.execMigrationDone die s

end Sys2Proof.Machine
end

