-- ==== Sys2Proof/Machine/Auto.lean ====
section
/-! DEFINITION. What the machine does of itself between instructions: which team issues (01 R32), and which internal
event takes place next. -/

namespace Sys2Proof.Machine

/-! ### Ready teams -/

/-- Whether the team waits for a load or an atomic of its own that owes it a register before it issues again (02 R43, DESIGN
CHOICE, log entry 6). -/
def State.interlocked (s : State) (t : Team) : Bool :=
  s.ops.any fun o => o.uid == t.uid && (match o.kind with
    | .load w _ | .atomic w _ | .take w => w.d != .none
    | .hmap d _ => d != .none
    | _ => false)

/-- The register specifier of a destination. -/
def dstSpec : Dst → Nat
  | .v n => n.toNat
  | .s n => 128 + n.toNat
  | .none => 255

/-- The destination that an engine operation or a lookup owes. -/
def OpKind.dst : OpKind → Nat
  | .mwld _ d _ => dstSpec d
  | .sclook w => dstSpec w.d
  | _ => 255

/-- Whether an instruction may name the destination of an operation that still owes it: both lie in one block of sixteen
registers (02 R43, DESIGN CHOICE, log entry 6). -/
def State.conflicts (s : State) (t : Team) (i : Instr) : Bool :=
  let ds := (s.ops.filter fun o => o.uid == t.uid && o.kind.dst != 255).map fun o => o.kind.dst / 16
  !ds.isEmpty && (match encode i with
    | some e => [e.dst, e.a, e.b, e.c].any (fun x => ds.contains (x.toNat / 16)) || e.op == 0x75
    | none => false)

/-- Whether a wait that needs no event of its own is over. -/
def waitDone (s : State) (t : Team) : Wait → Bool
  | .clause m => t.flagsClear false m && !s.blocked t
  | .block op => (s.op? op).isNone
  | .drain => !s.regPending t
  | _ => false

/-- Whether the team's grid has been released (01 R30). -/
def State.released (s : State) (t : Team) : Bool := ((s.grid? t.grid).map (·.released)).getD false

/-- Whether the end of a slice leaves a team running: one that has begun to complete its instruction completes it (09 R250). -/
def Team.goesOn (t : Team) : Bool := t.leave == .stay || (t.leave == .forced && t.status == .running && t.mark.isSome)

def State.ready (s : State) (t : Team) : Bool :=
  !t.retiring && t.goesOn && s.released t && !s.interlocked t &&
    (match t.status with
     | .running => true
     | .waiting w => waitDone s t w
     | _ => false)

/-- The pipe of a team (01 R14). -/
def Team.pipe (t : Team) : Nat × Nat × Nat := (t.place.die, t.place.core, t.place.slot % 4)

/-- The choice of one pipe among its ready teams (01 R32). -/
def pipeChoice (ts : List Team) : Option Team :=
  let late := ts.filter fun t => 56 ≤ t.passed
  let older (a b : Team) : Bool := a.age < b.age
  let pick (better : Team → Team → Bool) (xs : List Team) : Option Team :=
    xs.foldl (fun a t => match a with
      | some u => if better t u then some t else a
      | none => some t) none
  if late.isEmpty then pick older ts
  else pick (fun a b => b.passed < a.passed || (a.passed == b.passed && older a b)) late

/-- A number that grows with time, by which pipes and events take turns (DESIGN CHOICE, log entry 2). -/
def State.turn (s : State) : Nat := s.ticks / 2 + s.ticks / 61

/-! ### The next object of a team (02 R34 to R42) -/

/-- What a team does next: run an instruction, start a clause, fault with ILLOP, or meet a failed fetch at its pc. -/
inductive NextObj where
  | run (i : Instr) (t : Team) (s : State)
  | fetch (f : XFault) (t : Team) (s : State)
  deriving DecidableEq, Repr

/-- The object at a team's pc; a fill parcel is skipped once, since the next block starts with no fill parcel that
could be skipped within the same block (02 R36). -/
def nextObject (s : State) (t : Team) : Nat → NextObj
  | 0 => .run (.illopPattern false false 0) t s
  | fuel + 1 =>
    match fetchBlock s (s.ctxOf t) t t.pc with
    | .fault f => .fetch f t s
    | .block ws s =>
      let i := t.pc.toNat % 32 / 4
      match readObject (t.pc.toNat - t.pc.toNat % 32) ws i (t.clause.left == 0) with
      | none => nextObject s { t with pc := t.pc + 4 } fuel
      | some (.header _ h) => .run (.clauseStart h) t s
      | some (.instr _ _ i) => .run i t s
      | some (.bad _ hdr uni opc _) => .run (.illopPattern hdr uni opc) t s

/-- Whether what a team does next starts nothing on its pipe: an instruction of the Nib, or a failed fetch (01 R32). -/
def State.startsNone (s : State) (t : Team) : Bool :=
  match nextObject s t 3 with
  | .run i _ _ => inNib i
  | .fetch .. => true

/-- The team of one pipe whose turn it is: the pipe chooses among the ready teams that start an instruction on it; the
Nib takes the others in turn and passes over nobody (01 R32; the turns between the two: DESIGN CHOICE, log entry 2). -/
def pipeTeam (s : State) (turn : Nat) : List Team → Option Team
  | [] => none
  | [t] => some t
  | ts =>
    let nibs := ts.filter s.startsNone
    let starts := ts.filter fun t => !s.startsNone t
    if nibs.isEmpty || (turn % 2 == 0 && !starts.isEmpty) then pipeChoice starts
    else nibs[turn / 2 % Nat.max 1 nibs.length]?

/-- The team that issues: pipes take turns. -/
def pickTeam (s : State) : Option Team :=
  let rs := s.teams.filter s.ready
  let pipes := (rs.map Team.pipe).eraseDups
  let n := Nat.max 1 pipes.length
  match pipes[s.turn % n]? with
  | some p => pipeTeam s (s.turn / n) (rs.filter (·.pipe == p))
  | none => none

/-- Counts a decision of a pipe: the ready teams passed over, and the team that issues. -/
def countPassed (s : State) (t : Team) : State :=
  { s with teams := s.teams.map fun u =>
      if u.uid == t.uid || !s.ready u then { u with passed := 0 }
      else if u.pipe == t.pipe && !s.startsNone u then { u with passed := u.passed + 1 } else u }

/-- Whether a team's instruction has not started: it stalls where it stands (01 R32). -/
def State.stalls (s : State) (uid : Nat) : Bool :=
  s.teams.any fun t => t.uid == uid && (t.status == .waiting .stall || t.status == .waiting .full || t.status == .waiting .drain)

/-- What a team's turn comes to. -/
inductive Issue where
  | run (i : Instr) (s : State)
  | done (s : State)

/-- Fetches for a team, sets its pc past fill parcels, and gives what it runs; the team becomes the current one. -/
def issueObject (s : State) (t : Team) : Issue :=
  let t := { t with status := .running }
  match nextObject s t 3 with
  | .fetch f t s => .done (fetchFault s t t.pc f)
  | .run i t s =>
    let s := { (s.setTeam t) with cur := t.uid }
    if s.conflicts t i then .done (s.setTeam { t with status := .waiting .drain }) else .run i s

/-! ### Time and the outside -/

/-- The cycles that one step takes (DESIGN CHOICE, log entry 4). -/
def stepCycles (s : State) : DWord := 1 + BitVec.ofNat 64 (Config.extraCycles s.ticks)

/-- BUDGET counts down to zero once its slice has ended (16 R438). -/
def Ctx.passTime (cycles : Nat) (c : Ctx) : Ctx :=
  { c with budget := c.budget.map fun b => BitVec.ofNat 32 (b.toNat - cycles) }

/-- The clock goes on; a team that is not ready has been passed over by nobody when it becomes ready again (01 R32). -/
def State.tick (s : State) : State :=
  { s with
    teams := s.teams.map fun t => if t.passed != 0 && !s.ready t then { t with passed := 0 } else t
    ticks := s.ticks + 1, clk := s.clk + stepCycles s
    ctxs := s.ctxs.map (Ctx.passTime (stepCycles s).toNat) }

/-! ### Internal events that can take place now -/

/-- An event: what it does to the state. -/
abbrev Event := State → Out

/-- `e` if `b` holds. -/
def ifEvent (b : Bool) (e : Event) : List Event := if b then [e] else []

/-- A change of the state as an event. -/
def change (f : State → State) : Event := fun s => .next (f s)

/-- Events of an outstanding operation. -/
def opEvents (s : State) (o : Op) : List Event :=
  (match o.kind with
   | .load .. => ifEvent (!s.l2Waits o.id) (execLoadComplete o.id)
   | .store _ _ rel => ifEvent (storeMay s o rel) (execStoreComplete o.id)
   | .atomic .. => ifEvent (!s.l2Waits o.id) (execAtomicComplete o.id)
   | .sig _ _ _ _ eng _ _ => ifEvent (sigMay s o eng) (execSigPerform o.id)
   | .hmap .. | .flush => ifEvent (!s.l2Waits o.id) (execHmapComplete o.id)
   | .cbCommit _ | .cbRelease _ => ifEvent (cbMay s o) (execCbDeferredUpdate o.id)
   | .tileOp w 1 => ifEvent (sealMay s o w && !s.coh.net.contains (.sealReq ⟨o.uid, w⟩)) (change (·.send (.sealReq ⟨o.uid, w⟩)))
   | .tileOp w 2 => ifEvent (tileMay s o && !s.coh.net.contains (.dropReq ⟨o.uid, w⟩)) (change (·.send (.dropReq ⟨o.uid, w⟩)))
   | .tileOp _ 3 => [execTileOpComplete o.id]
   | .tileOp .. => []
   | .task .. | .taskWait .. => []
   | .mwld .. => ifEvent (!s.opHeld o.id) (execMwldComplete o.id)
   | .macz .. => ifEvent (!s.opHeld o.id) (execMaczComplete o.id)
   | .wsld .. => ifEvent (!s.opHeld o.id) (execWsldComplete o.id)
   | .copy c =>
     if c.started then ifEvent (!s.opHeld o.id) (execCopyComplete o.id) else [execCopyStart o.id]
   | .coll g k => [execCollComplete o.ctx g k]
   | .gbar g k => [execGbarComplete o.ctx g k]
   | .sclook _ => [execSclookAnswer o.id]
   | .take _ => [execLoadComplete o.id]
   | .fillCommit .. => ifEvent (!commitWaits s o) (execShadingCommit o.id)
   | .scinv .. => ifEvent (tileMay s o) (execScinvComplete o.id)
   | .prange _ => [execPrangeComplete o.id]
   | .rays _ => ifEvent (!s.opHeld o.id) (execRayBatchComplete o.id)
   | .rprog .. => [execRprogInstall o.id]
   | .visJob d j => ifEvent (!s.opHeld o.id) (execVisJobComplete d j)
   | .tlbi .. => [execTlbiComplete o.id]
   | .launch => []) ++ ifEvent (overrun s o) (execWatchdogExpiry o.id)

/-- Events of a tile task. -/
def taskEvents (s : State) (x : Task) : List Event :=
  if x.freed then []
  else match x.st with
    | .queued => [change (onTask x.order readyTask)]
    | .ready => [change (onTask x.order dispatchTask)]
    | .running =>
      if s.opHeld x.order then []
      else if !x.computed then [change (onTask x.order dispatchTask)]
      else match x.merges with
        | [] => [change (onTask x.order completeTask)]
        | m :: _ =>
          let n := Nat.max 1 (((s.tiles.named x.ctx x.tileC).map fun u => u.sz.headD 1).getD 1)
          [change (onTask x.order (mergeLine (m.1 / n * ((n + 31) / 32) + m.1 % n / 32)))]
    | _ => []

/-- Events of a waiting team. -/
def waitEvents (s : State) (t : Team) : Wait → List Event
  | .flags any m => ifEvent (t.flagsClear any m) (execWaitfWake t.uid)
  | .fence rel => ifEvent (fenceMay s t rel) (execFenceComplete t.uid)
  | .addr w =>
    if w.timeout.toNat ≤ s.waited t && w.timeout != 0xFFFFFFFF then [execWaitaddrTimeout t.uid] else [execWatchPoll t.uid]
  | .cbFree _ | .cbFilled _ => [execCbWake t.uid]
  | .gbar g k => [execGbarComplete t.ctx g k]
  | .tile .. => [execTileRequestRetry t.uid]
  | .mapFill .. => [execMapFillComplete t.uid]
  | .keys _ => [execScwaitWake t.uid]
  | .held _ => [execHeldLookupRelease t.uid]
  | .job .. => [execVisGetWake t.uid]
  | .queue .. => [execQwaitWake t.uid]
  | .stall | .full => [change fun s => s.updTeam t.uid fun t => { t with status := .running }]
  | .task die id => ifEvent (taskOver s die id) (change settleTasks)
  | .clause _ | .block _ | .drain | .bar .. | .barThird .. | .group _ | .fill .. | .remote _ => []

/-- Events of a team; it retires once nothing owes it a register (03 R91). -/
def teamEvents (s : State) (t : Team) : List Event :=
  let done := t.retiring && !s.regPending t
  (match t.status with
   | .running | .waiting .drain => ifEvent done (change fun s => retireTeam s t)
   | .waiting w => waitEvents s t w
   | .stopping _ => ifEvent (s.opsOf t.uid).isEmpty (execStopRecord t.uid)
   | _ => []) ++
  (match t.status with
   | .stopping _ | .stopped .. => ifEvent (!(s.heldItems t.uid).isEmpty) (execGeneratorFailure t.uid)
   | _ => [])

/-- Whether the firmware binds the teams of a grid now. -/
def bindsNow (s : State) (g : Grid) : Bool :=
  !s.coh.die0Dead && !g.cores.isEmpty && ((s.ctx? g.ctx).map fun c => c.halted.isNone).getD false &&
    !s.saved.any fun v => v.ctx == g.ctx && (v.halted || !v.complete)

/-- Events of a grid. -/
def gridEvents (s : State) (g : Grid) : List Event :=
  if g.complete then []
  else ifEvent (gridOver s g) (execGridCompletion g.id) ++
    (if g.released then []
     else if g.cores.isEmpty then [change fun s => restoreGrid s g]
     else if !bindsNow s g then []
     else match dueBind s g with
       | some r => [execBindRecord r]
       | none => [execGridRelease g.id])

/-- Whether a bound host ring holds an entry that its queue takes. -/
def ringHolds (s : State) (x : HwQueue) : Bool :=
  x.ring != 0 && x.enable && x.recs.length < 16 && s.mem.readLE x.ring 4 != s.mem.readLE (x.ring + 128) 4

/-- Events of a partition: the firmware takes a record, the front end takes ring entries. -/
def partEvents (s : State) (p : Part) : List Event :=
  (match nextCand s p with
   | none => []
   | some c =>
     if c.refused s p != 0 then [execScheduleLaunch p.id c.src []]
     else if bindsPending s then []
     else match findPlace s p c.lr c.id with
       | some cores => [execScheduleLaunch p.id c.src cores]
       | none => []) ++
  ((p.queues.mapIdx fun q x => ifEvent (ringHolds s x) (execHostRingEntry p.id q)).flatten)

/-- Events of a context: records, the ends of its budget and of its slice, its save, its next slice. -/
def ctxEvents (s : State) (c : Ctx) : List Event :=
  ifEvent (recordMay s c.fq) (execFaultRecordWrite (.ctx c.id)) ++
    ifEvent (c.budget == some 0 && c.sliceEnd && s.teams.any fun t => t.ctx == c.id && !t.retiring && t.leave == .stay)
      (execBudgetExpiry c.id) ++
    ifEvent (c.halted.isNone && s.inSlice c.id && c.due.any fun d => decide (d.toNat ≤ s.clk.toNat)) (execSliceEnd c.id) ++
    ifEvent (s.saved.any fun v => v.ctx == c.id && !v.complete) (execSaveComplete c.id) ++
    ifEvent (c.halted.isNone && !s.coh.die0Dead && s.saved.any fun v => v.ctx == c.id && v.complete && !v.checked && !v.halted)
      (change fun s => nextSlice s c.id)

/-- Events of the fill engine. -/
def itemEvents (s : State) (i : Item) : List Event :=
  let key : GenKey := match i.what with
    | .block n _ => .range i.ctx n
    | .tile n .. => .layer i.ctx n
  ifEvent i.starved (execFramePoolGrant i.die i.ix) ++
    (match genInfo s key with
     | some (_, _, maxgen) =>
       ifEvent (i.holder.isNone && !i.starved && decide (genTeams s i.die key < maxgen)) (execGeneratorStart i.die key)
     | none => [])

/-- Events of residencies: a release, and the load of one that a restore brings back (12 R322). -/
def residEvents (s : State) (r : Resid) : List Event :=
  ifEvent (r.live && r.releasing && !residUsed s r) (execResidencyRelease r.die r.entry) ++
    ifEvent (r.live && r.away && s.inSlice r.ctx) (change fun s => reloadResid s r)

/-- The class of a message (11 R293): request, reply, probe, acknowledgement. -/
def netClass : Instr → Nat
  | .dataRsp _ | .forwardedData _ | .grant _ | .nackRetry _ | .errorRsp _ => 1
  | .inv _ | .forwardShared _ | .forwardExclusive _ | .backInv _ => 2
  | .invAck _ | .forwardAck _ | .backInvAck _ | .grantAck _ => 3
  | _ => 0

/-- The oldest message of a class arrives: nothing is ordered across classes (11 R293). -/
def netEvents (s : State) (k : Nat) : List Event :=
  match s.coh.net.find? fun m => netClass m == k with
  | none => []
  | some m => [fun s => exec m { s with coh := { s.coh with net := s.coh.net.erase m } }]

/-- Events of caches, directories, migration and management. -/
def machineEvents (s : State) : List Event :=
  ((List.range 4).map (netEvents s)).flatten ++ (s.ghosts.filter fun t => !t.efaults.isEmpty).map (fun t => change (ghostFault · t)) ++
  ifEvent (s.eng.groups.any fun g => !g.members.isEmpty && g.left.length == g.members.length && !s.groupBusy g)
    (change retireGroups) ++
  (s.caches.l2.filter fun l => !l.pending.isEmpty && !s.dataOut l.die l.line).map (fun l => execL2FillArrival l.die l.line) ++
  s.caches.nacks.map (fun n => if n.told then execNackRetryResend n.who.op else execNackRetry n.who.op) ++
  s.bars.filterMap (fun b => match b.cur with
    | some g => if genFull s b.key g then some (execBarrierRelease b.key) else none
    | none => none) ++
  s.eng.forming.filterMap (fun f => if f.members.length == f.n then some (execGroupFormed f.ctx f.key) else none) ++
  (s.vis.batches.filter fun b => b.furrow.isSome).map (fun b => execFurrowRelease b.die) ++
  (s.tiles.tiles.filter fun u => u.live && !u.hold && u.starved s.clk).map (fun u => execTopenWStarvationHold u.ctx u.ix) ++
  (s.vmqs.filter fun v => recordMay s v.2).map (fun v => execFaultRecordWrite (.vm v.1)) ++
  (s.mig.regs.filter fun x => x.stat == 1).map (fun x => execMigrationDone x.die) ++
  ifEvent s.mgmt.mbox.ending.isSome (change finishEnd) ++
  ifEvent s.mgmt.owner.handPend execHandoverLapse ++
  ifEvent (s.mgmt.owner.valid && (s.mgmt.owner.master == 1 || s.mgmt.owner.master == 2))
    (execHeartbeatMiss s.mgmt.owner.master)

/-- The internal events that can take place. -/
def autoEvents (s : State) : List Event :=
  (s.ops.map (opEvents s)).flatten ++ (s.mat.tasks.map (taskEvents s)).flatten ++ (s.teams.map (teamEvents s)).flatten ++
    (s.grids.map (gridEvents s)).flatten ++ (s.parts.map (partEvents s)).flatten ++ (s.ctxs.map (ctxEvents s)).flatten ++
    (s.fill.items.map (itemEvents s)).flatten ++ (s.mat.resid.map (residEvents s)).flatten ++ machineEvents s

/-- The internal event that takes place next: they take turns (DESIGN CHOICE, log entry 2). -/
def nextAuto (s : State) : Option Event :=
  let es := autoEvents s
  es[s.turn % Nat.max 1 es.length]?

/-! ### What one step does -/

/-- Runs an instruction of a team: one that starts on its pipe is a decision of the pipe, one of the Nib is none, nor
is one that only stalls (01 R32). -/
def runObject (s : State) (t : Team) (i : Instr) : Out :=
  if inNib i then exec i s
  else match exec i s with
    | .next s' => if s'.stalls t.uid then .next s' else exec i (countPassed s t)
    | o => o

/-- The team issues what stands at its pc; an interlocked instruction waits. -/
def stepTeam (s : State) (t : Team) : Out :=
  match issueObject s t with
  | .run i s => runObject s t i
  | .done s => .next s

/-- Teams and internal events take turns, a team first (DESIGN CHOICE, log entry 2). -/
def stepOwn (s : State) : Out :=
  match pickTeam s, s.ticks % 2 with
  | some t, 1 => stepTeam s t
  | some t, _ => (match nextAuto s with
    | some e => e s
    | none => stepTeam s t)
  | none, _ => (match nextAuto s with
    | some e => e s
    | none => .next s)

/-- One step after the clock has gone on: what arrives from outside, an answer, then the machine's own. -/
def stepAt (s : State) : Out :=
  match s.inbox, s.answers with
  | .event i :: r, _ => exec i { s with inbox := r }
  | .hostWrite m pa bs :: r, _ => .next (hostWrite { s with inbox := r } m pa bs)
  | [], (q, w) :: r => applyAnswer { s with answers := r } q w
  | [], [] => stepOwn s

/-! ### Placing one instruction (DESIGN CHOICE, log entry 8) -/

/-- Physical places that `placeWord` uses: tables of five levels one page apart, then the code page. -/
def placedRoot : Nat := 0x100000
def placedCode : Nat := 0x200000

/-- Page tables that map virtual page 0, and the parcels of one object at its start. -/
def placedMem (m : Memory) (w : Nat) : Memory :=
  let table (k : Nat) (m : Memory) : Memory :=
    m.writeBytes (placedRoot + 4096 * k) (leBytes 8 (placedRoot + 4096 * (k + 1) + 2 ^ 62))
  let m := table 3 (table 2 (table 1 (table 0 m)))
  let leaf := placedCode + 2 * 2 ^ 62 + 2 * 2 ^ 60 + 2 ^ 59 + 2 ^ 57 + 2 ^ 56
  let m := m.writeBytes (placedRoot + 4096 * 4) (leBytes 8 leaf)
  m.writeBytes placedCode (leBytes 16 w)

def placedLaunch : Launch := { blankLaunch with lanes := 32, vregs := 128 }

def placedGrid : Grid :=
  { id := 1, ctx := 1, part := 0, lr := placedLaunch, queue := none, nteams := 1, bound := [0], retired := [],
    released := true, complete := false, gen := none, cores := [] }

def placedCtx : Ctx :=
  { id := 1, tid := 0, cls := 1, sys := true, furrow := false, debug := false, part := 0, s1root := placedRoot,
    s2root := 0, vmid := 0, ybudget := 0, budget := none, fq := ⟨0, 0, []⟩, pool := 0, npool := 0, sharemask := 0,
    sharetab := List.replicate 8 0, frame := 0, invalidRays := 0, nonce := 0, halted := none, sliceEnd := false,
    debt := 0, desc := [], pend := none }

/-- The state with one object placed at virtual address 0 of a context of its own, and one team that stands there: at a
header if the object is one, else at the last instruction of a clause. Nothing that arrived, no cached translation and no
turn of an internal event comes before it. -/
def placeWord (s : State) (w : Nat) : State :=
  let t := freshTeam s.nextUid s.nextAge 1 1 0 ⟨0, 0, 0, 0, 0⟩ ⟨0, 0, 0⟩ placedLaunch false
  let due := w % 4 == 3
  { s with
    inbox := [], answers := [], ticks := s.ticks / 2 * 2, mem := placedMem s.mem w, poison := [],
    caches := { s.caches with tlb := [], walks := [], handles := [] }, ctxs := [placedCtx], grids := [placedGrid],
    teams := [{ t with clause := ⟨if due then 0 else 1, 15, 15, 0⟩ }], nextUid := s.nextUid + 1, nextAge := s.nextAge + 1 }

end Sys2Proof.Machine
end

