-- ==== Sys2Proof/Safety.lean ====
section
/-! DEFINITION. What counts as a safe run: every step answers a next state. -/

namespace Sys2Proof.Safety

/-- Whether an outcome is a next state. -/
def isNext {σ φ ρ : Type} : Host.Outcome σ φ ρ → Bool
  | .next _ => true
  | _ => false

/-- A run of n steps that meets neither a fault nor a refusal. -/
def runs (s : Sys2Proof.Machine.State) (n : Nat) : Prop := isNext (Sys2Proof.core.run n s) = true

end Sys2Proof.Safety
end

