-- ==== Sys2Proof/Certificates/Slice0/Obligations.lean ====
section
/-! DEFINITION. The statements for the provers, and the words in which they are said: which lanes an instruction serves,
what a register reads, what stays as it was. -/

namespace Sys2Proof.Claims

open Sys2Proof.Machine

/-! ### Words shared by the statements -/

/-- The shape of a team's register files (01 R17, R24, R25). -/
def shaped (t : Team) : Prop :=
  t.lanes.length = t.nlanes ∧ t.nlanes ≤ 1024 ∧ t.nvregs % 8 = 0 ∧ t.nvregs ≤ 128 ∧
    (∀ l ∈ t.lanes, l.v.length = t.nvregs) ∧ t.s.length = 64 ∧ t.flags.length = 12

/-- Lane L is eligible (01 R19): active, and its guard, after its negation, is true. -/
def elig (t : Team) (g : Guard) (L : Nat) : Prop := L < t.nlanes ∧ t.active.has L = true ∧ t.pred L g.p ≠ g.neg

/-- Whether the result of lane L is kept: a vector destination in eligible lanes, a scalar one for any lane, since a
uniform instruction computes one value. -/
def receives (t : Team) (g : Guard) (d : Dst) (L : Nat) : Prop :=
  match d with
  | .v _ => elig t g L
  | .s _ => True
  | .none => False

/-- A destination read as a source. -/
def back : Dst → Src
  | .v n => .v n
  | .s n => .s n
  | .none => .none

/-- A team without its registers, predicates, place in the code and FSTAT: what no computing instruction changes. -/
def bare (t : Team) : Team :=
  { t with
    lanes := [], s := [], pc := 0, clause := ⟨0, 0, 0, 0⟩, unfin := none, since := none, mark := none, reply := []
    ctl := { t.ctl with fstat := 0 } }

/-- The team stands behind the instruction. -/
def moved (i : Instr) (t t' : Team) : Prop :=
  t'.pc = t.pc + BitVec.ofNat 64 (instrBytes i) ∧ t'.clause = { t.clause with left := t.clause.left - 1 }

/-- Registers outside the k registers of a destination keep their values, and so do all of them in a lane that is not
eligible. -/
def regsKept (t t' : Team) (g : Guard) (d : Dst) (k : Nat) : Prop :=
  (∀ L n, ¬ (∃ v, d = .v v ∧ elig t g L ∧ v.toNat ≤ n ∧ n < v.toNat + k) → t'.vreg L n = t.vreg L n) ∧
  (∀ n, ¬ (∃ v, d = .s v ∧ v.toNat ≤ n ∧ n < v.toNat + k) → t'.sreg n = t.sreg n)

/-- Predicates other than p keep their values, and so does p in a lane that is not eligible. -/
def predsKept (t t' : Team) (g : Guard) (p : PredIx) : Prop :=
  ∀ L q, (q ≠ p ∨ ¬ elig t g L) → t'.pred L q = t.pred L q

/-- The random streams keep their states. -/
def rngKept (t t' : Team) : Prop := ∀ L, (t'.lane L).rng = (t.lane L).rng

/-- The completion of an instruction that writes k registers of d and, in eligible lanes, predicate p (p7: none): for
every current team whose registers it names, a next state in which that team alone has changed, with the result `post`
in the lanes that receive one. -/
def Gives (i : Instr) (g : Guard) (d : Dst) (srcs : List Src) (k : Nat) (p : PredIx)
    (post : State → Team → Team → Nat → Prop) : Prop :=
  i.wf = true → ∀ s t, s.curTeam = some t → shaped t → allocOk t d srcs = true →
    ∃ t', exec i s = .next (s.setTeam t') ∧ moved i t t' ∧ bare t' = bare t ∧ t'.ctl = t.ctl ∧ rngKept t t' ∧
      regsKept t t' g d k ∧ predsKept t t' g p ∧ ∀ L, (receives t g d L ∨ p ≠ 7 ∧ elig t g L) → post s t t' L

/-- Element e of an operand as w bits (04 R101). -/
def elem (w x e : Nat) : BitVec w := BitVec.ofNat w (x / 2 ^ (w * e))

/-- The registers of a result of a type. -/
def regsOf (wide : Bool) : Nat := if wide then 2 else 1

/-- An elementwise instruction whose element results are `f` of the elements of its sources (04 R101). -/
def Elementwise (i : Instr) (x : Alu) (f : (w : Nat) → BitVec w → BitVec w → BitVec w → BitVec w) : Prop :=
  Gives i x.g x.d [x.a, x.b, x.c] (regsOf x.ty.wide) 7 fun s t t' L =>
    ∀ e < IType.elems x.ty,
      let w := IType.width x.ty
      let u := isUni x.d [x.a, x.b, x.c]
      elem w (valI s t' u L x.ty (back x.d)) e =
        f w (elem w (valI s t u L x.ty x.a) e) (elem w (valI s t u L x.ty x.b) e) (elem w (valI s t u L x.ty x.c) e)

/-- As `Elementwise` with a 32-bit count operand: element e of it for a packed type, all of it otherwise (04 R113). -/
def Counted (i : Instr) (x : Alu) (f : (w : Nat) → BitVec w → Nat → BitVec w) : Prop :=
  Gives i x.g x.d [x.a, x.b, x.c] (regsOf x.ty.wide) 7 fun s t t' L =>
    ∀ e < IType.elems x.ty,
      let w := IType.width x.ty
      let u := isUni x.d [x.a, x.b, x.c]
      let c := val32 s t u L x.b
      elem w (valI s t' u L x.ty (back x.d)) e =
        f w (elem w (valI s t u L x.ty x.a) e) (if x.ty.packed then (elem w c.toNat e).toNat else c.toNat)

/-- The value of a W-bit pattern in a signed or unsigned type. -/
def value (sg : Bool) {w : Nat} (a : BitVec w) : Int := if sg then a.toInt else (a.toNat : Int)

/-- `x` clamped to the range of W-bit numbers (04 R102). -/
def clamped (sg : Bool) (w : Nat) (x : Int) : Int :=
  let lo : Int := if sg then -(2 ^ (w - 1) : Nat) else 0
  let hi : Int := if sg then (2 ^ (w - 1) : Nat) - 1 else (2 ^ w : Nat) - 1
  if x < lo then lo else if hi < x then hi else x

/-- The same comparison for both signednesses: a ≤ b as values of the type. -/
def leq (sg : Bool) {w : Nat} (a b : BitVec w) : Bool := decide (value sg a ≤ value sg b)

end Sys2Proof.Claims

open Sys2Proof Sys2Proof.Machine Sys2Proof.Claims

/-! ### Integer arithmetic (04) -/

/-- R108, R103: sums, differences and products modulo 2^W, element by element, in eligible lanes only. -/
def Sys2Proof.Claims.IntegerSumsWrap : Prop :=
  ∀ x : Alu,
    Elementwise (.add x false) x (fun _ a b _ => a + b) ∧
    Elementwise (.sub x false) x (fun _ a b _ => a - b) ∧
    Elementwise (.mul x) x (fun _ a b _ => a * b) ∧
    Elementwise (.mad x false) x (fun _ a b c => a * b + c) ∧
    Elementwise (.absn x true false) x (fun _ a _ _ => -a) ∧
    Elementwise (.absn x false false) x (fun _ a _ _ => if a.msb then -a else a)

/-- R108, R102: `.sat` clamps the exact result to the range of the type. -/
def Sys2Proof.Claims.IntegerSumsSaturate : Prop :=
  ∀ x : Alu,
    Elementwise (.add x true) x (fun w a b _ =>
      BitVec.ofInt w (clamped x.ty.signed w (value x.ty.signed a + value x.ty.signed b))) ∧
    Elementwise (.sub x true) x (fun w a b _ =>
      BitVec.ofInt w (clamped x.ty.signed w (value x.ty.signed a - value x.ty.signed b))) ∧
    Elementwise (.mad x true) x (fun w a b c =>
      BitVec.ofInt w (clamped x.ty.signed w (value x.ty.signed a * value x.ty.signed b + value x.ty.signed c))) ∧
    Elementwise (.absn x true true) x (fun w a _ _ =>
      BitVec.ofInt w (clamped x.ty.signed w (-(value x.ty.signed a)))) ∧
    Elementwise (.absn x false true) x (fun w a _ _ => BitVec.ofInt w (clamped true w (Int.natAbs a.toInt)))

/-- R109, R122: high halves, full products and scaled addresses. -/
def Sys2Proof.Claims.IntegerProductsAndAddresses : Prop :=
  ∀ x : Alu,
    Elementwise (.mulhi x) x (fun w a b _ =>
      BitVec.ofInt w (value x.ty.signed a * value x.ty.signed b / (2 ^ w : Nat))) ∧
    Gives (.mulw x) x.g x.d [x.a, x.b, x.c] 2 7 (fun s t t' L =>
      let u := isUni x.d [x.a, x.b, x.c]
      val64 s t' u L false (back x.d) =
        BitVec.ofInt 64 (value x.ty.signed (val32 s t u L x.a) * value x.ty.signed (val32 s t u L x.b))) ∧
    (∀ sh : BitVec 5, Elementwise (.lea x false sh) x (fun _ a b c => a + (b <<< sh.toNat) + c)) ∧
    ∀ sh : BitVec 5, Gives (.lea x true sh) x.g x.d [x.a, x.b, x.c] 2 7 (fun s t t' L =>
      let u := isUni x.d [x.a, x.b, x.c]
      let b := val32 s t u L x.b
      let bx : DWord := if x.ty.signed then b.signExtend 64 else b.setWidth 64
      val64 s t' u L false (back x.d) =
        val64 s t u L x.ty.signed x.a + (bx <<< sh.toNat) + val64 s t u L x.ty.signed x.c)

/-- R110: comparisons by type, element by element; `clamp` with lo above hi gives hi. -/
def Obligations.IntegerMinMaxClamp : Prop :=
  ∀ x : Alu,
    Elementwise (.min x) x (fun _ a b _ => if leq x.ty.signed a b then a else b) ∧
    Elementwise (.max x) x (fun _ a b _ => if leq x.ty.signed a b then b else a) ∧
    Elementwise (.clamp x) x (fun _ a lo hi =>
      let y := if leq x.ty.signed a lo then lo else a
      if leq x.ty.signed y hi then y else hi)

/-- R112: bitwise functions, `.not` inverting the second operand. -/
def Obligations.BitwiseFunctions : Prop :=
  ∀ (x : Alu) (inv : Bool),
    Elementwise (.and x inv) x (fun _ a b _ => a &&& (if inv then ~~~b else b)) ∧
    Elementwise (.or x inv) x (fun _ a b _ => a ||| (if inv then ~~~b else b)) ∧
    Elementwise (.xor x inv) x (fun _ a b _ => if inv then ~~~(a ^^^ b) else a ^^^ b)

/-- R113: shifts by the width or more empty the element, or fill it with its sign; rotations take the count modulo the
width. -/
def Sys2Proof.Claims.ShiftsAndRotations : Prop :=
  ∀ x : Alu,
    Counted (.shl x) x (fun w a n => if w ≤ n then 0 else a <<< n) ∧
    Counted (.shr x) x (fun w a n =>
      if x.ty.signed then a.sshiftRight n else if w ≤ n then 0 else a >>> n) ∧
    Counted (.rot x false) x (fun w a n => a.rotateLeft (n % w)) ∧
    Counted (.rot x true) x (fun w a n => a.rotateRight (n % w))

/-- R114, R115: counts of bits, and the field operations bit by bit. -/
def Sys2Proof.Claims.BitCountsAndFields : Prop :=
  ∀ x : Alu,
    let w := IType.width x.ty
    let u := isUni x.d [x.a, x.b, x.c]
    let src (s : State) (t : Team) (L : Nat) (o : Src) : BitVec 64 := BitVec.ofNat 64 (valI s t u L x.ty o)
    Gives (.bcnt x .popc) x.g x.d [x.a, x.b, x.c] 1 7 (fun s t t' L =>
      (val32 s t' u L (back x.d)).toNat = ((List.range w).filter fun j => (src s t L x.a).getLsbD j).length) ∧
    Gives (.bcnt x .clz) x.g x.d [x.a, x.b, x.c] 1 7 (fun s t t' L =>
      let n := (val32 s t' u L (back x.d)).toNat
      n ≤ w ∧ (∀ j < n, (src s t L x.a).getLsbD (w - 1 - j) = false) ∧
        (n < w → (src s t L x.a).getLsbD (w - 1 - n) = true)) ∧
    Gives (.bcnt x .ctz) x.g x.d [x.a, x.b, x.c] 1 7 (fun s t t' L =>
      let n := (val32 s t' u L (back x.d)).toNat
      n ≤ w ∧ (∀ j < n, (src s t L x.a).getLsbD j = false) ∧ (n < w → (src s t L x.a).getLsbD n = true)) ∧
    Gives (.bitf x .ext) x.g x.d [x.a, x.b, x.c] (regsOf x.ty.wide) 7 (fun s t t' L =>
      let k := val32 s t u L x.b
      let o := (k.setWidth 8).toNat
      let n := Nat.min (k.extractLsb' 8 8).toNat (w - o)
      ∀ j < w, (src s t' L (back x.d)).getLsbD j =
        if n = 0 then false
        else if j < n then (src s t L x.a).getLsbD (o + j)
        else x.ty.signed && (src s t L x.a).getLsbD (o + n - 1)) ∧
    Gives (.bitf x .ins) x.g x.d [x.a, x.b, x.c] (regsOf x.ty.wide) 7 (fun s t t' L =>
      let k := val32 s t u L x.b
      let o := (k.setWidth 8).toNat
      let n := Nat.min (k.extractLsb' 8 8).toNat (w - o)
      ∀ j < w, (src s t' L (back x.d)).getLsbD j =
        if o ≤ j ∧ j < o + n then (src s t L x.c).getLsbD (j - o) else (src s t L x.a).getLsbD j) ∧
    Gives (.bitf x .rev) x.g x.d [x.a, x.b, x.c] (regsOf x.ty.wide) 7 (fun s t t' L =>
      ∀ j < w, (src s t' L (back x.d)).getLsbD j = (src s t L x.a).getLsbD (w - 1 - j))

/-- R116 to R118: comparisons, logic on predicates and selection; a write to p7 is discarded. -/
def Sys2Proof.Claims.PredicatesAndSelection : Prop :=
  (∀ g ty cond comb pd a b, Gives (.setp g ty cond comb pd a b) g .none [a, b] 0 pd fun s t t' L =>
    let x := valI s t false L ty a
    let y := valI s t false L ty b
    let w := IType.width ty
    let vx := value ty.signed (BitVec.ofNat w x)
    let vy := value ty.signed (BitVec.ofNat w y)
    let c : Bool := match cond with
      | .eq => decide (vx = vy) | .ne => decide (vx ≠ vy) | .lt => decide (vx < vy) | .le => decide (vx ≤ vy)
      | .gt => decide (vy < vx) | .ge => decide (vy ≤ vx)
      | .tst => decide (BitVec.ofNat 64 x &&& BitVec.ofNat 64 y ≠ 0)
      | .ntst => decide (BitVec.ofNat 64 x &&& BitVec.ofNat 64 y = 0)
    t'.pred L pd = (match comb with
      | .none => c | .and q => c && t.pred L q | .or q => c || t.pred L q | .xor q => c ^^ t.pred L q)) ∧
  (∀ g op pd pa pb, Gives (.plog g op pd pa pb) g .none [] 0 pd fun _ t t' L =>
    let a := t.pred L pa
    let b := t.pred L pb
    t'.pred L pd = (match op with
      | .and => a && b | .or => a || b | .xor => a ^^ b | .andn => a && !b | .orn => a || !b | .not => !a)) ∧
  ∀ (x : Alu) (pc : PredIx), Gives (.sel x pc) x.g x.d [x.a, x.b, x.c] (regsOf x.ty.wide) 7 fun s t t' L =>
    valI s t' false L x.ty (back x.d) = if t.pred L pc then valI s t false L x.ty x.a else valI s t false L x.ty x.b

/-- R119, R124: conditional subtraction, and sums with carry; the out predicate may be the in predicate. That a sum or a
difference with carry whose destination is none and whose sources are uniform is a pipe instruction when its out predicate is
not p7 is the model's reading of R103: DEDUCED, log entry 94. -/
def Obligations.CarriesAndConditionalSubtraction : Prop :=
  (∀ (x : Alu) (ci : Option PredIx) (co : PredIx),
    Gives (.addc x ci co) x.g x.d [x.a, x.b] 1 co (fun s t t' L =>
      let u := isUni x.d [x.a, x.b] && ci.isNone && co == 7
      let c := match ci with | some p => b2n (t.pred L p) | none => 0
      let sum := (val32 s t u L x.a).toNat + (val32 s t u L x.b).toNat + c
      (receives t x.g x.d L → val32 s t' u L (back x.d) = BitVec.ofNat 32 sum) ∧
        (elig t x.g L → co ≠ 7 → t'.pred L co = decide (2 ^ 32 ≤ sum))) ∧
    Gives (.subb x ci co) x.g x.d [x.a, x.b] 1 co (fun s t t' L =>
      let u := isUni x.d [x.a, x.b] && ci.isNone && co == 7
      let c := match ci with | some p => b2n (t.pred L p) | none => 0
      let diff : Int := (val32 s t u L x.a).toNat - (val32 s t u L x.b).toNat - c
      (receives t x.g x.d L → val32 s t' u L (back x.d) = BitVec.ofInt 32 diff) ∧
        (elig t x.g L → co ≠ 7 → t'.pred L co = decide (diff < 0)))) ∧
  (∀ (x : Alu) (pc : PredIx), Gives (.csub x (.p pc)) x.g x.d [x.a, x.b] (regsOf x.ty.wide) 7 fun s t t' L =>
    let w := IType.width x.ty
    let a := elem w (valI s t false L x.ty x.a) 0
    let b := elem w (valI s t false L x.ty x.b) 0
    elem w (valI s t' false L x.ty (back x.d)) 0 = if t.pred L pc then a - b else a) ∧
  ∀ (x : Alu) (pq : PredIx), Gives (.csub x (.ge pq)) x.g x.d [x.a, x.b] (regsOf x.ty.wide) pq fun s t t' L =>
    let u := isUni x.d [x.a, x.b] && pq == 7
    let w := IType.width x.ty
    let a := elem w (valI s t u L x.ty x.a) 0
    let b := elem w (valI s t u L x.ty x.b) 0
    (receives t x.g x.d L →
      elem w (valI s t' u L x.ty (back x.d)) 0 = if leq x.ty.signed b a then a - b else a) ∧
      (elig t x.g L → pq ≠ 7 → t'.pred L pq = leq x.ty.signed b a)

/-- R120, R121: copies, immediates and extensions. -/
def Sys2Proof.Claims.MovesAndExtensions : Prop :=
  (∀ x : Alu, Elementwise (.mov x) x (fun _ a _ _ => a)) ∧
  (∀ g ty d w, Gives (.movi g ty d (.i32 w)) g d [] (regsOf ty.wide) 7 fun s _ t' L =>
    valI s t' (isUni d []) L ty (back d) =
      if ty.wide then (if ty.signed then (w.signExtend 64).toNat else w.toNat) else w.toNat) ∧
  (∀ g ty d w, Gives (.movi g ty d (.i64 w)) g d [] 2 7 fun s _ t' L =>
    val64 s t' (isUni d []) L false (back d) = w) ∧
  (∀ (x : Alu) (n : BitVec 6),
    let k := n.toNat + 1
    let u := isUni x.d [x.a, x.b, x.c]
    let src (s : State) (t : Team) (L : Nat) : BitVec 64 :=
      if 32 < k then val64 s t u L x.ty.signed x.a else (val32 s t u L x.a).setWidth 64
    Gives (.ext x (.sext n)) x.g x.d [x.a, x.b, x.c] (regsOf x.ty.wide) 7 (fun s t t' L =>
      valI s t' u L x.ty (back x.d) =
        (((src s t L).setWidth k).signExtend 64).toNat % 2 ^ IType.width x.ty) ∧
    Gives (.ext x (.zext n)) x.g x.d [x.a, x.b, x.c] (regsOf x.ty.wide) 7 (fun s t t' L =>
      valI s t' u L x.ty (back x.d) = ((src s t L).setWidth k).toNat)) ∧
  ∀ x : Alu, Gives (.ext x .trunc) x.g x.d [x.a, x.b, x.c] 1 7 fun s t t' L =>
    let u := isUni x.d [x.a, x.b, x.c]
    val32 s t' u L (back x.d) = lo32 (val64 s t u L false x.a)

/-- R123: quotients toward zero and remainders, in a run where no lane that computes has a zero divisor or the
instruction carries `.nz`; a zero divisor gives all ones or the dividend. -/
def Sys2Proof.Claims.DivisionResults : Prop :=
  ∀ (x : Alu) (rem nz : Bool), Instr.wf (.div x rem nz) = true → ∀ s t, s.curTeam = some t → shaped t →
    allocOk t x.d [x.a, x.b, x.c] = true →
    let u := isUni x.d [x.a, x.b, x.c]
    let w := IType.width x.ty
    let a (L : Nat) : BitVec w := BitVec.ofNat w (valI s t u L x.ty x.a)
    let b (L : Nat) : BitVec w := BitVec.ofNat w (valI s t u L x.ty x.b)
    (nz = true ∨ (if u then b 0 ≠ 0 else ∀ L, elig t x.g L → b L ≠ 0)) →
    ∃ t', exec (.div x rem nz) s = .next (s.setTeam t') ∧ moved (.div x rem nz) t t' ∧ bare t' = bare t ∧
      t'.ctl = t.ctl ∧ rngKept t t' ∧ regsKept t t' x.g x.d (regsOf x.ty.wide) ∧ predsKept t t' x.g 7 ∧
      ∀ L, receives t x.g x.d L →
        BitVec.ofNat w (valI s t' u L x.ty (back x.d)) =
          if b L = 0 then (if rem then a L else BitVec.allOnes w)
          else if x.ty.signed then (if rem then (a L).srem (b L) else (a L).sdiv (b L))
          else (if rem then a L % b L else a L / b L)

/-- R123, R133, R421: without `.nz` a zero divisor of an eligible lane, or of a uniform division, stops the team with ARITH,
names those lanes, or every active one, with DZ alone in DETAIL, and writes no register. -/
def Sys2Proof.Claims.DivisionByZeroFaults : Prop :=
  ∀ (x : Alu) (rem : Bool), Instr.wf (.div x rem false) = true → ∀ s t, s.curTeam = some t → shaped t →
    allocOk t x.d [x.a, x.b, x.c] = true →
    let stops (named : Nat → Prop) : Prop :=
      ∃ (t' : Team) (r : FaultRec), exec (.div x rem false) s = .next (s.setTeam t') ∧ t'.status = .stopping r ∧
        r.finfo0.extractLsb' 24 8 = codeArith ∧ r.finfo2 = 2 ∧ r.ipc = t.pc ∧ r.rpc = t.resumePc ∧
        (∀ L, L < 1024 → (r.lanes.has L = true ↔ named L)) ∧ t'.lanes = t.lanes ∧ t'.s = t.s ∧ t'.pc = t.pc
    (isUni x.d [x.a, x.b, x.c] = false → (∃ L, elig t x.g L ∧ valI s t false L x.ty x.b = 0) →
      stops fun L => elig t x.g L ∧ valI s t false L x.ty x.b = 0) ∧
    (isUni x.d [x.a, x.b, x.c] = true → valI s t true 0 x.ty x.b = 0 → stops fun L => t.active.has L = true)

/-- Integer sums, saturating sums, products, high halves and scaled addresses: the claims above together. -/
def Obligations.IntegerArithmetic : Prop :=
  Sys2Proof.Claims.IntegerSumsWrap ∧
  Sys2Proof.Claims.IntegerSumsSaturate ∧
  Sys2Proof.Claims.IntegerProductsAndAddresses

/-- Shifts, rotations, bit counts and bit fields: the claims above together. -/
def Obligations.ShiftsCountsAndFields : Prop :=
  Sys2Proof.Claims.ShiftsAndRotations ∧ Sys2Proof.Claims.BitCountsAndFields

/-- Comparisons into predicates, predicate logic, selection, copies, immediates, extensions: the claims above together. -/
def Obligations.PredicatesMovesAndExtensions : Prop :=
  Sys2Proof.Claims.PredicatesAndSelection ∧ Sys2Proof.Claims.MovesAndExtensions

/-- Integer division: quotients, remainders, zero divisors: the claims above together. -/
def Obligations.IntegerDivision : Prop :=
  Sys2Proof.Claims.DivisionResults ∧ Sys2Proof.Claims.DivisionByZeroFaults

/-! ### Control flow (03) -/

namespace Sys2Proof.Claims

/-- The current team may transfer here: the instruction is the last of its clause (02 R39). -/
def mayTransfer (s : State) (t : Team) : Prop := s.curTeam = some t ∧ t.clause.left ≤ 1

/-- Every address of a list is a clause header that the team may fetch; `s'` is the state after the look (03 R75). -/
def headersAt (s : State) (t : Team) (pcs : List DWord) (s' : State) : Prop :=
  checkTargets s (s.ctxOf t) t pcs = .ok s'

/-- Memory as page-table walks of a context leave it: they mark descriptors (16 R430). -/
inductive Marks (c : Ctx) : Memory → Memory → Prop where
  | same (m : Memory) : Marks c m m
  | walk {m m' : Memory} (v : WalkView) (va : DWord) (acc : Access) (o : XOk) :
      walk v (.of m) c va acc = .ok o → Marks c o.wm.mem m' → Marks c m m'

/-- A taken transfer by a byte offset: a backward one looks for a rotation (03 R95). -/
def turned (backward : Bool) (c : Paths) : Paths := if backward then c.checkRotate else c

end Sys2Proof.Claims

/-- R81: `nop` changes nothing but the pc, and the place in the clause that goes with it. -/
def Obligations.NopMovesOnlyThePc : Prop :=
  ∀ s t, s.curTeam = some t →
    exec .nop s = .next (s.setTeam
      { t with pc := t.pc + 8, clause := { t.clause with left := t.clause.left - 1 }, unfin := none, since := none,
               mark := none, reply := [] })

/-- R82: a uniform branch moves every active lane to its target, or goes on at the next clause, whatever stands at the target
then. -/
def Sys2Proof.Claims.UniformBranches : Prop :=
  ∀ s t off, mayTransfer s t →
    let target := t.pc + off.signExtend 64
    let jump (s' : State) : State :=
      s'.setTeam (t.withPaths (turned off.msb { stack := t.stack, active := t.active, pc := target }))
    let fall : State := s.setTeam (t.goto (t.pc + 12))
    (∀ s', headersAt s t [target] s' → exec (.bra .always off) s = .next (jump s')) ∧
    (∀ n, t.sreg n.toNat = 0 →
      (∀ s', headersAt s t [target] s' → exec (.bra (.z n) off) s = .next (jump s')) ∧ exec (.bra (.nz n) off) s = .next fall) ∧
    ∀ n, t.sreg n.toNat ≠ 0 →
      (∀ s', headersAt s t [target] s' → exec (.bra (.nz n) off) s = .next (jump s')) ∧ exec (.bra (.z n) off) s = .next fall

/-- R85: a voted branch whose active lanes agree moves them all; one whose lanes differ pushes a DIV entry that holds the
lanes that do not take it. -/
def Sys2Proof.Claims.VotedBranches : Prop :=
  ∀ s t p neg taken jn, mayTransfer s t →
    let yes := t.predMask p neg
    let no := t.active.diff yes
    let target := t.pc + taken.signExtend 64
    let join := t.pc + jn.signExtend 64
    (no = 0 → ∀ s', headersAt s t [target] s' → exec (.brv p neg taken jn) s =
      .next (s'.setTeam (t.withPaths (turned taken.msb { stack := t.stack, active := t.active, pc := target })))) ∧
    (no ≠ 0 → yes = 0 → exec (.brv p neg taken jn) s = .next (s.setTeam (t.goto (t.pc + 16)))) ∧
    (no ≠ 0 → yes ≠ 0 → t.pushOk = true → ∀ s', headersAt s t [target, join] s' → exec (.brv p neg taken jn) s =
      .next (s'.setTeam (t.withPaths (turned taken.msb
        { stack := .div join yes [⟨t.pc + 16, no, none⟩] 0 :: t.stack, active := yes, pc := target })))) ∧
    (no ≠ 0 → yes ≠ 0 → t.pushOk = false → exec (.brv p neg taken jn) s =
      .next (takeFault s t (.brv p neg taken jn) stackFault))

/-- R86: a multi-way branch sends each active lane to the lowest pair that holds, else to the header of the next clause, past
a fill parcel; with more than one path it pushes a DIV entry with the paths in order, and is STACK without room for it. -/
def Sys2Proof.Claims.MultiWayBranches : Prop :=
  ∀ s t pairs jn, mayTransfer s t → Instr.wf (.brm pairs jn) = true →
    let i := Instr.brm pairs jn
    let lanesOf (k : Nat) : Mask := Mask.ofLanes ((t.active.lanes t.nlanes).filter fun L => brmPath t pairs L == k)
    let taken := ((List.range (pairs.length + 1)).filter fun k => !(lanesOf k).isEmpty)
    let to4 (o : BitVec 12) : DWord := t.pc + (o.signExtend 64) * 4
    let at' (k : Nat) : DWord := ((pairs[k]?).map fun q => to4 q.off).getD (pastFill s t (t.pc + 16))
    let backward (k : Nat) : Bool := ((pairs[k]?).map fun q => q.off.msb).getD false
    let jumps (ks : List Nat) : List DWord := ks.map at'
    (∀ k, taken = [k] → ∀ s', headersAt s t (jumps [k]) s' → exec i s =
      .next (s'.setTeam (t.withPaths (turned (backward k) { stack := t.stack, active := t.active, pc := at' k })))) ∧
    ∀ k k' ks, taken = k :: k' :: ks →
      (t.pushOk = true → ∀ s', headersAt s t (jumps (k :: k' :: ks) ++ [to4 jn]) s' → exec i s =
        .next (s'.setTeam (t.withPaths (turned (backward k)
          { stack := .div (to4 jn) (lanesOf k) ((k' :: ks).map fun j => ⟨at' j, lanesOf j, none⟩) 0 :: t.stack,
            active := lanesOf k, pc := at' k })))) ∧
      (t.pushOk = false → exec i s = .next (takeFault s t i stackFault))

/-- R83, R84: a call records where it returns, a return goes there; a call without room for its entry, and a return without a
CALL entry on top, are STACK. -/
def Sys2Proof.Claims.CallsAndReturns : Prop :=
  ∀ s t, mayTransfer s t →
    (t.pushOk = true → ∀ off s', headersAt s t [t.pc + off.signExtend 64] s' → exec (.call (.direct off)) s =
      .next (s'.setTeam (t.withPaths
        { stack := .call (t.pc + 12) t.active :: t.stack, active := t.active, pc := t.pc + off.signExtend 64 }))) ∧
    (t.pushOk = true → ∀ n s', let target := pair32 (t.sreg n.toNat) (t.sreg (n.toNat + 1))
      target.toNat % 4 = 0 → headersAt s t [target] s' → exec (.call (.ind n)) s =
        .next (s'.setTeam (t.withPaths
          { stack := .call (t.pc + 12) t.active :: t.stack, active := t.active, pc := target }))) ∧
    (t.pushOk = false → (∀ off, exec (.call (.direct off)) s = .next (takeFault s t (.call (.direct off)) stackFault)) ∧
      ∀ n, (pair32 (t.sreg n.toNat) (t.sreg (n.toNat + 1))).toNat % 4 = 0 →
        exec (.call (.ind n)) s = .next (takeFault s t (.call (.ind n)) stackFault)) ∧
    (∀ n, let target := pair32 (t.sreg n.toNat) (t.sreg (n.toNat + 1))
      target.toNat % 4 ≠ 0 → exec (.call (.ind n)) s =
        .next (takeFault s t (.call (.ind n)) { t.uniFault codeAlign 0xFFF with addr := target })) ∧
    (∀ ra m rest, t.stack = .call ra m :: rest →
      exec .ret s = .next (s.setTeam (t.withPaths { stack := rest, active := t.active, pc := ra }))) ∧
    ((∀ ra m rest, t.stack ≠ .call ra m :: rest) → exec .ret s = .next (takeFault s t .ret stackFault))

/-- R87, R92: `join` adds the running lanes to the arrived ones of the top DIV entry and ends the path; `spin` lets another
path run. -/
def Sys2Proof.Claims.JoinAndSpin : Prop :=
  ∀ s t, mayTransfer s t →
    (∀ j c q v rest, t.stack = .div j c q v :: rest → exec .join s =
      .next (s.setTeam (t.withPaths
        (Paths.ended { stack := .div j c q (v ||| t.active) :: rest, active := 0, pc := t.pc + 8 })))) ∧
    ((∀ j c q v rest, t.stack ≠ .div j c q v :: rest) → exec .join s = .next (takeFault s t .join stackFault)) ∧
    exec .spin s = .next (s.setTeam (t.withPaths
      (Paths.checkRotate { stack := t.stack, active := t.active, pc := t.pc + 8 })))

/-- R88, R89: `loop` pushes an entry whose head is the next clause; `next` repeats with the lanes that go on, or leaves at
the exit. Without room for the entry, and without a LOOP entry on top, they are STACK. -/
def Sys2Proof.Claims.LoopsIterate : Prop :=
  ∀ s t, mayTransfer s t →
    (t.pushOk = true → ∀ off s', headersAt s t [t.pc + off.signExtend 64] s' → exec (.loop off) s =
      .next (s'.setTeam (t.withPaths
        { stack := .loop ⟨t.pc + 12, t.pc + off.signExtend 64, t.active, 0, 0⟩ :: t.stack, active := t.active,
          pc := t.pc + 12 }))) ∧
    (t.pushOk = false → ∀ off, exec (.loop off) s = .next (takeFault s t (.loop off) stackFault)) ∧
    (∀ p neg, (∀ l rest, t.stack ≠ .loop l :: rest) → exec (.next p neg) s = .next (takeFault s t (.next p neg) stackFault)) ∧
    ∀ p neg l rest, t.stack = .loop l :: rest →
      let on := t.predMask p neg ||| l.k
      let out := l.v ||| t.active.diff (t.predMask p neg)
      (on ≠ 0 → exec (.next p neg) s = .next (s.setTeam (t.withPaths (Paths.checkRotate
        { stack := .loop { l with i := on, k := 0, v := out } :: rest, active := on, pc := l.h })))) ∧
      (on = 0 → out ≠ 0 → exec (.next p neg) s =
        .next (s.setTeam (t.withPaths { stack := rest, active := out, pc := l.x }))) ∧
      (on = 0 → out = 0 → exec (.next p neg) s =
        .next (s.setTeam (t.withPaths (Paths.ended { stack := rest, active := 0, pc := l.x }))))

/-- R90, R91: leaving lanes go to the exit lanes (`brk`) or the next iteration (`cont`) of the n-th loop, or leave the team
(`exit`); they are removed from every entry above it, or from the whole stack. With none left the path ends. With fewer LOOP
entries than n above the nearest CALL entry, `brk` and `cont` are STACK. -/
def Sys2Proof.Claims.LanesLeaveLoopsAndTeams : Prop :=
  ∀ s t g, mayTransfer s t →
    let out := t.eligible g
    let go (t' : Team) (c : Paths) : State := s.setTeam (t'.withPaths (if c.active = 0 then c.ended else c))
    (out ≠ 0 → ∀ (n : BitVec 8) above l below, findLoop n.toNat t.stack = some (above, l, below) →
      exec (.brk g n) s = .next (go t
        { stack := removeLanes out above ++ .loop { l with i := l.i.diff out, v := l.v ||| out } :: below,
          active := t.active.diff out, pc := t.pc + 8 }) ∧
      exec (.cont g n) s = .next (go t
        { stack := removeLanes out above ++ .loop { l with i := l.i.diff out, k := l.k ||| out } :: below,
          active := t.active.diff out, pc := t.pc + 8 })) ∧
    (out ≠ 0 → ∀ n : BitVec 8,
      ((t.stack.takeWhile fun e => match e with | .call .. => false | _ => true).filter fun e =>
        match e with | .loop _ => true | _ => false).length < Nat.max 1 n.toNat →
      exec (.brk g n) s = .next (takeFault s t (.brk g n) stackFault) ∧
      exec (.cont g n) s = .next (takeFault s t (.cont g n) stackFault)) ∧
    (out ≠ 0 → exec (.exit g) s = .next (go { t with exited := t.exited ||| out }
      { stack := removeLanes out t.stack, active := t.active.diff out, pc := t.pc + 8 })) ∧
    (out = 0 → ∀ n : BitVec 8, exec (.brk g n) s = .next (s.setTeam (t.goto (t.pc + 8))) ∧
      exec (.cont g n) s = .next (s.setTeam (t.goto (t.pc + 8))) ∧
      exec (.exit g) s = .next (s.setTeam (t.goto (t.pc + 8))))

/-- R93, R94: `reorder` permutes whole lanes so that the live ones come first with keys ascending, equal keys keeping their
order; it writes no scalar register, flag, scratchpad or memory. -/
def Sys2Proof.Claims.ReorderSortsLiveLanes : Prop :=
  ∀ s t (signed : Bool) (k : BitVec 7), s.curTeam = some t → shaped t → t.stack = [] → k.toNat < t.nvregs →
    s.regPending t = false →
    let key (u : Team) (L : Nat) : Int := if signed then (u.vreg L k.toNat).toInt else ((u.vreg L k.toNat).toNat : Int)
    let n := ((List.range t.nlanes).filter fun L => !t.exited.has L).length
    ∃ (t' : Team) (perm : List Nat), exec (.reorder signed k) s = .next (s.setTeam t') ∧
      List.Perm perm (List.range t.nlanes) ∧ t'.lanes = perm.map t.lane ∧
      (∀ j < n, t.exited.has ((perm[j]?).getD 0) = false) ∧
      (∀ j < n, t'.active.has j = true) ∧ (∀ j, n ≤ j → t'.active.has j = false) ∧
      (∀ i j, i < j → j < n → key t' i < key t' j ∨
        (key t' i = key t' j ∧ (perm[i]?).getD 0 < (perm[j]?).getD 0)) ∧
      t'.s = t.s ∧ t'.ctl = t.ctl ∧ t'.flags = t.flags ∧ t'.scratch = t.scratch ∧ t'.pc = t.pc + 8

/-- R69 to R95, the frame: whatever a control instruction does, taken or not or stopped, it writes no vector or scalar
register, no predicate, no random stream, no FSTAT, no flag and no scratchpad byte, and other teams keep their state, unless
the look at a target meets an error response, which halts the context; one without a target to look up leaves the coherent
memory as it was, and the look changes only the marks of the
tables' descriptors, in memory with its dirty chunks, and what the TLBs and walk caches hold. -/
def Obligations.ControlFlowFrame : Prop :=
  ∀ s t i, s.curTeam = some t →
    (match i with
      | .bra .. | .brv .. | .brm .. | .join | .brk .. | .cont .. | .call .. | .ret | .exit .. | .loop .. | .next .. | .spin => True
      | _ => False) →
    (∀ s', exec i s = .next s' →
      ((s.ctx? t.ctx).bind (·.halted) = none ∧ (s'.ctx? t.ctx).bind (·.halted) = some codeContained ∧
        match i with
        | .join | .brk .. | .cont .. | .ret | .exit .. | .next .. | .spin => False
        | _ => True) ∨
      ∃ t', s'.team? t.uid = some t' ∧ t'.lanes = t.lanes ∧ t'.s = t.s ∧ t'.flags = t.flags ∧
        t'.scratch = t.scratch ∧ t'.binds = t.binds ∧ t'.ctl.mode = t.ctl.mode ∧ t'.ctl.fstat = t.ctl.fstat ∧
        (∀ u, u ≠ t.uid → s'.team? u = s.team? u) ∧ s'.ops = s.ops ∧ s'.grids = s.grids ∧
        (match i with
          | .join | .brk .. | .cont .. | .ret | .exit .. | .next .. | .spin => ∀ a, s'.mem.read a = s.mem.read a
          | _ => Marks (s.ctxOf t) s.mem s'.mem)) ∧
      ∀ pcs s1, headersAt s t pcs s1 → Marks (s.ctxOf t) s.mem s1.mem ∧
        s1 = { s with
          mem := s1.mem, mig := { s.mig with dirty := s1.mig.dirty }
          caches := { s.caches with tlb := s1.caches.tlb, walks := s1.caches.walks } }

/-- Uniform, voted and multi-way branches: where lanes go and what is pushed: the claims above together. -/
def Obligations.Branches : Prop :=
  Sys2Proof.Claims.UniformBranches ∧ Sys2Proof.Claims.VotedBranches ∧ Sys2Proof.Claims.MultiWayBranches

/-- Calls, returns, join and spin over the path stack: the claims above together. -/
def Obligations.CallsReturnsAndJoins : Prop :=
  Sys2Proof.Claims.CallsAndReturns ∧ Sys2Proof.Claims.JoinAndSpin

/-- Loops iterate, lanes leave loops and teams, reorder sorts live lanes: the claims above together. -/
def Obligations.LoopsExitsAndReorders : Prop :=
  Sys2Proof.Claims.LoopsIterate ∧
  Sys2Proof.Claims.LanesLeaveLoopsAndTeams ∧
  Sys2Proof.Claims.ReorderSortsLiveLanes

/-! ### Floating point (05) and narrow formats (06) -/

namespace Sys2Proof.Claims

/-- The completion of an instruction that raises flags (05 R132): F is the OR of the flags of the lanes that compute. With
no enabled trap in F the result is written and FSTAT gathers F; with one the team stops with ARITH, F in DETAIL, and
writes nothing. -/
def GivesFlags (i : Instr) (g : Guard) (d : Dst) (srcs : List Src) (k : Nat) (p : PredIx) (uni : Bool)
    (val : State → Team → Nat → LaneRes) (post : State → Team → Team → Nat → LaneRes → Prop) : Prop :=
  i.wf = true → ∀ s t, s.curTeam = some t → shaped t → allocOk t d srcs = true →
    let fl := gatherFlags (computeLanes uni t (t.eligible g)) fun L => (val s t L).f
    (fl &&& trapMask t.ctl.mode = 0 →
      ∃ t', exec i s = .next (s.setTeam t') ∧ moved i t t' ∧ bare t' = bare t ∧
        t'.ctl = { t.ctl with fstat := t.ctl.fstat ||| fl.setWidth 32 } ∧ regsKept t t' g d k ∧ predsKept t t' g p ∧
        ∀ L, (receives t g d L ∨ p ≠ 7 ∧ elig t g L) → post s t t' L (val s t L)) ∧
    (fl &&& trapMask t.ctl.mode ≠ 0 →
      ∃ (t' : Team) (r : FaultRec), exec i s = .next (s.setTeam t') ∧ t'.status = .stopping r ∧
        r.finfo0.extractLsb' 24 8 = codeArith ∧ r.finfo2 = fl.setWidth 32 ∧ r.ipc = t.pc ∧
        t'.lanes = t.lanes ∧ t'.s = t.s ∧ t'.ctl.fstat = t.ctl.fstat ∧ t'.pc = t.pc)

/-- The words of a lane's result stand in its destination. -/
def wordsAt (d : Dst) (u : Bool) (s : State) (_t t' : Team) (L : Nat) (r : LaneRes) : Prop :=
  match r.ws with
  | [w] => val32 s t' u L (back d) = w
  | [w, w'] => val64 s t' u L false (back d) = pair32 w w'
  | _ => False

/-- An elementwise instruction whose element results and flags are `f`. -/
def FloatElementwise (i : Instr) (x : Fpu) (f : Fmt → FCtl → Nat → Nat → Nat → FR) : Prop :=
  let u := isUni x.d [x.a, x.b, x.c]
  GivesFlags i x.g x.d [x.a, x.b, x.c] (regsOf x.ty.wide) 7 u
    (fun s t L =>
      let el (o : Src) (e : Nat) : Nat := FType.elem x.ty (valF s t u L x.ty o) e
      let r := FType.pack x.ty fun e =>
        f (FType.fmt x.ty) (fctl t.ctl.mode x.rs) (el x.a e) (el x.b e) (el x.c e)
      ⟨wordsOf x.ty.wide r.v, r.f⟩)
    (wordsAt x.d u)

/-- The formats of the class (05 R125). -/
def floatFmts : List Fmt := [fmt16, fmtB16, fmt32, fmt64]

end Sys2Proof.Claims

/-- R137, R138: sums, products, quotients and roots, each rounded once through the pipeline of R129, `.sat` clamping last;
with R132's flags and traps. -/
def Sys2Proof.Claims.FloatArithmetic : Prop :=
  ∀ x : Fpu,
    FloatElementwise (.fadd x) x (fun f c a b _ => f.clamp01 x.sat (f.add c a b)) ∧
    FloatElementwise (.fsub x) x (fun f c a b _ => f.clamp01 x.sat (f.sub c a b)) ∧
    FloatElementwise (.fmul x) x (fun f c a b _ => f.clamp01 x.sat (f.mul c a b)) ∧
    FloatElementwise (.fma x) x (fun f k a b c => f.clamp01 x.sat (f.fma k a b c)) ∧
    FloatElementwise (.fdiv x) x (fun f c a b _ => f.div c a b) ∧
    FloatElementwise (.fsqrt x) x (fun f c a _ _ => f.sqrt c a)

/-- R129, R137, R138: on finite operands, subnormal ones flushed first under DAZ, a sum, a difference, a product and a fused
product and sum other than zero are the exact result rounded once, at any exponent at which it is a whole number; a quotient
and a root are the exact one rounded once: cut after any number of bits past the third beyond the format's, with what is cut
kept as sticky. -/
def Sys2Proof.Claims.ArithmeticRoundsOnce : Prop :=
  ∀ f ∈ floatFmts, ∀ (c : FCtl) (a b d : Nat) (x y z : Machine.Num), a < 2 ^ f.width → b < 2 ^ f.width → d < 2 ^ f.width →
    f.val (f.daz c a) = .num x → f.val (f.daz c b) = .num y → f.val (f.daz c d) = .num z →
    let once (v : Int) (e : Int) : FR := f.roundNum c ⟨decide (v < 0), v.natAbs, e⟩
    let p : Machine.Num := ⟨x.neg != y.neg, x.m * y.m, x.e + y.e⟩
    (∀ e, e ≤ x.e → e ≤ y.e →
      (x.at_ e + y.at_ e ≠ 0 → f.add c a b = once (x.at_ e + y.at_ e) e) ∧
      (x.at_ e - y.at_ e ≠ 0 → f.sub c a b = once (x.at_ e - y.at_ e) e)) ∧
    f.mul c a b = f.roundNum c p ∧
    (∀ e, e ≤ p.e → e ≤ z.e → p.at_ e + z.at_ e ≠ 0 → f.fma c a b d = once (p.at_ e + z.at_ e) e) ∧
    (∀ k : Nat, y.m ≠ 0 → 2 ^ (f.mbits + 3) * y.m ≤ x.m * 2 ^ k → f.div c a b =
      f.round c ⟨x.neg != y.neg, x.m * 2 ^ k / y.m, x.e - y.e - (k : Int), decide (x.m * 2 ^ k % y.m ≠ 0)⟩) ∧
    ∀ k r : Nat, x.neg = false → (x.e - (k : Int)) % 2 = 0 → 2 ^ (f.mbits + 3) ≤ r → r * r ≤ x.m * 2 ^ k →
      x.m * 2 ^ k < (r + 1) * (r + 1) →
      f.sqrt c a = f.round c ⟨false, r, (x.e - (k : Int)) / 2, decide (r * r ≠ x.m * 2 ^ k)⟩

/-- R139 to R142, R149, R150: the instructions that do not round, comparisons among them. -/
def Sys2Proof.Claims.FloatSelectionsAndComparisons : Prop :=
  (∀ x : Fpu,
    FloatElementwise (.fmin x) x (fun f c a b _ => f.minmax c false a b) ∧
    FloatElementwise (.fmax x) x (fun f c a b _ => f.minmax c true a b) ∧
    (∀ op, FloatElementwise (.fabsn x op) x (fun f _ a b _ =>
      ⟨(match op with
        | .abs => a % 2 ^ (f.width - 1)
        | .neg => a ^^^ 2 ^ (f.width - 1)
        | .cpsgn => a % 2 ^ (f.width - 1) + b / 2 ^ (f.width - 1) * 2 ^ (f.width - 1)), 0⟩)) ∧
    FloatElementwise (.frnd x) x (fun f c a _ _ => f.integral c a) ∧
    FloatElementwise (.fscal x .mant) x (fun f c a _ _ => f.mant c a) ∧
    GivesFlags (.fscal x .ldexp) x.g x.d [x.a, x.b, x.c] (regsOf x.ty.wide) 7 (isUni x.d [x.a, x.b, x.c])
      (fun s t L =>
        let u := isUni x.d [x.a, x.b, x.c]
        let n := (val32 s t u L x.b).toNat
        let r := FType.pack x.ty fun e =>
          (FType.fmt x.ty).ldexp (fctl t.ctl.mode x.rs) (FType.elem x.ty (valF s t u L x.ty x.a) e)
            (if x.ty.packed then IType.elem .i16x2 n e else IType.elem .i32 n 0)
        ⟨wordsOf x.ty.wide r.v, r.f⟩)
      (wordsAt x.d (isUni x.d [x.a, x.b, x.c])) ∧
    GivesFlags (.fscal x .exp) x.g x.d [x.a, x.b, x.c] 1 7 (isUni x.d [x.a, x.b, x.c])
      (fun s t L =>
        let u := isUni x.d [x.a, x.b, x.c]
        packExp x.ty fun e => (FType.fmt x.ty).exponent (fctl t.ctl.mode x.rs)
          (FType.elem x.ty (valF s t u L x.ty x.a) e) (if x.ty.packed then 0x7FFF else 0x7FFFFFFF))
      (wordsAt x.d (isUni x.d [x.a, x.b, x.c])) ∧
    GivesFlags (.fclass x) x.g x.d [x.a, x.b, x.c] 1 7 (isUni x.d [x.a, x.b, x.c])
      (fun s t L =>
        let u := isUni x.d [x.a, x.b, x.c]
        let cls (e : Nat) : Nat := (FType.fmt x.ty).classOf (FType.elem x.ty (valF s t u L x.ty x.a) e)
        ⟨[BitVec.ofNat 32 (cls 0 + (if x.ty.packed then cls 1 * 2 ^ 16 else 0))], 0⟩)
      (wordsAt x.d (isUni x.d [x.a, x.b, x.c]))) ∧
  ∀ g ty cond comb pd a b,
    let r (s : State) (t : Team) (L : Nat) : Bool × FFlags :=
      (FType.fmt ty).compare (fctl t.ctl.mode 0) cond (valF s t false L ty a) (valF s t false L ty b)
    GivesFlags (.fsetp g ty cond comb pd a b) g .none [a, b] 0 pd false (fun s t L => ⟨[], (r s t L).2⟩)
      (fun s t t' L _ => t'.pred L pd = combine t comb L (r s t L).1)

/-- R143 to R148, R151: approximate functions, conversions and the two-element product. -/
def Sys2Proof.Claims.FloatFunctionsAndConversions : Prop :=
  ∀ x : Fpu,
    let u := isUni x.d [x.a, x.b, x.c]
    let fmt := FType.fmt x.ty
    let el (s : State) (t : Team) (L : Nat) (o : Src) (e : Nat) : Nat := FType.elem x.ty (valF s t u L x.ty o) e
    FloatElementwise (.frcp x) x (fun f c a _ _ => f.rcp c a) ∧
    FloatElementwise (.frsq x) x (fun f c a _ _ => f.rsq c a) ∧
    FloatElementwise (.fexp2 x) x (fun f c a _ _ => f.exp2 c a) ∧
    FloatElementwise (.flog2 x) x (fun f c a _ _ => f.log2 c a) ∧
    GivesFlags (.fsincos x) x.g x.d [x.a, x.b, x.c] 2 7 u
      (fun s t L =>
        let half (cosine : Bool) : FR := FType.pack x.ty fun e => fmt.sincos (fctl t.ctl.mode x.rs) cosine (el s t L x.a e)
        ⟨[BitVec.ofNat 32 (half false).v, BitVec.ofNat 32 (half true).v], (half false).f ||| (half true).f⟩)
      (wordsAt x.d u) ∧
    (∀ src, GivesFlags (.cvtif x src) x.g x.d [x.a, x.b, x.c] (regsOf x.ty.wide) 7 u
      (fun s t L =>
        let r := FType.pack x.ty fun e =>
          fmt.ofInt (fctl t.ctl.mode x.rs) (IType.elem src (valI s t u L src x.a) e)
        ⟨wordsOf x.ty.wide r.v, r.f⟩)
      (wordsAt x.d u)) ∧
    (∀ dst, GivesFlags (.cvtfi x dst) x.g x.d [x.a, x.b, x.c] (regsOf dst.wide) 7 u
      (fun s t L =>
        let k (e : Nat) : Int × FFlags :=
          fmt.toInt (fctl t.ctl.mode x.rs) (IType.minT dst) (IType.maxT dst) (el s t L x.a e)
        ⟨wordsOf dst.wide (IType.pack dst fun e => (k e).1),
          (List.range (IType.elems dst)).foldl (fun f e => f ||| (k e).2) 0⟩)
      (wordsAt x.d u)) ∧
    (∀ src hi, GivesFlags (.cvtff x src hi) x.g x.d [x.a, x.b, x.c] (regsOf x.ty.wide) 7 u
      (fun s t L => cvtffLane s t u x src hi L) (wordsAt x.d u)) ∧
    GivesFlags (.dot2 x) x.g x.d [x.a, x.b, x.c] 1 7 u
      (fun s t L =>
        let r := dot2Val fmt (fctl t.ctl.mode x.rs) (el s t L x.a 0) (el s t L x.b 0) (el s t L x.a 1) (el s t L x.b 1)
          (valF s t u L .f32 x.c)
        ⟨[BitVec.ofNat 32 r.v], r.f⟩)
      (wordsAt x.d u)

/-- R129 (RoundTo): the multiple of 2^k that each rounding mode picks for an exact magnitude m: below it, above it, or the
nearest, ties to even (1) or away from zero (5). -/
def Obligations.RoundingModesPickTheirNeighbour : Prop :=
  ∀ (neg : Bool) (m k : Nat) (e : Int), 0 < k →
    let n (rm : Nat) : Nat := (roundAt rm ⟨neg, m, e, false⟩ (e + k)).1
    let below := m / 2 ^ k
    n 2 = below ∧
    n 3 = (if neg ∨ m % 2 ^ k = 0 then below else below + 1) ∧
    n 4 = (if neg = false ∨ m % 2 ^ k = 0 then below else below + 1) ∧
    2 * (n 1 * 2 ^ k) ≤ 2 * m + 2 ^ k ∧ 2 * m ≤ 2 * (n 1 * 2 ^ k) + 2 ^ k ∧
    (2 * (m % 2 ^ k) = 2 ^ k → n 1 % 2 = 0 ∧ n 5 = below + 1) ∧
    2 * (n 5 * 2 ^ k) ≤ 2 * m + 2 ^ k ∧ 2 * m ≤ 2 * (n 5 * 2 ^ k) + 2 ^ k ∧
    (∀ rm, (roundAt rm ⟨neg, m, e, false⟩ (e + k)).2 = decide (m % 2 ^ k ≠ 0))

/-- R131: an operand that is a NaN gives the canonical quiet NaN, and raises NV exactly when one of them signals. -/
def Sys2Proof.Claims.NanResultsAreCanonical : Prop :=
  ∀ f ∈ floatFmts, ∀ (c : FCtl) (a b : Nat), a < 2 ^ f.width → b < 2 ^ f.width →
    (f.isNan a = true ∨ f.isNan b = true) →
    let nv : FFlags := if f.isSnan a || f.isSnan b then flagNV else 0
    f.add c a b = ⟨f.nan, nv⟩ ∧ f.sub c a b = ⟨f.nan, nv⟩ ∧ f.mul c a b = ⟨f.nan, nv⟩ ∧ f.div c a b = ⟨f.nan, nv⟩ ∧
      (f.isNan a = true → f.sqrt c a = ⟨f.nan, if f.isSnan a then flagNV else 0⟩ ∧
        f.rcp c a = ⟨f.nan, if f.isSnan a then flagNV else 0⟩ ∧ f.rsq c a = ⟨f.nan, if f.isSnan a then flagNV else 0⟩ ∧
        f.exp2 c a = ⟨f.nan, if f.isSnan a then flagNV else 0⟩ ∧ f.log2 c a = ⟨f.nan, if f.isSnan a then flagNV else 0⟩)

/-- R138: the special values of `fdiv` and `fsqrt`, with no operand flushed. -/
def Sys2Proof.Claims.DivisionAndRootSpecialValues : Prop :=
  ∀ f ∈ floatFmts, ∀ (c : FCtl) (a b : Nat), a < 2 ^ f.width → b < 2 ^ f.width → c.daz = false →
    let finite (x : Nat) : Prop := f.isNan x = false ∧ f.isInf x = false
    (f.isZero a = true → f.isZero b = true → f.div c a b = ⟨f.nan, flagNV⟩) ∧
    (f.isInf a = true → f.isInf b = true → f.div c a b = ⟨f.nan, flagNV⟩) ∧
    (finite a → f.isZero a = false → f.isZero b = true → f.div c a b = ⟨f.inf (f.sign a != f.sign b), flagDZ⟩) ∧
    (finite a → f.isInf b = true → f.div c a b = ⟨f.zero (f.sign a != f.sign b), 0⟩) ∧
    (a = f.zero true → f.sqrt c a = ⟨f.zero true, 0⟩) ∧
    (f.isNan a = false → f.sign a = true → f.isZero a = false → f.sqrt c a = ⟨f.nan, flagNV⟩) ∧
    (a = f.inf false → f.sqrt c a = ⟨f.inf false, 0⟩)

/-- R139: minimumNumber and maximumNumber prefer the operand that is a number, and order −0 below +0. -/
def Sys2Proof.Claims.MinMaxPreferNumbers : Prop :=
  ∀ f ∈ floatFmts, ∀ (c : FCtl) (mx : Bool) (a b : Nat), a < 2 ^ f.width → b < 2 ^ f.width → c.daz = false →
    let nv : FFlags := if f.isSnan a || f.isSnan b then flagNV else 0
    (f.isNan a = true → f.isNan b = false → f.minmax c mx a b = ⟨b, nv⟩) ∧
    (f.isNan a = false → f.isNan b = true → f.minmax c mx a b = ⟨a, nv⟩) ∧
    (f.isNan a = true → f.isNan b = true → f.minmax c mx a b = ⟨f.nan, nv⟩) ∧
    f.minmax c false (f.zero true) (f.zero false) = ⟨f.zero true, 0⟩ ∧
    f.minmax c true (f.zero true) (f.zero false) = ⟨f.zero false, 0⟩

/-- R164 to R173: quantisation instructions write what BlockScale, the element rounding and the packing give for each
lane's block; a slot without a format is ILLOP. -/
def Sys2Proof.Claims.NarrowFormatResults : Prop :=
  ∀ x : Narrow,
    let Result (i : Instr) (draws : Slot → Bool) (keep : Slot → Nat → Bool)
        (val : State → Team → Slot → FCtl → Nat → LaneRes) : Prop :=
      i.wf = true → ∀ s t n, s.curTeam = some t → shaped t → allocOk t x.d [x.a, x.b] = true → x.d = .v n →
        let sl := s.slot t x.slot.toNat
        let c := fctl t.ctl.mode 0
        let fl := gatherFlags ((t.eligible x.g).lanes t.nlanes) fun L => (val s t sl c L).f
        (sl.elem = 0 → exec i s = .next (takeFault s t i illop)) ∧
        (sl.elem ≠ 0 → fl &&& trapMask t.ctl.mode = 0 →
          ∃ t', exec i s = .next (s.setTeam t') ∧ moved i t t' ∧ bare t' = bare t ∧
            t'.ctl = { t.ctl with fstat := t.ctl.fstat ||| fl.setWidth 32 } ∧ regsKept t t' x.g x.d 1 ∧
            predsKept t t' x.g 7 ∧
            (∀ L, elig t x.g L → keep sl L = false → [t'.vreg L n.toNat] = (val s t sl c L).ws) ∧
            (∀ L, elig t x.g L → keep sl L = true → t'.vreg L n.toNat = t.vreg L n.toNat) ∧
            ∀ L, L < t.nlanes → (t'.lane L).rng =
              if draws sl = true ∧ (t.eligible x.g).has L = true then rngStep (t.lane L).rng else (t.lane L).rng)
    let stoch (sl : Slot) : Bool := sl.eround == 2
    Result (.qscale x) (fun _ => false) (fun _ _ => false) (fun s t sl c L =>
      let r := recordOf s t c sl x.a L
      ⟨[BitVec.ofNat 32 r.1], r.2⟩) ∧
    Result (.quant x) stoch (fun _ _ => false) (fun s t sl c L =>
      let r := quantLane s t c sl x.a (blockW s t x.b L) ((t.lane L).draw 0) L
      ⟨[BitVec.ofNat 32 r.1], r.2⟩) ∧
    Result (.dequant x) (fun _ => false) (fun _ _ => false) (fun s t sl c L =>
      let rc := blockW s t x.b L
      let r := dequantVal c sl rc (codeVal sl rc L (blockW s t x.a L) (blockW s t x.a (partner L)))
      ⟨[BitVec.ofNat 32 r.v], r.f⟩) ∧
    Result (.qpack x) (fun _ => false) (fun sl L => decide (sl.block * elemBits sl.elem / 32 ≤ L % sl.block))
      (fun s t sl _ L =>
        ⟨[BitVec.ofNat 32 (natField (concatBits (elemBits sl.elem) ((blockLanes sl L).map (blockW s t x.a)))
          (32 * (L % sl.block)) 32)], 0⟩) ∧
    Result (.qunpack x) (fun _ => false) (fun _ _ => false) (fun s t sl _ L =>
      let w := elemBits sl.elem
      ⟨[BitVec.ofNat 32 (natField (concatBits 32 (((blockLanes sl L).take (sl.block * w / 32)).map (blockW s t x.a)))
        (w * (L % sl.block)) w)], 0⟩) ∧
    Result (.fmtq x) stoch (fun _ _ => false) (fun s t sl c L =>
      let rc := recordOf s t c sl x.a L
      let code := quantLane s t c sl x.a rc.1 ((t.lane L).draw 0) L
      let p := partner L
      let slp := if (t.eligible x.g).has p then sl else { sl with eround := 0 }
      let other := (quantLane s t c slp x.a rc.1 ((t.lane p).draw 0) p).1
      let r := dequantVal c sl rc.1 (codeVal sl rc.1 L code.1 other)
      ⟨[BitVec.ofNat 32 r.v], rc.2 ||| code.2 ||| r.f⟩)

/-- R172: unpacking what was packed gives every code back, for a block whose packed bits fill whole words. -/
def Sys2Proof.Claims.PackedCodesUnpack : Prop :=
  ∀ (w : Nat) (codes : List Nat), 0 < w → (∀ c ∈ codes, c < 2 ^ w) →
    let words := (List.range ((codes.length * w + 31) / 32)).map fun j => natField (concatBits w codes) (32 * j) 32
    ∀ j < codes.length, natField (concatBits 32 words) (w * j) w = (codes[j]?).getD 0

/-- R174: the random stream of each eligible lane steps once and gives the output of its new state; a seed of zero stands
for a fixed one, and other lanes keep their streams. -/
def Sys2Proof.Claims.RandomStreams : Prop :=
  ∀ s t (g : Guard), s.curTeam = some t → shaped t → g.ok = true →
    (∀ n : BitVec 7, n.toNat < t.nvregs →
      let out (L : Nat) : Word := rngOut (rngStep (t.lane L).rng)
      let steps (i : Instr) (f : Word → Word) : Prop :=
        ∃ t', exec i s = .next (s.setTeam t') ∧ moved i t t' ∧ bare t' = bare t ∧ t'.ctl = t.ctl ∧
          regsKept t t' g (.v n) 1 ∧ predsKept t t' g 7 ∧
          (∀ L, elig t g L → t'.vreg L n.toNat = f (out L) ∧ (t'.lane L).rng = rngStep (t.lane L).rng) ∧
          ∀ L, L < t.nlanes → ¬ elig t g L → (t'.lane L).rng = (t.lane L).rng
      steps (.rngNext g (.v n)) id ∧
      steps (.rngUnif g (.v n)) fun w => BitVec.ofNat 32 (fmt32.roundNum ctlRne ⟨false, w.toNat / 256, -24⟩).v) ∧
    ∀ a : Src, Instr.wf (.rngSeed g a) = true → allocOk t .none [a] = true →
      ∃ t', exec (.rngSeed g a) s = .next (s.setTeam t') ∧ moved (.rngSeed g a) t t' ∧ bare t' = bare t ∧ t'.ctl = t.ctl ∧
        (∀ L n, t'.vreg L n = t.vreg L n) ∧ t'.s = t.s ∧ predsKept t t' g 7 ∧
        (∀ L, elig t g L → (t'.lane L).rng =
          if val64 s t false L false a = 0 then 0x9E3779B97F4A7C15 else val64 s t false L false a) ∧
        ∀ L, L < t.nlanes → ¬ elig t g L → (t'.lane L).rng = (t.lane L).rng

/-- R174: `.unif` is exact and lies in [0, 1): the upper 24 bits of the output as a multiple of 2^−24. -/
def Sys2Proof.Claims.UniformDrawsAreExact : Prop :=
  ∀ w : Word,
    let r := fmt32.roundNum ctlRne ⟨false, w.toNat / 256, -24⟩
    r.f = 0 ∧ r.v < fmt32.one ∧ (∃ n, fmt32.val r.v = .num n ∧ n.neg = false ∧
      n.m * 2 ^ (n.e + 149).toNat = w.toNat / 256 * 2 ^ 125)

/-- Floating-point arithmetic rounds once; selections and comparisons do not round: the claims above together. -/
def Obligations.FloatArithmeticAndComparisons : Prop :=
  Sys2Proof.Claims.FloatArithmetic ∧ Sys2Proof.Claims.ArithmeticRoundsOnce ∧ Sys2Proof.Claims.FloatSelectionsAndComparisons

/-- Functions, conversions, quantisation and packing: the claims above together.
The model's own in it: DESIGN CHOICE, log entries 15, 101; DEDUCED, log entries 33, 102. -/
def Obligations.FloatConversionsAndNarrowFormats : Prop :=
  Sys2Proof.Claims.FloatFunctionsAndConversions ∧
  Sys2Proof.Claims.NarrowFormatResults ∧
  Sys2Proof.Claims.PackedCodesUnpack

/-- Canonical NaNs, special values of division and root, numbers preferred by minimum and maximum: the claims above together. -/
def Obligations.FloatSpecialValues : Prop :=
  Sys2Proof.Claims.NanResultsAreCanonical ∧
  Sys2Proof.Claims.DivisionAndRootSpecialValues ∧
  Sys2Proof.Claims.MinMaxPreferNumbers

/-- Random streams step per eligible lane; uniform draws are exact: the claims above together.
The model's own in it: DEDUCED, log entry 115. -/
def Obligations.RandomStreamsAndDraws : Prop :=
  Sys2Proof.Claims.RandomStreams ∧ Sys2Proof.Claims.UniformDrawsAreExact

/-! ### Cross-lane instructions (07) -/

/-- R183: each eligible lane takes the register of its source lane, or keeps its own when that lies outside the team, and
records which; any lane of the team serves as a source. -/
def Sys2Proof.Claims.ShufflesReadTheirSourceLane : Prop :=
  ∀ g mode wide d a b (rc : Option PredIx),
    Gives (.shfl g mode wide d a b rc) g d [a, b] (regsOf wide) (rc.getD 7) fun s t t' L =>
      let n := (val32 s t false L b).toNat
      let src : Int := match mode with
        | .idx => (n : Int) | .up => (L : Int) - n | .down => (L : Int) + n | .xor => ((L ^^^ n : Nat) : Int)
      let inrange := 0 ≤ src ∧ src < t.nlanes
      let from' := if inrange then src.toNat else L
      (receives t g d L →
        if wide then val64 s t' false L false (back d) = val64 s t false from' false a
        else val32 s t' false L (back d) = val32 s t false from' a) ∧
      (elig t g L → ∀ p, rc = some p → p ≠ 7 → t'.pred L p = decide inrange)

/-- R185, R188: the mask words, the words that hold a hit, the count of hits; one lane's register for all. -/
def Sys2Proof.Claims.BallotsAndBroadcasts : Prop :=
  ∀ g d,
    (∀ p w, Gives (.ballot g d p (.word w)) g d [] 1 7 fun s t t' L =>
      let k := (val32 s t true 0 w).toNat
      ∀ c < 32, (val32 s t' false L (back d)).getLsbD c = true ↔
        k < t.nlanes / 32 ∧ elig t g (32 * k + c) ∧ t.pred (32 * k + c) p = true) ∧
    (∀ p, Gives (.ballot g d p .wv) g d [] 1 7 fun s t t' L =>
      ∀ k < 32, (val32 s t' false L (back d)).getLsbD k = true ↔
        k < t.nlanes / 32 ∧ ∃ c < 32, elig t g (32 * k + c) ∧ t.pred (32 * k + c) p = true) ∧
    (∀ p, Gives (.ballot g d p .cnt) g d [] 1 7 fun s t t' L =>
      (val32 s t' false L (back d)).toNat =
        (((t.eligible g).lanes t.nlanes).filter fun K => t.pred K p).length) ∧
    ∀ wide a n, Gives (.bcast g wide d a n) g d [a, n] (regsOf wide) 7 fun s t t' L =>
      let k := (val32 s t true 0 n).toNat
      if wide then val64 s t' false L false (back d) = if k < t.nlanes then val64 s t false k false a else 0
      else val32 s t' false L (back d) = if k < t.nlanes then val32 s t false k a else 0

/-- R184: the decision over the eligible lanes, with its value for none; it goes to a register of every eligible lane, to a
scalar register, or to a predicate of every eligible lane. -/
def Sys2Proof.Claims.VotesDecideOverEligibleLanes : Prop :=
  ∀ g (d : PDst) (op : VoteOp), Instr.wf (.vote g d op) = true → ∀ s t, s.curTeam = some t → shaped t →
    (match d with | .v n => n.toNat < t.nvregs | _ => True) →
    (match op with | .eq a => Src.inAlloc t.nvregs a = true | _ => True) →
    ∃ (t' : Team) (r : Bool), exec (.vote g d op) s = .next (s.setTeam t') ∧ moved (.vote g d op) t t' ∧ bare t' = bare t ∧
      t'.ctl = t.ctl ∧ rngKept t t' ∧
      (match op with
        | .any p => r = true ↔ ∃ L, elig t g L ∧ t.pred L p = true
        | .all p => r = true ↔ ∀ L, elig t g L → t.pred L p = true
        | .uni p => r = true ↔ ∀ L K, elig t g L → elig t g K → t.pred L p = t.pred K p
        | .eq a => r = true ↔ ∀ L K, elig t g L → elig t g K → val32 s t false L a = val32 s t false K a) ∧
      match d with
      | .v n => regsKept t t' g (.v n) 1 ∧ predsKept t t' g 7 ∧ ∀ L, elig t g L → t'.vreg L n.toNat = if r then 1 else 0
      | .s n => regsKept t t' g (.s n) 1 ∧ predsKept t t' g 7 ∧ t'.sreg n.toNat = if r then 1 else 0
      | .p p => regsKept t t' g .none 0 ∧ predsKept t t' g p ∧ ∀ L, elig t g L → p ≠ 7 → t'.pred L p = r
      | .none => t'.lanes = t.lanes ∧ t'.s = t.s

/-- R186, R187: a reduction combines the eligible lanes in ascending order (`.fadd`: in the fixed tree), a scan those up to
each lane; the identity stands for none. -/
def Sys2Proof.Claims.ReductionsAndScans : Prop :=
  ∀ g (op : RedOp) d a,
    (∀ rs, GivesFlags (.tred g op rs d a) g d [a] (regsOf op.wide) 7 false
      (fun s t _ =>
        let m := t.eligible g
        let x := redOperand s t op a
        let r := match op with
          | .fadd _ => treeSum op (fctl t.ctl.mode rs) (t.nlanes / 32) fun L => if m.has L then some (x L) else none
          | _ => foldCombine op (fctl t.ctl.mode rs) ((m.lanes t.nlanes).map x)
        ⟨wordsOf op.wide r.v, r.f⟩)
      (wordsAt d false)) ∧
    ∀ excl, GivesFlags (.tscan g op excl d a) g d [a] (regsOf op.wide) 7 false
      (fun s t L =>
        let r := foldCombine op (fctl t.ctl.mode 0)
          ((((t.eligible g).lanes t.nlanes).filter fun K => if excl then K < L else K ≤ L).map (redOperand s t op a))
        ⟨wordsOf op.wide r.v, r.f⟩)
      (wordsAt d false)

/-- R187: integer reductions do not depend on the order of the lanes: permuted operands give the same result. -/
def Sys2Proof.Claims.IntegerReductionsCommute : Prop :=
  ∀ (op : RedOp) (c : FCtl) (xs ys : List Nat), op.ok = true → (∀ t, op ≠ .fadd t ∧ op ≠ .fmin t ∧ op ≠ .fmax t) →
    (∀ x ∈ xs, x < 2 ^ 32 ∨ op.wide = true ∧ x < 2 ^ 64) → List.Perm xs ys →
    foldCombine op c xs = foldCombine op c ys

/-- Shuffles, ballots, broadcasts and votes: the claims above together.
The model's own in it: DESIGN CHOICE, log entry 18. -/
def Obligations.LanesExchangeAndVote : Prop :=
  Sys2Proof.Claims.ShufflesReadTheirSourceLane ∧
  Sys2Proof.Claims.BallotsAndBroadcasts ∧
  Sys2Proof.Claims.VotesDecideOverEligibleLanes

/-- Reductions and scans over eligible lanes: the claims above together.
The model's own in it: DEDUCED, log entries 32, 95. -/
def Obligations.LanesReduceAndScan : Prop :=
  Sys2Proof.Claims.ReductionsAndScans ∧ Sys2Proof.Claims.IntegerReductionsCommute

/-! ### Memory (08, 09) -/

namespace Sys2Proof.Claims

/-- The access of an instruction: its handle resolves, some lane is to be served, and the checks of 08 R195 pass; `plain` for
a load without an order. -/
def Checked (s : State) (t : Team) (i : Instr) (uni : Bool) (g : Guard) (m : MemRef) (use : Use) (acc : Access)
    (size align : Nat) (q : Req) (s1 : State) (plain : Bool := false) : Prop :=
  resolve s t m.h = .ok q.ix q.e s1 ∧
    q = { t, c := s1.ctxOf t, ix := q.ix, e := q.e, uni, use, acc, size, align, lanes := accLanes s t uni g m,
          opc := instrOpc i, plain } ∧
    q.lanes ≠ [] ∧ q.check s1 = none

/-- Every lane that an access still serves reaches what it names: no lane meets a fault, a page that is away, a fill or a
held tile. `q` is the access, `G` what the lanes have met. -/
def Reaches (s : State) (t : Team) (i : Instr) (uni : Bool) (g : Guard) (m : MemRef) (use : Use) (acc : Access)
    (size align : Nat) (src : Nat → List Byte) (skip : Nat → Int → Bool) (q : Req) (G : Got) (plain : Bool := false) : Prop :=
  ∃ s1, Checked s t i uni g m use acc size align q s1 plain ∧ gatherAll q src skip { s := s1 } q.lanes = .got G ∧ G.left = []

/-- The team has issued a long-latency instruction: it stands behind it, its flag has risen, its registers, predicates,
FSTAT and the rest are as they were. -/
def issued (i : Instr) (fs : Bool) (t t' : Team) : Prop :=
  moved i t t' ∧ t'.lanes = t.lanes ∧ t'.s = t.s ∧ t'.ctl = t.ctl ∧
    bare t' = bare { t with flags := (t.issueFlag fs).flags, status := t'.status }

/-- An operation is outstanding for the team, which has issued its instruction; `t0` is the team as the instruction has
changed it besides. -/
def Owes (s s' : State) (t0 : Team) (i : Instr) (fs : Bool) (k : OpKind) (st : Status) : Prop :=
  (∃ o ∈ s'.ops, o.id = s.nextOp ∧ o.uid = t0.uid ∧ o.flag = t0.flagOf fs ∧ o.block = (t0.flagOf fs).isNone ∧
    o.opc = instrOpc i ∧ o.kind = k) ∧
  s'.nextOp = s.nextOp + 1 ∧
  (∃ t', s'.team? t0.uid = some t' ∧ issued i fs t0 t' ∧ t'.status = st) ∧ ∀ u, u ≠ t0.uid → s'.team? u = s.team? u

/-- An operation has ended: it is gone, its flag has fallen, a team that waited for it alone goes on; `f` is what it has
done to its team besides. -/
def Ended (s s' : State) (o : Op) (f : Team → Team) : Prop :=
  s'.op? o.id = none ∧ (∀ u, u ≠ o.uid → s'.team? u = s.team? u) ∧
    ∀ t, s.team? o.uid = some t → s'.team? o.uid =
      some { ((f t).dropFlag o.flag) with
        status := if t.status = .waiting (.remote o.id) then .running else t.status }

/-- A translation that the core's TLB holds: the physical address. -/
def hitAt (s : State) (t : Team) (acc : Access) (va : DWord) : Option Nat :=
  ((tlbFind s.caches.tlb t.place.die t.place.core (s.ctxOf t) (va.toNat % 2 ^ 57)).filter fun e =>
    permOk acc e.x e.w e.r && (!acc.writes || e.dirty)).map fun e => e.pa + va.toNat % 2 ^ 57 % e.size

/-- A byte outside the records of the die heap that have been released (14 R379). -/
def heapFree (s : State) (a : Nat) : Prop :=
  ∀ h ∈ s.fill.heap, h.freed.isSome = true →
    a < s.boot.heap + h.at_ * 1024 ∨ s.boot.heap + h.at_ * 1024 + (if h.big then 2048 else 1024) ≤ a

/-- An access of a lane that meets no obstacle: within one line of a live home, on a page of the TLB outside procedural
ranges, without poison, without storage that an engine uses and without a released heap record. -/
def clear (s : State) (t : Team) (e : HEnt) (acc : Access) (size : Nat) (off : Int) : Prop :=
  0 ≤ off ∧ off + size ≤ e.len ∧ (e.va off).toNat % 128 + size ≤ 128 ∧ s.blockAt (s.ctxOf t).id (e.va off) = none ∧
    ∃ pa, hitAt s t acc (e.va off) = some pa ∧ deadHome s pa = false ∧ s.poisoned pa size = false ∧
      ∀ k < size, s.usedBy none (pa + k) = false ∧ heapFree s (pa + k)

/-- The physical address of an offset by the TLB. -/
def paOf (s : State) (t : Team) (e : HEnt) (acc : Access) (off : Int) : Nat := (hitAt s t acc (e.va off)).getD 0

end Sys2Proof.Claims

/-- R195, R197, R215 to R218, R233: a load whose lanes all reach their bytes owes its team those bytes, extended by the form,
and writes nothing else: no register yet, and of memory only the tables' marks. A remote one parks its team; an `ld` of a
line that a signal of the team in its core's queue is to write waits for it. -/
def Sys2Proof.Claims.LoadsOweWhatTheyRead : Prop :=
  ∀ s t (x : MemAcc) (sx : Bool) (d : Dst) i use, s.curTeam = some t → allocOk t d [x.m.off] = true →
    t.flagFull x.fs = false → (i = .ld x sx d ∧ use = .ld ∨ i = .ldro x sx d ∧ use = .ldro) →
    let uni := isUni d [x.m.off]
    (accLanes s t uni x.g x.m = [] → exec i s = .next (s.setTeam (t.advance i))) ∧
    ∀ q G, Reaches s t i uni x.g x.m use .read x.w.bytes (if x.ord = .plain then 1 else x.w.bytes) (fun _ => [])
        (fun _ _ => false) q G (x.ord == .plain) →
      (use = .ld → s.behindSig t.uid G = true →
        ∃ s1 : State, exec i s = .next (s1.setTeam { t with status := .waiting .stall }) ∧ s1.ops = s.ops ∧ s1.teams = s.teams ∧
          Marks (s.ctxOf t) s.mem s1.mem) ∧
      ((use = .ld → s.behindSig t.uid G = false) →
        ∃ s', exec i s = .next s' ∧
          Owes s s' (if x.ord = .plain then t else t.acquire uni x.g) i x.fs
            (.load ⟨d, G.data.map fun r => (r.1, loadWords x.w sx r.2)⟩ G.remote)
            (if G.remote then .waiting (.remote s.nextOp) else t.status) ∧
          G.data.map (·.1) = q.lanes.map (·.1) ∧ Marks (s.ctxOf t) s.mem s'.mem)

/-- R191, R196, R197, R199, R216: on pages that the TLB holds, and with no signal of the team queued, a load through a GLOBAL
handle reads the little-endian bytes at BASE + offset as the core sees them (its own pending stores first, behind the records of
a pending line; on kind U while no read is pending in a router and no store of the team), and a plain store to pages of kind U
or R queues the bytes of its register there, later lanes behind earlier ones; memory stays as it is until the store completes.
-/
def Sys2Proof.Claims.AccessesOfCachedPages : Prop :=
  ∀ s t (x : MemAcc), s.curTeam = some t → t.flagFull x.fs = false → x.ord = .plain → t.unfin = none →
    s.sigsOut t.uid = false →
    ∀ ix (e : HEnt), resolve s t x.m.h = .ok ix e s → e.kind = kGlobal → e.share = 0 → e.pko ≠ 1 →
    (∀ sx d, allocOk t d [x.m.off] = true → e.right rR = true →
      let ls := accLanes s t (isUni d [x.m.off]) x.g x.m
      ls ≠ [] → (∀ l ∈ ls, clear s t e .read x.w.bytes l.2) →
      ((∀ l ∈ ls, ∀ en, tlbFind s.caches.tlb t.place.die t.place.core (s.ctxOf t) ((e.va l.2).toNat % 2 ^ 57) = some en →
          e.kindOf en.kind ≠ .u) ∨
        s.caches.routers = [] ∧ ∀ o ∈ s.queue t.place.die t.place.core, o.uid ≠ t.uid) →
      ∃ s' r, exec (.ld x sx d) s = .next s' ∧ s'.mem = s.mem ∧
        Owes s s' t (.ld x sx d) x.fs
          (.load ⟨d, ls.map fun l => (l.1, loadWords x.w sx
            ((List.range x.w.bytes).map fun k => s.viewByte t.place.die t.place.core (paOf s t e .read l.2 + k)))⟩ r)
          (if r then .waiting (.remote s.nextOp) else t.status)) ∧
    ∀ c, allocOk t .none [x.m.off, c] = true → e.right rW = true →
      let uni := isUni .none [x.m.off, c]
      let ls := accLanes s t uni x.g x.m
      ls ≠ [] → (∀ l ∈ ls, clear s t e .write x.w.bytes l.2) →
      (∀ l ∈ ls, ∀ en, tlbFind s.caches.tlb t.place.die t.place.core (s.ctxOf t) ((e.va l.2).toNat % 2 ^ 57) = some en →
        en.kind ≠ .s) →
      ∃ s' r, exec (.st x c) s = .next s' ∧ s'.mem = s.mem ∧
        Owes s s' t (.st x c) x.fs
          (.store ((ls.map fun l => cellsAt (paOf s t e .write l.2) (storeBytes s t uni l.1 x.w c)).flatten) r false)
          t.status

/-- R216, R217, R198, R238 to R240: a store whose lanes all reach their places, with no signal of the team queued, queues its
bytes, or performs them at once on pages of kind S and with `.sc`; then each byte holds what the last lane wrote, and bytes
that neither it nor a waiting store writes stay. -/
def Sys2Proof.Claims.StoresQueueOrPerform : Prop :=
  ∀ s t (x : MemAcc) (c : Src), s.curTeam = some t → allocOk t .none [x.m.off, c] = true → t.flagFull x.fs = false →
    let i := Instr.st x c
    let uni := isUni .none [x.m.off, c]
    (accLanes s t uni x.g x.m = [] → exec i s = .next (s.setTeam (t.advance i))) ∧
    ∀ q G, Reaches s t i uni x.g x.m .st .write x.w.bytes (if x.ord = .plain then 1 else x.w.bytes)
        (fun L => storeBytes s t uni L x.w c) (finishedSpans s t uni x.g x.m x.w.bytes) q G → s.sigsOut t.uid = false →
      let cs := (G.s.unpin t.uid).storeCells G.cells
      let now : Bool := G.strong || x.ord == .sc
      ∃ s', exec i s = .next s' ∧
        Owes s s' t i x.fs (.store (if now then [] else cs) G.remote (x.ord != .plain)) t.status ∧
        Marks (s.ctxOf t) s.mem G.s.mem ∧ (now = false → s'.mem = G.s.mem) ∧
        (now = true → ∀ a,
          (a ∈ cs.map (·.1) → some (s'.mem.read a) = cellLookup cs a) ∧
          (a ∉ cs.map (·.1) → (∀ p ∈ G.s.ops, ∀ c ∈ p.kind.cells, c.1 ≠ a) → s'.mem.read a = G.s.mem.read a))

/-- R42, R217, R256: a load or an atomic that completes writes exactly the lanes that it served; a store that completes is
in memory, later bytes of the core still waiting; then the flag falls. -/
def Obligations.AccessesComplete : Prop :=
  ∀ s o, s.op? o.id = some o →
    (∀ i w r, (i = .loadComplete o.id ∧ (o.kind = .load w r ∨ o.kind = .take w) ∨ i = .atomicComplete o.id ∧ o.kind = .atomic w r) →
      s.l2Waits o.id = false → ∃ s', exec i s = .next s' ∧ Ended s s' o (·.deliver w) ∧ s'.mem = s.mem) ∧
    (∀ (t : Team) (w : Deliver) (v : BitVec 7), shaped t → w.d = .v v → (∀ x ∈ w.vals, v.toNat + x.2.length ≤ t.nvregs) →
      (w.vals.map (·.1)).Nodup →
      ∀ L n, (t.deliver w).vreg L n =
        (match w.vals.find? (fun x => x.1 = L) with
         | some x => if L < t.nlanes ∧ v.toNat ≤ n ∧ n < v.toNat + x.2.length then (x.2[n - v.toNat]?).getD 0 else t.vreg L n
         | none => t.vreg L n)) ∧
    ∀ cs r rel, o.kind = .store cs r rel → storeMay s o rel = true →
      ∃ s', exec (.storeComplete o.id) s = .next s' ∧ Ended s s' o id ∧
        ∀ a, (a ∉ (s.queueCells o.die o.core).map (·.1) → s'.mem.read a = s.mem.read a) ∧
          (a ∈ cs.map (·.1) →
            (∀ p ∈ s.queue o.die o.core, p ≠ o → ∀ c ∈ p.kind.cells, c.1 ≠ a) → some (s'.mem.read a) = cellLookup cs a)

/-- A memory access as its instruction gives it: guard, handle and offset, flag (none for the scratchpad's), destination and
sources, what a handle must grant (its kind and its right, 08 R194), bytes for each lane, and the alignment of offsets. -/
structure Sys2Proof.Claims.Form where
  g     : Guard
  m     : MemRef
  fs    : Option Bool
  d     : Dst
  srcs  : List Src
  kinds : List Nat
  right : Nat
  use   : Use
  acc   : Access
  size  : Nat
  align : Nat

/-- Loads, stores, scratchpad accesses and atomics as accesses; those with an order, and atomics, are aligned (08 R197, 10
R254). -/
def Sys2Proof.Claims.formOf : Instr → Option Sys2Proof.Claims.Form
  | .ld x _ d => some ⟨x.g, x.m, some x.fs, d, [x.m.off], [kGlobal, kProcedural, kBuffer, kHeap], rR, .ld, .read, x.w.bytes,
      if x.ord = .plain then 1 else x.w.bytes⟩
  | .ldro x _ d => some ⟨x.g, x.m, some x.fs, d, [x.m.off], [kGlobal, kProcedural, kHeap], rR, .ldro, .read, x.w.bytes,
      if x.ord = .plain then 1 else x.w.bytes⟩
  | .st x c => some ⟨x.g, x.m, some x.fs, .none, [x.m.off, c], [kGlobal, kProcedural, kBuffer], rW, .st, .write, x.w.bytes,
      if x.ord = .plain then 1 else x.w.bytes⟩
  | .lds x _ d => some ⟨x.g, x.m, none, d, [x.m.off], [kScratch, kMapped], rR, .lds, .read, x.w.bytes, 1⟩
  | .sts x c => some ⟨x.g, x.m, none, .none, [x.m.off, c], [kScratch, kMapped], rW, .sts, .write, x.w.bytes, 1⟩
  | .atom x op d c => some ⟨x.g, x.m, some x.fs, d, [x.m.off, c], [kGlobal, kProcedural, kBuffer, kScratch], rA, .atom, .atomic,
      if op.wide then 8 else 4, if op.wide then 8 else 4⟩
  | .cas x ty d c => some ⟨x.g, x.m, some x.fs, d, [x.m.off, c], [kGlobal, kProcedural, kBuffer, kScratch], rA, .atom, .atomic,
      if ty.wide then 8 else 4, if ty.wide then 8 else 4⟩
  | .red x op c => some ⟨x.g, x.m, some x.fs, .none, [x.m.off, c], [kGlobal, kProcedural, kBuffer, kScratch], rA, .atom, .atomic,
      if op.wide then 8 else 4, if op.wide then 8 else 4⟩
  | _ => none

/-- R194 to R197, R200, R288, R380: an access that fails a check stops its team before any lane has accessed memory, names the
lanes that fail it, or every active one when it is uniform, and the handle's index in DETAIL; the checks come in the order:
a range that is gone (HANDLE_STALE), offsets out of range and a scratchpad region beyond the allocation (HANDLE_BOUNDS), a
kind or right that does not serve (PERM), stores through a HEAP handle outside the records that the team's items hold (PERM),
a share that the context does not have (SHARE), offsets that must be aligned (ALIGN), stores to a SEALED tile (SEALED). -/
def Obligations.AccessChecksComeInOrder : Prop :=
  ∀ s t i F, s.curTeam = some t → Sys2Proof.Claims.formOf i = some F → allocOk t F.d F.srcs = true →
    (∀ fs, F.fs = some fs → t.flagFull fs = false) → t.nlanes ≤ 1024 →
    ∀ ix (e : HEnt) s1, resolve s t F.m.h = .ok ix e s1 →
    let uni := isUni F.d F.srcs
    let ls := accLanes s t uni F.g F.m
    let q : Req :=
      { t, c := s1.ctxOf t, ix, e, uni, use := F.use, acc := F.acc, size := F.size, align := F.align, lanes := ls, opc :=
        instrOpc i }
    let stops (code : BitVec 8) (bad : List (Nat × Int)) : Prop :=
      ∃ (t' : Team) (r : FaultRec), exec i s = .next (s1.setTeam t') ∧ t'.status = .stopping r ∧
        r.finfo0.extractLsb' 24 8 = code ∧ r.finfo2 = ix.setWidth 32 ∧ r.ipc = t.pc ∧ r.rpc = t.resumePc ∧
        (∀ L < 1024, r.lanes.has L = true ↔ if uni then t.active.has L = true else L ∈ bad.map (·.1)) ∧
        t'.lanes = t.lanes ∧ t'.s = t.s ∧ t'.scratch = t.scratch ∧ t'.pc = t.pc
    let gone : Prop := e.kind = kProcedural ∧ s1.range? (s1.ctxOf t).id e.aux = none
    let out := ls.filter fun l => decide (l.2 < 0) || decide ((e.len : Int) < l.2 + F.size)
    let beyond : Prop := (e.kind = kScratch ∨ e.kind = kMapped) ∧ t.scratchLen < e.soff + e.len
    let heap : Prop := F.use = .st ∧ e.kind = kHeap
    let serves : Prop := e.kind ∈ F.kinds ∧ e.right F.right = true ∨ heap ∧ e.right rG = true ∧ t.ctl.genr = true
    let outside := ls.filter fun l => !inHeldRecord s1 t l.2 F.size
    let shared : Prop := e.share = 0 ∨ (s1.ctxOf t).shares e.share 0 = true
    let odd := ls.filter fun l => decide (l.2 % (F.align : Int) ≠ 0)
    let sealed := ls.filter fun l => F.acc.writes && laneGate s1 q l.2 F.size == .sealed
    ls ≠ [] →
      (gone → stops codeStale ls) ∧
      (¬ gone → out ≠ [] → stops codeBounds out) ∧
      (¬ gone → out = [] → beyond → stops codeBounds ls) ∧
      (¬ gone → out = [] → ¬ beyond →
        (¬ serves → stops codePerm ls) ∧
        (serves → heap → outside ≠ [] → stops codePerm outside) ∧
        (serves → (heap → outside = []) →
          (¬ shared → stops codeShare ls) ∧
          (shared → odd ≠ [] → stops codeAlign odd) ∧
          (shared → odd = [] → sealed ≠ [] → stops codeSealed sealed)))

/-- R202, R203, R219: of a scratchpad access through a MAPPED handle, the lanes that reach a chunk that is not valid stop at
the instruction and wait for the fill of the first of them. -/
def Sys2Proof.Claims.InvalidChunksStopTheirLanes : Prop :=
  ∀ s t (x : MemAcc) q s1 b, s.curTeam = some t → q.e.kind = kMapped → t.binding q.ix = some b →
    let bad := q.lanes.filter fun l => (badChunk b l.2.toNat x.w.bytes).isSome
    let stops (i : Instr) (uni : Bool) : Prop :=
      ∃ s' t', exec i s = .next s' ∧ s'.curTeam = some t' ∧ s'.mem = s1.mem ∧ t'.pc = t.pc ∧ t'.clause = t.clause ∧
        t'.unfin = some (if uni then t.active else Mask.ofLanes (bad.map (·.1))) ∧
        ∀ l rest, bad = l :: rest →
          t'.status = .waiting (.mapFill q.ix ((badChunk b l.2.toNat x.w.bytes).getD 0) (instrOpc i) uni)
    bad ≠ [] →
    (∀ sx d, allocOk t d [x.m.off] = true →
      let i := Instr.lds x sx d
      let uni := isUni d [x.m.off]
      Checked s t i uni x.g x.m .lds .read x.w.bytes 1 q s1 → stops i uni) ∧
    ∀ c, allocOk t .none [x.m.off, c] = true →
      let i := Instr.sts x c
      let uni := isUni .none [x.m.off, c]
      Checked s t i uni x.g x.m .sts .write x.w.bytes 1 q s1 → stops i uni

/-- R200 to R202, R219: the scratchpad accesses of a SCRATCH handle, and of a MAPPED one whose chunks are valid, read and
write SOFF + offset of the team's own bytes, and the instruction ends; with no lane to serve it ends at once. -/
def Sys2Proof.Claims.ScratchpadAccesses : Prop :=
  (∀ s t (x : MemAcc), s.curTeam = some t →
    (∀ sx d, allocOk t d [x.m.off] = true → accLanes s t (isUni d [x.m.off]) x.g x.m = [] →
      exec (.lds x sx d) s = .next (s.setTeam (t.advance (.lds x sx d)))) ∧
    ∀ c, allocOk t .none [x.m.off, c] = true → accLanes s t (isUni .none [x.m.off, c]) x.g x.m = [] →
      exec (.sts x c) s = .next (s.setTeam (t.advance (.sts x c)))) ∧
  ∀ s t (x : MemAcc) q s1, s.curTeam = some t → shaped t → s.uses = [] → t.unfin = none →
    (q.e.kind = kScratch ∨ q.e.kind = kMapped ∧ ∃ b, t.binding q.ix = some b ∧
      ∀ l ∈ q.lanes, badChunk b l.2.toNat x.w.bytes = none) →
    (∀ sx d, allocOk t d [x.m.off] = true → Instr.wf (.lds x sx d) = true →
      let i := Instr.lds x sx d
      let uni := isUni d [x.m.off]
      Checked s t i uni x.g x.m .lds .read x.w.bytes 1 q s1 →
      let n := (loadWords x.w sx []).length
      ∃ t', exec i s = .next (s1.setTeam t') ∧ moved i t t' ∧ bare t' = bare t ∧ t'.ctl = t.ctl ∧
        regsKept t t' x.g d n ∧ predsKept t t' x.g 7 ∧ rngKept t t' ∧
        ∀ l ∈ q.lanes, receives t x.g d l.1 → ∀ j < n,
          groupReg s t' uni l.1 (back d) j =
            ((loadWords x.w sx ((List.range x.w.bytes).map fun k => t.scratch.read (q.e.soff + l.2.toNat + k)))[j]?).getD 0) ∧
    ∀ c, allocOk t .none [x.m.off, c] = true →
      let i := Instr.sts x c
      let uni := isUni .none [x.m.off, c]
      Checked s t i uni x.g x.m .sts .write x.w.bytes 1 q s1 →
      let cells := (q.lanes.map fun l => cellsAt (q.e.soff + l.2.toNat) (storeBytes s t uni l.1 x.w c)).flatten
      ∃ t', exec i s = .next (s1.setTeam t') ∧ moved i t t' ∧ t'.lanes = t.lanes ∧ t'.s = t.s ∧ t'.ctl = t.ctl ∧
        t'.flags = t.flags ∧ (∀ a, t'.scratch.read a = (cellLookup cells a).getD (t.scratch.read a)) ∧
        ∀ b, q.e.kind = kMapped → t.binding q.ix = some b → ∃ b', t'.binding q.ix = some b' ∧ b'.va = b.va ∧
          b'.gen = b.gen ∧ b'.valid = b.valid ∧
          ∀ k, k ∈ b'.dirty ↔ k ∈ b.dirty ∨ ∃ l ∈ q.lanes, l.2.toNat ≤ k ∧ k < l.2.toNat + x.w.bytes

/-- R203: the fill of a chunk first asks for its line; when that is answered it brings the 128 bytes of the binding's range
(as the core sees them), marks the chunk valid, and the team goes on;
a chunk that is valid by then, or lies outside the binding, lets it go on at once. -/
def Sys2Proof.Claims.ChunkFillsBringTheirBytes : Prop :=
  ∀ s t uid h k opc unif b, s.team? uid = some t → t.status = .waiting (.mapFill h k opc unif) → t.binding h = some b →
    (k ∈ b.valid ∨ b.len ≤ 128 * k →
      exec (.mapFillComplete uid) s = .next (s.setTeam { t with status := .running, mark := none })) ∧
    (k ∉ b.valid → 128 * k < b.len → s.l2Waits (mapName uid) = false →
      let q := fillReq s t b k opc
      (∀ G, gatherAll q (fun _ => []) (fun _ _ => false) { s } q.lanes = .got G → G.left = [] → t.mark = none →
        exec (.mapFillComplete uid) s = .next ((fillAsk (G.s.unpin uid) t q G).setTeam { t with mark := some 1 })) ∧
      ∀ pa kd s1, t.mark.isSome = true → s.uses = [] → b.len < 2 ^ 48 → b.policy < 4 → b.pko < 3 →
        b.va.toNat % 128 = 0 → (∀ j < 128, heapFree s (pa + j)) →
        s.blockAt (s.ctxOf t).id (b.va + BitVec.ofNat 64 (128 * k)) = none →
        translate s (s.ctxOf t) t.place.die t.place.core (b.va + BitVec.ofNat 64 (128 * k)) .read = .ok (⟨pa, kd⟩, s1) →
        errorAt s1 pa 128 = none →
        ∃ t', exec (.mapFillComplete uid) s = .next ((s1.unpin uid).setTeam t') ∧ t'.status = .running ∧ t'.pc = t.pc ∧
          t'.lanes = t.lanes ∧ t'.s = t.s ∧ t'.unfin = t.unfin ∧
          (∀ j < 128, t'.scratch.read (b.soff + 128 * k + j) = s1.viewByte t.place.die t.place.core (pa + j)) ∧
          (∀ a, a < b.soff + 128 * k ∨ b.soff + 128 * k + 128 ≤ a → t'.scratch.read a = t.scratch.read a) ∧
          ∃ b', t'.binding h = some b' ∧ b' = { b with valid := k :: b.valid })

/-- R223 to R226: `hmap` moves a binding under a new generation after its write-back, `hflush` writes back or discards and
leaves or clears the chunks, `hquery` gives the entry's fields and zeros for an invalid one. -/
def Sys2Proof.Claims.HandleInstructions : Prop :=
  ∀ s t, s.curTeam = some t →
    (∀ fs d m (r : MemRef) mix me s1 gix ge s2 b ls s3, t.flagFull fs = false →
      let i := Instr.hmap fs d m r
      resolve s t (.word m) = .ok mix me s1 → resolve s1 t r.h = .ok gix ge s2 →
      me.kind = kMapped → ge.kind = kGlobal → ge.right rR = true → (me.right rW = true → ge.right rW = true) →
      me.share = 0 → ge.share = 0 → regionBad t me = false →
      let off := memOffset s2 t true 0 r
      0 ≤ off → off + me.len ≤ ge.len → (ge.va off).toNat % 128 = 0 →
      t.binding mix = some b → writeBack s2 t i fs b = .ok (ls, s3) →
      ∃ s', exec i s = .next s' ∧ s'.mem = s3.mem ∧
        Owes s s' (t.setBinding { b with va := ge.va off, gen := b.gen + 1, valid := [], dirty := [] }) i fs
          (.hmap d (BitVec.ofNat 32 (mix.toNat + 2 ^ 12 * ((b.gen.toNat + 1) % 4096)))) t.status) ∧
    (∀ fs h ix e s1 b, t.flagFull fs = false → resolve s t h = .ok ix e s1 → regionBad t e = false → e.kind = kMapped →
      e.share = 0 → t.binding ix = some b →
      (∃ s', exec (.hflush fs .inv h) s = .next s' ∧ s'.mem = s1.mem ∧
        Owes s s' (t.setBinding { b with dirty := [], valid := [] }) (.hflush fs .inv h) fs .flush t.status) ∧
      (∀ ls s2, writeBack s1 t (.hflush fs .wb h) fs b = .ok (ls, s2) →
        ∃ s', exec (.hflush fs .wb h) s = .next s' ∧ s'.mem = s2.mem ∧
          Owes s s' (t.setBinding { b with dirty := [] }) (.hflush fs .wb h) fs .flush t.status) ∧
      ∀ ls s2, writeBack s1 t (.hflush fs .wbinv h) fs b = .ok (ls, s2) →
        ∃ s', exec (.hflush fs .wbinv h) s = .next s' ∧ s'.mem = s2.mem ∧
          Owes s s' (t.setBinding { b with dirty := [], valid := [] }) (.hflush fs .wbinv h) fs .flush t.status) ∧
    (∀ g d h ix e s1, shaped t → allocOk t d [] = true → d.aligned 1 = true →
      resolve s t h true = .ok ix e s1 → ∀ op, (t.eligible g ≠ 0 ∨ d.isVec = false ∧ t.active ≠ 0) →
      ∃ t', exec (.hquery g op d h) s = .next (s1.setTeam t') ∧ moved (.hquery g op d h) t t' ∧ bare t' = bare t ∧
        t'.ctl = t.ctl ∧ regsKept t t' g d 2 ∧ predsKept t t' g 7 ∧
        ∀ L, receives t g d L → (val64 s1 t' (isUni d []) L false (back d)).toNat =
          if e.invalid then 0
          else match op with
            | .len => e.len
            | .info => ix.toNat + 2 ^ 12 * (t.genOf ix e).toNat + 2 ^ 24 * e.kind + 2 ^ 28 * e.rights + 2 ^ 32 * e.share.toNat +
                2 ^ 48 * e.policy + 2 ^ 51 * e.pko) ∧
    ∀ o, s.op? o.id = some o → s.l2Waits o.id = false →
      (∀ d w, o.kind = .hmap d w → ∃ s', exec (.hmapComplete o.id) s = .next s' ∧ Ended s s' o (·.writeUni d [w]) ∧
        s'.mem = s.mem) ∧
      (o.kind = .flush → ∃ s', exec (.hmapComplete o.id) s = .next s' ∧ Ended s s' o id ∧ s'.mem = s.mem)

/-- R220 to R222: `samp` owes the filtered texels, zeros for a layer that does not exist; `pf` only moves lines between
caches: it ends whatever its lanes meet, but for a stale handle. -/
def Sys2Proof.Claims.SamplingAndPrefetch : Prop :=
  ∀ s t, s.curTeam = some t →
    (∀ g fs d u v qw h ix e s1, t.flagFull fs = false → allocOk t d [u, v, qw] = true →
      let i := Instr.samp g fs d u v qw h
      let uni := isUni d [u, v, qw]
      let p := samplerOf e
      let ls := accLanes s t uni g ⟨.none, false, h, 0, false⟩
      let q : Req := { t, c := s1.ctxOf t, ix, e, uni, use := .samp, acc := .read, align := 1, lanes := ls, opc := instrOpc i,
                       plain := true, size := if e.kind == kSampler then p.layers * p.stride else 0 }
      let plan (L : Nat) := lanePlan p (valF32 s t uni L u) (valF32 s t uni L v) (val32 s t uni L qw)
      ls ≠ [] → resolve s t h = .ok ix e s1 → q.check s1 = none → dstFits d p.comps = true →
      ∀ G, gatherTaps q p plan { s := s1 } ls = .got G → G.left = [] →
        ∃ s', exec i s = .next s' ∧ Marks (s.ctxOf t) s.mem s'.mem ∧ G.data.map (·.1) = ls.map (·.1) ∧
          Owes s s' t i fs (.load ⟨d, G.data.map fun x => (x.1, sampleWords p (plan x.1) x.2)⟩ G.remote)
            (if G.remote then .waiting (.remote s.nextOp) else t.status)) ∧
    (∀ p : Sampler, ∀ u v qw : Word, p.layers ≤ (qw.toNat / 2 ^ 8) % 2 ^ 8 →
      ∀ bs, sampleWords p (lanePlan p u v qw) bs = List.replicate p.comps 0) ∧
    ∀ x level, allocOk t .none [x.m.off] = true → (∀ ix, resolve s t x.m.h ≠ .bad codeStale ix) →
      (∀ ix e s1, resolve s t x.m.h = .ok ix e s1 → e.kind = kProcedural → (s1.range? (s1.ctxOf t).id e.aux).isSome) →
      ∃ s', exec (.pf x level) s = .next s' ∧ s'.curTeam = some (t.advance (.pf x level)) ∧
        (∀ u, u ≠ t.uid → s'.team? u = s.team? u) ∧ Marks (s.ctxOf t) s.mem s'.mem ∧ s'.ops = s.ops

/-- What loads owe and where stores put their bytes: the claims above together.
The model's own in it: DESIGN CHOICE, log entries 3, 24; DEDUCED, log entries 29, 105. -/
def Obligations.LoadsAndStores : Prop :=
  Sys2Proof.Claims.LoadsOweWhatTheyRead ∧
  Sys2Proof.Claims.AccessesOfCachedPages ∧
  Sys2Proof.Claims.StoresQueueOrPerform

/-- Scratchpad accesses, mapped chunks and their fills: the claims above together.
The model's own in it: DEDUCED, log entry 22. -/
def Obligations.ScratchpadsAndFills : Prop :=
  Sys2Proof.Claims.ScratchpadAccesses ∧
  Sys2Proof.Claims.InvalidChunksStopTheirLanes ∧
  Sys2Proof.Claims.ChunkFillsBringTheirBytes

/-- Handle instructions, sampling and prefetch: the claims above together.
The model's own in it: DESIGN CHOICE, log entries 96, 108; DEDUCED, log entries 99, 100. -/
def Obligations.HandlesSamplingAndPrefetch : Prop :=
  Sys2Proof.Claims.HandleInstructions ∧ Sys2Proof.Claims.SamplingAndPrefetch

/-! ### Atomics, fences, barriers, waits, signals, circular buffers (09, 10) -/

namespace Sys2Proof.Claims

/-- Read-modify-writes of locations, each given by its bytes, one after another: the old values and the memory (10 R253). -/
def seqRmw (f : Nat → Nat → Nat) : Memory → List (Nat × List Nat) → List (Nat × Nat) × Memory
  | m, [] => ([], m)
  | m, (L, as) :: rest =>
    let x := leNat (as.map m.read)
    let r := seqRmw f (m.writeCells (as.zip (leBytes as.length (f L x)))) rest
    ((L, x) :: r.1, r.2)

/-- The n bytes from an address on. -/
def span (n a : Nat) : List Nat := (List.range n).map (a + ·)

/-- The state in which an atomic acts: behind the records that wait for its lines (08 R208) and the core's earlier stores to
the same bytes, or, with release order, behind all of them (10 R254). -/
def atomBase (s : State) (t : Team) (ord : Order) (locs : List (Nat × List Nat)) : State :=
  let as := (locs.map (·.2)).flatten
  if Order.releases ord then (s.settle as).drainCore t.place.die t.place.core
  else (s.settle as).drainBytes t.place.die t.place.core as

/-- The completion of an atomic over its location: `f` gives what a lane stores over an old value; no signal of the team
comes before it, and no byte is undefined through its handle (11 R282). -/
def Atomically (i : Instr) (x : AtomAcc) (d : Dst) (srcs : List Src) (n : Nat) (parks : Bool)
    (f : State → Team → Bool → Nat → Nat → Nat) : Prop :=
  ∀ s t, s.curTeam = some t → allocOk t d srcs = true → t.flagFull x.fs = false → s.uses = [] →
    (Order.releases x.ord && s.sigsOut t.uid) = false →
    let uni := isUni d srcs
    let owed (xs : List (Nat × Nat)) : Deliver := ⟨d, xs.map fun r => (r.1, wordsOf (n == 8) r.2)⟩
    let after := if Order.acquires x.ord then t.spent.acquire uni x.g else t.spent
    (accLanes s t uni x.g x.m = [] → exec i s = .next (s.setTeam (t.advance i))) ∧
    (∀ q s1, Checked s t i uni x.g x.m .atom .atomic n n q s1 → q.e.kind = kScratch →
      let r := seqRmw (f s t uni) t.scratch (q.lanes.map fun l => (l.1, span n (q.e.soff + l.2.toNat)))
      ∃ s' t0, exec i s = .next s' ∧ Owes s s' t0 i x.fs (.atomic (owed r.1) false) t.status ∧ s'.mem = s1.mem ∧
        t0 = { after with scratch := t0.scratch } ∧ ∀ a, t0.scratch.read a = r.2.read a) ∧
    ∀ q G, Reaches s t i uni x.g x.m .atom .atomic n n (fun _ => []) (fun _ _ => false) q G → q.e.kind ≠ kScratch →
      let base := atomBase (G.s.unpin t.uid) t x.ord (locsOf q G.pas)
      s.behindSig t.uid G = false → freeOf base q G.pas = [] →
      let r := seqRmw (f s t uni) base.mem (locsOf q G.pas)
      ∃ s', exec i s = .next s' ∧ Marks (s.ctxOf t) s.mem G.s.mem ∧ (∀ a, s'.mem.read a = r.2.read a) ∧
        Owes s s' after i x.fs (.atomic (owed r.1) G.remote)
          (if parks && G.remote then .waiting (.remote s.nextOp) else t.status) ∧
        ∀ l ∈ q.lanes, (q.e.va l.2).toNat % 128 + n ≤ 128 → ∃ pa, (l.1, pa) ∈ G.pas ∧ locBytes q G.pas l = span n pa

end Sys2Proof.Claims

/-- R253 to R261: the lanes of an atomic read, compute and write their locations one after another in ascending order, each
seeing what the lanes before it have stored; the old values are owed to the destination. `red` owes none and does not park
for a remote home. -/
def Sys2Proof.Claims.AtomicsActLaneByLane : Prop :=
  (∀ x op d c, Atomically (.atom x op d c) x d [x.m.off, c] (if op.wide then 8 else 4) true
    fun s t uni L old => atomNew op old (atomOperand s t uni L op c)) ∧
  (∀ x op c, Atomically (.red x op c) x .none [x.m.off, c] (if op.wide then 8 else 4) false
    fun s t uni L old => atomNew op old (atomOperand s t uni L op c)) ∧
  ∀ x ty d c, Atomically (.cas x ty d c) x d [x.m.off, c] (if ty.wide then 8 else 4) true fun s t uni L old =>
    let r (k : Nat) : Nat := (groupReg s t uni L c k).toNat
    let cmp := if ty.wide then r 0 + 2 ^ 32 * r 1 else r 0
    let new := if ty.wide then r 2 + 2 ^ 32 * r 3 else r 1
    if old = cmp then new else old

/-- R259: what the integer operations store over x with operand c. -/
def Sys2Proof.Claims.AtomicIntegerOperations : Prop :=
  ∀ (ty : IType) (x c : Nat), x < 2 ^ IType.width ty → c < 2 ^ IType.width ty → ty.packed = false →
    let w := IType.width ty
    let v (n : Nat) : Int := value ty.signed (BitVec.ofNat w n)
    atomNew (.add ty) x c = (x + c) % 2 ^ w ∧
    v (atomNew (.min ty) x c) = min (v x) (v c) ∧ v (atomNew (.max ty) x c) = max (v x) (v c) ∧
    (∀ j, (atomNew (.and ty) x c).testBit j = (x.testBit j && c.testBit j)) ∧
    (∀ j, (atomNew (.or ty) x c).testBit j = (x.testBit j || c.testBit j)) ∧
    (∀ j, (atomNew (.xor ty) x c).testBit j = (x.testBit j ^^ c.testBit j)) ∧
    atomNew (.xchg ty) x c = c ∧ atomNew (.inc ty) x c = if c ≤ x then 0 else x + 1

/-- R248: a fence first holds its team; once the accesses it waits for are performed it makes the core's pending stores the
coherent memory's (all six but `.acq`; `.rel` and `.acqrel` at a scope beyond the core) and ends; `.ro` also empties the
read-only caches of its scope, and no read then on its way answers a later one there. Registers and flags stay. -/
def Sys2Proof.Claims.FencesPerformStores : Prop :=
  ∀ s t (sc : Scope), s.curTeam = some t →
    let performed (i : Instr) (t' : Team) : Prop :=
      ∃ s', exec i s = .next s' ∧ s'.curTeam = some (t'.advance i) ∧ (∀ u, u ≠ t.uid → s'.team? u = s.team? u) ∧
        (∀ a, s'.mem.read a = s.coreByte t.place.die t.place.core a) ∧ s'.queueCells t.place.die t.place.core = [] ∧
        s'.ops.map (·.id) = s.ops.map (·.id)
    let only (i : Instr) (t' : Team) : Prop := exec i s = .next (s.setTeam (t'.advance i))
    (t.mark = none →
      ∀ i rel, (i = .fenceAcq sc ∧ rel = false ∨ (i = .fenceRel sc ∨ i = .fenceAcqrel sc ∨ i = .fenceSc sc ∨ i = .fenceRo sc ∨
          i = .fenceOpr sc) ∧ rel = true) →
        exec i s = .next (s.setTeam { t with status := .waiting (.fence rel) })) ∧
    (t.mark.isSome = true →
      only (.fenceAcq sc) t.acquireAll ∧ performed (.fenceSc sc) t.acquireAll ∧ performed (.fenceOpr sc) t ∧
      performed (.fenceRo sc) t ∧
      (sc ≠ .team → sc ≠ .core → performed (.fenceRel sc) t ∧ performed (.fenceAcqrel sc) t.acquireAll) ∧
      (sc = .team ∨ sc = .core → only (.fenceRel sc) t ∧ only (.fenceAcqrel sc) t.acquireAll) ∧
      ∀ s', exec (.fenceRo sc) s = .next s' →
        (∀ l, l ∈ s'.caches.ro ↔ l ∈ s.caches.ro ∧ scopeHolds t.place sc l.die l.core = false) ∧
        ∀ r ∈ s'.caches.routers, r.ro = true → ∀ p : Place, scopeHolds t.place sc p.die p.core = true → r.bars p = true) ∧
    ∀ uid u rel, s.team? uid = some u → u.status = .waiting (.fence rel) →
      exec (.fenceComplete uid) s = .next
        (if s.readsOut uid || (rel && s.sigsOut uid) then s else s.setTeam { u with status := .running, mark := some 0 })

/-- R262 to R267: `bar.sync` arrives and holds its team, `bar.arv` arrives and gives the generation, `bar.wait` holds until
its generation is complete; the count of a generation is its first arrival's; a full generation takes no arrival, releases
its waiters, and the next becomes current, or is over with it when it is full as well. An arrival that the generations have no
place for waits, and one of the other mode is ILLOP. -/
def Sys2Proof.Claims.BarriersCountGenerations : Prop :=
  ∀ s t (sc : Scope) (id : BitVec 8), s.curTeam = some t →
    let k := barKey t sc id
    let now := (s.bar? k).getD ⟨k, 0, none, none⟩
    let old := now.released (genFull s k)
    ((∀ c, now.cur = some c → genFull s k c = false) → old = now) ∧
    (∀ c, now.cur = some c → genFull s k c = true →
      ((∀ d, now.nxt = some d → genFull s k d = false) →
        old = { now with completed := now.completed + 1, cur := now.nxt, nxt := none }) ∧
      ∀ d, now.nxt = some d → genFull s k d = true →
        old = { now with completed := now.completed + 2, cur := none, nxt := none }) ∧
    (∀ n, sc = .team → s.readsOut t.uid = false → s.sigsOut t.uid = false →
      exec (.barSync sc id n) s = .next (s.setTeam (t.acquireAll.advance (.barSync sc id n)))) ∧
    (sc ≠ .team → t.mark = none → s.readsOut t.uid = false → s.sigsOut t.uid = false →
      ∀ (n : Src) cnt b g, (n = .none ∧ cnt = none ∨ n ≠ .none ∧ 1 ≤ (val32 s t true 0 n).toNat ∧
          (val32 s t true 0 n).toNat ≤ 65535 ∧ cnt = some (val32 s t true 0 n).toNat) →
        (arrive old t.teamNo cnt = .third → exec (.barSync sc id n) s =
          .next (s.setTeam { t with status := .waiting (.barThird k old.completed) })) ∧
        (arrive old t.teamNo cnt = .mode →
          exec (.barSync sc id n) s = .next (takeFault s t (.barSync sc id n) illop) ∧
          ∀ d, exec (.barArv sc id d n) s = .next (takeFault s t (.barArv sc id d n) illop)) ∧
        (arrive old t.teamNo cnt = .at_ b g →
        (∃ s', exec (.barSync sc id n) s = .next s' ∧ s'.bar? k = some b ∧
          s'.curTeam = some { t.spent with mark := some g, status := .waiting (.bar k g) }) ∧
        ∀ d, ∃ s', exec (.barArv sc id d n) s = .next s' ∧ s'.bar? k = some b ∧
          s'.curTeam = some (((t.spent).writeUni d [g]).advance (.barArv sc id d n)))) ∧
    (old.cur = none → ∀ cnt, arrive old t.teamNo cnt = .at_ { old with cur := some ⟨cnt, [t.teamNo], 1⟩ } old.completed) ∧
    (∀ c, old.cur = some c → c.counted = none → t.teamNo ∉ c.arrived →
      arrive old t.teamNo none =
        .at_ { old with cur := some ⟨none, t.teamNo :: c.arrived, c.number + 1⟩ } old.completed) ∧
    (∀ c, old.cur = some c → c.counted = none → t.teamNo ∈ c.arrived → old.nxt = none →
      arrive old t.teamNo none = .at_ { old with nxt := some ⟨none, [t.teamNo], 1⟩ } (old.completed + 1)) ∧
    (∀ c m j, old.cur = some c → c.counted = some m → c.number < m →
      arrive old t.teamNo (some j) =
        .at_ { old with cur := some ⟨some m, t.teamNo :: c.arrived, c.number + 1⟩ } old.completed) ∧
    (∀ n g, sc ≠ .team → t.mark = some g → (now.completed - g - 1).toNat < 2 ^ 31 →
      exec (.barSync sc id n) s = .next (s.setTeam (t.acquireAll.advance (.barSync sc id n)))) ∧
    (∀ tok, let g := val32 s t true 0 tok
      (now.completed - g - 1).toNat < 2 ^ 31 →
        exec (.barWait sc id tok) s = .next (s.setTeam (t.spent.acquireAll.advance (.barWait sc id tok)))) ∧
    ∀ k' b c, s.bar? k' = some b → b.cur = some c →
      (match c.counted with | some n => n ≤ c.number | none => ∀ m ∈ barMembers s k', m ∈ c.arrived) →
      ∃ s', exec (.barrierRelease k') s = .next s' ∧ s'.bar? k' = some (b.released (genFull s k')) ∧
        ((∀ d, b.nxt = some d → genFull s k' d = false) →
          s'.bar? k' = some { b with completed := b.completed + 1, cur := b.nxt, nxt := none }) ∧
        ∀ uid u, s.team? uid = some u →
          (u.status = .waiting (.bar k' b.completed) ∨ u.status = .waiting (.barThird k' b.completed) →
            s'.team? uid = some { u with status := .running }) ∧
          ((∀ g, u.status ≠ .waiting (.bar k' g) ∧ u.status ≠ .waiting (.barThird k' g)) → s'.team? uid = some u)

/-- R269 to R271: `waitaddr` gives the value that it reads once the comparison holds or the time is over, and holds its team
till then; a write to the line, a poll and the time-out each let it read again. -/
def Sys2Proof.Claims.WaitingOnAnAddress : Prop :=
  ∀ s t, s.curTeam = some t →
    (∀ cmp ty acq sc d off o64 h imm c timeout q G,
      let i := Instr.waitaddr cmp ty acq sc d off o64 h imm c timeout
      let n := if ty.wide then 8 else 4
      let t1 := { t with since := some (t.since.getD s.clk) }
      Reaches s t1 i true Guard.always ⟨off, o64, h, imm.signExtend 32, false⟩ .watch .read n n (fun _ => [])
        (fun _ _ => false) q G → s.behindSig t.uid G = false →
      let x := leNat ((G.data.map (·.2)).flatten)
      let w := IType.width ty
      let c' := valI s t true 0 ty c
      let vx := value ty.signed (BitVec.ofNat w x)
      let vc := value ty.signed (BitVec.ofNat w c')
      let holds : Prop := match cmp with
        | .eq => x = c' | .ne => x ≠ c' | .lt => vx < vc | .ge => vc ≤ vx
        | .sge => (BitVec.ofNat w x - BitVec.ofNat w c').toNat < 2 ^ (w - 1)
      let late : Prop := timeout ≠ 0xFFFFFFFF ∧ timeout.toNat ≤ (s.clk - t.since.getD s.clk).toNat
      ty.packed = false →
      ∃ s', exec i s = .next s' ∧ Marks (s.ctxOf t) s.mem s'.mem ∧ s'.ops = s.ops ∧
        (holds ∨ late → s'.curTeam = some (((if acq then t1.acquireAll else t1).writeUni d (wordsOf ty.wide x)).advance i)) ∧
        (¬ holds → ¬ late → ∃ w' : Watch, s'.curTeam = some { t1 with unfin := none, status := .waiting (.addr w') } ∧
          w'.line = (G.lines.head?).getD 0 ∧ w'.cmp = cmp ∧ w'.ty = ty ∧ w'.value.toNat = c' ∧ w'.since = t.since.getD s.clk ∧
          w'.timeout = timeout)) ∧
    ∀ uid u w, s.team? uid = some u → u.status = .waiting (.addr w) →
      exec (.watchFire uid) s = .next (s.setTeam { u with status := .running }) ∧
      exec (.watchPoll uid) s = .next (s.setTeam { u with status := .running }) ∧
      exec (.waitaddrTimeout uid) s = .next
        (if w.timeout ≠ 0xFFFFFFFF ∧ w.timeout.toNat ≤ (s.clk - u.since.getD s.clk).toNat then
          s.setTeam { u with status := .running } else s)

/-- R273, R336: `waitf` ends once every flag of its mask (`.any`: one of them) is zero, and gives those it found zero; till then
the team stands at it. When a command on a flag of its mask has ended with a fault, it stops its team instead, with the
fault of the command that was accepted first. A team whose forced save has captured it is not woken. -/
def Sys2Proof.Claims.WaitingOnFlags : Prop :=
  ∀ s t anyF (m : BitVec 12) d, s.curTeam = some t →
    let i := Instr.waitf anyF m d
    let zero (n : Nat) : Prop := n < 12 ∧ m.getLsbD n = true ∧ t.flag n = 0
    let met : Prop := if anyF then ∃ n, zero n else ∀ n < 12, m.getLsbD n = true → t.flag n = 0
    (met → ∀ e ∈ t.efaults, (∃ n < 12, m.getLsbD n = true ∧ e.flag = some n) →
      (∀ e' ∈ t.efaults, e' ≠ e → (∃ n < 12, m.getLsbD n = true ∧ e'.flag = some n) → e.seq < e'.seq) →
      ∃ (t' : Team) (r : FaultRec), exec i s = .next (s.setTeam t') ∧ t'.status = .stopping r ∧
        r.finfo0.extractLsb' 24 8 = e.info.code ∧ r.finfo2 = e.info.detail ∧ r.ipc = e.info.ipc ∧ t'.pc = t.pc ∧
        t'.lanes = t.lanes ∧ t'.s = t.s) ∧
    (met → (∀ e ∈ t.efaults, ∀ n < 12, m.getLsbD n = true → e.flag ≠ some n) →
      ∃ z : BitVec 12, (∀ n < 12, z.getLsbD n = true ↔ zero n) ∧
        exec i s = .next (s.setTeam ((t.writeUni d [z.setWidth 32]).advance i))) ∧
    (¬ met → exec i s = .next (s.setTeam { t with status := .waiting (.flags anyF m) })) ∧
    ∀ uid u a k, s.team? uid = some u → u.status = .waiting (.flags a k) → u.leave ≠ .forced →
      (if a then ∃ n < 12, k.getLsbD n = true ∧ u.flag n = 0 else ∀ n < 12, k.getLsbD n = true → u.flag n = 0) →
      exec (.waitfWake uid) s = .next (s.setTeam { u with status := .running })

/-- R274: `sig` leaves a signal that the team does not wait for; once the team's earlier accesses (with `.eng`, its earlier
engine commands too) are done, the signal adds to or sets its location, behind the core's earlier stores, and behind the records
that wait for its line. -/
def Sys2Proof.Claims.SignalsAreAsynchronousReleases : Prop :=
  ∀ s, s.uses = [] →
    (∀ t fs set eng wide sc m v q G, s.curTeam = some t → t.flagFull fs = false →
      (s.ops.filter fun o => o.die == t.place.die && o.core == t.place.core && o.kind.isSig).length < 64 →
      let i := Instr.sig fs set eng wide sc m v
      let n := if wide then 8 else 4
      Reaches s t i true Guard.always m .sig .atomic n n (fun _ => []) (fun _ _ => false) q G →
      ∃ s', exec i s = .next s' ∧ Marks (s.ctxOf t) s.mem s'.mem ∧
        Owes s s' t i fs (.sig ((locsOf q G.pas).map (·.2)).flatten wide set
          (if wide then val64 s t true 0 false v else (val32 s t true 0 v).setWidth 64) eng sc
          (freeOf (G.s.unpin t.uid) q G.pas)) t.status) ∧
    ∀ o pa wide set v eng sc, let n := if wide then 8 else 4
      s.op? o.id = some o → o.kind = .sig (span n pa) wide set v eng sc [] → sigMay s o eng = true →
      let s0 := s.settle (span n pa)
      let base := if sc = .team ∨ sc = .core then s0.performBytes o.die o.core o.id (span n pa)
        else s0.performSel o.die o.core fun p _ => p.id < o.id
      (∀ a ∈ span n pa, errorAt base a 1 = none) →
      ∃ s', exec (.sigPerform o.id) s = .next s' ∧ Ended s s' o id ∧
        s'.mem.readLE pa n = (if set then v.toNat else base.mem.readLE pa n + v.toNat) % 2 ^ (8 * n) ∧
        ∀ a, (a < pa ∨ pa + n ≤ a) → s'.mem.read a = base.mem.read a

/-- R275 to R278: the counts of a circular buffer: `cbinit` starts them, `cbput.acq` and `cbget` give the oldest free or
filled slot and count it, `cbput.com` and `cbrel` count once the team's earlier accesses are done; with no slot the team
waits; a descriptor that was never initialised is ILLOP. -/
def Sys2Proof.Claims.CircularBuffersCountSlots : Prop :=
  ∀ s t (k : BitVec 8), s.curTeam = some t → t.cbs.length = 8 → k.toNat < 8 →
    let c := t.cb k.toNat
    (∀ h size count ix e s1, resolve s t (.idx h) = .ok ix e s1 → e.kind = kScratch → e.right rR = true → e.right rW = true →
      let sz := (val32 s t true 0 size).toNat
      let ct := (val32 s t true 0 count).toNat
      sz % 16 = 0 → 16 ≤ sz → sz ≤ 65536 → 1 ≤ ct → ct ≤ 256 → sz * ct ≤ e.len →
      s1.cbCopies t.uid k.toNat true = [] → s1.cbCopies t.uid k.toNat false = [] →
      ∃ s' t', exec (.cbinit k h size count) s = .next s' ∧ s'.curTeam = some t' ∧ moved (.cbinit k h size count) t t' ∧
        t'.lanes = t.lanes ∧ t'.s = t.s ∧ t'.scratch = t.scratch ∧ s'.mem = s1.mem ∧
        t'.cb k.toNat = ⟨true, h, sz, ct, 0, 0, 0, 0⟩ ∧ ∀ j, j ≠ k.toNat → t'.cb j = t.cb j) ∧
    (c.init = true →
      (∀ d, c.count - (c.reserved - c.released).toNat ≠ 0 →
        ∃ t', exec (.cbputAcq d k) s = .next (s.setTeam t') ∧
          t' = ((t.setCb k.toNat { c with reserved := c.reserved + 1 }).writeUni d
            [BitVec.ofNat 32 (c.reserved.toNat % c.count * c.size)]).advance (.cbputAcq d k)) ∧
      (∀ d, c.count - (c.reserved - c.released).toNat = 0 →
        exec (.cbputAcq d k) s = .next (s.setTeam { t with status := .waiting (.cbFree k.toNat) })) ∧
      (∀ d, c.committed ≠ c.taken →
        exec (.cbget d k) s = .next (s.setTeam (((t.acquireAll.setCb k.toNat { c with taken := c.taken + 1 }).writeUni d
            [BitVec.ofNat 32 (c.taken.toNat % c.count * c.size)]).advance (.cbget d k)))) ∧
      (∀ d, c.committed = c.taken →
        exec (.cbget d k) s = .next (s.setTeam { t with status := .waiting (.cbFilled k.toNat) })) ∧
      (s.cbCopies t.uid k.toNat true = [] → s.cbPending t.uid k.toNat true < (c.reserved - c.committed).toNat →
        ∃ s' o, exec (.cbputCom k) s = .next s' ∧ s'.ops = s.ops ++ [o] ∧ o.uid = t.uid ∧ o.kind = .cbCommit k.toNat ∧
          o.flag = none ∧ o.block = false ∧ s'.mem = s.mem ∧ s'.curTeam = some (t.advance (.cbputCom k))) ∧
      (s.cbCopies t.uid k.toNat false = [] → s.cbPending t.uid k.toNat false < (c.taken - c.released).toNat →
        ∃ s' o, exec (.cbrel k) s = .next s' ∧ s'.ops = s.ops ++ [o] ∧ o.uid = t.uid ∧ o.kind = .cbRelease k.toNat ∧
          o.flag = none ∧ o.block = false ∧ s'.mem = s.mem ∧ s'.curTeam = some (t.advance (.cbrel k)))) ∧
    (c.init = false → ∀ i, (i = .cbputCom k ∨ i = .cbrel k ∨ (∃ d, i = .cbputAcq d k) ∨ ∃ d, i = .cbget d k) →
      exec i s = .next (takeFault s t i { code := codeIllop })) ∧
    (∀ o j u, s.op? o.id = some o → s.team? o.uid = some u → u.cbs.length = 8 → j < 8 → o.flag = none →
      u.status ≠ .waiting (.remote o.id) →
      (∀ p ∈ s.ops, p.uid = o.uid → p.id < o.id → (match p.kind with
        | .load .. | .store .. | .cbCommit .. | .cbRelease .. => False
        | _ => True)) →
      (o.kind = .cbCommit j → ∃ s', exec (.cbDeferredUpdate o.id) s = .next s' ∧ s'.op? o.id = none ∧
        s'.team? o.uid = some (u.setCb j { u.cb j with committed := (u.cb j).committed + 1 })) ∧
      (o.kind = .cbRelease j → ∃ s', exec (.cbDeferredUpdate o.id) s = .next s' ∧ s'.op? o.id = none ∧
        s'.team? o.uid = some (u.setCb j { u.cb j with released := (u.cb j).released + 1 }))) ∧
    ∀ uid u j, s.team? uid = some u →
      (u.status = .waiting (.cbFree j) → exec (.cbWake uid) s = .next
        (if (u.cb j).count - ((u.cb j).reserved - (u.cb j).released).toNat ≠ 0 then s.setTeam { u with status :=
          .running } else s)) ∧
      (u.status = .waiting (.cbFilled j) → exec (.cbWake uid) s = .next
        (if (u.cb j).committed ≠ (u.cb j).taken then s.setTeam { u with status := .running } else s))

/-- Atomics act lane by lane with their integer operations: the claims above together.
The model's own in it: DEDUCED, log entries 14, 105. -/
def Obligations.Atomics : Prop :=
  Sys2Proof.Claims.AtomicsActLaneByLane ∧ Sys2Proof.Claims.AtomicIntegerOperations

/-- Fences perform stores; barriers count generations: the claims above together. -/
def Obligations.FencesAndBarriers : Prop :=
  Sys2Proof.Claims.FencesPerformStores ∧ Sys2Proof.Claims.BarriersCountGenerations

/-- Waiting on an address and on flags: the claims above together.
The model's own in it: DESIGN CHOICE, log entry 118; DEDUCED, log entry 107. -/
def Obligations.Waiting : Prop :=
  Sys2Proof.Claims.WaitingOnAnAddress ∧ Sys2Proof.Claims.WaitingOnFlags

/-- Signals and circular buffers: the claims above together.
The model's own in it: DEDUCED, log entry 35. -/
def Obligations.SignalsAndCircularBuffers : Prop :=
  Sys2Proof.Claims.SignalsAreAsynchronousReleases ∧ Sys2Proof.Claims.CircularBuffersCountSlots

/-! ### Tiles (11) -/

namespace Sys2Proof.Claims

/-- A buffer handle that a tile instruction may name (11 R280). -/
def BufferAt (s : State) (t : Team) (hb : HRef) (e : HEnt) (s1 : State) : Prop :=
  ∃ ix, resolve s t hb = .ok ix e s1 ∧ e.kind = kBuffer ∧ e.share = 0

/-- The live tile that a word names, in a buffer whose home answers. -/
def TileAt (s : State) (t : Team) (w : Word) (x : Tile) : Prop :=
  s.tiles.named t.ctx w = some x ∧ ∀ b, s.bufOf t.ctx x.buf = some b → s.coh.dead.contains (.die b.home) = false

/-- The directory after a write grant (11 R287); `dies` are those that still hold lines of the tile. -/
def opened (ts : List Tile) (x : Tile) (who : Word × Word) (uid : Nat) (dies : List Nat) : List Tile :=
  ts.map fun u =>
    if u.live && u.same x then
      { u with
        st := .opened, holder := some who, owner := none, refs := 0, copies := [], seals := u.seals + 1, hold := false
        waiters := u.waiters.filter (·.uid != uid), presence := u.presence.filter (dies.contains ·) }
    else if u.live && u.overlaps x && u.st == .sealed then { u with st := .idle, owner := none, seals := u.seals + 1 }
    else u

/-- The directory with a change to one tile alone. -/
def changed (ts : List Tile) (x : Tile) (f : Tile → Tile) : List Tile :=
  ts.map fun u => if u.live && u.same x then f u else u

/-- The home of a tile has answered a team that waits: the words of its instruction stand ready, and a counted grant with the
next sequence is on its way to the team's core (11 R294). -/
def answered (s s' : State) (x : Tile) (t : Team) (ws : List Word) : Prop :=
  let (home, who) := (s.tileHome x, Requester.core t.place.die t.place.core)
  s'.team? t.uid = some { t with reply := ws } ∧ (∀ u, u ≠ t.uid → s'.team? u = s.team? u) ∧
    s'.coh.net = s.coh.net ++ [.grant ⟨home, who, t.uid, (s.seqOf home who).sent + 1, 0, who, false, true⟩] ∧
    (s'.seqOf home who).unacked = (s.seqOf home who).unacked + 1

/-- The entry of a tile is in its home's directory and may be granted (11 R286, R294). -/
def AtItsHome (s : State) (t : Team) (x : Tile) : Prop :=
  x.dir = true ∧ x.leaving = false ∧ s.mayGrant (s.tileHome x) (.core t.place.die t.place.core) = true

/-- The directory with a tile's use noted. -/
def noted (s : State) (x : Tile) : State := s.updTile x fun u => { u with used := s.ticks }

end Sys2Proof.Claims

/-- R281, R282, R286, R299, R300, R305: `tdecl` enters a shape in the buffer table of the home of BASE, `tdecl.rm` takes it out
once no tile of it is live, `ttile` makes an idle tile with the record's box and gives its word, `tquery` gives the fields of a
tile; a tile's record enters a set of its home's directory that has a way, and none whose entries must stay. -/
def Sys2Proof.Claims.BuffersAndTilesAreDeclared : Prop :=
  ∀ s t, s.curTeam = some t →
    (∀ fs r hb e s1 bs s2 sh pa k s3, t.flagFull fs = false → BufferAt s t hb e s1 →
      readRecord s1 t (.tdecl fs r hb) (some fs) .readRec r 128 8 = .ok (bs, s2) →
      shapeOf bs = some sh → translate s2 (s2.ctxOf t) t.place.die t.place.core e.base .read = .ok (⟨pa, k⟩, s3) →
      let home := (homeOf s pa).die
      sh.footprint ≤ e.len → (s.tiles.bufs.filter (·.home == home)).length < 16384 → s.coh.dead.contains (.die home) = false →
      (∀ b ∈ s.tiles.bufs, b.ctx = t.ctx → b.no ≠ e.aux ∧ b.foot ≤ (e.base - b.base).toNat ∧
        sh.footprint ≤ (b.base - e.base).toNat) →
      ∃ s', exec (.tdecl fs r hb) s = .next s' ∧ Owes s s' t (.tdecl fs r hb) fs (.tileOp 0 3) t.status ∧
        Marks (s.ctxOf t) s.mem s'.mem ∧
        s'.tiles = { s.tiles with bufs := s.tiles.bufs ++ [⟨t.ctx, e.aux, home, e.base, sh, sh.footprint⟩] }) ∧
    (∀ fs hb e s1 b, t.flagFull fs = false → BufferAt s t hb e s1 → s.bufOf t.ctx e.aux = some b →
      (∀ x ∈ s.tiles.tiles, x.live = true → x.ctx = t.ctx → x.buf ≠ e.aux) → s.coh.dead.contains (.die b.home) = false →
      ∃ s', exec (.tdeclRm fs hb) s = .next s' ∧ Owes s s' t (.tdeclRm fs hb) fs (.tileOp 0 3) t.status ∧
        s'.bufOf t.ctx e.aux = none ∧ s'.tiles.tiles = s.tiles.tiles ∧ s'.mem = s1.mem) ∧
    (∀ d r hb e s1 b bs s2 lo sz n gen, BufferAt s t hb e s1 → s.bufOf t.ctx e.aux = some b →
      readRecord s1 t (.ttile d r hb) none .readRec r 96 8 = .ok (bs, s2) → boxOf b.shape bs = some (lo, sz) →
        s.coh.dead.contains (.die b.home) = false →
      s.tiles.freeSlot t.ctx (Config.freeNat s.ticks 100) = some (n, gen) →
      ∃ s' x, exec (.ttile d r hb) s = .next s' ∧ x ∈ s'.tiles.tiles ∧ x.live = true ∧ x.ctx = t.ctx ∧ x.buf = b.no ∧
        x.lo = lo ∧ x.sz = sz ∧ x.st = .idle ∧ x.refs = 0 ∧ x.holder = none ∧ x.ix = n ∧ x.gen = gen ∧
        s'.curTeam = some ((t.writeUni d [x.word]).advance (.ttile d r hb)) ∧ s'.mem = s2.mem ∧ s'.tiles.bufs = s.tiles.bufs) ∧
    (∀ u w1 w2, u.lo.length ≤ 16 → 1 ≤ u.lo.length → u.buf < 4096 → u.refs < 65536 →
      (∀ o, u.owner = some o → o < 256) → queryTile t u u.lo.length = [w1, w2] →
      (w1.extractLsb' 30 2).toNat = (match u.st with | .idle => 0 | .opened => 1 | .sealed => 2) ∧
      (w1.getLsbD 29 = true ↔ u.st = .opened ∧ u.holder = some t.who) ∧ (w1.getLsbD 28 = true ↔ u.dir = true) ∧
      (w1.extractLsb' 16 12).toNat = min (u.copiesOf t.who) 4095 ∧ (w1.extractLsb' 0 16).toNat = u.refs ∧
      (w2.extractLsb' 20 12).toNat = u.buf ∧ (w2.extractLsb' 16 4).toNat + 1 = u.lo.length ∧
      (w2.getLsbD 7 = true ↔ u.st ≠ .sealed ∨ u.owner = none) ∧
      ∀ o, u.st = .sealed → u.owner = some o → (w2.extractLsb' 10 6).toNat = o / 4 ∧ (w2.extractLsb' 8 2).toNat = o % 4) ∧
    (∀ d x u, TileAt s t (tileArg s t x) u → ∃ w1 w2, queryTile t u u.lo.length = [w1, w2] ∧
      exec (.tquery d x) s = .next (s.setTeam ((t.writeUni d [w1, w2]).advance (.tquery d x)))) ∧
    (∀ o w, s.op? o.id = some o → o.kind = .tileOp w 3 →
      ∃ s', exec (.tileOpComplete o.id) s = .next s' ∧ Ended s s' o id ∧ s'.tiles = s.tiles ∧ s'.mem = s.mem) ∧
    ∀ c n,
      (s.tiles.at? c n = none → exec (.tileRecordFetch c n) s = .next s) ∧
      ∀ x, s.tiles.at? c n = some x →
        (x.dir = false → (s.dirSet x).length < 16 → ∃ s', exec (.tileRecordFetch c n) s = .next s' ∧ s'.teams = s.teams ∧
          s'.mem = s.mem ∧ s'.tiles.tiles = changed s.tiles.tiles x fun u =>
            { u with dir := true, used := s.ticks, presence := s.holderDies x }) ∧
        (s.setFull x = true → exec (.tileRecordFetch c n) s = .next s)

/-- R287, R301: the home examines an open request: a tile that the team has open is granted again; while another team has an
overlapping tile open the request is listed; a write waits for the copies of overlapping sealed tiles, for an earlier writer and
for the lines of other dies but the owner's, a read for room, for a starved writer and for dirty lines; a recall first takes
back the copies of teams and the lines of the dies that hold them. -/
def Sys2Proof.Claims.TileRequestsAreExamined : Prop :=
  ∀ (s : State) (t : Team) (x : Tile), s.team? t.uid = some t → s.tileNow x = x → x.live = true → x ∈ s.tiles.tiles →
    let ts := s.tiles.tiles
    let mine : Prop := x.st = .opened ∧ x.holder = some t.who
    let elsewhere : Prop := ∃ u ∈ ts, u.live = true ∧ u.overlaps x = true ∧ u.st = .opened ∧ u.holder ≠ some t.who
    let copies (ts : List Tile) : Prop := ∃ u ∈ ts, u.live = true ∧ u.overlaps x = true ∧ u.st = .sealed ∧ 0 < u.refs
    let lists (s0 : State) (wr rc : Bool) : Prop :=
      let s' := examineOpen s t x wr rc
      s'.teams = s.teams ∧ s'.mem = s.mem ∧ s'.tiles.tiles = changed s0.tiles.tiles x fun u =>
        if u.waiters.any (·.uid == t.uid) then u else { u with waiters := u.waiters ++ [⟨t.uid, wr, rc, s.clk⟩] }
    let room : Prop := x.refs ≠ 65535 ∧ ¬ (x.copies.length = 255 ∧ x.copiesOf t.who = 0) ∧ x.hold = false ∧ x.starved s.clk = false
    let clears (s : State) (wr : Bool) : Prop := (clearTile s t (s.tileNow x) wr).1 = true
    (∀ wr rc, mine → answered s (examineOpen s t x wr rc) x t [] ∧
      (examineOpen s t x wr rc).tiles.tiles = changed ts x (·.keepWaiters (·.uid != t.uid))) ∧
    (∀ wr rc, ¬ mine → elsewhere → lists s wr rc) ∧
    (¬ mine → ¬ elsewhere → copies ts ∨ x.behind t.uid = true → lists s true false) ∧
    (¬ mine → ¬ elsewhere → ¬ copies ts → x.behind t.uid = false →
      (clears s true → answered s (examineOpen s t x true false) x t [] ∧
        (examineOpen s t x true false).tiles.tiles = opened ts x t.who t.uid (s.holderDies x)) ∧
      (¬ clears s true → lists (clearTile s t x true).2 true false)) ∧
    (¬ mine → ¬ elsewhere → ¬ room → lists s false false) ∧
    (¬ mine → ¬ elsewhere → room →
      (clears s false → answered s (examineOpen s t x false false) x t [] ∧
        (examineOpen s t x false false).tiles.tiles = changed ts x fun u =>
          let v := if u.st = .idle then { u with st := .sealed, owner := none, refs := 0, copies := [] } else u
          (v.addCopy t.who).keepWaiters (·.uid != t.uid)) ∧
      (¬ clears s false → lists (clearTile s t x false).2 false false)) ∧
    (¬ mine → ¬ elsewhere →
      let s2 := recallCopies s x
      s2.teams = s.teams ∧ s2.mem = s.mem ∧
      (∀ u ∈ ts, u.live = true → u.overlaps x = true → u.st = .sealed → 0 < u.refs →
        (∀ v ∈ s2.tiles.tiles, v.live = true → v.same u = true → v.copies = [] ∧ v.presence = []) ∧
        ((∀ y ∈ ts, y.live = true → y.overlaps x = true → y.st = .sealed → 0 < y.refs → y = u) →
          ∀ l ∈ s.linesOf u, ∀ h, l2Home s l = some h → (s.lineDir h l).await = [] →
            ∀ w, (s.lineDir h l).owner = some w ∨ w ∈ (s.lineDir h l).sharers → (∃ d ∈ u.presence, ofDie d w = true) →
              w ∈ (s2.lineDir h l).await ∧ ∃ m, .backInv m ∈ s2.coh.net ∧ m.home = h ∧ m.peer = w ∧ m.line = l)) ∧
      (∀ v ∈ ts, (∀ u ∈ ts, u.live = true → u.overlaps x = true → u.st = .sealed → 0 < u.refs → u.same v = false) →
        v ∈ s2.tiles.tiles) ∧
      (copies s2.tiles.tiles ∨ (s2.tileNow x).behind t.uid = true → lists s2 true true) ∧
      (¬ copies s2.tiles.tiles → (s2.tileNow x).behind t.uid = false → clears s2 true →
        answered s2 (examineOpen s t x true true) x t [] ∧
          (examineOpen s t x true true).tiles.tiles = opened s2.tiles.tiles x t.who t.uid (s2.holderDies x)))

/-- R286, R287, R288, R294, R301: `topen` sends its request and holds its team, and a granted one ends as an acquire; a
request at its home comes back behind while the home may send no further grant, waits for its tile's record, is refused with
NACK-retry by a set whose entries must stay, and else is examined, as a listed one is again; a grant lets the team go on and is
acknowledged. -/
def Sys2Proof.Claims.TileTenureIsGranted : Prop :=
  ∀ s t,
    (s.curTeam = some t → ∀ x,
      (t.mark = none → s.tileMail t.uid = false → ∀ u, TileAt s t (tileArg s t x) u →
        let m : TileMsg := ⟨t.uid, tileArg s t x⟩
        let asked (i : Instr) : Host.Outcome State Fault Refusal :=
          .next (({ s with coh := { s.coh with net := s.coh.net ++ [i] } } : State).setTeam
            { t with status := .waiting (.tile t.ctx u.ix) })
        exec (.topenR x) s = asked (.tileOpenReq m false false) ∧ exec (.topenW x) s = asked (.tileOpenReq m true false) ∧
          exec (.topenWRecall x) s = asked (.tileOpenReq m true true)) ∧
      (t.mark.isSome = true → ∀ i, (i = .topenR x ∨ i = .topenW x ∨ i = .topenWRecall x) →
        exec i s = .next (s.setTeam (t.acquireAll.advance i)))) ∧
    (∀ uid w x wr rc, s.team? uid = some t → t.waitsTile = true → s.tiles.named t.ctx w = some x →
      let req : Instr := .tileOpenReq ⟨uid, w⟩ wr rc
      let fetch : Instr := .tileRecordFetch x.ctx x.ix
      let mayGrant := s.mayGrant (s.tileHome x) (.core t.place.die t.place.core)
      (AtItsHome s t x → exec req s = .next (examineOpen (noted s x) t ((noted s x).tileNow x) wr rc)) ∧
      (x.leaving = true ∨ mayGrant = false → exec req s = .next (s.send req)) ∧
      (x.leaving = false → mayGrant = true → x.dir = false →
        (s.setFull x = true → exec req s = .next (s.send (.nackRetry (tileName uid)))) ∧
        (s.setFull x = false → s.coh.net.contains fetch = false → exec req s = .next ((s.send fetch).send req)) ∧
        (s.setFull x = false → s.coh.net.contains fetch = true → exec req s = .next (s.send req)))) ∧
    (∀ uid, s.team? uid = some t → t.waitsTile = true → s.tileMail uid = false →
      (∀ x w, s.tileWait uid = some (x, w) → s.mayGrant (s.tileHome x) (.core t.place.die t.place.core) = true →
        exec (.tileRequestRetry uid) s = .next (examineOpen s t x w.write w.recl)) ∧
      (s.tileWait uid = none → exec (.tileRequestRetry uid) s = .next (s.setTeam { t with status := .running }))) ∧
    (∀ m d c, s.team? m.line = some t → t.waitsTile = true → m.peer = .core d c → m.excl = true →
      ∃ s', exec (.grant m) s = .next s' ∧ s'.team? m.line = some { t with status := .running, mark := some 1 } ∧
        .grantAck m ∈ s'.coh.net ∧ s'.mem = s.mem ∧ s'.tiles = s.tiles) ∧
    ∀ c n,
      let hold (x : Tile) : Tile :=
        if x.live && x.ctx == c && x.ix == n && x.waiters.any (fun w => w.write && decide (10000 < (s.clk - w.since).toNat))
        then { x with hold := true } else x
      exec (.topenWStarvationHold c n) s =
        .next { s with tiles := { s.tiles with tiles := s.tiles.tiles.map hold } }

/-- R287, R289, R294, R302: `tseal` ends the holder's tenure once its earlier accesses are performed: the tile is sealed with
the engines' copies and the holder's die as owner; on a sealed tile it changes nothing, elsewhere it is PERM. `tdrop` takes
one copy of the team back. The home records each with a counted grant, and as a use of the tile. -/
def Sys2Proof.Claims.TilesAreSealedAndDropped : Prop :=
  ∀ s,
    (∀ t fs x u, s.curTeam = some t → t.flagFull fs = false → TileAt s t (tileArg s t x) u →
      let w := tileArg s t x
      (u.st = .opened → u.holder = some t.who →
        ∃ s', exec (.tseal fs x) s = .next s' ∧ Owes s s' t (.tseal fs x) fs (.tileOp w 1) t.status ∧ s'.mem = s.mem ∧
          s'.tiles.tiles = changed s.tiles.tiles u fun v => { v with sealing := true }) ∧
      (u.st = .sealed → ∃ s', exec (.tseal fs x) s = .next s' ∧ Owes s s' t (.tseal fs x) fs (.tileOp w 3) t.status ∧
        s'.tiles = s.tiles ∧ s'.mem = s.mem) ∧
      (u.st = .idle ∨ u.st = .opened ∧ u.holder ≠ some t.who →
        exec (.tseal fs x) s = .next (takeFault s t (.tseal fs x) (t.uniFault codePerm 0xFFF))) ∧
      ∃ s', exec (.tdrop fs x) s = .next s' ∧ Owes s s' t (.tdrop fs x) fs (.tileOp w 2) t.status ∧ s'.tiles = s.tiles ∧
        s'.mem = s.mem) ∧
    ∀ m o t x k, s.tileOp? m k = some o → s.teamAny m.uid = some t → tileMay s o = true → s.tiles.named o.ctx m.word = some x →
      let (home, who) := (s.tileHome x, Requester.core o.die o.core)
      s.coh.dead.contains (.die home) = false → s.mayGrant home who = true →
      let recorded (s' : State) : Prop :=
        s'.teams = s.teams ∧ (∃ p ∈ s'.ops, p.id = o.id ∧ p.kind = .tileOp m.word 3) ∧
        s'.coh.net = s.coh.net ++ [.grant ⟨home, who, m.uid, (s.seqOf home who).sent + 1, 0, who, false, false⟩]
      (k = 1 → s.writersOut m.uid m.word = false →
        ∃ s', exec (.sealReq m) s = .next s' ∧ recorded s' ∧ (∀ a, s'.mem.read a = s.coreByte o.die o.core a) ∧
          s'.queueCells o.die o.core = [] ∧
          s'.tiles.tiles = changed s.tiles.tiles x (fun v =>
            if v.st = .opened ∧ v.holder = some t.who then
              { v with
                st := .sealed, holder := none, owner := some o.die, seals := v.seals + 1, sealing := false, used := s.ticks }
            else { v with used := s.ticks })) ∧
      (k = 2 →
        ∃ s', exec (.dropReq m) s = .next s' ∧ recorded s' ∧ s'.mem = s.mem ∧
          s'.tiles.tiles = changed s.tiles.tiles x (fun v =>
            if v.copiesOf t.who = 0 then { v with used := s.ticks }
            else { v with
              refs := v.refs - 1, used := s.ticks
              copies := (v.copies.map fun c => if c.1 == t.who then (t.who, c.2 - 1) else c).filter fun c => c.2 != 0 }))

/-- R303, R304: `tsplit` replaces a tile by its two halves at a coordinate, each with the state, the holders and the counts
of the whole; `tfree` retires a tile that nobody else holds, once its owner's lines are in memory: its word goes stale. -/
def Sys2Proof.Claims.TilesAreSplitAndFreed : Prop :=
  ∀ s t,
    (s.curTeam = some t →
      (∀ d x k c u, t.mark = none → s.tileMail t.uid = false → TileAt s t (tileArg s t x) u →
        let kn := (val32 s t true 0 k).toNat
        let cn := (val32 s t true 0 c).toNat
        let i := Instr.tsplit d x k c
        (kn < u.lo.length → kn < u.sz.length →
          ((u.lo[kn]?).getD 0 < cn ∧ cn < (u.lo[kn]?).getD 0 + (u.sz[kn]?).getD 0 →
            exec i s = .next ((s.send (.splitReq ⟨t.uid, tileArg s t x⟩ (val32 s t true 0 k) (val32 s t true 0 c))).setTeam
              { t with status := .waiting (.tile t.ctx u.ix) })) ∧
          (¬ ((u.lo[kn]?).getD 0 < cn ∧ cn < (u.lo[kn]?).getD 0 + (u.sz[kn]?).getD 0) →
            exec i s = .next (takeFault s t i (t.uniFault codeBounds 0xFFF))))) ∧
      (∀ d x k c a b, t.mark.isSome = true → t.reply = [a, b] →
        exec (.tsplit d x k c) s = .next (s.setTeam ((t.writeUni d [a, b]).advance (.tsplit d x k c)))) ∧
      (∀ x u, t.mark = none → s.tileMail t.uid = false → TileAt s t (tileArg s t x) u →
        exec (.tfree x) s = .next ((s.send (.freeReq ⟨t.uid, tileArg s t x⟩)).setTeam
          { t with status := .waiting (.tile t.ctx u.ix) })) ∧
      ∀ x, t.mark.isSome = true → exec (.tfree x) s = .next (s.setTeam (t.advance (.tfree x)))) ∧
    ∀ m x, s.team? m.uid = some t → t.waitsTile = true → s.tiles.named t.ctx m.word = some x → AtItsHome s t x →
      s.tileOpsOn x = false → (x.st = .opened → x.holder = some t.who) →
      (∀ (k c : Word) n0 g0 n1 g1,
        let kn := k.toNat
        let lo := (x.lo[kn]?).getD 0
        let sz := (x.sz[kn]?).getD 0
        let t0 := { x with ix := n0, gen := g0, sz := x.sz.set kn (c.toNat - lo), waiters := [], hold := false, probed := [] }
        let t1 := { x with
          ix := n1, gen := g1, lo := x.lo.set kn c.toNat, sz := x.sz.set kn (lo + sz - c.toNat), waiters := [], hold := false
          probed := [] }
        kn < x.lo.length → kn < x.sz.length → lo < c.toNat → c.toNat < lo + sz →
        s.tiles.freeSlot x.ctx (Config.freeNat s.ticks 101) = some (n0, g0) →
        (s.putTile t0).tiles.freeSlot x.ctx (Config.freeNat s.ticks 102) = some (n1, g1) →
        n0 ≠ n1 → n0 ≠ x.ix → n1 ≠ x.ix → (∀ y, (s.dirSet y).length ≤ 14) →
        ∃ s' u0 u1, exec (.splitReq m k c) s = .next s' ∧ answered s s' x t [t0.word, t1.word] ∧ u0 ∈ s'.tiles.tiles ∧
          u0 = { t0 with used := u0.used } ∧ u1 ∈ s'.tiles.tiles ∧ u1 = { t1 with used := u1.used } ∧ s'.mem = s.mem ∧
          (∀ u ∈ s'.tiles.tiles, u.same x = true → u.live = false) ∧
          ∀ u, u.same x = false → u.same t0 = false → u.same t1 = false → (u ∈ s'.tiles.tiles ↔ u ∈ s.tiles.tiles)) ∧
      (x.refs = 0 → s.writersOut m.uid m.word = false →
        let out := writeOut ((noted s x).drainCore t.place.die t.place.core) t x
        (out.1 = false → exec (.freeReq m) s = .next (out.2.send (.freeReq m))) ∧
        (out.1 = true → ∃ s', exec (.freeReq m) s = .next s' ∧ answered s s' x t [] ∧
          (∀ a, s'.mem.read a = s.coreByte t.place.die t.place.core a) ∧
          s'.tiles.tiles = changed s.tiles.tiles x (fun u => { u.retire with used := s.ticks }) ∧
          ∀ u ∈ s'.tiles.tiles, u.same x = true → u.live = false))

/-- Buffers and tiles are declared; tenure is granted or waited for: the claims above together.
The model's own in it: DESIGN CHOICE, log entries 17, 21, 117; DEDUCED, log entries 36, 121. -/
def Obligations.TilesAreDeclaredAndOpened : Prop :=
  Sys2Proof.Claims.BuffersAndTilesAreDeclared ∧
  Sys2Proof.Claims.TileRequestsAreExamined ∧
  Sys2Proof.Claims.TileTenureIsGranted

/-- Tiles are sealed, dropped, split and freed: the claims above together.
The model's own in it: DESIGN CHOICE, log entries 17, 21. -/
def Obligations.TilesAreSealedAndSplit : Prop :=
  Sys2Proof.Claims.TilesAreSealedAndDropped ∧ Sys2Proof.Claims.TilesAreSplitAndFreed

/-! ### Matrix (12) -/

namespace Sys2Proof.Claims

/-- A handle named in a record: its entry, and the check of 08 R195 as one access of `size` bytes at an offset. -/
def SideAt (s : State) (t : Team) (i : Instr) (h : BitVec 12) (use : Use) (acc : Access) (off : Int) (size align : Nat)
    (e : HEnt) (s1 : State) : Prop :=
  ∃ ix, resolve s t (.idx h) = .ok ix e s1 ∧
    Req.check s1 { t, c := s1.ctxOf t, ix, e, uni := true, use, acc, size, align, lanes := [(0, off)], opc := instrOpc i } = none

/-- What `mwld` and `wsld` check of B and its scales (12 R327, R331): words, K and N. -/
def BAt (s : State) (t : Team) (slot : BitVec 3) (x sx : Src) (w sw : Word) (kn n : Nat) : Prop :=
  let sl := s.slot t slot.toNat
  w = val32 s t true 0 x ∧ sw = (if sx = .none then 0 else val32 s t true 0 sx) ∧ sl.elem ≠ 0 ∧ sl.elem ≠ 8 ∧
    ((sx = .none) ↔ sl.scaled = false) ∧ (s.tiles.named t.ctx w).isSome ∧ (sl.scaled = true → (s.tiles.named t.ctx sw).isSome) ∧
    packedGeo s t.ctx sl w sw = some ⟨kn, n⟩ ∧ kn ≠ 0 ∧ kn % 32 = 0 ∧ kn % sl.block = 0 ∧ kn ≤ (if sl.pair then 1024 else 2048)

/-- The tasks with a change to one alone. -/
def taskChanged (ts : List Task) (x : Task) (f : Task → Task) : List Task :=
  ts.map fun y => if y.die == x.die && y.order == x.order then f y else y

end Sys2Proof.Claims

/-- R311 to R313, R325: a record that passes the checks becomes a queued task under the die's next id (0xFFFF skipped), its
counter's entry kept when it names one; the id goes to d, and the flag counts till the task ends. -/
def Sys2Proof.Claims.TasksEnterTheQueue : Prop :=
  ∀ s t fs slot d (k : BitVec 6) p ent s1, s.curTeam = some t → t.flagFull fs = false →
    let i := Instr.menq fs slot d k
    let x := newTask s t (s.ctxOf t).part ((List.range 16).map fun j => t.sreg (k.toNat + j))
    x.row1 slot = true → x.row2 = true → x.row3 = true → (∀ w ∈ x.words, (s.tiles.named t.ctx w).isSome) →
    shapesOk s x = true →
    (x.cnt = false ∧ s1 = s ∧ ent = ⟨0⟩ ∨ x.cnt = true ∧ SideAt s t i x.chidx .sig .atomic x.coff 4 4 ent s1) →
    s.partOf t = some p → (p.cores[dieNo t.place.die]?).getD 0 ≠ 0 → queueUsed s p.id t.place.die < p.tqshare →
    ∃ s', exec i s = .next s' ∧ s'.mem = s1.mem ∧
      Owes s s' (t.spent.writeUni d [BitVec.ofNat 32 (s.nextTask t.place.die)]) i fs
        (.task t.place.die (s.nextTask t.place.die)) t.status ∧
      s'.task? t.place.die (s.nextTask t.place.die) = some { x with cntE := ent.raw } ∧ x.st = .queued ∧
      s'.nextTask t.place.die = if s.nextTask t.place.die + 1 = 0xFFFF then 0 else s.nextTask t.place.die + 1

/-- R317, R326, R333: waiting for a task, an acquire when it is over, and asking for its status; the fields of the status
word. -/
def Sys2Proof.Claims.TaskStatusIsReported : Prop :=
  (∀ s t x, s.curTeam = some t →
    let die := t.place.die
    let id := (val32 s t true 0 x).toNat % 2 ^ 16
    (∀ d, taskOver s die id = true →
      exec (.mwaitId d x) s = .next (s.setTeam ((t.acquireAll.writeUni d [statusOf s die id]).advance (.mwaitId d x)))) ∧
    (∀ d, taskOver s die id = false → exec (.mwaitId d x) s = .next (s.setTeam { t with status := .waiting (.task die id) })) ∧
    (∀ d, exec (.mquery d x) s = .next (s.setTeam ((t.writeUni d
      [statusOf s die id, ((s.task? die id).map (·.time)).getD 0]).advance (.mquery d x)))) ∧
    ∀ fs, t.flagFull fs = false →
      (taskOver s die id = false → ∃ s', exec (.mwaitFlag fs x) s = .next s' ∧ s'.mem = s.mem ∧
        Owes s s' t (.mwaitFlag fs x) fs (.taskWait die id) t.status) ∧
      (taskOver s die id = true → ∃ s', exec (.mwaitFlag fs x) s = .next s' ∧ s'.op? s.nextOp = none ∧ s'.mem = s.mem ∧
        ∃ t', s'.team? t.uid = some t' ∧ t'.pc = t.after (.mwaitFlag fs x) ∧ t'.lanes = t.lanes ∧ t'.s = t.s)) ∧
  ∀ x : Task,
    (x.status.extractLsb' 28 4).toNat = (match x.st with
      | .queued => 1 | .ready => 2 | .running => 3 | .done => 4 | .aborted => 5 | .faulted => 6 | .depfail => 7) ∧
    (x.status.extractLsb' 22 6).toNat = x.eng % 64 ∧ x.status.getLsbD 21 = x.nangrp ∧ x.status.getLsbD 20 = x.ovf ∧
    x.status.getLsbD 19 = x.parity ∧ x.status.getLsbD 18 = x.bheld ∧ (x.status.extractLsb' 16 2).toNat = x.bsrc ∧
    (x.status.extractLsb' 8 8) = (if x.st = .faulted then x.fcode else 0) ∧ x.status.setWidth 8 = (0 : BitVec 8)

/-- R313 to R317: a queued task whose dependences are met and whose operands nobody else holds open becomes ready; one with
a failed dependence ends DEPFAIL; a ready task that has an engine starts there; with its operands read, its partial is the
sum over the groups, rounded once per group; an element's merge adds it to C, or stores it with ZF, at its place alone; with
every merge done the task is DONE and its command ends.
The model's own in it: DESIGN CHOICE, log entry 52; DEDUCED, log entries 53, 56. -/
def Obligations.TasksRunAndMerge : Prop :=
  ∀ s die id x o, s.taskLive die id = some x → s.taskOf x.order = some x → s.op? x.order = some o → o.kind = .task x.die x.id →
    (x.st = .queued → x.away = false →
      (ctxAway s x.ctx = false → depOf s x (x.dep 0) = .met → depOf s x (x.dep 1) = .met →
        openElsewhere s x (opTeam s o).who = false →
        ∃ s', exec (.taskReady die id) s = .next s' ∧ s'.mem = s.mem ∧ s'.teams = s.teams ∧ s'.ops = s.ops ∧
          s'.mat.tasks = taskChanged s.mat.tasks x fun y => { y with st := .ready }) ∧
      (depOf s x (x.dep 0) = .fail ∨ depOf s x (x.dep 1) = .fail →
        ∃ s', exec (.taskReady die id) s = .next s' ∧ s'.op? x.order = none ∧ s'.mem = s.mem ∧
          ∀ y ∈ s'.mat.tasks, y.die = x.die → y.id = x.id → y.order = x.order → y.freed = true ∧ (y ∈ s.mat.tasks ∨
            y.st = .depfail))) ∧
    (∀ core s1, x.st = .ready → (readyTasks s die).find? (fun y => (pickEngine s y).isSome) = some x →
      pickEngine s x = some core → taskDead s x = none → startFails s x (opTeam s o).who = none →
      takeAll s o (opTeam s o).who x.ctx x.reads = .ok s1 →
      let held := x.bsrc == 1 || holdsB s1 x core
      let bad := x.bsrc == 1 && ((residNamed s1 x.die x.bref).map (·.bad)).getD false
      let f (y : Task) : Task := { y with st := .running, eng := core, start := s1.clk, bheld := held, parity := bad }
      exec (.taskDispatch die id) s = .next (runTask (s1.updTask x f) o (f x))) ∧
    (∀ u b nan s1 rows s2 recs s3, x.st = .running → x.computed = false → x.parity = false → s.opHeld o.id = false →
      s.tiles.named x.ctx x.tileC = some u → readsUnwritten s3 x = false →
      let n := u.sz.headD 0
      let sl := x.slotA
      let w := elemBits sl.elem
      taskB s o x n = .ok b nan s1 → tileRows s1 o x.ctx x.tileA (x.k0 * w / 8) (x.kn * w / 8) = .ok rows s2 →
      (if sl.scaled then
        tileRows s2 o x.ctx x.scaleA (x.k0 / sl.block * sl.recBytes) (x.kn / sl.block * sl.recBytes) else .ok [] s2) = .ok recs s3 →
      let ra := (withRecs rows recs).map fun r => alignRowA sl x.kn r.1 r.2
      let p := partialOf ra b x.kn n
      ∃ s', exec (.taskDispatch die id) s = .next s' ∧ s'.mem = s3.mem ∧
        s'.mat.tasks = taskChanged s3.mat.tasks x fun y =>
          { y with
            computed := true, nangrp := nan || ra.any fun r => r.any (·.nan), ovf := p.any (·.ovf)
            merges := p.mapIdx fun k a => (k, BitVec.ofNat 32 a.v) }) ∧
    (∀ u line k v base off str pa s1, x.st = .running → x.computed = true → s.opHeld o.id = false → s.uses = [] →
      x.die = o.die → s.tiles.named x.ctx x.tileC = some u →
      let n := Nat.max 1 (u.sz.headD 1)
      x.merges.filter (fun m => m.1 / n == line / ((n + 31) / 32) && m.1 % n / 32 == line % ((n + 31) / 32)) = [(k, v)] →
      tilePlace s u = (base, off, str) →
      let at_ : Int := off + (k % n : Nat) * (str.getD 0 0) + (k / n : Nat) * (str.getD 1 0)
      enginePart s o (engReq s o 0xFFF (tileEntry base) true 4) at_ 4 = .at_ pa s1 → (x.zf = false → s1.poisoned pa 4 = false) →
      id = x.id → die = x.die →
      ∃ s', exec (.partialMerge die id line) s = .next s' ∧
        s'.mem.readLE pa 4 = (if x.zf then v.toNat else (fmt32.add ctlRne (s1.mem.readLE pa 4) v.toNat).v % 2 ^ 32) ∧
        (∀ a, a < pa ∨ pa + 4 ≤ a → s'.mem.read a = s1.mem.read a) ∧
        ∀ y ∈ s'.mat.tasks, y.die = x.die → y.order = x.order → k ∉ y.merges.map (·.1)) ∧
    (x.st = .running → x.computed = true → x.merges = [] → s.opHeld o.id = false → x.cnt = false → x.lp = false →
      s.spoiledOp o.id = false → (∀ p ∈ s.ops, ∀ d j, p.kind ≠ .taskWait d j) →
      ∃ s', exec (.taskComplete die id) s = .next s' ∧ s'.op? x.order = none ∧ s'.mem = s.mem ∧
        (∀ y ∈ s'.mat.tasks, y.die = x.die → y.id = x.id → y.order = x.order → y.freed = true ∧ (y ∈ s.mat.tasks ∨ y.st = .done)) ∧
        ∀ t, s.team? o.uid = some t → ∃ t', s'.team? o.uid = some t' ∧ t'.flags = (t.dropFlag o.flag).flags ∧
          t'.lanes = t.lanes ∧ t'.s = t.s ∧ t'.pc = t.pc)

/-- R319 to R323, R327, R328, R331, R332: weights held in an engine or stored in images: what loads them, what releases them,
what an error spoils, what the calendar tells. -/
def Sys2Proof.Claims.WeightsAreHeldAndStored : Prop :=
  ∀ s,
    (∀ t fs slot d x sx w sw kn n, s.curTeam = some t → t.flagFull fs = false → BAt s t slot x sx w sw kn n →
      let die := t.place.die
      let used := (s.mat.resid.filter fun r => r.die == die && r.live).map (·.entry)
      let i := Instr.mwld fs slot d x sx
      (∀ e, (residAt s die t.place.core).isNone → pickFree used 64 (Config.freeNat s.ticks 400) = some e →
        ∃ s' r, exec i s = .next s' ∧ Owes s s' t.spent i fs (.mwld e d w) t.status ∧ s'.mem = s.mem ∧
          r ∈ s'.mat.resid ∧ r.die = die ∧ r.core = t.place.core ∧ r.entry = e ∧ r.uid = t.uid ∧ r.word = w ∧ r.scale = sw ∧
          r.kn = kn ∧ r.n = n ∧ r.live = true ∧ r.ready = false) ∧
      ((residAt s die t.place.core).isSome ∨ pickFree used 64 (Config.freeNat s.ticks 400) = none →
        exec i s = .next (s.setTeam ((t.spent.writeUni d [0xFFFF]).advance i)))) ∧
    (∀ t fs slot img x sx w sw kn n p g, s.curTeam = some t → t.flagFull fs = false → BAt s t slot x sx w sw kn n →
      s.grid? t.grid = some g → g.lr.wphase = true → s.partOf t = some p →
      let m := (kn + 255) / 256 * (if (s.slot t slot.toNat).pair then 2 else 1)
      p.imglo ≤ img.toNat → img.toNat + m ≤ p.imghi + 1 → img.toNat + m ≤ 8192 →
      ∃ s', exec (.wsld fs slot img x sx) s = .next s' ∧ s'.mem = s.mem ∧ s'.mat = s.mat ∧
        Owes s s' t.spent (.wsld fs slot img x sx) fs (.wsld img.toNat w sw (s.slotWord t slot.toNat)) t.status) ∧
    (∀ t x r, s.curTeam = some t →
      let id := (val32 s t true 0 x).toNat % 2 ^ 16
      (residNamed s t.place.die id = some r → r.uid = t.uid → firstLoad s r = false →
        ∃ s', exec (.mwrel x) s = .next s' ∧ s'.curTeam = some (t.advance (.mwrel x)) ∧ s'.mem = s.mem ∧
          { r with releasing := true } ∈ s'.mat.resid) ∧
      (residNamed s t.place.die id = none → exec (.mwrel x) s = .next (s.setTeam (t.advance (.mwrel x))))) ∧
    (∀ t d e, s.curTeam = some t → (val32 s t true 0 e).toNat ≤ 15 →
      let c := (s.mat.cal[(val32 s t true 0 e).toNat]?).getD ⟨0, 0, 0⟩
      exec (.wsinfoCal d e) s = .next (s.setTeam ((t.writeUni d
        [BitVec.ofNat 32 c.start, BitVec.ofNat 32 (c.len % 2 ^ 13 + c.group % 16 * 2 ^ 16)]).advance (.wsinfoCal d e)))) ∧
    (∀ t d, s.curTeam = some t → exec (.wsinfoNow d) s = .next (s.setTeam ((t.writeUni d
        [BitVec.ofNat 32 ((s.clock t.place.die).toNat % 2 ^ 20)]).advance (.wsinfoNow d)))) ∧
    (∀ o e d w r b nan s1, s.op? o.id = some o → o.kind = .mwld e d w →
      s.mat.resid.find? (fun r => r.die == o.die && r.entry == e && r.live) = some r → engineIdle s o.die r.core = true →
      s.opHeld o.id = false → loadResid s o r = .ok b nan s1 →
      ∃ s', exec (.mwldComplete o.id) s = .next s' ∧
        Ended s1 s' o (fun t => (t.writeUni d [BitVec.ofNat 32 (r.gen.toNat * 64 + r.entry)]).acquireAll) ∧
        s'.mem = s1.mem ∧ { r with cells := b, nan, ready := true } ∈ s'.mat.resid) ∧
    (∀ die entry r, s.mat.resid.find? (fun r => r.die == die && r.entry == entry && r.live && r.releasing) = some r →
      residUsed s r = false → (∀ o ∈ s.ops, ∀ d w, o.die = die → o.kind ≠ .mwld entry d w) →
      ∃ s', exec (.residencyRelease die entry) s = .next s' ∧ s'.mem = s.mem ∧
        { r with live := false, gen := r.gen + 1, ready := false, cells := [] } ∈ s'.mat.resid ∧
        ∀ q ∈ s'.mat.resid, q.die = die → q.entry = entry → q.live = false) ∧
    (∀ o img w sw slot g s1 b s2, s.op? o.id = some o → o.kind = .wsld img w sw slot → s.opHeld o.id = false →
      let sl := Slot.ofWord slot
      packedGeo s o.ctx sl w sw = some g → (s.tiles.tiles.any fun u => u.engines.contains o.id) = false →
      deadHomeOf s o.ctx ([w] ++ if sl.scaled then [sw] else []) = none →
      takeAll s o (opTeam s o).who o.ctx ([w] ++ if sl.scaled then [sw] else []) = .ok s1 →
      loadA s1 o o.ctx w sw sl g.s0 = .ok b s2 →
      ∃ s', exec (.wsldComplete o.id) s = .next s' ∧ Ended s2 s' o Team.acquireAll ∧ s'.mem = s2.mem ∧
        (∀ y ∈ makeImages o.die img g.s0 g.s1 sl.pair b, y ∈ s'.mat.images) ∧ ∀ h ∈ s'.mat.held, h.die ≠ o.die) ∧
    (∀ die, exec (.refreshWindowEnd die) s = .next s) ∧
    (∀ die core, ∃ s', exec (.cimParityError die core) s = .next s' ∧ s'.mem = s.mem ∧ s'.teams = s.teams ∧ s'.ops = s.ops ∧
      (∀ h ∈ s'.mat.held, ¬ (h.die = die ∧ h.core = core)) ∧
      (∀ r ∈ s'.mat.resid, r.die = die → r.core = core → r.live = true → r.away = false → r.bad = true) ∧
      ∀ x ∈ s'.mat.tasks, x.die = die → x.eng = core → x.st = .running → x.computed = false → x.parity = true) ∧
    ∀ die image, (∀ x ∈ s.mat.tasks, ¬ (x.die = die ∧ x.st = .running ∧ x.bsrc = 2)) →
      let spoilt (y : Image) : Image := if y.die == die && y.n == image then { y with bad := true } else y
      exec (.weightStoreUncorrectableError die image) s =
        .next { s with mat := { s.mat with images := s.mat.images.map spoilt } }

/-- R310, R329, R330: `macz` makes the elements of a C that its team holds open +0.0; `macrd` reads an element of a row of C
for each eligible lane, +0.0 beyond the row. -/
def Sys2Proof.Claims.AccumulatorsAreClearedAndRead : Prop :=
  ∀ s,
    (∀ t fs x u, s.curTeam = some t → t.flagFull fs = false → TileAt s t (val32 s t true 0 x) u → isC s u = true →
      u.st = .opened → u.holder = some t.who →
      ∃ s', exec (.macz fs x) s = .next s' ∧ s'.mem = s.mem ∧
        Owes s s' t.spent (.macz fs x) fs (.macz (val32 s t true 0 x)) t.status) ∧
    (∀ o w u base off str bs s1, s.op? o.id = some o → o.kind = .macz w → s.opHeld o.id = false →
      s.tiles.named o.ctx w = some u → tilePlace s u = (base, off, str) →
      zeroRows o base (4 * u.sz.headD 0) s ((List.range (u.sz.getD 1 1)).map fun (r : Nat) => off + (r : Int) * str.getD 1 0) =
        .ok bs s1 → s1.spoiledOp o.id = false →
      ∃ s', exec (.maczComplete o.id) s = .next s' ∧ Ended s1 s' o Team.acquireAll ∧ s'.mem = s1.mem) ∧
    (∀ (o : Op) base n off s1 pa, 0 < n → n ≤ 128 → s.uses = [] → ((tileEntry base).va off).toNat % 128 + n ≤ 128 →
      enginePart s o (engReq s o 0xFFF (tileEntry base) true n) off n = .at_ pa s1 →
      ∃ s2, zeroRows o base n s [off] = .ok [] s2 ∧ (∀ k < n, s2.mem.read (pa + k) = 0) ∧
        ∀ a, a < pa ∨ pa + n ≤ a → s2.mem.read a = s1.mem.read a) ∧
    ∀ t g fs raw slot d x row col u base off str G t0, s.curTeam = some t → t.flagFull fs = false → allocOk t d [] = true →
      TileAt s t (val32 s t true 0 x) u → isC s u = true → u.st ≠ .idle → (u.st = .opened → u.holder = some t.who) →
      let i := Instr.macrd g fs raw slot d x row col
      let sl := s.slot t slot.toNat
      let r := (val32 s t true 0 row).toNat
      let c := (val32 s t true 0 col).toNat
      let m := t.eligible g
      r < u.sz.getD 1 0 → tilePlace s u = (base, off, str) → (raw = true ∨ sl.elem ≠ 0) →
      let at_ (L : Nat) : Int := off + ((c + L : Nat) : Int) * str.getD 0 0 + (r : Int) * str.getD 1 0
      let ls := (macrdLanes t (if raw then none else some sl) m).filter fun L => c + L < u.sz.headD 0
      let q : Req :=
        { t, c := s.ctxOf t, ix := 0xFFF, e := tileEntry base, uni := false, use := .ld, acc := .read, size := 4, align := 1,
          lanes := ls.map fun L => (L, at_ L), opc := instrOpc i, tile := u.st == .sealed }
      gatherAll q (fun _ => []) (fun _ _ => false) { s } q.lanes = .got G → G.left = [] →
      let v (L : Nat) : FVal :=
        if L < t.nlanes then fmt32.val (fmt32.daz (fctl t.ctl.mode 0) (elemOf G.data L)) else .num ⟨false, 0, 0⟩
      let res (L : Nat) : LaneRes := if raw then ⟨[BitVec.ofNat 32 (elemOf G.data L)], 0⟩ else macrdLane t sl v L
      endFlags t false (m.lanes t.nlanes) (fun L => (res L).f) (if !raw && sl.eround == 2 then t.stepRng m 1 else t) = .ok t0 →
      s.behindSig t.uid G = false →
      (raw = true → t0 = t) ∧
      ∃ s', exec i s = .next s' ∧ Marks (s.ctxOf t) s.mem s'.mem ∧
        Owes s s' t0 i fs (.load ⟨d, (m.lanes t.nlanes).map fun L => (L, (res L).ws)⟩ G.remote)
          (if G.remote then .waiting (.remote s.nextOp) else t.status) ∧
        ∀ L, u.sz.headD 0 ≤ c + L → elemOf G.data L = 0

/-- Tile tasks enter the queue and report their status: the claims above together. -/
def Obligations.TasksAreQueuedAndReported : Prop :=
  Sys2Proof.Claims.TasksEnterTheQueue ∧ Sys2Proof.Claims.TaskStatusIsReported

/-- Weights held and stored, accumulators cleared and read: the claims above together.
The model's own in it: DESIGN CHOICE, log entries 9, 17; DEDUCED, log entries 46, 53. -/
def Obligations.WeightsAndAccumulators : Prop :=
  Sys2Proof.Claims.WeightsAreHeldAndStored ∧ Sys2Proof.Claims.AccumulatorsAreClearedAndRead

/-! ### Copies, groups and collectives (13) -/

namespace Sys2Proof.Claims

/-- A descriptor read as one plain load of the team (13 R338). -/
def RecordAt (s : State) (t : Team) (i : Instr) (r : RecRef) (size align : Nat) (bs : List Byte) (s1 : State) : Prop :=
  ∃ q G s0, resolve s t r.h = .ok q.ix q.e s0 ∧
    q = { t, c := s0.ctxOf t, ix := q.ix, e := q.e, uni := true, use := .ld, acc := .read, size, align,
          lanes := [(0, memOffset s0 t true 0 (recMem r))], opc := instrOpc i } ∧
    q.check s0 = none ∧ gatherAll q (fun _ => []) (fun _ _ => false) { s := s0 } q.lanes = .got G ∧ G.left = [] ∧
    s0.behindSig t.uid G = false ∧ bs = ((G.data.head?).map (·.2)).getD [] ∧ s1 = G.s.unpin t.uid

/-- A side of a copy that passes its checks (13 R339, R340): a tile, a circular buffer, or a handle. -/
def CopySideAt (s : State) (t : Team) (i : Instr) (x : CopyDesc) (dst : Bool) (side : CopySide) (off : Int) (str : List Int)
    (s1 : State) : Prop :=
  let ten := if dst then x.dten else x.sten
  let tile := if dst then x.dtile else x.stile
  let cb := if dst then x.dcb else x.scb
  let h := if dst then x.dhidx else x.shidx
  let o := if dst then x.doff else x.soff
  let st := if dst then x.dstr else x.sstr
  (ten = true ∧ s1 = s ∧ ∃ u base, s.tiles.named t.ctx tile = some u ∧ tilePlace s u = (base, off, str) ∧ side = .tile tile base) ∨
  (ten = false ∧ off = 0 ∧ str = [] ∧ ∃ k ix e, cb = some k ∧ resolve s t (.idx (t.cb k).h) = .ok ix e s1 ∧ side = .cb k e.soff) ∨
  (ten = false ∧ cb = none ∧ off = o ∧ str = st.take x.ndim ∧
    let ex := extentOf o x.bytes x.extent (st.take x.ndim)
    ∃ e, side = .mem h e.raw ∧
      SideAt s t i h (if dst then .engW else .engR) (if dst then .engWrite else .engRead) ex.lo ex.size 1 e s1)

/-- A side of a copy that a handle or a tile names, with the entry by which its elements are reached. -/
def SideEntry (side : CopySide) (h : BitVec 12) (e : HEnt) : Prop :=
  side = .mem h e.raw ∨ ∃ w base, side = .tile w base ∧ h = 0xFFF ∧ e = tileEntry base

/-- What a copy or fill needs of its team's partition: an engine on the die and room in its queue (13 R334, R348). -/
def CopyRoom (s : State) (t : Team) : Prop :=
  ∃ p, s.partOf t = some p ∧ p.copyEngines t.place.die ≠ 0 ∧ (copyQueue s p.id t.place.die).length < p.cqshare

/-- The counter of a copy, with its entry. -/
def CountAt (s : State) (t : Team) (i : Instr) (x : CopyDesc) (cnt : Option (BitVec 12 × Nat × Word)) (s1 : State) : Prop :=
  x.cnt = false ∧ cnt = none ∧ s1 = s ∨
  x.cnt = true ∧ ∃ e, SideAt s t i x.chidx .sig .atomic x.coff 4 4 e s1 ∧ cnt = some (x.chidx, e.raw, BitVec.ofNat 32 x.coff)

end Sys2Proof.Claims

/-- R338 to R340, R345, R346: a descriptor that passes its checks becomes an outstanding copy or fill from its first element;
the team goes on. -/
def Sys2Proof.Claims.CopiesAndFillsAreAccepted : Prop :=
  ∀ s t fs scope r bs s1, s.curTeam = some t → t.flagFull fs = false →
    let x := copyDesc bs
    let tilesFit : Prop := ∀ w, (x.sten = true ∧ w = x.stile ∨ x.dten = true ∧ w = x.dtile) →
      ∃ u, s1.tiles.named t.ctx w = some u ∧ tileFits s1 x u = true
    let cmd (src : CopySide) (soff : Int) (sstr : List Int) (dst : CopySide) (doff : Int) (dstr : List Int) cnt : CopyCmd :=
      { esize := x.esize, ext := x.extent, src, soff, sstr, dst, doff, dstr, cnt, scope, pos := 0, started := false, srcSlot := 0,
        dstSlot := 0 }
    cbRowOk t x = true → tilesFit →
    (∀ src soff sstr s2 dst doff dstr s3 cnt s4,
      let i := Instr.dcopy fs scope r
      RecordAt s t i r 256 8 bs s1 → x.wf none = true → CopySideAt s1 t i x false src soff sstr s2 →
      CopySideAt s2 t i x true dst doff dstr s3 → sideAligned x.bytes src soff sstr = true →
      sideAligned x.bytes dst doff dstr = true → CountAt s3 t i x cnt s4 → CopyRoom s t →
      ∃ s', exec i s = .next s' ∧ Marks (s.ctxOf t) s.mem s'.mem ∧
        Owes s s' t.spent i fs (.copy (cmd src soff sstr dst doff dstr cnt)) t.status) ∧
    ∀ wide v dst doff dstr s3 cnt s4,
      let i := Instr.dfill fs scope wide r v
      let src : CopySide :=
        .value (if wide then leBytes 8 (val64 s1 t true 0 false v).toNat else leBytes 4 (val32 s1 t true 0 v).toNat)
      RecordAt s t i r 256 8 bs s1 → x.wf (some wide) = true → CopySideAt s1 t i x true dst doff dstr s3 →
      sideAligned x.bytes dst doff dstr = true → CountAt s3 t i x cnt s4 → CopyRoom s t →
      ∃ s', exec i s = .next s' ∧ Marks (s.ctxOf t) s.mem s'.mem ∧
        Owes s s' t.spent i fs (.copy (cmd src 0 [] dst doff dstr cnt)) t.status

/-- R341 to R345, R348: an idle engine starts a command, with its copy of a source tile; the engine takes the elements in walk
order, dimension 0 innermost, each from and to base offset plus coordinates times strides, a fill from its value; a circular
buffer's side waits for a filled or a free slot; after the last element the command ends, with its counter, if it has one,
counted: the word at the counter is one higher and no other byte changes. -/
def Sys2Proof.Claims.CopiesWalkTheirElements : Prop :=
  (∀ s o c p, s.op? o.id = some o → o.kind = .copy c → c.started = false →
    s.part? (s.ctxOf (opTeam s o)).part = some p → copiesRunning s p.id o.die < p.copyEngines o.die →
    p.id = (s.ctxOf (opTeam s o)).part →
    (∀ w b, c.dst = .tile w b → ∃ u, s.tiles.named o.ctx w = some u ∧ u.st = .opened ∧ u.holder = some (opTeam s o).who) →
    ((∀ w b, c.src ≠ .tile w b) → ∃ s', exec (.copyStart o.id) s = .next s' ∧ s'.mem = s.mem ∧ s'.teams = s.teams ∧
      s'.op? o.id = some { o with kind := .copy { c with started := true } }) ∧
    ∀ w b u s1, c.src = .tile w b → s.tiles.named o.ctx w = some u → s.coh.dead.contains (.die (s.tileHome u)) = false →
      engineTake s (opTeam s o).who [u] o.id = .ok s1 →
      ∃ s', exec (.copyStart o.id) s = .next s' ∧ s'.mem = s.mem ∧ s'.tiles = s1.tiles ∧
        s'.op? o.id = some { o with kind := .copy { c with started := true } }) ∧
  (∀ s o c c' s1 s2, s.op? o.id = some o → o.kind = .copy c → c.started = true → s.opHeld o.id = false →
    copyRun o (c.ext.foldl (· * ·) 1 - c.pos) s c = .go c' s1 → s1.spoiledOp o.id = false →
    let walked := s1.updOp o.id fun p => { p with kind := .copy c' }
    (c'.cnt = none ∧ s2 = walked ∨ ∃ h e off, c'.cnt = some (h, e, off) ∧ countUp walked o h ⟨e⟩ off.toNat = .ok [] s2) →
    ∃ s', exec (.copyComplete o.id) s = .next s' ∧ Ended s2 s' o Team.acquireAll ∧ s'.mem = s2.mem) ∧
  (∀ s (o : Op) h e (off pa : Nat) s1, s.uses = [] →
    let q : Req := { engReq s o h e false 4 with acc := .atomic }
    enginePart s o q off 4 = .at_ pa s1 → (∀ k b, k < 4 → openByte s1 q ((off + k : Nat) : Int) (pa + k) b = b) →
    let word (m : Memory) : Nat := leNat ((List.range 4).map fun k => m.read (pa + k))
    ∃ s2, countUp s o h e off = .ok [] s2 ∧ word s2.mem = (word s1.mem + 1) % 2 ^ 32 ∧
      ∀ a, a < pa ∨ pa + 4 ≤ a → s2.mem.read a = s1.mem.read a) ∧
  (∀ s (o : Op) c g f bs s1 s2,
    (c.src = .value bs ∧ s1 = s ∨ ∃ h e, SideEntry c.src h e ∧
      entryGet s o h e (walkOff c.soff c.sstr (walkCoords c.ext c.pos)) (2 ^ c.esize) = .ok bs s1) →
    SideEntry c.dst g f → entryPut s1 o g f (walkOff c.doff c.dstr (walkCoords c.ext c.pos)) bs = .ok [] s2 →
    copyElem s o c = .go { c with pos := c.pos + 1 } s2) ∧
  (∀ s (o : Op) c t k base, s.teamAny o.uid = some t →
    (c.src = .cb k base → c.srcSlot = 0 → (t.cb k).filled = 0 → copyElem s o c = .wait c s) ∧
    ∀ h e, SideEntry c.src h e → c.dst = .cb k base → c.dstSlot = 0 → (t.cb k).free = 0 → copyElem s o c = .wait c s) ∧
  ∀ (e0 : Nat) es p, 0 < e0 → walkCoords (e0 :: es) (p + 1) =
    if p % e0 + 1 < e0 then (p % e0 + 1) :: walkCoords es (p / e0) else 0 :: walkCoords es (p / e0 + 1)

/-- R349 to R351: `grp.make` joins a forming group, or begins one, and holds its team until all members have joined; then all
receive the group's word. `grp.info` gives rank and size, `grp.free` ends a membership. -/
def Sys2Proof.Claims.GroupsForm : Prop :=
  ∀ s t, s.curTeam = some t →
    (∀ d key n rank p,
      let i := Instr.grpMake d key n rank
      let k := val32 s t true 0 key
      let m := (val32 s t true 0 n).toNat
      let r := (val32 s t true 0 rank).toNat
      t.mark = none → s.partOf t = some p → p.hasColl t.place.die = true → 2 ≤ m → m ≤ 65536 → r < m →
      memberships s t.uid < 16 →
      (s.eng.forming.find? (fun f => f.ctx == t.ctx && f.key == k) = none →
        groupTableFull s t.ctx = false →
        ∃ s', exec i s = .next s' ∧ s'.curTeam = some { t with status := .waiting (.group k) } ∧ s'.mem = s.mem ∧
          s'.eng.forming = s.eng.forming ++ [⟨t.ctx, k, m, [(t.uid, r)]⟩]) ∧
      ∀ f, s.eng.forming.find? (fun f => f.ctx == t.ctx && f.key == k) = some f → f.n = m →
        (∀ x ∈ f.members, x.1 ≠ t.uid ∧ x.2 ≠ r) →
        (groupTableFull s t.ctx = false → ∃ s', exec i s = .next s' ∧ s'.mem = s.mem ∧
          s'.curTeam = some { t with status := .waiting (.group k) } ∧
          { f with members := f.members ++ [(t.uid, r)] } ∈ s'.eng.forming) ∧
        (groupTableFull s t.ctx = true → exec i s = .next (takeFault s t i (t.uniFault codeBounds 0xFFF)))) ∧
    (∀ d key n rank w, t.mark.isSome = true → t.reply = [w] → exec (.grpMake d key n rank) s =
      .next (s.setTeam ((t.writeUni d [w]).advance (.grpMake d key n rank)))) ∧
    (∀ x g r, s.groupOf t.ctx (val32 s t true 0 x) = some g → g.rankOf t.uid = some r →
      (∀ d, exec (.grpInfo d x) s = .next (s.setTeam ((t.writeUni d [BitVec.ofNat 32 r,
        BitVec.ofNat 32 g.n]).advance (.grpInfo d x)))) ∧
      (groupBusy s t.uid g.ix = false → ∃ s', exec (.grpFree x) s = .next s' ∧ s'.curTeam = some (t.advance (.grpFree x)) ∧
        s'.mem = s.mem ∧ ∀ g' ∈ s'.eng.groups, g'.same g = true → g' ∈ s.eng.groups.map fun h =>
          if (r :: h.left).length = h.members.length ∧ s.groupBusy g = false then
            { h with members := [], left := [], gen := h.gen + 1 }
          else { h with left := r :: h.left })) ∧
    ∀ f g, s.eng.forming.find? (fun x => x.ctx == f.ctx && x.key == f.key) = some f → f.members.length = f.n →
      formGroup s f = some g → (f.members.map (·.1)).Nodup →
      ∃ s', exec (.groupFormed f.ctx f.key) s = .next s' ∧ s'.mem = s.mem ∧ g ∈ s'.eng.groups ∧ g.members = f.members ∧
        g.n = f.n ∧ (∀ x ∈ s'.eng.forming, ¬ (x.ctx = f.ctx ∧ x.key = f.key)) ∧
        ∀ m ∈ f.members, ∀ u, s.team? m.1 = some u →
          s'.team? m.1 = some { u with status := .running, mark := some 1, reply := [g.word] }

/-- R353 to R356: a collective is issued with its sides, and runs once every member has issued its part and the parts agree:
each member's destination gets the form's bytes, and all commands end. `.allred` gives every rank, and `.redscat` each rank its
block, the reduction of each element over the ranks: for floating types the fold in order of rank, packed halves in FP32 and
rounded once; for integer types the sum, the least or the greatest, whatever the order.
The model's own in it: DEDUCED, log entries 38, 86. -/
def Obligations.CollectivesRun : Prop :=
  (∀ s t fs form op ty src dst grp hs hd (n : Word) g rank se s1 de s2, s.curTeam = some t → t.flagFull fs = false →
    let i := Instr.coll fs form op ty src dst grp hs hd n
    s.groupOf t.ctx (val32 s t true 0 grp) = some g → g.rankOf t.uid = some rank →
    let e := CollType.bytes ty
    let sb := (collBytes form g.n rank (n.toNat * e)).1
    let db := (collBytes form g.n rank (n.toNat * e)).2
    let so := (val32 s t true 0 src).toNat
    let dn := (val32 s t true 0 dst).toNat
    (sb ≠ 0 → (se.kind = kGlobal ∨ se.kind = kScratch) ∧ se.right rR = true) →
    (db ≠ 0 → (de.kind = kGlobal ∨ de.kind = kScratch) ∧ de.right rW = true) → so % e = 0 → dn % e = 0 →
    (∃ x sa y sb', resolve s t (.idx hs) = .ok x se sa ∧ resolve sa t (.idx hd) = .ok y de sb' ∧
      (if sb = 0 then s1 = sb' else ∃ e', SideAt sb' t i hs .engR .engRead so sb 1 e' s1) ∧
      if db = 0 then s2 = s1 else ∃ e', SideAt s1 t i hd .engW .engWrite dn db 1 e' s2) →
    ∃ s', exec i s = .next s' ∧ Owes s s' t.spent i fs (.coll g.ix (countOf g.nextColl t.uid)) t.status ∧ s'.mem = s2.mem ∧
      ⟨t.ctx, g.ix, countOf g.nextColl t.uid, t.uid, rank, some s.nextOp, form, op, ty, n.toNat, hs, hd, se.raw, de.raw, so, dn⟩ ∈
        s'.eng.parts) ∧
  (∀ s ctx group k g srcs s1 s2,
    let ps := collParts s ctx group k
    s.eng.groups.find? (fun g => g.ctx == ctx && g.ix == group) = some g → ps ≠ [] → missedBy g g.nextColl k = false →
    reachedBy g g.nextColl k = true → (ps.any fun p => (p.op.map s.opHeld).getD false) = false → collAgree g.n ps = true →
    collReads g.n s ps [] = .ok (srcs, s1) → collWrites s1 (ps.map fun p => (p, collResult p g.n srcs)) = .ok s2 →
    (∀ id, s2.spoiledOp id = false) →
    ∃ s', exec (.collComplete ctx group k) s = .next s' ∧ s'.mem = s2.mem ∧
      (∀ p ∈ ps, p ∉ s'.eng.parts ∧ ∀ id, p.op = some id → s'.op? id = none)) ∧
  (∀ (ty : IType) xs, xs ≠ [] → (∀ x ∈ xs, x < 2 ^ IType.width ty) → ty.packed = false →
    collReduce .add (.int ty) xs = xs.sum % 2 ^ IType.width ty ∧
    (∀ ys, List.Perm xs ys → collReduce .min (.int ty) ys = collReduce .min (.int ty) xs) ∧
    collReduce .min (.int ty) xs ∈ xs ∧ collReduce .max (.int ty) xs ∈ xs ∧
    ∀ x ∈ xs, IType.elem ty (collReduce .min (.int ty) xs) 0 ≤ IType.elem ty x 0 ∧
      IType.elem ty x 0 ≤ IType.elem ty (collReduce .max (.int ty) xs) 0) ∧
  (∀ red (ty : FType) x xs, let f := if ty.packed then fmt32 else FType.fmt ty
    let step (a b : Nat) : Nat := match red with
      | .add => (f.add ctlRne a b).v
      | .min => (f.minmax ctlRne false a b).v
      | .max => (f.minmax ctlRne true a b).v
    (ty.packed = false → collReduce red (.flt ty) (x :: xs) = xs.foldl step x) ∧
    ∀ k < 2, ty.packed = true → natField (collReduce red (.flt ty) (x :: xs)) (16 * k) 16 =
      let wide (y : Nat) : Nat := ((FType.fmt ty).convert fmt32 ctlRne (natField y (16 * k) 16)).v
      (fmt32.convert (FType.fmt ty) ctlRne ((xs.map wide).foldl step (wide x))).v) ∧
  (∀ p n srcs, let e := CollType.bytes p.ty
    ∀ base, (p.form = .allred ∧ base = 0 ∨ p.form = .redscat ∧ base = p.rank * p.cnt) →
    (collResult p n srcs).length = p.cnt * e ∧ ∀ i < p.cnt, elemAt (collResult p n srcs) e i =
      collReduce p.red p.ty (srcs.map fun b => elemAt b e (base + i)) % 2 ^ (8 * e)) ∧
  ∀ p n srcs, (p.form = .allgather → collResult p n srcs = srcs.flatten) ∧
    (p.form = .alltoall → collResult p n srcs =
      (srcs.map fun b => (b.drop (p.rank * (p.cnt * CollType.bytes p.ty))).take (p.cnt * CollType.bytes p.ty)).flatten) ∧
    (p.form = .p2p → n = 2 → p.rank = 1 → collResult p n srcs = (srcs.head?).getD [])

/-- R357: an arrival at a group's barrier makes the core's earlier stores coherent memory's and counts the member's generation;
`gbar.sync` waits for it, `gbar.arv` owes it to a flag; when every member has arrived, each in the same form, all go on. -/
def Sys2Proof.Claims.GroupBarriers : Prop :=
  (∀ s t x g r, s.curTeam = some t → s.groupOf t.ctx (val32 s t true 0 x) = some g → g.rankOf t.uid = some r →
    s.readsOut t.uid = false → s.sigsOut t.uid = false →
    let k := countOf g.nextBar t.uid
    (t.mark = none → ∃ s', exec (.gbarSync x) s = .next s' ∧ (∀ a, s'.mem.read a = s.coreByte t.place.die t.place.core a) ∧
      s'.curTeam = some { t.spent with mark := some (BitVec.ofNat 32 k), status := .waiting (.gbar g.ix k) } ∧
      ⟨t.ctx, g.ix, k, t.uid, none⟩ ∈ s'.eng.barArr) ∧
    ∀ fs, t.flagFull fs = false → ∃ s', exec (.gbarArv fs x) s = .next s' ∧
      (∀ a, s'.mem.read a = s.coreByte t.place.die t.place.core a) ∧
      Owes s s' t.spent (.gbarArv fs x) fs (.gbar g.ix k) t.status ∧ ⟨t.ctx, g.ix, k, t.uid, some s.nextOp⟩ ∈ s'.eng.barArr) ∧
  (∀ s t x, s.curTeam = some t → t.mark.isSome = true → t.reply = [1] →
    exec (.gbarSync x) s = .next (s.setTeam (t.acquireAll.advance (.gbarSync x)))) ∧
  ∀ s ctx group k g, s.eng.groups.find? (fun g => g.ctx == ctx && g.ix == group) = some g →
    missedBy g g.nextBar k = false → reachedBy g g.nextBar k = true →
    let as := s.eng.barArr.filter fun a => a.ctx == ctx && a.group == group && a.k == k
    (as.map (·.uid)).Nodup → ((∀ a ∈ as, a.op = none) ∨ ∀ a ∈ as, a.op ≠ none) → (∀ a ∈ as, ∀ j, a.op = some j →
      ∃ o, s.op? j = some o ∧ o.uid = a.uid) →
    ∃ s', exec (.gbarComplete ctx group k) s = .next s' ∧ s'.mem = s.mem ∧ ∀ a ∈ as, a ∉ s'.eng.barArr ∧
      ∀ t, s.team? a.uid = some t →
        (a.op = none → s'.team? a.uid =
          some { t with status := .running, mark := some (BitVec.ofNat 32 k), reply := [1] }) ∧
        ∀ j o, a.op = some j → s.op? j = some o → s'.op? j = none ∧ s'.team? a.uid =
          some { (t.acquireAll.dropFlag o.flag) with
            status := if t.status = .waiting (.remote j) then .running else t.status }

/-- Copies and fills are accepted and walk their elements: the claims above together.
The model's own in it: DEDUCED, log entries 22, 86. -/
def Obligations.CopyEngineCommands : Prop :=
  Sys2Proof.Claims.CopiesAndFillsAreAccepted ∧ Sys2Proof.Claims.CopiesWalkTheirElements

/-- Groups form, end, and meet at barriers: the claims above together.
The model's own in it: DESIGN CHOICE, log entry 17; DEDUCED, log entries 38, 39. -/
def Obligations.GroupsAndTheirBarriers : Prop :=
  Sys2Proof.Claims.GroupsForm ∧ Sys2Proof.Claims.GroupBarriers

/-! ### Fill and the Shading Cache (14) -/

namespace Sys2Proof.Claims

/-- The record of a `prange` and the launch record that it names, as plain loads of the team read them (14 R384). -/
def GenRecordAt (s : State) (t : Team) (i : Instr) (fs : Bool) (r : RecRef) (bs : List Byte) (l : Launch) (s1 : State) : Prop :=
  ∃ s0, readRecord s t i (some fs) .ld r 64 8 = .ok (bs, s0) ∧
    launchAt s0 t i (some fs) (BitVec.ofNat 64 (natField (leNat bs) 0 64)) = .ok (l, s1)

/-- A register's handle word that names a PROCEDURAL handle. -/
def ProcAt (s : State) (t : Team) (hw : Src) (e : HEnt) (s1 : State) : Prop :=
  ∃ ix, resolve s t (hrefOf hw) = .ok ix e s1 ∧ e.kind = kProcedural

/-- An item that a generator team of a key may claim (14 R385). -/
def claimable (s : State) (k : GenKey) (x : Item) : Prop :=
  x ∈ s.fill.items ∧ x.serves k = true ∧ x.holder = none ∧ x.starved = false

/-- The fill engine with a change to one item alone. -/
def itemChanged (is : List Item) (x : Item) (f : Item → Item) : List Item :=
  is.map fun y => if y.die == x.die && y.ix == x.ix then f y else y

/-- The lanes of a lookup, none of which names a layer without a record. -/
def Looks (s : State) (t : Team) (g : Guard) (a : Src) (ks : List (Nat × DWord)) : Prop :=
  ks = keyLanes s t (match t.unfin with
    | some u => t.eligible g &&& u
    | none => t.eligible g) a ∧ noLayer s t ks = []

end Sys2Proof.Claims

/-- R359, R360, R384: `prange` registers a range or a layer, and takes one out once no block of it fills; the blocks of a
range that is removed, and the FAULTED ones of a range that is cleared, are EMPTY. -/
def Sys2Proof.Claims.FillRangesAreRegistered : Prop :=
  ∀ s,
    (∀ t fs, s.curTeam = some t → t.flagFull fs = false →
      (∀ r hw e s1 bs l s2 x, ProcAt s t hw e s1 → GenRecordAt s1 t (.prangeAdd fs r hw) fs r bs l s2 →
        rangeOf t.ctx e bs l = some x →
        (∀ y ∈ s.fill.ranges, y.ctx = t.ctx → y.n ≠ x.n ∧ rangesMeet y.base y.len x.base x.len = false) →
        x.n = e.aux ∧ x.base = e.base ∧ x.len = e.len ∧ x.len % x.blk = 0 ∧ 1 ≤ x.budget ∧ x.budget ≤ 2 ^ 20 ∧ 1 ≤ x.maxgen ∧
          x.maxgen ≤ 64 ∧
        ∃ s', exec (.prangeAdd fs r hw) s = .next s' ∧ Owes s s' t (.prangeAdd fs r hw) fs (.prange .add) t.status ∧
          s'.fill = { s2.fill with ranges := s.fill.ranges ++ [x] } ∧ Marks (s.ctxOf t) s.mem s'.mem) ∧
      (∀ hw e s1 r, ProcAt s t hw e s1 → s.range? t.ctx e.aux = some r →
        (∃ s', exec (.prangeRm fs hw) s = .next s' ∧ s'.fill = s.fill ∧
          Owes s s' t (.prangeRm fs hw) fs (.prange (.rm e.aux)) t.status ∧ Marks (s.ctxOf t) s.mem s'.mem) ∧
        ∃ s', exec (.prangeClr fs hw) s = .next s' ∧ s'.fill = s.fill ∧
          Owes s s' t (.prangeClr fs hw) fs (.prange (.clr e.aux)) t.status ∧ Marks (s.ctxOf t) s.mem s'.mem) ∧
      ∀ r n bs l s1 x, GenRecordAt s t (.prangeLayer fs r n) fs r bs l s1 →
        layerOf t.ctx (val32 s1 t true 0 n).toNat bs l = some x →
        (x.tag = 0 ∨ (s1.ctxOf t).shares x.tag 1 = true) →
        x.n = (val32 s1 t true 0 n).toNat ∧ x.n ≤ 15 ∧ 1 ≤ x.maxgen ∧ x.maxgen ≤ 64 ∧
        ∃ s', exec (.prangeLayer fs r n) s = .next s' ∧ s'.fill = s1.fill ∧
          Owes s s' t (.prangeLayer fs r n) fs (.prange (.layer x)) t.status ∧ Marks (s.ctxOf t) s.mem s'.mem) ∧
    ∀ o, s.op? o.id = some o →
      let i := Instr.prangeComplete o.id
      (o.kind = .prange .add → ∃ s', exec i s = .next s' ∧ Ended s s' o id ∧ s'.fill = s.fill ∧ s'.mem = s.mem) ∧
      (∀ n, o.kind = .prange (.rm n) → (∀ x ∈ s.fill.blocks, x.ctx = o.ctx → x.n = n → x.st ≠ .filling) →
        ∃ s', exec i s = .next s' ∧ Ended s s' o id ∧ s'.range? o.ctx n = none ∧ (∀ b, s'.block? o.ctx n b = none) ∧
          (∀ c m, (c ≠ o.ctx ∨ m ≠ n) → s'.range? c m = s.range? c m ∧ ∀ b, s'.block? c m b = s.block? c m b) ∧
          s'.fill.items = s.fill.items) ∧
      (∀ n, o.kind = .prange (.clr n) →
        ∃ s', exec i s = .next s' ∧ Ended s s' o id ∧ s'.fill.ranges = s.fill.ranges ∧ s'.fill.items = s.fill.items ∧
          ∀ x, x ∈ s'.fill.blocks ↔ x ∈ s.fill.blocks ∧
            ∀ y ∈ blocksIn s o.ctx n, (∃ c, y.st = .faulted c) → x.is y.ctx y.n y.b = false) ∧
      ∀ l : Layer, o.kind = .prange (.layer l) → l.ctx = o.ctx → layerItems s o.ctx l.n = false →
        ∃ s', exec i s = .next s' ∧ Ended s s' o id ∧ s'.layer? o.ctx l.n = some l ∧ s'.mem = s.mem ∧
          ∀ c m, (c ≠ o.ctx ∨ m ≠ l.n) → s'.layer? c m = s.layer? c m

/-- R366, R385: `gtake` gives a generator team the oldest waiting item of its key, its own die's first, and zeros when none
waits; the Sower posts teams while items wait unclaimed and fewer than MAXGEN serve the key. R365, R368: a waiting block gets
its frames, a failed team's items fail. -/
def Sys2Proof.Claims.GeneratorsServeItems : Prop :=
  ∀ s,
    (∀ t (k : BitVec 6), s.curTeam = some t → let i := Instr.gtake k
      (∀ gr key, t.ctl.genr = true → s.grid? t.grid = some gr → gr.gen.map (·.1) = some key →
        ((∀ x, ¬ claimable s key x) → exec i s = .next (s.setTeam ((t.setSs k.toNat (List.replicate 8 0)).advance i))) ∧
        ((∃ x, claimable s key x) → ∃ x s', claimable s key x ∧
          (∀ y, claimable s key y → (y.die = t.place.die → x.die = t.place.die ∧ x.order ≤ y.order) ∧
            (x.die = t.place.die ∨ x.order ≤ y.order)) ∧
          exec i s = .next s' ∧ s'.curTeam = some ((t.setSs k.toNat (itemWords s x)).advance i) ∧ s'.mem = s.mem ∧
          s'.fill = { s.fill with items := itemChanged s.fill.items x fun y => { y with holder := some t.uid } })) ∧
      (t.ctl.genr = false → exec i s = .next (takeFault s t i (t.uniFault codePerm 0xFFF)))) ∧
    (∀ x : Item, x.ix < 2 ^ 22 → x.depth < 16 → ∀ w, (itemWords s x)[0]? = some w →
      (w.extractLsb' 28 4).toNat = (if x.isTile then 2 else 1) ∧ (w.extractLsb' 24 4).toNat = x.depth ∧
        (w.extractLsb' 22 2).toNat = x.die % 4 ∧ (w.extractLsb' 0 22).toNat = x.ix) ∧
    (∀ die k ctx lr maxgen c p, genInfo s k = some (ctx, lr, maxgen) → s.ctx? ctx = some c → s.part? c.part = some p →
      ctxBinds s ctx = true →
      ((∃ x, claimable s k x ∧ x.die = die) → genTeams s die k < maxgen →
        ∃ s', exec (.generatorStart die k) s = .next s' ∧ s'.teams = s.teams ∧ s'.mem = s.mem ∧ s'.fill = s.fill ∧
          s'.part? p.id = some { p with spawns := p.spawns ++ [⟨die, ctx, newGridId s, lr, some k⟩] }) ∧
      (((∀ x, claimable s k x → x.die ≠ die) ∨ maxgen ≤ genTeams s die k) → exec (.generatorStart die k) s = .next s)) ∧
    (∀ t r, s.team? t.uid = some t → (t.status = .stopping r ∨ ∃ n, t.status = .stopped r n) →
      ∃ s', exec (.generatorFailure t.uid) s = .next s' ∧ ∀ x, x ∈ s'.fill.items → x.holder ≠ some t.uid) ∧
    ∀ die ix i n b r c s1,
      (s.fill.items.find? fun i => i.die == die && i.ix == ix && i.starved) = some i → i.what = .block n b →
      s.range? i.ctx n = some r → s.ctx? i.ctx = some c → behindItem s i.ctx i.order = false → takeFrames s r c b = (true, s1) →
      (∃ s', exec (.framePoolGrant die ix) s = .next s' ∧ s'.mem = s1.mem ∧ s'.fill.blocks = s1.fill.blocks ∧
        s'.fill.items = itemChanged s.fill.items i fun j => { j with starved := false }) ∧
      ∀ x, s.block? i.ctx n b = some x → (∀ y ∈ s.fill.blocks, y.is i.ctx n b = true → y = x) → x.st = .filling →
        ∃ fs, s1.block? i.ctx n b = some { x with frames := fs } ∧ fs.length = r.frames

/-- R361, R369, R375, R386, R389: a team commits or fails only an item that it holds; a commit behind its earlier work makes the
block FILLED and lets the teams parked on it go on with an acquire, or the entry VALID at the present frame; a failure makes the
block FAULTED with the status (EMPTY where FAILPOL says so) and stops those teams, or drops the entry; the item is released. -/
def Sys2Proof.Claims.ItemsAreCommitted : Prop :=
  ∀ s,
    (∀ t fs item x, s.curTeam = some t → t.flagFull fs = false → heldItem s t (val32 s t true 0 item) = some x →
      let w := val32 s t true 0 item
      x.holder = some t.uid ∧
      (tileDenied (s.ctxOf t) x = false → ∃ s', exec (.pfill fs item) s = .next s' ∧ s'.fill = s.fill ∧ s'.mem = s.mem ∧
        Owes s s' t (.pfill fs item) fs (.fillCommit w x.isTile true 0) t.status) ∧
      (∀ st, ((val32 s t true 0 st).setWidth 16).toNat < 0xFFF0 →
        ∃ s', exec (.pfail fs item st) s = .next s' ∧ s'.fill = s.fill ∧ s'.mem = s.mem ∧
          Owes s s' t (.pfail fs item st) fs (.fillCommit w x.isTile false ((val32 s t true 0 st).setWidth 16)) t.status) ∧
      (x.isTile = true → tileDenied (s.ctxOf t) x = false →
        ∃ s', exec (.scfill fs item) s = .next s' ∧ s'.fill = s.fill ∧ s'.mem = s.mem ∧
          Owes s s' t (.scfill fs item) fs (.fillCommit w true true 0) t.status)) ∧
    (∀ t fs item, s.curTeam = some t → t.flagFull fs = false → heldItem s t (val32 s t true 0 item) = none →
      ∀ i, (i = .pfill fs item ∨ i = .scfill fs item ∨ ∃ st, i = .pfail fs item st) →
        exec i s = .next (takeFault s t i (t.uniFault codePerm 0xFFF))) ∧
    ∀ o w tl ok st i, s.op? o.id = some o → o.kind = .fillCommit w tl ok st → commitWaits s o = false →
      (s.fill.items.find? fun i => i.holder == some o.uid && i.id == natField w.toNat 0 24) = some i →
      ∃ s', exec (.shadingCommit o.id) s = .next s' ∧ s'.op? o.id = none ∧
        (∀ y, y ∈ s'.fill.items → ¬ (y.die = i.die ∧ y.ix = i.ix)) ∧
        (∀ n b x r, i.what = .block n b → s.block? i.ctx n b = some x → s.range? i.ctx n = some r →
          let parked (t : Team) (opc : BitVec 8) (u : Bool) : Prop :=
            t.uid ≠ o.uid ∧ s.team? t.uid = some t ∧ ∃ is, t.status = .waiting (.fill is opc u) ∧ (i.die, i.ix) ∈ is
          (ok = true → (∀ a, s'.mem.read a = s.coreByte o.die o.core a) ∧
            (∃ y, s'.block? i.ctx n b = some y ∧ y.st = .filled ∧ y.frames = x.frames) ∧
            ∀ t opc u, parked t opc u → s'.team? t.uid = some { t.acquireAll with status := .running }) ∧
          (ok = false → (r.failEmpty = true → s'.block? i.ctx n b = none) ∧
            (r.failEmpty = false → ∃ y, s'.block? i.ctx n b = some y ∧ y.st = .faulted st ∧ y.frames = x.frames) ∧
            ∀ t opc u, parked t opc u → ∃ t' rec, s'.team? t.uid = some t' ∧ t'.status = .stopping rec ∧
              rec.finfo0.extractLsb' 24 8 = codeFillGen ∧ rec.finfo2 = st.setWidth 32)) ∧
        ∀ l k sh ow hp rev e, i.what = .tile l k sh ow hp rev → s.entry? k sh ow = some e →
          let c := s.ctxOf (opTeam s o)
          let f := lo32 (s.spaceFrame sh ow c.id)
          (ok = true → s'.entry? k sh ow = some { e with
            st := .valid, reshade := false, oldHeap := 0, rev := rev, sframe := f, uframe := f, wclass := c.cls,
            wtenant := c.tid }) ∧
          (ok = false → e.st ≠ .inFlight →
            s'.entry? k sh ow = some { e with heap := e.oldHeap, oldHeap := 0, reshade := false }) ∧
          (ok = false → e.st = .inFlight → s'.entry? k sh ow = none)

/-- R374 to R377, R387, R388, R390, R391: `sclook` owes its lanes the answers of their keys, and raises an item for a key that
misses; `scwait` answers once no entry it names is in flight; an answer that makes bytes visible is an acquire of its lane;
`scinv` advances the object's revision on completion; `frame` advances a counter. -/
def Sys2Proof.Claims.ShadingLookupsAnswer : Prop :=
  ∀ s,
    (∀ t g d a ks, s.curTeam = some t → allocOk t d [a] = true → Looks s t g a ks →
      (∀ fs s1 as left, t.flagFull fs = false → lookLanes (s.ctxOf t) t.uid (s.itemDepth t.uid) s ks [] = .ok as left s1 →
        as.map (·.1) ++ left = ks.map (·.1) ∧
        (left = [] → ∃ s', exec (.sclook g fs d a) s = .next s' ∧ s'.fill = s1.fill ∧ s'.mem = s.mem ∧
          Owes s s' t (.sclook g fs d a) fs (.sclook ⟨d, as⟩) t.status) ∧
        (left ≠ [] → ∃ s', exec (.sclook g fs d a) s = .next s' ∧ s'.fill = s1.fill ∧ s'.mem = s.mem ∧
          s'.curTeam = some { (((t.issueFlag fs).acquireHits as).deliver ⟨d, as⟩) with
            status := .waiting (.held ((ks.filter fun k => left.contains k.1).map (·.2))), unfin := some (Mask.ofLanes left) })) ∧
      (t.unfin = none → let c := s.ctxOf t
        let busy := (ks.map (·.2)).filterMap (keyBusy s c)
        (busy = [] → ∃ s' as, exec (.scwait g d a) s = .next s' ∧ s'.mem = s.mem ∧ s'.fill.items = s.fill.items ∧
          s'.fill.heap = s.fill.heap ∧ as.map (·.1) = ks.map (·.1) ∧
          s'.curTeam = some (((t.acquire false g).deliver ⟨d, as⟩).advance (.scwait g d a)) ∧
          ∀ L k l x s2, ks = [(L, k)] → s.layer? t.ctx (keyLayer k) = some l → c.id = t.ctx →
            lookupKey s c l k false 0 = .answer x s2 → as = [(L, x.words)]) ∧
        (busy ≠ [] → (∀ k ∈ busy, ownEntry s c t.uid k.1 = false) →
          exec (.scwait g d a) s = .next (s.setTeam { t with status := .waiting (.keys busy.eraseDups) })))) ∧
    (∀ c l k sh ow may n, 1 ≤ n → n ≤ 4 → let f := lo32 (s.spaceFrame sh ow c.id)
      (∀ way s1 at_ s2, s.entry? k sh ow = none → placeEntry s (s.keyDie k) (keySet k) = some (way, s1) →
        raiseTile s1 c l k sh ow n = some (at_, s2) →
        ∃ s', lookupIn s c l k sh ow may true n = .answer ⟨0, sh, 0, 0, 0⟩ s' ∧ s'.fill.items = s2.fill.items ∧
          ∃ e, s'.entry? k sh ow = some e ∧ e.st = .inFlight ∧ e.heap = at_ ∧ e.way = way) ∧
      ∀ e, (s.entry? k sh ow).map (staleNow s) = some e →
        (e.st = .inFlight → lookupIn s c l k sh ow may true n = .answer ⟨1, sh, 0, 0, 0⟩ s) ∧
        (e.st = .valid → lookupIn s c l k sh ow may true n =
          .answer ⟨2, sh, Nat.min (f - e.sframe).toNat (2 ^ 29 - 1), e.rev, e.heap⟩
            (s.updEntry k sh ow fun x => { x with uframe := f })) ∧
        ∀ at_ s1, e.st = .stale → e.reshade = false → l.staleMiss = false → may = true →
          raiseTile (s.updEntry k sh ow fun x => { x with st := .stale }) c l k sh ow n = some (at_, s1) →
          ∃ s', lookupIn s c l k sh ow may true n =
              .answer ⟨3, sh, Nat.min (f - e.sframe).toNat (2 ^ 29 - 1), e.rev, e.heap⟩ s' ∧
            s'.entry? k sh ow = some { e with reshade := true, oldHeap := e.heap, heap := at_, uframe := f }) ∧
    (∀ o w, s.op? o.id = some o → o.kind = .sclook w →
      ∃ s', exec (.sclookAnswer o.id) s = .next s' ∧ Ended s s' o (fun t => (t.acquireHits w.vals).deliver w) ∧ s'.fill = s.fill ∧
        s'.mem = s.mem) ∧
    (∀ u, s.team? u.uid = some u →
      (∀ ks, u.status = .waiting (.held ks) → exec (.heldLookupRelease u.uid) s = .next (s.setTeam { u with status := .running })) ∧
      ∀ ks, u.status = .waiting (.keys ks) → exec (.scwaitWake u.uid) s = .next
        (if ks.any (keyWaits s) then s else s.setTeam { u with status := .running })) ∧
    (∀ t fs obj tag, s.curTeam = some t → t.flagFull fs = false →
      let tg : BitVec 16 := (val32 s t true 0 tag).setWidth 16
      (tag = .none ∨ (s.ctxOf t).shares tg 2 = true) →
      ∃ s', exec (.scinv fs obj tag) s = .next s' ∧ s'.mem = s.mem ∧ s'.fill = s.fill ∧
        Owes s s' t (.scinv fs obj tag) fs
          (.scinv ((val32 s t true 0 obj).setWidth 24) (if tag = .none then none else some tg)) t.status) ∧
    (∀ o obj tag, s.op? o.id = some o → o.kind = .scinv obj tag → tileMay s o = true →
      let sh := tag.isSome
      let ow := tag.getD (s.ctxOf (opTeam s o)).tid
      ∃ s', exec (.scinvComplete o.id) s = .next s' ∧ Ended s s' o id ∧
        (∀ a, s'.mem.read a = s.coreByte o.die o.core a) ∧ s'.objRev sh ow obj = s.objRev sh ow obj + 1 ∧
        ∀ h w b, (h ≠ sh ∨ w ≠ ow ∨ b ≠ obj) → s'.objRev h w b = s.objRev h w b) ∧
    ∀ t d, s.curTeam = some t →
      (∀ c, s.ctx? t.ctx = some c → ∃ s', exec (.frameCtx d) s = .next s' ∧ s'.mem = s.mem ∧
        s'.ctx? t.ctx = some { c with frame := c.frame + 1 } ∧ (∀ x, x ≠ t.ctx → s'.ctx? x = s.ctx? x) ∧
        s'.curTeam = some ((t.writeUni d [lo32 (c.frame + 1), hi32 (c.frame + 1)]).advance (.frameCtx d))) ∧
      ∀ tag, let tg : BitVec 16 := (val32 s t true 0 tag).setWidth 16
        (s.ctxOf t).shares tg 2 = true →
        ∃ s', exec (.frameTag d tag) s = .next s' ∧ s'.mem = s.mem ∧ s'.ctxs = s.ctxs ∧
          (∀ x, s'.tagFrame x = if x = tg then s.tagFrame tg + 1 else s.tagFrame x) ∧
          s'.curTeam = some
            ((t.writeUni d [lo32 (s.tagFrame tg + 1), hi32 (s.tagFrame tg + 1)]).advance (.frameTag d tag))

/-- Fill ranges, layers and the generators that serve them: the claims above together.
The model's own in it: DESIGN CHOICE, log entries 12, 110; DEDUCED, log entry 48. -/
def Obligations.FillsAndGenerators : Prop :=
  Sys2Proof.Claims.FillRangesAreRegistered ∧ Sys2Proof.Claims.GeneratorsServeItems

/-- Items are committed or failed; shading lookups are answered: the claims above together.
The model's own in it: DESIGN CHOICE, log entries 17, 111, 112, 113; DEDUCED, log entries 47, 48, 98. -/
def Obligations.ItemsAndLookups : Prop :=
  Sys2Proof.Claims.ItemsAreCommitted ∧ Sys2Proof.Claims.ShadingLookupsAnswer

/-! ### Rays and raster (15) -/

namespace Sys2Proof.Claims

/-- A batch that passes the checks of 15 R409: the structure's handle, the rays' and the records', the structure's header. -/
def BatchAt (s : State) (t : Team) (i : Instr) (fs first : Bool) (a z : Int) (k : Nat) (hr hs hh : BitVec 12) (b : RayBatch)
    (s' : State) : Prop :=
  ∃ x y w es0 er0 eh0 es er eh s1 s2 s3 s4 s5 s6 bs,
    resolve s t (.idx hs) = .ok x es0 s1 ∧ resolve s1 t (.idx hr) = .ok y er0 s2 ∧ resolve s2 t (.idx hh) = .ok w eh0 s3 ∧
    es0.kind = kGlobal ∧ er0.kind = kScratch ∧ eh0.kind = kScratch ∧
    SideAt s3 t i hr .engR .engRead a (48 * k) 1 er s4 ∧ SideAt s4 t i hh .engW .engWrite z (32 * k) 1 eh s5 ∧
    a % 16 = 0 ∧ z % 16 = 0 ∧ SideAt s5 t i hs .ld .read 0 64 1 es s6 ∧
    recBytes s6 t i (some fs) (headReq s6 t i hs es) = .ok (bs, s') ∧
    structHead bs
      { op := 0, ctx := t.ctx, die := t.place.die, h := hs, entry := es.raw, root := 0, nodeOff := 0, primOff := 0, nodes := 0,
        prims := 0, cellExp := 0, rays := er.soff + a.toNat, hits := eh.soff + z.toNat, n := k, first,
        trap := t.ctl.mode.getLsbD 15, entered := false, held := 0, furrow := none } = some b

/-- A handle that a raster job names (15 R414). -/
def JobSideAt (s : State) (t : Team) (h : BitVec 12) (write : Bool) (off size : Nat) (e : HEnt) (s' : State) : Prop :=
  ∃ ix, resolve s t (.idx h) = .ok ix e s' ∧
    uniCheck s' t e ix off size 1 (e.kind == kGlobal) (e.right rR && (!write || e.right rW)) = none

/-- Eligible lanes below a lane. -/
def below (t : Team) (g : Guard) (L : Nat) : Nat := (((t.eligible g).lanes t.nlanes).filter (· < L)).length

end Sys2Proof.Claims

/-- R393, R394, R402, R409, R413: a batch that passes the checks is queued with its team's rays; a program is installed once
the context's earlier batches have completed; the Furrow lets its rays go when it is full or the oldest has waited, those of
all its batches in one ascending order of their keys. -/
def Sys2Proof.Claims.RayBatchesAreAccepted : Prop :=
  ∀ s,
    (∀ t fs first sr n sh hr hs hh b s1 sort, s.curTeam = some t → t.flagFull fs = false →
      let i := if sort then Instr.rsort fs first sr n sh hr hs hh else .rtrace fs first sr n sh hr hs hh
      let k := (val32 s t true 0 n).toNat
      1 ≤ k → k ≤ 4096 → (sort = true → (s.ctxOf t).furrow = true) →
      BatchAt s t i fs first (val32 s t true 0 sr).toNat (val32 s t true 0 sh).toNat k hr hs hh b s1 →
      hasRays s1 t sort = true →
      b.nodeOff % 128 = 0 ∧ b.primOff % 64 = 0 ∧ -16 ≤ b.cellExp ∧ b.cellExp ≤ 15 ∧
      ∃ s', exec i s = .next s' ∧ Owes s s' t.spent i fs (.rays s.nextOp) t.status ∧ Marks (s.ctxOf t) s.mem s'.mem ∧
        s'.vis.batches = s.vis.batches ++ [{ b with op := s.nextOp }]) ∧
    (∀ t fs (kind : BitVec 8) r hd s1 bs s2, s.curTeam = some t → t.flagFull fs = false →
      let h := leNat hd
      let steps := natField h 0 8
      let ws : List DWord := (List.range steps).map fun k => BitVec.ofNat 64 (leNat ((bs.drop (8 + 8 * k)).take 8))
      let i := Instr.rprog fs kind r
      readRecord s t i (some fs) .readRec r 8 8 = .ok (hd, s1) →
      readRecord s1 t i (some fs) .readRec r (8 + 8 * steps) 8 = .ok (bs, s2) →
      natField h 16 48 = 0 → 1 ≤ steps → steps ≤ 64 → natField h 8 8 ≤ 16 → stepsOk ws = true →
      ∃ s', exec i s = .next s' ∧ s'.vis = s.vis ∧ Marks (s.ctxOf t) s.mem s'.mem ∧
        Owes s s' t.spent i fs (.rprog kind.toNat (natField h 8 8) ws) t.status) ∧
    (∀ o kind pw ws, s.op? o.id = some o → o.kind = .rprog kind pw ws →
      (∀ p ∈ s.ops, p.ctx = o.ctx → p.id < o.id → ∀ x, p.kind ≠ .rays x) →
      let find (s : State) (c : Word) (k : Nat) := s.vis.kinds.find? fun x => x.ctx == c && x.kind == k
      ∃ s', exec (.rprogInstall o.id) s = .next s' ∧ s'.op? o.id = none ∧ s'.mem = s.mem ∧
        find s' o.ctx kind = some ⟨o.ctx, kind, pw, ws⟩ ∧ ∀ c k, (c ≠ o.ctx ∨ k ≠ kind) → find s' c k = find s c k) ∧
    ∀ die,
      let due : Prop := 65536 ≤ furrowLoad s die ∨
        ∃ b ∈ s.vis.batches, b.die = die ∧ ∃ c, b.furrow = some c ∧ 4096 ≤ (s.clk - c).toNat
      (due → ∃ s', exec (.furrowRelease die) s = .next s' ∧ s'.ops = s.ops ∧ s'.teams = s.teams ∧
        (∀ b ∈ s'.vis.batches, b.die = die → b.furrow = none) ∧
        s'.vis.batches.map (fun b => { b with furrow := none }) = s.vis.batches.map (fun b => { b with furrow := none }) ∧
        ∃ out, List.Perm out ((s.vis.batches.filter fun b => b.die == die && b.furrow.isSome).flatMap (furrowRays s)) ∧
          out.Pairwise (fun a b => a.1 ≤ b.1) ∧ s'.vis.left = s.vis.left ++ out.map (·.2)) ∧
      (¬ due → exec (.furrowRelease die) s = .next s)

/-- R393, R394, R397, R401, R402, R411: a batch first classifies its rays, counts the invalid ones and records them; with
RAYTRAP the first of them stops it, otherwise the rest enters the Furrow if the batch is sorted. Then it writes one record for
each ray whose turn it is (of an unsorted batch, every ray that is left), in the place of the ray's number, and it has ended
when no ray of it is left in the order of the Furrow. A hit lies within the ray's interval and names its primitive; a
`.first` batch takes the first candidate of a leaf test. -/
def Sys2Proof.Claims.RayBatchesTrace : Prop :=
  (∀ s o b t, s.op? o.id = some o → o.kind = .rays o.id → (s.vis.batches.find? (·.op == o.id)) = some b →
    s.opHeld o.id = false → s.team? o.uid = some t → (⟨b.entry⟩ : HEnt).kind = kGlobal →
    let i := Instr.rayBatchComplete o.id
    let ray (k : Nat) : Ray := rayOf (scratchGet s o (b.rays + 48 * k) 48)
    let bad := (List.range b.n).filter fun k => (ray k).invalid
    let gone (s' : State) : Prop := s'.op? o.id = none ∧ ∀ x ∈ s'.vis.batches, x.op ≠ o.id
    let free (s : State) : Prop := ∀ a, b.hits ≤ a → a < b.hits + 32 * b.n →
      s.usedBy (some o.uid) a (some o.id) = false ∧ ownUse s o.id false (some o.uid) a = false
    let holds (m : Memory) (recs : List (Nat × List Byte)) : Prop :=
      (∀ x ∈ recs, ∀ j < 32, m.read (b.hits + 32 * x.1 + j) = x.2.getD j 0) ∧
        ∀ a, (∀ x ∈ recs, a < b.hits + 32 * x.1 ∨ b.hits + 32 * x.1 + 32 ≤ a) → m.read a = t.scratch.read a
    (b.entered = false →
      let counted (s' : State) : Prop := s'.mem = s.mem ∧ ∀ c, s.ctx? b.ctx = some c →
        s'.ctx? b.ctx = some { c with invalidRays := c.invalidRays + BitVec.ofNat 64 bad.length }
      (∀ k rest, b.trap = true → bad = k :: rest → ∃ s', exec i s = .next s' ∧ counted s' ∧ gone s' ∧
        ∃ t', s'.team? o.uid = some t' ∧ t'.scratch = t.scratch ∧
          ∃ f, t'.efaults = t.efaults ++ [f] ∧ f.flag = o.flag ∧ f.info.code = codeRay ∧ f.info.opc = o.opc ∧
            f.info.ipc = o.ipc ∧ (k < 1024 → f.info.lanes = Mask.bit k)) ∧
      ((b.trap = false ∨ bad = []) → free s → ∃ s' t' b', exec i s = .next s' ∧ counted s' ∧ s'.op? o.id = some o ∧
        s'.team? o.uid = some t' ∧ holds t'.scratch (bad.map fun k => (k, hitRecord (ray k) none)) ∧
        (s'.vis.batches.find? (·.op == o.id)) = some b' ∧ { b' with furrow := none } =
          { b with entered := true, held := b.n - bad.length, furrow := none } ∧ (o.opc ≠ 0xD2 → b'.furrow = none))) ∧
    ∀ recs s1, b.entered = true → b.furrow = none →
      let rays := dueRays s o b
      let rest (x : Nat × Nat × Nat) : Prop := x ∈ s.vis.left ∧ x.2.1 = o.id ∧ ∀ r ∈ rays, r.1 ≠ x.2.2
      (o.opc ≠ 0xD2 → rays = ((List.range b.n).filter fun k => !(ray k).invalid).map fun k => (k, ray k)) ∧
      ((rays.map (·.1)).Nodup → traceRays o b s rays [] = .ok recs s1 → s1.spoiledOp o.id = false → free s1 →
        List.Perm (recs.map (·.1)) (rays.map (·.1)) ∧
        (∀ x ∈ recs, ∃ best, x.2 = hitRecord (ray x.1) (some best) ∧ ((ray x.1).empty = true → best = none)) ∧
        ∃ s' t', exec i s = .next s' ∧ s'.mem = s1.mem ∧ s'.team? o.uid = some t' ∧ holds t'.scratch recs ∧
          ((∀ x, ¬ rest x) → gone s') ∧ ((∃ x, rest x) → s'.op? o.id = some o ∧ ∀ x, rest x → x ∈ s'.vis.left))) ∧
  (∀ r res, (hitRecord r res).length = 32 ∧ ((hitRecord r res).drop 12).take 4 = leBytes 4 r.user ∧
    (hitRecord r res).getD 11 0 = (match res with
      | some (some _) => 1
      | some none => 0
      | none => 2)) ∧
  (∀ first (r : Ray) k prim words c, r.org.length = 3 → r.dir.length = 3 → (∀ w ∈ k.steps, stepOk w = true) →
    leafTest first r k prim words = some c →
    fmt32.isNan c.t = false ∧ leF32 r.tmin c.t = true ∧ leF32 c.t r.tmax = true ∧ c.prim = prim ∧ c.kind = k.kind ∧
      c.step < k.steps.length ∧ ∃ x, leafTest (!first) r k prim words = some x ∧ (first = true → c.step ≤ x.step)) ∧
  ∀ a b, bestCand none b = some b ∧ (bestCand (some a) b = some a ∨ bestCand (some a) b = some b) ∧
    ∀ c, bestCand (some a) b = some c → a.better c = false ∧ b.better c = false

/-- R396: for a finite ray and box the box test is exact: it passes if and only if some t of the ray's interval lies within the
box on every axis (t is n / m in units of 2^-149). -/
def Sys2Proof.Claims.BoxTestIsExact : Prop :=
  ∀ (r : Ray) (box : List Nat), r.org.length = 3 → r.dir.length = 3 → box.length = 6 →
    let fin (x : Nat) : Prop := fmt32.isNan x = false ∧ fmt32.isInf x = false
    (∀ x, x ∈ r.org ∨ x ∈ r.dir ∨ x ∈ box ∨ x = r.tmin ∨ x = r.tmax → fin x) →
    let o (k : Nat) : Nat := r.org.getD k 0
    let d (k : Nat) : Nat := r.dir.getD k 0
    boxHit r box = true ↔
      (∀ k < 3, fmt32.isZero (d k) = true → leF32 (box.getD k 0) (o k) = true ∧ leF32 (o k) (box.getD (k + 3) 0) = true) ∧
      ∃ n m : Int, 0 < m ∧ fixed r.tmin * m ≤ n ∧ n ≤ fixed r.tmax * m ∧ ∀ k < 3, fmt32.isZero (d k) = false →
        fixed (box.getD k 0) * 2 ^ 149 * m ≤ fixed (o k) * 2 ^ 149 * m + n * fixed (d k) ∧
          fixed (o k) * 2 ^ 149 * m + n * fixed (d k) ≤ fixed (box.getD (k + 3) 0) * 2 ^ 149 * m

/-- R403 to R407, R412, R414, R415: a raster job is accepted with the next id of its die, reads its triangles and writes its
samples while its ring has room; `vis.get` gives the lanes the samples in order, those of another die's job as a remote load
would, waits while an open job has too few, and halts the context on a sample whose memory answers with an error;
`rhit` gives the lanes their records. No subsample is covered by two samples. -/
def Sys2Proof.Claims.RasterJobsAndHits : Prop :=
  (∀ s t fs d r bs s1 j et s2 es s3, s.curTeam = some t → t.flagFull fs = false →
    let i := Instr.visJob fs d r
    RecordAt s t i r 64 8 bs s1 → jobOf bs (blankJob t) = some j →
    JobSideAt s1 t j.triH false j.toff (64 * j.tcount) et s2 → JobSideAt s2 t j.ringH true j.ring (16 * j.cap) es s3 →
    hasRaster s3 t = true → (s.vis.jobs.filter fun x => x.die == j.die && x.isOpen s).length < 8 →
    1 ≤ j.tcount ∧ j.tcount ≤ 2 ^ 24 ∧ 1 ≤ j.width ∧ j.width ≤ 16384 ∧ 1 ≤ j.height ∧ j.height ≤ 16384 ∧
      (∃ k, k ≤ 20 ∧ j.cap = 2 ^ (k + 4)) ∧
    ∃ s' j', exec i s = .next s' ∧ s'.mem = s3.mem ∧ j' ∈ s'.vis.jobs ∧
      j' = { j with seq := j'.seq, op := s.nextOp, triE := et.raw, ringE := es.raw } ∧
      (∀ x, s.vis.nextJob.find? (·.1 == j.die) = some x → j'.seq = x.2) ∧
      Owes s s' (t.spent.writeUni d [j'.id]) i fs (.visJob j.die j'.seq) t.status) ∧
  (∀ s die seq j o, s.job? die seq = some j → s.op? j.op = some o → s.opHeld j.op = false →
    (∀ x ∈ s.vis.jobs, x.die = die → x.isOpen s = true → j.op ≤ x.op) →
    let i := Instr.visJobComplete die seq
    (∀ ts s1, j.samples = none → readTris o j j.tcount s 0 [] = .ok (ts, s1) →
      ∃ s', exec i s = .next s' ∧ s'.mem = s1.mem ∧ ∀ k, s1.job? die seq = some k →
        s'.job? die seq = some { k with samples := some (jobSamples j ts) }) ∧
    (j.samples = some [] → s.spoiledOp o.id = false → o.id = j.op → ∃ s', exec i s = .next s' ∧ s'.op? j.op = none ∧
      s'.mem = s.mem ∧ s'.job? die seq = some j) ∧
    ∀ w at_ s1, j.samples = some [w] → j.produced - j.taken < j.cap → o.id = j.op →
      ringPut o (engReq s o j.ringH ⟨j.ringE⟩ true 16) s
          (engParts (engReq s o j.ringH ⟨j.ringE⟩ true 16) ((j.ring + 16 * (j.produced % j.cap) : Nat) : Int) 16)
          (w.flatMap fun x => leBytes 4 x.toNat) [] = .ok (at_, s1) →
      s1.spoiledOp o.id = false → s1.vis = s.vis → s1.op? o.id = some o →
      ∃ s', exec i s = .next s' ∧ s'.op? j.op = none ∧ s'.mem = s1.mem ∧
        s'.job? die seq = some { j with samples := some [], ready := j.ready ++ [at_], produced := j.produced + 1 }) ∧
  (∀ (ts : List Tri) px py, (ts.map (·.ix)).Nodup → (pixelSamples ts px py).Pairwise fun a b =>
    a.getD 3 0 &&& b.getD 3 0 = 0) ∧
  (∀ s t g d x pq, s.curTeam = some t → shaped t → allocOk t d [] = true → Instr.wf (.visGet g d x pq) = true →
    let i := Instr.visGet g d x pq
    let ls := (t.eligible g).lanes t.nlanes
    let gives (t' : Team) (got : List (List Word)) : Prop :=
      moved i t t' ∧ bare t' = bare t ∧ t'.ctl = t.ctl ∧ regsKept t t' g d 4 ∧ predsKept t t' g (pq.getD 7) ∧ rngKept t t' ∧
        ∀ L, elig t g L → (∀ k, d.isVec = true → k < 4 →
          groupReg s t' false L (back d) k = ((got.getD (below t g L) [])[k]?).getD 0) ∧
          ∀ p, pq = some p → p ≠ 7 → t'.pred L p = decide (below t g L < got.length)
    let owes (s' : State) (t' : Team) (got : List (List Word)) : Prop :=
      t'.status = .waiting (.remote s.nextOp) ∧ (∀ L n, t'.vreg L n = t.vreg L n) ∧ predsKept t t' g (pq.getD 7) ∧
        (∀ L, elig t g L → ∀ p, pq = some p → p ≠ 7 → t'.pred L p = decide (below t g L < got.length)) ∧
        ∃ o ∈ s'.ops, o.id = s.nextOp ∧ o.uid = t.uid ∧ o.flag = none ∧ o.block = true ∧
          o.kind = .take ⟨d, ls.map fun L => (L, got.getD (below t g L) [0, 0, 0, 0])⟩
    (jobNamed s t (val32 s t true 0 x) = none → ∃ t', exec i s = .next (s.setTeam t') ∧ gives t' []) ∧
    ∀ j, jobNamed s t (val32 s t true 0 x) = some j →
      (j.ready.length < ls.length → j.isOpen s = true →
        exec i s = .next (s.setTeam { t with status := .waiting (.job j.die j.seq ls.length) })) ∧
      ((ls.length ≤ j.ready.length ∨ j.isOpen s = false) → let n := Nat.min j.ready.length ls.length
        let got := (j.ready.take n).map (sampleAt s j)
        let error := (j.ready.take n).flatten.findSome? fun p => errorAt s p.1 p.2
        (∀ d, error = some d → exec i s = .next (haltTeam s t (instrOpc i) codeContained d)) ∧ (error = none →
          ∃ s' t', exec i s = .next s' ∧ s'.curTeam = some t' ∧ (j.die = t.place.die ∨ ls = [] → gives t' got) ∧
          (j.die ≠ t.place.die → ls ≠ [] → owes s' t' got) ∧ s'.mem = s.mem ∧
          (s.job? j.die j.seq = some j → s'.job? j.die j.seq = some { j with ready := j.ready.drop n, taken := j.taken + n })))) ∧
  (∀ s u die n need, s.team? u.uid = some u → u.status = .waiting (.job die n need) →
    (∀ j, s.job? die n = some j → need ≤ j.ready.length ∨ j.isOpen s = false) →
    exec (.visGetWake u.uid) s = .next (s.setTeam { u with status := .running })) ∧
  (∀ s t g short d x h imm pq ix e s1, s.curTeam = some t → shaped t → t.unfin = none → allocOk t d [x] = true → s.uses = [] →
    let i := Instr.rhit g short d x h imm pq
    let size := if short then 16 else 32
    let at_ (L : Nat) : Int := ((val32 s t false L x).toNat * 32 : Nat) + imm.toInt
    let ls := ((t.eligible g).lanes t.nlanes).map fun L => (L, at_ L)
    let q : Req := { t, c := s1.ctxOf t, ix, e, uni := false, use := .lds, acc := .read, size, align := 16, lanes := ls,
                     opc := instrOpc i }
    i.wf = true → ls ≠ [] → resolve s t (.idx h) = .ok ix e s1 → q.check s1 = none → e.kind = kScratch →
    ∃ t', exec i s = .next (s1.setTeam t') ∧ moved i t t' ∧ bare t' = bare t ∧ t'.ctl = t.ctl ∧
      regsKept t t' g d (size / 4) ∧ predsKept t t' g (pq.getD 7) ∧ rngKept t t' ∧
      ∀ L, elig t g L → (∀ k, d.isVec = true → k < size / 4 → groupReg s1 t' false L (back d) k =
          BitVec.ofNat 32 (t.scratch.readLE (e.soff + (at_ L).toNat + 4 * k) 4)) ∧
        ∀ p, pq = some p → p ≠ 7 → t'.pred L p = decide (t.scratch.read (e.soff + (at_ L).toNat + 11) = 1)) ∧
  ∀ s t d, s.curTeam = some t → exec (.rhitCnt d) s = .next (s.setTeam
    ((t.writeUni d [lo32 (s.ctxOf t).invalidRays, hi32 (s.ctxOf t).invalidRays]).advance (.rhitCnt d)))

/-- Ray batches are accepted and traced: the claims above together.
The model's own in it: DEDUCED, log entries 58, 59, 62, 70. -/
def Obligations.RayBatches : Prop :=
  Sys2Proof.Claims.RayBatchesAreAccepted ∧ Sys2Proof.Claims.RayBatchesTrace

/-- The box test is exact; raster jobs give samples and hits: the claims above together.
The model's own in it: DEDUCED, log entries 57, 63. -/
def Obligations.BoxesAndRaster : Prop :=
  Sys2Proof.Claims.BoxTestIsExact ∧ Sys2Proof.Claims.RasterJobsAndHits

/-! ### System instructions, faults and their answers, slices (16) -/

namespace Sys2Proof.Claims

/-- The team has stopped with a fault: its record waits to be queued, FINFO0 to FINFO3 hold its first words, nothing else of
the team has changed (16 R419 to R421, R426). -/
def Stops (s s' : State) (t : Team) (code : BitVec 8) (detail : Word) : Prop :=
  ∃ (t' : Team) (r : FaultRec), s' = s.setTeam t' ∧
    t' = { t with status := .stopping r, ctl := { t.ctl with finfo := [r.finfo0, r.finfo1, r.finfo2, r.finfo3] } } ∧
    r.finfo0.extractLsb' 24 8 = code ∧ r.finfo0.getLsbD 14 = false ∧ r.finfo1 = t.ctl.regctr ∧ r.finfo2 = detail ∧
    r.ctx = t.ctx ∧ r.grid = t.grid ∧ r.team = t.teamNo ∧ r.ipc = t.pc ∧ r.rpc = t.resumePc

/-- A context has halted (16 R447): it keeps the code, a halt record is queued, none of its teams is in a slot. -/
def Halts (s s' : State) (ctx : Word) (code : BitVec 8) : Prop :=
  ∀ c, s.ctx? ctx = some c → c.halted = none →
    (∃ c' r, s'.ctx? ctx = some c' ∧ c'.halted = some code ∧ c'.fq.pending = c.fq.pending ++ [(c.fq.nextSeq, r)] ∧
      r.finfo0.extractLsb' 24 8 = code) ∧ ∀ t ∈ s'.teams, t.ctx ≠ ctx

end Sys2Proof.Claims

/-- R455, R457, R458, R460, R461: `trap` and, with debugging on, `bkpt` stop the team; `rfe` returns from a handler; `yield`
lets a handler's team leave; `ksave` adds to its save set; outside their place they are ILLOP. R38 to R41, R439: a header
starts its clause, after its flags, or enters the handler. -/
def Sys2Proof.Claims.TrapsAndHandlers : Prop :=
  ∀ s t, s.curTeam = some t →
    (∀ n : BitVec 8, t.clause.left ≤ 1 →
      (∃ s', exec (.trap n) s = .next s' ∧ Stops s s' t 0x18 (n.setWidth 32)) ∧
      ((s.ctxOf t).debug = true → ∃ s', exec (.bkpt n) s = .next s' ∧ Stops s s' t 0x17 (n.setWidth 32)) ∧
      ((s.ctxOf t).debug = false → exec (.bkpt n) s = .next (s.setTeam (t.advance (.bkpt n))))) ∧
    (t.clause.left ≤ 1 → t.ctl.hmode = true →
      (∃ t', exec .rfe s = .next (s.setTeam t') ∧ t'.pc = t.ctl.epc ∧ t'.clause.left = 0 ∧ t'.ctl = { t.ctl with hmode := false } ∧
        { t' with pc := t.pc, clause := t.clause, ctl := t.ctl } = t) ∧
      exec .yield s = .next (s.setTeam { (t.advance .yield) with leave := .yielded })) ∧
    (t.clause.left ≤ 1 → t.ctl.hmode = false → (∃ s', exec .rfe s = .next s' ∧ Stops s s' t 0x01 0) ∧
      exec .yield s = .next (s.setTeam (t.advance .yield))) ∧
    (1 < t.clause.left → ∀ i, ((∃ n, i = .trap n) ∨ (∃ n, i = .bkpt n) ∨ i = .rfe ∨ i = .yield) →
      ∃ s', exec i s = .next s' ∧ Stops s s' t 0x01 0) ∧
    (∀ m : DWord,
      let saves (set : KsaveSet) (c : Ctl) : Prop :=
        exec (.ksave set m) s = .next (s.setTeam (({ t with ctl := c } : Team).advance (.ksave set m)))
      let beyond (base : Nat) : Prop := ∃ k < 64, m.getLsbD k = true ∧ t.nvregs ≤ base + k
      (t.ctl.hmode = false → ∀ set, ∃ s', exec (.ksave set m) s = .next s' ∧ Stops s s' t 0x01 0) ∧
      (t.ctl.hmode = true →
        (¬ beyond 0 → saves .vlo { t.ctl with ksv := t.ctl.ksv ||| m.setWidth 128 }) ∧
        (beyond 0 → ∃ s', exec (.ksave .vlo m) s = .next s' ∧ Stops s s' t 0x01 0) ∧
        (¬ beyond 64 → saves .vhi { t.ctl with ksv := t.ctl.ksv ||| (m.setWidth 128 <<< 64) }) ∧
        (beyond 64 → ∃ s', exec (.ksave .vhi m) s = .next s' ∧ Stops s s' t 0x01 0) ∧
        saves .s { t.ctl with kss := t.ctl.kss ||| m } ∧ saves .p { t.ctl with ksp := t.ctl.ksp ||| m.setWidth 8 })) ∧
    (∀ h : Header,
      let enters : Prop := h.kind = 1 ∧ t.ctl.slend = true ∧ t.ctl.hmode = false
      let due : Prop := (∀ n < 12, h.wait.getLsbD n = true → t.flag n = 0) ∧ s.blocked t = false
      (enters → ∃ t', exec (.clauseStart h) s = .next (s.setTeam t') ∧ t'.pc = s.yieldPc t ∧ t'.lanes = t.lanes ∧ t'.s = t.s ∧
        t'.flags = t.flags ∧ t'.ctl = { t.ctl with epc := t.pc, hmode := true, ksv := 0, kss := 0, ksp := 0 }) ∧
      (¬ enters → ¬ due → exec (.clauseStart h) s = .next (s.setTeam { t with status := .waiting (.clause h.wait) })) ∧
      (¬ enters → due → t.efaults = [] → ∃ t', exec (.clauseStart h) s = .next (s.setTeam t') ∧ t'.pc = t.pc + 8 ∧
        t'.clause = ⟨h.count.toNat + 1, h.seta.toNat, h.setb.toNat, h.gap.toNat⟩ ∧
          bare t' = bare { t with ctl := t'.ctl, status := .running } ∧
        t'.lanes = t.lanes ∧ t'.s = t.s ∧
        t'.ctl = if h.kind = 1 then { t.ctl with
          regctr := t.ctl.regctr + 1, repc := if t.ctl.hmode then t.ctl.repc else t.pc } else t.ctl)) ∧
    ∀ hdr uni opc, ∃ s', exec (.illopPattern hdr uni opc) s = .next s' ∧ Stops s s' t 0x01 0

/-- R453, R454, R459, R462: `csrr` gives a register's value, `csrw` writes its writable fields and gives the old value; the
privileged ones only to a system context, whose cached handle entries go with a write of one that says how handles are read.
`tlbi` drops the translations and the walks' descriptors that it names, once it completes. A walk that fails parks its team with
FINFO loaded, stops it, or halts its context. -/
def Sys2Proof.Claims.ControlRegistersAndTlbi : Prop :=
  ∀ s t, s.curTeam = some t → let c := s.ctxOf t
    (∀ wide d (n : BitVec 12), let ns := if wide then [n.toNat, n.toNat + 1] else [n.toNat]
      ((∀ k ∈ ns, csrKnown k = true) → ((∀ k ∈ ns, k < 0x020) ∨ c.sys = true) →
        exec (.csrr wide d n) s = .next (s.setTeam ((t.writeUni d (ns.map (readCsr s t))).advance (.csrr wide d n)))) ∧
      ((∀ k ∈ ns, csrKnown k = true) → (∃ k ∈ ns, 0x020 ≤ k) → c.sys = false →
        ∃ s', exec (.csrr wide d n) s = .next s' ∧ Stops s s' t 0x02 0) ∧
      ((∃ k ∈ ns, csrKnown k = false) → ∃ s', exec (.csrr wide d n) s = .next s' ∧ Stops s s' t 0x01 0)) ∧
    (readCsr s t 0x000 = t.ctl.mode ∧ readCsr s t 0x001 = t.ctl.fstat ∧ readCsr s t 0x002 = t.ctl.regctr ∧
      readCsr s t 0x008 = t.teamNo ∧ readCsr s t 0x009 = t.grid ∧ (readCsr s t 0x00F) ++ (readCsr s t 0x00E) = t.ctl.epc ∧
      (readCsr s t 0x00D) ++ (readCsr s t 0x00C) = s.clock t.place.die ∧
      (∀ k < 4, readCsr s t (0x004 + k) = (t.ctl.finfo[k]?).getD 0) ∧
      (readCsr s t 0x018).toNat = b2n c.debug + 2 * b2n t.ctl.hmode + 4 * b2n t.ctl.slend + 8 * b2n t.ctl.genr ∧
      (readCsr s t 0x040).toNat = c.tid.toNat + 2 ^ 16 * c.cls.toNat + 2 ^ 18 * b2n c.furrow + 2 ^ 19 * b2n c.sys ∧
      readCsr s t 0x030 = c.sharemask ∧ ∀ k < 8, readCsr s t (0x031 + k) = (c.sharetab[k]?).getD 0) ∧
    (∀ d a, let w := val32 s t true 0 a
      let ends (n : BitVec 12) (s1 : State) (t1 : Team) : Prop := exec (.csrw d a n) s = .next
        (s1.setTeam ((t1.writeUni d [readCsr s t n.toNat]).advance (.csrw d a n)))
      (∃ m : Word, ends 0x000 s { t with ctl := { t.ctl with mode := m } } ∧ (∀ k, 4 ≤ k → k < 32 →
          m.getLsbD k = (w.getLsbD k && (decide (k ≤ 12) || k == 15))) ∧ m.getLsbD 3 = false ∧
        m.setWidth 3 = if w.setWidth 3 = 0#3 ∨ w.setWidth 3 = 6#3 ∨
          w.setWidth 3 = 7#3 then t.ctl.mode.setWidth 3 else w.setWidth 3) ∧
      ends 0x001 s { t with ctl := { t.ctl with fstat := t.ctl.fstat &&& ~~~w } } ∧
      (∀ n : BitVec 12, 2 ≤ n.toNat → n.toNat ≤ 0x018 → ends n s t) ∧
      (c.sys = true →
        let anew (n : BitVec 12) (s1 : State) : Prop := ends n (dropHandles s1 t.ctx) t
        anew 0x020 (s.updLaunches t.ctx fun l => { l with htbase := tbaseVa w }) ∧
        ((w.setWidth 13).toNat ≤ 4096 → anew 0x021 (s.updLaunches t.ctx fun l => { l with htlimit := (w.setWidth 13).toNat })) ∧
        (4096 < (w.setWidth 13).toNat → anew 0x021 s) ∧
        anew 0x030 (s.updCtx t.ctx fun c => { c with sharemask := w &&& 0xFF }) ∧
        (∀ k < 8, anew (BitVec.ofNat 12 (0x031 + k))
          (s.updCtx t.ctx fun c => { c with sharetab := c.sharetab.set k (w &&& 0x0003FFFF) })) ∧ ends 0x040 s t) ∧
      ∀ n : BitVec 12, csrKnown n.toNat = true → 0x020 ≤ n.toNat → c.sys = false →
        ∃ s', exec (.csrw d a n) s = .next s' ∧ Stops s s' t 0x02 0) ∧
    (∀ fs op scope a, t.flagFull fs = false → let i := Instr.tlbi fs op scope a
      let arg := match op with
        | .va | .gpa => val64 s t true 0 false a
        | .ctx | .vm => (val32 s t true 0 a).setWidth 64
        | .all => 0
      (c.sys = false → ∃ s', exec i s = .next s' ∧ Stops s s' t 0x02 0) ∧
      (c.sys = true → Scope.beyondCore scope = true → s.readsOut t.uid = false → s.sigsOut t.uid = false →
        ∃ s', exec i s = .next s' ∧ (∀ x, s'.mem.read x = s.coreByte t.place.die t.place.core x) ∧
          (∃ o ∈ s'.ops, o.id = s.nextOp ∧ o.uid = t.uid ∧ o.flag = t.flagOf fs ∧ o.kind = .tlbi op scope arg) ∧
          s'.caches = s.caches ∧ ∃ t', s'.curTeam = some t' ∧ issued i fs t t')) ∧
    (∀ o op scope arg, s.op? o.id = some o → o.kind = .tlbi op scope arg →
      ∃ s', exec (.tlbiComplete o.id) s = .next s' ∧ Ended s s' o id ∧ s'.mem = s.mem ∧ ∀ e, e ∈ s'.caches.tlb ↔
        e ∈ s.caches.tlb ∧ ¬ (tlbiHits op arg o.ctx e = true ∧ scopeHolds ⟨o.die, o.core, 0⟩ scope e.die e.core = true)) ∧
    (∀ o op scope arg s', s.op? o.id = some o → o.kind = .tlbi op scope arg → exec (.tlbiComplete o.id) s = .next s' →
      ∀ e, e ∈ s'.caches.walks ↔ e ∈ s.caches.walks ∧
        ¬ (tlbiHitsWalk op arg o.ctx e = true ∧ scopeHolds ⟨o.die, o.core, 0⟩ scope e.die o.core = true)) ∧
    ∀ u va wr, s.team? u.uid = some u → u.status = .running →
      (∀ x s1, translate s (s.ctxOf u) u.place.die u.place.core va (if wr then .write else .read) = .ok (x, s1) →
        exec (.pageWalkComplete u.uid va wr) s = .next s1) ∧
      ∀ f, translate s (s.ctxOf u) u.place.die u.place.core va (if wr then .write else .read) = .error f →
        (f.code = codePerm → ∃ s', exec (.pageWalkComplete u.uid va wr) s = .next s' ∧ Stops s s' u codePerm 0xFFF) ∧
        (f.code = codeContained → ∃ s', exec (.pageWalkComplete u.uid va wr) s = .next s' ∧ Halts s s' u.ctx codeContained) ∧
        (f.code ≠ codePerm → f.code ≠ codeContained →
          ∃ s' r, exec (.pageWalkComplete u.uid va wr) s = .next s' ∧ s'.mem = s.mem ∧
            s'.team? u.uid = some { u with
              status := .parked [r],
              ctl := { u.ctl with finfo := [r.rpt.finfo0, r.rpt.finfo1, r.rpt.finfo2, r.rpt.finfo3] } } ∧
            (r.s2 = true ↔ f.code ≠ codePage))

/-- R420, R422, R424 to R427: a stop's record is queued once its team has nothing outstanding; a record is written at PROD with
its interrupt; RETRY lets what is parked on the page go on, FAIL stops it, RESTART begins the region again, CONTINUE goes on
behind a trap, KILL ends the team, HALT its context; any other answer changes nothing.
The model's own in it: DEDUCED, log entry 42. -/
def Obligations.RecordsAndAnswers : Prop :=
  ∀ s,
    (∀ t r c, s.team? t.uid = some t → t.status = .stopping r → s.opsOf t.uid = [] → s.ctx? t.ctx = some c →
      ∃ s', exec (.stopRecord t.uid) s = .next s' ∧ s'.mem = s.mem ∧
        s'.team? t.uid = some { t with status := .stopped r c.fq.nextSeq } ∧ s'.ctx? t.ctx = some
          { c with fq := { c.fq with nextSeq := c.fq.nextSeq + 1, pending := c.fq.pending ++ [(c.fq.nextSeq, r)] } }) ∧
    (∀ q f seq r rest, s.fq? q = some f → f.pending = (seq, r) :: rest → recordMay s f = true →
      let h := readHeader s.mem f.header
      let at_ := h.rbase + 256 * (h.prod % 2 ^ h.log2n)
      ∃ s', exec (.faultRecordWrite q) s = .next s' ∧ s'.fq? q = some { f with pending := rest } ∧ s'.teams = s.teams ∧
        s'.mgmt.msix = s.mgmt.msix ++ [BitVec.ofNat 16 h.msix] ∧ s'.mem.readLE (f.header + 12) 4 = (h.prod + 1) % 2 ^ 32 ∧
        ∀ a, (a < f.header + 12 ∨ f.header + 16 ≤ a) → s'.mem.read a =
          if at_ ≤ a ∧ a < at_ + 256 then (recordBytes r seq).getD (a - at_) 0 else s.mem.read a) ∧
    (∀ r seq, (recordBytes r seq).length = 256 ∧ leNat ((recordBytes r seq).take 4) = r.finfo0.toNat ∧
      leNat (((recordBytes r seq).drop 32).take 8) = r.ipc.toNat ∧ leNat (((recordBytes r seq).drop 40).take 8) = r.rpc.toNat ∧
      leNat (((recordBytes r seq).drop 64).take 4) = seq.toNat ∧ leNat ((recordBytes r seq).drop 128) = r.lanes.toNat) ∧
    (∀ q seq ctx p, findReport s q seq = some (ctx, p) →
      (∃ s', exec (.answerRetry q seq) s = .next s' ∧ s'.mem = s.mem ∧ s'.ops = s.ops ∧
        ∀ t, s.team? t.uid = some t → s'.team? t.uid = some
          (if t.ctx = ctx ∧ t.status.parks.any p.page = true then { t with status := .running } else t)) ∧
      (p.s2 = false → ∃ s', exec (.answerFail q seq) s = .next s' ∧ ∀ t r, s.team? t.uid = some t → t.ctx = ctx →
        t.status.parks.find? p.page = some r → ∃ t' f, s'.team? t.uid = some t' ∧ t'.status = .stopping f ∧
          f.finfo0 = r.rpt.finfo0 &&& ~~~(0x0000C000 : Word) ∧ f.rpc = t.resumePc ∧ t'.pc = t.pc ∧ t'.lanes = t.lanes) ∧
      (p.s2 = true → ∃ s', exec (.answerFail q seq) s = .next s' ∧ Halts s s' ctx codePageS2) ∧
      ∃ s', exec (.answerHalt q seq) s = .next s' ∧ Halts s s' ctx p.rpt.code) ∧
    (∀ q seq t r, findStop s q seq = some (t, r) → s.team? t.uid = some t →
      let standing (t' : Team) (pc : DWord) : Prop := t'.status = .running ∧ t'.pc = pc ∧ t'.clause.left = 0 ∧ t'.lanes = t.lanes ∧
        t'.s = t.s ∧ t'.stack = t.stack ∧ t'.active = t.active ∧ t'.scratch = t.scratch
      (∃ t', exec (.answerRestart q seq) s = .next (s.setTeam t') ∧ standing t' t.resumePc ∧ t'.flags = List.replicate 12 0 ∧
        t'.ctl = { t.ctl with hmode := false }) ∧
      (r.code = codeTrap ∨ r.code = codeBkpt → ∃ t', exec (.answerContinue q seq) s = .next (s.setTeam t') ∧
        standing t' (r.ipc + 8) ∧ t'.flags = t.flags ∧ t'.ctl = t.ctl) ∧
      (r.code ≠ codeTrap → r.code ≠ codeBkpt → exec (.answerContinue q seq) s = exec (.answerRestart q seq) s) ∧
      (∃ s', exec (.answerKill q seq) s = .next s' ∧ s'.team? t.uid = none ∧
        (∀ g, s.grid? t.grid = some g → ∃ g', s'.grid? t.grid = some g' ∧ t.teamNo ∈ g'.retired) ∧
        (∀ o ∈ s'.ops, o.uid = t.uid → o.kind.owed = false) ∧ ∀ x ∈ s'.fill.items, x.holder ≠ some t.uid) ∧
      (findReport s q seq = none → ∃ s', exec (.answerHalt q seq) s = .next s' ∧ Halts s s' t.ctx r.code)) ∧
    ∀ q seq, (findReport s q seq = none → exec (.answerRetry q seq) s = .next s ∧ exec (.answerFail q seq) s = .next s) ∧
      (findStop s q seq = none → exec (.answerRestart q seq) s = .next s ∧ exec (.answerContinue q seq) s = .next s ∧
        exec (.answerKill q seq) s = .next s) ∧ ∀ a, exec (.answerIgnored q seq a) s = .next s

/-- R208, R209, R227 to R229, R295: lines arrive and the stores that waited for them are applied; refusals are told and sent
again, the first that was refused eight times before any other; a poisoned line, a counted error, a line dropped from the
private caches; an uncorrectable error kills its team, which starts again or halts its context; an error response halts its
context.
The model's own in it: DESIGN CHOICE, log entries 11, 20, 109; DEDUCED, log entry 41. -/
def Obligations.MemoryErrors : Prop :=
  ∀ s,
    (∀ die line,
      let ws := ((s.caches.l2.find? fun x => x.die == die && x.line == line).map (·.pending)).getD []
      ∃ s', exec (.l2FillArrival die line) s = .next s' ∧ s'.teams = s.teams ∧
        s'.caches = { s.caches with l2 := s.caches.l2.map fun x =>
          if x.die = die ∧ x.line = line then { x with pending := [], starved := none } else x } ∧
        ((∀ w ∈ ws, w.kind ≠ 2) → s'.mem = s.mem ∧ s'.ops = s.ops) ∧
        ∀ w o cs r a, ws = [w] → w.kind = 2 → s.op? w.op = some o → o.kind = .store cs r false → a ∈ cs.map (·.1) →
          lineOf a = line → (∀ p ∈ s.queue o.die o.core, p ≠ o → ∀ c ∈ p.kind.cells, c.1 ≠ a) →
          some (s'.mem.read a) = cellLookup cs a) ∧
    (∀ op, ∃ s', exec (.nackRetry op) s = .next s' ∧ s' = { s with caches := { s.caches with nacks := s'.caches.nacks } } ∧
      s'.caches.nacks = s.caches.nacks.map fun n => if n.who.op = op then { n with told := true } else n) ∧
    (∀ op, ∃ s', exec (.nackRetryResend op) s = .next s' ∧ s'.mem = s.mem ∧ s'.ops = s.ops ∧ s'.teams = s.teams ∧
      (∀ n ∈ s.caches.nacks, n.who.op ≠ op → n ∈ s'.caches.nacks) ∧
      ∀ n, s.caches.nacks = [n] → n.who.op = op → n.told = true →
        (∀ xs, l2Try s n.die n.line (some n.who) n.cls n.stream = some xs → s'.caches.nacks = [] ∧ s'.caches.l2 = xs) ∧
        (l2Try s n.die n.line (some n.who) n.cls n.stream = none →
          s'.caches.nacks = [{ n with count := n.count + 1, told := false }] ∧
          (n.count + 1 < 8 → s'.caches.l2 = s.caches.l2) ∧ (8 ≤ n.count + 1 → (s'.starvedAt n.die n.line).isSome = true))) ∧
    (∀ die line (w : Option Waiter) cls stream op, s.starvedAt die line = some op → (∀ x, w = some x → x.op ≠ op) →
      (∀ x ∈ s.caches.l2, x.die = die → x.line = line → x.pending ≠ []) → l2Try s die line w cls stream = none) ∧
    (∀ line, ∃ s', exec (.l2Poison line) s = .next s' ∧ s' = { s with poison := s'.poison } ∧
      ∀ l, l ∈ s'.poison ↔ l = line ∨ l ∈ s.poison) ∧
    (∀ die, let count (s : State) (d : Nat) : Nat := ((s.mgmt.corrected.find? (·.1 == d)).map (·.2)).getD 0
      let counts (i : Instr) (s' : State) : Prop := exec i s = .next s' ∧ ∀ d, count s' d = count s d + if d = die then 1 else 0
      (∃ s', counts (.eccCorrectable ⟨die, none⟩) s' ∧ s' = { s with mgmt := { s.mgmt with corrected := s'.mgmt.corrected } }) ∧
      (∀ core line, ∃ s', counts (.eccCorrectable ⟨die, some (core, line)⟩) s' ∧ s' = { s with
        mgmt := { s.mgmt with corrected := s'.mgmt.corrected },
        caches := { s.caches with
          l1 := s.caches.l1.filter fun x => ¬ (x.die = die ∧ x.core = core ∧ x.line = line),
          ro := s.caches.ro.filter fun x => ¬ (x.die = die ∧ x.core = core ∧ x.line = line) } }) ∧
      ∀ uid source word, s.team? uid = none → ∃ s', counts (.eccScratchError ⟨die, uid⟩ source word) s' ∧
        s' = { s with mgmt := { s.mgmt with corrected := s'.mgmt.corrected } }) ∧
    (∀ die t source word, s.team? t.uid = some t → t.uid ≠ s.nextUid →
      (∀ g, s.grid? t.grid = some g → g.lr.idemp = true → t.noRelaunch = false →
        ∃ s' u, exec (.eccScratchError ⟨die, t.uid⟩ source word) s = .next s' ∧ s'.team? t.uid = none ∧ u ∈ s'.teams ∧
          u.uid = s.nextUid ∧ u.teamNo = t.teamNo ∧ u.grid = t.grid ∧ u.place = t.place ∧ u.pc = g.lr.entry ∧
          u.status = .running) ∧
      ((∀ g, s.grid? t.grid = some g → g.lr.idemp = false ∨ t.noRelaunch = true) →
        ∃ s', exec (.eccScratchError ⟨die, t.uid⟩ source word) s = .next s' ∧ s'.team? t.uid = none ∧ Halts s s' t.ctx codeEcc)) ∧
    ∀ o, s.op? o.id = some o → (∀ t, s.teamAny o.uid = some t → t.ctx = o.ctx) →
      ∃ s', exec (.errorRsp o.id) s = .next s' ∧ Halts s s' o.ctx codeContained

/-- R437, R438, R440 to R444: the end of a slice saves the context's teams at blocking points and flags or forces the others;
BUDGET at zero forces those that remain; the save is complete once every team has left and nothing runs; the watchdog ends an
item that still runs and halts its context.
The model's own in it: DESIGN CHOICE, log entries 66, 71; DEDUCED, log entries 64, 65, 91. -/
def Obligations.SlicesEndAndContextsAreSaved : Prop :=
  ∀ s ctx c, s.ctx? ctx = some c →
    (c.halted = none → (∀ v ∈ s.saved, v.ctx ≠ ctx) → (s.teams.map (·.uid)).Nodup →
      (∀ t ∈ s.teams, ∀ o ∈ s.ops, t.status = .waiting (.remote o.id) → o.uid = t.uid) →
      ∃ s', exec (.sliceEnd ctx) s = .next s' ∧
        s'.ctx? ctx = some { c with sliceEnd := true, budget := some c.ybudget, due := none } ∧
        ∀ t ∈ s.teams, t.ctx = ctx → t.retiring = false → t.leave = .stay → t.ctl.slend = false → stalledFull s t = false →
          ((t.status.blocks = true ∧ s.tileMail t.uid = false ∨ t.status.isStopped = true) → s'.team? t.uid = none ∧
            ∃ v ∈ s'.saved, v.ctx = ctx ∧ v.complete = false ∧ ∃ u ∈ v.teams, u.uid = t.uid ∧ u.lanes.length = t.lanes.length) ∧
          (t.status.blocks = false → t.status.isStopped = false → s'.team? t.uid = some
            (if s.yieldPc t ≠ 0 then { t with ctl := { t.ctl with slend := true } } else { t with leave := .forced }))) ∧
    (c.budget = some 0 → c.sliceEnd = true → ∃ s', exec (.budgetExpiry ctx) s = .next s' ∧ s'.mem = s.mem ∧ s'.ops = s.ops ∧
      ∀ t, s.team? t.uid = some t → s'.team? t.uid = some
        (if t.ctx = ctx ∧ t.retiring = false ∧ t.leave = .stay then { t with leave := .forced } else t)) ∧
    (∀ v, (s.saved.find? (·.ctx == ctx)) = some v → v.complete = false → (∀ t ∈ s.teams, t.ctx ≠ ctx) →
      (∀ o ∈ s.ops, o.ctx = ctx → leavesWithImage s o = true) → gridsDue s ctx = false → s.mgmt.mbox.ending ≠ some ctx →
      v.teams ≠ [] →
      let ts := v.teams.map fun t => if t.leave = .stay then t else (savedForm s t).2.left
      ∃ s' c' w, exec (.saveComplete ctx) s = .next s' ∧ s'.ctx? ctx = some c' ∧ c'.nonce = c.nonce + 1 ∧ c'.sliceEnd = false ∧
        c'.budget = none ∧ (s'.saved.find? (·.ctx == ctx)) = some w ∧ w.complete = true ∧ w.nonce = c.nonce + 1 ∧
        w.teams = ts ∧ w.image = imageOf s c v.halted (c.nonce + 1) ts ∧ s'.mem = s.mem) ∧
    ∀ o, s.op? o.id = some o → o.ctx = ctx → overrun s o = true → (∀ t, s.teamAny o.uid = some t → t.ctx = ctx) →
      ∃ s', exec (.watchdogExpiry o.id) s = .next s' ∧ s'.op? o.id = none ∧ Halts s s' ctx codeWatchdog

/-- Traps, handlers, control registers and TLB invalidation: the claims above together.
The model's own in it: DEDUCED, log entries 10, 40, 43. -/
def Obligations.TrapsAndControlRegisters : Prop :=
  Sys2Proof.Claims.TrapsAndHandlers ∧ Sys2Proof.Claims.ControlRegistersAndTlbi

/-! ### Launches (17) -/

/-- R466, R471 to R474, R478: `qpost` and `spawn` read the record, make the core's earlier stores coherent memory's and append it
under a grid id that no live grid has; `qwait` gives DONE, or the room, once it is due; a ring's front end takes one entry.
The model's own in it: DESIGN CHOICE, log entry 17; DEDUCED, log entries 42, 51. -/
def Obligations.LaunchesAreAccepted : Prop :=
  (∀ s t fs (r : RecRef) bs s1, s.curTeam = some t → t.flagFull fs = false → s.readsOut t.uid = false →
    s.sigsOut t.uid = false →
    let reads (i : Instr) : Prop := readRecord s t i (some fs) .readRec r 256 8 = .ok (bs, s1)
    let drained (s' : State) : Prop := ∀ a, s'.mem.read a = s1.coreByte t.place.die t.place.core a
    (∀ (q : BitVec 8) p x, reads (.qpost fs q r) → s.queueOf t q.toNat = some (p, x) → x.enable = true → x.recs.length < 16 →
      ∃ s' p', exec (.qpost fs q r) s = .next s' ∧ drained s' ∧ s'.curTeam = some (t.spent.advance (.qpost fs q r)) ∧
        s'.part? p.id = some p' ∧ p'.queue q.toNat = some
          { x with recs := x.recs ++ [(newGridId s, launchOf bs)], posted := x.posted + 1 } ∧
        (∀ k, k ≠ q.toNat → p'.queue k = p.queue k) ∧ s'.ops.map (·.id) = s.ops.map (·.id)) ∧
    (∀ d shape p, reads (.spawn fs d r shape) → s.partOf t = some p → (shape = .none ∨ val64 s t true 0 false shape >>> 40 = 0) →
      (p.spawns.filter fun x => x.die == t.place.die && x.gen.isNone).length < 64 →
      let l := if shape = .none then launchOf bs else reshape (launchOf bs) (val64 s t true 0 false shape)
      ∃ s', exec (.spawn fs d r shape) s = .next s' ∧ drained s' ∧
        s'.curTeam = some ((t.spent.writeUni d [newGridId s]).advance (.spawn fs d r shape)) ∧
        s'.part? p.id = some { p with spawns := p.spawns ++ [⟨t.place.die, t.ctx, newGridId s, l, none⟩] })) ∧
  (∀ s : State, s.gridIds.length < 2 ^ 32 → (newGridId s).toNat ∉ s.gridIds) ∧
  (∀ s t d n (q : BitVec 8) p x, s.curTeam = some t → s.queueOf t q.toNat = some (p, x) →
    let due : Prop := (x.done - val32 s t true 0 n).toNat < 2 ^ 31
    let ends (i : Instr) (w : Word) : Prop := exec i s = .next (s.setTeam ((t.writeUni d [w]).advance i))
    let waits (i : Instr) : Prop := exec i s = .next (s.setTeam { t with status := .waiting (.queue p.id q.toNat) })
    (due → exec (.qwaitDone d n q) s =
      .next (s.setTeam ((t.acquireAll.writeUni d [x.done]).advance (.qwaitDone d n q)))) ∧ (¬ due → waits (.qwaitDone d n q)) ∧
    (x.recs.length < 16 → ends (.qwaitSpace d q) (BitVec.ofNat 32 (16 - x.recs.length))) ∧
    (16 ≤ x.recs.length → waits (.qwaitSpace d q))) ∧
  (∀ s u p q, s.team? u.uid = some u → u.status = .waiting (.queue p q) →
    exec (.qwaitWake u.uid) s = .next (if u.leave = .forced then s else s.setTeam { u with status := .running })) ∧
  (∀ s part q p x, s.part? part = some p → p.queue q = some x → x.ring ≠ 0 → x.enable = true → x.recs.length < 16 →
    s.coh.die0Dead = false →
    let n := s.mem.readLE (x.ring + 4) 1
    let head := s.mem.readLE (x.ring + 128) 4
    let held := (BitVec.ofNat 32 (s.mem.readLE x.ring 4) - BitVec.ofNat 32 head : Word).toNat
    n ≤ 16 → held ≠ 0 →
    (held ≤ 2 ^ n → ∃ s' p', exec (.hostRingEntry part q) s = .next s' ∧ s'.part? part = some p' ∧ s'.teams = s.teams ∧
      p'.queue q = some { x with
        recs := x.recs ++ [(newGridId s, launchOf (s.mem.readBytes (x.ring + 256 + head % 2 ^ n * 256) 256))]
        posted := x.posted + 1 } ∧ s'.mem.readLE (x.ring + 128) 4 = (head + 1) % 2 ^ 32 ∧
      ∀ a, (a < x.ring + 128 ∨ x.ring + 132 ≤ a) → s'.mem.read a = s.mem.read a) ∧
    (2 ^ n < held → ∃ s' p', exec (.hostRingEntry part q) s = .next s' ∧ s'.part? part = some p' ∧ s'.mem = s.mem ∧
      p'.queue q = some { x with enable := false }))

/-- R463, R464, R467 to R469, 01 R15, R29 to R31: the firmware takes the candidate of the first rank that fits, or that is
refused and whose counter can be reached; a refused record leaves a record with the item's number; an accepted one is a grid,
whose teams are bound to free slots with zero registers, every lane active and the pc at the entry, or from their image with the
registers they had; a record that is not VALID binds none; a grid is released once every team that has not retired holds a slot.
-/
def Sys2Proof.Claims.GridsAreScheduledAndBound : Prop :=
  (∀ s part p c src cores, s.part? part = some p → nextCand s p = some c → c.src = src →
    c ∈ candidates s p ∧
    (∀ d ∈ candidates s p, (d.refused s p ≠ 0 ∧ (finishLaunch s d.ctx d.lr d.gen.isSome).isSome = true ∨
      d.refused s p = 0 ∧ (findPlace s p d.lr d.id).isSome = true) → c.rank p ≤ d.rank p) ∧
    (c.refused s p = 0 → bindsPending s = false → placeLegal s p c.lr c.id cores = true →
      ∃ s' g, exec (.scheduleLaunch part src cores) s = .next s' ∧ s'.grid? c.id = some g ∧ s'.mem = s.mem ∧ s'.teams = s.teams ∧
        g.ctx = c.ctx ∧ g.lr = c.lr ∧ g.cores = cores ∧ g.nteams = c.lr.teams ∧ g.bound = [] ∧ g.retired = [] ∧
        g.complete = false ∧ (∀ k, k ≠ c.id → s'.grid? k = s.grid? k) ∧
        (∀ q x, src = .queue q → p.queue q = some x → ∃ p', s'.part? p.id = some p' ∧ p'.queue q = some
          { x with recs := x.recs.drop 1, live := some c.id }) ∧
        ∀ die, src = .spawn die → ∃ p', s'.part? p.id = some p' ∧ ∀ y ∈ p'.spawns, y.id ≠ c.id) ∧
    ∀ s1 x, c.refused s p ≠ 0 → s.ctx? c.ctx = some x → refuse s p c (c.refused s p) = some s1 →
      exec (.scheduleLaunch part src cores) s = .next s1 ∧ ∃ y r, s1.ctx? c.ctx = some y ∧
        y.fq.pending = x.fq.pending ++ [(x.fq.nextSeq, r)] ∧ r.finfo0.extractLsb' 24 8 = 0x01 ∧
        r.finfo2 = BitVec.ofNat 32 (c.refused s p) ∧ r.grid = c.id) ∧
  (∀ (l : Launch) part cap grant, l.refusal part cap grant = 0 ↔
    l.resvOk = true ∧ l.rangesOk = true ∧ l.stepsOk = true ∧ l.entry.toNat % 32 = 0 ∧ l.yieldPc.toNat % 32 = 0 ∧
      l.fits = true ∧ l.part = part ∧ l.prio ≤ cap ∧ ¬ (l.wphase = true ∧ l.gfx = true) ∧ (l.pkgs ≤ 1 ∨ grant = true) ∧
      l.fmts.any slotRefused = false) ∧
  (∀ s (r : BindRec), (r.valid = false ∨ s.coh.die0Dead = true) → exec (.bindRecord r) s = .next s) ∧
  (∀ s (r : BindRec) g, s.grid? r.grid = some g → r.valid = true → s.coh.die0Dead = false → g.released = false → g.ctx = r.ctx →
    r.team.toNat < g.nteams →
    r.team ∉ g.bound → r.team ∉ g.retired → slotTakes s g.lr r.die r.core r.slot = true →
    (r.restore = false → (∀ t ∈ s.teams, t.uid ≠ s.nextUid) →
      ∃ s' t, exec (.bindRecord r) s = .next s' ∧ s'.team? s.nextUid = some t ∧ s'.mem = s.mem ∧
        (∀ u, u ≠ s.nextUid → s'.team? u = s.team? u) ∧ t.grid = g.id ∧ t.ctx = g.ctx ∧ t.teamNo = r.team ∧
        t.place = ⟨r.die, r.core, r.slot⟩ ∧ t.slotRec = r ∧ t.pc = g.lr.entry ∧ t.nlanes = g.lr.lanes ∧ t.nvregs = g.lr.vregs ∧
        t.status = .running ∧ t.stack = [] ∧ t.ctl.mode = 1 ∧ t.ctl.fstat = 0 ∧ t.ctl.regctr = 0 ∧
        (∀ L < g.lr.lanes, L < 1024 → t.active.has L = true) ∧ (∀ L n, t.vreg L n = 0) ∧ (∀ n, t.sreg n = 0) ∧
        (∀ L, L < g.lr.lanes → ∀ q, q ≠ 7 → t.pred L q = false) ∧ (∀ n, t.flag n = 0) ∧ (∀ a, t.scratch.read a = 0)) ∧
    ∀ t, r.restore = true → savedTeam s r.ctx r.grid r.team = some t → (∀ u ∈ s.teams, u.uid ≠ t.uid) →
      ∃ s' t', exec (.bindRecord r) s = .next s' ∧ s'.team? t.uid = some t' ∧ s'.mem = s.mem ∧
        t'.place = ⟨r.die, r.core, r.slot⟩ ∧ t'.slotRec = r ∧ t'.status = .running ∧ t'.lanes = t.lanes ∧ t'.s = t.s ∧
          t'.pc = t.pc ∧
        t'.stack = t.stack ∧ t'.active = t.active ∧ t'.scratch = t.scratch ∧ t'.flags = t.flags ∧ t'.ctl = t.ctl) ∧
  ∀ s g, s.grid? g.id = some g → g.complete = false → (∀ n < g.nteams, g.unbound n = false) →
    ∃ s', exec (.gridRelease g.id) s = .next s' ∧ s'.grid? g.id = some { g with released := true } ∧ s'.teams = s.teams ∧
      s'.mem = s.mem

/-- 01 R30, 17 R466: a grid all of whose teams have retired completes once nothing is charged to it: its counter is incremented,
its signal raised, its queue's DONE counted; a generator's grid counts and signals nothing. -/
def Sys2Proof.Claims.GridsEnd : Prop :=
  ∀ s g, s.grid? g.id = some g → g.complete = false → g.retired.length = g.nteams → (∀ o ∈ s.ops, o.grid ≠ g.id) →
    (∀ t ∈ s.ghosts, t.grid ≠ g.id) → s.uses = [] →
    let i := Instr.gridCompletion g.id
    let done (s' : State) : Prop := s'.grid? g.id = some { g with complete := true } ∧ s'.teams = s.teams ∧
      (∀ q p x, g.queue = some q → s.part? g.part = some p → p.queue q = some x →
        ∃ p' y, s'.part? g.part = some p' ∧ p'.queue q = some y ∧ y.done = x.done + 1 ∧ y.live ≠ some g.id ∧ y.recs = x.recs)
    let rung (s' : State) : Prop :=
      s'.mgmt.msix = if g.lr.sigvec = 0xFFFF then s.mgmt.msix else s.mgmt.msix ++ [g.lr.sigvec]
    (g.gen.isSome = true → ∃ s', exec i s = .next s' ∧ done s' ∧ s'.mem = s.mem ∧ s'.mgmt.msix = s.mgmt.msix) ∧
    (g.gen = none → g.lr.cntva = 0 → ∃ s', exec i s = .next s' ∧ done s' ∧ rung s' ∧ s'.mem = s.mem) ∧
    ∀ c pa k s1, g.gen = none → g.lr.cntva ≠ 0 → s.ctx? g.ctx = some c →
      translate s c (4 * s.boot.pkg) 0 g.lr.cntva .atomic = .ok (⟨pa, k⟩, s1) →
      ∃ s', exec i s = .next s' ∧ done s' ∧ rung s' ∧ s'.mem.readLE pa 4 = (s1.mem.readLE pa 4 + 1) % 2 ^ 32 ∧
        ∀ a, (a < pa ∨ pa + 4 ≤ a) → s'.mem.read a = s1.mem.read a

/-- Grids are scheduled, bound to slots and completed: the claims above together.
The model's own in it: DESIGN CHOICE, log entries 61, 85; DEDUCED, log entries 49, 50, 60, 67. -/
def Obligations.GridsLiveAndEnd : Prop :=
  Sys2Proof.Claims.GridsAreScheduledAndBound ∧ Sys2Proof.Claims.GridsEnd

/-! ### Coherence between dies, dead agents, migration (11, 16) -/

namespace Sys2Proof.Claims

/-- A message changes the coherence state alone. -/
def onlyCoh (s s' : State) : Prop := s' = { s with coh := s'.coh }

/-- A message changes the coherence state and the records of tiles. -/
def cohAndTiles (s s' : State) : Prop := s' = { s with coh := s'.coh, tiles := s'.tiles }

/-- A message changes the coherence state, and dies lose their cached copies of a line. -/
def lostCopies (s s' : State) (dies : List Nat) (line : Nat) : Prop :=
  s' = { s with coh := s'.coh, caches := (s.dropCopies dies line).caches }

/-- What an event puts on the network. -/
def sends (s s' : State) (ms : List Instr) : Prop := s'.coh.net = s.coh.net ++ ms

/-- The grants that a home has sent to a requester, and those unacknowledged, rise by one. -/
def granted (s s' : State) (m : LineMsg) : Prop :=
  s'.seqOf m.home m.peer =
    { s.seqOf m.home m.peer with sent := (s.seqOf m.home m.peer).sent + 1, unacked := (s.seqOf m.home m.peer).unacked + 1 }

end Sys2Proof.Claims

/-- R286, R291, R292, R294, R517 at the home of a line: a read takes an unheld line for one, a held clean one or a line of a
SEALED tile shared, and is forwarded to an owner; an exclusive read or an upgrade waits for the sharers' acknowledgements and
leaves no copy at the home; acknowledgements and write-backs take holders out, and a tile whose last one it is leaves the
directory; cores of the home's die are served and not entered; a full directory evicts an entry first, with BackInv to each of
its holders. -/
def Sys2Proof.Claims.HomesGrantLines : Prop :=
  ∀ s (m : LineMsg), let d := s.lineDir m.home m.line
    let next (m : LineMsg) (excl : Bool) : LineMsg := { m with seq := (s.seqOf m.home m.peer).sent + 1, excl }
    let others := d.sharers.filter (· != m.peer)
    let trk := tracked m.home m.peer
    let shares := d.sharers ≠ [] ∨ s.sealedLine m.line = true
    (d.await = [] → s.mayGrant m.home m.peer = true → dirFull s m = false →
      (d.owner = none → trk = false → ∃ s', exec (.readShared m) s = .next s' ∧ onlyCoh s s' ∧
        granted s s' m ∧ s'.coh.dir = s.coh.dir ∧ sends s s' [.dataRsp (next m false)]) ∧
      (d.owner = none → trk = true → ¬ shares → ∃ s', exec (.readShared m) s = .next s' ∧ onlyCoh s s' ∧ granted s s' m ∧
        s'.lineDir m.home m.line = { d with st := .e, owner := some m.peer } ∧ sends s s' [.dataRsp (next m true)]) ∧
      (d.owner = none → trk = true → shares → ∃ s', exec (.readShared m) s = .next s' ∧ onlyCoh s s' ∧ granted s s' m ∧
        (s'.lineDir m.home m.line).st = .s ∧ (∀ w, w ∈ (s'.lineDir m.home m.line).sharers ↔ w = m.peer ∨ w ∈ d.sharers) ∧
        sends s s' [.dataRsp (next m false)]) ∧
      (∀ o, d.owner = some o → o ≠ m.peer →
        let probe (dirty : Bool) : LineMsg := { m with
          peer := o, seq := (s.seqOf m.home o).sent, rseq := (s.seqOf m.home m.peer).sent + 1, dest := m.peer, dirty, excl :=
            false }
        (∃ s', exec (.readShared m) s = .next s' ∧ onlyCoh s s' ∧ granted s s' m ∧
          s'.lineDir m.home m.line = { d with await := [o] } ∧ sends s s' [.forwardShared (probe false)]) ∧
        (others = [] → ∃ s', exec (.readExclusive m) s = .next s' ∧ onlyCoh s s' ∧ granted s s' m ∧
          s'.lineDir m.home m.line = { d with await := [o] } ∧ sends s s' [.forwardExclusive (probe m.dirty)])) ∧
      (d.owner = some m.peer → exec (.readShared m) s = .next s ∧ exec (.readExclusive m) s = .next s) ∧
      (d.owner = none → others = [] → ∃ s', exec (.readExclusive m) s = .next s' ∧ granted s s' m ∧
        (trk = true → lostCopies s s' [m.home] m.line) ∧ (trk = false → onlyCoh s s') ∧ s'.lineDir m.home m.line =
          (if trk then { d with st := .e, owner := some m.peer, sharers := [] } else ⟨m.home, m.line, .i, none, [], []⟩) ∧
        sends s s' [.dataRsp (next m true)]) ∧
      (others = [] → (d.owner = none ∧ m.peer ∈ d.sharers ∨ d.owner = some m.peer) → ∃ s', exec (.upgrade m) s = .next s' ∧
        lostCopies s s' [m.home] m.line ∧ granted s s' m ∧
        s'.lineDir m.home m.line = { d with st := .e, owner := some m.peer, sharers := [] } ∧
        sends s s' [.grant (next m true)]) ∧
      ∀ w, d.owner = none → others = [w] → m.peer ∈ d.sharers →
        let inv : Instr := .inv ⟨m.home, w, m.line, (s.seqOf m.home w).sent, 0, w, false, false⟩
        ∀ i, (i = .upgrade m ∨ i = .readExclusive m) → ∃ s', exec i s = .next s' ∧ onlyCoh s s' ∧ sends s s' [inv, i] ∧
          s'.lineDir m.home m.line = { d with await := [w] }) ∧
    ((d.await ≠ [] ∨ s.mayGrant m.home m.peer = false) → ∀ i, (i = .readShared m ∨ i = .readExclusive m ∨ i = .upgrade m) →
      exec i s = .next (s.send i)) ∧
    (d.await = [] → s.mayGrant m.home m.peer = true → dirFull s m = true → (∃ e ∈ s.coh.dir, e.home = m.home ∧ e.await = []) →
      (∀ e ∈ s.coh.dir, e.await = [] → e.owner.toList ++ e.sharers ≠ []) →
      ∀ i, (i = .readShared m ∨ i = .readExclusive m) → ∃ s', ∃ e ∈ s.coh.dir, exec i s = .next s' ∧ onlyCoh s s' ∧
        e.home = m.home ∧ e.await = [] ∧ s'.lineDir e.home e.line = { e with await := e.owner.toList ++ e.sharers } ∧
        let probe (w : Requester) : LineMsg := ⟨e.home, w, e.line, (s.seqOf e.home w).sent, 0, w, false, false⟩
        sends s s' ((e.owner.toList ++ e.sharers).map (fun w => .backInv (probe w)) ++ [i])) ∧
    (d.owner = some m.peer → ∃ s', exec (.writeBack m) s = .next s' ∧ onlyCoh s s' ∧
      (s'.lineDir m.home m.line).owner = none ∧ (s'.lineDir m.home m.line).sharers = d.sharers) ∧
    (d.owner ≠ some m.peer → exec (.writeBack m) s = .next s) ∧
    (∀ i, (i = .invAck m ∨ i = .backInvAck m) → ∃ s', exec i s = .next s' ∧ cohAndTiles s s' ∧
      let d' := s'.lineDir m.home m.line
      d'.owner = (if d.owner = some m.peer then none else d.owner) ∧ d'.sharers = d.sharers.filter (· != m.peer) ∧
        d'.await = d.await.filter (· != m.peer) ∧
        ∀ u ∈ s'.tiles.tiles, u.live = true → u.leaving = true → ∃ k ∈ u.probed, s'.tileAwaits u k = true) ∧
    (m.peer ∉ d.await → exec (.forwardAck m) s = .next s) ∧
    (m.peer ∈ d.await → ∃ s', exec (.forwardAck m) s = .next s' ∧ onlyCoh s s' ∧ let d' := s'.lineDir m.home m.line
      let trd := tracked m.home m.dest
      d'.await = d.await.filter (· != m.peer) ∧
        (m.excl = true → d'.owner = (if trd then some m.dest else none) ∧ (trd = true → d'.st = .e) ∧ m.dest ∉ d'.sharers) ∧
        (m.excl = false → m.dirty = true → d.owner.isSome → d'.owner = d.owner ∧ (trd = true ∨ d.sharers ≠ [] → d'.st = .o) ∧
          (trd = true → m.dest ∈ d'.sharers)) ∧
        (m.excl = false → m.dirty = false → trk = true → d'.st = .s ∧ d'.owner = none ∧ m.peer ∈ d'.sharers ∧
          (trd = true → m.dest ∈ d'.sharers))) ∧
    ∃ s', exec (.grantAck m) s = .next s' ∧ onlyCoh s s' ∧
      s'.seqOf m.home m.peer = { s.seqOf m.home m.peer with unacked := (s.seqOf m.home m.peer).unacked - 1 }

/-- R205, R291, R292, R294, R517 at a holder: a reply or a grant gives the line, in E when it is for it alone (in M where dirty data
or a waiting store comes with it), is acknowledged and lets held probes act, and the holder's dies enter the presence masks of
the line's tiles; a probe that came before the grant that it follows is held; else an Inv or a back-invalidation empties the
line with every cached copy of its dies, a forward gives it to the requester and leaves it in O, S or I. -/
def Sys2Proof.Claims.HoldersAnswerProbes : Prop :=
  ∀ s (m : LineMsg),
    let was := s.heldLine m.peer m.line
    let others (s' : State) : Prop := ∀ w l, (w ≠ m.peer ∨ l ≠ m.line) → s'.heldLine w l = s.heldLine w l
    let gone (s' : State) : Prop := lostCopies s s' (reqDies m.peer) m.line ∧ s'.heldLine m.peer m.line = .i ∧ others s'
    (∀ i, (i = .dataRsp m ∨ i = .forwardedData m ∨ i = .grant m) → tracked m.home m.peer = true →
      ∃ s', exec i s = .next s' ∧ cohAndTiles s s' ∧
        (∀ u ∈ s'.tiles.tiles, u.live = true → u.dir = true → tileHas s u m.line = true → ∀ k ∈ reqDies m.peer, k ∈ u.presence) ∧
        s'.heldLine m.peer m.line = (if m.excl = false then .s else if m.dirty = true then .m else .e) ∧ others s' ∧
        s'.coh.hold = [] ∧ s'.coh.net = s.coh.hold ++ s.coh.net ++ [.grantAck m] ∧
        ((m.seq - (s.seqOf m.home m.peer).recvd).toNat ≤ 8 → (s'.seqOf m.home m.peer).recvd = m.seq)) ∧
    (∀ i, (probeEarly s m = true ∧ (i = .inv m ∨ i = .forwardShared m ∨ i = .forwardExclusive m ∨ i = .backInv m) ∨
        tileGrantOut s m = true ∧ i = .backInv m) →
      ∃ s', exec i s = .next s' ∧ onlyCoh s s' ∧ s'.coh.hold = s.coh.hold ++ [i] ∧ s'.coh.held = s.coh.held ∧ sends s s' []) ∧
    (probeEarly s m = false →
      let reply (excl : Bool) : List Instr :=
        [.forwardedData { m with peer := m.dest, seq := m.rseq, excl, dirty := was.dirty || m.dirty },
         .forwardAck { m with excl, dirty := was.dirty }]
      (∃ s', exec (.inv m) s = .next s' ∧ gone s' ∧ sends s s' [.invAck m]) ∧
      (∃ s', exec (.forwardShared m) s = .next s' ∧ onlyCoh s s' ∧ others s' ∧ sends s s' (reply false) ∧
        s'.heldLine m.peer m.line = if was = .m ∨ was = .o then .o else .s) ∧
      (∃ s', exec (.forwardExclusive m) s = .next s' ∧ gone s' ∧ sends s s' (reply true)) ∧
      (tileGrantOut s m = false → ∃ s', exec (.backInv m) s = .next s' ∧ gone s' ∧ sends s s'
        (if was = .m ∨ was = .o then [.writeBack { m with dirty := true }, .backInvAck m] else [.backInvAck m])))

/-- R229, R295, R296: an agent that misses its deadline is dead, the lines that it owned are poisoned, and the contexts that wait
for it halt; with die 0 every busy context of the package halts and ownership ends. -/
def Sys2Proof.Claims.DeadAgentsAreContained : Prop :=
  ∀ s a, (s.teams.map (·.uid)).Nodup → (∀ o ∈ s.ops, ∀ t, s.teamAny o.uid = some t → t.ctx = o.ctx) →
    let poisons (s' : State) : Prop := ∀ d ∈ s.coh.dir, (∃ o, d.owner = some o ∧ agentOwns a o = true) → d.line ∈ s'.poison
    (a ≠ .die (4 * s.boot.pkg) → ∃ s', exec (.agentDeadlineMiss a) s = .next s' ∧ a ∈ s'.coh.dead ∧ poisons s' ∧
      (∀ c ∈ waitingOn s a, Halts s s' c codeContained) ∧
      ∀ t, s.team? t.uid = some t → t.ctx ∉ waitingOn s a → ∃ t', s'.team? t.uid = some t' ∧ t'.pc = t.pc ∧ t'.lanes = t.lanes) ∧
    (a = .die (4 * s.boot.pkg) → ∃ s', exec .die0Dead s = .next s' ∧ exec (.agentDeadlineMiss a) s = .next s' ∧ a ∈ s'.coh.dead ∧
      s'.coh.die0Dead = true ∧ s'.mgmt.owner.valid = false ∧ poisons s' ∧ (∀ c ∈ busyCtxs s, Halts s s' c codeContained) ∧
      ∀ t ∈ s'.teams, s.ctx? t.ctx = none ∨ ∃ c, s.ctx? t.ctx = some c ∧ c.halted.isSome = true)

/-- R433 to R436: a migration command runs alone; HARVEST moves the frame's dirty bits into MASK, COPY copies the chunks of MASK
to the destination, SWITCH maps the frame to the destination with every byte that it had; an illegal one is refused. -/
def Sys2Proof.Claims.FramesMigrate : Prop :=
  ∀ s die, let x := s.migOf die
    (∀ i cmd, (i = .harvest die ∧ cmd = 1 ∨ i = .copy die ∧ cmd = 2 ∨ i = .switch die false ∧ cmd = 3 ∨ i = .switch die true ∧
      cmd = 4) →
      (x.stat ≠ 1 → ∃ s', exec i s = .next s' ∧ s'.migOf die = { x with stat := 1, cmd } ∧ s'.mem = s.mem ∧
        ∀ d, d ≠ die → s'.migOf d = s.migOf d) ∧ (x.stat = 1 → exec i s = .next s)) ∧
    (x.stat = 1 →
      let fits : Prop := servesFrame s die x.frame = true ∧ x.dest < mediaUnits ∧
        (x.cmd = 1 ∨ locTaken s die x.frame x.dest = false)
      let base := x.frame * 2 ^ 15
      let dirty (k : Nat) : Prop := 256 * x.frame + k ∈ s.mig.dirty
      let i := Instr.migrationDone die
      (¬ fits ∨ x.cmd = 4 → ∃ s', exec i s = .next s' ∧ s'.migOf die = { x with stat := 3 } ∧ s'.mem = s.mem ∧
        s'.mig.dirty = s.mig.dirty ∧ s'.mig.media = s.mig.media) ∧
      (fits → x.cmd = 1 → ∃ s', exec i s = .next s' ∧ (s'.migOf die).stat = 2 ∧ s'.mem = s.mem ∧
        (∀ k < 256, (s'.migOf die).mask.getLsbD k = true ↔ dirty k) ∧
        ∀ l, l ∈ s'.mig.dirty ↔ l ∈ s.mig.dirty ∧ l / 256 ≠ x.frame) ∧
      (fits → x.cmd = 2 → s.frameLoc die x.frame ≠ x.dest → ∃ s', exec i s = .next s' ∧ (s'.migOf die).stat = 2 ∧ s'.mem = s.mem ∧
        (∀ k < 256, ∀ j < 128, s'.mig.media.read (mediaKey die x.dest + 128 * k + j) =
          if x.mask.getLsbD k then s.mem.read (base + 128 * k + j) else s.mig.media.read (mediaKey die x.dest + 128 * k + j)) ∧
        s'.mig.places = s.mig.places) ∧
      (fits → x.cmd = 3 → s.frameLoc die x.frame ≠ x.dest → ∃ s', exec i s = .next s' ∧ (s'.migOf die).stat = 2 ∧
        s'.frameLoc die x.frame = x.dest ∧ (∀ d f, (d ≠ die ∨ f ≠ x.frame) → s'.frameLoc d f = s.frameLoc d f) ∧
        s'.mem = s.mem ∧ (∀ k < 256, (s'.migOf die).mask.getLsbD k = true ↔ dirty k) ∧
        (∀ l, l ∈ s'.mig.dirty ↔ l ∈ s.mig.dirty ∧ l / 256 ≠ x.frame) ∧
        ∀ j < 2 ^ 15, s'.mig.media.read (mediaKey die (s.frameLoc die x.frame) + j) = s.mem.read (base + j)))

/-- Homes grant lines and holders answer probes: the claims above together.
The model's own in it: DESIGN CHOICE, log entry 44; DEDUCED, log entries 80, 123, 124. -/
def Obligations.LinesStayCoherent : Prop :=
  Sys2Proof.Claims.HomesGrantLines ∧ Sys2Proof.Claims.HoldersAnswerProbes

/-- Dead agents are contained; frames migrate: the claims above together.
The model's own in it: DESIGN CHOICE, log entry 72. -/
def Obligations.FramesMoveAndAgentsDie : Prop :=
  Sys2Proof.Claims.DeadAgentsAreContained ∧ Sys2Proof.Claims.FramesMigrate

/-! ### Management and resets (17) -/

namespace Sys2Proof.Claims

/-- An event changes the management state alone. -/
def onlyMgmt (s s' : State) : Prop := s' = { s with mgmt := s'.mgmt }

/-- The BMC or the fabric manager is owner and has written no heartbeat for a second. -/
def silent (s : State) : Prop :=
  let o := s.mgmt.owner
  o.valid = true ∧ (o.master = 1 ∨ o.master = 2) ∧ s.second ≤ (s.clk - o.beatAt).toNat

/-- Whether a master is the owner: one that is silent is it no longer. -/
def owns (s : State) (m : BitVec 2) : Prop := s.mgmt.owner.valid = true ∧ s.mgmt.owner.master = m ∧ ¬ silent s

/-- A handover to a master that has not lapsed. -/
def handed (s : State) (m : BitVec 2) : Prop :=
  s.mgmt.owner.handPend = true ∧ s.mgmt.owner.handTo = m ∧ (s.clk - s.mgmt.owner.handAt).toNat < 2 ^ 31

/-- The owner of a machine has changed, by the fields given; EPOCH counts when `count` holds. -/
def ownerIs (s s' : State) (valid : Bool) (count : Prop) : Prop :=
  onlyMgmt s s' ∧ s'.mgmt.owner.valid = valid ∧ s'.mgmt.owner.handPend = false ∧
    (count → s'.mgmt.owner.epoch = s.mgmt.owner.epoch + 1) ∧ (¬ count → s'.mgmt.owner.epoch = s.mgmt.owner.epoch)

/-- What time alone makes of the ownership: a silent owner loses it, a handover of 2^31 cycles ago is none. -/
def expired (s s' : State) : Prop :=
  let o := s.mgmt.owner
  let lapsed : Prop := o.handPend = true ∧ 2 ^ 31 ≤ (s.clk - o.handAt).toNat
  (silent s → ownerIs s s' false True) ∧
    (¬ silent s → lapsed → onlyMgmt s s' ∧ s'.mgmt = { s.mgmt with owner := { o with handPend := false } }) ∧
    (¬ silent s → ¬ lapsed → s' = s)

/-- A mailbox command by the owner while none runs, on a package whose die 0 answers. -/
def mailFree (s : State) (m : BitVec 2) : Prop := owns s m ∧ s.mgmt.mbox.ending = none ∧ s.coh.die0Dead = false

end Sys2Proof.Claims

/-- R482, R486, R497: a free or handed-over machine is claimed, its owner hands over or releases; a handover lapses; a silent BMC
or fabric manager loses the machine, as every later claim finds. Registers that only the owner writes count what they deny; the
clock is lowered within its range. -/
def Sys2Proof.Claims.OwnershipIsHeld : Prop :=
  ∀ s (m : BitVec 2), let o := s.mgmt.owner
    (s.coh.die0Dead = true ∨ s.mgmt.recovery = true → ∃ s', exec (.claim m) s = .next s' ∧ expired s s') ∧
    (s.coh.die0Dead = false → s.mgmt.recovery = false →
      (¬ silent s → (o.valid = false ∨ handed s m) → ∃ s', exec (.claim m) s = .next s' ∧
        ownerIs s s' true (o.valid = false ∨ o.master ≠ m) ∧ s'.mgmt.owner.master = m ∧ s'.mgmt.owner.beatAt = s.clk) ∧
      (silent s → ∃ s', exec (.claim m) s = .next s' ∧ onlyMgmt s s' ∧ s'.mgmt.owner.valid = true ∧
        s'.mgmt.owner.master = m ∧ s'.mgmt.owner.handPend = false ∧ s'.mgmt.owner.epoch = o.epoch + 2)) ∧
    (¬ silent s → ¬ (o.valid = false ∨ handed s m) → ∃ s', exec (.claim m) s = .next s' ∧ expired s s') ∧
    (owns s m → (∀ k, ∃ s', exec (.handover m k) s = .next s' ∧ onlyMgmt s s' ∧
        s'.mgmt.owner = { o with handPend := true, handTo := k, handAt := s.clk }) ∧
      (∃ s', exec (.release m) s = .next s' ∧ ownerIs s s' false True) ∧
      (∃ s', exec (.heartbeat m) s = .next s' ∧ onlyMgmt s s' ∧ s'.mgmt.owner = { o with beatAt := s.clk }) ∧
      (∃ s', exec (.aclclr m) s = .next s' ∧ onlyMgmt s s' ∧ s'.mgmt.aclCount = 0 ∧ s'.mgmt.aclLast = 0) ∧
      ∀ v : Word, let n : BitVec 12 := v.setWidth 12
        (1000 ≤ n.toNat → n.toNat ≤ 3600 → ∃ s', exec (.pwrcap m v) s = .next s' ∧ onlyMgmt s s' ∧ s'.mgmt.pwrcap = n) ∧
        (¬ (1000 ≤ n.toNat ∧ n.toNat ≤ 3600) → exec (.pwrcap m v) s = .next s)) ∧
    (silent s → o.master = m → ∃ s', exec (.heartbeatMiss m) s = .next s' ∧ ownerIs s s' false True) ∧
    (¬ (silent s ∧ o.master = m) → exec (.heartbeatMiss m) s = .next s) ∧
    (¬ owns s m → (∀ k, exec (.handover m k) s = .next s) ∧ exec (.release m) s = .next s ∧
      ∀ i, (i = .heartbeat m ∨ i = .aclclr m ∨ ∃ v, i = .pwrcap m v) → ∃ s', exec i s = .next s' ∧ onlyMgmt s s' ∧
        s'.mgmt = { s.mgmt with aclLast := m, aclCount := Nat.min (s.mgmt.aclCount + 1) (2 ^ 30 - 1) }) ∧
    (o.handPend = true → ∃ s', exec .handoverLapse s = .next s' ∧ expired s s') ∧
    (o.handPend = false → exec .handoverLapse s = .next s) ∧
    ∀ die (clk : BitVec 8),
      (40 ≤ clk.toNat → clk.toNat ≤ 84 → ∃ s', exec (.clockLower die clk) s = .next s' ∧ onlyMgmt s s' ∧
        s'.mgmt.clk = s.mgmt.clk.set (die % 4) clk) ∧
      (¬ (40 ≤ clk.toNat ∧ clk.toNat ≤ 84) → exec (.clockLower die clk) s = .next s)

/-- R483, R485 to R488: a 4-byte write to a register does what its command does; an argument, the length and the buffer of the
mailbox are the owner's to write; an unaligned write has no effect. R490: in recovery mode PF0 writes the mailbox alone, any
other master nothing. -/
def Sys2Proof.Claims.RegisterWritesAct : Prop :=
  (∀ s (m : BitVec 2) off wide v, s.mgmt.recovery = true → (m ≠ 0 ∨ off / 0x10000 ≠ 1) →
    exec (.registerWrite m off wide v) s = .next s) ∧
  (∀ s m off wide v, (off % 4 ≠ 0 ∨ wide = true ∧ off % 8 ≠ 0) → exec (.registerWrite m off wide v) s = .next s) ∧
  ∀ s (m : BitVec 2), s.mgmt.recovery = false →
    let at_ (off : Nat) (v : Word) : Out := exec (.registerWrite m off false (v.setWidth 64)) s
    let cmd (i : Instr) : Out := exec i s
    at_ 0x14 4 = cmd (.claim m) ∧ (∀ k : BitVec 2, at_ 0x14 (8 ||| k.setWidth 32) = cmd (.handover m k)) ∧
    at_ 0x14 12 = cmd (.release m) ∧ (∀ v, at_ 0x18 v = cmd (.heartbeat m)) ∧ (∀ v, at_ 0x24 v = cmd (.aclclr m)) ∧
    (∀ v, at_ 0x30 v = cmd (.pwrcap m v)) ∧ at_ 0x10000 1 = cmd (.setctx m) ∧ at_ 0x10000 2 = cmd (.endctx m) ∧
    at_ 0x10000 3 = cmd (.setpart m) ∧ at_ 0x10000 4 = cmd (.setkey m) ∧ at_ 0x10000 5 = cmd (.delkey m) ∧
    at_ 0x10000 6 = cmd (.restore m) ∧
    (∀ c : BitVec 8, (c = 0 ∨ 6 < c.toNat) → at_ 0x10000 (c.setWidth 32) = cmd (.mailboxBadarg m c)) ∧
    (owns s m → (∀ v, ∃ s', exec (.registerWrite m 0x10008 true v) s = .next s' ∧ onlyMgmt s s' ∧
        s'.mgmt = { s.mgmt with mbox := { s.mgmt.mbox with arg0 := v } }) ∧
      (∀ v, ∃ s', exec (.registerWrite m 0x10010 true v) s = .next s' ∧ onlyMgmt s s' ∧
        s'.mgmt = { s.mgmt with mbox := { s.mgmt.mbox with arg1 := v } }) ∧
      (∀ v : Word, ∃ s', at_ 0x10018 v = .next s' ∧ onlyMgmt s s' ∧
        s'.mgmt = { s.mgmt with mbox := { s.mgmt.mbox with len := v.setWidth 16 } }) ∧
      (∀ k < 8192, ∀ v : Word, ∃ s', at_ (0x11000 + 4 * k) v = .next s' ∧ onlyMgmt s s' ∧
        s'.mgmt.mbox.buf.readLE (4 * k) 4 = v.toNat ∧
        ∀ a, (a < 4 * k ∨ 4 * k + 4 ≤ a) → s'.mgmt.mbox.buf.read a = s.mgmt.mbox.buf.read a) ∧
      ∀ d < 4, let die := s.homeDie d
        at_ (0x100010 + 0x10000 * d) 1 = cmd (.harvest die) ∧ at_ (0x100010 + 0x10000 * d) 2 = cmd (.copy die) ∧
        at_ (0x100010 + 0x10000 * d) 3 = cmd (.switch die false)) ∧
    (¬ owns s m → ∀ v, ∃ s', exec (.registerWrite m 0x10008 true v) s = .next s' ∧ s'.mgmt.mbox = s.mgmt.mbox ∧
      s'.mgmt.aclLast = m) ∧
    (s.mayAttest m = true → at_ (0x300040 + 0x4000 * m.toNat) 1 = cmd (.report m) ∧
      at_ (0x300040 + 0x4000 * m.toNat) 2 = cmd (.kemkey m))

/-- R465, R466, R487, R489 to R494, R451: the mailbox commands act for the owner alone and leave their status; a context and a
partition are made from their descriptors, ENDCTX takes a context's teams, keys are kept by tenant. A report consumes an
index.
The model's own in it: DESIGN CHOICE, log entry 23; DEDUCED, log entries 67, 73, 74, 76, 116. -/
def Obligations.MailboxAndReports : Prop :=
  ∀ s (m : BitVec 2),
    let cmd (i : Instr) : Prop := i = .setctx m ∨ i = .endctx m ∨ i = .setpart m ∨ i = .setkey m ∨ i = .delkey m ∨ i = .restore m ∨
      ∃ c : BitVec 8, i = .mailboxBadarg m c ∧ (c = 0 ∨ 6 < c.toNat)
    let status (s' : State) (n : Nat) : Prop := s'.mgmt.mbox.status = n
    (∀ i, cmd i → (s.mgmt.mbox.ending.isSome = true ∨ s.coh.die0Dead = true → exec i s = .next s) ∧
      (s.mgmt.mbox.ending = none → s.coh.die0Dead = false → ¬ owns s m → ∃ s', exec i s = .next s' ∧ onlyMgmt s s' ∧ status s' 2)) ∧
    (mailFree s m →
      (∀ c, (s.mboxBytes 128).bind ctxOfDesc = some c →
        (s.ctx? c.id = none → ∃ s', exec (.setctx m) s = .next s' ∧ status s' 0 ∧ s'.ctx? c.id = some c ∧ s'.teams = s.teams ∧
          ∀ k, k ≠ c.id → s'.ctx? k = s.ctx? k) ∧
        ∀ o, s.ctx? c.id = some o →
          (fixedDesc c.desc ≠ fixedDesc o.desc ∨ c.npool < o.npool →
            ∃ s', exec (.setctx m) s = .next s' ∧ onlyMgmt s s' ∧ status s' 3) ∧
          (fixedDesc c.desc = fixedDesc o.desc → o.npool ≤ c.npool → ∃ s' c', exec (.setctx m) s = .next s' ∧ status s' 0 ∧
            s'.ctx? c.id = some c' ∧ c'.npool = c.npool ∧ s'.teams = s.teams ∧
            c'.s1root = o.s1root ∧ c'.tid = o.tid ∧ c'.halted = o.halted ∧
            ((∀ t ∈ s.teams, t.ctx ≠ c.id) → c'.debug = c.debug ∧ c'.ybudget = c.ybudget) ∧
            ((∃ t ∈ s.teams, t.ctx = c.id) → c'.debug = o.debug ∧ c'.ybudget = o.ybudget ∧ c'.pend = some (c.debug, c.ybudget)))) ∧
      ((s.mboxBytes 128).bind ctxOfDesc = none → ∃ s', exec (.setctx m) s = .next s' ∧ onlyMgmt s s' ∧ status s' 3) ∧
      (∀ c, s.ctx? (lo32 s.mgmt.mbox.arg0) = some c → ∃ s', exec (.endctx m) s = .next s' ∧ (∀ t ∈ s'.teams, t.ctx ≠ c.id) ∧
        s'.mgmt.mbox.ending = some c.id) ∧
      (∀ bs p, s.mboxBytes 1216 = some bs → partOfDesc bs = some p → partBusy s p.id = false → partFits s.parts p = true →
        s.part? p.id = none → ∃ s', exec (.setpart m) s = .next s' ∧ status s' 0 ∧ s'.part? p.id = some p ∧ s'.teams = s.teams ∧
          ∀ k, k ≠ p.id → s'.part? k = s.part? k) ∧
      (let fails (n : Nat) : Prop := ∃ s', exec (.setkey m) s = .next s' ∧ onlyMgmt s s' ∧ status s' n ∧ s'.mgmt.keys = s.mgmt.keys;
        (s.mboxBytes 1632 = none → fails 3) ∧
        ∀ bs, s.mboxBytes 1632 = some bs →
          let part (a n : Nat) : List Byte := (bs.drop a).take n
          let tid := BitVec.ofNat 16 (leNat (part 0 2))
          let wrap := leNat (shake256 (keyLabel ++ kemDecaps s.mgmt.kemEpoch (part 16 1568) ++ part 0 4) 32)
          let opened := Config.gcmOpen wrap (part 4 12) (part 0 16) (part 1584 32) (part 1616 16)
          (part 2 1 ≠ [s.mgmt.owner.epoch] ∨ part 3 1 ≠ [0] → fails 3) ∧
          (part 2 1 = [s.mgmt.owner.epoch] → part 3 1 = [0] →
            (opened = none → fails 4) ∧
            (opened.isSome = true → 4096 ≤ (s.mgmt.keys.filter (·.1 != tid)).length → fails 5) ∧
            ∀ key, opened = some key → (s.mgmt.keys.filter (·.1 != tid)).length < 4096 →
              ∃ s', exec (.setkey m) s = .next s' ∧ onlyMgmt s s' ∧ status s' 0 ∧ s'.tenantKey tid = some (leNat key) ∧
                ∀ k, k ≠ tid → s'.tenantKey k = s.tenantKey k)) ∧
      (∃ s', exec (.delkey m) s = .next s' ∧ onlyMgmt s s' ∧ status s' 0 ∧ s'.tenantKey (s.mgmt.mbox.arg0.setWidth 16) = none ∧
        ∀ k, k ≠ s.mgmt.mbox.arg0.setWidth 16 → s'.tenantKey k = s.tenantKey k) ∧
      (∀ c, s.ctx? (lo32 s.mgmt.mbox.arg0) = some c →
        (restoring s c s.mgmt.mbox.arg1.toNat = .ok → let due (v : Saved) : Prop := v.ctx = c.id ∧ v.complete = true ∧
          v.checked = false
          ∃ s', exec (.restore m) s = .next s' ∧ status s' 0 ∧ s'.teams = s.teams ∧ s'.mem = s.mem ∧
            ((∀ v ∈ s.saved, ¬ due v) → onlyMgmt s s') ∧
            ((∃ v ∈ s.saved, due v) → ∀ v ∈ s'.saved, v.ctx = c.id → v.checked = true)) ∧
        (restoring s c s.mgmt.mbox.arg1.toNat = .refused → ∃ s', exec (.restore m) s = .next s' ∧ onlyMgmt s s' ∧ status s' 6) ∧
        (restoring s c s.mgmt.mbox.arg1.toNat = .auth → ∃ s', exec (.restore m) s = .next s' ∧ Halts s s' c.id codeImage)) ∧
      ∀ c : BitVec 8, (c = 0 ∨ 6 < c.toNat) → ∃ s', exec (.mailboxBadarg m c) s = .next s' ∧ onlyMgmt s s' ∧ status s' 3) ∧
    (s.mgmt.recovery = true → exec (.report m) s = .next s ∧ exec (.kemkey m) s = .next s) ∧
    (s.mgmt.att.length = 4 → s.mgmt.recovery = false →
      let att (s : State) : Attest := (s.mgmt.att[m.toNat]?).getD ⟨0, 0, false, 0, []⟩
      (s.mayAttest m = true → s.mgmt.fuse < 2 ^ 20 → ∃ s', exec (.report m) s = .next s' ∧ onlyMgmt s s' ∧
        s'.mgmt.fuse = s.mgmt.fuse + 1 ∧ (att s').status = 0 ∧ (att s').nonce = (att s).nonce ∧
        (let body := reportBody s (att s).nonce s.mgmt.fuse;
          (att s').result = body ++ xmssSign s.mgmt.fuse body ∧ (att s').len = body.length + 2820) ∧
        ((att s').result.take 36) = leBytes 32 (att s).nonce.toNat ++ leBytes 4 s.mgmt.fuse) ∧
      (s.mayAttest m = true → 2 ^ 20 ≤ s.mgmt.fuse → ∃ s', exec (.report m) s = .next s' ∧ onlyMgmt s s' ∧
        s'.mgmt.fuse = s.mgmt.fuse ∧ (att s').status = 7) ∧
      (s.mayAttest m = true → ∃ s', exec (.kemkey m) s = .next s' ∧ onlyMgmt s s' ∧ (att s').status = 0 ∧
        (att s').result = kemPublic s.mgmt.kemEpoch ∧ (att s').len = 1568 ∧ s'.mgmt.fuse = s.mgmt.fuse) ∧
      (s.mayAttest m = false → ∀ i, (i = .report m ∨ i = .kemkey m) → ∃ s', exec i s = .next s' ∧ onlyMgmt s s' ∧
        s'.mgmt = { s.mgmt with aclLast := m, aclCount := Nat.min (s.mgmt.aclCount + 1) (2 ^ 30 - 1) }))

/-- R295, R491, R495 to R498: a reset of the machine leaves no team, operation, context or key, keeps the one-time index count
and memory that is not on the package, and makes a new key pair; it ends READY after power-on with accepted firmware and after a
warm reset, which a dead die outlasts. A function-level reset halts the contexts its function reaches.
The model's own in it: DESIGN CHOICE, log entries 1, 9; DEDUCED, log entries 78, 79. -/
def Obligations.ResetsClearTheMachine : Prop :=
  ∀ s,
    let cleared (s' : State) (fuse : Nat) : Prop :=
      s'.teams = [] ∧ s'.ops = [] ∧ s'.ctxs = [] ∧ s'.grids = [] ∧ s'.parts = [] ∧ s'.saved = [] ∧ s'.poison = [] ∧
        s'.mgmt.keys = [] ∧ s'.mgmt.owner.valid = false ∧ s'.mgmt.fuse = fuse ∧ s'.mgmt.kemEpoch = s.mgmt.kemEpoch + 1 ∧
        s'.boot = s.boot ∧ (∀ a d, homeOf s a = .hbm d → s'.mem.read a = emptyByte) ∧
        ∀ a, (∀ d, homeOf s a ≠ .hbm d) → s'.mem.read a = s.mem.read a
    (∀ a b, ∃ s', exec (.powerOn a b) s = .next s' ∧ cleared s' s.mgmt.fuse ∧ s'.mgmt.ready = (a && b) ∧
      s'.mgmt.recovery = !(a && b) ∧ s'.coh.dead = []) ∧
    (∃ s', exec .warmReset s = .next s' ∧ cleared s' s.mgmt.fuse ∧ s'.mgmt.ready = !s.mgmt.recovery ∧
      s'.mgmt.recovery = s.mgmt.recovery ∧ s'.mgmt.dieDead = s.mgmt.dieDead ∧ s'.coh.die0Dead = s.coh.die0Dead ∧
      ∀ a, a ∈ s'.coh.dead ↔ a ∈ s.coh.dead ∧ ∃ d, a = .die d) ∧
    (∃ s', exec .coldReset s = .next s' ∧ cleared s' s.mgmt.fuse ∧ s'.coh.dead = []) ∧
    (∃ s', exec .thermalShutdown s = .next s' ∧ cleared s' s.mgmt.fuse ∧ s'.mgmt.shutdown = true) ∧
    (∀ signing, ∃ s', exec (.powerLoss signing) s = .next s' ∧ s'.mgmt.shutdown = true ∧
      cleared s' (if signing then Nat.min (s.mgmt.fuse + 1) (2 ^ 20) else s.mgmt.fuse)) ∧
    (∀ pf p q, p ∈ s.parts → s.aclWrites (if pf = 0 then 0 else 3) (0x100 + p.id) = true → q ∈ p.queues →
      ∃ s', exec (.functionLevelReset pf) s = .next s' ∧ Halts s s' q.ctx codeContained) ∧
    ∀ port, (∃ s', exec (.linkPortRetrain port) s = .next s' ∧ onlyCoh s s' ∧
        ∀ a, a ∈ s'.coh.dead ↔ a ∈ s.coh.dead ∧ a ≠ .port port) ∧
      ∃ s', exec (.cxlPortReset port) s = .next s' ∧ onlyCoh s s' ∧ ∀ a, a ∈ s'.coh.dead ↔ a ∈ s.coh.dead ∧ a ≠ .cxl port

/-- The machine is claimed and handed over; register writes act for the owner: the claims above together.
The model's own in it: DEDUCED, log entries 75, 77, 116. -/
def Obligations.OwnershipAndRegisters : Prop :=
  Sys2Proof.Claims.OwnershipIsHeld ∧ Sys2Proof.Claims.RegisterWritesAct

/-! ### The machine as a whole: encodings, steps, reset, memory -/

namespace Sys2Proof.Claims

/-- Parcels as the number that the opcode table's numbering gives them. -/
def wordsNumber : List Word → Nat
  | [] => 0
  | w :: r => w.toNat + 2 ^ 32 * wordsNumber r

/-- What the decoder reads from parcels. -/
def reads (ws : List Word) : Option Instr := decodeTableWord (32 * ws.length) (wordsNumber ws)

/-- The 64-bit layout of parcels 1 and 2 (02 R44), high bits first. -/
def layout (md : BitVec 8) (ty : BitVec 3) (fs : BitVec 1) (rs sub : BitVec 3) (gn : BitVec 1) (g : BitVec 3)
    (c b a d op : BitVec 8) (len : BitVec 2) : DWord :=
  md ++ ty ++ fs ++ rs ++ sub ++ gn ++ g ++ c ++ b ++ a ++ d ++ op ++ len

/-- In this step team t issues: nothing arrives from outside, and no internal event has the turn (DESIGN CHOICE, log entry 2). -/
def onTurn (s : State) (t : Team) : Prop :=
  s.inbox = [] ∧ s.answers = [] ∧ pickTeam s.tick = some t ∧ (s.tick.ticks % 2 = 1 ∨ nextAuto s.tick = none)

/-- What the team of a step meets at its pc: the object, and the state after its fetch with the team current. -/
def fetches (s : State) (t : Team) (x : Fetched) (s2 : State) : Prop :=
  let u : Team := { t with status := .running }
  ∃ ws s1, fetchBlock s.tick (s.tick.ctxOf u) u u.pc = .block ws s1 ∧
    readObject (u.pc.toNat - u.pc.toNat % 32) ws (u.pc.toNat % 32 / 4) (u.clause.left == 0) = some x ∧
    s2 = { (s1.setTeam u) with cur := u.uid }

/-- The eight parcels of a fetch block hold these parcels from parcel k on. -/
def holdsFrom (ws : List Word) (k : Nat) (ps : List Word) : Prop :=
  k + ps.length ≤ 8 ∧ ∀ n < ps.length, blockParcel ws (k + n) = ps.getD n 0

/-- A walk's memory agrees with the memory before it except for accessed and dirty bits of aligned descriptors, which are only
set: AF is bit 0 of byte 7, DIRTY bit 7 of byte 6 (16 R429). -/
def marksOnly (m m' : Memory) : Prop :=
  ∀ a, m'.read a = m.read a ∨ a % 8 = 7 ∧ m'.read a = m.read a ||| 0x01 ∨ a % 8 = 6 ∧ m'.read a = m.read a ||| 0x80

end Sys2Proof.Claims

/-- A step runs what stands at the pc of the team whose turn it is: a decoded instruction with its meaning, a header that
is due with the start of its clause, any other object with the ILLOP fault; an instruction that touches a register which
an operation still owes waits (02 R35 to R43). An instruction that starts on its pipe counts as a decision of the pipe, one
of the Nib or one that stalls does not (01 R32). The bytes of an encoded instruction are read as that instruction.
The model's own in it: DESIGN CHOICE, log entries 2, 6, 97. -/
def Obligations.StepRunsDecoded : Prop :=
  (∀ s t i s2 base n, onTurn s t → fetches s t (.instr base n i) s2 →
    let u : Team := { t with status := .running }
    (s2.conflicts u i = false → inNib i = true → step s = exec i s2) ∧
    (s2.conflicts u i = false → inNib i = false → ∀ s', exec i s2 = .next s' →
      (s'.stalls t.uid = true → step s = .next s') ∧ (s'.stalls t.uid = false → step s = exec i (countPassed s2 t))) ∧
    (s2.conflicts u i = true → step s = .next (s2.setTeam { u with status := .waiting .drain }))) ∧
  (∀ s t h s2 base, onTurn s t → fetches s t (.header base h) s2 → step s = exec (.clauseStart h) s2) ∧
  (∀ s t hdr uni opc err s2 base, onTurn s t → fetches s t (.bad base hdr uni opc err) s2 →
    step s = exec (.illopPattern hdr uni opc) s2) ∧
  (∀ i, i.wf = true → encode i ≠ none → ∀ base ws k, holdsFrom ws k (encodeParcels i) →
    readObject base ws k false = some (.instr (base + 4 * k) (instrBytes i) i)) ∧
  (∀ ws k base, k ≤ 6 → ∀ h, decodeHeader (blockParcel ws k) (blockParcel ws (k + 1)) = .ok h →
    readObject base ws k true = some (.header (base + 4 * k) h)) ∧
  ∀ ws base due, blockParcel ws 7 = 0 → readObject base ws 7 due = none

/-- R44, R40: words written out from the layout, and the words of the spec's own examples, are read as the instructions
they stand for. -/
def Obligations.WordsStandForInstructions : Prop :=
  let w (x : DWord) : List Word := [lo32 x, hi32 x]
  let g : Guard := .always
  reads (w (layout 0 0 0 0 0 0 7 0xFF 0xFF 0xFF 0xFF 0x00 0)) = some .nop ∧
  reads (w (layout 2 1 0 0 1 0 7 0xFF 0x8B 0x03 0x03 0x2B 0)) =
    some (.csub ⟨g, .n32, .v 3, .v 3, .s 11, .none⟩ (.ge 2)) ∧
  reads [0x2C0C0CAC, 0x02205FFE] = some (.csub ⟨g, .n32, .v 3, .v 3, .s 11, .none⟩ (.ge 2)) ∧
  reads [0x06FF0007, 0x00010000] = some (.clauseStart ⟨1, 0, 6, 15, 15, 0, 1⟩) ∧
  reads [0xFFFE0892, 0x00801FFF, 3, 2] = some (.movi g .n64 (.s 2) (.i64 0x200000003)) ∧
  reads [0x90080C40, 0x000023FF] = some (.add ⟨⟨true, 0⟩, .i32, .v 3, .v 2, .k 4, .none⟩ false) ∧
  reads [0xFC081041, 0x00001FFF, 0x00010000] = some (.add ⟨g, .i32, .v 4, .v 2, .imm 0x10000, .none⟩ false) ∧
  reads [0x080420CC, 0x00041C0C] = some (.fma ⟨g, .f32, 2, false, .v 8, .v 1, .v 2, .v 3⟩) ∧
  reads [0x14101944, 0x00041FFC] = some (.quant ⟨g, 2, .v 6, .v 4, .v 5⟩) ∧
  reads [0x84040980, 0x0040DFFF] = some (.shfl g .xor false (.v 2) (.v 1) (.k 1) none) ∧
  reads [0xFC0409C1, 0x40001FFF, 0x00010003] =
    some (.ld ⟨g, false, .w32, .plain, .team, ⟨.v 1, false, .idx 3, 16, false⟩⟩ false (.v 2)) ∧
  reads [0xFFFFFE20, 0x03005FFF] = some (.fenceRel .die) ∧
  reads [0xFC041601, 0x00201F87, 0x00008002] =
    some (.atom ⟨g, false, .plain, .team, ⟨.v 1, false, .idx 2, 8, false⟩⟩ (.add .n32) (.v 5) (.k 1)) ∧
  reads [0xFE13FE48, 0x00005FFF] = some (.topenW (.s 4)) ∧
  reads [0xFE42A280, 0x00021FFF] = some (.menq false 1 (.s 40) 16) ∧
  reads [0xFE0BFEC1, 0x03001FFF, 0x00040005] = some (.dcopy false .die ⟨.s 2, .idx 5, 64⟩) ∧
  reads [0xFC083304, 0x000007FF] = some (.scwait ⟨false, 1⟩ (.v 12) (.v 2)) ∧
  reads [0x8E13FF42, 0x00001E1B, 0x00008009, 8] = some (.rtrace false false (.s 4) (.k 3) (.s 6) 8 9 8) ∧
  reads [0xFE13FFC5, 0x00001C17, 0x0000000C] = some (.qpost false 5 ⟨.s 4, .idx 12, 0⟩)

/-- Every well-formed instruction that has an encoding is what its parcels decode to, with every operand at every value
the encoding admits; so is every clause header. -/
def Obligations.DecodeAndEncodeAgree : Prop :=
  (∀ i e, i.wf = true → encode i = some e → decodeParcels e.parcel1 e.parcel2 e.p3 e.p4 = .ok i ∧
    parcelCount e.parcel1 = e.parcels.length ∧ isHeaderParcel e.parcel1 = false) ∧
  ∀ h : Header, (h.seta.toNat < 12 ∨ h.seta = 15) → (h.setb.toNat < 12 ∨ h.setb = 15) → h.kind.toNat ≤ 1 →
    ∃ w1 w2, encodeHeader h = [w1, w2] ∧ isHeaderParcel w1 = true ∧ decodeHeader w1 w2 = .ok h

/-- R44, R45: a pattern that the decoder accepts is the encoding of a well-formed instruction, so no bit of it is without
a use; an opcode that R55 does not list is no instruction. -/
def Obligations.AcceptedPatternsAreEncodings : Prop :=
  (∀ w1 w2 w3 w4 i, decodeParcels w1 w2 w3 w4 = .ok i → i.wf = true ∧
    encodeParcels i = [w1, w2, w3, w4].take (parcelCount w1)) ∧
  (∀ w1 w2 w3 w4, opcodeListed (w1.extractLsb' 2 8) = false → isHeaderParcel w1 = false →
    decodeParcels w1 w2 w3 w4 = .error .opcode) ∧
  (∀ w1 w2 w3 w4 w1' w2' w3' w4' i, decodeParcels w1 w2 w3 w4 = .ok i → decodeParcels w1' w2' w3' w4' = .ok i →
    w1 = w1' ∧ w2 = w2') ∧
  ∀ w1 w2 h, decodeHeader w1 w2 = .ok h → encodeHeader h = [w1, w2]

/-- Every instruction and event of the set answers a next state whenever a team is current; a step answers a next state
from every state to which nothing arrives and in which the messages under way do.
The model's own in it: DESIGN CHOICE, log entries 7, 89. -/
def Obligations.EveryInstructionAnswers : Prop :=
  (∀ i s, s.curTeam.isSome = true → ∃ s', exec i s = .next s') ∧
  ∀ s, s.inbox = [] → (∀ m ∈ s.coh.net, ∀ u, ∃ u', exec m u = .next u') → ∃ s', step s = .next s'

/-- Reset leaves the registers at the values of their Reset columns (17 R481, R486 to R489, 16 R436), with no owner, no
key and no context, and nothing in any queue or cache.
The model's own in it: DESIGN CHOICE, log entries 1, 5, 9. -/
def Obligations.ResetLeavesTheseValues : Prop :=
  let s := State.reset
  (∀ m : BitVec 2,
    readRegister s m 0x0000 false = some 0x94000000 ∧ readRegister s m 0x0004 false = some 0 ∧
    readRegister s m 0x0008 false = some 0x54545454 ∧ readRegister s m 0x0010 false = some 0 ∧
    readRegister s m 0x0020 false = some 0 ∧ readRegister s m 0x0030 false = some 3600 ∧
    readRegister s m 0x10004 false = some 0 ∧ readRegister s m 0x10008 true = some 0 ∧
    readRegister s m 0x10010 true = some 0 ∧ readRegister s m 0x10018 false = some 0 ∧
    readRegister s m 0x200000 false = some 0x55555555 ∧ readRegister s m 0x200100 false = some 0x55555555 ∧
    readRegister s m 0x300044 false = some 0 ∧ readRegister s m 0x300048 false = some 0 ∧
    ∀ d < 4, readRegister s m (0x100000 + 0x10000 * d) true = some 0 ∧
      readRegister s m (0x100008 + 0x10000 * d) true = some 0 ∧ readRegister s m (0x100014 + 0x10000 * d) false = some 0) ∧
  s.isOwner 0 = false ∧ s.mgmt.keys = [] ∧ s.ctxs = [] ∧ s.parts = [] ∧ s.teams = [] ∧ s.grids = [] ∧
  s.caches.tlb = [] ∧ s.coh.net = [] ∧ s.mem.wf = true ∧ ∀ a, s.mem.read a = emptyByte

/-- Memory keeps its canonical form in every step.
The model's own in it: DESIGN CHOICE, log entry 1. -/
def Obligations.MemoryStaysCanonical : Prop := ∀ s s', s.mem.wf = true → step s = .next s' → s'.mem.wf = true

/-- A byte that is written reads back and every other byte keeps its value; a little-endian number written reads back
modulo its size (00 R2); a canonical memory is determined by what it reads as.
The model's own in it: DESIGN CHOICE, log entry 1. -/
def Obligations.MemoryReadsBackWrites : Prop :=
  (∀ (m : Memory) a b x, m.wf = true → (m.write a b).wf = true ∧
    (m.write a b).read x = if x = a then b else m.read x) ∧
  (∀ (m : Memory) a bs x, m.wf = true → (m.writeBytes a bs).wf = true ∧
    (m.writeBytes a bs).read x = if a ≤ x ∧ x < a + bs.length then bs.getD (x - a) 0 else m.read x) ∧
  (∀ (m : Memory) cs x, m.wf = true → (m.writeCells cs).wf = true ∧
    (m.writeCells cs).read x = (cellLookup cs x).getD (m.read x)) ∧
  (∀ (m : Memory) a n v, m.wf = true → (m.writeBytes a (leBytes n v)).readLE a n = v % 2 ^ (8 * n)) ∧
  ∀ m m' : Memory, m.wf = true → m'.wf = true → (∀ a, m.read a = m'.read a) → m = m'

/-- R428 to R431: a translation by a walk changes memory only by setting accessed and dirty bits; the roots of the tables
are aligned to descriptors, and what a walk cache gives are descriptors of tables (R432), whose insertion is the only one
a walk asks for. -/
def Obligations.WalksSetOnlyMarks : Prop :=
  ∀ (v : WalkView) (m : Memory) (c : Ctx) (va : DWord) (acc : Access) (o : XOk),
    m.wf = true → c.s1root % 8 = 0 → c.s2root % 8 = 0 →
    (∀ s2 lv p d, v.look s2 lv p = some d → ∃ t, descOf lv d = .table t) →
    walk v (.of m) c va acc = .ok o →
      marksOnly m o.wm.mem ∧ o.wm.mem.wf = true ∧
      (∀ a, (∀ x ∈ o.wm.cells, x.1 ≠ a) → o.wm.mem.read a = m.read a) ∧
      ∀ x ∈ o.wm.tables, ∃ t, descOf x.lv x.desc = .table t
end

