-- ==== Sys2Proof/Laws/Memory.lean ====
section
/-! SUPPORT. Memory: every operation keeps the canonical form; what a byte reads after a write. -/

namespace Sys2Proof.Machine

open Host (Cell)

theorem Memory.wfFrom_mono {m : Memory} {lo lo' : Nat} (h : lo' ≤ lo) (hw : Memory.wfFrom lo m = true) :
    Memory.wfFrom lo' m = true := by
  cases m with
  | nil => rfl
  | cons c r =>
    simp only [Memory.wfFrom, Bool.and_eq_true, decide_eq_true_eq] at hw ⊢
    exact ⟨⟨by omega, hw.1.2⟩, hw.2⟩

/-- Below the first listed address a canonical memory reads as the empty byte. -/
theorem Memory.read_below {m : Memory} {lo a : Nat} (hw : Memory.wfFrom lo m = true) (h : a < lo) :
    Memory.read m a = emptyByte := by
  induction m generalizing lo with
  | nil => rfl
  | cons c r ih =>
    simp only [Memory.wfFrom, Bool.and_eq_true, decide_eq_true_eq] at hw
    have hne : c.1 ≠ a := by omega
    simp only [Memory.read, hne, if_false]
    exact ih hw.2 (by omega)

theorem Memory.write_wfFrom {m : Memory} {lo a : Nat} {b : Byte} (hw : Memory.wfFrom lo m = true) (h : lo ≤ a) :
    Memory.wfFrom lo (Memory.write m a b) = true := by
  induction m generalizing lo with
  | nil =>
    simp only [Memory.write]
    split
    · rfl
    · simp_all [Memory.wfFrom]
  | cons c r ih =>
    have hc := hw
    simp only [Memory.wfFrom, Bool.and_eq_true, decide_eq_true_eq] at hw
    simp only [Memory.write]
    split
    · split
      · exact hc
      · simp only [Memory.wfFrom, Bool.and_eq_true, decide_eq_true_eq]
        exact ⟨⟨h, by assumption⟩, ⟨by omega, hw.1.2⟩, hw.2⟩
    · split
      · split
        · exact Memory.wfFrom_mono (by omega) hw.2
        · simp only [Memory.wfFrom, Bool.and_eq_true, decide_eq_true_eq]
          exact ⟨⟨h, by assumption⟩, Memory.wfFrom_mono (by omega) hw.2⟩
      · simp only [Memory.wfFrom, Bool.and_eq_true, decide_eq_true_eq]
        exact ⟨hw.1, ih hw.2 (by omega)⟩

theorem Memory.read_write_from {m : Memory} {lo a x : Nat} {b : Byte} (hw : Memory.wfFrom lo m = true) :
    Memory.read (Memory.write m a b) x = if x = a then b else Memory.read m x := by
  induction m generalizing lo with
  | nil =>
    by_cases hx : x = a
    · subst hx
      by_cases hb : b = emptyByte <;> simp [Memory.write, Memory.read, hb]
    · have hn : ¬ a = x := fun h => hx h.symm
      by_cases hb : b = emptyByte <;> simp [Memory.write, Memory.read, hb, hx, hn]
  | cons c r ih =>
    simp only [Memory.wfFrom, Bool.and_eq_true, decide_eq_true_eq] at hw
    have hr := fun y (hy : y < c.1 + 1) => Memory.read_below (a := y) hw.2 hy
    simp only [Memory.write]
    split
    · rename_i hlt
      by_cases hx : x = a
      · subst hx
        split
        · rename_i hb
          have : c.1 ≠ x := by omega
          simp [Memory.read, this, hr x (by omega), hb]
        · simp [Memory.read]
      · have hn : ¬ a = x := fun h => hx h.symm
        split <;> simp [Memory.read, hn]
    · split
      · rename_i heq
        by_cases hx : x = a
        · subst hx
          split
          · rename_i hb
            simp [hr x (by omega), hb]
          · simp [Memory.read]
        · have h1 : c.1 ≠ x := by omega
          have h2 : a ≠ x := by omega
          split <;> simp [Memory.read, h1, h2]
      · by_cases hcx : c.1 = x
        · have : x ≠ a := by omega
          simp [Memory.read, hcx, this]
        · simp [Memory.read, hcx, ih hw.2]

/-- Writing a byte keeps the canonical form. -/
theorem Memory.write_wf {m : Memory} {a : Nat} {b : Byte} (hw : m.wf = true) : (m.write a b).wf = true :=
  Memory.write_wfFrom hw (Nat.zero_le a)

/-- A byte written reads back; every other byte keeps its value. -/
theorem Memory.read_write {m : Memory} {a x : Nat} {b : Byte} (hw : m.wf = true) :
    (m.write a b).read x = if x = a then b else m.read x := Memory.read_write_from hw

/-- Writing consecutive bytes keeps the canonical form. -/
theorem Memory.writeBytes_wf {m : Memory} {a : Nat} {bs : List Byte} (hw : m.wf = true) : (m.writeBytes a bs).wf = true := by
  induction bs generalizing m a with
  | nil => exact hw
  | cons b r ih => exact ih (Memory.write_wf hw)

/-- Writing cells keeps the canonical form. -/
theorem Memory.writeCells_wf {m : Memory} {cs : List Cell} (hw : m.wf = true) : (m.writeCells cs).wf = true := by
  induction cs generalizing m with
  | nil => exact hw
  | cons c r ih => exact ih (Memory.write_wf hw)

/-- After cells are written, a byte reads the last cell for its address, else its old value. -/
theorem Memory.read_writeCells {m : Memory} {cs : List Cell} {x : Nat} (hw : m.wf = true) :
    (m.writeCells cs).read x = (cellLookup cs x).getD (m.read x) := by
  induction cs generalizing m with
  | nil => rfl
  | cons c r ih =>
    simp only [Memory.writeCells, cellLookup, ih (Memory.write_wf hw), Memory.read_write hw]
    cases h : cellLookup r x with
    | some b => rfl
    | none =>
      by_cases hc : c.1 = x
      · simp [hc]
      · simp [hc, Ne.symm hc]

/-- Taking entries away keeps the canonical form. -/
theorem Memory.filter_wfFrom {m : Memory} {lo : Nat} {p : Cell → Bool} (hw : Memory.wfFrom lo m = true) :
    Memory.wfFrom lo (m.filter p) = true := by
  induction m generalizing lo with
  | nil => rfl
  | cons c r ih =>
    simp only [Memory.wfFrom, Bool.and_eq_true, decide_eq_true_eq] at hw
    by_cases hp : p c = true
    · simp only [List.filter_cons, hp, if_true, Memory.wfFrom, Bool.and_eq_true, decide_eq_true_eq]
      exact ⟨hw.1, ih hw.2⟩
    · simp only [List.filter_cons, hp]
      exact Memory.wfFrom_mono (by omega) (ih hw.2)

theorem Memory.filter_wf {m : Memory} {p : Cell → Bool} (hw : m.wf = true) : Memory.wf (m.filter p) = true :=
  Memory.filter_wfFrom hw

/-- A write of the machine keeps memory canonical. -/
theorem State.writeMem_wf {s : State} {cs : List Cell} (hw : s.mem.wf = true) : (s.writeMem cs).mem.wf = true :=
  Memory.writeCells_wf hw

/-- What the machine's memory reads after a write. -/
theorem State.writeMem_read {s : State} {cs : List Cell} {x : Nat} (hw : s.mem.wf = true) :
    (s.writeMem cs).mem.read x = (cellLookup cs x).getD (s.mem.read x) := Memory.read_writeCells hw

/-- Performing pending stores keeps memory canonical. -/
theorem State.performSel_wf {s : State} {die core : Nat} {sel : Op → Cell → Bool} (hw : s.mem.wf = true) :
    (s.performSel die core sel).mem.wf = true := by
  unfold State.performSel
  simp only
  split
  · exact hw
  · exact State.writeMem_wf hw

theorem State.performBytes_wf {s : State} {die core last : Nat} {as : List Nat} (hw : s.mem.wf = true) :
    (s.performBytes die core last as).mem.wf = true := by
  unfold State.performBytes
  simp only
  apply State.performSel_wf
  split
  · exact State.performSel_wf hw
  · exact hw

theorem State.drainCore_wf {s : State} {die core : Nat} (hw : s.mem.wf = true) : (s.drainCore die core).mem.wf = true :=
  State.performSel_wf hw

theorem State.drainBytes_wf {s : State} {die core : Nat} {as : List Nat} (hw : s.mem.wf = true) :
    (s.drainBytes die core as).mem.wf = true := State.performBytes_wf hw

/-! ### Walks -/

/-- A descriptor's fetch writes nothing. -/
theorem fetchDesc_mem {v : WalkView} {w w' : WalkMem} {s2 : Bool} {lv a pa d : Nat}
    (h : fetchDesc v w s2 lv a pa = .ok (d, w')) : w'.mem = w.mem := by
  simp only [fetchDesc] at h
  split at h
  · cases h; rfl
  · split at h
    · cases h
    · generalize w.mem.readLE pa 8 = y at h
      generalize descOf lv y = x at h
      cases x <;> cases h <;> rfl

/-- A walk of stage 2 writes nothing on its way. -/
theorem walk2_mem (v : WalkView) (a : Nat) (lvs : List Nat) :
    ∀ (w : WalkMem) (tbl : Nat), (walk2 v w tbl a lvs).2.mem = w.mem := by
  induction lvs with
  | nil => intro w tbl; rfl
  | cons lv r ih =>
    intro w tbl
    simp only [walk2]
    split
    · rfl
    · rename_i hf
      have hm := fetchDesc_mem hf
      split
      · exact hm
      · exact hm
      · rw [ih, hm]
      · exact hm

theorem markAt_wf {w : WalkMem} {pa d mark : Nat} (hw : w.mem.wf = true) : (markAt w pa d mark).mem.wf = true := by
  unfold markAt
  split
  · exact hw
  · exact Memory.writeBytes_wf hw

theorem stage2_wf {v : WalkView} {m : WalkMem} {root a : Nat} {acc : Access} {wr : Bool} {pa : Nat} {l : Option LeafAt}
    {m' : WalkMem} (h : stage2 v m root a acc wr = .ok (pa, l, m')) (hw : m.mem.wf = true) : m'.mem.wf = true := by
  unfold stage2 at h
  split at h
  · cases h; exact hw
  · have hm := walk2_mem v a [0, 1, 2, 3, 4] m root
    split at h
    · cases h
    · cases h
    · rename_i h2
      rw [h2] at hm
      split at h
      · cases h; exact markAt_wf (by rw [hm]; exact hw)
      · cases h

theorem walk1_wf {v : WalkView} {m : WalkMem} {root tbl va : Nat} {acc : Access} {lvs : List Nat} {l : LeafAt} {m' : WalkMem}
    (h : walk1 v m root tbl va acc lvs = .ok (l, m')) (hw : m.mem.wf = true) : m'.mem.wf = true := by
  induction lvs generalizing m tbl with
  | nil => simp [walk1] at h
  | cons lv r ih =>
    simp only [walk1] at h
    split at h
    · cases h
    · rename_i d m1 hf
      have hm : m1.mem.wf = true := by
        split at hf
        · cases hf; exact hw
        · split at hf
          · cases hf
          · rename_i h2
            split at hf
            · cases hf
            · rename_i h3
              cases hf
              rw [fetchDesc_mem h3]
              exact stage2_wf h2 hw
      split at h
      · cases h
      · cases h
      · exact ih h hm
      · cases h; exact hm

/-- A walk keeps memory canonical. -/
theorem walk_wf {v : WalkView} {m : WalkMem} {c : Ctx} {va : DWord} {acc : Access} {o : XOk} (h : walk v m c va acc = .ok o)
    (hw : m.mem.wf = true) : o.wm.mem.wf = true := by
  simp only [walk] at h
  split at h
  · cases h
  · rename_i h1
    have hm := walk1_wf h1 hw
    split at h
    · cases h
    · split at h
      · cases h
      · rename_i h2
        have hm2 := stage2_wf h2 hm
        split at h
        · cases h
        · rename_i m3 h3
          have hm3 : m3.mem.wf = true := by
            split at h3
            · cases h3; exact hm2
            · exact stage2_wf h3 hm2
          injection h with h
          subst h
          exact markAt_wf hm3

/-- Translation keeps memory canonical. -/
theorem translate_wf {s : State} {c : Ctx} {die core : Nat} {va : DWord} {acc : Access} {x : Xlat} {s' : State}
    (h : translate s c die core va acc = .ok (x, s')) (hw : s.mem.wf = true) : s'.mem.wf = true := by
  simp only [translate] at h
  split at h
  · cases h; exact hw
  · split at h
    · cases h
    · rename_i h1
      injection h with h
      injection h with _ h
      subst h
      exact walk_wf h1 hw

end Sys2Proof.Machine
end

