-- ==== Sys2Proof/Laws/State.lean ====
section
/-! SUPPORT. What each named update of the state and of a team leaves as it was, one lemma a field; and what the changed
fields hold. -/

namespace Sys2Proof.Machine

/-! ### `State.setTeam` -/

@[simp] theorem State.setTeam_inbox (s : State) (t : Team) : (s.setTeam t).inbox = s.inbox := rfl
@[simp] theorem State.setTeam_ghosts (s : State) (t : Team) : (s.setTeam t).ghosts = s.ghosts := rfl
@[simp] theorem State.setTeam_cur (s : State) (t : Team) : (s.setTeam t).cur = s.cur := rfl
@[simp] theorem State.setTeam_ticks (s : State) (t : Team) : (s.setTeam t).ticks = s.ticks := rfl
@[simp] theorem State.setTeam_clk (s : State) (t : Team) : (s.setTeam t).clk = s.clk := rfl
@[simp] theorem State.setTeam_boot (s : State) (t : Team) : (s.setTeam t).boot = s.boot := rfl
@[simp] theorem State.setTeam_mem (s : State) (t : Team) : (s.setTeam t).mem = s.mem := rfl
@[simp] theorem State.setTeam_poison (s : State) (t : Team) : (s.setTeam t).poison = s.poison := rfl
@[simp] theorem State.setTeam_ops (s : State) (t : Team) : (s.setTeam t).ops = s.ops := rfl
@[simp] theorem State.setTeam_uses (s : State) (t : Team) : (s.setTeam t).uses = s.uses := rfl
@[simp] theorem State.setTeam_eparks (s : State) (t : Team) : (s.setTeam t).eparks = s.eparks := rfl
@[simp] theorem State.setTeam_nextOp (s : State) (t : Team) : (s.setTeam t).nextOp = s.nextOp := rfl
@[simp] theorem State.setTeam_nextUid (s : State) (t : Team) : (s.setTeam t).nextUid = s.nextUid := rfl
@[simp] theorem State.setTeam_nextAge (s : State) (t : Team) : (s.setTeam t).nextAge = s.nextAge := rfl
@[simp] theorem State.setTeam_ctxs (s : State) (t : Team) : (s.setTeam t).ctxs = s.ctxs := rfl
@[simp] theorem State.setTeam_vmqs (s : State) (t : Team) : (s.setTeam t).vmqs = s.vmqs := rfl
@[simp] theorem State.setTeam_grids (s : State) (t : Team) : (s.setTeam t).grids = s.grids := rfl
@[simp] theorem State.setTeam_parts (s : State) (t : Team) : (s.setTeam t).parts = s.parts := rfl
@[simp] theorem State.setTeam_bars (s : State) (t : Team) : (s.setTeam t).bars = s.bars := rfl
@[simp] theorem State.setTeam_caches (s : State) (t : Team) : (s.setTeam t).caches = s.caches := rfl
@[simp] theorem State.setTeam_coh (s : State) (t : Team) : (s.setTeam t).coh = s.coh := rfl
@[simp] theorem State.setTeam_tiles (s : State) (t : Team) : (s.setTeam t).tiles = s.tiles := rfl
@[simp] theorem State.setTeam_mat (s : State) (t : Team) : (s.setTeam t).mat = s.mat := rfl
@[simp] theorem State.setTeam_eng (s : State) (t : Team) : (s.setTeam t).eng = s.eng := rfl
@[simp] theorem State.setTeam_fill (s : State) (t : Team) : (s.setTeam t).fill = s.fill := rfl
@[simp] theorem State.setTeam_vis (s : State) (t : Team) : (s.setTeam t).vis = s.vis := rfl
@[simp] theorem State.setTeam_mig (s : State) (t : Team) : (s.setTeam t).mig = s.mig := rfl
@[simp] theorem State.setTeam_mgmt (s : State) (t : Team) : (s.setTeam t).mgmt = s.mgmt := rfl
@[simp] theorem State.setTeam_saved (s : State) (t : Team) : (s.setTeam t).saved = s.saved := rfl
@[simp] theorem State.setTeam_answers (s : State) (t : Team) : (s.setTeam t).answers = s.answers := rfl

/-! ### `State.updTeam` -/

@[simp] theorem State.updTeam_inbox (s : State) (k : Nat) (f : Team → Team) : (s.updTeam k f).inbox = s.inbox := rfl
@[simp] theorem State.updTeam_cur (s : State) (k : Nat) (f : Team → Team) : (s.updTeam k f).cur = s.cur := rfl
@[simp] theorem State.updTeam_ticks (s : State) (k : Nat) (f : Team → Team) : (s.updTeam k f).ticks = s.ticks := rfl
@[simp] theorem State.updTeam_clk (s : State) (k : Nat) (f : Team → Team) : (s.updTeam k f).clk = s.clk := rfl
@[simp] theorem State.updTeam_boot (s : State) (k : Nat) (f : Team → Team) : (s.updTeam k f).boot = s.boot := rfl
@[simp] theorem State.updTeam_mem (s : State) (k : Nat) (f : Team → Team) : (s.updTeam k f).mem = s.mem := rfl
@[simp] theorem State.updTeam_poison (s : State) (k : Nat) (f : Team → Team) : (s.updTeam k f).poison = s.poison := rfl
@[simp] theorem State.updTeam_ops (s : State) (k : Nat) (f : Team → Team) : (s.updTeam k f).ops = s.ops := rfl
@[simp] theorem State.updTeam_uses (s : State) (k : Nat) (f : Team → Team) : (s.updTeam k f).uses = s.uses := rfl
@[simp] theorem State.updTeam_eparks (s : State) (k : Nat) (f : Team → Team) : (s.updTeam k f).eparks = s.eparks := rfl
@[simp] theorem State.updTeam_nextOp (s : State) (k : Nat) (f : Team → Team) : (s.updTeam k f).nextOp = s.nextOp := rfl
@[simp] theorem State.updTeam_nextUid (s : State) (k : Nat) (f : Team → Team) : (s.updTeam k f).nextUid = s.nextUid := rfl
@[simp] theorem State.updTeam_nextAge (s : State) (k : Nat) (f : Team → Team) : (s.updTeam k f).nextAge = s.nextAge := rfl
@[simp] theorem State.updTeam_ctxs (s : State) (k : Nat) (f : Team → Team) : (s.updTeam k f).ctxs = s.ctxs := rfl
@[simp] theorem State.updTeam_vmqs (s : State) (k : Nat) (f : Team → Team) : (s.updTeam k f).vmqs = s.vmqs := rfl
@[simp] theorem State.updTeam_grids (s : State) (k : Nat) (f : Team → Team) : (s.updTeam k f).grids = s.grids := rfl
@[simp] theorem State.updTeam_parts (s : State) (k : Nat) (f : Team → Team) : (s.updTeam k f).parts = s.parts := rfl
@[simp] theorem State.updTeam_bars (s : State) (k : Nat) (f : Team → Team) : (s.updTeam k f).bars = s.bars := rfl
@[simp] theorem State.updTeam_caches (s : State) (k : Nat) (f : Team → Team) : (s.updTeam k f).caches = s.caches := rfl
@[simp] theorem State.updTeam_coh (s : State) (k : Nat) (f : Team → Team) : (s.updTeam k f).coh = s.coh := rfl
@[simp] theorem State.updTeam_tiles (s : State) (k : Nat) (f : Team → Team) : (s.updTeam k f).tiles = s.tiles := rfl
@[simp] theorem State.updTeam_mat (s : State) (k : Nat) (f : Team → Team) : (s.updTeam k f).mat = s.mat := rfl
@[simp] theorem State.updTeam_eng (s : State) (k : Nat) (f : Team → Team) : (s.updTeam k f).eng = s.eng := rfl
@[simp] theorem State.updTeam_fill (s : State) (k : Nat) (f : Team → Team) : (s.updTeam k f).fill = s.fill := rfl
@[simp] theorem State.updTeam_vis (s : State) (k : Nat) (f : Team → Team) : (s.updTeam k f).vis = s.vis := rfl
@[simp] theorem State.updTeam_mig (s : State) (k : Nat) (f : Team → Team) : (s.updTeam k f).mig = s.mig := rfl
@[simp] theorem State.updTeam_mgmt (s : State) (k : Nat) (f : Team → Team) : (s.updTeam k f).mgmt = s.mgmt := rfl
@[simp] theorem State.updTeam_answers (s : State) (k : Nat) (f : Team → Team) : (s.updTeam k f).answers = s.answers := rfl

/-! ### `State.updCtx` -/

@[simp] theorem State.updCtx_inbox (s : State) (k : Word) (f : Ctx → Ctx) : (s.updCtx k f).inbox = s.inbox := rfl
@[simp] theorem State.updCtx_ghosts (s : State) (k : Word) (f : Ctx → Ctx) : (s.updCtx k f).ghosts = s.ghosts := rfl
@[simp] theorem State.updCtx_cur (s : State) (k : Word) (f : Ctx → Ctx) : (s.updCtx k f).cur = s.cur := rfl
@[simp] theorem State.updCtx_ticks (s : State) (k : Word) (f : Ctx → Ctx) : (s.updCtx k f).ticks = s.ticks := rfl
@[simp] theorem State.updCtx_clk (s : State) (k : Word) (f : Ctx → Ctx) : (s.updCtx k f).clk = s.clk := rfl
@[simp] theorem State.updCtx_boot (s : State) (k : Word) (f : Ctx → Ctx) : (s.updCtx k f).boot = s.boot := rfl
@[simp] theorem State.updCtx_mem (s : State) (k : Word) (f : Ctx → Ctx) : (s.updCtx k f).mem = s.mem := rfl
@[simp] theorem State.updCtx_poison (s : State) (k : Word) (f : Ctx → Ctx) : (s.updCtx k f).poison = s.poison := rfl
@[simp] theorem State.updCtx_teams (s : State) (k : Word) (f : Ctx → Ctx) : (s.updCtx k f).teams = s.teams := rfl
@[simp] theorem State.updCtx_ops (s : State) (k : Word) (f : Ctx → Ctx) : (s.updCtx k f).ops = s.ops := rfl
@[simp] theorem State.updCtx_uses (s : State) (k : Word) (f : Ctx → Ctx) : (s.updCtx k f).uses = s.uses := rfl
@[simp] theorem State.updCtx_eparks (s : State) (k : Word) (f : Ctx → Ctx) : (s.updCtx k f).eparks = s.eparks := rfl
@[simp] theorem State.updCtx_nextOp (s : State) (k : Word) (f : Ctx → Ctx) : (s.updCtx k f).nextOp = s.nextOp := rfl
@[simp] theorem State.updCtx_nextUid (s : State) (k : Word) (f : Ctx → Ctx) : (s.updCtx k f).nextUid = s.nextUid := rfl
@[simp] theorem State.updCtx_nextAge (s : State) (k : Word) (f : Ctx → Ctx) : (s.updCtx k f).nextAge = s.nextAge := rfl
@[simp] theorem State.updCtx_vmqs (s : State) (k : Word) (f : Ctx → Ctx) : (s.updCtx k f).vmqs = s.vmqs := rfl
@[simp] theorem State.updCtx_grids (s : State) (k : Word) (f : Ctx → Ctx) : (s.updCtx k f).grids = s.grids := rfl
@[simp] theorem State.updCtx_parts (s : State) (k : Word) (f : Ctx → Ctx) : (s.updCtx k f).parts = s.parts := rfl
@[simp] theorem State.updCtx_bars (s : State) (k : Word) (f : Ctx → Ctx) : (s.updCtx k f).bars = s.bars := rfl
@[simp] theorem State.updCtx_caches (s : State) (k : Word) (f : Ctx → Ctx) : (s.updCtx k f).caches = s.caches := rfl
@[simp] theorem State.updCtx_coh (s : State) (k : Word) (f : Ctx → Ctx) : (s.updCtx k f).coh = s.coh := rfl
@[simp] theorem State.updCtx_tiles (s : State) (k : Word) (f : Ctx → Ctx) : (s.updCtx k f).tiles = s.tiles := rfl
@[simp] theorem State.updCtx_mat (s : State) (k : Word) (f : Ctx → Ctx) : (s.updCtx k f).mat = s.mat := rfl
@[simp] theorem State.updCtx_eng (s : State) (k : Word) (f : Ctx → Ctx) : (s.updCtx k f).eng = s.eng := rfl
@[simp] theorem State.updCtx_fill (s : State) (k : Word) (f : Ctx → Ctx) : (s.updCtx k f).fill = s.fill := rfl
@[simp] theorem State.updCtx_vis (s : State) (k : Word) (f : Ctx → Ctx) : (s.updCtx k f).vis = s.vis := rfl
@[simp] theorem State.updCtx_mig (s : State) (k : Word) (f : Ctx → Ctx) : (s.updCtx k f).mig = s.mig := rfl
@[simp] theorem State.updCtx_mgmt (s : State) (k : Word) (f : Ctx → Ctx) : (s.updCtx k f).mgmt = s.mgmt := rfl
@[simp] theorem State.updCtx_saved (s : State) (k : Word) (f : Ctx → Ctx) : (s.updCtx k f).saved = s.saved := rfl
@[simp] theorem State.updCtx_answers (s : State) (k : Word) (f : Ctx → Ctx) : (s.updCtx k f).answers = s.answers := rfl

/-! ### `State.updGrid` -/

@[simp] theorem State.updGrid_inbox (s : State) (k : Word) (f : Grid → Grid) : (s.updGrid k f).inbox = s.inbox := rfl
@[simp] theorem State.updGrid_ghosts (s : State) (k : Word) (f : Grid → Grid) : (s.updGrid k f).ghosts = s.ghosts := rfl
@[simp] theorem State.updGrid_cur (s : State) (k : Word) (f : Grid → Grid) : (s.updGrid k f).cur = s.cur := rfl
@[simp] theorem State.updGrid_ticks (s : State) (k : Word) (f : Grid → Grid) : (s.updGrid k f).ticks = s.ticks := rfl
@[simp] theorem State.updGrid_clk (s : State) (k : Word) (f : Grid → Grid) : (s.updGrid k f).clk = s.clk := rfl
@[simp] theorem State.updGrid_boot (s : State) (k : Word) (f : Grid → Grid) : (s.updGrid k f).boot = s.boot := rfl
@[simp] theorem State.updGrid_mem (s : State) (k : Word) (f : Grid → Grid) : (s.updGrid k f).mem = s.mem := rfl
@[simp] theorem State.updGrid_poison (s : State) (k : Word) (f : Grid → Grid) : (s.updGrid k f).poison = s.poison := rfl
@[simp] theorem State.updGrid_teams (s : State) (k : Word) (f : Grid → Grid) : (s.updGrid k f).teams = s.teams := rfl
@[simp] theorem State.updGrid_ops (s : State) (k : Word) (f : Grid → Grid) : (s.updGrid k f).ops = s.ops := rfl
@[simp] theorem State.updGrid_uses (s : State) (k : Word) (f : Grid → Grid) : (s.updGrid k f).uses = s.uses := rfl
@[simp] theorem State.updGrid_eparks (s : State) (k : Word) (f : Grid → Grid) : (s.updGrid k f).eparks = s.eparks := rfl
@[simp] theorem State.updGrid_nextOp (s : State) (k : Word) (f : Grid → Grid) : (s.updGrid k f).nextOp = s.nextOp := rfl
@[simp] theorem State.updGrid_nextUid (s : State) (k : Word) (f : Grid → Grid) : (s.updGrid k f).nextUid = s.nextUid := rfl
@[simp] theorem State.updGrid_nextAge (s : State) (k : Word) (f : Grid → Grid) : (s.updGrid k f).nextAge = s.nextAge := rfl
@[simp] theorem State.updGrid_ctxs (s : State) (k : Word) (f : Grid → Grid) : (s.updGrid k f).ctxs = s.ctxs := rfl
@[simp] theorem State.updGrid_vmqs (s : State) (k : Word) (f : Grid → Grid) : (s.updGrid k f).vmqs = s.vmqs := rfl
@[simp] theorem State.updGrid_parts (s : State) (k : Word) (f : Grid → Grid) : (s.updGrid k f).parts = s.parts := rfl
@[simp] theorem State.updGrid_bars (s : State) (k : Word) (f : Grid → Grid) : (s.updGrid k f).bars = s.bars := rfl
@[simp] theorem State.updGrid_caches (s : State) (k : Word) (f : Grid → Grid) : (s.updGrid k f).caches = s.caches := rfl
@[simp] theorem State.updGrid_coh (s : State) (k : Word) (f : Grid → Grid) : (s.updGrid k f).coh = s.coh := rfl
@[simp] theorem State.updGrid_tiles (s : State) (k : Word) (f : Grid → Grid) : (s.updGrid k f).tiles = s.tiles := rfl
@[simp] theorem State.updGrid_mat (s : State) (k : Word) (f : Grid → Grid) : (s.updGrid k f).mat = s.mat := rfl
@[simp] theorem State.updGrid_eng (s : State) (k : Word) (f : Grid → Grid) : (s.updGrid k f).eng = s.eng := rfl
@[simp] theorem State.updGrid_fill (s : State) (k : Word) (f : Grid → Grid) : (s.updGrid k f).fill = s.fill := rfl
@[simp] theorem State.updGrid_vis (s : State) (k : Word) (f : Grid → Grid) : (s.updGrid k f).vis = s.vis := rfl
@[simp] theorem State.updGrid_mig (s : State) (k : Word) (f : Grid → Grid) : (s.updGrid k f).mig = s.mig := rfl
@[simp] theorem State.updGrid_mgmt (s : State) (k : Word) (f : Grid → Grid) : (s.updGrid k f).mgmt = s.mgmt := rfl
@[simp] theorem State.updGrid_saved (s : State) (k : Word) (f : Grid → Grid) : (s.updGrid k f).saved = s.saved := rfl
@[simp] theorem State.updGrid_answers (s : State) (k : Word) (f : Grid → Grid) : (s.updGrid k f).answers = s.answers := rfl

/-! ### `State.updPart` -/

@[simp] theorem State.updPart_inbox (s : State) (k : Nat) (f : Part → Part) : (s.updPart k f).inbox = s.inbox := rfl
@[simp] theorem State.updPart_ghosts (s : State) (k : Nat) (f : Part → Part) : (s.updPart k f).ghosts = s.ghosts := rfl
@[simp] theorem State.updPart_cur (s : State) (k : Nat) (f : Part → Part) : (s.updPart k f).cur = s.cur := rfl
@[simp] theorem State.updPart_ticks (s : State) (k : Nat) (f : Part → Part) : (s.updPart k f).ticks = s.ticks := rfl
@[simp] theorem State.updPart_clk (s : State) (k : Nat) (f : Part → Part) : (s.updPart k f).clk = s.clk := rfl
@[simp] theorem State.updPart_boot (s : State) (k : Nat) (f : Part → Part) : (s.updPart k f).boot = s.boot := rfl
@[simp] theorem State.updPart_mem (s : State) (k : Nat) (f : Part → Part) : (s.updPart k f).mem = s.mem := rfl
@[simp] theorem State.updPart_poison (s : State) (k : Nat) (f : Part → Part) : (s.updPart k f).poison = s.poison := rfl
@[simp] theorem State.updPart_teams (s : State) (k : Nat) (f : Part → Part) : (s.updPart k f).teams = s.teams := rfl
@[simp] theorem State.updPart_ops (s : State) (k : Nat) (f : Part → Part) : (s.updPart k f).ops = s.ops := rfl
@[simp] theorem State.updPart_uses (s : State) (k : Nat) (f : Part → Part) : (s.updPart k f).uses = s.uses := rfl
@[simp] theorem State.updPart_eparks (s : State) (k : Nat) (f : Part → Part) : (s.updPart k f).eparks = s.eparks := rfl
@[simp] theorem State.updPart_nextOp (s : State) (k : Nat) (f : Part → Part) : (s.updPart k f).nextOp = s.nextOp := rfl
@[simp] theorem State.updPart_nextUid (s : State) (k : Nat) (f : Part → Part) : (s.updPart k f).nextUid = s.nextUid := rfl
@[simp] theorem State.updPart_nextAge (s : State) (k : Nat) (f : Part → Part) : (s.updPart k f).nextAge = s.nextAge := rfl
@[simp] theorem State.updPart_ctxs (s : State) (k : Nat) (f : Part → Part) : (s.updPart k f).ctxs = s.ctxs := rfl
@[simp] theorem State.updPart_vmqs (s : State) (k : Nat) (f : Part → Part) : (s.updPart k f).vmqs = s.vmqs := rfl
@[simp] theorem State.updPart_grids (s : State) (k : Nat) (f : Part → Part) : (s.updPart k f).grids = s.grids := rfl
@[simp] theorem State.updPart_bars (s : State) (k : Nat) (f : Part → Part) : (s.updPart k f).bars = s.bars := rfl
@[simp] theorem State.updPart_caches (s : State) (k : Nat) (f : Part → Part) : (s.updPart k f).caches = s.caches := rfl
@[simp] theorem State.updPart_coh (s : State) (k : Nat) (f : Part → Part) : (s.updPart k f).coh = s.coh := rfl
@[simp] theorem State.updPart_tiles (s : State) (k : Nat) (f : Part → Part) : (s.updPart k f).tiles = s.tiles := rfl
@[simp] theorem State.updPart_mat (s : State) (k : Nat) (f : Part → Part) : (s.updPart k f).mat = s.mat := rfl
@[simp] theorem State.updPart_eng (s : State) (k : Nat) (f : Part → Part) : (s.updPart k f).eng = s.eng := rfl
@[simp] theorem State.updPart_fill (s : State) (k : Nat) (f : Part → Part) : (s.updPart k f).fill = s.fill := rfl
@[simp] theorem State.updPart_vis (s : State) (k : Nat) (f : Part → Part) : (s.updPart k f).vis = s.vis := rfl
@[simp] theorem State.updPart_mig (s : State) (k : Nat) (f : Part → Part) : (s.updPart k f).mig = s.mig := rfl
@[simp] theorem State.updPart_mgmt (s : State) (k : Nat) (f : Part → Part) : (s.updPart k f).mgmt = s.mgmt := rfl
@[simp] theorem State.updPart_saved (s : State) (k : Nat) (f : Part → Part) : (s.updPart k f).saved = s.saved := rfl
@[simp] theorem State.updPart_answers (s : State) (k : Nat) (f : Part → Part) : (s.updPart k f).answers = s.answers := rfl

/-! ### `State.updOp` -/

@[simp] theorem State.updOp_inbox (s : State) (k : Nat) (f : Op → Op) : (s.updOp k f).inbox = s.inbox := rfl
@[simp] theorem State.updOp_ghosts (s : State) (k : Nat) (f : Op → Op) : (s.updOp k f).ghosts = s.ghosts := rfl
@[simp] theorem State.updOp_cur (s : State) (k : Nat) (f : Op → Op) : (s.updOp k f).cur = s.cur := rfl
@[simp] theorem State.updOp_ticks (s : State) (k : Nat) (f : Op → Op) : (s.updOp k f).ticks = s.ticks := rfl
@[simp] theorem State.updOp_clk (s : State) (k : Nat) (f : Op → Op) : (s.updOp k f).clk = s.clk := rfl
@[simp] theorem State.updOp_boot (s : State) (k : Nat) (f : Op → Op) : (s.updOp k f).boot = s.boot := rfl
@[simp] theorem State.updOp_mem (s : State) (k : Nat) (f : Op → Op) : (s.updOp k f).mem = s.mem := rfl
@[simp] theorem State.updOp_poison (s : State) (k : Nat) (f : Op → Op) : (s.updOp k f).poison = s.poison := rfl
@[simp] theorem State.updOp_teams (s : State) (k : Nat) (f : Op → Op) : (s.updOp k f).teams = s.teams := rfl
@[simp] theorem State.updOp_uses (s : State) (k : Nat) (f : Op → Op) : (s.updOp k f).uses = s.uses := rfl
@[simp] theorem State.updOp_eparks (s : State) (k : Nat) (f : Op → Op) : (s.updOp k f).eparks = s.eparks := rfl
@[simp] theorem State.updOp_nextOp (s : State) (k : Nat) (f : Op → Op) : (s.updOp k f).nextOp = s.nextOp := rfl
@[simp] theorem State.updOp_nextUid (s : State) (k : Nat) (f : Op → Op) : (s.updOp k f).nextUid = s.nextUid := rfl
@[simp] theorem State.updOp_nextAge (s : State) (k : Nat) (f : Op → Op) : (s.updOp k f).nextAge = s.nextAge := rfl
@[simp] theorem State.updOp_ctxs (s : State) (k : Nat) (f : Op → Op) : (s.updOp k f).ctxs = s.ctxs := rfl
@[simp] theorem State.updOp_vmqs (s : State) (k : Nat) (f : Op → Op) : (s.updOp k f).vmqs = s.vmqs := rfl
@[simp] theorem State.updOp_grids (s : State) (k : Nat) (f : Op → Op) : (s.updOp k f).grids = s.grids := rfl
@[simp] theorem State.updOp_parts (s : State) (k : Nat) (f : Op → Op) : (s.updOp k f).parts = s.parts := rfl
@[simp] theorem State.updOp_bars (s : State) (k : Nat) (f : Op → Op) : (s.updOp k f).bars = s.bars := rfl
@[simp] theorem State.updOp_caches (s : State) (k : Nat) (f : Op → Op) : (s.updOp k f).caches = s.caches := rfl
@[simp] theorem State.updOp_coh (s : State) (k : Nat) (f : Op → Op) : (s.updOp k f).coh = s.coh := rfl
@[simp] theorem State.updOp_tiles (s : State) (k : Nat) (f : Op → Op) : (s.updOp k f).tiles = s.tiles := rfl
@[simp] theorem State.updOp_mat (s : State) (k : Nat) (f : Op → Op) : (s.updOp k f).mat = s.mat := rfl
@[simp] theorem State.updOp_eng (s : State) (k : Nat) (f : Op → Op) : (s.updOp k f).eng = s.eng := rfl
@[simp] theorem State.updOp_fill (s : State) (k : Nat) (f : Op → Op) : (s.updOp k f).fill = s.fill := rfl
@[simp] theorem State.updOp_vis (s : State) (k : Nat) (f : Op → Op) : (s.updOp k f).vis = s.vis := rfl
@[simp] theorem State.updOp_mig (s : State) (k : Nat) (f : Op → Op) : (s.updOp k f).mig = s.mig := rfl
@[simp] theorem State.updOp_mgmt (s : State) (k : Nat) (f : Op → Op) : (s.updOp k f).mgmt = s.mgmt := rfl
@[simp] theorem State.updOp_saved (s : State) (k : Nat) (f : Op → Op) : (s.updOp k f).saved = s.saved := rfl
@[simp] theorem State.updOp_answers (s : State) (k : Nat) (f : Op → Op) : (s.updOp k f).answers = s.answers := rfl

/-! ### `State.dropOp` -/

@[simp] theorem State.dropOp_inbox (s : State) (k : Nat) : (s.dropOp k).inbox = s.inbox := rfl
@[simp] theorem State.dropOp_ghosts (s : State) (k : Nat) : (s.dropOp k).ghosts = s.ghosts := rfl
@[simp] theorem State.dropOp_cur (s : State) (k : Nat) : (s.dropOp k).cur = s.cur := rfl
@[simp] theorem State.dropOp_ticks (s : State) (k : Nat) : (s.dropOp k).ticks = s.ticks := rfl
@[simp] theorem State.dropOp_clk (s : State) (k : Nat) : (s.dropOp k).clk = s.clk := rfl
@[simp] theorem State.dropOp_boot (s : State) (k : Nat) : (s.dropOp k).boot = s.boot := rfl
@[simp] theorem State.dropOp_mem (s : State) (k : Nat) : (s.dropOp k).mem = s.mem := rfl
@[simp] theorem State.dropOp_poison (s : State) (k : Nat) : (s.dropOp k).poison = s.poison := rfl
@[simp] theorem State.dropOp_teams (s : State) (k : Nat) : (s.dropOp k).teams = s.teams := rfl
@[simp] theorem State.dropOp_uses (s : State) (k : Nat) : (s.dropOp k).uses = s.uses := rfl
@[simp] theorem State.dropOp_eparks (s : State) (k : Nat) : (s.dropOp k).eparks = s.eparks := rfl
@[simp] theorem State.dropOp_nextOp (s : State) (k : Nat) : (s.dropOp k).nextOp = s.nextOp := rfl
@[simp] theorem State.dropOp_nextUid (s : State) (k : Nat) : (s.dropOp k).nextUid = s.nextUid := rfl
@[simp] theorem State.dropOp_nextAge (s : State) (k : Nat) : (s.dropOp k).nextAge = s.nextAge := rfl
@[simp] theorem State.dropOp_ctxs (s : State) (k : Nat) : (s.dropOp k).ctxs = s.ctxs := rfl
@[simp] theorem State.dropOp_vmqs (s : State) (k : Nat) : (s.dropOp k).vmqs = s.vmqs := rfl
@[simp] theorem State.dropOp_grids (s : State) (k : Nat) : (s.dropOp k).grids = s.grids := rfl
@[simp] theorem State.dropOp_parts (s : State) (k : Nat) : (s.dropOp k).parts = s.parts := rfl
@[simp] theorem State.dropOp_bars (s : State) (k : Nat) : (s.dropOp k).bars = s.bars := rfl
@[simp] theorem State.dropOp_caches (s : State) (k : Nat) : (s.dropOp k).caches = s.caches := rfl
@[simp] theorem State.dropOp_coh (s : State) (k : Nat) : (s.dropOp k).coh = s.coh := rfl
@[simp] theorem State.dropOp_tiles (s : State) (k : Nat) : (s.dropOp k).tiles = s.tiles := rfl
@[simp] theorem State.dropOp_mat (s : State) (k : Nat) : (s.dropOp k).mat = s.mat := rfl
@[simp] theorem State.dropOp_eng (s : State) (k : Nat) : (s.dropOp k).eng = s.eng := rfl
@[simp] theorem State.dropOp_fill (s : State) (k : Nat) : (s.dropOp k).fill = s.fill := rfl
@[simp] theorem State.dropOp_vis (s : State) (k : Nat) : (s.dropOp k).vis = s.vis := rfl
@[simp] theorem State.dropOp_mig (s : State) (k : Nat) : (s.dropOp k).mig = s.mig := rfl
@[simp] theorem State.dropOp_mgmt (s : State) (k : Nat) : (s.dropOp k).mgmt = s.mgmt := rfl
@[simp] theorem State.dropOp_saved (s : State) (k : Nat) : (s.dropOp k).saved = s.saved := rfl
@[simp] theorem State.dropOp_answers (s : State) (k : Nat) : (s.dropOp k).answers = s.answers := rfl

/-! ### `State.addOp` -/

@[simp] theorem State.addOp_inbox (s : State) (o : Op) : (s.addOp o).inbox = s.inbox := rfl
@[simp] theorem State.addOp_ghosts (s : State) (o : Op) : (s.addOp o).ghosts = s.ghosts := rfl
@[simp] theorem State.addOp_cur (s : State) (o : Op) : (s.addOp o).cur = s.cur := rfl
@[simp] theorem State.addOp_ticks (s : State) (o : Op) : (s.addOp o).ticks = s.ticks := rfl
@[simp] theorem State.addOp_clk (s : State) (o : Op) : (s.addOp o).clk = s.clk := rfl
@[simp] theorem State.addOp_boot (s : State) (o : Op) : (s.addOp o).boot = s.boot := rfl
@[simp] theorem State.addOp_mem (s : State) (o : Op) : (s.addOp o).mem = s.mem := rfl
@[simp] theorem State.addOp_poison (s : State) (o : Op) : (s.addOp o).poison = s.poison := rfl
@[simp] theorem State.addOp_teams (s : State) (o : Op) : (s.addOp o).teams = s.teams := rfl
@[simp] theorem State.addOp_uses (s : State) (o : Op) : (s.addOp o).uses = s.uses := rfl
@[simp] theorem State.addOp_eparks (s : State) (o : Op) : (s.addOp o).eparks = s.eparks := rfl
@[simp] theorem State.addOp_nextUid (s : State) (o : Op) : (s.addOp o).nextUid = s.nextUid := rfl
@[simp] theorem State.addOp_nextAge (s : State) (o : Op) : (s.addOp o).nextAge = s.nextAge := rfl
@[simp] theorem State.addOp_ctxs (s : State) (o : Op) : (s.addOp o).ctxs = s.ctxs := rfl
@[simp] theorem State.addOp_vmqs (s : State) (o : Op) : (s.addOp o).vmqs = s.vmqs := rfl
@[simp] theorem State.addOp_grids (s : State) (o : Op) : (s.addOp o).grids = s.grids := rfl
@[simp] theorem State.addOp_parts (s : State) (o : Op) : (s.addOp o).parts = s.parts := rfl
@[simp] theorem State.addOp_bars (s : State) (o : Op) : (s.addOp o).bars = s.bars := rfl
@[simp] theorem State.addOp_caches (s : State) (o : Op) : (s.addOp o).caches = s.caches := rfl
@[simp] theorem State.addOp_coh (s : State) (o : Op) : (s.addOp o).coh = s.coh := rfl
@[simp] theorem State.addOp_tiles (s : State) (o : Op) : (s.addOp o).tiles = s.tiles := rfl
@[simp] theorem State.addOp_mat (s : State) (o : Op) : (s.addOp o).mat = s.mat := rfl
@[simp] theorem State.addOp_eng (s : State) (o : Op) : (s.addOp o).eng = s.eng := rfl
@[simp] theorem State.addOp_fill (s : State) (o : Op) : (s.addOp o).fill = s.fill := rfl
@[simp] theorem State.addOp_vis (s : State) (o : Op) : (s.addOp o).vis = s.vis := rfl
@[simp] theorem State.addOp_mig (s : State) (o : Op) : (s.addOp o).mig = s.mig := rfl
@[simp] theorem State.addOp_mgmt (s : State) (o : Op) : (s.addOp o).mgmt = s.mgmt := rfl
@[simp] theorem State.addOp_saved (s : State) (o : Op) : (s.addOp o).saved = s.saved := rfl
@[simp] theorem State.addOp_answers (s : State) (o : Op) : (s.addOp o).answers = s.answers := rfl

/-! ### `State.writeMem` -/

@[simp] theorem State.writeMem_inbox (s : State) (cs : List Host.Cell) : (s.writeMem cs).inbox = s.inbox := rfl
@[simp] theorem State.writeMem_ghosts (s : State) (cs : List Host.Cell) : (s.writeMem cs).ghosts = s.ghosts := rfl
@[simp] theorem State.writeMem_cur (s : State) (cs : List Host.Cell) : (s.writeMem cs).cur = s.cur := rfl
@[simp] theorem State.writeMem_ticks (s : State) (cs : List Host.Cell) : (s.writeMem cs).ticks = s.ticks := rfl
@[simp] theorem State.writeMem_clk (s : State) (cs : List Host.Cell) : (s.writeMem cs).clk = s.clk := rfl
@[simp] theorem State.writeMem_boot (s : State) (cs : List Host.Cell) : (s.writeMem cs).boot = s.boot := rfl
@[simp] theorem State.writeMem_teams (s : State) (cs : List Host.Cell) : (s.writeMem cs).teams = s.teams := rfl
@[simp] theorem State.writeMem_ops (s : State) (cs : List Host.Cell) : (s.writeMem cs).ops = s.ops := rfl
@[simp] theorem State.writeMem_uses (s : State) (cs : List Host.Cell) : (s.writeMem cs).uses = s.uses := rfl
@[simp] theorem State.writeMem_eparks (s : State) (cs : List Host.Cell) : (s.writeMem cs).eparks = s.eparks := rfl
@[simp] theorem State.writeMem_nextOp (s : State) (cs : List Host.Cell) : (s.writeMem cs).nextOp = s.nextOp := rfl
@[simp] theorem State.writeMem_nextUid (s : State) (cs : List Host.Cell) : (s.writeMem cs).nextUid = s.nextUid := rfl
@[simp] theorem State.writeMem_nextAge (s : State) (cs : List Host.Cell) : (s.writeMem cs).nextAge = s.nextAge := rfl
@[simp] theorem State.writeMem_ctxs (s : State) (cs : List Host.Cell) : (s.writeMem cs).ctxs = s.ctxs := rfl
@[simp] theorem State.writeMem_vmqs (s : State) (cs : List Host.Cell) : (s.writeMem cs).vmqs = s.vmqs := rfl
@[simp] theorem State.writeMem_grids (s : State) (cs : List Host.Cell) : (s.writeMem cs).grids = s.grids := rfl
@[simp] theorem State.writeMem_parts (s : State) (cs : List Host.Cell) : (s.writeMem cs).parts = s.parts := rfl
@[simp] theorem State.writeMem_bars (s : State) (cs : List Host.Cell) : (s.writeMem cs).bars = s.bars := rfl
@[simp] theorem State.writeMem_caches (s : State) (cs : List Host.Cell) : (s.writeMem cs).caches = s.caches := rfl
@[simp] theorem State.writeMem_coh (s : State) (cs : List Host.Cell) : (s.writeMem cs).coh = s.coh := rfl
@[simp] theorem State.writeMem_tiles (s : State) (cs : List Host.Cell) : (s.writeMem cs).tiles = s.tiles := rfl
@[simp] theorem State.writeMem_mat (s : State) (cs : List Host.Cell) : (s.writeMem cs).mat = s.mat := rfl
@[simp] theorem State.writeMem_eng (s : State) (cs : List Host.Cell) : (s.writeMem cs).eng = s.eng := rfl
@[simp] theorem State.writeMem_fill (s : State) (cs : List Host.Cell) : (s.writeMem cs).fill = s.fill := rfl
@[simp] theorem State.writeMem_vis (s : State) (cs : List Host.Cell) : (s.writeMem cs).vis = s.vis := rfl
@[simp] theorem State.writeMem_mgmt (s : State) (cs : List Host.Cell) : (s.writeMem cs).mgmt = s.mgmt := rfl
@[simp] theorem State.writeMem_saved (s : State) (cs : List Host.Cell) : (s.writeMem cs).saved = s.saved := rfl

/-! ### `State.tick` -/

@[simp] theorem State.tick_inbox (s : State) : (s.tick).inbox = s.inbox := rfl
@[simp] theorem State.tick_ghosts (s : State) : (s.tick).ghosts = s.ghosts := rfl
@[simp] theorem State.tick_cur (s : State) : (s.tick).cur = s.cur := rfl
@[simp] theorem State.tick_boot (s : State) : (s.tick).boot = s.boot := rfl
@[simp] theorem State.tick_mem (s : State) : (s.tick).mem = s.mem := rfl
@[simp] theorem State.tick_poison (s : State) : (s.tick).poison = s.poison := rfl
theorem State.tick_teams (s : State) :
    (s.tick).teams = s.teams.map fun t => if t.passed != 0 && !s.ready t then { t with passed := 0 } else t := rfl
@[simp] theorem State.tick_ops (s : State) : (s.tick).ops = s.ops := rfl
@[simp] theorem State.tick_uses (s : State) : (s.tick).uses = s.uses := rfl
@[simp] theorem State.tick_eparks (s : State) : (s.tick).eparks = s.eparks := rfl
@[simp] theorem State.tick_nextOp (s : State) : (s.tick).nextOp = s.nextOp := rfl
@[simp] theorem State.tick_nextUid (s : State) : (s.tick).nextUid = s.nextUid := rfl
@[simp] theorem State.tick_nextAge (s : State) : (s.tick).nextAge = s.nextAge := rfl
@[simp] theorem State.tick_vmqs (s : State) : (s.tick).vmqs = s.vmqs := rfl
@[simp] theorem State.tick_grids (s : State) : (s.tick).grids = s.grids := rfl
@[simp] theorem State.tick_parts (s : State) : (s.tick).parts = s.parts := rfl
@[simp] theorem State.tick_bars (s : State) : (s.tick).bars = s.bars := rfl
@[simp] theorem State.tick_caches (s : State) : (s.tick).caches = s.caches := rfl
@[simp] theorem State.tick_coh (s : State) : (s.tick).coh = s.coh := rfl
@[simp] theorem State.tick_tiles (s : State) : (s.tick).tiles = s.tiles := rfl
@[simp] theorem State.tick_mat (s : State) : (s.tick).mat = s.mat := rfl
@[simp] theorem State.tick_eng (s : State) : (s.tick).eng = s.eng := rfl
@[simp] theorem State.tick_fill (s : State) : (s.tick).fill = s.fill := rfl
@[simp] theorem State.tick_vis (s : State) : (s.tick).vis = s.vis := rfl
@[simp] theorem State.tick_mig (s : State) : (s.tick).mig = s.mig := rfl
@[simp] theorem State.tick_mgmt (s : State) : (s.tick).mgmt = s.mgmt := rfl
@[simp] theorem State.tick_saved (s : State) : (s.tick).saved = s.saved := rfl
@[simp] theorem State.tick_answers (s : State) : (s.tick).answers = s.answers := rfl

/-! ### `State.updMgmt` -/

@[simp] theorem State.updMgmt_inbox (s : State) (f : Mgmt → Mgmt) : (s.updMgmt f).inbox = s.inbox := rfl
@[simp] theorem State.updMgmt_ghosts (s : State) (f : Mgmt → Mgmt) : (s.updMgmt f).ghosts = s.ghosts := rfl
@[simp] theorem State.updMgmt_cur (s : State) (f : Mgmt → Mgmt) : (s.updMgmt f).cur = s.cur := rfl
@[simp] theorem State.updMgmt_ticks (s : State) (f : Mgmt → Mgmt) : (s.updMgmt f).ticks = s.ticks := rfl
@[simp] theorem State.updMgmt_clk (s : State) (f : Mgmt → Mgmt) : (s.updMgmt f).clk = s.clk := rfl
@[simp] theorem State.updMgmt_boot (s : State) (f : Mgmt → Mgmt) : (s.updMgmt f).boot = s.boot := rfl
@[simp] theorem State.updMgmt_mem (s : State) (f : Mgmt → Mgmt) : (s.updMgmt f).mem = s.mem := rfl
@[simp] theorem State.updMgmt_poison (s : State) (f : Mgmt → Mgmt) : (s.updMgmt f).poison = s.poison := rfl
@[simp] theorem State.updMgmt_teams (s : State) (f : Mgmt → Mgmt) : (s.updMgmt f).teams = s.teams := rfl
@[simp] theorem State.updMgmt_ops (s : State) (f : Mgmt → Mgmt) : (s.updMgmt f).ops = s.ops := rfl
@[simp] theorem State.updMgmt_uses (s : State) (f : Mgmt → Mgmt) : (s.updMgmt f).uses = s.uses := rfl
@[simp] theorem State.updMgmt_eparks (s : State) (f : Mgmt → Mgmt) : (s.updMgmt f).eparks = s.eparks := rfl
@[simp] theorem State.updMgmt_nextOp (s : State) (f : Mgmt → Mgmt) : (s.updMgmt f).nextOp = s.nextOp := rfl
@[simp] theorem State.updMgmt_nextUid (s : State) (f : Mgmt → Mgmt) : (s.updMgmt f).nextUid = s.nextUid := rfl
@[simp] theorem State.updMgmt_nextAge (s : State) (f : Mgmt → Mgmt) : (s.updMgmt f).nextAge = s.nextAge := rfl
@[simp] theorem State.updMgmt_ctxs (s : State) (f : Mgmt → Mgmt) : (s.updMgmt f).ctxs = s.ctxs := rfl
@[simp] theorem State.updMgmt_vmqs (s : State) (f : Mgmt → Mgmt) : (s.updMgmt f).vmqs = s.vmqs := rfl
@[simp] theorem State.updMgmt_grids (s : State) (f : Mgmt → Mgmt) : (s.updMgmt f).grids = s.grids := rfl
@[simp] theorem State.updMgmt_parts (s : State) (f : Mgmt → Mgmt) : (s.updMgmt f).parts = s.parts := rfl
@[simp] theorem State.updMgmt_bars (s : State) (f : Mgmt → Mgmt) : (s.updMgmt f).bars = s.bars := rfl
@[simp] theorem State.updMgmt_caches (s : State) (f : Mgmt → Mgmt) : (s.updMgmt f).caches = s.caches := rfl
@[simp] theorem State.updMgmt_coh (s : State) (f : Mgmt → Mgmt) : (s.updMgmt f).coh = s.coh := rfl
@[simp] theorem State.updMgmt_tiles (s : State) (f : Mgmt → Mgmt) : (s.updMgmt f).tiles = s.tiles := rfl
@[simp] theorem State.updMgmt_mat (s : State) (f : Mgmt → Mgmt) : (s.updMgmt f).mat = s.mat := rfl
@[simp] theorem State.updMgmt_eng (s : State) (f : Mgmt → Mgmt) : (s.updMgmt f).eng = s.eng := rfl
@[simp] theorem State.updMgmt_fill (s : State) (f : Mgmt → Mgmt) : (s.updMgmt f).fill = s.fill := rfl
@[simp] theorem State.updMgmt_vis (s : State) (f : Mgmt → Mgmt) : (s.updMgmt f).vis = s.vis := rfl
@[simp] theorem State.updMgmt_mig (s : State) (f : Mgmt → Mgmt) : (s.updMgmt f).mig = s.mig := rfl
@[simp] theorem State.updMgmt_saved (s : State) (f : Mgmt → Mgmt) : (s.updMgmt f).saved = s.saved := rfl
@[simp] theorem State.updMgmt_answers (s : State) (f : Mgmt → Mgmt) : (s.updMgmt f).answers = s.answers := rfl

/-! ### `State.updFill` -/

@[simp] theorem State.updFill_inbox (s : State) (f : Fill → Fill) : (s.updFill f).inbox = s.inbox := rfl
@[simp] theorem State.updFill_ghosts (s : State) (f : Fill → Fill) : (s.updFill f).ghosts = s.ghosts := rfl
@[simp] theorem State.updFill_cur (s : State) (f : Fill → Fill) : (s.updFill f).cur = s.cur := rfl
@[simp] theorem State.updFill_ticks (s : State) (f : Fill → Fill) : (s.updFill f).ticks = s.ticks := rfl
@[simp] theorem State.updFill_clk (s : State) (f : Fill → Fill) : (s.updFill f).clk = s.clk := rfl
@[simp] theorem State.updFill_boot (s : State) (f : Fill → Fill) : (s.updFill f).boot = s.boot := rfl
@[simp] theorem State.updFill_mem (s : State) (f : Fill → Fill) : (s.updFill f).mem = s.mem := rfl
@[simp] theorem State.updFill_poison (s : State) (f : Fill → Fill) : (s.updFill f).poison = s.poison := rfl
@[simp] theorem State.updFill_teams (s : State) (f : Fill → Fill) : (s.updFill f).teams = s.teams := rfl
@[simp] theorem State.updFill_ops (s : State) (f : Fill → Fill) : (s.updFill f).ops = s.ops := rfl
@[simp] theorem State.updFill_uses (s : State) (f : Fill → Fill) : (s.updFill f).uses = s.uses := rfl
@[simp] theorem State.updFill_eparks (s : State) (f : Fill → Fill) : (s.updFill f).eparks = s.eparks := rfl
@[simp] theorem State.updFill_nextOp (s : State) (f : Fill → Fill) : (s.updFill f).nextOp = s.nextOp := rfl
@[simp] theorem State.updFill_nextUid (s : State) (f : Fill → Fill) : (s.updFill f).nextUid = s.nextUid := rfl
@[simp] theorem State.updFill_nextAge (s : State) (f : Fill → Fill) : (s.updFill f).nextAge = s.nextAge := rfl
@[simp] theorem State.updFill_ctxs (s : State) (f : Fill → Fill) : (s.updFill f).ctxs = s.ctxs := rfl
@[simp] theorem State.updFill_vmqs (s : State) (f : Fill → Fill) : (s.updFill f).vmqs = s.vmqs := rfl
@[simp] theorem State.updFill_grids (s : State) (f : Fill → Fill) : (s.updFill f).grids = s.grids := rfl
@[simp] theorem State.updFill_parts (s : State) (f : Fill → Fill) : (s.updFill f).parts = s.parts := rfl
@[simp] theorem State.updFill_bars (s : State) (f : Fill → Fill) : (s.updFill f).bars = s.bars := rfl
@[simp] theorem State.updFill_caches (s : State) (f : Fill → Fill) : (s.updFill f).caches = s.caches := rfl
@[simp] theorem State.updFill_coh (s : State) (f : Fill → Fill) : (s.updFill f).coh = s.coh := rfl
@[simp] theorem State.updFill_tiles (s : State) (f : Fill → Fill) : (s.updFill f).tiles = s.tiles := rfl
@[simp] theorem State.updFill_mat (s : State) (f : Fill → Fill) : (s.updFill f).mat = s.mat := rfl
@[simp] theorem State.updFill_eng (s : State) (f : Fill → Fill) : (s.updFill f).eng = s.eng := rfl
@[simp] theorem State.updFill_vis (s : State) (f : Fill → Fill) : (s.updFill f).vis = s.vis := rfl
@[simp] theorem State.updFill_mig (s : State) (f : Fill → Fill) : (s.updFill f).mig = s.mig := rfl
@[simp] theorem State.updFill_mgmt (s : State) (f : Fill → Fill) : (s.updFill f).mgmt = s.mgmt := rfl
@[simp] theorem State.updFill_saved (s : State) (f : Fill → Fill) : (s.updFill f).saved = s.saved := rfl
@[simp] theorem State.updFill_answers (s : State) (f : Fill → Fill) : (s.updFill f).answers = s.answers := rfl

/-! ### `State.updEng` -/

@[simp] theorem State.updEng_inbox (s : State) (f : Eng → Eng) : (s.updEng f).inbox = s.inbox := rfl
@[simp] theorem State.updEng_ghosts (s : State) (f : Eng → Eng) : (s.updEng f).ghosts = s.ghosts := rfl
@[simp] theorem State.updEng_cur (s : State) (f : Eng → Eng) : (s.updEng f).cur = s.cur := rfl
@[simp] theorem State.updEng_ticks (s : State) (f : Eng → Eng) : (s.updEng f).ticks = s.ticks := rfl
@[simp] theorem State.updEng_clk (s : State) (f : Eng → Eng) : (s.updEng f).clk = s.clk := rfl
@[simp] theorem State.updEng_boot (s : State) (f : Eng → Eng) : (s.updEng f).boot = s.boot := rfl
@[simp] theorem State.updEng_mem (s : State) (f : Eng → Eng) : (s.updEng f).mem = s.mem := rfl
@[simp] theorem State.updEng_poison (s : State) (f : Eng → Eng) : (s.updEng f).poison = s.poison := rfl
@[simp] theorem State.updEng_teams (s : State) (f : Eng → Eng) : (s.updEng f).teams = s.teams := rfl
@[simp] theorem State.updEng_ops (s : State) (f : Eng → Eng) : (s.updEng f).ops = s.ops := rfl
@[simp] theorem State.updEng_uses (s : State) (f : Eng → Eng) : (s.updEng f).uses = s.uses := rfl
@[simp] theorem State.updEng_eparks (s : State) (f : Eng → Eng) : (s.updEng f).eparks = s.eparks := rfl
@[simp] theorem State.updEng_nextOp (s : State) (f : Eng → Eng) : (s.updEng f).nextOp = s.nextOp := rfl
@[simp] theorem State.updEng_nextUid (s : State) (f : Eng → Eng) : (s.updEng f).nextUid = s.nextUid := rfl
@[simp] theorem State.updEng_nextAge (s : State) (f : Eng → Eng) : (s.updEng f).nextAge = s.nextAge := rfl
@[simp] theorem State.updEng_ctxs (s : State) (f : Eng → Eng) : (s.updEng f).ctxs = s.ctxs := rfl
@[simp] theorem State.updEng_vmqs (s : State) (f : Eng → Eng) : (s.updEng f).vmqs = s.vmqs := rfl
@[simp] theorem State.updEng_grids (s : State) (f : Eng → Eng) : (s.updEng f).grids = s.grids := rfl
@[simp] theorem State.updEng_parts (s : State) (f : Eng → Eng) : (s.updEng f).parts = s.parts := rfl
@[simp] theorem State.updEng_bars (s : State) (f : Eng → Eng) : (s.updEng f).bars = s.bars := rfl
@[simp] theorem State.updEng_caches (s : State) (f : Eng → Eng) : (s.updEng f).caches = s.caches := rfl
@[simp] theorem State.updEng_coh (s : State) (f : Eng → Eng) : (s.updEng f).coh = s.coh := rfl
@[simp] theorem State.updEng_tiles (s : State) (f : Eng → Eng) : (s.updEng f).tiles = s.tiles := rfl
@[simp] theorem State.updEng_mat (s : State) (f : Eng → Eng) : (s.updEng f).mat = s.mat := rfl
@[simp] theorem State.updEng_fill (s : State) (f : Eng → Eng) : (s.updEng f).fill = s.fill := rfl
@[simp] theorem State.updEng_vis (s : State) (f : Eng → Eng) : (s.updEng f).vis = s.vis := rfl
@[simp] theorem State.updEng_mig (s : State) (f : Eng → Eng) : (s.updEng f).mig = s.mig := rfl
@[simp] theorem State.updEng_mgmt (s : State) (f : Eng → Eng) : (s.updEng f).mgmt = s.mgmt := rfl
@[simp] theorem State.updEng_saved (s : State) (f : Eng → Eng) : (s.updEng f).saved = s.saved := rfl
@[simp] theorem State.updEng_answers (s : State) (f : Eng → Eng) : (s.updEng f).answers = s.answers := rfl

/-! ### `State.updMat` -/

@[simp] theorem State.updMat_inbox (s : State) (f : Mat → Mat) : (s.updMat f).inbox = s.inbox := rfl
@[simp] theorem State.updMat_ghosts (s : State) (f : Mat → Mat) : (s.updMat f).ghosts = s.ghosts := rfl
@[simp] theorem State.updMat_cur (s : State) (f : Mat → Mat) : (s.updMat f).cur = s.cur := rfl
@[simp] theorem State.updMat_ticks (s : State) (f : Mat → Mat) : (s.updMat f).ticks = s.ticks := rfl
@[simp] theorem State.updMat_clk (s : State) (f : Mat → Mat) : (s.updMat f).clk = s.clk := rfl
@[simp] theorem State.updMat_boot (s : State) (f : Mat → Mat) : (s.updMat f).boot = s.boot := rfl
@[simp] theorem State.updMat_mem (s : State) (f : Mat → Mat) : (s.updMat f).mem = s.mem := rfl
@[simp] theorem State.updMat_poison (s : State) (f : Mat → Mat) : (s.updMat f).poison = s.poison := rfl
@[simp] theorem State.updMat_teams (s : State) (f : Mat → Mat) : (s.updMat f).teams = s.teams := rfl
@[simp] theorem State.updMat_ops (s : State) (f : Mat → Mat) : (s.updMat f).ops = s.ops := rfl
@[simp] theorem State.updMat_uses (s : State) (f : Mat → Mat) : (s.updMat f).uses = s.uses := rfl
@[simp] theorem State.updMat_eparks (s : State) (f : Mat → Mat) : (s.updMat f).eparks = s.eparks := rfl
@[simp] theorem State.updMat_nextOp (s : State) (f : Mat → Mat) : (s.updMat f).nextOp = s.nextOp := rfl
@[simp] theorem State.updMat_nextUid (s : State) (f : Mat → Mat) : (s.updMat f).nextUid = s.nextUid := rfl
@[simp] theorem State.updMat_nextAge (s : State) (f : Mat → Mat) : (s.updMat f).nextAge = s.nextAge := rfl
@[simp] theorem State.updMat_ctxs (s : State) (f : Mat → Mat) : (s.updMat f).ctxs = s.ctxs := rfl
@[simp] theorem State.updMat_vmqs (s : State) (f : Mat → Mat) : (s.updMat f).vmqs = s.vmqs := rfl
@[simp] theorem State.updMat_grids (s : State) (f : Mat → Mat) : (s.updMat f).grids = s.grids := rfl
@[simp] theorem State.updMat_parts (s : State) (f : Mat → Mat) : (s.updMat f).parts = s.parts := rfl
@[simp] theorem State.updMat_bars (s : State) (f : Mat → Mat) : (s.updMat f).bars = s.bars := rfl
@[simp] theorem State.updMat_caches (s : State) (f : Mat → Mat) : (s.updMat f).caches = s.caches := rfl
@[simp] theorem State.updMat_coh (s : State) (f : Mat → Mat) : (s.updMat f).coh = s.coh := rfl
@[simp] theorem State.updMat_tiles (s : State) (f : Mat → Mat) : (s.updMat f).tiles = s.tiles := rfl
@[simp] theorem State.updMat_eng (s : State) (f : Mat → Mat) : (s.updMat f).eng = s.eng := rfl
@[simp] theorem State.updMat_fill (s : State) (f : Mat → Mat) : (s.updMat f).fill = s.fill := rfl
@[simp] theorem State.updMat_vis (s : State) (f : Mat → Mat) : (s.updMat f).vis = s.vis := rfl
@[simp] theorem State.updMat_mig (s : State) (f : Mat → Mat) : (s.updMat f).mig = s.mig := rfl
@[simp] theorem State.updMat_mgmt (s : State) (f : Mat → Mat) : (s.updMat f).mgmt = s.mgmt := rfl
@[simp] theorem State.updMat_saved (s : State) (f : Mat → Mat) : (s.updMat f).saved = s.saved := rfl
@[simp] theorem State.updMat_answers (s : State) (f : Mat → Mat) : (s.updMat f).answers = s.answers := rfl

/-! ### `State.updVis` -/

@[simp] theorem State.updVis_inbox (s : State) (f : Vis → Vis) : (s.updVis f).inbox = s.inbox := rfl
@[simp] theorem State.updVis_ghosts (s : State) (f : Vis → Vis) : (s.updVis f).ghosts = s.ghosts := rfl
@[simp] theorem State.updVis_cur (s : State) (f : Vis → Vis) : (s.updVis f).cur = s.cur := rfl
@[simp] theorem State.updVis_ticks (s : State) (f : Vis → Vis) : (s.updVis f).ticks = s.ticks := rfl
@[simp] theorem State.updVis_clk (s : State) (f : Vis → Vis) : (s.updVis f).clk = s.clk := rfl
@[simp] theorem State.updVis_boot (s : State) (f : Vis → Vis) : (s.updVis f).boot = s.boot := rfl
@[simp] theorem State.updVis_mem (s : State) (f : Vis → Vis) : (s.updVis f).mem = s.mem := rfl
@[simp] theorem State.updVis_poison (s : State) (f : Vis → Vis) : (s.updVis f).poison = s.poison := rfl
@[simp] theorem State.updVis_teams (s : State) (f : Vis → Vis) : (s.updVis f).teams = s.teams := rfl
@[simp] theorem State.updVis_ops (s : State) (f : Vis → Vis) : (s.updVis f).ops = s.ops := rfl
@[simp] theorem State.updVis_uses (s : State) (f : Vis → Vis) : (s.updVis f).uses = s.uses := rfl
@[simp] theorem State.updVis_eparks (s : State) (f : Vis → Vis) : (s.updVis f).eparks = s.eparks := rfl
@[simp] theorem State.updVis_nextOp (s : State) (f : Vis → Vis) : (s.updVis f).nextOp = s.nextOp := rfl
@[simp] theorem State.updVis_nextUid (s : State) (f : Vis → Vis) : (s.updVis f).nextUid = s.nextUid := rfl
@[simp] theorem State.updVis_nextAge (s : State) (f : Vis → Vis) : (s.updVis f).nextAge = s.nextAge := rfl
@[simp] theorem State.updVis_ctxs (s : State) (f : Vis → Vis) : (s.updVis f).ctxs = s.ctxs := rfl
@[simp] theorem State.updVis_vmqs (s : State) (f : Vis → Vis) : (s.updVis f).vmqs = s.vmqs := rfl
@[simp] theorem State.updVis_grids (s : State) (f : Vis → Vis) : (s.updVis f).grids = s.grids := rfl
@[simp] theorem State.updVis_parts (s : State) (f : Vis → Vis) : (s.updVis f).parts = s.parts := rfl
@[simp] theorem State.updVis_bars (s : State) (f : Vis → Vis) : (s.updVis f).bars = s.bars := rfl
@[simp] theorem State.updVis_caches (s : State) (f : Vis → Vis) : (s.updVis f).caches = s.caches := rfl
@[simp] theorem State.updVis_coh (s : State) (f : Vis → Vis) : (s.updVis f).coh = s.coh := rfl
@[simp] theorem State.updVis_tiles (s : State) (f : Vis → Vis) : (s.updVis f).tiles = s.tiles := rfl
@[simp] theorem State.updVis_mat (s : State) (f : Vis → Vis) : (s.updVis f).mat = s.mat := rfl
@[simp] theorem State.updVis_eng (s : State) (f : Vis → Vis) : (s.updVis f).eng = s.eng := rfl
@[simp] theorem State.updVis_fill (s : State) (f : Vis → Vis) : (s.updVis f).fill = s.fill := rfl
@[simp] theorem State.updVis_mig (s : State) (f : Vis → Vis) : (s.updVis f).mig = s.mig := rfl
@[simp] theorem State.updVis_mgmt (s : State) (f : Vis → Vis) : (s.updVis f).mgmt = s.mgmt := rfl
@[simp] theorem State.updVis_saved (s : State) (f : Vis → Vis) : (s.updVis f).saved = s.saved := rfl
@[simp] theorem State.updVis_answers (s : State) (f : Vis → Vis) : (s.updVis f).answers = s.answers := rfl

/-! ### `State.updCoh` -/

@[simp] theorem State.updCoh_inbox (s : State) (f : Coh → Coh) : (s.updCoh f).inbox = s.inbox := rfl
@[simp] theorem State.updCoh_ghosts (s : State) (f : Coh → Coh) : (s.updCoh f).ghosts = s.ghosts := rfl
@[simp] theorem State.updCoh_cur (s : State) (f : Coh → Coh) : (s.updCoh f).cur = s.cur := rfl
@[simp] theorem State.updCoh_ticks (s : State) (f : Coh → Coh) : (s.updCoh f).ticks = s.ticks := rfl
@[simp] theorem State.updCoh_clk (s : State) (f : Coh → Coh) : (s.updCoh f).clk = s.clk := rfl
@[simp] theorem State.updCoh_boot (s : State) (f : Coh → Coh) : (s.updCoh f).boot = s.boot := rfl
@[simp] theorem State.updCoh_mem (s : State) (f : Coh → Coh) : (s.updCoh f).mem = s.mem := rfl
@[simp] theorem State.updCoh_poison (s : State) (f : Coh → Coh) : (s.updCoh f).poison = s.poison := rfl
@[simp] theorem State.updCoh_teams (s : State) (f : Coh → Coh) : (s.updCoh f).teams = s.teams := rfl
@[simp] theorem State.updCoh_ops (s : State) (f : Coh → Coh) : (s.updCoh f).ops = s.ops := rfl
@[simp] theorem State.updCoh_uses (s : State) (f : Coh → Coh) : (s.updCoh f).uses = s.uses := rfl
@[simp] theorem State.updCoh_eparks (s : State) (f : Coh → Coh) : (s.updCoh f).eparks = s.eparks := rfl
@[simp] theorem State.updCoh_nextOp (s : State) (f : Coh → Coh) : (s.updCoh f).nextOp = s.nextOp := rfl
@[simp] theorem State.updCoh_nextUid (s : State) (f : Coh → Coh) : (s.updCoh f).nextUid = s.nextUid := rfl
@[simp] theorem State.updCoh_nextAge (s : State) (f : Coh → Coh) : (s.updCoh f).nextAge = s.nextAge := rfl
@[simp] theorem State.updCoh_ctxs (s : State) (f : Coh → Coh) : (s.updCoh f).ctxs = s.ctxs := rfl
@[simp] theorem State.updCoh_vmqs (s : State) (f : Coh → Coh) : (s.updCoh f).vmqs = s.vmqs := rfl
@[simp] theorem State.updCoh_grids (s : State) (f : Coh → Coh) : (s.updCoh f).grids = s.grids := rfl
@[simp] theorem State.updCoh_parts (s : State) (f : Coh → Coh) : (s.updCoh f).parts = s.parts := rfl
@[simp] theorem State.updCoh_bars (s : State) (f : Coh → Coh) : (s.updCoh f).bars = s.bars := rfl
@[simp] theorem State.updCoh_caches (s : State) (f : Coh → Coh) : (s.updCoh f).caches = s.caches := rfl
@[simp] theorem State.updCoh_tiles (s : State) (f : Coh → Coh) : (s.updCoh f).tiles = s.tiles := rfl
@[simp] theorem State.updCoh_mat (s : State) (f : Coh → Coh) : (s.updCoh f).mat = s.mat := rfl
@[simp] theorem State.updCoh_eng (s : State) (f : Coh → Coh) : (s.updCoh f).eng = s.eng := rfl
@[simp] theorem State.updCoh_fill (s : State) (f : Coh → Coh) : (s.updCoh f).fill = s.fill := rfl
@[simp] theorem State.updCoh_vis (s : State) (f : Coh → Coh) : (s.updCoh f).vis = s.vis := rfl
@[simp] theorem State.updCoh_mig (s : State) (f : Coh → Coh) : (s.updCoh f).mig = s.mig := rfl
@[simp] theorem State.updCoh_mgmt (s : State) (f : Coh → Coh) : (s.updCoh f).mgmt = s.mgmt := rfl
@[simp] theorem State.updCoh_saved (s : State) (f : Coh → Coh) : (s.updCoh f).saved = s.saved := rfl
@[simp] theorem State.updCoh_answers (s : State) (f : Coh → Coh) : (s.updCoh f).answers = s.answers := rfl

/-! ### `State.setBar` -/

@[simp] theorem State.setBar_inbox (s : State) (b : Bar) : (s.setBar b).inbox = s.inbox := rfl
@[simp] theorem State.setBar_ghosts (s : State) (b : Bar) : (s.setBar b).ghosts = s.ghosts := rfl
@[simp] theorem State.setBar_cur (s : State) (b : Bar) : (s.setBar b).cur = s.cur := rfl
@[simp] theorem State.setBar_ticks (s : State) (b : Bar) : (s.setBar b).ticks = s.ticks := rfl
@[simp] theorem State.setBar_clk (s : State) (b : Bar) : (s.setBar b).clk = s.clk := rfl
@[simp] theorem State.setBar_boot (s : State) (b : Bar) : (s.setBar b).boot = s.boot := rfl
@[simp] theorem State.setBar_mem (s : State) (b : Bar) : (s.setBar b).mem = s.mem := rfl
@[simp] theorem State.setBar_poison (s : State) (b : Bar) : (s.setBar b).poison = s.poison := rfl
@[simp] theorem State.setBar_teams (s : State) (b : Bar) : (s.setBar b).teams = s.teams := rfl
@[simp] theorem State.setBar_ops (s : State) (b : Bar) : (s.setBar b).ops = s.ops := rfl
@[simp] theorem State.setBar_uses (s : State) (b : Bar) : (s.setBar b).uses = s.uses := rfl
@[simp] theorem State.setBar_eparks (s : State) (b : Bar) : (s.setBar b).eparks = s.eparks := rfl
@[simp] theorem State.setBar_nextOp (s : State) (b : Bar) : (s.setBar b).nextOp = s.nextOp := rfl
@[simp] theorem State.setBar_nextUid (s : State) (b : Bar) : (s.setBar b).nextUid = s.nextUid := rfl
@[simp] theorem State.setBar_nextAge (s : State) (b : Bar) : (s.setBar b).nextAge = s.nextAge := rfl
@[simp] theorem State.setBar_ctxs (s : State) (b : Bar) : (s.setBar b).ctxs = s.ctxs := rfl
@[simp] theorem State.setBar_vmqs (s : State) (b : Bar) : (s.setBar b).vmqs = s.vmqs := rfl
@[simp] theorem State.setBar_grids (s : State) (b : Bar) : (s.setBar b).grids = s.grids := rfl
@[simp] theorem State.setBar_parts (s : State) (b : Bar) : (s.setBar b).parts = s.parts := rfl
@[simp] theorem State.setBar_caches (s : State) (b : Bar) : (s.setBar b).caches = s.caches := rfl
@[simp] theorem State.setBar_coh (s : State) (b : Bar) : (s.setBar b).coh = s.coh := rfl
@[simp] theorem State.setBar_tiles (s : State) (b : Bar) : (s.setBar b).tiles = s.tiles := rfl
@[simp] theorem State.setBar_mat (s : State) (b : Bar) : (s.setBar b).mat = s.mat := rfl
@[simp] theorem State.setBar_eng (s : State) (b : Bar) : (s.setBar b).eng = s.eng := rfl
@[simp] theorem State.setBar_fill (s : State) (b : Bar) : (s.setBar b).fill = s.fill := rfl
@[simp] theorem State.setBar_vis (s : State) (b : Bar) : (s.setBar b).vis = s.vis := rfl
@[simp] theorem State.setBar_mig (s : State) (b : Bar) : (s.setBar b).mig = s.mig := rfl
@[simp] theorem State.setBar_mgmt (s : State) (b : Bar) : (s.setBar b).mgmt = s.mgmt := rfl
@[simp] theorem State.setBar_saved (s : State) (b : Bar) : (s.setBar b).saved = s.saved := rfl
@[simp] theorem State.setBar_answers (s : State) (b : Bar) : (s.setBar b).answers = s.answers := rfl

/-! ### `State.setTiles` -/

@[simp] theorem State.setTiles_inbox (s : State) (f : Tile → Tile) : (s.setTiles f).inbox = s.inbox := rfl
@[simp] theorem State.setTiles_ghosts (s : State) (f : Tile → Tile) : (s.setTiles f).ghosts = s.ghosts := rfl
@[simp] theorem State.setTiles_cur (s : State) (f : Tile → Tile) : (s.setTiles f).cur = s.cur := rfl
@[simp] theorem State.setTiles_ticks (s : State) (f : Tile → Tile) : (s.setTiles f).ticks = s.ticks := rfl
@[simp] theorem State.setTiles_clk (s : State) (f : Tile → Tile) : (s.setTiles f).clk = s.clk := rfl
@[simp] theorem State.setTiles_boot (s : State) (f : Tile → Tile) : (s.setTiles f).boot = s.boot := rfl
@[simp] theorem State.setTiles_mem (s : State) (f : Tile → Tile) : (s.setTiles f).mem = s.mem := rfl
@[simp] theorem State.setTiles_poison (s : State) (f : Tile → Tile) : (s.setTiles f).poison = s.poison := rfl
@[simp] theorem State.setTiles_teams (s : State) (f : Tile → Tile) : (s.setTiles f).teams = s.teams := rfl
@[simp] theorem State.setTiles_ops (s : State) (f : Tile → Tile) : (s.setTiles f).ops = s.ops := rfl
@[simp] theorem State.setTiles_uses (s : State) (f : Tile → Tile) : (s.setTiles f).uses = s.uses := rfl
@[simp] theorem State.setTiles_eparks (s : State) (f : Tile → Tile) : (s.setTiles f).eparks = s.eparks := rfl
@[simp] theorem State.setTiles_nextOp (s : State) (f : Tile → Tile) : (s.setTiles f).nextOp = s.nextOp := rfl
@[simp] theorem State.setTiles_nextUid (s : State) (f : Tile → Tile) : (s.setTiles f).nextUid = s.nextUid := rfl
@[simp] theorem State.setTiles_nextAge (s : State) (f : Tile → Tile) : (s.setTiles f).nextAge = s.nextAge := rfl
@[simp] theorem State.setTiles_ctxs (s : State) (f : Tile → Tile) : (s.setTiles f).ctxs = s.ctxs := rfl
@[simp] theorem State.setTiles_vmqs (s : State) (f : Tile → Tile) : (s.setTiles f).vmqs = s.vmqs := rfl
@[simp] theorem State.setTiles_grids (s : State) (f : Tile → Tile) : (s.setTiles f).grids = s.grids := rfl
@[simp] theorem State.setTiles_parts (s : State) (f : Tile → Tile) : (s.setTiles f).parts = s.parts := rfl
@[simp] theorem State.setTiles_bars (s : State) (f : Tile → Tile) : (s.setTiles f).bars = s.bars := rfl
@[simp] theorem State.setTiles_caches (s : State) (f : Tile → Tile) : (s.setTiles f).caches = s.caches := rfl
@[simp] theorem State.setTiles_coh (s : State) (f : Tile → Tile) : (s.setTiles f).coh = s.coh := rfl
@[simp] theorem State.setTiles_mat (s : State) (f : Tile → Tile) : (s.setTiles f).mat = s.mat := rfl
@[simp] theorem State.setTiles_eng (s : State) (f : Tile → Tile) : (s.setTiles f).eng = s.eng := rfl
@[simp] theorem State.setTiles_fill (s : State) (f : Tile → Tile) : (s.setTiles f).fill = s.fill := rfl
@[simp] theorem State.setTiles_vis (s : State) (f : Tile → Tile) : (s.setTiles f).vis = s.vis := rfl
@[simp] theorem State.setTiles_mig (s : State) (f : Tile → Tile) : (s.setTiles f).mig = s.mig := rfl
@[simp] theorem State.setTiles_mgmt (s : State) (f : Tile → Tile) : (s.setTiles f).mgmt = s.mgmt := rfl
@[simp] theorem State.setTiles_saved (s : State) (f : Tile → Tile) : (s.setTiles f).saved = s.saved := rfl
@[simp] theorem State.setTiles_answers (s : State) (f : Tile → Tile) : (s.setTiles f).answers = s.answers := rfl

/-! ### `State.putTile` -/

@[simp] theorem State.putTile_inbox (s : State) (x : Tile) : (s.putTile x).inbox = s.inbox := rfl
@[simp] theorem State.putTile_ghosts (s : State) (x : Tile) : (s.putTile x).ghosts = s.ghosts := rfl
@[simp] theorem State.putTile_cur (s : State) (x : Tile) : (s.putTile x).cur = s.cur := rfl
@[simp] theorem State.putTile_ticks (s : State) (x : Tile) : (s.putTile x).ticks = s.ticks := rfl
@[simp] theorem State.putTile_clk (s : State) (x : Tile) : (s.putTile x).clk = s.clk := rfl
@[simp] theorem State.putTile_boot (s : State) (x : Tile) : (s.putTile x).boot = s.boot := rfl
@[simp] theorem State.putTile_mem (s : State) (x : Tile) : (s.putTile x).mem = s.mem := rfl
@[simp] theorem State.putTile_poison (s : State) (x : Tile) : (s.putTile x).poison = s.poison := rfl
@[simp] theorem State.putTile_teams (s : State) (x : Tile) : (s.putTile x).teams = s.teams := rfl
@[simp] theorem State.putTile_ops (s : State) (x : Tile) : (s.putTile x).ops = s.ops := rfl
@[simp] theorem State.putTile_uses (s : State) (x : Tile) : (s.putTile x).uses = s.uses := rfl
@[simp] theorem State.putTile_eparks (s : State) (x : Tile) : (s.putTile x).eparks = s.eparks := rfl
@[simp] theorem State.putTile_nextOp (s : State) (x : Tile) : (s.putTile x).nextOp = s.nextOp := rfl
@[simp] theorem State.putTile_nextUid (s : State) (x : Tile) : (s.putTile x).nextUid = s.nextUid := rfl
@[simp] theorem State.putTile_nextAge (s : State) (x : Tile) : (s.putTile x).nextAge = s.nextAge := rfl
@[simp] theorem State.putTile_ctxs (s : State) (x : Tile) : (s.putTile x).ctxs = s.ctxs := rfl
@[simp] theorem State.putTile_vmqs (s : State) (x : Tile) : (s.putTile x).vmqs = s.vmqs := rfl
@[simp] theorem State.putTile_grids (s : State) (x : Tile) : (s.putTile x).grids = s.grids := rfl
@[simp] theorem State.putTile_parts (s : State) (x : Tile) : (s.putTile x).parts = s.parts := rfl
@[simp] theorem State.putTile_bars (s : State) (x : Tile) : (s.putTile x).bars = s.bars := rfl
@[simp] theorem State.putTile_caches (s : State) (x : Tile) : (s.putTile x).caches = s.caches := rfl
@[simp] theorem State.putTile_coh (s : State) (x : Tile) : (s.putTile x).coh = s.coh := rfl
@[simp] theorem State.putTile_mat (s : State) (x : Tile) : (s.putTile x).mat = s.mat := rfl
@[simp] theorem State.putTile_eng (s : State) (x : Tile) : (s.putTile x).eng = s.eng := rfl
@[simp] theorem State.putTile_fill (s : State) (x : Tile) : (s.putTile x).fill = s.fill := rfl
@[simp] theorem State.putTile_vis (s : State) (x : Tile) : (s.putTile x).vis = s.vis := rfl
@[simp] theorem State.putTile_mig (s : State) (x : Tile) : (s.putTile x).mig = s.mig := rfl
@[simp] theorem State.putTile_mgmt (s : State) (x : Tile) : (s.putTile x).mgmt = s.mgmt := rfl
@[simp] theorem State.putTile_saved (s : State) (x : Tile) : (s.putTile x).saved = s.saved := rfl
@[simp] theorem State.putTile_answers (s : State) (x : Tile) : (s.putTile x).answers = s.answers := rfl

/-! ### `State.send` -/

@[simp] theorem State.send_inbox (s : State) (m : Instr) : (s.send m).inbox = s.inbox := rfl
@[simp] theorem State.send_ghosts (s : State) (m : Instr) : (s.send m).ghosts = s.ghosts := rfl
@[simp] theorem State.send_cur (s : State) (m : Instr) : (s.send m).cur = s.cur := rfl
@[simp] theorem State.send_ticks (s : State) (m : Instr) : (s.send m).ticks = s.ticks := rfl
@[simp] theorem State.send_clk (s : State) (m : Instr) : (s.send m).clk = s.clk := rfl
@[simp] theorem State.send_boot (s : State) (m : Instr) : (s.send m).boot = s.boot := rfl
@[simp] theorem State.send_mem (s : State) (m : Instr) : (s.send m).mem = s.mem := rfl
@[simp] theorem State.send_poison (s : State) (m : Instr) : (s.send m).poison = s.poison := rfl
@[simp] theorem State.send_teams (s : State) (m : Instr) : (s.send m).teams = s.teams := rfl
@[simp] theorem State.send_ops (s : State) (m : Instr) : (s.send m).ops = s.ops := rfl
@[simp] theorem State.send_uses (s : State) (m : Instr) : (s.send m).uses = s.uses := rfl
@[simp] theorem State.send_eparks (s : State) (m : Instr) : (s.send m).eparks = s.eparks := rfl
@[simp] theorem State.send_nextOp (s : State) (m : Instr) : (s.send m).nextOp = s.nextOp := rfl
@[simp] theorem State.send_nextUid (s : State) (m : Instr) : (s.send m).nextUid = s.nextUid := rfl
@[simp] theorem State.send_nextAge (s : State) (m : Instr) : (s.send m).nextAge = s.nextAge := rfl
@[simp] theorem State.send_ctxs (s : State) (m : Instr) : (s.send m).ctxs = s.ctxs := rfl
@[simp] theorem State.send_vmqs (s : State) (m : Instr) : (s.send m).vmqs = s.vmqs := rfl
@[simp] theorem State.send_grids (s : State) (m : Instr) : (s.send m).grids = s.grids := rfl
@[simp] theorem State.send_parts (s : State) (m : Instr) : (s.send m).parts = s.parts := rfl
@[simp] theorem State.send_bars (s : State) (m : Instr) : (s.send m).bars = s.bars := rfl
@[simp] theorem State.send_caches (s : State) (m : Instr) : (s.send m).caches = s.caches := rfl
@[simp] theorem State.send_tiles (s : State) (m : Instr) : (s.send m).tiles = s.tiles := rfl
@[simp] theorem State.send_mat (s : State) (m : Instr) : (s.send m).mat = s.mat := rfl
@[simp] theorem State.send_eng (s : State) (m : Instr) : (s.send m).eng = s.eng := rfl
@[simp] theorem State.send_fill (s : State) (m : Instr) : (s.send m).fill = s.fill := rfl
@[simp] theorem State.send_vis (s : State) (m : Instr) : (s.send m).vis = s.vis := rfl
@[simp] theorem State.send_mig (s : State) (m : Instr) : (s.send m).mig = s.mig := rfl
@[simp] theorem State.send_mgmt (s : State) (m : Instr) : (s.send m).mgmt = s.mgmt := rfl
@[simp] theorem State.send_saved (s : State) (m : Instr) : (s.send m).saved = s.saved := rfl
@[simp] theorem State.send_answers (s : State) (m : Instr) : (s.send m).answers = s.answers := rfl

/-! ### `State.updMig` -/

@[simp] theorem State.updMig_inbox (s : State) (d : Nat) (f : MigRegs → MigRegs) : (s.updMig d f).inbox = s.inbox := rfl
@[simp] theorem State.updMig_ghosts (s : State) (d : Nat) (f : MigRegs → MigRegs) : (s.updMig d f).ghosts = s.ghosts := rfl
@[simp] theorem State.updMig_cur (s : State) (d : Nat) (f : MigRegs → MigRegs) : (s.updMig d f).cur = s.cur := rfl
@[simp] theorem State.updMig_ticks (s : State) (d : Nat) (f : MigRegs → MigRegs) : (s.updMig d f).ticks = s.ticks := rfl
@[simp] theorem State.updMig_clk (s : State) (d : Nat) (f : MigRegs → MigRegs) : (s.updMig d f).clk = s.clk := rfl
@[simp] theorem State.updMig_boot (s : State) (d : Nat) (f : MigRegs → MigRegs) : (s.updMig d f).boot = s.boot := rfl
@[simp] theorem State.updMig_mem (s : State) (d : Nat) (f : MigRegs → MigRegs) : (s.updMig d f).mem = s.mem := rfl
@[simp] theorem State.updMig_poison (s : State) (d : Nat) (f : MigRegs → MigRegs) : (s.updMig d f).poison = s.poison := rfl
@[simp] theorem State.updMig_teams (s : State) (d : Nat) (f : MigRegs → MigRegs) : (s.updMig d f).teams = s.teams := rfl
@[simp] theorem State.updMig_ops (s : State) (d : Nat) (f : MigRegs → MigRegs) : (s.updMig d f).ops = s.ops := rfl
@[simp] theorem State.updMig_uses (s : State) (d : Nat) (f : MigRegs → MigRegs) : (s.updMig d f).uses = s.uses := rfl
@[simp] theorem State.updMig_eparks (s : State) (d : Nat) (f : MigRegs → MigRegs) : (s.updMig d f).eparks = s.eparks := rfl
@[simp] theorem State.updMig_nextOp (s : State) (d : Nat) (f : MigRegs → MigRegs) : (s.updMig d f).nextOp = s.nextOp := rfl
@[simp] theorem State.updMig_nextUid (s : State) (d : Nat) (f : MigRegs → MigRegs) : (s.updMig d f).nextUid = s.nextUid := rfl
@[simp] theorem State.updMig_nextAge (s : State) (d : Nat) (f : MigRegs → MigRegs) : (s.updMig d f).nextAge = s.nextAge := rfl
@[simp] theorem State.updMig_ctxs (s : State) (d : Nat) (f : MigRegs → MigRegs) : (s.updMig d f).ctxs = s.ctxs := rfl
@[simp] theorem State.updMig_vmqs (s : State) (d : Nat) (f : MigRegs → MigRegs) : (s.updMig d f).vmqs = s.vmqs := rfl
@[simp] theorem State.updMig_grids (s : State) (d : Nat) (f : MigRegs → MigRegs) : (s.updMig d f).grids = s.grids := rfl
@[simp] theorem State.updMig_parts (s : State) (d : Nat) (f : MigRegs → MigRegs) : (s.updMig d f).parts = s.parts := rfl
@[simp] theorem State.updMig_bars (s : State) (d : Nat) (f : MigRegs → MigRegs) : (s.updMig d f).bars = s.bars := rfl
@[simp] theorem State.updMig_caches (s : State) (d : Nat) (f : MigRegs → MigRegs) : (s.updMig d f).caches = s.caches := rfl
@[simp] theorem State.updMig_coh (s : State) (d : Nat) (f : MigRegs → MigRegs) : (s.updMig d f).coh = s.coh := rfl
@[simp] theorem State.updMig_tiles (s : State) (d : Nat) (f : MigRegs → MigRegs) : (s.updMig d f).tiles = s.tiles := rfl
@[simp] theorem State.updMig_mat (s : State) (d : Nat) (f : MigRegs → MigRegs) : (s.updMig d f).mat = s.mat := rfl
@[simp] theorem State.updMig_eng (s : State) (d : Nat) (f : MigRegs → MigRegs) : (s.updMig d f).eng = s.eng := rfl
@[simp] theorem State.updMig_fill (s : State) (d : Nat) (f : MigRegs → MigRegs) : (s.updMig d f).fill = s.fill := rfl
@[simp] theorem State.updMig_vis (s : State) (d : Nat) (f : MigRegs → MigRegs) : (s.updMig d f).vis = s.vis := rfl
@[simp] theorem State.updMig_mgmt (s : State) (d : Nat) (f : MigRegs → MigRegs) : (s.updMig d f).mgmt = s.mgmt := rfl
@[simp] theorem State.updMig_saved (s : State) (d : Nat) (f : MigRegs → MigRegs) : (s.updMig d f).saved = s.saved := rfl
@[simp] theorem State.updMig_answers (s : State) (d : Nat) (f : MigRegs → MigRegs) : (s.updMig d f).answers = s.answers := rfl

/-! ### `State.updTask` -/

@[simp] theorem State.updTask_inbox (s : State) (x : Task) (f : Task → Task) : (s.updTask x f).inbox = s.inbox := rfl
@[simp] theorem State.updTask_ghosts (s : State) (x : Task) (f : Task → Task) : (s.updTask x f).ghosts = s.ghosts := rfl
@[simp] theorem State.updTask_cur (s : State) (x : Task) (f : Task → Task) : (s.updTask x f).cur = s.cur := rfl
@[simp] theorem State.updTask_ticks (s : State) (x : Task) (f : Task → Task) : (s.updTask x f).ticks = s.ticks := rfl
@[simp] theorem State.updTask_clk (s : State) (x : Task) (f : Task → Task) : (s.updTask x f).clk = s.clk := rfl
@[simp] theorem State.updTask_boot (s : State) (x : Task) (f : Task → Task) : (s.updTask x f).boot = s.boot := rfl
@[simp] theorem State.updTask_mem (s : State) (x : Task) (f : Task → Task) : (s.updTask x f).mem = s.mem := rfl
@[simp] theorem State.updTask_poison (s : State) (x : Task) (f : Task → Task) : (s.updTask x f).poison = s.poison := rfl
@[simp] theorem State.updTask_teams (s : State) (x : Task) (f : Task → Task) : (s.updTask x f).teams = s.teams := rfl
@[simp] theorem State.updTask_ops (s : State) (x : Task) (f : Task → Task) : (s.updTask x f).ops = s.ops := rfl
@[simp] theorem State.updTask_uses (s : State) (x : Task) (f : Task → Task) : (s.updTask x f).uses = s.uses := rfl
@[simp] theorem State.updTask_eparks (s : State) (x : Task) (f : Task → Task) : (s.updTask x f).eparks = s.eparks := rfl
@[simp] theorem State.updTask_nextOp (s : State) (x : Task) (f : Task → Task) : (s.updTask x f).nextOp = s.nextOp := rfl
@[simp] theorem State.updTask_nextUid (s : State) (x : Task) (f : Task → Task) : (s.updTask x f).nextUid = s.nextUid := rfl
@[simp] theorem State.updTask_nextAge (s : State) (x : Task) (f : Task → Task) : (s.updTask x f).nextAge = s.nextAge := rfl
@[simp] theorem State.updTask_ctxs (s : State) (x : Task) (f : Task → Task) : (s.updTask x f).ctxs = s.ctxs := rfl
@[simp] theorem State.updTask_vmqs (s : State) (x : Task) (f : Task → Task) : (s.updTask x f).vmqs = s.vmqs := rfl
@[simp] theorem State.updTask_grids (s : State) (x : Task) (f : Task → Task) : (s.updTask x f).grids = s.grids := rfl
@[simp] theorem State.updTask_parts (s : State) (x : Task) (f : Task → Task) : (s.updTask x f).parts = s.parts := rfl
@[simp] theorem State.updTask_bars (s : State) (x : Task) (f : Task → Task) : (s.updTask x f).bars = s.bars := rfl
@[simp] theorem State.updTask_caches (s : State) (x : Task) (f : Task → Task) : (s.updTask x f).caches = s.caches := rfl
@[simp] theorem State.updTask_coh (s : State) (x : Task) (f : Task → Task) : (s.updTask x f).coh = s.coh := rfl
@[simp] theorem State.updTask_tiles (s : State) (x : Task) (f : Task → Task) : (s.updTask x f).tiles = s.tiles := rfl
@[simp] theorem State.updTask_eng (s : State) (x : Task) (f : Task → Task) : (s.updTask x f).eng = s.eng := rfl
@[simp] theorem State.updTask_fill (s : State) (x : Task) (f : Task → Task) : (s.updTask x f).fill = s.fill := rfl
@[simp] theorem State.updTask_vis (s : State) (x : Task) (f : Task → Task) : (s.updTask x f).vis = s.vis := rfl
@[simp] theorem State.updTask_mig (s : State) (x : Task) (f : Task → Task) : (s.updTask x f).mig = s.mig := rfl
@[simp] theorem State.updTask_mgmt (s : State) (x : Task) (f : Task → Task) : (s.updTask x f).mgmt = s.mgmt := rfl
@[simp] theorem State.updTask_saved (s : State) (x : Task) (f : Task → Task) : (s.updTask x f).saved = s.saved := rfl
@[simp] theorem State.updTask_answers (s : State) (x : Task) (f : Task → Task) : (s.updTask x f).answers = s.answers := rfl

/-! ### `State.updJob` -/

@[simp] theorem State.updJob_inbox (s : State) (d q : Nat) (f : RasterJob → RasterJob) : (s.updJob d q f).inbox = s.inbox := rfl
@[simp] theorem State.updJob_ghosts (s : State) (d q : Nat) (f : RasterJob → RasterJob) : (s.updJob d q f).ghosts = s.ghosts := rfl
@[simp] theorem State.updJob_cur (s : State) (d q : Nat) (f : RasterJob → RasterJob) : (s.updJob d q f).cur = s.cur := rfl
@[simp] theorem State.updJob_ticks (s : State) (d q : Nat) (f : RasterJob → RasterJob) : (s.updJob d q f).ticks = s.ticks := rfl
@[simp] theorem State.updJob_clk (s : State) (d q : Nat) (f : RasterJob → RasterJob) : (s.updJob d q f).clk = s.clk := rfl
@[simp] theorem State.updJob_boot (s : State) (d q : Nat) (f : RasterJob → RasterJob) : (s.updJob d q f).boot = s.boot := rfl
@[simp] theorem State.updJob_mem (s : State) (d q : Nat) (f : RasterJob → RasterJob) : (s.updJob d q f).mem = s.mem := rfl
@[simp] theorem State.updJob_poison (s : State) (d q : Nat) (f : RasterJob → RasterJob) : (s.updJob d q f).poison = s.poison := rfl
@[simp] theorem State.updJob_teams (s : State) (d q : Nat) (f : RasterJob → RasterJob) : (s.updJob d q f).teams = s.teams := rfl
@[simp] theorem State.updJob_ops (s : State) (d q : Nat) (f : RasterJob → RasterJob) : (s.updJob d q f).ops = s.ops := rfl
@[simp] theorem State.updJob_uses (s : State) (d q : Nat) (f : RasterJob → RasterJob) : (s.updJob d q f).uses = s.uses := rfl
@[simp] theorem State.updJob_eparks (s : State) (d q : Nat) (f : RasterJob → RasterJob) : (s.updJob d q f).eparks = s.eparks := rfl
@[simp] theorem State.updJob_nextOp (s : State) (d q : Nat) (f : RasterJob → RasterJob) : (s.updJob d q f).nextOp = s.nextOp := rfl
@[simp] theorem State.updJob_nextUid (s : State) (d q : Nat) (f : RasterJob → RasterJob) : (s.updJob d q f).nextUid = s.nextUid := rfl
@[simp] theorem State.updJob_nextAge (s : State) (d q : Nat) (f : RasterJob → RasterJob) : (s.updJob d q f).nextAge = s.nextAge := rfl
@[simp] theorem State.updJob_ctxs (s : State) (d q : Nat) (f : RasterJob → RasterJob) : (s.updJob d q f).ctxs = s.ctxs := rfl
@[simp] theorem State.updJob_vmqs (s : State) (d q : Nat) (f : RasterJob → RasterJob) : (s.updJob d q f).vmqs = s.vmqs := rfl
@[simp] theorem State.updJob_grids (s : State) (d q : Nat) (f : RasterJob → RasterJob) : (s.updJob d q f).grids = s.grids := rfl
@[simp] theorem State.updJob_parts (s : State) (d q : Nat) (f : RasterJob → RasterJob) : (s.updJob d q f).parts = s.parts := rfl
@[simp] theorem State.updJob_bars (s : State) (d q : Nat) (f : RasterJob → RasterJob) : (s.updJob d q f).bars = s.bars := rfl
@[simp] theorem State.updJob_caches (s : State) (d q : Nat) (f : RasterJob → RasterJob) : (s.updJob d q f).caches = s.caches := rfl
@[simp] theorem State.updJob_coh (s : State) (d q : Nat) (f : RasterJob → RasterJob) : (s.updJob d q f).coh = s.coh := rfl
@[simp] theorem State.updJob_tiles (s : State) (d q : Nat) (f : RasterJob → RasterJob) : (s.updJob d q f).tiles = s.tiles := rfl
@[simp] theorem State.updJob_mat (s : State) (d q : Nat) (f : RasterJob → RasterJob) : (s.updJob d q f).mat = s.mat := rfl
@[simp] theorem State.updJob_eng (s : State) (d q : Nat) (f : RasterJob → RasterJob) : (s.updJob d q f).eng = s.eng := rfl
@[simp] theorem State.updJob_fill (s : State) (d q : Nat) (f : RasterJob → RasterJob) : (s.updJob d q f).fill = s.fill := rfl
@[simp] theorem State.updJob_mig (s : State) (d q : Nat) (f : RasterJob → RasterJob) : (s.updJob d q f).mig = s.mig := rfl
@[simp] theorem State.updJob_mgmt (s : State) (d q : Nat) (f : RasterJob → RasterJob) : (s.updJob d q f).mgmt = s.mgmt := rfl
@[simp] theorem State.updJob_saved (s : State) (d q : Nat) (f : RasterJob → RasterJob) : (s.updJob d q f).saved = s.saved := rfl
@[simp] theorem State.updJob_answers (s : State) (d q : Nat) (f : RasterJob → RasterJob) : (s.updJob d q f).answers = s.answers := rfl

/-! ### `State.updSeq` -/

@[simp] theorem State.updSeq_inbox (s : State) (h : Nat) (who : Requester) (f : SeqState → SeqState) : (s.updSeq h who f).inbox = s.inbox := rfl
@[simp] theorem State.updSeq_ghosts (s : State) (h : Nat) (who : Requester) (f : SeqState → SeqState) : (s.updSeq h who f).ghosts = s.ghosts := rfl
@[simp] theorem State.updSeq_cur (s : State) (h : Nat) (who : Requester) (f : SeqState → SeqState) : (s.updSeq h who f).cur = s.cur := rfl
@[simp] theorem State.updSeq_ticks (s : State) (h : Nat) (who : Requester) (f : SeqState → SeqState) : (s.updSeq h who f).ticks = s.ticks := rfl
@[simp] theorem State.updSeq_clk (s : State) (h : Nat) (who : Requester) (f : SeqState → SeqState) : (s.updSeq h who f).clk = s.clk := rfl
@[simp] theorem State.updSeq_boot (s : State) (h : Nat) (who : Requester) (f : SeqState → SeqState) : (s.updSeq h who f).boot = s.boot := rfl
@[simp] theorem State.updSeq_mem (s : State) (h : Nat) (who : Requester) (f : SeqState → SeqState) : (s.updSeq h who f).mem = s.mem := rfl
@[simp] theorem State.updSeq_poison (s : State) (h : Nat) (who : Requester) (f : SeqState → SeqState) : (s.updSeq h who f).poison = s.poison := rfl
@[simp] theorem State.updSeq_teams (s : State) (h : Nat) (who : Requester) (f : SeqState → SeqState) : (s.updSeq h who f).teams = s.teams := rfl
@[simp] theorem State.updSeq_ops (s : State) (h : Nat) (who : Requester) (f : SeqState → SeqState) : (s.updSeq h who f).ops = s.ops := rfl
@[simp] theorem State.updSeq_uses (s : State) (h : Nat) (who : Requester) (f : SeqState → SeqState) : (s.updSeq h who f).uses = s.uses := rfl
@[simp] theorem State.updSeq_eparks (s : State) (h : Nat) (who : Requester) (f : SeqState → SeqState) : (s.updSeq h who f).eparks = s.eparks := rfl
@[simp] theorem State.updSeq_nextOp (s : State) (h : Nat) (who : Requester) (f : SeqState → SeqState) : (s.updSeq h who f).nextOp = s.nextOp := rfl
@[simp] theorem State.updSeq_nextUid (s : State) (h : Nat) (who : Requester) (f : SeqState → SeqState) : (s.updSeq h who f).nextUid = s.nextUid := rfl
@[simp] theorem State.updSeq_nextAge (s : State) (h : Nat) (who : Requester) (f : SeqState → SeqState) : (s.updSeq h who f).nextAge = s.nextAge := rfl
@[simp] theorem State.updSeq_ctxs (s : State) (h : Nat) (who : Requester) (f : SeqState → SeqState) : (s.updSeq h who f).ctxs = s.ctxs := rfl
@[simp] theorem State.updSeq_vmqs (s : State) (h : Nat) (who : Requester) (f : SeqState → SeqState) : (s.updSeq h who f).vmqs = s.vmqs := rfl
@[simp] theorem State.updSeq_grids (s : State) (h : Nat) (who : Requester) (f : SeqState → SeqState) : (s.updSeq h who f).grids = s.grids := rfl
@[simp] theorem State.updSeq_parts (s : State) (h : Nat) (who : Requester) (f : SeqState → SeqState) : (s.updSeq h who f).parts = s.parts := rfl
@[simp] theorem State.updSeq_bars (s : State) (h : Nat) (who : Requester) (f : SeqState → SeqState) : (s.updSeq h who f).bars = s.bars := rfl
@[simp] theorem State.updSeq_caches (s : State) (h : Nat) (who : Requester) (f : SeqState → SeqState) : (s.updSeq h who f).caches = s.caches := rfl
@[simp] theorem State.updSeq_tiles (s : State) (h : Nat) (who : Requester) (f : SeqState → SeqState) : (s.updSeq h who f).tiles = s.tiles := rfl
@[simp] theorem State.updSeq_mat (s : State) (h : Nat) (who : Requester) (f : SeqState → SeqState) : (s.updSeq h who f).mat = s.mat := rfl
@[simp] theorem State.updSeq_eng (s : State) (h : Nat) (who : Requester) (f : SeqState → SeqState) : (s.updSeq h who f).eng = s.eng := rfl
@[simp] theorem State.updSeq_fill (s : State) (h : Nat) (who : Requester) (f : SeqState → SeqState) : (s.updSeq h who f).fill = s.fill := rfl
@[simp] theorem State.updSeq_vis (s : State) (h : Nat) (who : Requester) (f : SeqState → SeqState) : (s.updSeq h who f).vis = s.vis := rfl
@[simp] theorem State.updSeq_mig (s : State) (h : Nat) (who : Requester) (f : SeqState → SeqState) : (s.updSeq h who f).mig = s.mig := rfl
@[simp] theorem State.updSeq_mgmt (s : State) (h : Nat) (who : Requester) (f : SeqState → SeqState) : (s.updSeq h who f).mgmt = s.mgmt := rfl
@[simp] theorem State.updSeq_saved (s : State) (h : Nat) (who : Requester) (f : SeqState → SeqState) : (s.updSeq h who f).saved = s.saved := rfl
@[simp] theorem State.updSeq_answers (s : State) (h : Nat) (who : Requester) (f : SeqState → SeqState) : (s.updSeq h who f).answers = s.answers := rfl

/-! ### `State.updGroup` -/

@[simp] theorem State.updGroup_inbox (s : State) (g : Group) (f : Group → Group) : (s.updGroup g f).inbox = s.inbox := rfl
@[simp] theorem State.updGroup_ghosts (s : State) (g : Group) (f : Group → Group) : (s.updGroup g f).ghosts = s.ghosts := rfl
@[simp] theorem State.updGroup_cur (s : State) (g : Group) (f : Group → Group) : (s.updGroup g f).cur = s.cur := rfl
@[simp] theorem State.updGroup_ticks (s : State) (g : Group) (f : Group → Group) : (s.updGroup g f).ticks = s.ticks := rfl
@[simp] theorem State.updGroup_clk (s : State) (g : Group) (f : Group → Group) : (s.updGroup g f).clk = s.clk := rfl
@[simp] theorem State.updGroup_boot (s : State) (g : Group) (f : Group → Group) : (s.updGroup g f).boot = s.boot := rfl
@[simp] theorem State.updGroup_mem (s : State) (g : Group) (f : Group → Group) : (s.updGroup g f).mem = s.mem := rfl
@[simp] theorem State.updGroup_poison (s : State) (g : Group) (f : Group → Group) : (s.updGroup g f).poison = s.poison := rfl
@[simp] theorem State.updGroup_teams (s : State) (g : Group) (f : Group → Group) : (s.updGroup g f).teams = s.teams := rfl
@[simp] theorem State.updGroup_ops (s : State) (g : Group) (f : Group → Group) : (s.updGroup g f).ops = s.ops := rfl
@[simp] theorem State.updGroup_uses (s : State) (g : Group) (f : Group → Group) : (s.updGroup g f).uses = s.uses := rfl
@[simp] theorem State.updGroup_eparks (s : State) (g : Group) (f : Group → Group) : (s.updGroup g f).eparks = s.eparks := rfl
@[simp] theorem State.updGroup_nextOp (s : State) (g : Group) (f : Group → Group) : (s.updGroup g f).nextOp = s.nextOp := rfl
@[simp] theorem State.updGroup_nextUid (s : State) (g : Group) (f : Group → Group) : (s.updGroup g f).nextUid = s.nextUid := rfl
@[simp] theorem State.updGroup_nextAge (s : State) (g : Group) (f : Group → Group) : (s.updGroup g f).nextAge = s.nextAge := rfl
@[simp] theorem State.updGroup_ctxs (s : State) (g : Group) (f : Group → Group) : (s.updGroup g f).ctxs = s.ctxs := rfl
@[simp] theorem State.updGroup_vmqs (s : State) (g : Group) (f : Group → Group) : (s.updGroup g f).vmqs = s.vmqs := rfl
@[simp] theorem State.updGroup_grids (s : State) (g : Group) (f : Group → Group) : (s.updGroup g f).grids = s.grids := rfl
@[simp] theorem State.updGroup_parts (s : State) (g : Group) (f : Group → Group) : (s.updGroup g f).parts = s.parts := rfl
@[simp] theorem State.updGroup_bars (s : State) (g : Group) (f : Group → Group) : (s.updGroup g f).bars = s.bars := rfl
@[simp] theorem State.updGroup_caches (s : State) (g : Group) (f : Group → Group) : (s.updGroup g f).caches = s.caches := rfl
@[simp] theorem State.updGroup_coh (s : State) (g : Group) (f : Group → Group) : (s.updGroup g f).coh = s.coh := rfl
@[simp] theorem State.updGroup_tiles (s : State) (g : Group) (f : Group → Group) : (s.updGroup g f).tiles = s.tiles := rfl
@[simp] theorem State.updGroup_mat (s : State) (g : Group) (f : Group → Group) : (s.updGroup g f).mat = s.mat := rfl
@[simp] theorem State.updGroup_fill (s : State) (g : Group) (f : Group → Group) : (s.updGroup g f).fill = s.fill := rfl
@[simp] theorem State.updGroup_vis (s : State) (g : Group) (f : Group → Group) : (s.updGroup g f).vis = s.vis := rfl
@[simp] theorem State.updGroup_mig (s : State) (g : Group) (f : Group → Group) : (s.updGroup g f).mig = s.mig := rfl
@[simp] theorem State.updGroup_mgmt (s : State) (g : Group) (f : Group → Group) : (s.updGroup g f).mgmt = s.mgmt := rfl
@[simp] theorem State.updGroup_saved (s : State) (g : Group) (f : Group → Group) : (s.updGroup g f).saved = s.saved := rfl
@[simp] theorem State.updGroup_answers (s : State) (g : Group) (f : Group → Group) : (s.updGroup g f).answers = s.answers := rfl

/-! ### `State.updAtt` -/

@[simp] theorem State.updAtt_inbox (s : State) (m : BitVec 2) (f : Attest → Attest) : (s.updAtt m f).inbox = s.inbox := rfl
@[simp] theorem State.updAtt_ghosts (s : State) (m : BitVec 2) (f : Attest → Attest) : (s.updAtt m f).ghosts = s.ghosts := rfl
@[simp] theorem State.updAtt_cur (s : State) (m : BitVec 2) (f : Attest → Attest) : (s.updAtt m f).cur = s.cur := rfl
@[simp] theorem State.updAtt_ticks (s : State) (m : BitVec 2) (f : Attest → Attest) : (s.updAtt m f).ticks = s.ticks := rfl
@[simp] theorem State.updAtt_clk (s : State) (m : BitVec 2) (f : Attest → Attest) : (s.updAtt m f).clk = s.clk := rfl
@[simp] theorem State.updAtt_boot (s : State) (m : BitVec 2) (f : Attest → Attest) : (s.updAtt m f).boot = s.boot := rfl
@[simp] theorem State.updAtt_mem (s : State) (m : BitVec 2) (f : Attest → Attest) : (s.updAtt m f).mem = s.mem := rfl
@[simp] theorem State.updAtt_poison (s : State) (m : BitVec 2) (f : Attest → Attest) : (s.updAtt m f).poison = s.poison := rfl
@[simp] theorem State.updAtt_teams (s : State) (m : BitVec 2) (f : Attest → Attest) : (s.updAtt m f).teams = s.teams := rfl
@[simp] theorem State.updAtt_ops (s : State) (m : BitVec 2) (f : Attest → Attest) : (s.updAtt m f).ops = s.ops := rfl
@[simp] theorem State.updAtt_uses (s : State) (m : BitVec 2) (f : Attest → Attest) : (s.updAtt m f).uses = s.uses := rfl
@[simp] theorem State.updAtt_eparks (s : State) (m : BitVec 2) (f : Attest → Attest) : (s.updAtt m f).eparks = s.eparks := rfl
@[simp] theorem State.updAtt_nextOp (s : State) (m : BitVec 2) (f : Attest → Attest) : (s.updAtt m f).nextOp = s.nextOp := rfl
@[simp] theorem State.updAtt_nextUid (s : State) (m : BitVec 2) (f : Attest → Attest) : (s.updAtt m f).nextUid = s.nextUid := rfl
@[simp] theorem State.updAtt_nextAge (s : State) (m : BitVec 2) (f : Attest → Attest) : (s.updAtt m f).nextAge = s.nextAge := rfl
@[simp] theorem State.updAtt_ctxs (s : State) (m : BitVec 2) (f : Attest → Attest) : (s.updAtt m f).ctxs = s.ctxs := rfl
@[simp] theorem State.updAtt_vmqs (s : State) (m : BitVec 2) (f : Attest → Attest) : (s.updAtt m f).vmqs = s.vmqs := rfl
@[simp] theorem State.updAtt_grids (s : State) (m : BitVec 2) (f : Attest → Attest) : (s.updAtt m f).grids = s.grids := rfl
@[simp] theorem State.updAtt_parts (s : State) (m : BitVec 2) (f : Attest → Attest) : (s.updAtt m f).parts = s.parts := rfl
@[simp] theorem State.updAtt_bars (s : State) (m : BitVec 2) (f : Attest → Attest) : (s.updAtt m f).bars = s.bars := rfl
@[simp] theorem State.updAtt_caches (s : State) (m : BitVec 2) (f : Attest → Attest) : (s.updAtt m f).caches = s.caches := rfl
@[simp] theorem State.updAtt_coh (s : State) (m : BitVec 2) (f : Attest → Attest) : (s.updAtt m f).coh = s.coh := rfl
@[simp] theorem State.updAtt_tiles (s : State) (m : BitVec 2) (f : Attest → Attest) : (s.updAtt m f).tiles = s.tiles := rfl
@[simp] theorem State.updAtt_mat (s : State) (m : BitVec 2) (f : Attest → Attest) : (s.updAtt m f).mat = s.mat := rfl
@[simp] theorem State.updAtt_eng (s : State) (m : BitVec 2) (f : Attest → Attest) : (s.updAtt m f).eng = s.eng := rfl
@[simp] theorem State.updAtt_fill (s : State) (m : BitVec 2) (f : Attest → Attest) : (s.updAtt m f).fill = s.fill := rfl
@[simp] theorem State.updAtt_vis (s : State) (m : BitVec 2) (f : Attest → Attest) : (s.updAtt m f).vis = s.vis := rfl
@[simp] theorem State.updAtt_mig (s : State) (m : BitVec 2) (f : Attest → Attest) : (s.updAtt m f).mig = s.mig := rfl
@[simp] theorem State.updAtt_saved (s : State) (m : BitVec 2) (f : Attest → Attest) : (s.updAtt m f).saved = s.saved := rfl
@[simp] theorem State.updAtt_answers (s : State) (m : BitVec 2) (f : Attest → Attest) : (s.updAtt m f).answers = s.answers := rfl

/-! ### `State.updOwner` -/

@[simp] theorem State.updOwner_inbox (s : State) (f : Owner → Owner) : (s.updOwner f).inbox = s.inbox := rfl
@[simp] theorem State.updOwner_ghosts (s : State) (f : Owner → Owner) : (s.updOwner f).ghosts = s.ghosts := rfl
@[simp] theorem State.updOwner_cur (s : State) (f : Owner → Owner) : (s.updOwner f).cur = s.cur := rfl
@[simp] theorem State.updOwner_ticks (s : State) (f : Owner → Owner) : (s.updOwner f).ticks = s.ticks := rfl
@[simp] theorem State.updOwner_clk (s : State) (f : Owner → Owner) : (s.updOwner f).clk = s.clk := rfl
@[simp] theorem State.updOwner_boot (s : State) (f : Owner → Owner) : (s.updOwner f).boot = s.boot := rfl
@[simp] theorem State.updOwner_mem (s : State) (f : Owner → Owner) : (s.updOwner f).mem = s.mem := rfl
@[simp] theorem State.updOwner_poison (s : State) (f : Owner → Owner) : (s.updOwner f).poison = s.poison := rfl
@[simp] theorem State.updOwner_teams (s : State) (f : Owner → Owner) : (s.updOwner f).teams = s.teams := rfl
@[simp] theorem State.updOwner_ops (s : State) (f : Owner → Owner) : (s.updOwner f).ops = s.ops := rfl
@[simp] theorem State.updOwner_uses (s : State) (f : Owner → Owner) : (s.updOwner f).uses = s.uses := rfl
@[simp] theorem State.updOwner_eparks (s : State) (f : Owner → Owner) : (s.updOwner f).eparks = s.eparks := rfl
@[simp] theorem State.updOwner_nextOp (s : State) (f : Owner → Owner) : (s.updOwner f).nextOp = s.nextOp := rfl
@[simp] theorem State.updOwner_nextUid (s : State) (f : Owner → Owner) : (s.updOwner f).nextUid = s.nextUid := rfl
@[simp] theorem State.updOwner_nextAge (s : State) (f : Owner → Owner) : (s.updOwner f).nextAge = s.nextAge := rfl
@[simp] theorem State.updOwner_ctxs (s : State) (f : Owner → Owner) : (s.updOwner f).ctxs = s.ctxs := rfl
@[simp] theorem State.updOwner_vmqs (s : State) (f : Owner → Owner) : (s.updOwner f).vmqs = s.vmqs := rfl
@[simp] theorem State.updOwner_grids (s : State) (f : Owner → Owner) : (s.updOwner f).grids = s.grids := rfl
@[simp] theorem State.updOwner_parts (s : State) (f : Owner → Owner) : (s.updOwner f).parts = s.parts := rfl
@[simp] theorem State.updOwner_bars (s : State) (f : Owner → Owner) : (s.updOwner f).bars = s.bars := rfl
@[simp] theorem State.updOwner_caches (s : State) (f : Owner → Owner) : (s.updOwner f).caches = s.caches := rfl
@[simp] theorem State.updOwner_coh (s : State) (f : Owner → Owner) : (s.updOwner f).coh = s.coh := rfl
@[simp] theorem State.updOwner_tiles (s : State) (f : Owner → Owner) : (s.updOwner f).tiles = s.tiles := rfl
@[simp] theorem State.updOwner_mat (s : State) (f : Owner → Owner) : (s.updOwner f).mat = s.mat := rfl
@[simp] theorem State.updOwner_eng (s : State) (f : Owner → Owner) : (s.updOwner f).eng = s.eng := rfl
@[simp] theorem State.updOwner_fill (s : State) (f : Owner → Owner) : (s.updOwner f).fill = s.fill := rfl
@[simp] theorem State.updOwner_vis (s : State) (f : Owner → Owner) : (s.updOwner f).vis = s.vis := rfl
@[simp] theorem State.updOwner_mig (s : State) (f : Owner → Owner) : (s.updOwner f).mig = s.mig := rfl
@[simp] theorem State.updOwner_saved (s : State) (f : Owner → Owner) : (s.updOwner f).saved = s.saved := rfl
@[simp] theorem State.updOwner_answers (s : State) (f : Owner → Owner) : (s.updOwner f).answers = s.answers := rfl

/-! ### `Team.advance` -/

@[simp] theorem Team.advance_uid (t : Team) (i : Instr) : (t.advance i).uid = t.uid := rfl
@[simp] theorem Team.advance_ctx (t : Team) (i : Instr) : (t.advance i).ctx = t.ctx := rfl
@[simp] theorem Team.advance_grid (t : Team) (i : Instr) : (t.advance i).grid = t.grid := rfl
@[simp] theorem Team.advance_teamNo (t : Team) (i : Instr) : (t.advance i).teamNo = t.teamNo := rfl
@[simp] theorem Team.advance_ix (t : Team) (i : Instr) : (t.advance i).ix = t.ix := rfl
@[simp] theorem Team.advance_place (t : Team) (i : Instr) : (t.advance i).place = t.place := rfl
@[simp] theorem Team.advance_nlanes (t : Team) (i : Instr) : (t.advance i).nlanes = t.nlanes := rfl
@[simp] theorem Team.advance_nvregs (t : Team) (i : Instr) : (t.advance i).nvregs = t.nvregs := rfl
@[simp] theorem Team.advance_spillD (t : Team) (i : Instr) : (t.advance i).spillD = t.spillD := rfl
@[simp] theorem Team.advance_lanes (t : Team) (i : Instr) : (t.advance i).lanes = t.lanes := rfl
@[simp] theorem Team.advance_s (t : Team) (i : Instr) : (t.advance i).s = t.s := rfl
@[simp] theorem Team.advance_active (t : Team) (i : Instr) : (t.advance i).active = t.active := rfl
@[simp] theorem Team.advance_exited (t : Team) (i : Instr) : (t.advance i).exited = t.exited := rfl
@[simp] theorem Team.advance_stack (t : Team) (i : Instr) : (t.advance i).stack = t.stack := rfl
@[simp] theorem Team.advance_ctl (t : Team) (i : Instr) : (t.advance i).ctl = t.ctl := rfl
@[simp] theorem Team.advance_flags (t : Team) (i : Instr) : (t.advance i).flags = t.flags := rfl
@[simp] theorem Team.advance_scratchLen (t : Team) (i : Instr) : (t.advance i).scratchLen = t.scratchLen := rfl
@[simp] theorem Team.advance_scratch (t : Team) (i : Instr) : (t.advance i).scratch = t.scratch := rfl
@[simp] theorem Team.advance_binds (t : Team) (i : Instr) : (t.advance i).binds = t.binds := rfl
@[simp] theorem Team.advance_cbs (t : Team) (i : Instr) : (t.advance i).cbs = t.cbs := rfl
@[simp] theorem Team.advance_status (t : Team) (i : Instr) : (t.advance i).status = t.status := rfl
@[simp] theorem Team.advance_efaults (t : Team) (i : Instr) : (t.advance i).efaults = t.efaults := rfl
@[simp] theorem Team.advance_age (t : Team) (i : Instr) : (t.advance i).age = t.age := rfl
@[simp] theorem Team.advance_passed (t : Team) (i : Instr) : (t.advance i).passed = t.passed := rfl
@[simp] theorem Team.advance_leave (t : Team) (i : Instr) : (t.advance i).leave = t.leave := rfl
@[simp] theorem Team.advance_noRelaunch (t : Team) (i : Instr) : (t.advance i).noRelaunch = t.noRelaunch := rfl
@[simp] theorem Team.advance_retiring (t : Team) (i : Instr) : (t.advance i).retiring = t.retiring := rfl

/-! ### `Team.goto` -/

@[simp] theorem Team.goto_uid (t : Team) (pc : DWord) : (t.goto pc).uid = t.uid := rfl
@[simp] theorem Team.goto_ctx (t : Team) (pc : DWord) : (t.goto pc).ctx = t.ctx := rfl
@[simp] theorem Team.goto_grid (t : Team) (pc : DWord) : (t.goto pc).grid = t.grid := rfl
@[simp] theorem Team.goto_teamNo (t : Team) (pc : DWord) : (t.goto pc).teamNo = t.teamNo := rfl
@[simp] theorem Team.goto_ix (t : Team) (pc : DWord) : (t.goto pc).ix = t.ix := rfl
@[simp] theorem Team.goto_place (t : Team) (pc : DWord) : (t.goto pc).place = t.place := rfl
@[simp] theorem Team.goto_nlanes (t : Team) (pc : DWord) : (t.goto pc).nlanes = t.nlanes := rfl
@[simp] theorem Team.goto_nvregs (t : Team) (pc : DWord) : (t.goto pc).nvregs = t.nvregs := rfl
@[simp] theorem Team.goto_spillD (t : Team) (pc : DWord) : (t.goto pc).spillD = t.spillD := rfl
@[simp] theorem Team.goto_lanes (t : Team) (pc : DWord) : (t.goto pc).lanes = t.lanes := rfl
@[simp] theorem Team.goto_s (t : Team) (pc : DWord) : (t.goto pc).s = t.s := rfl
@[simp] theorem Team.goto_active (t : Team) (pc : DWord) : (t.goto pc).active = t.active := rfl
@[simp] theorem Team.goto_exited (t : Team) (pc : DWord) : (t.goto pc).exited = t.exited := rfl
@[simp] theorem Team.goto_stack (t : Team) (pc : DWord) : (t.goto pc).stack = t.stack := rfl
@[simp] theorem Team.goto_ctl (t : Team) (pc : DWord) : (t.goto pc).ctl = t.ctl := rfl
@[simp] theorem Team.goto_flags (t : Team) (pc : DWord) : (t.goto pc).flags = t.flags := rfl
@[simp] theorem Team.goto_scratchLen (t : Team) (pc : DWord) : (t.goto pc).scratchLen = t.scratchLen := rfl
@[simp] theorem Team.goto_scratch (t : Team) (pc : DWord) : (t.goto pc).scratch = t.scratch := rfl
@[simp] theorem Team.goto_binds (t : Team) (pc : DWord) : (t.goto pc).binds = t.binds := rfl
@[simp] theorem Team.goto_cbs (t : Team) (pc : DWord) : (t.goto pc).cbs = t.cbs := rfl
@[simp] theorem Team.goto_status (t : Team) (pc : DWord) : (t.goto pc).status = t.status := rfl
@[simp] theorem Team.goto_efaults (t : Team) (pc : DWord) : (t.goto pc).efaults = t.efaults := rfl
@[simp] theorem Team.goto_age (t : Team) (pc : DWord) : (t.goto pc).age = t.age := rfl
@[simp] theorem Team.goto_passed (t : Team) (pc : DWord) : (t.goto pc).passed = t.passed := rfl
@[simp] theorem Team.goto_leave (t : Team) (pc : DWord) : (t.goto pc).leave = t.leave := rfl
@[simp] theorem Team.goto_noRelaunch (t : Team) (pc : DWord) : (t.goto pc).noRelaunch = t.noRelaunch := rfl
@[simp] theorem Team.goto_retiring (t : Team) (pc : DWord) : (t.goto pc).retiring = t.retiring := rfl

/-! ### `Team.setS` -/

@[simp] theorem Team.setS_uid (t : Team) (n : Nat) (w : Word) : (t.setS n w).uid = t.uid := rfl
@[simp] theorem Team.setS_ctx (t : Team) (n : Nat) (w : Word) : (t.setS n w).ctx = t.ctx := rfl
@[simp] theorem Team.setS_grid (t : Team) (n : Nat) (w : Word) : (t.setS n w).grid = t.grid := rfl
@[simp] theorem Team.setS_teamNo (t : Team) (n : Nat) (w : Word) : (t.setS n w).teamNo = t.teamNo := rfl
@[simp] theorem Team.setS_ix (t : Team) (n : Nat) (w : Word) : (t.setS n w).ix = t.ix := rfl
@[simp] theorem Team.setS_place (t : Team) (n : Nat) (w : Word) : (t.setS n w).place = t.place := rfl
@[simp] theorem Team.setS_nlanes (t : Team) (n : Nat) (w : Word) : (t.setS n w).nlanes = t.nlanes := rfl
@[simp] theorem Team.setS_nvregs (t : Team) (n : Nat) (w : Word) : (t.setS n w).nvregs = t.nvregs := rfl
@[simp] theorem Team.setS_spillD (t : Team) (n : Nat) (w : Word) : (t.setS n w).spillD = t.spillD := rfl
@[simp] theorem Team.setS_lanes (t : Team) (n : Nat) (w : Word) : (t.setS n w).lanes = t.lanes := rfl
@[simp] theorem Team.setS_active (t : Team) (n : Nat) (w : Word) : (t.setS n w).active = t.active := rfl
@[simp] theorem Team.setS_exited (t : Team) (n : Nat) (w : Word) : (t.setS n w).exited = t.exited := rfl
@[simp] theorem Team.setS_stack (t : Team) (n : Nat) (w : Word) : (t.setS n w).stack = t.stack := rfl
@[simp] theorem Team.setS_pc (t : Team) (n : Nat) (w : Word) : (t.setS n w).pc = t.pc := rfl
@[simp] theorem Team.setS_clause (t : Team) (n : Nat) (w : Word) : (t.setS n w).clause = t.clause := rfl
@[simp] theorem Team.setS_ctl (t : Team) (n : Nat) (w : Word) : (t.setS n w).ctl = t.ctl := rfl
@[simp] theorem Team.setS_flags (t : Team) (n : Nat) (w : Word) : (t.setS n w).flags = t.flags := rfl
@[simp] theorem Team.setS_scratchLen (t : Team) (n : Nat) (w : Word) : (t.setS n w).scratchLen = t.scratchLen := rfl
@[simp] theorem Team.setS_scratch (t : Team) (n : Nat) (w : Word) : (t.setS n w).scratch = t.scratch := rfl
@[simp] theorem Team.setS_binds (t : Team) (n : Nat) (w : Word) : (t.setS n w).binds = t.binds := rfl
@[simp] theorem Team.setS_cbs (t : Team) (n : Nat) (w : Word) : (t.setS n w).cbs = t.cbs := rfl
@[simp] theorem Team.setS_status (t : Team) (n : Nat) (w : Word) : (t.setS n w).status = t.status := rfl
@[simp] theorem Team.setS_unfin (t : Team) (n : Nat) (w : Word) : (t.setS n w).unfin = t.unfin := rfl
@[simp] theorem Team.setS_since (t : Team) (n : Nat) (w : Word) : (t.setS n w).since = t.since := rfl
@[simp] theorem Team.setS_mark (t : Team) (n : Nat) (w : Word) : (t.setS n w).mark = t.mark := rfl
@[simp] theorem Team.setS_reply (t : Team) (n : Nat) (w : Word) : (t.setS n w).reply = t.reply := rfl
@[simp] theorem Team.setS_efaults (t : Team) (n : Nat) (w : Word) : (t.setS n w).efaults = t.efaults := rfl
@[simp] theorem Team.setS_age (t : Team) (n : Nat) (w : Word) : (t.setS n w).age = t.age := rfl
@[simp] theorem Team.setS_passed (t : Team) (n : Nat) (w : Word) : (t.setS n w).passed = t.passed := rfl
@[simp] theorem Team.setS_leave (t : Team) (n : Nat) (w : Word) : (t.setS n w).leave = t.leave := rfl
@[simp] theorem Team.setS_noRelaunch (t : Team) (n : Nat) (w : Word) : (t.setS n w).noRelaunch = t.noRelaunch := rfl
@[simp] theorem Team.setS_retiring (t : Team) (n : Nat) (w : Word) : (t.setS n w).retiring = t.retiring := rfl

/-! ### `Team.mapLanes` -/

@[simp] theorem Team.mapLanes_uid (t : Team) (f : Nat → Lane → Lane) : (t.mapLanes f).uid = t.uid := rfl
@[simp] theorem Team.mapLanes_ctx (t : Team) (f : Nat → Lane → Lane) : (t.mapLanes f).ctx = t.ctx := rfl
@[simp] theorem Team.mapLanes_grid (t : Team) (f : Nat → Lane → Lane) : (t.mapLanes f).grid = t.grid := rfl
@[simp] theorem Team.mapLanes_teamNo (t : Team) (f : Nat → Lane → Lane) : (t.mapLanes f).teamNo = t.teamNo := rfl
@[simp] theorem Team.mapLanes_ix (t : Team) (f : Nat → Lane → Lane) : (t.mapLanes f).ix = t.ix := rfl
@[simp] theorem Team.mapLanes_place (t : Team) (f : Nat → Lane → Lane) : (t.mapLanes f).place = t.place := rfl
@[simp] theorem Team.mapLanes_nlanes (t : Team) (f : Nat → Lane → Lane) : (t.mapLanes f).nlanes = t.nlanes := rfl
@[simp] theorem Team.mapLanes_nvregs (t : Team) (f : Nat → Lane → Lane) : (t.mapLanes f).nvregs = t.nvregs := rfl
@[simp] theorem Team.mapLanes_spillD (t : Team) (f : Nat → Lane → Lane) : (t.mapLanes f).spillD = t.spillD := rfl
@[simp] theorem Team.mapLanes_s (t : Team) (f : Nat → Lane → Lane) : (t.mapLanes f).s = t.s := rfl
@[simp] theorem Team.mapLanes_active (t : Team) (f : Nat → Lane → Lane) : (t.mapLanes f).active = t.active := rfl
@[simp] theorem Team.mapLanes_exited (t : Team) (f : Nat → Lane → Lane) : (t.mapLanes f).exited = t.exited := rfl
@[simp] theorem Team.mapLanes_stack (t : Team) (f : Nat → Lane → Lane) : (t.mapLanes f).stack = t.stack := rfl
@[simp] theorem Team.mapLanes_pc (t : Team) (f : Nat → Lane → Lane) : (t.mapLanes f).pc = t.pc := rfl
@[simp] theorem Team.mapLanes_clause (t : Team) (f : Nat → Lane → Lane) : (t.mapLanes f).clause = t.clause := rfl
@[simp] theorem Team.mapLanes_ctl (t : Team) (f : Nat → Lane → Lane) : (t.mapLanes f).ctl = t.ctl := rfl
@[simp] theorem Team.mapLanes_flags (t : Team) (f : Nat → Lane → Lane) : (t.mapLanes f).flags = t.flags := rfl
@[simp] theorem Team.mapLanes_scratchLen (t : Team) (f : Nat → Lane → Lane) : (t.mapLanes f).scratchLen = t.scratchLen := rfl
@[simp] theorem Team.mapLanes_scratch (t : Team) (f : Nat → Lane → Lane) : (t.mapLanes f).scratch = t.scratch := rfl
@[simp] theorem Team.mapLanes_binds (t : Team) (f : Nat → Lane → Lane) : (t.mapLanes f).binds = t.binds := rfl
@[simp] theorem Team.mapLanes_cbs (t : Team) (f : Nat → Lane → Lane) : (t.mapLanes f).cbs = t.cbs := rfl
@[simp] theorem Team.mapLanes_status (t : Team) (f : Nat → Lane → Lane) : (t.mapLanes f).status = t.status := rfl
@[simp] theorem Team.mapLanes_unfin (t : Team) (f : Nat → Lane → Lane) : (t.mapLanes f).unfin = t.unfin := rfl
@[simp] theorem Team.mapLanes_since (t : Team) (f : Nat → Lane → Lane) : (t.mapLanes f).since = t.since := rfl
@[simp] theorem Team.mapLanes_mark (t : Team) (f : Nat → Lane → Lane) : (t.mapLanes f).mark = t.mark := rfl
@[simp] theorem Team.mapLanes_reply (t : Team) (f : Nat → Lane → Lane) : (t.mapLanes f).reply = t.reply := rfl
@[simp] theorem Team.mapLanes_efaults (t : Team) (f : Nat → Lane → Lane) : (t.mapLanes f).efaults = t.efaults := rfl
@[simp] theorem Team.mapLanes_age (t : Team) (f : Nat → Lane → Lane) : (t.mapLanes f).age = t.age := rfl
@[simp] theorem Team.mapLanes_passed (t : Team) (f : Nat → Lane → Lane) : (t.mapLanes f).passed = t.passed := rfl
@[simp] theorem Team.mapLanes_leave (t : Team) (f : Nat → Lane → Lane) : (t.mapLanes f).leave = t.leave := rfl
@[simp] theorem Team.mapLanes_noRelaunch (t : Team) (f : Nat → Lane → Lane) : (t.mapLanes f).noRelaunch = t.noRelaunch := rfl
@[simp] theorem Team.mapLanes_retiring (t : Team) (f : Nat → Lane → Lane) : (t.mapLanes f).retiring = t.retiring := rfl

/-! ### `Team.onLanes` -/

@[simp] theorem Team.onLanes_uid (t : Team) (m : Mask) (f : Nat → Lane → Lane) : (t.onLanes m f).uid = t.uid := rfl
@[simp] theorem Team.onLanes_ctx (t : Team) (m : Mask) (f : Nat → Lane → Lane) : (t.onLanes m f).ctx = t.ctx := rfl
@[simp] theorem Team.onLanes_grid (t : Team) (m : Mask) (f : Nat → Lane → Lane) : (t.onLanes m f).grid = t.grid := rfl
@[simp] theorem Team.onLanes_teamNo (t : Team) (m : Mask) (f : Nat → Lane → Lane) : (t.onLanes m f).teamNo = t.teamNo := rfl
@[simp] theorem Team.onLanes_ix (t : Team) (m : Mask) (f : Nat → Lane → Lane) : (t.onLanes m f).ix = t.ix := rfl
@[simp] theorem Team.onLanes_place (t : Team) (m : Mask) (f : Nat → Lane → Lane) : (t.onLanes m f).place = t.place := rfl
@[simp] theorem Team.onLanes_nlanes (t : Team) (m : Mask) (f : Nat → Lane → Lane) : (t.onLanes m f).nlanes = t.nlanes := rfl
@[simp] theorem Team.onLanes_nvregs (t : Team) (m : Mask) (f : Nat → Lane → Lane) : (t.onLanes m f).nvregs = t.nvregs := rfl
@[simp] theorem Team.onLanes_spillD (t : Team) (m : Mask) (f : Nat → Lane → Lane) : (t.onLanes m f).spillD = t.spillD := rfl
@[simp] theorem Team.onLanes_s (t : Team) (m : Mask) (f : Nat → Lane → Lane) : (t.onLanes m f).s = t.s := rfl
@[simp] theorem Team.onLanes_active (t : Team) (m : Mask) (f : Nat → Lane → Lane) : (t.onLanes m f).active = t.active := rfl
@[simp] theorem Team.onLanes_exited (t : Team) (m : Mask) (f : Nat → Lane → Lane) : (t.onLanes m f).exited = t.exited := rfl
@[simp] theorem Team.onLanes_stack (t : Team) (m : Mask) (f : Nat → Lane → Lane) : (t.onLanes m f).stack = t.stack := rfl
@[simp] theorem Team.onLanes_pc (t : Team) (m : Mask) (f : Nat → Lane → Lane) : (t.onLanes m f).pc = t.pc := rfl
@[simp] theorem Team.onLanes_clause (t : Team) (m : Mask) (f : Nat → Lane → Lane) : (t.onLanes m f).clause = t.clause := rfl
@[simp] theorem Team.onLanes_ctl (t : Team) (m : Mask) (f : Nat → Lane → Lane) : (t.onLanes m f).ctl = t.ctl := rfl
@[simp] theorem Team.onLanes_flags (t : Team) (m : Mask) (f : Nat → Lane → Lane) : (t.onLanes m f).flags = t.flags := rfl
@[simp] theorem Team.onLanes_scratchLen (t : Team) (m : Mask) (f : Nat → Lane → Lane) : (t.onLanes m f).scratchLen = t.scratchLen := rfl
@[simp] theorem Team.onLanes_scratch (t : Team) (m : Mask) (f : Nat → Lane → Lane) : (t.onLanes m f).scratch = t.scratch := rfl
@[simp] theorem Team.onLanes_binds (t : Team) (m : Mask) (f : Nat → Lane → Lane) : (t.onLanes m f).binds = t.binds := rfl
@[simp] theorem Team.onLanes_cbs (t : Team) (m : Mask) (f : Nat → Lane → Lane) : (t.onLanes m f).cbs = t.cbs := rfl
@[simp] theorem Team.onLanes_status (t : Team) (m : Mask) (f : Nat → Lane → Lane) : (t.onLanes m f).status = t.status := rfl
@[simp] theorem Team.onLanes_unfin (t : Team) (m : Mask) (f : Nat → Lane → Lane) : (t.onLanes m f).unfin = t.unfin := rfl
@[simp] theorem Team.onLanes_since (t : Team) (m : Mask) (f : Nat → Lane → Lane) : (t.onLanes m f).since = t.since := rfl
@[simp] theorem Team.onLanes_mark (t : Team) (m : Mask) (f : Nat → Lane → Lane) : (t.onLanes m f).mark = t.mark := rfl
@[simp] theorem Team.onLanes_reply (t : Team) (m : Mask) (f : Nat → Lane → Lane) : (t.onLanes m f).reply = t.reply := rfl
@[simp] theorem Team.onLanes_efaults (t : Team) (m : Mask) (f : Nat → Lane → Lane) : (t.onLanes m f).efaults = t.efaults := rfl
@[simp] theorem Team.onLanes_age (t : Team) (m : Mask) (f : Nat → Lane → Lane) : (t.onLanes m f).age = t.age := rfl
@[simp] theorem Team.onLanes_passed (t : Team) (m : Mask) (f : Nat → Lane → Lane) : (t.onLanes m f).passed = t.passed := rfl
@[simp] theorem Team.onLanes_leave (t : Team) (m : Mask) (f : Nat → Lane → Lane) : (t.onLanes m f).leave = t.leave := rfl
@[simp] theorem Team.onLanes_noRelaunch (t : Team) (m : Mask) (f : Nat → Lane → Lane) : (t.onLanes m f).noRelaunch = t.noRelaunch := rfl
@[simp] theorem Team.onLanes_retiring (t : Team) (m : Mask) (f : Nat → Lane → Lane) : (t.onLanes m f).retiring = t.retiring := rfl

/-! ### `Team.withPaths` -/

@[simp] theorem Team.withPaths_uid (t : Team) (c : Paths) : (t.withPaths c).uid = t.uid := rfl
@[simp] theorem Team.withPaths_ctx (t : Team) (c : Paths) : (t.withPaths c).ctx = t.ctx := rfl
@[simp] theorem Team.withPaths_grid (t : Team) (c : Paths) : (t.withPaths c).grid = t.grid := rfl
@[simp] theorem Team.withPaths_teamNo (t : Team) (c : Paths) : (t.withPaths c).teamNo = t.teamNo := rfl
@[simp] theorem Team.withPaths_ix (t : Team) (c : Paths) : (t.withPaths c).ix = t.ix := rfl
@[simp] theorem Team.withPaths_place (t : Team) (c : Paths) : (t.withPaths c).place = t.place := rfl
@[simp] theorem Team.withPaths_nlanes (t : Team) (c : Paths) : (t.withPaths c).nlanes = t.nlanes := rfl
@[simp] theorem Team.withPaths_nvregs (t : Team) (c : Paths) : (t.withPaths c).nvregs = t.nvregs := rfl
@[simp] theorem Team.withPaths_spillD (t : Team) (c : Paths) : (t.withPaths c).spillD = t.spillD := rfl
@[simp] theorem Team.withPaths_lanes (t : Team) (c : Paths) : (t.withPaths c).lanes = t.lanes := rfl
@[simp] theorem Team.withPaths_s (t : Team) (c : Paths) : (t.withPaths c).s = t.s := rfl
@[simp] theorem Team.withPaths_exited (t : Team) (c : Paths) : (t.withPaths c).exited = t.exited := rfl
@[simp] theorem Team.withPaths_ctl (t : Team) (c : Paths) : (t.withPaths c).ctl = t.ctl := rfl
@[simp] theorem Team.withPaths_flags (t : Team) (c : Paths) : (t.withPaths c).flags = t.flags := rfl
@[simp] theorem Team.withPaths_scratchLen (t : Team) (c : Paths) : (t.withPaths c).scratchLen = t.scratchLen := rfl
@[simp] theorem Team.withPaths_scratch (t : Team) (c : Paths) : (t.withPaths c).scratch = t.scratch := rfl
@[simp] theorem Team.withPaths_binds (t : Team) (c : Paths) : (t.withPaths c).binds = t.binds := rfl
@[simp] theorem Team.withPaths_cbs (t : Team) (c : Paths) : (t.withPaths c).cbs = t.cbs := rfl
@[simp] theorem Team.withPaths_efaults (t : Team) (c : Paths) : (t.withPaths c).efaults = t.efaults := rfl
@[simp] theorem Team.withPaths_age (t : Team) (c : Paths) : (t.withPaths c).age = t.age := rfl
@[simp] theorem Team.withPaths_passed (t : Team) (c : Paths) : (t.withPaths c).passed = t.passed := rfl
@[simp] theorem Team.withPaths_leave (t : Team) (c : Paths) : (t.withPaths c).leave = t.leave := rfl
@[simp] theorem Team.withPaths_noRelaunch (t : Team) (c : Paths) : (t.withPaths c).noRelaunch = t.noRelaunch := rfl

/-! ### `Team.loadFinfo` -/

@[simp] theorem Team.loadFinfo_uid (t : Team) (r : FaultRec) : (t.loadFinfo r).uid = t.uid := rfl
@[simp] theorem Team.loadFinfo_ctx (t : Team) (r : FaultRec) : (t.loadFinfo r).ctx = t.ctx := rfl
@[simp] theorem Team.loadFinfo_grid (t : Team) (r : FaultRec) : (t.loadFinfo r).grid = t.grid := rfl
@[simp] theorem Team.loadFinfo_teamNo (t : Team) (r : FaultRec) : (t.loadFinfo r).teamNo = t.teamNo := rfl
@[simp] theorem Team.loadFinfo_ix (t : Team) (r : FaultRec) : (t.loadFinfo r).ix = t.ix := rfl
@[simp] theorem Team.loadFinfo_place (t : Team) (r : FaultRec) : (t.loadFinfo r).place = t.place := rfl
@[simp] theorem Team.loadFinfo_nlanes (t : Team) (r : FaultRec) : (t.loadFinfo r).nlanes = t.nlanes := rfl
@[simp] theorem Team.loadFinfo_nvregs (t : Team) (r : FaultRec) : (t.loadFinfo r).nvregs = t.nvregs := rfl
@[simp] theorem Team.loadFinfo_spillD (t : Team) (r : FaultRec) : (t.loadFinfo r).spillD = t.spillD := rfl
@[simp] theorem Team.loadFinfo_lanes (t : Team) (r : FaultRec) : (t.loadFinfo r).lanes = t.lanes := rfl
@[simp] theorem Team.loadFinfo_s (t : Team) (r : FaultRec) : (t.loadFinfo r).s = t.s := rfl
@[simp] theorem Team.loadFinfo_active (t : Team) (r : FaultRec) : (t.loadFinfo r).active = t.active := rfl
@[simp] theorem Team.loadFinfo_exited (t : Team) (r : FaultRec) : (t.loadFinfo r).exited = t.exited := rfl
@[simp] theorem Team.loadFinfo_stack (t : Team) (r : FaultRec) : (t.loadFinfo r).stack = t.stack := rfl
@[simp] theorem Team.loadFinfo_pc (t : Team) (r : FaultRec) : (t.loadFinfo r).pc = t.pc := rfl
@[simp] theorem Team.loadFinfo_clause (t : Team) (r : FaultRec) : (t.loadFinfo r).clause = t.clause := rfl
@[simp] theorem Team.loadFinfo_flags (t : Team) (r : FaultRec) : (t.loadFinfo r).flags = t.flags := rfl
@[simp] theorem Team.loadFinfo_scratchLen (t : Team) (r : FaultRec) : (t.loadFinfo r).scratchLen = t.scratchLen := rfl
@[simp] theorem Team.loadFinfo_scratch (t : Team) (r : FaultRec) : (t.loadFinfo r).scratch = t.scratch := rfl
@[simp] theorem Team.loadFinfo_binds (t : Team) (r : FaultRec) : (t.loadFinfo r).binds = t.binds := rfl
@[simp] theorem Team.loadFinfo_cbs (t : Team) (r : FaultRec) : (t.loadFinfo r).cbs = t.cbs := rfl
@[simp] theorem Team.loadFinfo_status (t : Team) (r : FaultRec) : (t.loadFinfo r).status = t.status := rfl
@[simp] theorem Team.loadFinfo_unfin (t : Team) (r : FaultRec) : (t.loadFinfo r).unfin = t.unfin := rfl
@[simp] theorem Team.loadFinfo_since (t : Team) (r : FaultRec) : (t.loadFinfo r).since = t.since := rfl
@[simp] theorem Team.loadFinfo_mark (t : Team) (r : FaultRec) : (t.loadFinfo r).mark = t.mark := rfl
@[simp] theorem Team.loadFinfo_reply (t : Team) (r : FaultRec) : (t.loadFinfo r).reply = t.reply := rfl
@[simp] theorem Team.loadFinfo_efaults (t : Team) (r : FaultRec) : (t.loadFinfo r).efaults = t.efaults := rfl
@[simp] theorem Team.loadFinfo_age (t : Team) (r : FaultRec) : (t.loadFinfo r).age = t.age := rfl
@[simp] theorem Team.loadFinfo_passed (t : Team) (r : FaultRec) : (t.loadFinfo r).passed = t.passed := rfl
@[simp] theorem Team.loadFinfo_leave (t : Team) (r : FaultRec) : (t.loadFinfo r).leave = t.leave := rfl
@[simp] theorem Team.loadFinfo_noRelaunch (t : Team) (r : FaultRec) : (t.loadFinfo r).noRelaunch = t.noRelaunch := rfl
@[simp] theorem Team.loadFinfo_retiring (t : Team) (r : FaultRec) : (t.loadFinfo r).retiring = t.retiring := rfl

/-! ### `Team.orFstat` -/

@[simp] theorem Team.orFstat_uid (t : Team) (f : FFlags) : (t.orFstat f).uid = t.uid := rfl
@[simp] theorem Team.orFstat_ctx (t : Team) (f : FFlags) : (t.orFstat f).ctx = t.ctx := rfl
@[simp] theorem Team.orFstat_grid (t : Team) (f : FFlags) : (t.orFstat f).grid = t.grid := rfl
@[simp] theorem Team.orFstat_teamNo (t : Team) (f : FFlags) : (t.orFstat f).teamNo = t.teamNo := rfl
@[simp] theorem Team.orFstat_ix (t : Team) (f : FFlags) : (t.orFstat f).ix = t.ix := rfl
@[simp] theorem Team.orFstat_place (t : Team) (f : FFlags) : (t.orFstat f).place = t.place := rfl
@[simp] theorem Team.orFstat_nlanes (t : Team) (f : FFlags) : (t.orFstat f).nlanes = t.nlanes := rfl
@[simp] theorem Team.orFstat_nvregs (t : Team) (f : FFlags) : (t.orFstat f).nvregs = t.nvregs := rfl
@[simp] theorem Team.orFstat_spillD (t : Team) (f : FFlags) : (t.orFstat f).spillD = t.spillD := rfl
@[simp] theorem Team.orFstat_lanes (t : Team) (f : FFlags) : (t.orFstat f).lanes = t.lanes := rfl
@[simp] theorem Team.orFstat_s (t : Team) (f : FFlags) : (t.orFstat f).s = t.s := rfl
@[simp] theorem Team.orFstat_active (t : Team) (f : FFlags) : (t.orFstat f).active = t.active := rfl
@[simp] theorem Team.orFstat_exited (t : Team) (f : FFlags) : (t.orFstat f).exited = t.exited := rfl
@[simp] theorem Team.orFstat_stack (t : Team) (f : FFlags) : (t.orFstat f).stack = t.stack := rfl
@[simp] theorem Team.orFstat_pc (t : Team) (f : FFlags) : (t.orFstat f).pc = t.pc := rfl
@[simp] theorem Team.orFstat_clause (t : Team) (f : FFlags) : (t.orFstat f).clause = t.clause := rfl
@[simp] theorem Team.orFstat_flags (t : Team) (f : FFlags) : (t.orFstat f).flags = t.flags := rfl
@[simp] theorem Team.orFstat_scratchLen (t : Team) (f : FFlags) : (t.orFstat f).scratchLen = t.scratchLen := rfl
@[simp] theorem Team.orFstat_scratch (t : Team) (f : FFlags) : (t.orFstat f).scratch = t.scratch := rfl
@[simp] theorem Team.orFstat_binds (t : Team) (f : FFlags) : (t.orFstat f).binds = t.binds := rfl
@[simp] theorem Team.orFstat_cbs (t : Team) (f : FFlags) : (t.orFstat f).cbs = t.cbs := rfl
@[simp] theorem Team.orFstat_status (t : Team) (f : FFlags) : (t.orFstat f).status = t.status := rfl
@[simp] theorem Team.orFstat_unfin (t : Team) (f : FFlags) : (t.orFstat f).unfin = t.unfin := rfl
@[simp] theorem Team.orFstat_since (t : Team) (f : FFlags) : (t.orFstat f).since = t.since := rfl
@[simp] theorem Team.orFstat_mark (t : Team) (f : FFlags) : (t.orFstat f).mark = t.mark := rfl
@[simp] theorem Team.orFstat_reply (t : Team) (f : FFlags) : (t.orFstat f).reply = t.reply := rfl
@[simp] theorem Team.orFstat_efaults (t : Team) (f : FFlags) : (t.orFstat f).efaults = t.efaults := rfl
@[simp] theorem Team.orFstat_age (t : Team) (f : FFlags) : (t.orFstat f).age = t.age := rfl
@[simp] theorem Team.orFstat_passed (t : Team) (f : FFlags) : (t.orFstat f).passed = t.passed := rfl
@[simp] theorem Team.orFstat_leave (t : Team) (f : FFlags) : (t.orFstat f).leave = t.leave := rfl
@[simp] theorem Team.orFstat_noRelaunch (t : Team) (f : FFlags) : (t.orFstat f).noRelaunch = t.noRelaunch := rfl
@[simp] theorem Team.orFstat_retiring (t : Team) (f : FFlags) : (t.orFstat f).retiring = t.retiring := rfl

/-! ### `Team.writePred` -/

@[simp] theorem Team.writePred_uid (t : Team) (m : Mask) (p : PredIx) (f : Nat → Bool) : (t.writePred m p f).uid = t.uid := rfl
@[simp] theorem Team.writePred_ctx (t : Team) (m : Mask) (p : PredIx) (f : Nat → Bool) : (t.writePred m p f).ctx = t.ctx := rfl
@[simp] theorem Team.writePred_grid (t : Team) (m : Mask) (p : PredIx) (f : Nat → Bool) : (t.writePred m p f).grid = t.grid := rfl
@[simp] theorem Team.writePred_teamNo (t : Team) (m : Mask) (p : PredIx) (f : Nat → Bool) : (t.writePred m p f).teamNo = t.teamNo := rfl
@[simp] theorem Team.writePred_ix (t : Team) (m : Mask) (p : PredIx) (f : Nat → Bool) : (t.writePred m p f).ix = t.ix := rfl
@[simp] theorem Team.writePred_place (t : Team) (m : Mask) (p : PredIx) (f : Nat → Bool) : (t.writePred m p f).place = t.place := rfl
@[simp] theorem Team.writePred_nlanes (t : Team) (m : Mask) (p : PredIx) (f : Nat → Bool) : (t.writePred m p f).nlanes = t.nlanes := rfl
@[simp] theorem Team.writePred_nvregs (t : Team) (m : Mask) (p : PredIx) (f : Nat → Bool) : (t.writePred m p f).nvregs = t.nvregs := rfl
@[simp] theorem Team.writePred_spillD (t : Team) (m : Mask) (p : PredIx) (f : Nat → Bool) : (t.writePred m p f).spillD = t.spillD := rfl
@[simp] theorem Team.writePred_s (t : Team) (m : Mask) (p : PredIx) (f : Nat → Bool) : (t.writePred m p f).s = t.s := rfl
@[simp] theorem Team.writePred_active (t : Team) (m : Mask) (p : PredIx) (f : Nat → Bool) : (t.writePred m p f).active = t.active := rfl
@[simp] theorem Team.writePred_exited (t : Team) (m : Mask) (p : PredIx) (f : Nat → Bool) : (t.writePred m p f).exited = t.exited := rfl
@[simp] theorem Team.writePred_stack (t : Team) (m : Mask) (p : PredIx) (f : Nat → Bool) : (t.writePred m p f).stack = t.stack := rfl
@[simp] theorem Team.writePred_pc (t : Team) (m : Mask) (p : PredIx) (f : Nat → Bool) : (t.writePred m p f).pc = t.pc := rfl
@[simp] theorem Team.writePred_clause (t : Team) (m : Mask) (p : PredIx) (f : Nat → Bool) : (t.writePred m p f).clause = t.clause := rfl
@[simp] theorem Team.writePred_ctl (t : Team) (m : Mask) (p : PredIx) (f : Nat → Bool) : (t.writePred m p f).ctl = t.ctl := rfl
@[simp] theorem Team.writePred_flags (t : Team) (m : Mask) (p : PredIx) (f : Nat → Bool) : (t.writePred m p f).flags = t.flags := rfl
@[simp] theorem Team.writePred_scratchLen (t : Team) (m : Mask) (p : PredIx) (f : Nat → Bool) : (t.writePred m p f).scratchLen = t.scratchLen := rfl
@[simp] theorem Team.writePred_scratch (t : Team) (m : Mask) (p : PredIx) (f : Nat → Bool) : (t.writePred m p f).scratch = t.scratch := rfl
@[simp] theorem Team.writePred_binds (t : Team) (m : Mask) (p : PredIx) (f : Nat → Bool) : (t.writePred m p f).binds = t.binds := rfl
@[simp] theorem Team.writePred_cbs (t : Team) (m : Mask) (p : PredIx) (f : Nat → Bool) : (t.writePred m p f).cbs = t.cbs := rfl
@[simp] theorem Team.writePred_status (t : Team) (m : Mask) (p : PredIx) (f : Nat → Bool) : (t.writePred m p f).status = t.status := rfl
@[simp] theorem Team.writePred_unfin (t : Team) (m : Mask) (p : PredIx) (f : Nat → Bool) : (t.writePred m p f).unfin = t.unfin := rfl
@[simp] theorem Team.writePred_since (t : Team) (m : Mask) (p : PredIx) (f : Nat → Bool) : (t.writePred m p f).since = t.since := rfl
@[simp] theorem Team.writePred_mark (t : Team) (m : Mask) (p : PredIx) (f : Nat → Bool) : (t.writePred m p f).mark = t.mark := rfl
@[simp] theorem Team.writePred_reply (t : Team) (m : Mask) (p : PredIx) (f : Nat → Bool) : (t.writePred m p f).reply = t.reply := rfl
@[simp] theorem Team.writePred_efaults (t : Team) (m : Mask) (p : PredIx) (f : Nat → Bool) : (t.writePred m p f).efaults = t.efaults := rfl
@[simp] theorem Team.writePred_age (t : Team) (m : Mask) (p : PredIx) (f : Nat → Bool) : (t.writePred m p f).age = t.age := rfl
@[simp] theorem Team.writePred_passed (t : Team) (m : Mask) (p : PredIx) (f : Nat → Bool) : (t.writePred m p f).passed = t.passed := rfl
@[simp] theorem Team.writePred_leave (t : Team) (m : Mask) (p : PredIx) (f : Nat → Bool) : (t.writePred m p f).leave = t.leave := rfl
@[simp] theorem Team.writePred_noRelaunch (t : Team) (m : Mask) (p : PredIx) (f : Nat → Bool) : (t.writePred m p f).noRelaunch = t.noRelaunch := rfl
@[simp] theorem Team.writePred_retiring (t : Team) (m : Mask) (p : PredIx) (f : Nat → Bool) : (t.writePred m p f).retiring = t.retiring := rfl

/-! ### `Team.startClause` -/

@[simp] theorem Team.startClause_uid (t : Team) (h : Header) : (t.startClause h).uid = t.uid := rfl
@[simp] theorem Team.startClause_ctx (t : Team) (h : Header) : (t.startClause h).ctx = t.ctx := rfl
@[simp] theorem Team.startClause_grid (t : Team) (h : Header) : (t.startClause h).grid = t.grid := rfl
@[simp] theorem Team.startClause_teamNo (t : Team) (h : Header) : (t.startClause h).teamNo = t.teamNo := rfl
@[simp] theorem Team.startClause_ix (t : Team) (h : Header) : (t.startClause h).ix = t.ix := rfl
@[simp] theorem Team.startClause_place (t : Team) (h : Header) : (t.startClause h).place = t.place := rfl
@[simp] theorem Team.startClause_nlanes (t : Team) (h : Header) : (t.startClause h).nlanes = t.nlanes := rfl
@[simp] theorem Team.startClause_nvregs (t : Team) (h : Header) : (t.startClause h).nvregs = t.nvregs := rfl
@[simp] theorem Team.startClause_spillD (t : Team) (h : Header) : (t.startClause h).spillD = t.spillD := rfl
@[simp] theorem Team.startClause_lanes (t : Team) (h : Header) : (t.startClause h).lanes = t.lanes := rfl
@[simp] theorem Team.startClause_s (t : Team) (h : Header) : (t.startClause h).s = t.s := rfl
@[simp] theorem Team.startClause_active (t : Team) (h : Header) : (t.startClause h).active = t.active := rfl
@[simp] theorem Team.startClause_exited (t : Team) (h : Header) : (t.startClause h).exited = t.exited := rfl
@[simp] theorem Team.startClause_stack (t : Team) (h : Header) : (t.startClause h).stack = t.stack := rfl
@[simp] theorem Team.startClause_flags (t : Team) (h : Header) : (t.startClause h).flags = t.flags := rfl
@[simp] theorem Team.startClause_scratchLen (t : Team) (h : Header) : (t.startClause h).scratchLen = t.scratchLen := rfl
@[simp] theorem Team.startClause_scratch (t : Team) (h : Header) : (t.startClause h).scratch = t.scratch := rfl
@[simp] theorem Team.startClause_binds (t : Team) (h : Header) : (t.startClause h).binds = t.binds := rfl
@[simp] theorem Team.startClause_cbs (t : Team) (h : Header) : (t.startClause h).cbs = t.cbs := rfl
@[simp] theorem Team.startClause_efaults (t : Team) (h : Header) : (t.startClause h).efaults = t.efaults := rfl
@[simp] theorem Team.startClause_age (t : Team) (h : Header) : (t.startClause h).age = t.age := rfl
@[simp] theorem Team.startClause_passed (t : Team) (h : Header) : (t.startClause h).passed = t.passed := rfl
@[simp] theorem Team.startClause_leave (t : Team) (h : Header) : (t.startClause h).leave = t.leave := rfl
@[simp] theorem Team.startClause_noRelaunch (t : Team) (h : Header) : (t.startClause h).noRelaunch = t.noRelaunch := rfl
@[simp] theorem Team.startClause_retiring (t : Team) (h : Header) : (t.startClause h).retiring = t.retiring := rfl

/-! ### `Team.setCb` -/

@[simp] theorem Team.setCb_uid (t : Team) (k : Nat) (c : Cb) : (t.setCb k c).uid = t.uid := rfl
@[simp] theorem Team.setCb_ctx (t : Team) (k : Nat) (c : Cb) : (t.setCb k c).ctx = t.ctx := rfl
@[simp] theorem Team.setCb_grid (t : Team) (k : Nat) (c : Cb) : (t.setCb k c).grid = t.grid := rfl
@[simp] theorem Team.setCb_teamNo (t : Team) (k : Nat) (c : Cb) : (t.setCb k c).teamNo = t.teamNo := rfl
@[simp] theorem Team.setCb_ix (t : Team) (k : Nat) (c : Cb) : (t.setCb k c).ix = t.ix := rfl
@[simp] theorem Team.setCb_place (t : Team) (k : Nat) (c : Cb) : (t.setCb k c).place = t.place := rfl
@[simp] theorem Team.setCb_nlanes (t : Team) (k : Nat) (c : Cb) : (t.setCb k c).nlanes = t.nlanes := rfl
@[simp] theorem Team.setCb_nvregs (t : Team) (k : Nat) (c : Cb) : (t.setCb k c).nvregs = t.nvregs := rfl
@[simp] theorem Team.setCb_spillD (t : Team) (k : Nat) (c : Cb) : (t.setCb k c).spillD = t.spillD := rfl
@[simp] theorem Team.setCb_lanes (t : Team) (k : Nat) (c : Cb) : (t.setCb k c).lanes = t.lanes := rfl
@[simp] theorem Team.setCb_s (t : Team) (k : Nat) (c : Cb) : (t.setCb k c).s = t.s := rfl
@[simp] theorem Team.setCb_active (t : Team) (k : Nat) (c : Cb) : (t.setCb k c).active = t.active := rfl
@[simp] theorem Team.setCb_exited (t : Team) (k : Nat) (c : Cb) : (t.setCb k c).exited = t.exited := rfl
@[simp] theorem Team.setCb_stack (t : Team) (k : Nat) (c : Cb) : (t.setCb k c).stack = t.stack := rfl
@[simp] theorem Team.setCb_pc (t : Team) (k : Nat) (c : Cb) : (t.setCb k c).pc = t.pc := rfl
@[simp] theorem Team.setCb_clause (t : Team) (k : Nat) (c : Cb) : (t.setCb k c).clause = t.clause := rfl
@[simp] theorem Team.setCb_ctl (t : Team) (k : Nat) (c : Cb) : (t.setCb k c).ctl = t.ctl := rfl
@[simp] theorem Team.setCb_flags (t : Team) (k : Nat) (c : Cb) : (t.setCb k c).flags = t.flags := rfl
@[simp] theorem Team.setCb_scratchLen (t : Team) (k : Nat) (c : Cb) : (t.setCb k c).scratchLen = t.scratchLen := rfl
@[simp] theorem Team.setCb_scratch (t : Team) (k : Nat) (c : Cb) : (t.setCb k c).scratch = t.scratch := rfl
@[simp] theorem Team.setCb_binds (t : Team) (k : Nat) (c : Cb) : (t.setCb k c).binds = t.binds := rfl
@[simp] theorem Team.setCb_status (t : Team) (k : Nat) (c : Cb) : (t.setCb k c).status = t.status := rfl
@[simp] theorem Team.setCb_unfin (t : Team) (k : Nat) (c : Cb) : (t.setCb k c).unfin = t.unfin := rfl
@[simp] theorem Team.setCb_since (t : Team) (k : Nat) (c : Cb) : (t.setCb k c).since = t.since := rfl
@[simp] theorem Team.setCb_mark (t : Team) (k : Nat) (c : Cb) : (t.setCb k c).mark = t.mark := rfl
@[simp] theorem Team.setCb_reply (t : Team) (k : Nat) (c : Cb) : (t.setCb k c).reply = t.reply := rfl
@[simp] theorem Team.setCb_efaults (t : Team) (k : Nat) (c : Cb) : (t.setCb k c).efaults = t.efaults := rfl
@[simp] theorem Team.setCb_age (t : Team) (k : Nat) (c : Cb) : (t.setCb k c).age = t.age := rfl
@[simp] theorem Team.setCb_passed (t : Team) (k : Nat) (c : Cb) : (t.setCb k c).passed = t.passed := rfl
@[simp] theorem Team.setCb_leave (t : Team) (k : Nat) (c : Cb) : (t.setCb k c).leave = t.leave := rfl
@[simp] theorem Team.setCb_noRelaunch (t : Team) (k : Nat) (c : Cb) : (t.setCb k c).noRelaunch = t.noRelaunch := rfl
@[simp] theorem Team.setCb_retiring (t : Team) (k : Nat) (c : Cb) : (t.setCb k c).retiring = t.retiring := rfl

/-! ### `Team.spent` -/

@[simp] theorem Team.spent_uid (t : Team) : (t.spent).uid = t.uid := rfl
@[simp] theorem Team.spent_ctx (t : Team) : (t.spent).ctx = t.ctx := rfl
@[simp] theorem Team.spent_grid (t : Team) : (t.spent).grid = t.grid := rfl
@[simp] theorem Team.spent_teamNo (t : Team) : (t.spent).teamNo = t.teamNo := rfl
@[simp] theorem Team.spent_ix (t : Team) : (t.spent).ix = t.ix := rfl
@[simp] theorem Team.spent_place (t : Team) : (t.spent).place = t.place := rfl
@[simp] theorem Team.spent_nlanes (t : Team) : (t.spent).nlanes = t.nlanes := rfl
@[simp] theorem Team.spent_nvregs (t : Team) : (t.spent).nvregs = t.nvregs := rfl
@[simp] theorem Team.spent_spillD (t : Team) : (t.spent).spillD = t.spillD := rfl
@[simp] theorem Team.spent_lanes (t : Team) : (t.spent).lanes = t.lanes := rfl
@[simp] theorem Team.spent_s (t : Team) : (t.spent).s = t.s := rfl
@[simp] theorem Team.spent_active (t : Team) : (t.spent).active = t.active := rfl
@[simp] theorem Team.spent_exited (t : Team) : (t.spent).exited = t.exited := rfl
@[simp] theorem Team.spent_stack (t : Team) : (t.spent).stack = t.stack := rfl
@[simp] theorem Team.spent_pc (t : Team) : (t.spent).pc = t.pc := rfl
@[simp] theorem Team.spent_clause (t : Team) : (t.spent).clause = t.clause := rfl
@[simp] theorem Team.spent_ctl (t : Team) : (t.spent).ctl = t.ctl := rfl
@[simp] theorem Team.spent_flags (t : Team) : (t.spent).flags = t.flags := rfl
@[simp] theorem Team.spent_scratchLen (t : Team) : (t.spent).scratchLen = t.scratchLen := rfl
@[simp] theorem Team.spent_scratch (t : Team) : (t.spent).scratch = t.scratch := rfl
@[simp] theorem Team.spent_binds (t : Team) : (t.spent).binds = t.binds := rfl
@[simp] theorem Team.spent_cbs (t : Team) : (t.spent).cbs = t.cbs := rfl
@[simp] theorem Team.spent_status (t : Team) : (t.spent).status = t.status := rfl
@[simp] theorem Team.spent_unfin (t : Team) : (t.spent).unfin = t.unfin := rfl
@[simp] theorem Team.spent_since (t : Team) : (t.spent).since = t.since := rfl
@[simp] theorem Team.spent_mark (t : Team) : (t.spent).mark = t.mark := rfl
@[simp] theorem Team.spent_reply (t : Team) : (t.spent).reply = t.reply := rfl
@[simp] theorem Team.spent_efaults (t : Team) : (t.spent).efaults = t.efaults := rfl
@[simp] theorem Team.spent_age (t : Team) : (t.spent).age = t.age := rfl
@[simp] theorem Team.spent_passed (t : Team) : (t.spent).passed = t.passed := rfl
@[simp] theorem Team.spent_leave (t : Team) : (t.spent).leave = t.leave := rfl
@[simp] theorem Team.spent_retiring (t : Team) : (t.spent).retiring = t.retiring := rfl

/-! ### `Team.restart` -/

@[simp] theorem Team.restart_uid (t : Team) : (t.restart).uid = t.uid := rfl
@[simp] theorem Team.restart_ctx (t : Team) : (t.restart).ctx = t.ctx := rfl
@[simp] theorem Team.restart_grid (t : Team) : (t.restart).grid = t.grid := rfl
@[simp] theorem Team.restart_teamNo (t : Team) : (t.restart).teamNo = t.teamNo := rfl
@[simp] theorem Team.restart_ix (t : Team) : (t.restart).ix = t.ix := rfl
@[simp] theorem Team.restart_place (t : Team) : (t.restart).place = t.place := rfl
@[simp] theorem Team.restart_nlanes (t : Team) : (t.restart).nlanes = t.nlanes := rfl
@[simp] theorem Team.restart_nvregs (t : Team) : (t.restart).nvregs = t.nvregs := rfl
@[simp] theorem Team.restart_spillD (t : Team) : (t.restart).spillD = t.spillD := rfl
@[simp] theorem Team.restart_lanes (t : Team) : (t.restart).lanes = t.lanes := rfl
@[simp] theorem Team.restart_s (t : Team) : (t.restart).s = t.s := rfl
@[simp] theorem Team.restart_active (t : Team) : (t.restart).active = t.active := rfl
@[simp] theorem Team.restart_exited (t : Team) : (t.restart).exited = t.exited := rfl
@[simp] theorem Team.restart_stack (t : Team) : (t.restart).stack = t.stack := rfl
@[simp] theorem Team.restart_scratchLen (t : Team) : (t.restart).scratchLen = t.scratchLen := rfl
@[simp] theorem Team.restart_scratch (t : Team) : (t.restart).scratch = t.scratch := rfl
@[simp] theorem Team.restart_binds (t : Team) : (t.restart).binds = t.binds := rfl
@[simp] theorem Team.restart_cbs (t : Team) : (t.restart).cbs = t.cbs := rfl
@[simp] theorem Team.restart_efaults (t : Team) : (t.restart).efaults = t.efaults := rfl
@[simp] theorem Team.restart_age (t : Team) : (t.restart).age = t.age := rfl
@[simp] theorem Team.restart_passed (t : Team) : (t.restart).passed = t.passed := rfl
@[simp] theorem Team.restart_leave (t : Team) : (t.restart).leave = t.leave := rfl
@[simp] theorem Team.restart_noRelaunch (t : Team) : (t.restart).noRelaunch = t.noRelaunch := rfl
@[simp] theorem Team.restart_retiring (t : Team) : (t.restart).retiring = t.retiring := rfl

/-! ### `Team.enterHandler` -/

@[simp] theorem Team.enterHandler_uid (t : Team) (h : DWord) : (t.enterHandler h).uid = t.uid := rfl
@[simp] theorem Team.enterHandler_ctx (t : Team) (h : DWord) : (t.enterHandler h).ctx = t.ctx := rfl
@[simp] theorem Team.enterHandler_grid (t : Team) (h : DWord) : (t.enterHandler h).grid = t.grid := rfl
@[simp] theorem Team.enterHandler_teamNo (t : Team) (h : DWord) : (t.enterHandler h).teamNo = t.teamNo := rfl
@[simp] theorem Team.enterHandler_ix (t : Team) (h : DWord) : (t.enterHandler h).ix = t.ix := rfl
@[simp] theorem Team.enterHandler_place (t : Team) (h : DWord) : (t.enterHandler h).place = t.place := rfl
@[simp] theorem Team.enterHandler_nlanes (t : Team) (h : DWord) : (t.enterHandler h).nlanes = t.nlanes := rfl
@[simp] theorem Team.enterHandler_nvregs (t : Team) (h : DWord) : (t.enterHandler h).nvregs = t.nvregs := rfl
@[simp] theorem Team.enterHandler_spillD (t : Team) (h : DWord) : (t.enterHandler h).spillD = t.spillD := rfl
@[simp] theorem Team.enterHandler_lanes (t : Team) (h : DWord) : (t.enterHandler h).lanes = t.lanes := rfl
@[simp] theorem Team.enterHandler_s (t : Team) (h : DWord) : (t.enterHandler h).s = t.s := rfl
@[simp] theorem Team.enterHandler_active (t : Team) (h : DWord) : (t.enterHandler h).active = t.active := rfl
@[simp] theorem Team.enterHandler_exited (t : Team) (h : DWord) : (t.enterHandler h).exited = t.exited := rfl
@[simp] theorem Team.enterHandler_stack (t : Team) (h : DWord) : (t.enterHandler h).stack = t.stack := rfl
@[simp] theorem Team.enterHandler_flags (t : Team) (h : DWord) : (t.enterHandler h).flags = t.flags := rfl
@[simp] theorem Team.enterHandler_scratchLen (t : Team) (h : DWord) : (t.enterHandler h).scratchLen = t.scratchLen := rfl
@[simp] theorem Team.enterHandler_scratch (t : Team) (h : DWord) : (t.enterHandler h).scratch = t.scratch := rfl
@[simp] theorem Team.enterHandler_binds (t : Team) (h : DWord) : (t.enterHandler h).binds = t.binds := rfl
@[simp] theorem Team.enterHandler_cbs (t : Team) (h : DWord) : (t.enterHandler h).cbs = t.cbs := rfl
@[simp] theorem Team.enterHandler_status (t : Team) (h : DWord) : (t.enterHandler h).status = t.status := rfl
@[simp] theorem Team.enterHandler_unfin (t : Team) (h : DWord) : (t.enterHandler h).unfin = t.unfin := rfl
@[simp] theorem Team.enterHandler_since (t : Team) (h : DWord) : (t.enterHandler h).since = t.since := rfl
@[simp] theorem Team.enterHandler_mark (t : Team) (h : DWord) : (t.enterHandler h).mark = t.mark := rfl
@[simp] theorem Team.enterHandler_reply (t : Team) (h : DWord) : (t.enterHandler h).reply = t.reply := rfl
@[simp] theorem Team.enterHandler_efaults (t : Team) (h : DWord) : (t.enterHandler h).efaults = t.efaults := rfl
@[simp] theorem Team.enterHandler_age (t : Team) (h : DWord) : (t.enterHandler h).age = t.age := rfl
@[simp] theorem Team.enterHandler_passed (t : Team) (h : DWord) : (t.enterHandler h).passed = t.passed := rfl
@[simp] theorem Team.enterHandler_leave (t : Team) (h : DWord) : (t.enterHandler h).leave = t.leave := rfl
@[simp] theorem Team.enterHandler_noRelaunch (t : Team) (h : DWord) : (t.enterHandler h).noRelaunch = t.noRelaunch := rfl
@[simp] theorem Team.enterHandler_retiring (t : Team) (h : DWord) : (t.enterHandler h).retiring = t.retiring := rfl

/-! ### `Team.leaveHandler` -/

@[simp] theorem Team.leaveHandler_uid (t : Team) : (t.leaveHandler).uid = t.uid := rfl
@[simp] theorem Team.leaveHandler_ctx (t : Team) : (t.leaveHandler).ctx = t.ctx := rfl
@[simp] theorem Team.leaveHandler_grid (t : Team) : (t.leaveHandler).grid = t.grid := rfl
@[simp] theorem Team.leaveHandler_teamNo (t : Team) : (t.leaveHandler).teamNo = t.teamNo := rfl
@[simp] theorem Team.leaveHandler_ix (t : Team) : (t.leaveHandler).ix = t.ix := rfl
@[simp] theorem Team.leaveHandler_place (t : Team) : (t.leaveHandler).place = t.place := rfl
@[simp] theorem Team.leaveHandler_nlanes (t : Team) : (t.leaveHandler).nlanes = t.nlanes := rfl
@[simp] theorem Team.leaveHandler_nvregs (t : Team) : (t.leaveHandler).nvregs = t.nvregs := rfl
@[simp] theorem Team.leaveHandler_spillD (t : Team) : (t.leaveHandler).spillD = t.spillD := rfl
@[simp] theorem Team.leaveHandler_lanes (t : Team) : (t.leaveHandler).lanes = t.lanes := rfl
@[simp] theorem Team.leaveHandler_s (t : Team) : (t.leaveHandler).s = t.s := rfl
@[simp] theorem Team.leaveHandler_active (t : Team) : (t.leaveHandler).active = t.active := rfl
@[simp] theorem Team.leaveHandler_exited (t : Team) : (t.leaveHandler).exited = t.exited := rfl
@[simp] theorem Team.leaveHandler_stack (t : Team) : (t.leaveHandler).stack = t.stack := rfl
@[simp] theorem Team.leaveHandler_flags (t : Team) : (t.leaveHandler).flags = t.flags := rfl
@[simp] theorem Team.leaveHandler_scratchLen (t : Team) : (t.leaveHandler).scratchLen = t.scratchLen := rfl
@[simp] theorem Team.leaveHandler_scratch (t : Team) : (t.leaveHandler).scratch = t.scratch := rfl
@[simp] theorem Team.leaveHandler_binds (t : Team) : (t.leaveHandler).binds = t.binds := rfl
@[simp] theorem Team.leaveHandler_cbs (t : Team) : (t.leaveHandler).cbs = t.cbs := rfl
@[simp] theorem Team.leaveHandler_status (t : Team) : (t.leaveHandler).status = t.status := rfl
@[simp] theorem Team.leaveHandler_unfin (t : Team) : (t.leaveHandler).unfin = t.unfin := rfl
@[simp] theorem Team.leaveHandler_since (t : Team) : (t.leaveHandler).since = t.since := rfl
@[simp] theorem Team.leaveHandler_mark (t : Team) : (t.leaveHandler).mark = t.mark := rfl
@[simp] theorem Team.leaveHandler_reply (t : Team) : (t.leaveHandler).reply = t.reply := rfl
@[simp] theorem Team.leaveHandler_efaults (t : Team) : (t.leaveHandler).efaults = t.efaults := rfl
@[simp] theorem Team.leaveHandler_age (t : Team) : (t.leaveHandler).age = t.age := rfl
@[simp] theorem Team.leaveHandler_passed (t : Team) : (t.leaveHandler).passed = t.passed := rfl
@[simp] theorem Team.leaveHandler_leave (t : Team) : (t.leaveHandler).leave = t.leave := rfl
@[simp] theorem Team.leaveHandler_noRelaunch (t : Team) : (t.leaveHandler).noRelaunch = t.noRelaunch := rfl
@[simp] theorem Team.leaveHandler_retiring (t : Team) : (t.leaveHandler).retiring = t.retiring := rfl

/-! ### Changed fields -/

@[simp] theorem Team.advance_pc (t : Team) (i : Instr) : (t.advance i).pc = t.after i := rfl
@[simp] theorem Team.advance_clause (t : Team) (i : Instr) : (t.advance i).clause = { t.clause with left := t.clause.left - 1 } := rfl
@[simp] theorem Team.advance_unfin (t : Team) (i : Instr) : (t.advance i).unfin = none := rfl
@[simp] theorem Team.advance_since (t : Team) (i : Instr) : (t.advance i).since = none := rfl
@[simp] theorem Team.advance_mark (t : Team) (i : Instr) : (t.advance i).mark = none := rfl
@[simp] theorem Team.advance_reply (t : Team) (i : Instr) : (t.advance i).reply = [] := rfl
@[simp] theorem Team.goto_pc (t : Team) (pc : DWord) : (t.goto pc).pc = pc := rfl
@[simp] theorem Team.goto_clause (t : Team) (pc : DWord) : (t.goto pc).clause = { t.clause with left := 0 } := rfl
@[simp] theorem Team.setS_s (t : Team) (n : Nat) (w : Word) : (t.setS n w).s = t.s.set n w := rfl
@[simp] theorem Team.mapLanes_lanes (t : Team) (f : Nat → Lane → Lane) : (t.mapLanes f).lanes = t.lanes.mapIdx f := rfl
@[simp] theorem Team.withPaths_pc (t : Team) (c : Paths) : (t.withPaths c).pc = c.pc := rfl
@[simp] theorem Team.withPaths_stack (t : Team) (c : Paths) : (t.withPaths c).stack = c.stack := rfl
@[simp] theorem Team.withPaths_active (t : Team) (c : Paths) : (t.withPaths c).active = c.active := rfl
@[simp] theorem Team.restart_pc (t : Team) : t.restart.pc = t.resumePc := rfl
@[simp] theorem Team.restart_status (t : Team) : t.restart.status = .running := rfl
@[simp] theorem Team.enterHandler_pc (t : Team) (h : DWord) : (t.enterHandler h).pc = h := rfl
@[simp] theorem Team.leaveHandler_pc (t : Team) : t.leaveHandler.pc = t.ctl.epc := rfl
@[simp] theorem State.addOp_ops (s : State) (o : Op) : (s.addOp o).ops = s.ops ++ [o] := rfl
@[simp] theorem State.addOp_nextOp (s : State) (o : Op) : (s.addOp o).nextOp = s.nextOp + 1 := rfl
@[simp] theorem State.dropOp_ops (s : State) (k : Nat) : (s.dropOp k).ops = s.ops.filter (·.id != k) := rfl
@[simp] theorem State.writeMem_mem (s : State) (cs : List Host.Cell) : (s.writeMem cs).mem = s.mem.writeCells cs := rfl
@[simp] theorem State.tick_ticks (s : State) : s.tick.ticks = s.ticks + 1 := rfl
@[simp] theorem State.tick_clk (s : State) : s.tick.clk = s.clk + stepCycles s := rfl
@[simp] theorem State.updMgmt_mgmt (s : State) (f : Mgmt → Mgmt) : (s.updMgmt f).mgmt = f s.mgmt := rfl
@[simp] theorem State.updFill_fill (s : State) (f : Fill → Fill) : (s.updFill f).fill = f s.fill := rfl
@[simp] theorem State.updEng_eng (s : State) (f : Eng → Eng) : (s.updEng f).eng = f s.eng := rfl
@[simp] theorem State.updMat_mat (s : State) (f : Mat → Mat) : (s.updMat f).mat = f s.mat := rfl
@[simp] theorem State.updVis_vis (s : State) (f : Vis → Vis) : (s.updVis f).vis = f s.vis := rfl
@[simp] theorem State.updCoh_coh (s : State) (f : Coh → Coh) : (s.updCoh f).coh = f s.coh := rfl

/-! ### Teams in the state -/

/-- After a team is replaced, its uid finds the new one. -/
theorem State.team?_setTeam_self {s : State} {t u : Team} (h : s.team? u.uid = some t) : (s.setTeam u).team? u.uid = some u := by
  simp only [State.team?, State.setTeam] at h ⊢
  generalize s.teams = ts at h
  induction ts with
  | nil => cases h
  | cons x r ih =>
    cases hx : x.uid == u.uid with
    | true => simp [beq_iff_eq.mp hx]
    | false =>
      simp only [List.find?_cons, hx] at h
      simp only [List.map_cons, hx, Bool.false_eq_true, if_false, List.find?_cons]
      exact ih h

/-- Other teams are found as before. -/
theorem State.team?_setTeam_of_ne {s : State} {u : Team} {k : Nat} (hk : k ≠ u.uid) : (s.setTeam u).team? k = s.team? k := by
  simp only [State.team?, State.setTeam]
  induction s.teams with
  | nil => rfl
  | cons x r ih =>
    simp only [List.map_cons, List.find?_cons, ih]
    cases hx : x.uid == u.uid with
    | true =>
      have h1 : (u.uid == k) = false := by simpa using Ne.symm hk
      have h2 : (x.uid == k) = false := by rw [beq_iff_eq.mp hx]; exact h1
      simp [h1, h2]
    | false => simp

theorem State.uid_of_team? {s : State} {k : Nat} {t : Team} (h : s.team? k = some t) : t.uid = k := by
  simpa using List.find?_some h

theorem State.curTeam_uid {s : State} {t : Team} (h : s.curTeam = some t) : t.uid = s.cur := State.uid_of_team? h

/-- The current team after it has been replaced. -/
theorem State.curTeam_setTeam {s : State} {t u : Team} (h : s.curTeam = some t) (hu : u.uid = t.uid) :
    (s.setTeam u).curTeam = some u := by
  have hc : s.cur = u.uid := by rw [hu, State.curTeam_uid h]
  show (s.setTeam u).team? s.cur = some u
  rw [hc]
  exact State.team?_setTeam_self (t := t) (by rw [← hc]; exact h)

/-- What the meaning of an instruction does for the current team. -/
theorem onTeam_of_cur {s : State} {t : Team} {f : Team → Out} (h : s.curTeam = some t) : onTeam s f = f t := by
  simp [onTeam, h]

theorem longOp_of_cur {s : State} {t : Team} {fs : Bool} {f : Team → Out} (h : s.curTeam = some t)
    (hf : t.flagFull fs = false) : longOp s fs f = f t := by
  simp [longOp, onTeam, h, hf]

theorem finish_ok (s : State) (t t' : Team) (i : Instr) : finish s t i (.ok t') = .next (s.setTeam (t'.advance i)) := rfl

theorem finish_error (s : State) (t : Team) (i : Instr) (f : FaultInfo) :
    finish s t i (.error f) = .next (takeFault s t i f) := rfl

/-- The end of an instruction is always a next state. -/
theorem finish_next (s : State) (t : Team) (i : Instr) (r : Except FaultInfo Team) : ∃ s', finish s t i r = .next s' := by
  cases r <;> exact ⟨_, rfl⟩

/-- Taking a fault changes one team: its status and FINFO. -/
theorem takeFault_eq (s : State) (t : Team) (i : Instr) (f : FaultInfo) :
    ∃ r : FaultRec, takeFault s t i f = s.setTeam { (t.loadFinfo r) with status := .stopping r } := ⟨_, rfl⟩

end Sys2Proof.Machine
end

