-- ==== Sys2Proof/Laws/Ops.lean ====
section
/-! SUPPORT. What each shared operation can do, said once: translation and fetch, the end of an instruction, taking a
fault, issuing and completing an operation, performing stores. -/

namespace Sys2Proof.Machine

/-! ### Translation and fetch change only memory with its dirty chunks, and the caches -/

theorem translate_frame {s : State} {c : Ctx} {die core : Nat} {va : DWord} {acc : Access} {x : Xlat} {s' : State}
    (h : translate s c die core va acc = .ok (x, s')) : s' = { s with mem := s'.mem, caches := s'.caches, mig := s'.mig } := by
  simp only [translate] at h
  split at h
  · cases h; rfl
  · split at h
    · cases h
    · injection h with h
      injection h with _ h
      subst h
      rfl

theorem fetchBlock_frame {s : State} {c : Ctx} {t : Team} {pc : DWord} {ws : List Word} {s' : State}
    (h : fetchBlock s c t pc = .block ws s') : s' = { s with mem := s'.mem, caches := s'.caches, mig := s'.mig } := by
  simp only [fetchBlock] at h
  split at h
  · cases h
  · rename_i h1
    split at h <;> cases h
    exact translate_frame h1

theorem fetchBlock_wf {s : State} {c : Ctx} {t : Team} {pc : DWord} {ws : List Word} {s' : State}
    (h : fetchBlock s c t pc = .block ws s') (hw : s.mem.wf = true) : s'.mem.wf = true := by
  simp only [fetchBlock] at h
  split at h
  · cases h
  · rename_i h1
    split at h <;> cases h
    exact translate_wf h1 hw

theorem checkTargets_frame {s : State} {c : Ctx} {t : Team} {pcs : List DWord} {s' : State}
    (h : checkTargets s c t pcs = .ok s') : s' = { s with mem := s'.mem, caches := s'.caches, mig := s'.mig } := by
  induction pcs generalizing s with
  | nil => cases h; rfl
  | cons pc r ih =>
    simp only [checkTargets] at h
    split at h
    · cases h
    · rename_i h1
      split at h
      · have h2 := fetchBlock_frame h1
        have h3 := ih h
        rw [h3, h2]
      · cases h

theorem checkTargets_wf {s : State} {c : Ctx} {t : Team} {pcs : List DWord} {s' : State}
    (h : checkTargets s c t pcs = .ok s') (hw : s.mem.wf = true) : s'.mem.wf = true := by
  induction pcs generalizing s with
  | nil => cases h; exact hw
  | cons pc r ih =>
    simp only [checkTargets] at h
    split at h
    · cases h
    · rename_i h1
      split at h
      · exact ih h (fetchBlock_wf h1 hw)
      · cases h

/-! ### The end of an instruction -/

/-- The meaning of an instruction of the current team: it has one, or the machine stops with `noTeam`. -/
theorem onTeam_cases (s : State) (f : Team → Out) :
    (∃ t, s.curTeam = some t ∧ onTeam s f = f t) ∨ (s.curTeam = none ∧ onTeam s f = .fault .noTeam) := by
  unfold onTeam
  cases h : s.curTeam with
  | some t => exact .inl ⟨t, rfl, rfl⟩
  | none => exact .inr ⟨rfl, rfl⟩

/-- A long-latency instruction waits while its flag is full, else has its meaning (02 R42). -/
theorem longOp_cases (s : State) (fs : Bool) (f : Team → Out) :
    (∃ t, s.curTeam = some t ∧ t.flagFull fs = false ∧ longOp s fs f = f t) ∨
    (∃ t, s.curTeam = some t ∧ t.flagFull fs = true ∧ longOp s fs f = .next (s.setTeam { t with status := .waiting .stall })) ∨
    (s.curTeam = none ∧ longOp s fs f = .fault .noTeam) := by
  unfold longOp onTeam
  cases h : s.curTeam with
  | none => exact .inr (.inr ⟨rfl, rfl⟩)
  | some t =>
    cases hf : t.flagFull fs with
    | false => exact .inl ⟨t, rfl, hf, by simp [hf]⟩
    | true => exact .inr (.inl ⟨t, rfl, hf, by simp [hf, waitHere]⟩)

/-- An instruction that ends with a result replaces its team, one that ends with a fault stops it. -/
theorem finish_cases (s : State) (t : Team) (i : Instr) (r : Except FaultInfo Team) :
    (∃ t', r = .ok t' ∧ finish s t i r = .next (s.setTeam (t'.advance i))) ∨
    (∃ f, r = .error f ∧ finish s t i r = .next (takeFault s t i f)) := by
  cases r with
  | ok t' => exact .inl ⟨t', rfl, rfl⟩
  | error f => exact .inr ⟨f, rfl, rfl⟩

/-- The record of a fault, and the stop of its team: nothing else changes. -/
theorem takeFault_spec (s : State) (t : Team) (i : Instr) (f : FaultInfo) :
    ∃ r : FaultRec, takeFault s t i f = s.setTeam { (t.loadFinfo r) with status := .stopping r } ∧ r.ipc = t.pc ∧
      r.rpc = t.resumePc ∧ r.addr = f.addr ∧ r.finfo2 = f.detail ∧ r.finfo1 = t.ctl.regctr ∧ r.ctx = t.ctx ∧
      r.grid = t.grid ∧ r.team = t.teamNo := ⟨_, rfl, rfl, rfl, rfl, rfl, rfl, rfl, rfl, rfl⟩

@[simp] theorem takeFault_mem (s : State) (t : Team) (i : Instr) (f : FaultInfo) : (takeFault s t i f).mem = s.mem := rfl
@[simp] theorem takeFault_ops (s : State) (t : Team) (i : Instr) (f : FaultInfo) : (takeFault s t i f).ops = s.ops := rfl
@[simp] theorem takeFault_ctxs (s : State) (t : Team) (i : Instr) (f : FaultInfo) : (takeFault s t i f).ctxs = s.ctxs := rfl

/-! ### Outstanding work -/

/-- Issuing an operation adds it and moves the team on. -/
theorem issueOp_spec (s : State) (t : Team) (i : Instr) (fs : Bool) (k : OpKind) :
    issueOp s t i fs k = { s with
      ops := s.ops ++ [newOp s t i fs k], nextOp := s.nextOp + 1
      teams := (s.setTeam ((t.issueFlag fs).advance i)).teams } := rfl

@[simp] theorem issueOp_mem (s : State) (t : Team) (i : Instr) (fs : Bool) (k : OpKind) : (issueOp s t i fs k).mem = s.mem := rfl

/-- Dropping what is kept of teams that have left changes nothing else. -/
theorem State.dropGhosts_frame (s : State) : ∃ g, s.dropGhosts = { s with ghosts := g } := by
  unfold State.dropGhosts
  split
  · exact ⟨_, rfl⟩
  · exact ⟨_, rfl⟩

@[simp] theorem completeOp_mem (s : State) (o : Op) : (completeOp s o).mem = s.mem := by
  obtain ⟨g, h⟩ := State.dropGhosts_frame ((s.dropOp o.id).updTeam o.uid fun t =>
    { (t.dropFlag o.flag) with status := if t.status == .waiting (.remote o.id) then .running else t.status })
  rw [completeOp, h]
  rfl

@[simp] theorem completeOp_ops (s : State) (o : Op) : (completeOp s o).ops = s.ops.filter (·.id != o.id) := by
  obtain ⟨g, h⟩ := State.dropGhosts_frame ((s.dropOp o.id).updTeam o.uid fun t =>
    { (t.dropFlag o.flag) with status := if t.status == .waiting (.remote o.id) then .running else t.status })
  rw [completeOp, h]
  rfl

/-- Performing pending stores changes memory, the queues, the dirty chunks, poison, and the answers to fault records. -/
theorem State.performSel_frame (s : State) (die core : Nat) (sel : Op → Host.Cell → Bool) :
    ∃ a m g p o, s.performSel die core sel = { s with answers := a, mem := m, mig := g, poison := p, ops := o } := by
  unfold State.performSel
  simp only
  split
  · exact ⟨_, _, _, _, _, rfl⟩
  · exact ⟨_, _, _, _, _, rfl⟩

theorem State.performBytes_frame (s : State) (die core last : Nat) (as : List Nat) :
    ∃ a m g p o, s.performBytes die core last as = { s with answers := a, mem := m, mig := g, poison := p, ops := o } := by
  unfold State.performBytes
  simp only
  split
  · rename_i r _
    obtain ⟨a1, m1, g1, p1, o1, h1⟩ := s.performSel_frame die core fun o _ => decide (o.id ≤ r.id)
    rw [h1]
    exact State.performSel_frame _ die core _
  · exact State.performSel_frame _ die core _

/-- Adding the word of a flag that is not full. -/
theorem Team.issueFlag_of_fresh {t : Team} (fs : Bool) (h : t.unfin = none) : t.issueFlag fs = t.addFlag (t.flagOf fs) := by
  simp [Team.issueFlag, h]

/-- A flag counts up at its issue and down at its completion. -/
theorem Team.drop_addFlag {t : Team} {n : Nat} (h : n < t.flags.length) : ((t.addFlag (some n)).dropFlag (some n)) = t := by
  have hf : (t.addFlag (some n)).flag n = t.flag n + 1 := by
    simp [Team.addFlag, Team.flag, List.getElem?_set_self h]
  have hs : t.flags.set n (t.flag n) = t.flags := by
    apply List.ext_getElem?
    intro k
    by_cases hk : n = k
    · subst hk
      simp [Team.flag, List.getElem?_eq_getElem h]
    · simp [List.getElem?_set_ne hk]
  show { (t.addFlag (some n)) with flags := (t.addFlag (some n)).flags.set n ((t.addFlag (some n)).flag n - 1) } = t
  rw [hf]
  simp [Team.addFlag, hs]

end Sys2Proof.Machine
end

