-- ==== Sys2Proof/Laws/Access.lean ====
section
/-! SUPPORT. What the shared operations of an access can change: reading a handle entry, asking the lines of L2 and of their
homes, performing an operation's lines. -/

namespace Sys2Proof.Machine

/-! ### Handle entries (08 R190): memory with its marks and dirty chunks, and the caches -/

theorem readEntry_frame {s : State} {t : Team} {ix jx : BitVec 12} {e : HEnt} {s' : State}
    (h : readEntry s t ix = .ok jx e s') : jx = ix ∧ s' = { s with mem := s'.mem, caches := s'.caches, mig := s'.mig } := by
  simp only [readEntry] at h
  split at h
  · cases h
  · split at h
    · cases h; exact ⟨rfl, rfl⟩
    · split at h
      · cases h
      · rename_i h1
        split at h
        · cases h
        · split at h <;> cases h <;> exact ⟨rfl, by rw [translate_frame h1]⟩

theorem readEntry_wf {s : State} {t : Team} {ix jx : BitVec 12} {e : HEnt} {s' : State}
    (h : readEntry s t ix = .ok jx e s') (hw : s.mem.wf = true) : s'.mem.wf = true := by
  simp only [readEntry] at h
  split at h
  · cases h
  · split at h
    · cases h; exact hw
    · split at h
      · cases h
      · rename_i h1
        have hm := translate_wf h1 hw
        split at h
        · cases h
        · split at h <;> cases h <;> exact hm

/-- An operand that resolves is an entry that its core reads. -/
theorem resolve_reads {s : State} {t : Team} {h : HRef} {any : Bool} {ix : BitVec 12} {e : HEnt} {s' : State}
    (hr : resolve s t h any = .ok ix e s') : readEntry s t ix = .ok ix e s' := by
  cases h <;> simp only [resolve] at hr
  · split at hr
    · rename_i h1
      split at hr <;> cases hr
      rw [← (readEntry_frame h1).1] at h1; exact h1
    · rw [← (readEntry_frame hr).1] at hr; exact hr
  · split at hr
    · cases hr
    · split at hr
      · rename_i h1
        split at hr <;> cases hr
        rw [← (readEntry_frame h1).1] at h1; exact h1
      · rw [← (readEntry_frame hr).1] at hr; exact hr

theorem resolve_frame {s : State} {t : Team} {h : HRef} {any : Bool} {ix : BitVec 12} {e : HEnt} {s' : State}
    (hr : resolve s t h any = .ok ix e s') : s' = { s with mem := s'.mem, caches := s'.caches, mig := s'.mig } :=
  (readEntry_frame (resolve_reads hr)).2

theorem resolve_wf {s : State} {t : Team} {h : HRef} {any : Bool} {ix : BitVec 12} {e : HEnt} {s' : State}
    (hr : resolve s t h any = .ok ix e s') (hw : s.mem.wf = true) : s'.mem.wf = true :=
  readEntry_wf (resolve_reads hr) hw

/-! ### L2 and the homes of lines (08 R207 to R210, 11 R291 to R294): the caches, the tile directory, the line directory with its
messages -/

/-- A state that differs from another at most in how its agents hold lines. -/
def OnlyLines (s s' : State) : Prop := s' = { s with caches := s'.caches, tiles := s'.tiles, coh := s'.coh }

theorem OnlyLines.refl (s : State) : OnlyLines s s := rfl

theorem OnlyLines.trans {s s' s'' : State} (h : OnlyLines s s') (h' : OnlyLines s' s'') : OnlyLines s s'' := by
  simp only [OnlyLines] at *; rw [h', h]

/-- Steps over a list that each change only lines. -/
theorem OnlyLines.foldl {α : Type} {f : State → α → State} (h : ∀ s x, OnlyLines s (f s x)) (xs : List α) (s : State) :
    OnlyLines s (xs.foldl f s) := by
  induction xs generalizing s with
  | nil => exact .refl s
  | cons x rest ih => exact (h s x).trans (ih _)

theorem loseLine_frame (s : State) (x : L2Line) : OnlyLines s (loseLine s x) := by
  simp only [loseLine, OnlyLines]
  repeat' split
  all_goals rfl

theorem State.setL2_frame (s : State) (xs : List L2Line) : OnlyLines s (s.setL2 xs) := by
  simp only [State.setL2]
  split
  · exact rfl
  · exact OnlyLines.trans (.trans (s' := s.setTiles _) rfl (.foldl loseLine_frame _ _)) rfl

theorem askLine_frame (s : State) (u : LineUse) (line : Nat) : OnlyLines s (askLine s u line) := by
  simp only [askLine, OnlyLines]
  repeat' split
  all_goals rfl

theorem sliceTakes_frame (s : State) (die line : Nat) (use : Option LineUse) (xs : List L2Line) :
    OnlyLines s (sliceTakes s die line use xs) := by
  have h := State.setL2_frame s xs
  simp only [sliceTakes]
  have h2 : OnlyLines s (if l2Home (s.setL2 xs) line == some die then (s.setL2 xs).enterPresence [die] line else s.setL2 xs) := by
    split
    · exact h.trans rfl
    · exact h
  cases use with
  | none => exact h2
  | some u => exact h2.trans (askLine_frame _ u line)

theorem sliceAsk_frame (s : State) (die line : Nat) (w : Waiter) (cls : BitVec 2) (stream : Bool) (use : Option LineUse) :
    OnlyLines s (sliceAsk s die line w cls stream use) := by
  simp only [sliceAsk]
  split
  · exact sliceTakes_frame ..
  · exact rfl

theorem l2Request_frame (s : State) (cls : BitVec 2) (stream : Bool) (u : LineUse) (ls : List (Nat × Waiter)) :
    OnlyLines s (l2Request s cls stream u ls) := by
  induction ls generalizing s with
  | nil => exact .refl s
  | cons x rest ih =>
    simp only [l2Request]
    refine OnlyLines.trans ?_ (ih _)
    repeat' split
    all_goals first
      | exact .refl s
      | exact sliceAsk_frame ..
      | exact (sliceAsk_frame ..).trans (sliceAsk_frame ..)

/-- Lines become M; nothing else changes. -/
theorem State.dirtied_frame (s : State) (o : Op) : OnlyLines s (s.dirtied o) :=
  OnlyLines.foldl (fun s l => by simp only [OnlyLines]; repeat' split
                                 all_goals rfl) o.lines s

end Sys2Proof.Machine
end

