-- ==== Sys2Proof/Laws/Arms.lean ====
section
/-! SUPPORT. The arms of `exec` and of `Instr.wf`, one lemma each. -/

namespace Sys2Proof.Machine

theorem exec_nop (s : State) : exec (.nop) s = execNop s := rfl
theorem exec_bra (c : BraCond) (off : Word) (s : State) : exec (.bra c off) s = execBra c off s := rfl
theorem exec_brv (p : PredIx) (neg : Bool) (taken : Word) (join : Word) (s : State) : exec (.brv p neg taken join) s = execBrv p neg taken join s := rfl
theorem exec_brm (pairs : List BrmPair) (join : BitVec 12) (s : State) : exec (.brm pairs join) s = execBrm pairs join s := rfl
theorem exec_join (s : State) : exec (.join) s = execJoin s := rfl
theorem exec_brk (g : Guard) (n : BitVec 8) (s : State) : exec (.brk g n) s = execBrk g n s := rfl
theorem exec_cont (g : Guard) (n : BitVec 8) (s : State) : exec (.cont g n) s = execCont g n s := rfl
theorem exec_call (t : CallTarget) (s : State) : exec (.call t) s = execCall t s := rfl
theorem exec_ret (s : State) : exec (.ret) s = execRet s := rfl
theorem exec_exit (g : Guard) (s : State) : exec (.exit g) s = execExit g s := rfl
theorem exec_reorder (signed : Bool) (k : BitVec 7) (s : State) : exec (.reorder signed k) s = execReorder signed k s := rfl
theorem exec_loop (off : Word) (s : State) : exec (.loop off) s = execLoop off s := rfl
theorem exec_next (p : PredIx) (neg : Bool) (s : State) : exec (.next p neg) s = execNext p neg s := rfl
theorem exec_spin (s : State) : exec (.spin) s = execSpin s := rfl
theorem exec_add (x : Alu) (sat : Bool) (s : State) : exec (.add x sat) s = execAdd x sat s := rfl
theorem exec_sub (x : Alu) (sat : Bool) (s : State) : exec (.sub x sat) s = execSub x sat s := rfl
theorem exec_mul (x : Alu) (s : State) : exec (.mul x) s = execMul x s := rfl
theorem exec_mulhi (x : Alu) (s : State) : exec (.mulhi x) s = execMulhi x s := rfl
theorem exec_mad (x : Alu) (sat : Bool) (s : State) : exec (.mad x sat) s = execMad x sat s := rfl
theorem exec_min (x : Alu) (s : State) : exec (.min x) s = execMin x s := rfl
theorem exec_max (x : Alu) (s : State) : exec (.max x) s = execMax x s := rfl
theorem exec_absn (x : Alu) (neg : Bool) (sat : Bool) (s : State) : exec (.absn x neg sat) s = execAbsn x neg sat s := rfl
theorem exec_and (x : Alu) (inv : Bool) (s : State) : exec (.and x inv) s = execAnd x inv s := rfl
theorem exec_or (x : Alu) (inv : Bool) (s : State) : exec (.or x inv) s = execOr x inv s := rfl
theorem exec_xor (x : Alu) (inv : Bool) (s : State) : exec (.xor x inv) s = execXor x inv s := rfl
theorem exec_shl (x : Alu) (s : State) : exec (.shl x) s = execShl x s := rfl
theorem exec_shr (x : Alu) (s : State) : exec (.shr x) s = execShr x s := rfl
theorem exec_rot (x : Alu) (right : Bool) (s : State) : exec (.rot x right) s = execRot x right s := rfl
theorem exec_bcnt (x : Alu) (op : BcntOp) (s : State) : exec (.bcnt x op) s = execBcnt x op s := rfl
theorem exec_bitf (x : Alu) (op : BitfOp) (s : State) : exec (.bitf x op) s = execBitf x op s := rfl
theorem exec_setp (g : Guard) (ty : IType) (cond : ICond) (comb : Combine) (pd : PredIx) (a : Src) (b : Src) (s : State) : exec (.setp g ty cond comb pd a b) s = execSetp g ty cond comb pd a b s := rfl
theorem exec_sel (x : Alu) (pc : PredIx) (s : State) : exec (.sel x pc) s = execSel x pc s := rfl
theorem exec_plog (g : Guard) (op : PlogOp) (pd : PredIx) (pa : PredIx) (pb : PredIx) (s : State) : exec (.plog g op pd pa pb) s = execPlog g op pd pa pb s := rfl
theorem exec_mov (x : Alu) (s : State) : exec (.mov x) s = execMov x s := rfl
theorem exec_movi (g : Guard) (ty : IType) (d : Dst) (imm : MovImm) (s : State) : exec (.movi g ty d imm) s = execMovi g ty d imm s := rfl
theorem exec_lea (x : Alu) (x32 : Bool) (sh : BitVec 5) (s : State) : exec (.lea x x32 sh) s = execLea x x32 sh s := rfl
theorem exec_div (x : Alu) (rem : Bool) (nz : Bool) (s : State) : exec (.div x rem nz) s = execDiv x rem nz s := rfl
theorem exec_ext (x : Alu) (op : ExtOp) (s : State) : exec (.ext x op) s = execExt x op s := rfl
theorem exec_addc (x : Alu) (ci : Option PredIx) (co : PredIx) (s : State) : exec (.addc x ci co) s = execAddc x ci co s := rfl
theorem exec_subb (x : Alu) (bi : Option PredIx) (bo : PredIx) (s : State) : exec (.subb x bi bo) s = execSubb x bi bo s := rfl
theorem exec_mulw (x : Alu) (s : State) : exec (.mulw x) s = execMulw x s := rfl
theorem exec_csub (x : Alu) (form : CsubForm) (s : State) : exec (.csub x form) s = execCsub x form s := rfl
theorem exec_clamp (x : Alu) (s : State) : exec (.clamp x) s = execClamp x s := rfl
theorem exec_fadd (x : Fpu) (s : State) : exec (.fadd x) s = execFadd x s := rfl
theorem exec_fsub (x : Fpu) (s : State) : exec (.fsub x) s = execFsub x s := rfl
theorem exec_fmul (x : Fpu) (s : State) : exec (.fmul x) s = execFmul x s := rfl
theorem exec_fma (x : Fpu) (s : State) : exec (.fma x) s = execFma x s := rfl
theorem exec_fmin (x : Fpu) (s : State) : exec (.fmin x) s = execFmin x s := rfl
theorem exec_fmax (x : Fpu) (s : State) : exec (.fmax x) s = execFmax x s := rfl
theorem exec_fabsn (x : Fpu) (op : FabsOp) (s : State) : exec (.fabsn x op) s = execFabsn x op s := rfl
theorem exec_fsetp (g : Guard) (ty : FType) (cond : FCond) (comb : Combine) (pd : PredIx) (a : Src) (b : Src) (s : State) : exec (.fsetp g ty cond comb pd a b) s = execFsetp g ty cond comb pd a b s := rfl
theorem exec_frcp (x : Fpu) (s : State) : exec (.frcp x) s = execFrcp x s := rfl
theorem exec_frsq (x : Fpu) (s : State) : exec (.frsq x) s = execFrsq x s := rfl
theorem exec_fsqrt (x : Fpu) (s : State) : exec (.fsqrt x) s = execFsqrt x s := rfl
theorem exec_fexp2 (x : Fpu) (s : State) : exec (.fexp2 x) s = execFexp2 x s := rfl
theorem exec_flog2 (x : Fpu) (s : State) : exec (.flog2 x) s = execFlog2 x s := rfl
theorem exec_fsincos (x : Fpu) (s : State) : exec (.fsincos x) s = execFsincos x s := rfl
theorem exec_fdiv (x : Fpu) (s : State) : exec (.fdiv x) s = execFdiv x s := rfl
theorem exec_fclass (x : Fpu) (s : State) : exec (.fclass x) s = execFclass x s := rfl
theorem exec_cvtif (x : Fpu) (src : IType) (s : State) : exec (.cvtif x src) s = execCvtif x src s := rfl
theorem exec_cvtfi (x : Fpu) (dst : IType) (s : State) : exec (.cvtfi x dst) s = execCvtfi x dst s := rfl
theorem exec_cvtff (x : Fpu) (src : FType) (hi : Bool) (s : State) : exec (.cvtff x src hi) s = execCvtff x src hi s := rfl
theorem exec_frnd (x : Fpu) (s : State) : exec (.frnd x) s = execFrnd x s := rfl
theorem exec_fscal (x : Fpu) (op : FscalOp) (s : State) : exec (.fscal x op) s = execFscal x op s := rfl
theorem exec_dot2 (x : Fpu) (s : State) : exec (.dot2 x) s = execDot2 x s := rfl
theorem exec_qscale (x : Narrow) (s : State) : exec (.qscale x) s = execQscale x s := rfl
theorem exec_quant (x : Narrow) (s : State) : exec (.quant x) s = execQuant x s := rfl
theorem exec_dequant (x : Narrow) (s : State) : exec (.dequant x) s = execDequant x s := rfl
theorem exec_qpack (x : Narrow) (s : State) : exec (.qpack x) s = execQpack x s := rfl
theorem exec_qunpack (x : Narrow) (s : State) : exec (.qunpack x) s = execQunpack x s := rfl
theorem exec_fmtq (x : Narrow) (s : State) : exec (.fmtq x) s = execFmtq x s := rfl
theorem exec_rngNext (g : Guard) (d : Dst) (s : State) : exec (.rngNext g d) s = execRngNext g d s := rfl
theorem exec_rngUnif (g : Guard) (d : Dst) (s : State) : exec (.rngUnif g d) s = execRngUnif g d s := rfl
theorem exec_rngSeed (g : Guard) (a : Src) (s : State) : exec (.rngSeed g a) s = execRngSeed g a s := rfl
theorem exec_shfl (g : Guard) (mode : ShflMode) (wide : Bool) (d : Dst) (a : Src) (b : Src) (rec : Option PredIx) (s : State) : exec (.shfl g mode wide d a b rec) s = execShfl g mode wide d a b rec s := rfl
theorem exec_vote (g : Guard) (d : PDst) (op : VoteOp) (s : State) : exec (.vote g d op) s = execVote g d op s := rfl
theorem exec_ballot (g : Guard) (d : Dst) (p : PredIx) (op : BallotOp) (s : State) : exec (.ballot g d p op) s = execBallot g d p op s := rfl
theorem exec_tred (g : Guard) (op : RedOp) (rs : BitVec 3) (d : Dst) (a : Src) (s : State) : exec (.tred g op rs d a) s = execTred g op rs d a s := rfl
theorem exec_tscan (g : Guard) (op : RedOp) (excl : Bool) (d : Dst) (a : Src) (s : State) : exec (.tscan g op excl d a) s = execTscan g op excl d a s := rfl
theorem exec_bcast (g : Guard) (wide : Bool) (d : Dst) (a : Src) (n : Src) (s : State) : exec (.bcast g wide d a n) s = execBcast g wide d a n s := rfl
theorem exec_ld (x : MemAcc) (sx : Bool) (d : Dst) (s : State) : exec (.ld x sx d) s = execLd x sx d s := rfl
theorem exec_st (x : MemAcc) (c : Src) (s : State) : exec (.st x c) s = execSt x c s := rfl
theorem exec_ldro (x : MemAcc) (sx : Bool) (d : Dst) (s : State) : exec (.ldro x sx d) s = execLdro x sx d s := rfl
theorem exec_lds (x : MemAcc) (sx : Bool) (d : Dst) (s : State) : exec (.lds x sx d) s = execLds x sx d s := rfl
theorem exec_sts (x : MemAcc) (c : Src) (s : State) : exec (.sts x c) s = execSts x c s := rfl
theorem exec_samp (g : Guard) (fs : Bool) (d : Dst) (u : Src) (v : Src) (q : Src) (h : HRef) (s : State) : exec (.samp g fs d u v q h) s = execSamp g fs d u v q h s := rfl
theorem exec_pf (x : MemAcc) (level : PfLevel) (s : State) : exec (.pf x level) s = execPf x level s := rfl
theorem exec_hmap (fs : Bool) (d : Dst) (m : BitVec 6) (r : MemRef) (s : State) : exec (.hmap fs d m r) s = execHmap fs d m r s := rfl
theorem exec_hflush (fs : Bool) (op : FlushOp) (h : HRef) (s : State) : exec (.hflush fs op h) s = execHflush fs op h s := rfl
theorem exec_hquery (g : Guard) (op : QueryOp) (d : Dst) (h : HRef) (s : State) : exec (.hquery g op d h) s = execHquery g op d h s := rfl
theorem exec_atom (x : AtomAcc) (op : AtomOp) (d : Dst) (c : Src) (s : State) : exec (.atom x op d c) s = execAtom x op d c s := rfl
theorem exec_cas (x : AtomAcc) (ty : IType) (d : Dst) (c : Src) (s : State) : exec (.cas x ty d c) s = execCas x ty d c s := rfl
theorem exec_red (x : AtomAcc) (op : AtomOp) (c : Src) (s : State) : exec (.red x op c) s = execRed x op c s := rfl
theorem exec_barSync (scope : Scope) (id : BitVec 8) (n : Src) (s : State) : exec (.barSync scope id n) s = execBarSync scope id n s := rfl
theorem exec_barArv (scope : Scope) (id : BitVec 8) (d : Dst) (n : Src) (s : State) : exec (.barArv scope id d n) s = execBarArv scope id d n s := rfl
theorem exec_barWait (scope : Scope) (id : BitVec 8) (tok : Src) (s : State) : exec (.barWait scope id tok) s = execBarWait scope id tok s := rfl
theorem exec_waitaddr (cmp : WaitCmp) (ty : IType) (acq : Bool) (scope : Scope) (d : Dst) (off : Src) (o64 : Bool) (h : HRef) (imm : BitVec 20) (c : Src) (timeout : Word) (s : State) : exec (.waitaddr cmp ty acq scope d off o64 h imm c timeout) s = execWaitaddr cmp ty acq scope d off o64 h imm c timeout s := rfl
theorem exec_cbputAcq (d : Dst) (k : BitVec 8) (s : State) : exec (.cbputAcq d k) s = execCbputAcq d k s := rfl
theorem exec_cbputCom (k : BitVec 8) (s : State) : exec (.cbputCom k) s = execCbputCom k s := rfl
theorem exec_cbget (d : Dst) (k : BitVec 8) (s : State) : exec (.cbget d k) s = execCbget d k s := rfl
theorem exec_cbrel (k : BitVec 8) (s : State) : exec (.cbrel k) s = execCbrel k s := rfl
theorem exec_fenceAcq (scope : Scope) (s : State) : exec (.fenceAcq scope) s = execFenceAcq scope s := rfl
theorem exec_fenceRel (scope : Scope) (s : State) : exec (.fenceRel scope) s = execFenceRel scope s := rfl
theorem exec_fenceAcqrel (scope : Scope) (s : State) : exec (.fenceAcqrel scope) s = execFenceAcqrel scope s := rfl
theorem exec_fenceSc (scope : Scope) (s : State) : exec (.fenceSc scope) s = execFenceSc scope s := rfl
theorem exec_fenceRo (scope : Scope) (s : State) : exec (.fenceRo scope) s = execFenceRo scope s := rfl
theorem exec_fenceOpr (scope : Scope) (s : State) : exec (.fenceOpr scope) s = execFenceOpr scope s := rfl
theorem exec_fenceComplete (uid : Nat) (s : State) : exec (.fenceComplete uid) s = execFenceComplete uid s := rfl
theorem exec_waitf (any : Bool) (m : BitVec 12) (d : Dst) (s : State) : exec (.waitf any m d) s = execWaitf any m d s := rfl
theorem exec_sig (fs : Bool) (set : Bool) (eng : Bool) (wide : Bool) (scope : Scope) (m : MemRef) (v : Src) (s : State) : exec (.sig fs set eng wide scope m v) s = execSig fs set eng wide scope m v s := rfl
theorem exec_cbinit (k : BitVec 8) (h : BitVec 12) (size : Src) (count : Src) (s : State) : exec (.cbinit k h size count) s = execCbinit k h size count s := rfl
theorem exec_tdecl (fs : Bool) (r : RecRef) (hb : HRef) (s : State) : exec (.tdecl fs r hb) s = execTdecl fs r hb s := rfl
theorem exec_tdeclRm (fs : Bool) (hb : HRef) (s : State) : exec (.tdeclRm fs hb) s = execTdeclRm fs hb s := rfl
theorem exec_ttile (d : Dst) (r : RecRef) (hb : HRef) (s : State) : exec (.ttile d r hb) s = execTtile d r hb s := rfl
theorem exec_topenR (t : Src) (s : State) : exec (.topenR t) s = execTopenR t s := rfl
theorem exec_topenW (t : Src) (s : State) : exec (.topenW t) s = execTopenW t s := rfl
theorem exec_topenWRecall (t : Src) (s : State) : exec (.topenWRecall t) s = execTopenWRecall t s := rfl
theorem exec_tseal (fs : Bool) (t : Src) (s : State) : exec (.tseal fs t) s = execTseal fs t s := rfl
theorem exec_tdrop (fs : Bool) (t : Src) (s : State) : exec (.tdrop fs t) s = execTdrop fs t s := rfl
theorem exec_tsplit (d : Dst) (t : Src) (k : Src) (c : Src) (s : State) : exec (.tsplit d t k c) s = execTsplit d t k c s := rfl
theorem exec_tfree (t : Src) (s : State) : exec (.tfree t) s = execTfree t s := rfl
theorem exec_tquery (d : Dst) (t : Src) (s : State) : exec (.tquery d t) s = execTquery d t s := rfl
theorem exec_menq (fs : Bool) (slot : BitVec 3) (d : Dst) (k : BitVec 6) (s : State) : exec (.menq fs slot d k) s = execMenq fs slot d k s := rfl
theorem exec_mwaitId (d : Dst) (t : Src) (s : State) : exec (.mwaitId d t) s = execMwaitId d t s := rfl
theorem exec_mwaitFlag (fs : Bool) (t : Src) (s : State) : exec (.mwaitFlag fs t) s = execMwaitFlag fs t s := rfl
theorem exec_mwld (fs : Bool) (slot : BitVec 3) (d : Dst) (t : Src) (ts : Src) (s : State) : exec (.mwld fs slot d t ts) s = execMwld fs slot d t ts s := rfl
theorem exec_mwrel (r : Src) (s : State) : exec (.mwrel r) s = execMwrel r s := rfl
theorem exec_macz (fs : Bool) (t : Src) (s : State) : exec (.macz fs t) s = execMacz fs t s := rfl
theorem exec_macrd (g : Guard) (fs : Bool) (raw : Bool) (slot : BitVec 3) (d : Dst) (t : Src) (row : Src) (col : Src) (s : State) : exec (.macrd g fs raw slot d t row col) s = execMacrd g fs raw slot d t row col s := rfl
theorem exec_wsld (fs : Bool) (slot : BitVec 3) (img : BitVec 13) (t : Src) (ts : Src) (s : State) : exec (.wsld fs slot img t ts) s = execWsld fs slot img t ts s := rfl
theorem exec_wsinfoCal (d : Dst) (e : Src) (s : State) : exec (.wsinfoCal d e) s = execWsinfoCal d e s := rfl
theorem exec_wsinfoNow (d : Dst) (s : State) : exec (.wsinfoNow d) s = execWsinfoNow d s := rfl
theorem exec_mquery (d : Dst) (t : Src) (s : State) : exec (.mquery d t) s = execMquery d t s := rfl
theorem exec_dcopy (fs : Bool) (scope : Scope) (r : RecRef) (s : State) : exec (.dcopy fs scope r) s = execDcopy fs scope r s := rfl
theorem exec_dfill (fs : Bool) (scope : Scope) (wide : Bool) (r : RecRef) (v : Src) (s : State) : exec (.dfill fs scope wide r v) s = execDfill fs scope wide r v s := rfl
theorem exec_grpMake (d : Dst) (key : Src) (n : Src) (rank : Src) (s : State) : exec (.grpMake d key n rank) s = execGrpMake d key n rank s := rfl
theorem exec_grpFree (g : Src) (s : State) : exec (.grpFree g) s = execGrpFree g s := rfl
theorem exec_grpInfo (d : Dst) (g : Src) (s : State) : exec (.grpInfo d g) s = execGrpInfo d g s := rfl
theorem exec_coll (fs : Bool) (form : CollForm) (op : CollRed) (ty : CollType) (src : Src) (dst : Src) (grp : Src) (hs : BitVec 12) (hd : BitVec 12) (n : Word) (s : State) : exec (.coll fs form op ty src dst grp hs hd n) s = execColl fs form op ty src dst grp hs hd n s := rfl
theorem exec_gbarSync (g : Src) (s : State) : exec (.gbarSync g) s = execGbarSync g s := rfl
theorem exec_gbarArv (fs : Bool) (g : Src) (s : State) : exec (.gbarArv fs g) s = execGbarArv fs g s := rfl
theorem exec_sclook (g : Guard) (fs : Bool) (d : Dst) (a : Src) (s : State) : exec (.sclook g fs d a) s = execSclook g fs d a s := rfl
theorem exec_scwait (g : Guard) (d : Dst) (a : Src) (s : State) : exec (.scwait g d a) s = execScwait g d a s := rfl
theorem exec_scfill (fs : Bool) (item : Src) (s : State) : exec (.scfill fs item) s = execScfill fs item s := rfl
theorem exec_scinv (fs : Bool) (obj : Src) (tag : Src) (s : State) : exec (.scinv fs obj tag) s = execScinv fs obj tag s := rfl
theorem exec_frameCtx (d : Dst) (s : State) : exec (.frameCtx d) s = execFrameCtx d s := rfl
theorem exec_frameTag (d : Dst) (tag : Src) (s : State) : exec (.frameTag d tag) s = execFrameTag d tag s := rfl
theorem exec_gtake (k : BitVec 6) (s : State) : exec (.gtake k) s = execGtake k s := rfl
theorem exec_pfill (fs : Bool) (item : Src) (s : State) : exec (.pfill fs item) s = execPfill fs item s := rfl
theorem exec_pfail (fs : Bool) (item : Src) (st : Src) (s : State) : exec (.pfail fs item st) s = execPfail fs item st s := rfl
theorem exec_prangeAdd (fs : Bool) (r : RecRef) (hw : Src) (s : State) : exec (.prangeAdd fs r hw) s = execPrangeAdd fs r hw s := rfl
theorem exec_prangeRm (fs : Bool) (hw : Src) (s : State) : exec (.prangeRm fs hw) s = execPrangeRm fs hw s := rfl
theorem exec_prangeClr (fs : Bool) (hw : Src) (s : State) : exec (.prangeClr fs hw) s = execPrangeClr fs hw s := rfl
theorem exec_prangeLayer (fs : Bool) (r : RecRef) (n : Src) (s : State) : exec (.prangeLayer fs r n) s = execPrangeLayer fs r n s := rfl
theorem exec_rtrace (fs : Bool) (first : Bool) (sr : Src) (n : Src) (sh : Src) (hr : BitVec 12) (hs : BitVec 12) (hh : BitVec 12) (s : State) : exec (.rtrace fs first sr n sh hr hs hh) s = execRtrace fs first sr n sh hr hs hh s := rfl
theorem exec_rsort (fs : Bool) (first : Bool) (sr : Src) (n : Src) (sh : Src) (hr : BitVec 12) (hs : BitVec 12) (hh : BitVec 12) (s : State) : exec (.rsort fs first sr n sh hr hs hh) s = execRsort fs first sr n sh hr hs hh s := rfl
theorem exec_rhit (g : Guard) (short : Bool) (d : Dst) (ix : Src) (h : BitVec 12) (imm : BitVec 20) (rec : Option PredIx) (s : State) : exec (.rhit g short d ix h imm rec) s = execRhit g short d ix h imm rec s := rfl
theorem exec_rhitCnt (d : Dst) (s : State) : exec (.rhitCnt d) s = execRhitCnt d s := rfl
theorem exec_rprog (fs : Bool) (kind : BitVec 8) (r : RecRef) (s : State) : exec (.rprog fs kind r) s = execRprog fs kind r s := rfl
theorem exec_visJob (fs : Bool) (d : Dst) (r : RecRef) (s : State) : exec (.visJob fs d r) s = execVisJob fs d r s := rfl
theorem exec_visGet (g : Guard) (d : Dst) (job : Src) (rec : Option PredIx) (s : State) : exec (.visGet g d job rec) s = execVisGet g d job rec s := rfl
theorem exec_trap (n : BitVec 8) (s : State) : exec (.trap n) s = execTrap n s := rfl
theorem exec_rfe (s : State) : exec (.rfe) s = execRfe s := rfl
theorem exec_csrr (wide : Bool) (d : Dst) (csr : BitVec 12) (s : State) : exec (.csrr wide d csr) s = execCsrr wide d csr s := rfl
theorem exec_csrw (d : Dst) (a : Src) (csr : BitVec 12) (s : State) : exec (.csrw d a csr) s = execCsrw d a csr s := rfl
theorem exec_yield (s : State) : exec (.yield) s = execYield s := rfl
theorem exec_ksave (set : KsaveSet) (m : DWord) (s : State) : exec (.ksave set m) s = execKsave set m s := rfl
theorem exec_tlbi (fs : Bool) (op : TlbiOp) (scope : Scope) (a : Src) (s : State) : exec (.tlbi fs op scope a) s = execTlbi fs op scope a s := rfl
theorem exec_bkpt (n : BitVec 8) (s : State) : exec (.bkpt n) s = execBkpt n s := rfl
theorem exec_spawn (fs : Bool) (d : Dst) (r : RecRef) (shape : Src) (s : State) : exec (.spawn fs d r shape) s = execSpawn fs d r shape s := rfl
theorem exec_qpost (fs : Bool) (q : BitVec 8) (r : RecRef) (s : State) : exec (.qpost fs q r) s = execQpost fs q r s := rfl
theorem exec_qwaitDone (d : Dst) (n : Src) (q : BitVec 8) (s : State) : exec (.qwaitDone d n q) s = execQwaitDone d n q s := rfl
theorem exec_qwaitSpace (d : Dst) (q : BitVec 8) (s : State) : exec (.qwaitSpace d q) s = execQwaitSpace d q s := rfl
theorem exec_qwaitWake (uid : Nat) (s : State) : exec (.qwaitWake uid) s = execQwaitWake uid s := rfl
theorem exec_clauseStart (h : Header) (s : State) : exec (.clauseStart h) s = execClauseStart h s := rfl
theorem exec_waitfWake (uid : Nat) (s : State) : exec (.waitfWake uid) s = execWaitfWake uid s := rfl
theorem exec_loadComplete (op : Nat) (s : State) : exec (.loadComplete op) s = execLoadComplete op s := rfl
theorem exec_storeComplete (op : Nat) (s : State) : exec (.storeComplete op) s = execStoreComplete op s := rfl
theorem exec_atomicComplete (op : Nat) (s : State) : exec (.atomicComplete op) s = execAtomicComplete op s := rfl
theorem exec_sigPerform (op : Nat) (s : State) : exec (.sigPerform op) s = execSigPerform op s := rfl
theorem exec_mapFillComplete (uid : Nat) (s : State) : exec (.mapFillComplete uid) s = execMapFillComplete uid s := rfl
theorem exec_hmapComplete (op : Nat) (s : State) : exec (.hmapComplete op) s = execHmapComplete op s := rfl
theorem exec_l2FillArrival (die : Nat) (line : Nat) (s : State) : exec (.l2FillArrival die line) s = execL2FillArrival die line s := rfl
theorem exec_nackRetryResend (op : Nat) (s : State) : exec (.nackRetryResend op) s = execNackRetryResend op s := rfl
theorem exec_faultRecordWrite (q : QueueId) (s : State) : exec (.faultRecordWrite q) s = execFaultRecordWrite q s := rfl
theorem exec_stopRecord (uid : Nat) (s : State) : exec (.stopRecord uid) s = execStopRecord uid s := rfl
theorem exec_budgetExpiry (ctx : Word) (s : State) : exec (.budgetExpiry ctx) s = execBudgetExpiry ctx s := rfl
theorem exec_saveComplete (ctx : Word) (s : State) : exec (.saveComplete ctx) s = execSaveComplete ctx s := rfl
theorem exec_gridCompletion (grid : Word) (s : State) : exec (.gridCompletion grid) s = execGridCompletion grid s := rfl
theorem exec_scheduleLaunch (part : Nat) (src : QSrc) (cores : List (Nat × Nat)) (s : State) : exec (.scheduleLaunch part src cores) s = execScheduleLaunch part src cores s := rfl
theorem exec_bindRecord (r : BindRec) (s : State) : exec (.bindRecord r) s = execBindRecord r s := rfl
theorem exec_gridRelease (grid : Word) (s : State) : exec (.gridRelease grid) s = execGridRelease grid s := rfl
theorem exec_barrierRelease (k : BarKey) (s : State) : exec (.barrierRelease k) s = execBarrierRelease k s := rfl
theorem exec_watchFire (uid : Nat) (s : State) : exec (.watchFire uid) s = execWatchFire uid s := rfl
theorem exec_watchPoll (uid : Nat) (s : State) : exec (.watchPoll uid) s = execWatchPoll uid s := rfl
theorem exec_waitaddrTimeout (uid : Nat) (s : State) : exec (.waitaddrTimeout uid) s = execWaitaddrTimeout uid s := rfl
theorem exec_cbWake (uid : Nat) (s : State) : exec (.cbWake uid) s = execCbWake uid s := rfl
theorem exec_cbDeferredUpdate (op : Nat) (s : State) : exec (.cbDeferredUpdate op) s = execCbDeferredUpdate op s := rfl
theorem exec_groupFormed (ctx : Word) (key : Word) (s : State) : exec (.groupFormed ctx key) s = execGroupFormed ctx key s := rfl
theorem exec_copyStart (op : Nat) (s : State) : exec (.copyStart op) s = execCopyStart op s := rfl
theorem exec_copyComplete (op : Nat) (s : State) : exec (.copyComplete op) s = execCopyComplete op s := rfl
theorem exec_collComplete (ctx : Word) (group : Nat) (k : Nat) (s : State) : exec (.collComplete ctx group k) s = execCollComplete ctx group k s := rfl
theorem exec_gbarComplete (ctx : Word) (group : Nat) (k : Nat) (s : State) : exec (.gbarComplete ctx group k) s = execGbarComplete ctx group k s := rfl
theorem exec_taskReady (die : Nat) (id : Nat) (s : State) : exec (.taskReady die id) s = execTaskReady die id s := rfl
theorem exec_taskDispatch (die : Nat) (id : Nat) (s : State) : exec (.taskDispatch die id) s = execTaskDispatch die id s := rfl
theorem exec_taskComplete (die : Nat) (id : Nat) (s : State) : exec (.taskComplete die id) s = execTaskComplete die id s := rfl
theorem exec_partialMerge (die : Nat) (id : Nat) (line : Nat) (s : State) : exec (.partialMerge die id line) s = execPartialMerge die id line s := rfl
theorem exec_mwldComplete (op : Nat) (s : State) : exec (.mwldComplete op) s = execMwldComplete op s := rfl
theorem exec_residencyRelease (die : Nat) (entry : Nat) (s : State) : exec (.residencyRelease die entry) s = execResidencyRelease die entry s := rfl
theorem exec_wsldComplete (op : Nat) (s : State) : exec (.wsldComplete op) s = execWsldComplete op s := rfl
theorem exec_generatorStart (die : Nat) (k : GenKey) (s : State) : exec (.generatorStart die k) s = execGeneratorStart die k s := rfl
theorem exec_generatorFailure (uid : Nat) (s : State) : exec (.generatorFailure uid) s = execGeneratorFailure uid s := rfl
theorem exec_framePoolGrant (die : Nat) (item : Nat) (s : State) : exec (.framePoolGrant die item) s = execFramePoolGrant die item s := rfl
theorem exec_heldLookupRelease (uid : Nat) (s : State) : exec (.heldLookupRelease uid) s = execHeldLookupRelease uid s := rfl
theorem exec_sclookAnswer (op : Nat) (s : State) : exec (.sclookAnswer op) s = execSclookAnswer op s := rfl
theorem exec_scwaitWake (uid : Nat) (s : State) : exec (.scwaitWake uid) s = execScwaitWake uid s := rfl
theorem exec_shadingCommit (op : Nat) (s : State) : exec (.shadingCommit op) s = execShadingCommit op s := rfl
theorem exec_furrowRelease (die : Nat) (s : State) : exec (.furrowRelease die) s = execFurrowRelease die s := rfl
theorem exec_rayBatchComplete (op : Nat) (s : State) : exec (.rayBatchComplete op) s = execRayBatchComplete op s := rfl
theorem exec_visJobComplete (die : Nat) (job : Nat) (s : State) : exec (.visJobComplete die job) s = execVisJobComplete die job s := rfl
theorem exec_visGetWake (uid : Nat) (s : State) : exec (.visGetWake uid) s = execVisGetWake uid s := rfl
theorem exec_tileOpenReq (m : TileMsg) (write : Bool) (recl : Bool) (s : State) : exec (.tileOpenReq m write recl) s = execTileOpenReq m write recl s := rfl
theorem exec_sealReq (m : TileMsg) (s : State) : exec (.sealReq m) s = execSealReq m s := rfl
theorem exec_dropReq (m : TileMsg) (s : State) : exec (.dropReq m) s = execDropReq m s := rfl
theorem exec_splitReq (m : TileMsg) (k : Word) (c : Word) (s : State) : exec (.splitReq m k c) s = execSplitReq m k c s := rfl
theorem exec_freeReq (m : TileMsg) (s : State) : exec (.freeReq m) s = execFreeReq m s := rfl
theorem exec_dataRsp (m : LineMsg) (s : State) : exec (.dataRsp m) s = execDataRsp m s := rfl
theorem exec_forwardedData (m : LineMsg) (s : State) : exec (.forwardedData m) s = execForwardedData m s := rfl
theorem exec_grant (m : LineMsg) (s : State) : exec (.grant m) s = execGrant m s := rfl
theorem exec_inv (m : LineMsg) (s : State) : exec (.inv m) s = execInv m s := rfl
theorem exec_forwardShared (m : LineMsg) (s : State) : exec (.forwardShared m) s = execForwardShared m s := rfl
theorem exec_forwardExclusive (m : LineMsg) (s : State) : exec (.forwardExclusive m) s = execForwardExclusive m s := rfl
theorem exec_backInv (m : LineMsg) (s : State) : exec (.backInv m) s = execBackInv m s := rfl
theorem exec_invAck (m : LineMsg) (s : State) : exec (.invAck m) s = execInvAck m s := rfl
theorem exec_forwardAck (m : LineMsg) (s : State) : exec (.forwardAck m) s = execForwardAck m s := rfl
theorem exec_backInvAck (m : LineMsg) (s : State) : exec (.backInvAck m) s = execBackInvAck m s := rfl
theorem exec_grantAck (m : LineMsg) (s : State) : exec (.grantAck m) s = execGrantAck m s := rfl
theorem exec_readShared (m : LineMsg) (s : State) : exec (.readShared m) s = execReadShared m s := rfl
theorem exec_readExclusive (m : LineMsg) (s : State) : exec (.readExclusive m) s = execReadExclusive m s := rfl
theorem exec_upgrade (m : LineMsg) (s : State) : exec (.upgrade m) s = execUpgrade m s := rfl
theorem exec_writeBack (m : LineMsg) (s : State) : exec (.writeBack m) s = execWriteBack m s := rfl
theorem exec_illopPattern (hdr : Bool) (uni : Bool) (opc : BitVec 8) (s : State) : exec (.illopPattern hdr uni opc) s = execIllopPattern hdr uni opc s := rfl
theorem exec_answerRetry (q : QueueId) (seq : Word) (s : State) : exec (.answerRetry q seq) s = execAnswerRetry q seq s := rfl
theorem exec_answerFail (q : QueueId) (seq : Word) (s : State) : exec (.answerFail q seq) s = execAnswerFail q seq s := rfl
theorem exec_answerRestart (q : QueueId) (seq : Word) (s : State) : exec (.answerRestart q seq) s = execAnswerRestart q seq s := rfl
theorem exec_answerContinue (q : QueueId) (seq : Word) (s : State) : exec (.answerContinue q seq) s = execAnswerContinue q seq s := rfl
theorem exec_answerKill (q : QueueId) (seq : Word) (s : State) : exec (.answerKill q seq) s = execAnswerKill q seq s := rfl
theorem exec_answerHalt (q : QueueId) (seq : Word) (s : State) : exec (.answerHalt q seq) s = execAnswerHalt q seq s := rfl
theorem exec_answerIgnored (q : QueueId) (seq : Word) (action : BitVec 4) (s : State) : exec (.answerIgnored q seq action) s = execAnswerIgnored q seq action s := rfl
theorem exec_eccScratchError (site : EccSite) (source : BitVec 2) (word : BitVec 18) (s : State) :
    exec (.eccScratchError site source word) s = execEccScratchError site source word s := rfl
theorem exec_eccCorrectable (e : EccLine) (s : State) :
    exec (.eccCorrectable e) s = execEccCorrectable e s := rfl
theorem exec_l2Poison (line : Nat) (s : State) : exec (.l2Poison line) s = execL2Poison line s := rfl
theorem exec_agentDeadlineMiss (a : Agent) (s : State) : exec (.agentDeadlineMiss a) s = execAgentDeadlineMiss a s := rfl
theorem exec_die0Dead (s : State) : exec (.die0Dead) s = execDie0Dead s := rfl
theorem exec_pageWalkComplete (uid : Nat) (va : DWord) (write : Bool) (s : State) : exec (.pageWalkComplete uid va write) s = execPageWalkComplete uid va write s := rfl
theorem exec_sliceEnd (ctx : Word) (s : State) : exec (.sliceEnd ctx) s = execSliceEnd ctx s := rfl
theorem exec_watchdogExpiry (op : Nat) (s : State) : exec (.watchdogExpiry op) s = execWatchdogExpiry op s := rfl
theorem exec_cimParityError (die : Nat) (core : Nat) (s : State) : exec (.cimParityError die core) s = execCimParityError die core s := rfl
theorem exec_weightStoreUncorrectableError (die : Nat) (image : Nat) (s : State) : exec (.weightStoreUncorrectableError die image) s = execWeightStoreUncorrectableError die image s := rfl
theorem exec_hostRingEntry (part : Nat) (q : Nat) (s : State) : exec (.hostRingEntry part q) s = execHostRingEntry part q s := rfl
theorem exec_claim (m : BitVec 2) (s : State) : exec (.claim m) s = execClaim m s := rfl
theorem exec_handover (m : BitVec 2) (target : BitVec 2) (s : State) : exec (.handover m target) s = execHandover m target s := rfl
theorem exec_release (m : BitVec 2) (s : State) : exec (.release m) s = execRelease m s := rfl
theorem exec_handoverLapse (s : State) : exec (.handoverLapse) s = execHandoverLapse s := rfl
theorem exec_heartbeat (m : BitVec 2) (s : State) : exec (.heartbeat m) s = execHeartbeat m s := rfl
theorem exec_heartbeatMiss (m : BitVec 2) (s : State) : exec (.heartbeatMiss m) s = execHeartbeatMiss m s := rfl
theorem exec_aclclr (m : BitVec 2) (s : State) : exec (.aclclr m) s = execAclclr m s := rfl
theorem exec_pwrcap (m : BitVec 2) (v : Word) (s : State) : exec (.pwrcap m v) s = execPwrcap m v s := rfl
theorem exec_registerWrite (m : BitVec 2) (off : Nat) (wide : Bool) (v : DWord) (s : State) : exec (.registerWrite m off wide v) s = execRegisterWrite m off wide v s := rfl
theorem exec_setctx (m : BitVec 2) (s : State) : exec (.setctx m) s = execSetctx m s := rfl
theorem exec_endctx (m : BitVec 2) (s : State) : exec (.endctx m) s = execEndctx m s := rfl
theorem exec_setpart (m : BitVec 2) (s : State) : exec (.setpart m) s = execSetpart m s := rfl
theorem exec_setkey (m : BitVec 2) (s : State) : exec (.setkey m) s = execSetkey m s := rfl
theorem exec_delkey (m : BitVec 2) (s : State) : exec (.delkey m) s = execDelkey m s := rfl
theorem exec_restore (m : BitVec 2) (s : State) : exec (.restore m) s = execRestore m s := rfl
theorem exec_mailboxBadarg (m : BitVec 2) (cmd : BitVec 8) (s : State) : exec (.mailboxBadarg m cmd) s = execMailboxBadarg m cmd s := rfl
theorem exec_report (m : BitVec 2) (s : State) : exec (.report m) s = execReport m s := rfl
theorem exec_kemkey (m : BitVec 2) (s : State) : exec (.kemkey m) s = execKemkey m s := rfl
theorem exec_powerOn (sigOk : Bool) (versionOk : Bool) (s : State) : exec (.powerOn sigOk versionOk) s = execPowerOn sigOk versionOk s := rfl
theorem exec_warmReset (s : State) : exec (.warmReset) s = execWarmReset s := rfl
theorem exec_functionLevelReset (pf : BitVec 2) (s : State) : exec (.functionLevelReset pf) s = execFunctionLevelReset pf s := rfl
theorem exec_coldReset (s : State) : exec (.coldReset) s = execColdReset s := rfl
theorem exec_linkPortRetrain (port : Nat) (s : State) : exec (.linkPortRetrain port) s = execLinkPortRetrain port s := rfl
theorem exec_cxlPortReset (port : Nat) (s : State) : exec (.cxlPortReset port) s = execCxlPortReset port s := rfl
theorem exec_clockLower (die : Nat) (clk : BitVec 8) (s : State) : exec (.clockLower die clk) s = execClockLower die clk s := rfl
theorem exec_thermalShutdown (s : State) : exec (.thermalShutdown) s = execThermalShutdown s := rfl
theorem exec_powerLoss (signing : Bool) (s : State) : exec (.powerLoss signing) s = execPowerLoss signing s := rfl
theorem exec_tlbiComplete (op : Nat) (s : State) : exec (.tlbiComplete op) s = execTlbiComplete op s := rfl
theorem exec_prangeComplete (op : Nat) (s : State) : exec (.prangeComplete op) s = execPrangeComplete op s := rfl
theorem exec_maczComplete (op : Nat) (s : State) : exec (.maczComplete op) s = execMaczComplete op s := rfl
theorem exec_scinvComplete (op : Nat) (s : State) : exec (.scinvComplete op) s = execScinvComplete op s := rfl
theorem exec_rprogInstall (op : Nat) (s : State) : exec (.rprogInstall op) s = execRprogInstall op s := rfl
theorem exec_tileOpComplete (op : Nat) (s : State) : exec (.tileOpComplete op) s = execTileOpComplete op s := rfl
theorem exec_tileRequestRetry (uid : Nat) (s : State) : exec (.tileRequestRetry uid) s = execTileRequestRetry uid s := rfl
theorem exec_refreshWindowEnd (die : Nat) (s : State) : exec (.refreshWindowEnd die) s = execRefreshWindowEnd die s := rfl
theorem exec_topenWStarvationHold (ctx : Word) (tile : Nat) (s : State) : exec (.topenWStarvationHold ctx tile) s = execTopenWStarvationHold ctx tile s := rfl
theorem exec_nackRetry (op : Nat) (s : State) : exec (.nackRetry op) s = execNackRetry op s := rfl
theorem exec_errorRsp (op : Nat) (s : State) : exec (.errorRsp op) s = execErrorRsp op s := rfl
theorem exec_tileRecordFetch (ctx : Word) (tile : Nat) (s : State) : exec (.tileRecordFetch ctx tile) s = execTileRecordFetch ctx tile s := rfl
theorem exec_harvest (die : Nat) (s : State) : exec (.harvest die) s = execHarvest die s := rfl
theorem exec_copy (die : Nat) (s : State) : exec (.copy die) s = execCopy die s := rfl
theorem exec_switch (die : Nat) (busy : Bool) (s : State) : exec (.switch die busy) s = execSwitch die busy s := rfl
theorem exec_migrationDone (die : Nat) (s : State) : exec (.migrationDone die) s = execMigrationDone die s := rfl

end Sys2Proof.Machine

namespace Sys2Proof

theorem wf_nop : Instr.wf (.nop) =
    (true : Bool) := rfl
theorem wf_join : Instr.wf (.join) =
    (true : Bool) := rfl
theorem wf_ret : Instr.wf (.ret) =
    (true : Bool) := rfl
theorem wf_spin : Instr.wf (.spin) =
    (true : Bool) := rfl
theorem wf_rfe : Instr.wf (.rfe) =
    (true : Bool) := rfl
theorem wf_yield : Instr.wf (.yield) =
    (true : Bool) := rfl
theorem wf_bra (c : BraCond) (off : Word) : Instr.wf (.bra c off) =
    (off.toNat % 4 == 0 : Bool) := rfl
theorem wf_brv (p : PredIx) (neg : Bool) (taken : Word) (jn : Word) : Instr.wf (.brv p neg taken jn) =
    (taken.toNat % 4 == 0 && jn.toNat % 4 == 0 : Bool) := rfl
theorem wf_brm (pairs : List BrmPair) (join : BitVec 12) : Instr.wf (.brm pairs join) =
    (brmOk pairs : Bool) := rfl
theorem wf_brk (g : Guard) (n : BitVec 8) : Instr.wf (.brk g n) =
    (g.ok && 1 ≤ n.toNat && n.toNat ≤ 7 : Bool) := rfl
theorem wf_cont (g : Guard) (n : BitVec 8) : Instr.wf (.cont g n) =
    (g.ok && 1 ≤ n.toNat && n.toNat ≤ 7 : Bool) := rfl
theorem wf_call_direct (off : Word) : Instr.wf (.call (.direct off)) =
    (off.toNat % 4 == 0 : Bool) := rfl
theorem wf_call_ind (s : BitVec 6) : Instr.wf (.call (.ind s)) =
    (s.toNat % 2 == 0 : Bool) := rfl
theorem wf_exit (g : Guard) : Instr.wf (.exit g) =
    (g.ok : Bool) := rfl
theorem wf_reorder (signed : Bool) (k : BitVec 7) : Instr.wf (.reorder signed k) =
    (true : Bool) := rfl
theorem wf_loop (off : Word) : Instr.wf (.loop off) =
    (off.toNat % 4 == 0 : Bool) := rfl
theorem wf_next (p : PredIx) (neg : Bool) : Instr.wf (.next p neg) =
    (true : Bool) := rfl
theorem wf_add (x : Alu) (sat : Bool) : Instr.wf (.add x sat) =
    (x.ok && x.noC && x.wide && !(sat && x.ty == .b32) : Bool) := rfl
theorem wf_sub (x : Alu) (sat : Bool) : Instr.wf (.sub x sat) =
    (x.ok && x.noC && x.wide && !(sat && x.ty == .b32) : Bool) := rfl
theorem wf_mul (x : Alu) : Instr.wf (.mul x) =
    (x.ok && x.noC && x.wide : Bool) := rfl
theorem wf_mulhi (x : Alu) : Instr.wf (.mulhi x) =
    (x.ok && x.noC && x.wide && x.ty != .b32 : Bool) := rfl
theorem wf_min (x : Alu) : Instr.wf (.min x) =
    (x.ok && x.noC && x.wide && x.ty != .b32 : Bool) := rfl
theorem wf_max (x : Alu) : Instr.wf (.max x) =
    (x.ok && x.noC && x.wide && x.ty != .b32 : Bool) := rfl
theorem wf_mad (x : Alu) (sat : Bool) : Instr.wf (.mad x sat) =
    (x.ok && x.wide && !(sat && x.ty == .b32) : Bool) := rfl
theorem wf_absn (x : Alu) (neg : Bool) (sat : Bool) : Instr.wf (.absn x neg sat) =
    (x.ok && x.noBC && x.wide && (neg || x.ty.signed) && !(sat && x.ty == .b32) : Bool) := rfl
theorem wf_and (x : Alu) (inv : Bool) : Instr.wf (.and x inv) =
    (x.ok && x.noC && x.wide && x.ty.plain5 : Bool) := rfl
theorem wf_or (x : Alu) (inv : Bool) : Instr.wf (.or x inv) =
    (x.ok && x.noC && x.wide && x.ty.plain5 : Bool) := rfl
theorem wf_xor (x : Alu) (inv : Bool) : Instr.wf (.xor x inv) =
    (x.ok && x.noC && x.wide && x.ty.plain5 : Bool) := rfl
theorem wf_shl (x : Alu) : Instr.wf (.shl x) =
    (x.ok && x.noC && (!x.ty.wide || (x.d.ok64 && x.a.ok64)) : Bool) := rfl
theorem wf_shr (x : Alu) : Instr.wf (.shr x) =
    (x.ok && x.noC && (!x.ty.wide || (x.d.ok64 && x.a.ok64)) : Bool) := rfl
theorem wf_rot (x : Alu) (right : Bool) : Instr.wf (.rot x right) =
    (x.ok && x.noC && (!x.ty.wide || (x.d.ok64 && x.a.ok64)) : Bool) := rfl
theorem wf_bcnt (x : Alu) (op : BcntOp) : Instr.wf (.bcnt x op) =
    (x.ok && x.noBC && x.ty.plain5 && x.a.fits64 x.ty.wide : Bool) := rfl
theorem wf_bitf_rev (x : Alu) : Instr.wf (.bitf x .rev) =
    (x.ok && x.noBC && x.ty.plain5 && x.wide : Bool) := rfl
theorem wf_bitf_ext (x : Alu) : Instr.wf (.bitf x .ext) =
    (x.ok && x.noC && x.ty.plain5 && (!x.ty.wide || (x.d.ok64 && x.a.ok64)) : Bool) := rfl
theorem wf_bitf_ins (x : Alu) : Instr.wf (.bitf x .ins) =
    (x.ok && x.ty.plain5 && (!x.ty.wide || (x.d.ok64 && x.a.ok64 && x.c.ok64)) : Bool) := rfl
theorem wf_setp (g : Guard) (ty : IType) (cond : ICond) (comb : Combine) (pd : PredIx) (a : Src) (b : Src) : Instr.wf (.setp g ty cond comb pd a b) =
    (g.ok && ty.plain5 && !a.isImm && a.fits64 ty.wide && b.fits64 ty.wide && !(ty == .b32 && (cond == .lt || cond == .le || cond == .gt || cond == .ge)) : Bool) := rfl
theorem wf_sel (x : Alu) (pc : PredIx) : Instr.wf (.sel x pc) =
    (x.ok true && x.noC && x.wide && !x.d.isS : Bool) := rfl
theorem wf_plog (g : Guard) (op : PlogOp) (pd : PredIx) (pa : PredIx) (pb : PredIx) : Instr.wf (.plog g op pd pa pb) =
    (g.ok && (op != .not || pb == 0) : Bool) := rfl
theorem wf_mov (x : Alu) : Instr.wf (.mov x) =
    (x.ok && x.noBC && x.wide : Bool) := rfl
theorem wf_movi (g : Guard) (ty : IType) (d : Dst) (imm : MovImm) : Instr.wf (.movi g ty d imm) =
    (vecRule false g d [] && (!ty.wide || d.ok64) && (match imm with | .i32 _ => true | .i64 _ => ty.wide) : Bool) := rfl
theorem wf_lea (x : Alu) (x32 : Bool) (sh : BitVec 5) : Instr.wf (.lea x x32 sh) =
    (x.ok && x.ty.plain4 && (!x32 || x.ty.wide) && (!x.ty.wide || (x.d.ok64 && x.a.ok64 && x.c.ok64)) && (x32 || x.b.fits64 x.ty.wide) : Bool) := rfl
theorem wf_div (x : Alu) (rem : Bool) (nz : Bool) : Instr.wf (.div x rem nz) =
    (x.ok && x.noC && x.ty.plain4 && x.wide : Bool) := rfl
theorem wf_ext_sext (x : Alu) (n : BitVec 6) : Instr.wf (.ext x (.sext n)) =
    (x.ok && x.noBC && x.ty.plain4 && n.toNat + 1 ≤ (if x.ty.wide then 64 else 32) && (!x.ty.wide || x.d.ok64) && x.a.fits64 (32 < n.toNat + 1) : Bool) := rfl
theorem wf_ext_zext (x : Alu) (n : BitVec 6) : Instr.wf (.ext x (.zext n)) =
    (x.ok && x.noBC && x.ty.plain4 && n.toNat + 1 ≤ (if x.ty.wide then 64 else 32) && (!x.ty.wide || x.d.ok64) && x.a.fits64 (32 < n.toNat + 1) : Bool) := rfl
theorem wf_ext_trunc (x : Alu) : Instr.wf (.ext x .trunc) =
    (x.ok && x.noBC && (x.ty == .i32 || x.ty == .n32 || x.ty == .b32) && x.a.ok64 : Bool) := rfl
theorem wf_addc (x : Alu) (ci : Option PredIx) (co : PredIx) : Instr.wf (.addc x ci co) =
    (x.ok (ci.isSome || co != 7) && x.noC && x.ty == .n32 && !x.d.isS : Bool) := rfl
theorem wf_subb (x : Alu) (ci : Option PredIx) (co : PredIx) : Instr.wf (.subb x ci co) =
    (x.ok (ci.isSome || co != 7) && x.noC && x.ty == .n32 && !x.d.isS : Bool) := rfl
theorem wf_mulw (x : Alu) : Instr.wf (.mulw x) =
    (x.ok && x.noC && (x.ty == .i32 || x.ty == .n32) && x.d.ok64 : Bool) := rfl
theorem wf_csub_p (x : Alu) (z : PredIx) : Instr.wf (.csub x (.p z)) =
    (x.ok true && x.noC && x.ty.plain4 && x.wide && !x.d.isS : Bool) := rfl
theorem wf_csub_ge (x : Alu) (pq : PredIx) : Instr.wf (.csub x (.ge pq)) =
    (x.ok (pq != 7) && x.noC && x.ty.plain4 && x.wide && (pq == 7 || !x.d.isS) : Bool) := rfl
theorem wf_clamp (x : Alu) : Instr.wf (.clamp x) =
    (x.ok && x.wide && x.ty != .b32 : Bool) := rfl
theorem wf_fadd (x : Fpu) : Instr.wf (.fadd x) =
    (x.ok && x.noC && x.wide && x.round : Bool) := rfl
theorem wf_fsub (x : Fpu) : Instr.wf (.fsub x) =
    (x.ok && x.noC && x.wide && x.round : Bool) := rfl
theorem wf_fmul (x : Fpu) : Instr.wf (.fmul x) =
    (x.ok && x.noC && x.wide && x.round : Bool) := rfl
theorem wf_fma (x : Fpu) : Instr.wf (.fma x) =
    (x.ok && x.wide && x.round : Bool) := rfl
theorem wf_fmin (x : Fpu) : Instr.wf (.fmin x) =
    (x.ok && x.noC && x.wide && x.exact && !x.sat : Bool) := rfl
theorem wf_fmax (x : Fpu) : Instr.wf (.fmax x) =
    (x.ok && x.noC && x.wide && x.exact && !x.sat : Bool) := rfl
theorem wf_fabsn (x : Fpu) (op : FabsOp) : Instr.wf (.fabsn x op) =
    (x.ok && x.noC && x.wide && x.exact && !x.sat && !x.b.isImm && (op == .cpsgn || x.b.isNone) : Bool) := rfl
theorem wf_fsetp (g : Guard) (ty : FType) (cond : FCond) (comb : Combine) (pd : PredIx) (a : Src) (b : Src) : Instr.wf (.fsetp g ty cond comb pd a b) =
    (g.ok && (ty == .f32 || ty == .f64) && !a.isImm && a.fits64 ty.wide && b.fits64 ty.wide : Bool) := rfl
theorem wf_frcp (x : Fpu) : Instr.wf (.frcp x) =
    (x.ok && x.noBC && x.exact && !x.sat && !x.ty.wide : Bool) := rfl
theorem wf_frsq (x : Fpu) : Instr.wf (.frsq x) =
    (x.ok && x.noBC && x.exact && !x.sat && !x.ty.wide : Bool) := rfl
theorem wf_fexp2 (x : Fpu) : Instr.wf (.fexp2 x) =
    (x.ok && x.noBC && x.exact && !x.sat && !x.ty.wide : Bool) := rfl
theorem wf_flog2 (x : Fpu) : Instr.wf (.flog2 x) =
    (x.ok && x.noBC && x.exact && !x.sat && !x.ty.wide : Bool) := rfl
theorem wf_fsqrt (x : Fpu) : Instr.wf (.fsqrt x) =
    (x.ok && x.noBC && x.wide && x.round && !x.sat : Bool) := rfl
theorem wf_fsincos (x : Fpu) : Instr.wf (.fsincos x) =
    (x.ok && x.noBC && x.exact && !x.sat && (x.ty == .f32 || x.ty == .f16x2) && x.d.ok64 : Bool) := rfl
theorem wf_fdiv (x : Fpu) : Instr.wf (.fdiv x) =
    (x.ok && x.noC && x.wide && x.round && !x.sat : Bool) := rfl
theorem wf_fclass (x : Fpu) : Instr.wf (.fclass x) =
    (x.ok && x.noBC && x.exact && !x.sat && x.a.fits64 x.ty.wide : Bool) := rfl
theorem wf_cvtif (x : Fpu) (src : IType) : Instr.wf (.cvtif x src) =
    (x.ok && x.noBC && !x.sat && cvtifOk src x.ty x.rs && (!x.ty.wide || x.d.ok64) && x.a.fits64 src.wide : Bool) := rfl
theorem wf_cvtfi (x : Fpu) (dst : IType) : Instr.wf (.cvtfi x dst) =
    (x.ok && x.noBC && !x.sat && x.round && cvtfiOk x.ty dst && (!dst.wide || x.d.ok64) && x.a.fits64 x.ty.wide : Bool) := rfl
theorem wf_cvtff (x : Fpu) (src : FType) (hi : Bool) : Instr.wf (.cvtff x src hi) =
    (x.ok && x.noC && !x.sat && cvtffOk src x.ty hi x.rs x.b (!x.d.isVec && x.a.isUni && x.b.isUni) && (!x.ty.wide || x.d.ok64) && x.a.fits64 src.wide : Bool) := rfl
theorem wf_frnd (x : Fpu) : Instr.wf (.frnd x) =
    (x.ok && x.noBC && x.wide && x.round && !x.sat : Bool) := rfl
theorem wf_fscal_ldexp (x : Fpu) : Instr.wf (.fscal x .ldexp) =
    (x.ok && x.noC && x.round && !x.sat && (!x.ty.wide || (x.d.ok64 && x.a.ok64)) : Bool) := rfl
theorem wf_fscal_mant (x : Fpu) : Instr.wf (.fscal x .mant) =
    (x.ok && x.noBC && x.exact && !x.sat && x.wide : Bool) := rfl
theorem wf_fscal_exp (x : Fpu) : Instr.wf (.fscal x .exp) =
    (x.ok && x.noBC && x.exact && !x.sat && x.a.fits64 x.ty.wide : Bool) := rfl
theorem wf_dot2 (x : Fpu) : Instr.wf (.dot2 x) =
    (x.ok && x.round && !x.sat && x.ty.packed && !x.b.isImm : Bool) := rfl
theorem wf_qscale (x : Narrow) : Instr.wf (.qscale x) =
    (x.ok false : Bool) := rfl
theorem wf_qpack (x : Narrow) : Instr.wf (.qpack x) =
    (x.ok false : Bool) := rfl
theorem wf_qunpack (x : Narrow) : Instr.wf (.qunpack x) =
    (x.ok false : Bool) := rfl
theorem wf_fmtq (x : Narrow) : Instr.wf (.fmtq x) =
    (x.ok false : Bool) := rfl
theorem wf_quant (x : Narrow) : Instr.wf (.quant x) =
    (x.ok true : Bool) := rfl
theorem wf_dequant (x : Narrow) : Instr.wf (.dequant x) =
    (x.ok true : Bool) := rfl
theorem wf_rngNext (g : Guard) (d : Dst) : Instr.wf (.rngNext g d) =
    (g.ok && d.isVec : Bool) := rfl
theorem wf_rngUnif (g : Guard) (d : Dst) : Instr.wf (.rngUnif g d) =
    (g.ok && d.isVec : Bool) := rfl
theorem wf_rngSeed (g : Guard) (a : Src) : Instr.wf (.rngSeed g a) =
    (g.ok && !a.isImm && a.ok64 : Bool) := rfl
theorem wf_shfl (g : Guard) (mode : ShflMode) (wide : Bool) (d : Dst) (a : Src) (b : Src) (rec : Option PredIx) : Instr.wf (.shfl g mode wide d a b rec) =
    (g.ok && !d.isS && !a.isImm && (!wide || (d.ok64 && a.ok64)) : Bool) := rfl
theorem wf_vote_eq (g : Guard) (d : PDst) (a : Src) : Instr.wf (.vote g d (.eq a)) =
    (g.ok && !a.isImm : Bool) := rfl
theorem wf_ballot_word (g : Guard) (d : Dst) (p : PredIx) (w : Src) : Instr.wf (.ballot g d p (.word w)) =
    (g.ok && w.isUni : Bool) := rfl
theorem wf_tred (g : Guard) (op : RedOp) (rs : BitVec 3) (d : Dst) (a : Src) : Instr.wf (.tred g op rs d a) =
    (g.ok && op.ok && !a.isImm && (!op.wide || (d.ok64 && a.ok64)) && (match op with | .fadd _ => rs.toNat ≤ 5 | _ => rs == 0) : Bool) := rfl
theorem wf_tscan (g : Guard) (op : RedOp) (excl : Bool) (d : Dst) (a : Src) : Instr.wf (.tscan g op excl d a) =
    (g.ok && op.ok && !a.isImm && !d.isS && (!op.wide || (d.ok64 && a.ok64)) && (match op with | .fadd _ => false | _ => true) : Bool) := rfl
theorem wf_bcast (g : Guard) (wide : Bool) (d : Dst) (a : Src) (n : Src) : Instr.wf (.bcast g wide d a n) =
    (g.ok && !a.isImm && n.isUni && (!wide || (d.ok64 && a.ok64)) : Bool) := rfl
theorem wf_ld (x : MemAcc) (sx : Bool) (d : Dst) : Instr.wf (.ld x sx d) =
    (x.ok [.plain, .acq, .sc] && vecRule false x.g d [x.m.off] && sxOk sx x.w && d.okWidth x.w : Bool) := rfl
theorem wf_st (x : MemAcc) (c : Src) : Instr.wf (.st x c) =
    (x.ok [.plain, .rel, .sc] && vecRule false x.g .none [x.m.off, c] && !c.isImm && c.okWidth x.w : Bool) := rfl
theorem wf_ldro (x : MemAcc) (sx : Bool) (d : Dst) : Instr.wf (.ldro x sx d) =
    (x.ok [.plain] && vecRule false x.g d [x.m.off] && sxOk sx x.w && d.okWidth x.w : Bool) := rfl
theorem wf_lds (x : MemAcc) (sx : Bool) (d : Dst) : Instr.wf (.lds x sx d) =
    (x.ok [.plain] && vecRule false x.g d [x.m.off] && !x.fs && sxOk sx x.w && d.okWidth x.w : Bool) := rfl
theorem wf_sts (x : MemAcc) (c : Src) : Instr.wf (.sts x c) =
    (x.ok [.plain] && vecRule false x.g .none [x.m.off, c] && !x.fs && !c.isImm && c.okWidth x.w : Bool) := rfl
theorem wf_samp (g : Guard) (fs : Bool) (d : Dst) (u : Src) (v : Src) (q : Src) (h : HRef) : Instr.wf (.samp g fs d u v q h) =
    (vecRule false g d [u, v, q] && !u.isImm && !v.isImm && !q.isImm && !d.isNone : Bool) := rfl
theorem wf_pf (x : MemAcc) (level : PfLevel) : Instr.wf (.pf x level) =
    (x.ok [.plain] && vecRule false x.g .none [x.m.off] && !x.fs : Bool) := rfl
theorem wf_hmap (fs : Bool) (d : Dst) (m : BitVec 6) (r : MemRef) : Instr.wf (.hmap fs d m r) =
    (r.okUni && !d.isVec : Bool) := rfl
theorem wf_hflush (fs : Bool) (op : FlushOp) (h : HRef) : Instr.wf (.hflush fs op h) =
    (true : Bool) := rfl
theorem wf_hquery (g : Guard) (op : QueryOp) (d : Dst) (h : HRef) : Instr.wf (.hquery g op d h) =
    (vecRule false g d [] && d.ok64 && !d.isNone : Bool) := rfl
theorem wf_atom (x : AtomAcc) (op : AtomOp) (d : Dst) (c : Src) : Instr.wf (.atom x op d c) =
    (x.ok && op.ok && vecRule false x.g d [x.m.off, c] && !c.isImm && (!op.wide || (d.ok64 && c.ok64)) : Bool) := rfl
theorem wf_cas (x : AtomAcc) (ty : IType) (d : Dst) (c : Src) : Instr.wf (.cas x ty d c) =
    (x.ok && ty.plain5 && vecRule false x.g d [x.m.off, c] && c.casGroup ty.wide && (!ty.wide || d.ok64) && !d.isNone : Bool) := rfl
theorem wf_red (x : AtomAcc) (op : AtomOp) (c : Src) : Instr.wf (.red x op c) =
    (x.ok && op.ok && vecRule false x.g .none [x.m.off, c] && !c.isImm && c.fits64 op.wide && (x.ord == .plain || x.ord == .rel) : Bool) := rfl
theorem wf_barSync (scope : Scope) (id : BitVec 8) (n : Src) : Instr.wf (.barSync scope id n) =
    (n.okUni && id.toNat ≤ 15 && scope != .sys && (scope != .team || n.isNone) : Bool) := rfl
theorem wf_barArv (scope : Scope) (id : BitVec 8) (d : Dst) (n : Src) : Instr.wf (.barArv scope id d n) =
    (n.okUni && id.toNat ≤ 15 && scope != .sys && scope != .team && !d.isVec : Bool) := rfl
theorem wf_barWait (scope : Scope) (id : BitVec 8) (tok : Src) : Instr.wf (.barWait scope id tok) =
    (tok.okUni && id.toNat ≤ 15 && scope != .sys && scope != .team : Bool) := rfl
theorem wf_waitaddr (cmp : WaitCmp) (ty : IType) (acq : Bool) (scope : Scope) (d : Dst) (off : Src) (o64 : Bool) (h : HRef) (imm : BitVec 20) (c : Src) (timeout : Word) : Instr.wf (.waitaddr cmp ty acq scope d off o64 h imm c timeout) =
    (ty.plain5 && off.okUni && c.okUni && !d.isVec && (!o64 || off.ok64) && (!ty.wide || (d.ok64 && c.ok64)) && (acq || scope == .team) && !(ty == .b32 && (cmp == .lt || cmp == .ge)) && (cmp != .sge || ty == .n32 || ty == .n64) : Bool) := rfl
theorem wf_cbputAcq (d : Dst) (k : BitVec 8) : Instr.wf (.cbputAcq d k) =
    (!d.isVec && k.toNat ≤ 7 : Bool) := rfl
theorem wf_cbget (d : Dst) (k : BitVec 8) : Instr.wf (.cbget d k) =
    (!d.isVec && k.toNat ≤ 7 : Bool) := rfl
theorem wf_cbputCom (k : BitVec 8) : Instr.wf (.cbputCom k) =
    (k.toNat ≤ 7 : Bool) := rfl
theorem wf_cbrel (k : BitVec 8) : Instr.wf (.cbrel k) =
    (k.toNat ≤ 7 : Bool) := rfl
theorem wf_cbinit (k : BitVec 8) (h : BitVec 12) (size : Src) (count : Src) : Instr.wf (.cbinit k h size count) =
    (k.toNat ≤ 7 && size.okUni && count.okUni : Bool) := rfl
theorem wf_fenceAcq (scope : Scope) : Instr.wf (.fenceAcq scope) =
    (true : Bool) := rfl
theorem wf_fenceRel (scope : Scope) : Instr.wf (.fenceRel scope) =
    (true : Bool) := rfl
theorem wf_fenceAcqrel (scope : Scope) : Instr.wf (.fenceAcqrel scope) =
    (true : Bool) := rfl
theorem wf_fenceSc (scope : Scope) : Instr.wf (.fenceSc scope) =
    (true : Bool) := rfl
theorem wf_fenceRo (scope : Scope) : Instr.wf (.fenceRo scope) =
    (scope != .team : Bool) := rfl
theorem wf_fenceOpr (scope : Scope) : Instr.wf (.fenceOpr scope) =
    (scope != .team : Bool) := rfl
theorem wf_waitf (any : Bool) (m : BitVec 12) (d : Dst) : Instr.wf (.waitf any m d) =
    (m != 0 && !d.isVec : Bool) := rfl
theorem wf_sig (fs : Bool) (set : Bool) (eng : Bool) (wide : Bool) (scope : Scope) (m : MemRef) (v : Src) : Instr.wf (.sig fs set eng wide scope m v) =
    (m.okUni && v.okUni && v.fits64 wide : Bool) := rfl
theorem wf_tdecl (fs : Bool) (r : RecRef) (hb : HRef) : Instr.wf (.tdecl fs r hb) =
    (r.ok : Bool) := rfl
theorem wf_tdeclRm (fs : Bool) (hb : HRef) : Instr.wf (.tdeclRm fs hb) =
    (true : Bool) := rfl
theorem wf_ttile (d : Dst) (r : RecRef) (hb : HRef) : Instr.wf (.ttile d r hb) =
    (r.ok && d.isS : Bool) := rfl
theorem wf_topenR (t : Src) : Instr.wf (.topenR t) =
    (t.isS : Bool) := rfl
theorem wf_topenW (t : Src) : Instr.wf (.topenW t) =
    (t.isS : Bool) := rfl
theorem wf_topenWRecall (t : Src) : Instr.wf (.topenWRecall t) =
    (t.isS : Bool) := rfl
theorem wf_tseal (fs : Bool) (t : Src) : Instr.wf (.tseal fs t) =
    (t.isS : Bool) := rfl
theorem wf_tdrop (fs : Bool) (t : Src) : Instr.wf (.tdrop fs t) =
    (t.isS : Bool) := rfl
theorem wf_tsplit (d : Dst) (t : Src) (k : Src) (c : Src) : Instr.wf (.tsplit d t k c) =
    (d.isS && d.ok64 && t.isS && k.okUni && c.okUni : Bool) := rfl
theorem wf_tfree (t : Src) : Instr.wf (.tfree t) =
    (t.isS : Bool) := rfl
theorem wf_tquery (d : Dst) (t : Src) : Instr.wf (.tquery d t) =
    (d.isS && d.ok64 && t.isS : Bool) := rfl
theorem wf_menq (fs : Bool) (slot : BitVec 3) (d : Dst) (k : BitVec 6) : Instr.wf (.menq fs slot d k) =
    (!d.isVec && k.toNat % 16 == 0 : Bool) := rfl
theorem wf_mwaitId (d : Dst) (t : Src) : Instr.wf (.mwaitId d t) =
    (!d.isVec && t.okUni : Bool) := rfl
theorem wf_mwaitFlag (fs : Bool) (t : Src) : Instr.wf (.mwaitFlag fs t) =
    (t.okUni : Bool) := rfl
theorem wf_mwld (fs : Bool) (slot : BitVec 3) (d : Dst) (t : Src) (ts : Src) : Instr.wf (.mwld fs slot d t ts) =
    (d.isS && t.isS && (ts.isS || ts.isNone) : Bool) := rfl
theorem wf_mwrel (r : Src) : Instr.wf (.mwrel r) =
    (r.okUni : Bool) := rfl
theorem wf_macz (fs : Bool) (t : Src) : Instr.wf (.macz fs t) =
    (t.isS : Bool) := rfl
theorem wf_macrd (g : Guard) (fs : Bool) (raw : Bool) (slot : BitVec 3) (d : Dst) (t : Src) (row : Src) (col : Src) : Instr.wf (.macrd g fs raw slot d t row col) =
    (g.ok && d.isVec && d.ok64 && t.isS && row.okUni && col.okUni && (!raw || slot == 0) : Bool) := rfl
theorem wf_wsld (fs : Bool) (slot : BitVec 3) (img : BitVec 13) (t : Src) (ts : Src) : Instr.wf (.wsld fs slot img t ts) =
    (t.isS && (ts.isS || ts.isNone) : Bool) := rfl
theorem wf_wsinfoCal (d : Dst) (e : Src) : Instr.wf (.wsinfoCal d e) =
    (d.isS && d.ok64 && e.okUni : Bool) := rfl
theorem wf_wsinfoNow (d : Dst) : Instr.wf (.wsinfoNow d) =
    (d.isS : Bool) := rfl
theorem wf_mquery (d : Dst) (t : Src) : Instr.wf (.mquery d t) =
    (d.isS && d.ok64 && t.okUni : Bool) := rfl
theorem wf_dcopy (fs : Bool) (scope : Scope) (r : RecRef) : Instr.wf (.dcopy fs scope r) =
    (r.ok && scope != .team : Bool) := rfl
theorem wf_dfill (fs : Bool) (scope : Scope) (wide : Bool) (r : RecRef) (v : Src) : Instr.wf (.dfill fs scope wide r v) =
    (r.ok && scope != .team && (v.isNone || v.isConst || (if wide then v.isSPair else v.isS)) : Bool) := rfl
theorem wf_grpMake (d : Dst) (key : Src) (n : Src) (rank : Src) : Instr.wf (.grpMake d key n rank) =
    (d.isS && key.okUni && n.okUni && rank.okUni : Bool) := rfl
theorem wf_grpFree (g : Src) : Instr.wf (.grpFree g) =
    (g.isS : Bool) := rfl
theorem wf_grpInfo (d : Dst) (g : Src) : Instr.wf (.grpInfo d g) =
    (d.isS && d.ok64 && g.isS : Bool) := rfl
theorem wf_coll (fs : Bool) (form : CollForm) (op : CollRed) (ty : CollType) (src : Src) (dst : Src) (grp : Src) (hs : BitVec 12) (hd : BitVec 12) (n : Word) : Instr.wf (.coll fs form op ty src dst grp hs hd n) =
    (src.okUni && dst.okUni && grp.isS && 1 ≤ n.toNat && n.toNat ≤ 2 ^ 28 && (match form, ty with | .redscat, .int t | .allred, .int t => t.plain4 | .redscat, .flt _ | .allred, .flt _ => true | _, .int t => (t == .b32 || t == .n64) && op == .add | _, .flt _ => false) : Bool) := rfl
theorem wf_gbarSync (g : Src) : Instr.wf (.gbarSync g) =
    (g.isS : Bool) := rfl
theorem wf_gbarArv (fs : Bool) (g : Src) : Instr.wf (.gbarArv fs g) =
    (g.isS : Bool) := rfl
theorem wf_sclook (g : Guard) (fs : Bool) (d : Dst) (a : Src) : Instr.wf (.sclook g fs d a) =
    (vecRule true g .none [] && d.isVec && d.aligned 2 && !a.isConst && a.ok64 && (a.isVec || a.isS) : Bool) := rfl
theorem wf_scwait (g : Guard) (d : Dst) (a : Src) : Instr.wf (.scwait g d a) =
    (vecRule true g .none [] && d.isVec && d.aligned 2 && a.ok64 && (a.isVec || a.isS) : Bool) := rfl
theorem wf_scfill (fs : Bool) (item : Src) : Instr.wf (.scfill fs item) =
    (item.okUni : Bool) := rfl
theorem wf_scinv (fs : Bool) (obj : Src) (tag : Src) : Instr.wf (.scinv fs obj tag) =
    (obj.okUni && tag.okUni : Bool) := rfl
theorem wf_frameCtx (d : Dst) : Instr.wf (.frameCtx d) =
    (!d.isVec && d.ok64 : Bool) := rfl
theorem wf_frameTag (d : Dst) (tag : Src) : Instr.wf (.frameTag d tag) =
    (!d.isVec && d.ok64 && tag.okUni : Bool) := rfl
theorem wf_gtake (k : BitVec 6) : Instr.wf (.gtake k) =
    (k.toNat % 8 == 0 : Bool) := rfl
theorem wf_pfill (fs : Bool) (item : Src) : Instr.wf (.pfill fs item) =
    (item.okUni : Bool) := rfl
theorem wf_pfail (fs : Bool) (item : Src) (status : Src) : Instr.wf (.pfail fs item status) =
    (item.okUni && status.okUni : Bool) := rfl
theorem wf_prangeAdd (fs : Bool) (r : RecRef) (hw : Src) : Instr.wf (.prangeAdd fs r hw) =
    (r.ok && hw.isS : Bool) := rfl
theorem wf_prangeRm (fs : Bool) (hw : Src) : Instr.wf (.prangeRm fs hw) =
    (hw.isS : Bool) := rfl
theorem wf_prangeClr (fs : Bool) (hw : Src) : Instr.wf (.prangeClr fs hw) =
    (hw.isS : Bool) := rfl
theorem wf_prangeLayer (fs : Bool) (r : RecRef) (n : Src) : Instr.wf (.prangeLayer fs r n) =
    (r.ok && n.okUni : Bool) := rfl
theorem wf_rtrace (fs : Bool) (first : Bool) (sr : Src) (n : Src) (sh : Src) (hr : BitVec 12) (hs : BitVec 12) (hh : BitVec 12) : Instr.wf (.rtrace fs first sr n sh hr hs hh) =
    (sr.okUni && n.okUni && sh.okUni : Bool) := rfl
theorem wf_rsort (fs : Bool) (first : Bool) (sr : Src) (n : Src) (sh : Src) (hr : BitVec 12) (hs : BitVec 12) (hh : BitVec 12) : Instr.wf (.rsort fs first sr n sh hr hs hh) =
    (sr.okUni && n.okUni && sh.okUni : Bool) := rfl
theorem wf_rhit (g : Guard) (short : Bool) (d : Dst) (i : Src) (h : BitVec 12) (imm : BitVec 20) (rec : Option PredIx) : Instr.wf (.rhit g short d i h imm rec) =
    (g.ok && d.isVec && d.aligned (if short then 2 else 3) && !i.isImm : Bool) := rfl
theorem wf_rhitCnt (d : Dst) : Instr.wf (.rhitCnt d) =
    (d.isS && d.ok64 : Bool) := rfl
theorem wf_rprog (fs : Bool) (kind : BitVec 8) (r : RecRef) : Instr.wf (.rprog fs kind r) =
    (kind.toNat ≤ 15 && r.ok : Bool) := rfl
theorem wf_visJob (fs : Bool) (d : Dst) (r : RecRef) : Instr.wf (.visJob fs d r) =
    (!d.isVec && r.ok : Bool) := rfl
theorem wf_visGet (g : Guard) (d : Dst) (job : Src) (rec : Option PredIx) : Instr.wf (.visGet g d job rec) =
    (g.ok && d.isVec && d.aligned 2 && job.okUni : Bool) := rfl
theorem wf_trap (n : BitVec 8) : Instr.wf (.trap n) =
    (true : Bool) := rfl
theorem wf_bkpt (n : BitVec 8) : Instr.wf (.bkpt n) =
    (true : Bool) := rfl
theorem wf_csrr (wide : Bool) (d : Dst) (csr : BitVec 12) : Instr.wf (.csrr wide d csr) =
    (d.isS && (!wide || (d.ok64 && csr.toNat % 2 == 0)) : Bool) := rfl
theorem wf_csrw (d : Dst) (a : Src) (csr : BitVec 12) : Instr.wf (.csrw d a csr) =
    (!d.isVec && a.okUni && !a.isNone : Bool) := rfl
theorem wf_ksave (set : KsaveSet) (m : DWord) : Instr.wf (.ksave set m) =
    ((match set with | .p => m.toNat < 2 ^ 7 | _ => true) : Bool) := rfl
theorem wf_tlbi (fs : Bool) (op : TlbiOp) (scope : Scope) (a : Src) : Instr.wf (.tlbi fs op scope a) =
    ((scope == .die || scope == .pkg || scope == .pod) && (match op with | .va | .gpa => a.isSPair | .ctx | .vm => a.isS | .all => a.isNone) : Bool) := rfl
theorem wf_spawn (fs : Bool) (d : Dst) (r : RecRef) (shape : Src) : Instr.wf (.spawn fs d r shape) =
    (!d.isVec && r.ok && (shape.isNone || shape.isSPair) : Bool) := rfl
theorem wf_qpost (fs : Bool) (q : BitVec 8) (r : RecRef) : Instr.wf (.qpost fs q r) =
    (q.toNat ≤ 63 && r.ok : Bool) := rfl
theorem wf_qwaitDone (d : Dst) (n : Src) (q : BitVec 8) : Instr.wf (.qwaitDone d n q) =
    (!d.isVec && n.okUni && q.toNat ≤ 63 : Bool) := rfl
theorem wf_qwaitSpace (d : Dst) (q : BitVec 8) : Instr.wf (.qwaitSpace d q) =
    (!d.isVec && q.toNat ≤ 63 : Bool) := rfl

end Sys2Proof
end

