-- ==== Sys2Proof/Laws/Encode.lean ====
section
/-! SUPPORT. Encodings: each operand code decodes to its operand; the encoding of each instruction, one lemma an arm of
`encode`; what every encoding has in common. -/

namespace Sys2Proof

/-! ### Operand codes -/

theorem Special.dec_code (x : Special) : Special.dec x.code = some x := by cases x <;> rfl
theorem Src.dec_code {x : Src} (h : ∀ w, x ≠ .imm w) : Src.dec x.code = some x := by
  cases x with
  | v n => clear h; revert n; decide
  | s n => clear h; revert n; decide
  | sp x => cases x <;> rfl
  | k n => clear h; revert n; decide
  | imm w => exact absurd rfl (h w)
  | none => rfl
theorem Dst.dec_code (x : Dst) : Dst.dec x.code = some x := by
  cases x with
  | v n => revert n; decide
  | s n => revert n; decide
  | none => rfl
theorem predDec_code (p : PredIx) : predDec (predCode p) = some p := by revert p; decide
theorem optPredDec_code (p : Option PredIx) : optPredDec (optPredCode p) = some p := by
  cases p with
  | none => rfl
  | some p => revert p; decide
theorem PDst.dec_code (x : PDst) : PDst.dec x.code = some x := by
  cases x with
  | v n => revert n; decide
  | s n => revert n; decide
  | p n => revert n; decide
  | none => rfl
theorem sDec_code (n : BitVec 6) : sDec (sCode n) = some n := by revert n; decide
theorem IType.dec_code (x : IType) : IType.dec x.code = some x := by cases x <;> rfl
theorem FType.dec_code (x : FType) : FType.dec x.code = some x := by cases x <;> rfl
theorem Scope.dec_code (x : Scope) : Scope.dec x.code = some x := by cases x <;> rfl
theorem Width.dec_code (x : Width) : Width.dec x.code = some x := by cases x <;> rfl
theorem Order.decAtom_code (x : Order) : Order.decAtom x.atomCode = some x := by cases x <;> rfl
theorem Order.decMemSub_code {x : Order} (h : x ≠ .acqrel) : Order.decMemSub x.memSub = some x := by
  cases x <;> first | rfl | exact absurd rfl h
theorem ICond.dec_code (x : ICond) : ICond.dec x.code = x := by cases x <;> rfl
theorem FCond.dec_code (x : FCond) : FCond.dec x.code = x := by cases x <;> rfl
theorem Combine.dec_codes (x : Combine) : Combine.dec x.codes.1 x.codes.2 = some x := by
  cases x with
  | none => rfl
  | and p => revert p; decide
  | or p => revert p; decide
  | xor p => revert p; decide
theorem PlogOp.dec_code (x : PlogOp) : PlogOp.dec x.code = some x := by cases x <;> rfl
theorem ShflMode.dec_code (x : ShflMode) : ShflMode.dec x.code = some x := by cases x <;> rfl
theorem RedOp.dec_codes (x : RedOp) : RedOp.dec x.codes.1 x.codes.2.1 (x.codes.2.2 == 1) = some x := by
  cases x <;> rename_i t <;> cases t <;> rfl
theorem AtomOp.dec_codes (x : AtomOp) : AtomOp.dec x.codes.1 x.codes.2.1 (x.codes.2.2 == 1) = some x := by
  cases x <;> rename_i t <;> cases t <;> rfl
theorem bit1_eq_one (b : Bool) : (bit1 b == 1) = b := by cases b <;> rfl

/-! ### Source B -/

theorem Enc.srcB_imm (e : Enc) (w : Word) : e.srcB (.imm w) = { e with len := 1, b := 0xFF, p3 := w } := rfl

theorem Enc.srcB_code (e : Enc) {b : Src} (h : ∀ w, b ≠ .imm w) : e.srcB b = { e with b := b.code } := by
  cases b <;> first | rfl | exact absurd rfl (h _)

@[simp] theorem Enc.srcB_op (e : Enc) (b : Src) : (e.srcB b).op = e.op := by cases b <;> rfl
@[simp] theorem Enc.srcB_p4 (e : Enc) (b : Src) : (e.srcB b).p4 = e.p4 := by cases b <;> rfl
@[simp] theorem Enc.mem_op (e : Enc) (m : MemRef) : (e.mem m).op = e.op := by
  cases h : m.long <;> simp [Enc.mem, h]

/-- What every encoding has in common: a listed opcode, two to four parcels, and zero in the parcels it does not have. -/
def Enc.canon (e : Enc) : Prop := opcodeListed e.op = true ∧ e.len ≠ 3 ∧ (e.len = 0 → e.p3 = 0) ∧ (e.len ≠ 2 → e.p4 = 0)

theorem Enc.canon0 {e : Enc} (op : BitVec 8) (h : opcodeListed op = true) (ho : e.op = op) (hl : e.len = 0) (h3 : e.p3 = 0)
    (h4 : e.p4 = 0) : e.canon := ⟨ho ▸ h, by simp [hl], fun _ => h3, fun _ => h4⟩

theorem Enc.canon1 {e : Enc} (op : BitVec 8) (h : opcodeListed op = true) (ho : e.op = op) (hl : e.len = 1) (h4 : e.p4 = 0) :
    e.canon := ⟨ho ▸ h, by simp [hl], by simp [hl], fun _ => h4⟩

theorem Enc.canon2 {e : Enc} (op : BitVec 8) (h : opcodeListed op = true) (ho : e.op = op) (hl : e.len = 2) : e.canon :=
  ⟨ho ▸ h, by simp [hl], by simp [hl], by simp [hl]⟩

theorem Enc.canon_srcB {e : Enc} (op : BitVec 8) (h : opcodeListed op = true) (b : Src) (he : e.op = op) (hl : e.len = 0)
    (h3 : e.p3 = 0) (h4 : e.p4 = 0) : (e.srcB b).canon := by
  have ho : opcodeListed e.op = true := he ▸ h
  cases b with
  | imm w => exact ⟨ho, by simp [Enc.srcB], by simp [Enc.srcB], fun _ => h4⟩
  | _ => exact ⟨ho, by simp [Enc.srcB, hl], fun _ => h3, fun _ => h4⟩

theorem Enc.canon_mem {e : Enc} (op : BitVec 8) (h : opcodeListed op = true) (m : MemRef) (he : e.op = op) (h4 : e.p4 = 0) :
    (e.mem m).canon := by
  have ho : opcodeListed e.op = true := he ▸ h
  cases h : m.long
  · exact ⟨by simpa using ho, by simp [Enc.mem, h], by simp [Enc.mem, h], by simp [Enc.mem, h, h4]⟩
  · exact ⟨by simpa using ho, by simp [Enc.mem, h], by simp [Enc.mem, h], by simp [Enc.mem, h]⟩

/-- The same in fields that do not matter here. -/
theorem Enc.canon_of {e e' : Enc} (h : e'.canon) (ho : e.op = e'.op) (hl : e.len = e'.len) (h3 : e.p3 = e'.p3)
    (h4 : e.p4 = e'.p4) : e.canon := by
  unfold Enc.canon at *; rw [ho, hl, h3, h4]; exact h

/-! ### The arms of `encode` -/

theorem encode_nop : encode (.nop) = some (Enc.plain 0x00) := rfl
theorem encode_bra_always (off : Word) : encode (.bra .always off) = some { Enc.plain 0x01 1 with p3 := off } := rfl
theorem encode_bra_z (s : BitVec 6) (off : Word) : encode (.bra (.z s) off) =
    some { Enc.plain 0x01 1 with a := sCode s, sub := 1, p3 := off } := rfl
theorem encode_bra_nz (s : BitVec 6) (off : Word) : encode (.bra (.nz s) off) =
    some { Enc.plain 0x01 1 with a := sCode s, sub := 2, p3 := off } := rfl
theorem encode_brv (p : PredIx) (neg : Bool) (taken : Word) (jn : Word) : encode (.brv p neg taken jn) =
    some { Enc.plain 0x02 2 with a := predCode p, sub := (bit1 neg).setWidth 3, p3 := taken, p4 := jn } := rfl
theorem encode_brm (pairs : List BrmPair) (jn : BitVec 12) : encode (.brm pairs jn) =
    some { Enc.plain 0x03 2 with a := brmPred pairs 0, b := brmPred pairs 1, c := brmPred pairs 2, dst := brmPred pairs 3, sub := BitVec.ofNat 3 (pairs.length - 1), md := ((0 : BitVec 4) ++ brmNeg pairs 3 ++ brmNeg pairs 2 ++ brmNeg pairs 1 ++ brmNeg pairs 0 : BitVec 8), p3 := lo32 (brmParcels pairs jn), p4 := hi32 (brmParcels pairs jn) } := rfl
theorem encode_join : encode (.join) = some (Enc.plain 0x04) := rfl
theorem encode_brk (g : Guard) (n : BitVec 8) : encode (.brk g n) = some ({ Enc.plain 0x05 with c := n }.guard g) := rfl
theorem encode_cont (g : Guard) (n : BitVec 8) : encode (.cont g n) = some ({ Enc.plain 0x06 with c := n }.guard g) := rfl
theorem encode_call_direct (off : Word) : encode (.call (.direct off)) = some { Enc.plain 0x07 1 with p3 := off } := rfl
theorem encode_call_ind (s : BitVec 6) : encode (.call (.ind s)) =
    some { Enc.plain 0x07 1 with a := sCode s, sub := 1 } := rfl
theorem encode_ret : encode (.ret) = some (Enc.plain 0x08) := rfl
theorem encode_exit (g : Guard) : encode (.exit g) = some ((Enc.plain 0x09).guard g) := rfl
theorem encode_reorder (signed : Bool) (k : BitVec 7) : encode (.reorder signed k) =
    some { Enc.plain 0x0A with a := k.setWidth 8, ty := if signed then 0 else 1 } := rfl
theorem encode_loop (off : Word) : encode (.loop off) = some { Enc.plain 0x0B 1 with p3 := off } := rfl
theorem encode_next (p : PredIx) (neg : Bool) : encode (.next p neg) =
    some { Enc.plain 0x0C with a := predCode p, sub := (bit1 neg).setWidth 3 } := rfl
theorem encode_spin : encode (.spin) = some (Enc.plain 0x0D) := rfl
theorem encode_add (x : Alu) (sat : Bool) : encode (.add x sat) = some (encAlu 0x10 x 0 ((bit1 sat).setWidth 8)) := rfl
theorem encode_sub (x : Alu) (sat : Bool) : encode (.sub x sat) = some (encAlu 0x11 x 0 ((bit1 sat).setWidth 8)) := rfl
theorem encode_mul (x : Alu) : encode (.mul x) = some (encAlu 0x12 x) := rfl
theorem encode_mulhi (x : Alu) : encode (.mulhi x) = some (encAlu 0x13 x) := rfl
theorem encode_mad (x : Alu) (sat : Bool) : encode (.mad x sat) = some (encAlu 0x14 x 0 ((bit1 sat).setWidth 8)) := rfl
theorem encode_min (x : Alu) : encode (.min x) = some (encAlu 0x15 x) := rfl
theorem encode_max (x : Alu) : encode (.max x) = some (encAlu 0x16 x) := rfl
theorem encode_absn (x : Alu) (neg : Bool) (sat : Bool) : encode (.absn x neg sat) =
    some (encAlu 0x17 x ((bit1 neg).setWidth 3) ((bit1 sat).setWidth 8)) := rfl
theorem encode_and (x : Alu) (inv : Bool) : encode (.and x inv) = some (encAlu 0x18 x ((bit1 inv).setWidth 3)) := rfl
theorem encode_or (x : Alu) (inv : Bool) : encode (.or x inv) = some (encAlu 0x19 x ((bit1 inv).setWidth 3)) := rfl
theorem encode_xor (x : Alu) (inv : Bool) : encode (.xor x inv) = some (encAlu 0x1A x ((bit1 inv).setWidth 3)) := rfl
theorem encode_shl (x : Alu) : encode (.shl x) = some (encAlu 0x1B x) := rfl
theorem encode_shr (x : Alu) : encode (.shr x) = some (encAlu 0x1C x) := rfl
theorem encode_rot (x : Alu) (right : Bool) : encode (.rot x right) = some (encAlu 0x1D x ((bit1 right).setWidth 3)) := rfl
theorem encode_bcnt (x : Alu) (op : BcntOp) : encode (.bcnt x op) = some (encAlu 0x1E x op.code) := rfl
theorem encode_bitf (x : Alu) (op : BitfOp) : encode (.bitf x op) = some (encAlu 0x1F x op.code) := rfl
theorem encode_setp (g : Guard) (ty : IType) (cond : ICond) (comb : Combine) (pd : PredIx) (a : Src) (b : Src) : encode (.setp g ty cond comb pd a b) =
    some (({ Enc.plain 0x20 with dst := predCode pd, a := a.code, c := comb.codes.2, sub := cond.code, ty := ty.code, md := comb.codes.1 }.guard g).srcB b) := rfl
theorem encode_sel (x : Alu) (pc : PredIx) : encode (.sel x pc) = some { encAlu 0x21 x with c := predCode pc } := rfl
theorem encode_plog (g : Guard) (op : PlogOp) (pd : PredIx) (pa : PredIx) (pb : PredIx) : encode (.plog g op pd pa pb) =
    some ({ Enc.plain 0x22 with dst := predCode pd, a := predCode pa, b := if op == PlogOp.not then 0xFF else predCode pb, sub := op.code }.guard g) := rfl
theorem encode_mov (x : Alu) : encode (.mov x) = some (encAlu 0x23 x) := rfl
theorem encode_movi_i32 (g : Guard) (ty : IType) (d : Dst) (w : Word) : encode (.movi g ty d (.i32 w)) =
    some ({ Enc.plain 0x24 1 with dst := d.code, ty := ty.code, p3 := w }.guard g) := rfl
theorem encode_movi_i64 (g : Guard) (ty : IType) (d : Dst) (w : DWord) : encode (.movi g ty d (.i64 w)) =
    some ({ Enc.plain 0x24 2 with dst := d.code, ty := ty.code, p3 := lo32 w, p4 := hi32 w }.guard g) := rfl
theorem encode_lea (x : Alu) (x32 : Bool) (sh : BitVec 5) : encode (.lea x x32 sh) =
    some (encAlu 0x25 x 0 ((0 : BitVec 2) ++ bit1 x32 ++ sh : BitVec 8)) := rfl
theorem encode_div (x : Alu) (r : Bool) (nz : Bool) : encode (.div x r nz) =
    some (encAlu 0x26 x ((bit1 r).setWidth 3) ((bit1 nz).setWidth 8)) := rfl
theorem encode_ext_sext (x : Alu) (n : BitVec 6) : encode (.ext x (.sext n)) = some (encAlu 0x27 x 0 (n.setWidth 8)) := rfl
theorem encode_ext_zext (x : Alu) (n : BitVec 6) : encode (.ext x (.zext n)) = some (encAlu 0x27 x 1 (n.setWidth 8)) := rfl
theorem encode_ext_trunc (x : Alu) : encode (.ext x .trunc) = some (encAlu 0x27 x 2) := rfl
theorem encode_addc (x : Alu) (ci : Option PredIx) (co : PredIx) : encode (.addc x ci co) =
    some { encAlu 0x28 x 0 (co.setWidth 8) with c := optPredCode ci } := rfl
theorem encode_subb (x : Alu) (bi : Option PredIx) (bo : PredIx) : encode (.subb x bi bo) =
    some { encAlu 0x29 x 0 (bo.setWidth 8) with c := optPredCode bi } := rfl
theorem encode_mulw (x : Alu) : encode (.mulw x) = some (encAlu 0x2A x) := rfl
theorem encode_csub_p (x : Alu) (pc : PredIx) : encode (.csub x (.p pc)) =
    some { encAlu 0x2B x 0 with c := predCode pc } := rfl
theorem encode_csub_ge (x : Alu) (pq : PredIx) : encode (.csub x (.ge pq)) = some (encAlu 0x2B x 1 (pq.setWidth 8)) := rfl
theorem encode_clamp (x : Alu) : encode (.clamp x) = some (encAlu 0x2C x) := rfl
theorem encode_fadd (x : Fpu) : encode (.fadd x) = some (encFpu 0x30 x) := rfl
theorem encode_fsub (x : Fpu) : encode (.fsub x) = some (encFpu 0x31 x) := rfl
theorem encode_fmul (x : Fpu) : encode (.fmul x) = some (encFpu 0x32 x) := rfl
theorem encode_fma (x : Fpu) : encode (.fma x) = some (encFpu 0x33 x) := rfl
theorem encode_fmin (x : Fpu) : encode (.fmin x) = some (encFpu 0x34 x) := rfl
theorem encode_fmax (x : Fpu) : encode (.fmax x) = some (encFpu 0x35 x) := rfl
theorem encode_fabsn (x : Fpu) (op : FabsOp) : encode (.fabsn x op) = some (encFpu 0x36 x op.code) := rfl
theorem encode_fsetp (g : Guard) (ty : FType) (cond : FCond) (comb : Combine) (pd : PredIx) (a : Src) (b : Src) : encode (.fsetp g ty cond comb pd a b) =
    some (({ Enc.plain 0x37 with dst := predCode pd, a := a.code, c := comb.codes.2, sub := cond.code, ty := ty.code, md := comb.codes.1 }.guard g).srcB b) := rfl
theorem encode_frcp (x : Fpu) : encode (.frcp x) = some (encFpu 0x38 x) := rfl
theorem encode_frsq (x : Fpu) : encode (.frsq x) = some (encFpu 0x39 x) := rfl
theorem encode_fsqrt (x : Fpu) : encode (.fsqrt x) = some (encFpu 0x3A x) := rfl
theorem encode_fexp2 (x : Fpu) : encode (.fexp2 x) = some (encFpu 0x3B x) := rfl
theorem encode_flog2 (x : Fpu) : encode (.flog2 x) = some (encFpu 0x3C x) := rfl
theorem encode_fsincos (x : Fpu) : encode (.fsincos x) = some (encFpu 0x3D x) := rfl
theorem encode_fdiv (x : Fpu) : encode (.fdiv x) = some (encFpu 0x3E x) := rfl
theorem encode_fclass (x : Fpu) : encode (.fclass x) = some (encFpu 0x3F x) := rfl
theorem encode_cvtif (x : Fpu) (src : IType) : encode (.cvtif x src) = some (encFpu 0x40 x 0 (src.code.setWidth 8)) := rfl
theorem encode_cvtfi (x : Fpu) (dst : IType) : encode (.cvtfi x dst) = some (encFpu 0x41 x 0 (dst.code.setWidth 8)) := rfl
theorem encode_cvtff (x : Fpu) (src : FType) (hi : Bool) : encode (.cvtff x src hi) =
    some (encFpu 0x42 x ((bit1 hi).setWidth 3) (src.code.setWidth 8)) := rfl
theorem encode_frnd (x : Fpu) : encode (.frnd x) = some (encFpu 0x43 x) := rfl
theorem encode_fscal (x : Fpu) (op : FscalOp) : encode (.fscal x op) = some (encFpu 0x44 x op.code) := rfl
theorem encode_dot2 (x : Fpu) : encode (.dot2 x) = some (encFpu 0x45 x) := rfl
theorem encode_qscale (x : Narrow) : encode (.qscale x) = some (encNarrow 0x50 x) := rfl
theorem encode_quant (x : Narrow) : encode (.quant x) = some (encNarrow 0x51 x) := rfl
theorem encode_dequant (x : Narrow) : encode (.dequant x) = some (encNarrow 0x52 x) := rfl
theorem encode_qpack (x : Narrow) : encode (.qpack x) = some (encNarrow 0x53 x) := rfl
theorem encode_qunpack (x : Narrow) : encode (.qunpack x) = some (encNarrow 0x54 x) := rfl
theorem encode_fmtq (x : Narrow) : encode (.fmtq x) = some (encNarrow 0x55 x) := rfl
theorem encode_rngNext (g : Guard) (d : Dst) : encode (.rngNext g d) =
    some ({ Enc.plain 0x56 with dst := d.code }.guard g) := rfl
theorem encode_rngUnif (g : Guard) (d : Dst) : encode (.rngUnif g d) =
    some ({ Enc.plain 0x56 with dst := d.code, sub := 1 }.guard g) := rfl
theorem encode_rngSeed (g : Guard) (a : Src) : encode (.rngSeed g a) =
    some ({ Enc.plain 0x56 with a := a.code, sub := 2 }.guard g) := rfl
theorem encode_shfl (g : Guard) (mode : ShflMode) (wide : Bool) (d : Dst) (a : Src) (b : Src) (r : Option PredIx) : encode (.shfl g mode wide d a b r) =
    some (({ Enc.plain 0x60 with dst := d.code, a := a.code, sub := mode.code, ty := if wide then 4 else 2, md := recMod r }.guard g).srcB b) := rfl
theorem encode_vote_any (g : Guard) (d : PDst) (p : PredIx) : encode (.vote g d (.any p)) =
    some ({ Enc.plain 0x61 with dst := d.code, a := predCode p, sub := 0 }.guard g) := rfl
theorem encode_vote_all (g : Guard) (d : PDst) (p : PredIx) : encode (.vote g d (.all p)) =
    some ({ Enc.plain 0x61 with dst := d.code, a := predCode p, sub := 1 }.guard g) := rfl
theorem encode_vote_uni (g : Guard) (d : PDst) (p : PredIx) : encode (.vote g d (.uni p)) =
    some ({ Enc.plain 0x61 with dst := d.code, a := predCode p, sub := 2 }.guard g) := rfl
theorem encode_vote_eq (g : Guard) (d : PDst) (a : Src) : encode (.vote g d (.eq a)) =
    some ({ Enc.plain 0x61 with dst := d.code, a := a.code, sub := 3 }.guard g) := rfl
theorem encode_ballot_word (g : Guard) (d : Dst) (p : PredIx) (w : Src) : encode (.ballot g d p (.word w)) =
    some (({ Enc.plain 0x62 with dst := d.code, a := predCode p }.guard g).srcB w) := rfl
theorem encode_ballot_wv (g : Guard) (d : Dst) (p : PredIx) : encode (.ballot g d p .wv) =
    some ({ Enc.plain 0x62 with dst := d.code, a := predCode p, sub := 1 }.guard g) := rfl
theorem encode_ballot_cnt (g : Guard) (d : Dst) (p : PredIx) : encode (.ballot g d p .cnt) =
    some ({ Enc.plain 0x62 with dst := d.code, a := predCode p, sub := 2 }.guard g) := rfl
theorem encode_tred (g : Guard) (op : RedOp) (rs : BitVec 3) (d : Dst) (a : Src) : encode (.tred g op rs d a) =
    some ({ Enc.plain 0x63 with dst := d.code, a := a.code, sub := op.codes.1, ty := op.codes.2.1, md := op.codes.2.2, rs }.guard g) := rfl
theorem encode_tscan (g : Guard) (op : RedOp) (excl : Bool) (d : Dst) (a : Src) : encode (.tscan g op excl d a) =
    some ({ Enc.plain 0x64 with dst := d.code, a := a.code, sub := op.codes.1, ty := op.codes.2.1, md := op.codes.2.2 ||| (if excl then 2 else 0) }.guard g) := rfl
theorem encode_bcast (g : Guard) (wide : Bool) (d : Dst) (a : Src) (n : Src) : encode (.bcast g wide d a n) =
    some (({ Enc.plain 0x65 with dst := d.code, a := a.code, ty := if wide then 4 else 2 }.guard g).srcB n) := rfl
theorem encode_ld (x : MemAcc) (sx : Bool) (d : Dst) : encode (.ld x sx d) =
    some { encMem 0x70 x x.ord.memSub sx with dst := d.code } := rfl
theorem encode_st (x : MemAcc) (c : Src) : encode (.st x c) =
    some { encMem 0x71 x x.ord.memSub false with c := c.code } := rfl
theorem encode_ldro (x : MemAcc) (sx : Bool) (d : Dst) : encode (.ldro x sx d) =
    some { encMem 0x72 x 0 sx with dst := d.code } := rfl
theorem encode_lds (x : MemAcc) (sx : Bool) (d : Dst) : encode (.lds x sx d) =
    some { encMem 0x73 x 0 sx with dst := d.code } := rfl
theorem encode_sts (x : MemAcc) (c : Src) : encode (.sts x c) = some { encMem 0x74 x 0 false with c := c.code } := rfl
theorem encode_samp (g : Guard) (fs : Bool) (d : Dst) (u : Src) (v : Src) (q : Src) (h : HRef) : encode (.samp g fs d u v q h) =
    some ({ Enc.plain 0x75 1 with dst := d.code, a := u.code, b := v.code, c := q.code, fs := bit1 fs, p3 := ((0 : BitVec 12) ++ h.srcb ++ h.hidx : BitVec 32) }.guard g) := rfl
theorem encode_pf (x : MemAcc) (level : PfLevel) : encode (.pf x level) = some (encMem 0x76 x level.code false) := rfl
theorem encode_hmap (fs : Bool) (d : Dst) (m : BitVec 6) (r : MemRef) : encode (.hmap fs d m r) =
    some { ({ Enc.plain 0x77 with dst := d.code, fs := bit1 fs }).mem r with c := sCode m } := rfl
theorem encode_hflush (fs : Bool) (op : FlushOp) (h : HRef) : encode (.hflush fs op h) =
    some { Enc.plain 0x78 1 with b := h.srcb, sub := op.code, fs := bit1 fs, p3 := h.hidx.setWidth 32 } := rfl
theorem encode_hquery (g : Guard) (op : QueryOp) (d : Dst) (h : HRef) : encode (.hquery g op d h) =
    some ({ Enc.plain 0x79 1 with dst := d.code, b := h.srcb, sub := (match op with | .info => 0 | .len => 1), p3 := h.hidx.setWidth 32 }.guard g) := rfl
theorem encode_atom (x : AtomAcc) (op : AtomOp) (d : Dst) (c : Src) : encode (.atom x op d c) =
    some { encAtom 0x80 x op.codes.1 op.codes.2.1 op.codes.2.2 with dst := d.code, c := c.code } := rfl
theorem encode_cas (x : AtomAcc) (ty : IType) (d : Dst) (c : Src) : encode (.cas x ty d c) =
    some { encAtom 0x81 x 0 ty.code 0 with dst := d.code, c := c.code } := rfl
theorem encode_red (x : AtomAcc) (op : AtomOp) (c : Src) : encode (.red x op c) =
    some { encAtom 0x82 x op.codes.1 op.codes.2.1 op.codes.2.2 with c := c.code } := rfl
theorem encode_barSync (scope : Scope) (id : BitVec 8) (n : Src) : encode (.barSync scope id n) =
    some { Enc.plain 0x83 with a := n.code, c := id, md := scope.code.setWidth 8 } := rfl
theorem encode_barArv (scope : Scope) (id : BitVec 8) (d : Dst) (n : Src) : encode (.barArv scope id d n) =
    some { Enc.plain 0x83 with dst := d.code, a := n.code, c := id, sub := 1, md := scope.code.setWidth 8 } := rfl
theorem encode_barWait (scope : Scope) (id : BitVec 8) (tok : Src) : encode (.barWait scope id tok) =
    some { Enc.plain 0x83 with a := tok.code, c := id, sub := 2, md := scope.code.setWidth 8 } := rfl
theorem encode_waitaddr (cmp : WaitCmp) (ty : IType) (acq : Bool) (scope : Scope) (d : Dst) (off : Src) (o64 : Bool) (h : HRef) (imm : BitVec 20) (c : Src) (timeout : Word) : encode (.waitaddr cmp ty acq scope d off o64 h imm c timeout) =
    some { Enc.plain 0x84 2 with dst := d.code, a := off.code, b := h.srcb, c := c.code, sub := cmp.code, ty := ty.code, md := ((0 : BitVec 2) ++ bit1 acq ++ bit1 o64 ++ (0 : BitVec 1) ++ scope.code : BitVec 8), p3 := offParcel imm h.hidx, p4 := timeout } := rfl
theorem encode_cbputAcq (d : Dst) (k : BitVec 8) : encode (.cbputAcq d k) =
    some { Enc.plain 0x85 with dst := d.code, c := k } := rfl
theorem encode_cbputCom (k : BitVec 8) : encode (.cbputCom k) = some { Enc.plain 0x85 with c := k, sub := 1 } := rfl
theorem encode_cbget (d : Dst) (k : BitVec 8) : encode (.cbget d k) =
    some { Enc.plain 0x86 with dst := d.code, c := k } := rfl
theorem encode_cbrel (k : BitVec 8) : encode (.cbrel k) = some { Enc.plain 0x87 with c := k } := rfl
theorem encode_fenceAcq (scope : Scope) : encode (.fenceAcq scope) = some (encFence 0 scope) := rfl
theorem encode_fenceRel (scope : Scope) : encode (.fenceRel scope) = some (encFence 1 scope) := rfl
theorem encode_fenceAcqrel (scope : Scope) : encode (.fenceAcqrel scope) = some (encFence 2 scope) := rfl
theorem encode_fenceSc (scope : Scope) : encode (.fenceSc scope) = some (encFence 3 scope) := rfl
theorem encode_fenceRo (scope : Scope) : encode (.fenceRo scope) = some (encFence 4 scope) := rfl
theorem encode_fenceOpr (scope : Scope) : encode (.fenceOpr scope) = some (encFence 5 scope) := rfl
theorem encode_waitf (any : Bool) (m : BitVec 12) (d : Dst) : encode (.waitf any m d) =
    some { Enc.plain 0x89 with dst := d.code, c := m.setWidth 8, sub := (bit1 any).setWidth 3, md := (m >>> 8).setWidth 8 } := rfl
theorem encode_sig (fs : Bool) (set : Bool) (eng : Bool) (wide : Bool) (scope : Scope) (m : MemRef) (v : Src) : encode (.sig fs set eng wide scope m v) =
    some { ({ Enc.plain 0x8A with c := v.code, sub := (bit1 set).setWidth 3, ty := if wide then 4 else 1, fs := bit1 fs, md := ((0 : BitVec 4) ++ bit1 eng ++ scope.code : BitVec 8) }).mem m with dst := 0xFF } := rfl
theorem encode_cbinit (k : BitVec 8) (h : BitVec 12) (size : Src) (count : Src) : encode (.cbinit k h size count) =
    some { Enc.plain 0x8B 1 with a := size.code, b := count.code, c := k, p3 := h.setWidth 32 } := rfl
theorem encode_tdecl (fs : Bool) (r : RecRef) (hb : HRef) : encode (.tdecl fs r hb) =
    some { (Enc.plain 0x90 2).record r with c := hb.srcb, fs := bit1 fs, p4 := hb.hidx.setWidth 32 } := rfl
theorem encode_tdeclRm (fs : Bool) (hb : HRef) : encode (.tdeclRm fs hb) =
    some { Enc.plain 0x90 2 with c := hb.srcb, fs := bit1 fs, sub := 1, p4 := hb.hidx.setWidth 32 } := rfl
theorem encode_ttile (d : Dst) (r : RecRef) (hb : HRef) : encode (.ttile d r hb) =
    some { (Enc.plain 0x91 2).record r with dst := d.code, c := hb.srcb, p4 := hb.hidx.setWidth 32 } := rfl
theorem encode_topenR (t : Src) : encode (.topenR t) = some { Enc.plain 0x92 with a := t.code } := rfl
theorem encode_topenW (t : Src) : encode (.topenW t) = some { Enc.plain 0x92 with a := t.code, sub := 1 } := rfl
theorem encode_topenWRecall (t : Src) : encode (.topenWRecall t) = some { Enc.plain 0x92 with a := t.code, sub := 2 } := rfl
theorem encode_tseal (fs : Bool) (t : Src) : encode (.tseal fs t) =
    some { Enc.plain 0x93 with a := t.code, fs := bit1 fs } := rfl
theorem encode_tdrop (fs : Bool) (t : Src) : encode (.tdrop fs t) =
    some { Enc.plain 0x94 with a := t.code, fs := bit1 fs } := rfl
theorem encode_tsplit (d : Dst) (t : Src) (k : Src) (c : Src) : encode (.tsplit d t k c) =
    some { Enc.plain 0x95 with dst := d.code, a := t.code, b := k.code, c := c.code } := rfl
theorem encode_tfree (t : Src) : encode (.tfree t) = some { Enc.plain 0x96 with a := t.code } := rfl
theorem encode_tquery (d : Dst) (t : Src) : encode (.tquery d t) =
    some { Enc.plain 0x97 with dst := d.code, a := t.code } := rfl
theorem encode_menq (fs : Bool) (slot : BitVec 3) (d : Dst) (k : BitVec 6) : encode (.menq fs slot d k) =
    some { Enc.plain 0xA0 with dst := d.code, a := sCode k, rs := slot, fs := bit1 fs } := rfl
theorem encode_mwaitId (d : Dst) (t : Src) : encode (.mwaitId d t) =
    some { Enc.plain 0xA1 with dst := d.code, a := t.code } := rfl
theorem encode_mwaitFlag (fs : Bool) (t : Src) : encode (.mwaitFlag fs t) =
    some { Enc.plain 0xA1 with a := t.code, sub := 1, fs := bit1 fs } := rfl
theorem encode_mwld (fs : Bool) (slot : BitVec 3) (d : Dst) (t : Src) (ts : Src) : encode (.mwld fs slot d t ts) =
    some { Enc.plain 0xA2 with dst := d.code, a := t.code, b := ts.code, rs := slot, fs := bit1 fs } := rfl
theorem encode_mwrel (r : Src) : encode (.mwrel r) = some { Enc.plain 0xA3 with a := r.code } := rfl
theorem encode_macz (fs : Bool) (t : Src) : encode (.macz fs t) =
    some { Enc.plain 0xA4 with a := t.code, fs := bit1 fs } := rfl
theorem encode_macrd (g : Guard) (fs : Bool) (raw : Bool) (slot : BitVec 3) (d : Dst) (t : Src) (row : Src) (col : Src) : encode (.macrd g fs raw slot d t row col) =
    some ({ Enc.plain 0xA5 with dst := d.code, a := t.code, b := row.code, c := col.code, rs := slot, fs := bit1 fs, md := (bit1 raw).setWidth 8 }.guard g) := rfl
theorem encode_wsld (fs : Bool) (slot : BitVec 3) (img : BitVec 13) (t : Src) (ts : Src) : encode (.wsld fs slot img t ts) =
    some { Enc.plain 0xA6 1 with a := t.code, b := ts.code, rs := slot, fs := bit1 fs, p3 := img.setWidth 32 } := rfl
theorem encode_wsinfoCal (d : Dst) (e : Src) : encode (.wsinfoCal d e) =
    some { Enc.plain 0xA7 with dst := d.code, a := e.code } := rfl
theorem encode_wsinfoNow (d : Dst) : encode (.wsinfoNow d) = some { Enc.plain 0xA7 with dst := d.code, sub := 1 } := rfl
theorem encode_mquery (d : Dst) (t : Src) : encode (.mquery d t) =
    some { Enc.plain 0xA8 with dst := d.code, a := t.code } := rfl
theorem encode_dcopy (fs : Bool) (scope : Scope) (r : RecRef) : encode (.dcopy fs scope r) =
    some { (Enc.plain 0xB0 1).record r with fs := bit1 fs, md := scope.code.setWidth 8 } := rfl
theorem encode_dfill (fs : Bool) (scope : Scope) (wide : Bool) (r : RecRef) (v : Src) : encode (.dfill fs scope wide r v) =
    some { (Enc.plain 0xB1 1).record r with c := v.code, fs := bit1 fs, ty := if wide then 4 else 2, md := scope.code.setWidth 8 } := rfl
theorem encode_grpMake (d : Dst) (key : Src) (n : Src) (rank : Src) : encode (.grpMake d key n rank) =
    some { Enc.plain 0xB2 with dst := d.code, a := key.code, b := n.code, c := rank.code } := rfl
theorem encode_grpFree (g : Src) : encode (.grpFree g) = some { Enc.plain 0xB2 with a := g.code, sub := 1 } := rfl
theorem encode_grpInfo (d : Dst) (g : Src) : encode (.grpInfo d g) =
    some { Enc.plain 0xB2 with dst := d.code, a := g.code, sub := 2 } := rfl
theorem encode_coll (fs : Bool) (form : CollForm) (op : CollRed) (ty : CollType) (src : Src) (dst : Src) (grp : Src) (hs : BitVec 12) (hd : BitVec 12) (n : Word) : encode (.coll fs form op ty src dst grp hs hd n) =
    some { Enc.plain 0xB3 2 with a := src.code, b := dst.code, c := grp.code, sub := form.code, fs := bit1 fs, ty := (match ty with | .int t => t.code | .flt t => t.code), md := (op.code ++ (0 : BitVec 1) ++ (match ty with | .int _ => (0 : BitVec 1) | .flt _ => 1) ++ (0 : BitVec 3) : BitVec 8), p3 := ((0 : BitVec 8) ++ hd ++ hs : BitVec 32), p4 := n } := rfl
theorem encode_gbarSync (g : Src) : encode (.gbarSync g) = some { Enc.plain 0xB4 with a := g.code } := rfl
theorem encode_gbarArv (fs : Bool) (g : Src) : encode (.gbarArv fs g) =
    some { Enc.plain 0xB4 with a := g.code, sub := 1, fs := bit1 fs } := rfl
theorem encode_sclook (g : Guard) (fs : Bool) (d : Dst) (a : Src) : encode (.sclook g fs d a) =
    some ({ Enc.plain 0xC0 with dst := d.code, a := a.code, fs := bit1 fs }.guard g) := rfl
theorem encode_scwait (g : Guard) (d : Dst) (a : Src) : encode (.scwait g d a) =
    some ({ Enc.plain 0xC1 with dst := d.code, a := a.code }.guard g) := rfl
theorem encode_scfill (fs : Bool) (item : Src) : encode (.scfill fs item) =
    some { Enc.plain 0xC2 with a := item.code, fs := bit1 fs } := rfl
theorem encode_scinv (fs : Bool) (obj : Src) (tag : Src) : encode (.scinv fs obj tag) =
    some { Enc.plain 0xC3 with a := obj.code, b := tag.code, fs := bit1 fs } := rfl
theorem encode_frameCtx (d : Dst) : encode (.frameCtx d) = some { Enc.plain 0xC4 with dst := d.code } := rfl
theorem encode_frameTag (d : Dst) (tag : Src) : encode (.frameTag d tag) =
    some { Enc.plain 0xC4 with dst := d.code, a := tag.code, sub := 1 } := rfl
theorem encode_gtake (k : BitVec 6) : encode (.gtake k) = some { Enc.plain 0xC5 with dst := sCode k } := rfl
theorem encode_pfill (fs : Bool) (item : Src) : encode (.pfill fs item) =
    some { Enc.plain 0xC6 with a := item.code, fs := bit1 fs } := rfl
theorem encode_pfail (fs : Bool) (item : Src) (status : Src) : encode (.pfail fs item status) =
    some { Enc.plain 0xC7 with a := item.code, b := status.code, fs := bit1 fs } := rfl
theorem encode_prangeAdd (fs : Bool) (r : RecRef) (hw : Src) : encode (.prangeAdd fs r hw) =
    some { (Enc.plain 0xC8 1).record r with c := hw.code, fs := bit1 fs } := rfl
theorem encode_prangeRm (fs : Bool) (hw : Src) : encode (.prangeRm fs hw) =
    some { Enc.plain 0xC8 1 with c := hw.code, sub := 1, fs := bit1 fs } := rfl
theorem encode_prangeClr (fs : Bool) (hw : Src) : encode (.prangeClr fs hw) =
    some { Enc.plain 0xC8 1 with c := hw.code, sub := 2, fs := bit1 fs } := rfl
theorem encode_prangeLayer (fs : Bool) (r : RecRef) (n : Src) : encode (.prangeLayer fs r n) =
    some { (Enc.plain 0xC8 1).record r with c := n.code, sub := 3, fs := bit1 fs } := rfl
theorem encode_rtrace (fs : Bool) (first : Bool) (sr : Src) (n : Src) (sh : Src) (hr : BitVec 12) (hs : BitVec 12) (hh : BitVec 12) : encode (.rtrace fs first sr n sh hr hs hh) =
    some { Enc.plain 0xD0 2 with a := sr.code, b := n.code, c := sh.code, sub := (bit1 first).setWidth 3, fs := bit1 fs, p3 := ((0 : BitVec 8) ++ hr ++ hs : BitVec 32), p4 := hh.setWidth 32 } := rfl
theorem encode_rhit (g : Guard) (short : Bool) (d : Dst) (i : Src) (h : BitVec 12) (imm : BitVec 20) (r : Option PredIx) : encode (.rhit g short d i h imm r) =
    some ({ Enc.plain 0xD1 1 with dst := d.code, a := i.code, sub := (bit1 short).setWidth 3, md := recMod r, p3 := offParcel imm h }.guard g) := rfl
theorem encode_rhitCnt (d : Dst) : encode (.rhitCnt d) = some { Enc.plain 0xD1 1 with dst := d.code, sub := 2 } := rfl
theorem encode_rsort (fs : Bool) (first : Bool) (sr : Src) (n : Src) (sh : Src) (hr : BitVec 12) (hs : BitVec 12) (hh : BitVec 12) : encode (.rsort fs first sr n sh hr hs hh) =
    some { Enc.plain 0xD2 2 with a := sr.code, b := n.code, c := sh.code, sub := (bit1 first).setWidth 3, fs := bit1 fs, p3 := ((0 : BitVec 8) ++ hr ++ hs : BitVec 32), p4 := hh.setWidth 32 } := rfl
theorem encode_rprog (fs : Bool) (kind : BitVec 8) (r : RecRef) : encode (.rprog fs kind r) =
    some { (Enc.plain 0xD3 1).record r with c := kind, fs := bit1 fs } := rfl
theorem encode_visJob (fs : Bool) (d : Dst) (r : RecRef) : encode (.visJob fs d r) =
    some { (Enc.plain 0xD4 1).record r with dst := d.code, fs := bit1 fs } := rfl
theorem encode_visGet (g : Guard) (d : Dst) (job : Src) (r : Option PredIx) : encode (.visGet g d job r) =
    some ({ Enc.plain 0xD4 with dst := d.code, a := job.code, sub := 1, md := recMod r }.guard g) := rfl
theorem encode_trap (n : BitVec 8) : encode (.trap n) = some { Enc.plain 0xE0 with c := n } := rfl
theorem encode_rfe : encode (.rfe) = some (Enc.plain 0xE1) := rfl
theorem encode_csrr (wide : Bool) (d : Dst) (csr : BitVec 12) : encode (.csrr wide d csr) =
    some { Enc.plain 0xE2 1 with dst := d.code, ty := if wide then 4 else 1, p3 := csr.setWidth 32 } := rfl
theorem encode_csrw (d : Dst) (a : Src) (csr : BitVec 12) : encode (.csrw d a csr) =
    some { Enc.plain 0xE3 1 with dst := d.code, a := a.code, ty := 1, p3 := csr.setWidth 32 } := rfl
theorem encode_yield : encode (.yield) = some (Enc.plain 0xE4) := rfl
theorem encode_ksave (set : KsaveSet) (m : DWord) : encode (.ksave set m) =
    some { Enc.plain 0xE5 2 with sub := set.code, p3 := lo32 m, p4 := hi32 m } := rfl
theorem encode_tlbi (fs : Bool) (op : TlbiOp) (scope : Scope) (a : Src) : encode (.tlbi fs op scope a) =
    some { Enc.plain 0xE6 with a := a.code, sub := op.code, fs := bit1 fs, md := scope.code.setWidth 8 } := rfl
theorem encode_bkpt (n : BitVec 8) : encode (.bkpt n) = some { Enc.plain 0xE7 with c := n } := rfl
theorem encode_spawn (fs : Bool) (d : Dst) (r : RecRef) (shape : Src) : encode (.spawn fs d r shape) =
    some { (Enc.plain 0xF0 1).record r with dst := d.code, c := shape.code, fs := bit1 fs } := rfl
theorem encode_qpost (fs : Bool) (q : BitVec 8) (r : RecRef) : encode (.qpost fs q r) =
    some { (Enc.plain 0xF1 1).record r with c := q, fs := bit1 fs } := rfl
theorem encode_qwaitDone (d : Dst) (n : Src) (q : BitVec 8) : encode (.qwaitDone d n q) =
    some { Enc.plain 0xF2 with dst := d.code, a := n.code, c := q } := rfl
theorem encode_qwaitSpace (d : Dst) (q : BitVec 8) : encode (.qwaitSpace d q) =
    some { Enc.plain 0xF2 with dst := d.code, c := q, sub := 1 } := rfl

end Sys2Proof
end

