-- ==== Sys2Proof/Laws/PerInstr.lean ====
section
/-! SUPPORT. What holds of the encoding of every instruction, one lemma a constructor. -/

/-- The encoding of an instruction, where it has one, names an opcode that 02 R55 lists, has two to four parcels, and is
zero in the parcels that it does not have. -/
def Sys2Proof.Laws.ListedOpcode.Statement (i : Sys2Proof.Instr) : Prop :=
  ∀ e, Sys2Proof.encode i = some e → e.canon

namespace Sys2Proof.Laws.ListedOpcode

theorem of_encode {i : Instr} {e : Enc} (h : encode i = some e) (hc : e.canon) : Statement i := by
  intro e' he
  rw [h] at he
  cases he
  exact hc

theorem of_none {i : Instr} (h : encode i = none) : Statement i := by
  intro e he
  rw [h] at he
  cases he

end Sys2Proof.Laws.ListedOpcode

theorem Sys2Proof.Laws.ListedOpcode.nop :
    Sys2Proof.Laws.ListedOpcode.Statement (.nop) := Sys2Proof.Laws.ListedOpcode.of_encode rfl (Sys2Proof.Enc.canon0 0x00 (by decide) rfl rfl rfl rfl)
theorem Sys2Proof.Laws.ListedOpcode.bra (c : BraCond) (off : Word) :
    Sys2Proof.Laws.ListedOpcode.Statement (.bra c off) := by
  cases c with
  | always => exact Sys2Proof.Laws.ListedOpcode.of_encode rfl (Sys2Proof.Enc.canon1 0x01 (by decide) rfl rfl rfl)
  | z _ => exact Sys2Proof.Laws.ListedOpcode.of_encode rfl (Sys2Proof.Enc.canon1 0x01 (by decide) rfl rfl rfl)
  | nz _ => exact Sys2Proof.Laws.ListedOpcode.of_encode rfl (Sys2Proof.Enc.canon1 0x01 (by decide) rfl rfl rfl)
theorem Sys2Proof.Laws.ListedOpcode.brv (p : PredIx) (neg : Bool) (taken : Word) (join : Word) :
    Sys2Proof.Laws.ListedOpcode.Statement (.brv p neg taken join) := Sys2Proof.Laws.ListedOpcode.of_encode rfl (Sys2Proof.Enc.canon2 0x02 (by decide) rfl rfl)
theorem Sys2Proof.Laws.ListedOpcode.brm (pairs : List BrmPair) (join : BitVec 12) :
    Sys2Proof.Laws.ListedOpcode.Statement (.brm pairs join) := Sys2Proof.Laws.ListedOpcode.of_encode rfl (Sys2Proof.Enc.canon2 0x03 (by decide) rfl rfl)
theorem Sys2Proof.Laws.ListedOpcode.join :
    Sys2Proof.Laws.ListedOpcode.Statement (.join) := Sys2Proof.Laws.ListedOpcode.of_encode rfl (Sys2Proof.Enc.canon0 0x04 (by decide) rfl rfl rfl rfl)
theorem Sys2Proof.Laws.ListedOpcode.brk (g : Guard) (n : BitVec 8) :
    Sys2Proof.Laws.ListedOpcode.Statement (.brk g n) := Sys2Proof.Laws.ListedOpcode.of_encode rfl (Sys2Proof.Enc.canon0 0x05 (by decide) rfl rfl rfl rfl)
theorem Sys2Proof.Laws.ListedOpcode.cont (g : Guard) (n : BitVec 8) :
    Sys2Proof.Laws.ListedOpcode.Statement (.cont g n) := Sys2Proof.Laws.ListedOpcode.of_encode rfl (Sys2Proof.Enc.canon0 0x06 (by decide) rfl rfl rfl rfl)
theorem Sys2Proof.Laws.ListedOpcode.call (t : CallTarget) :
    Sys2Proof.Laws.ListedOpcode.Statement (.call t) := by
  cases t with
  | direct _ => exact Sys2Proof.Laws.ListedOpcode.of_encode rfl (Sys2Proof.Enc.canon1 0x07 (by decide) rfl rfl rfl)
  | ind _ => exact Sys2Proof.Laws.ListedOpcode.of_encode rfl (Sys2Proof.Enc.canon1 0x07 (by decide) rfl rfl rfl)
theorem Sys2Proof.Laws.ListedOpcode.ret :
    Sys2Proof.Laws.ListedOpcode.Statement (.ret) := Sys2Proof.Laws.ListedOpcode.of_encode rfl (Sys2Proof.Enc.canon0 0x08 (by decide) rfl rfl rfl rfl)
theorem Sys2Proof.Laws.ListedOpcode.exit (g : Guard) :
    Sys2Proof.Laws.ListedOpcode.Statement (.exit g) := Sys2Proof.Laws.ListedOpcode.of_encode rfl (Sys2Proof.Enc.canon0 0x09 (by decide) rfl rfl rfl rfl)
theorem Sys2Proof.Laws.ListedOpcode.reorder (signed : Bool) (k : BitVec 7) :
    Sys2Proof.Laws.ListedOpcode.Statement (.reorder signed k) := Sys2Proof.Laws.ListedOpcode.of_encode rfl (Sys2Proof.Enc.canon0 0x0A (by decide) rfl rfl rfl rfl)
theorem Sys2Proof.Laws.ListedOpcode.loop (off : Word) :
    Sys2Proof.Laws.ListedOpcode.Statement (.loop off) := Sys2Proof.Laws.ListedOpcode.of_encode rfl (Sys2Proof.Enc.canon1 0x0B (by decide) rfl rfl rfl)
theorem Sys2Proof.Laws.ListedOpcode.next (p : PredIx) (neg : Bool) :
    Sys2Proof.Laws.ListedOpcode.Statement (.next p neg) := Sys2Proof.Laws.ListedOpcode.of_encode rfl (Sys2Proof.Enc.canon0 0x0C (by decide) rfl rfl rfl rfl)
theorem Sys2Proof.Laws.ListedOpcode.spin :
    Sys2Proof.Laws.ListedOpcode.Statement (.spin) := Sys2Proof.Laws.ListedOpcode.of_encode rfl (Sys2Proof.Enc.canon0 0x0D (by decide) rfl rfl rfl rfl)
theorem Sys2Proof.Laws.ListedOpcode.add (x : Alu) (sat : Bool) :
    Sys2Proof.Laws.ListedOpcode.Statement (.add x sat) := Sys2Proof.Laws.ListedOpcode.of_encode rfl (Sys2Proof.Enc.canon_srcB 0x10 (by decide) _ rfl rfl rfl rfl)
theorem Sys2Proof.Laws.ListedOpcode.sub (x : Alu) (sat : Bool) :
    Sys2Proof.Laws.ListedOpcode.Statement (.sub x sat) := Sys2Proof.Laws.ListedOpcode.of_encode rfl (Sys2Proof.Enc.canon_srcB 0x11 (by decide) _ rfl rfl rfl rfl)
theorem Sys2Proof.Laws.ListedOpcode.mul (x : Alu) :
    Sys2Proof.Laws.ListedOpcode.Statement (.mul x) := Sys2Proof.Laws.ListedOpcode.of_encode rfl (Sys2Proof.Enc.canon_srcB 0x12 (by decide) _ rfl rfl rfl rfl)
theorem Sys2Proof.Laws.ListedOpcode.mulhi (x : Alu) :
    Sys2Proof.Laws.ListedOpcode.Statement (.mulhi x) := Sys2Proof.Laws.ListedOpcode.of_encode rfl (Sys2Proof.Enc.canon_srcB 0x13 (by decide) _ rfl rfl rfl rfl)
theorem Sys2Proof.Laws.ListedOpcode.mad (x : Alu) (sat : Bool) :
    Sys2Proof.Laws.ListedOpcode.Statement (.mad x sat) := Sys2Proof.Laws.ListedOpcode.of_encode rfl (Sys2Proof.Enc.canon_srcB 0x14 (by decide) _ rfl rfl rfl rfl)
theorem Sys2Proof.Laws.ListedOpcode.min (x : Alu) :
    Sys2Proof.Laws.ListedOpcode.Statement (.min x) := Sys2Proof.Laws.ListedOpcode.of_encode rfl (Sys2Proof.Enc.canon_srcB 0x15 (by decide) _ rfl rfl rfl rfl)
theorem Sys2Proof.Laws.ListedOpcode.max (x : Alu) :
    Sys2Proof.Laws.ListedOpcode.Statement (.max x) := Sys2Proof.Laws.ListedOpcode.of_encode rfl (Sys2Proof.Enc.canon_srcB 0x16 (by decide) _ rfl rfl rfl rfl)
theorem Sys2Proof.Laws.ListedOpcode.absn (x : Alu) (neg : Bool) (sat : Bool) :
    Sys2Proof.Laws.ListedOpcode.Statement (.absn x neg sat) := Sys2Proof.Laws.ListedOpcode.of_encode rfl (Sys2Proof.Enc.canon_srcB 0x17 (by decide) _ rfl rfl rfl rfl)
theorem Sys2Proof.Laws.ListedOpcode.and (x : Alu) (inv : Bool) :
    Sys2Proof.Laws.ListedOpcode.Statement (.and x inv) := Sys2Proof.Laws.ListedOpcode.of_encode rfl (Sys2Proof.Enc.canon_srcB 0x18 (by decide) _ rfl rfl rfl rfl)
theorem Sys2Proof.Laws.ListedOpcode.or (x : Alu) (inv : Bool) :
    Sys2Proof.Laws.ListedOpcode.Statement (.or x inv) := Sys2Proof.Laws.ListedOpcode.of_encode rfl (Sys2Proof.Enc.canon_srcB 0x19 (by decide) _ rfl rfl rfl rfl)
theorem Sys2Proof.Laws.ListedOpcode.xor (x : Alu) (inv : Bool) :
    Sys2Proof.Laws.ListedOpcode.Statement (.xor x inv) := Sys2Proof.Laws.ListedOpcode.of_encode rfl (Sys2Proof.Enc.canon_srcB 0x1A (by decide) _ rfl rfl rfl rfl)
theorem Sys2Proof.Laws.ListedOpcode.shl (x : Alu) :
    Sys2Proof.Laws.ListedOpcode.Statement (.shl x) := Sys2Proof.Laws.ListedOpcode.of_encode rfl (Sys2Proof.Enc.canon_srcB 0x1B (by decide) _ rfl rfl rfl rfl)
theorem Sys2Proof.Laws.ListedOpcode.shr (x : Alu) :
    Sys2Proof.Laws.ListedOpcode.Statement (.shr x) := Sys2Proof.Laws.ListedOpcode.of_encode rfl (Sys2Proof.Enc.canon_srcB 0x1C (by decide) _ rfl rfl rfl rfl)
theorem Sys2Proof.Laws.ListedOpcode.rot (x : Alu) (right : Bool) :
    Sys2Proof.Laws.ListedOpcode.Statement (.rot x right) := Sys2Proof.Laws.ListedOpcode.of_encode rfl (Sys2Proof.Enc.canon_srcB 0x1D (by decide) _ rfl rfl rfl rfl)
theorem Sys2Proof.Laws.ListedOpcode.bcnt (x : Alu) (op : BcntOp) :
    Sys2Proof.Laws.ListedOpcode.Statement (.bcnt x op) := Sys2Proof.Laws.ListedOpcode.of_encode rfl (Sys2Proof.Enc.canon_srcB 0x1E (by decide) _ rfl rfl rfl rfl)
theorem Sys2Proof.Laws.ListedOpcode.bitf (x : Alu) (op : BitfOp) :
    Sys2Proof.Laws.ListedOpcode.Statement (.bitf x op) := Sys2Proof.Laws.ListedOpcode.of_encode rfl (Sys2Proof.Enc.canon_srcB 0x1F (by decide) _ rfl rfl rfl rfl)
theorem Sys2Proof.Laws.ListedOpcode.setp (g : Guard) (ty : IType) (cond : ICond) (comb : Combine) (pd : PredIx) (a : Src) (b : Src) :
    Sys2Proof.Laws.ListedOpcode.Statement (.setp g ty cond comb pd a b) := Sys2Proof.Laws.ListedOpcode.of_encode rfl (Sys2Proof.Enc.canon_srcB 0x20 (by decide) _ rfl rfl rfl rfl)
theorem Sys2Proof.Laws.ListedOpcode.sel (x : Alu) (pc : PredIx) :
    Sys2Proof.Laws.ListedOpcode.Statement (.sel x pc) := Sys2Proof.Laws.ListedOpcode.of_encode rfl (Sys2Proof.Enc.canon_of (Sys2Proof.Enc.canon_srcB 0x21 (by decide) _ rfl rfl rfl rfl) rfl rfl rfl rfl)
theorem Sys2Proof.Laws.ListedOpcode.plog (g : Guard) (op : PlogOp) (pd : PredIx) (pa : PredIx) (pb : PredIx) :
    Sys2Proof.Laws.ListedOpcode.Statement (.plog g op pd pa pb) := Sys2Proof.Laws.ListedOpcode.of_encode rfl (Sys2Proof.Enc.canon0 0x22 (by decide) rfl rfl rfl rfl)
theorem Sys2Proof.Laws.ListedOpcode.mov (x : Alu) :
    Sys2Proof.Laws.ListedOpcode.Statement (.mov x) := Sys2Proof.Laws.ListedOpcode.of_encode rfl (Sys2Proof.Enc.canon_srcB 0x23 (by decide) _ rfl rfl rfl rfl)
theorem Sys2Proof.Laws.ListedOpcode.movi (g : Guard) (ty : IType) (d : Dst) (imm : MovImm) :
    Sys2Proof.Laws.ListedOpcode.Statement (.movi g ty d imm) := by
  cases imm with
  | i32 _ => exact Sys2Proof.Laws.ListedOpcode.of_encode rfl (Sys2Proof.Enc.canon1 0x24 (by decide) rfl rfl rfl)
  | i64 _ => exact Sys2Proof.Laws.ListedOpcode.of_encode rfl (Sys2Proof.Enc.canon2 0x24 (by decide) rfl rfl)
theorem Sys2Proof.Laws.ListedOpcode.lea (x : Alu) (x32 : Bool) (sh : BitVec 5) :
    Sys2Proof.Laws.ListedOpcode.Statement (.lea x x32 sh) := Sys2Proof.Laws.ListedOpcode.of_encode rfl (Sys2Proof.Enc.canon_srcB 0x25 (by decide) _ rfl rfl rfl rfl)
theorem Sys2Proof.Laws.ListedOpcode.div (x : Alu) (rem : Bool) (nz : Bool) :
    Sys2Proof.Laws.ListedOpcode.Statement (.div x rem nz) := Sys2Proof.Laws.ListedOpcode.of_encode rfl (Sys2Proof.Enc.canon_srcB 0x26 (by decide) _ rfl rfl rfl rfl)
theorem Sys2Proof.Laws.ListedOpcode.ext (x : Alu) (op : ExtOp) :
    Sys2Proof.Laws.ListedOpcode.Statement (.ext x op) := by
  cases op with
  | sext _ => exact Sys2Proof.Laws.ListedOpcode.of_encode rfl (Sys2Proof.Enc.canon_srcB 0x27 (by decide) _ rfl rfl rfl rfl)
  | zext _ => exact Sys2Proof.Laws.ListedOpcode.of_encode rfl (Sys2Proof.Enc.canon_srcB 0x27 (by decide) _ rfl rfl rfl rfl)
  | trunc => exact Sys2Proof.Laws.ListedOpcode.of_encode rfl (Sys2Proof.Enc.canon_srcB 0x27 (by decide) _ rfl rfl rfl rfl)
theorem Sys2Proof.Laws.ListedOpcode.addc (x : Alu) (ci : Option PredIx) (co : PredIx) :
    Sys2Proof.Laws.ListedOpcode.Statement (.addc x ci co) := Sys2Proof.Laws.ListedOpcode.of_encode rfl (Sys2Proof.Enc.canon_of (Sys2Proof.Enc.canon_srcB 0x28 (by decide) _ rfl rfl rfl rfl) rfl rfl rfl rfl)
theorem Sys2Proof.Laws.ListedOpcode.subb (x : Alu) (bi : Option PredIx) (bo : PredIx) :
    Sys2Proof.Laws.ListedOpcode.Statement (.subb x bi bo) := Sys2Proof.Laws.ListedOpcode.of_encode rfl (Sys2Proof.Enc.canon_of (Sys2Proof.Enc.canon_srcB 0x29 (by decide) _ rfl rfl rfl rfl) rfl rfl rfl rfl)
theorem Sys2Proof.Laws.ListedOpcode.mulw (x : Alu) :
    Sys2Proof.Laws.ListedOpcode.Statement (.mulw x) := Sys2Proof.Laws.ListedOpcode.of_encode rfl (Sys2Proof.Enc.canon_srcB 0x2A (by decide) _ rfl rfl rfl rfl)
theorem Sys2Proof.Laws.ListedOpcode.csub (x : Alu) (form : CsubForm) :
    Sys2Proof.Laws.ListedOpcode.Statement (.csub x form) := by
  cases form with
  | p _ => exact Sys2Proof.Laws.ListedOpcode.of_encode rfl (Sys2Proof.Enc.canon_of (Sys2Proof.Enc.canon_srcB 0x2B (by decide) _ rfl rfl rfl rfl) rfl rfl rfl rfl)
  | ge _ => exact Sys2Proof.Laws.ListedOpcode.of_encode rfl (Sys2Proof.Enc.canon_srcB 0x2B (by decide) _ rfl rfl rfl rfl)
theorem Sys2Proof.Laws.ListedOpcode.clamp (x : Alu) :
    Sys2Proof.Laws.ListedOpcode.Statement (.clamp x) := Sys2Proof.Laws.ListedOpcode.of_encode rfl (Sys2Proof.Enc.canon_srcB 0x2C (by decide) _ rfl rfl rfl rfl)
theorem Sys2Proof.Laws.ListedOpcode.fadd (x : Fpu) :
    Sys2Proof.Laws.ListedOpcode.Statement (.fadd x) := Sys2Proof.Laws.ListedOpcode.of_encode rfl (Sys2Proof.Enc.canon_srcB 0x30 (by decide) _ rfl rfl rfl rfl)
theorem Sys2Proof.Laws.ListedOpcode.fsub (x : Fpu) :
    Sys2Proof.Laws.ListedOpcode.Statement (.fsub x) := Sys2Proof.Laws.ListedOpcode.of_encode rfl (Sys2Proof.Enc.canon_srcB 0x31 (by decide) _ rfl rfl rfl rfl)
theorem Sys2Proof.Laws.ListedOpcode.fmul (x : Fpu) :
    Sys2Proof.Laws.ListedOpcode.Statement (.fmul x) := Sys2Proof.Laws.ListedOpcode.of_encode rfl (Sys2Proof.Enc.canon_srcB 0x32 (by decide) _ rfl rfl rfl rfl)
theorem Sys2Proof.Laws.ListedOpcode.fma (x : Fpu) :
    Sys2Proof.Laws.ListedOpcode.Statement (.fma x) := Sys2Proof.Laws.ListedOpcode.of_encode rfl (Sys2Proof.Enc.canon_srcB 0x33 (by decide) _ rfl rfl rfl rfl)
theorem Sys2Proof.Laws.ListedOpcode.fmin (x : Fpu) :
    Sys2Proof.Laws.ListedOpcode.Statement (.fmin x) := Sys2Proof.Laws.ListedOpcode.of_encode rfl (Sys2Proof.Enc.canon_srcB 0x34 (by decide) _ rfl rfl rfl rfl)
theorem Sys2Proof.Laws.ListedOpcode.fmax (x : Fpu) :
    Sys2Proof.Laws.ListedOpcode.Statement (.fmax x) := Sys2Proof.Laws.ListedOpcode.of_encode rfl (Sys2Proof.Enc.canon_srcB 0x35 (by decide) _ rfl rfl rfl rfl)
theorem Sys2Proof.Laws.ListedOpcode.fabsn (x : Fpu) (op : FabsOp) :
    Sys2Proof.Laws.ListedOpcode.Statement (.fabsn x op) := Sys2Proof.Laws.ListedOpcode.of_encode rfl (Sys2Proof.Enc.canon_srcB 0x36 (by decide) _ rfl rfl rfl rfl)
theorem Sys2Proof.Laws.ListedOpcode.fsetp (g : Guard) (ty : FType) (cond : FCond) (comb : Combine) (pd : PredIx) (a : Src) (b : Src) :
    Sys2Proof.Laws.ListedOpcode.Statement (.fsetp g ty cond comb pd a b) := Sys2Proof.Laws.ListedOpcode.of_encode rfl (Sys2Proof.Enc.canon_srcB 0x37 (by decide) _ rfl rfl rfl rfl)
theorem Sys2Proof.Laws.ListedOpcode.frcp (x : Fpu) :
    Sys2Proof.Laws.ListedOpcode.Statement (.frcp x) := Sys2Proof.Laws.ListedOpcode.of_encode rfl (Sys2Proof.Enc.canon_srcB 0x38 (by decide) _ rfl rfl rfl rfl)
theorem Sys2Proof.Laws.ListedOpcode.frsq (x : Fpu) :
    Sys2Proof.Laws.ListedOpcode.Statement (.frsq x) := Sys2Proof.Laws.ListedOpcode.of_encode rfl (Sys2Proof.Enc.canon_srcB 0x39 (by decide) _ rfl rfl rfl rfl)
theorem Sys2Proof.Laws.ListedOpcode.fsqrt (x : Fpu) :
    Sys2Proof.Laws.ListedOpcode.Statement (.fsqrt x) := Sys2Proof.Laws.ListedOpcode.of_encode rfl (Sys2Proof.Enc.canon_srcB 0x3A (by decide) _ rfl rfl rfl rfl)
theorem Sys2Proof.Laws.ListedOpcode.fexp2 (x : Fpu) :
    Sys2Proof.Laws.ListedOpcode.Statement (.fexp2 x) := Sys2Proof.Laws.ListedOpcode.of_encode rfl (Sys2Proof.Enc.canon_srcB 0x3B (by decide) _ rfl rfl rfl rfl)
theorem Sys2Proof.Laws.ListedOpcode.flog2 (x : Fpu) :
    Sys2Proof.Laws.ListedOpcode.Statement (.flog2 x) := Sys2Proof.Laws.ListedOpcode.of_encode rfl (Sys2Proof.Enc.canon_srcB 0x3C (by decide) _ rfl rfl rfl rfl)
theorem Sys2Proof.Laws.ListedOpcode.fsincos (x : Fpu) :
    Sys2Proof.Laws.ListedOpcode.Statement (.fsincos x) := Sys2Proof.Laws.ListedOpcode.of_encode rfl (Sys2Proof.Enc.canon_srcB 0x3D (by decide) _ rfl rfl rfl rfl)
theorem Sys2Proof.Laws.ListedOpcode.fdiv (x : Fpu) :
    Sys2Proof.Laws.ListedOpcode.Statement (.fdiv x) := Sys2Proof.Laws.ListedOpcode.of_encode rfl (Sys2Proof.Enc.canon_srcB 0x3E (by decide) _ rfl rfl rfl rfl)
theorem Sys2Proof.Laws.ListedOpcode.fclass (x : Fpu) :
    Sys2Proof.Laws.ListedOpcode.Statement (.fclass x) := Sys2Proof.Laws.ListedOpcode.of_encode rfl (Sys2Proof.Enc.canon_srcB 0x3F (by decide) _ rfl rfl rfl rfl)
theorem Sys2Proof.Laws.ListedOpcode.cvtif (x : Fpu) (src : IType) :
    Sys2Proof.Laws.ListedOpcode.Statement (.cvtif x src) := Sys2Proof.Laws.ListedOpcode.of_encode rfl (Sys2Proof.Enc.canon_srcB 0x40 (by decide) _ rfl rfl rfl rfl)
theorem Sys2Proof.Laws.ListedOpcode.cvtfi (x : Fpu) (dst : IType) :
    Sys2Proof.Laws.ListedOpcode.Statement (.cvtfi x dst) := Sys2Proof.Laws.ListedOpcode.of_encode rfl (Sys2Proof.Enc.canon_srcB 0x41 (by decide) _ rfl rfl rfl rfl)
theorem Sys2Proof.Laws.ListedOpcode.cvtff (x : Fpu) (src : FType) (hi : Bool) :
    Sys2Proof.Laws.ListedOpcode.Statement (.cvtff x src hi) := Sys2Proof.Laws.ListedOpcode.of_encode rfl (Sys2Proof.Enc.canon_srcB 0x42 (by decide) _ rfl rfl rfl rfl)
theorem Sys2Proof.Laws.ListedOpcode.frnd (x : Fpu) :
    Sys2Proof.Laws.ListedOpcode.Statement (.frnd x) := Sys2Proof.Laws.ListedOpcode.of_encode rfl (Sys2Proof.Enc.canon_srcB 0x43 (by decide) _ rfl rfl rfl rfl)
theorem Sys2Proof.Laws.ListedOpcode.fscal (x : Fpu) (op : FscalOp) :
    Sys2Proof.Laws.ListedOpcode.Statement (.fscal x op) := Sys2Proof.Laws.ListedOpcode.of_encode rfl (Sys2Proof.Enc.canon_srcB 0x44 (by decide) _ rfl rfl rfl rfl)
theorem Sys2Proof.Laws.ListedOpcode.dot2 (x : Fpu) :
    Sys2Proof.Laws.ListedOpcode.Statement (.dot2 x) := Sys2Proof.Laws.ListedOpcode.of_encode rfl (Sys2Proof.Enc.canon_srcB 0x45 (by decide) _ rfl rfl rfl rfl)
theorem Sys2Proof.Laws.ListedOpcode.qscale (x : Narrow) :
    Sys2Proof.Laws.ListedOpcode.Statement (.qscale x) := Sys2Proof.Laws.ListedOpcode.of_encode rfl (Sys2Proof.Enc.canon0 0x50 (by decide) rfl rfl rfl rfl)
theorem Sys2Proof.Laws.ListedOpcode.quant (x : Narrow) :
    Sys2Proof.Laws.ListedOpcode.Statement (.quant x) := Sys2Proof.Laws.ListedOpcode.of_encode rfl (Sys2Proof.Enc.canon0 0x51 (by decide) rfl rfl rfl rfl)
theorem Sys2Proof.Laws.ListedOpcode.dequant (x : Narrow) :
    Sys2Proof.Laws.ListedOpcode.Statement (.dequant x) := Sys2Proof.Laws.ListedOpcode.of_encode rfl (Sys2Proof.Enc.canon0 0x52 (by decide) rfl rfl rfl rfl)
theorem Sys2Proof.Laws.ListedOpcode.qpack (x : Narrow) :
    Sys2Proof.Laws.ListedOpcode.Statement (.qpack x) := Sys2Proof.Laws.ListedOpcode.of_encode rfl (Sys2Proof.Enc.canon0 0x53 (by decide) rfl rfl rfl rfl)
theorem Sys2Proof.Laws.ListedOpcode.qunpack (x : Narrow) :
    Sys2Proof.Laws.ListedOpcode.Statement (.qunpack x) := Sys2Proof.Laws.ListedOpcode.of_encode rfl (Sys2Proof.Enc.canon0 0x54 (by decide) rfl rfl rfl rfl)
theorem Sys2Proof.Laws.ListedOpcode.fmtq (x : Narrow) :
    Sys2Proof.Laws.ListedOpcode.Statement (.fmtq x) := Sys2Proof.Laws.ListedOpcode.of_encode rfl (Sys2Proof.Enc.canon0 0x55 (by decide) rfl rfl rfl rfl)
theorem Sys2Proof.Laws.ListedOpcode.rngNext (g : Guard) (d : Dst) :
    Sys2Proof.Laws.ListedOpcode.Statement (.rngNext g d) := Sys2Proof.Laws.ListedOpcode.of_encode rfl (Sys2Proof.Enc.canon0 0x56 (by decide) rfl rfl rfl rfl)
theorem Sys2Proof.Laws.ListedOpcode.rngUnif (g : Guard) (d : Dst) :
    Sys2Proof.Laws.ListedOpcode.Statement (.rngUnif g d) := Sys2Proof.Laws.ListedOpcode.of_encode rfl (Sys2Proof.Enc.canon0 0x56 (by decide) rfl rfl rfl rfl)
theorem Sys2Proof.Laws.ListedOpcode.rngSeed (g : Guard) (a : Src) :
    Sys2Proof.Laws.ListedOpcode.Statement (.rngSeed g a) := Sys2Proof.Laws.ListedOpcode.of_encode rfl (Sys2Proof.Enc.canon0 0x56 (by decide) rfl rfl rfl rfl)
theorem Sys2Proof.Laws.ListedOpcode.shfl (g : Guard) (mode : ShflMode) (wide : Bool) (d : Dst) (a : Src) (b : Src) (rec : Option PredIx) :
    Sys2Proof.Laws.ListedOpcode.Statement (.shfl g mode wide d a b rec) := Sys2Proof.Laws.ListedOpcode.of_encode rfl (Sys2Proof.Enc.canon_srcB 0x60 (by decide) _ rfl rfl rfl rfl)
theorem Sys2Proof.Laws.ListedOpcode.vote (g : Guard) (d : PDst) (op : VoteOp) :
    Sys2Proof.Laws.ListedOpcode.Statement (.vote g d op) := by
  cases op with
  | any _ => exact Sys2Proof.Laws.ListedOpcode.of_encode rfl (Sys2Proof.Enc.canon0 0x61 (by decide) rfl rfl rfl rfl)
  | all _ => exact Sys2Proof.Laws.ListedOpcode.of_encode rfl (Sys2Proof.Enc.canon0 0x61 (by decide) rfl rfl rfl rfl)
  | uni _ => exact Sys2Proof.Laws.ListedOpcode.of_encode rfl (Sys2Proof.Enc.canon0 0x61 (by decide) rfl rfl rfl rfl)
  | eq _ => exact Sys2Proof.Laws.ListedOpcode.of_encode rfl (Sys2Proof.Enc.canon0 0x61 (by decide) rfl rfl rfl rfl)
theorem Sys2Proof.Laws.ListedOpcode.ballot (g : Guard) (d : Dst) (p : PredIx) (op : BallotOp) :
    Sys2Proof.Laws.ListedOpcode.Statement (.ballot g d p op) := by
  cases op with
  | word _ => exact Sys2Proof.Laws.ListedOpcode.of_encode rfl (Sys2Proof.Enc.canon_srcB 0x62 (by decide) _ rfl rfl rfl rfl)
  | wv => exact Sys2Proof.Laws.ListedOpcode.of_encode rfl (Sys2Proof.Enc.canon0 0x62 (by decide) rfl rfl rfl rfl)
  | cnt => exact Sys2Proof.Laws.ListedOpcode.of_encode rfl (Sys2Proof.Enc.canon0 0x62 (by decide) rfl rfl rfl rfl)
theorem Sys2Proof.Laws.ListedOpcode.tred (g : Guard) (op : RedOp) (rs : BitVec 3) (d : Dst) (a : Src) :
    Sys2Proof.Laws.ListedOpcode.Statement (.tred g op rs d a) := Sys2Proof.Laws.ListedOpcode.of_encode rfl (Sys2Proof.Enc.canon0 0x63 (by decide) rfl rfl rfl rfl)
theorem Sys2Proof.Laws.ListedOpcode.tscan (g : Guard) (op : RedOp) (excl : Bool) (d : Dst) (a : Src) :
    Sys2Proof.Laws.ListedOpcode.Statement (.tscan g op excl d a) := Sys2Proof.Laws.ListedOpcode.of_encode rfl (Sys2Proof.Enc.canon0 0x64 (by decide) rfl rfl rfl rfl)
theorem Sys2Proof.Laws.ListedOpcode.bcast (g : Guard) (wide : Bool) (d : Dst) (a : Src) (n : Src) :
    Sys2Proof.Laws.ListedOpcode.Statement (.bcast g wide d a n) := Sys2Proof.Laws.ListedOpcode.of_encode rfl (Sys2Proof.Enc.canon_srcB 0x65 (by decide) _ rfl rfl rfl rfl)
theorem Sys2Proof.Laws.ListedOpcode.ld (x : MemAcc) (sx : Bool) (d : Dst) :
    Sys2Proof.Laws.ListedOpcode.Statement (.ld x sx d) := Sys2Proof.Laws.ListedOpcode.of_encode rfl (Sys2Proof.Enc.canon_of (Sys2Proof.Enc.canon_mem 0x70 (by decide) _ rfl rfl) rfl rfl rfl rfl)
theorem Sys2Proof.Laws.ListedOpcode.st (x : MemAcc) (c : Src) :
    Sys2Proof.Laws.ListedOpcode.Statement (.st x c) := Sys2Proof.Laws.ListedOpcode.of_encode rfl (Sys2Proof.Enc.canon_of (Sys2Proof.Enc.canon_mem 0x71 (by decide) _ rfl rfl) rfl rfl rfl rfl)
theorem Sys2Proof.Laws.ListedOpcode.ldro (x : MemAcc) (sx : Bool) (d : Dst) :
    Sys2Proof.Laws.ListedOpcode.Statement (.ldro x sx d) := Sys2Proof.Laws.ListedOpcode.of_encode rfl (Sys2Proof.Enc.canon_of (Sys2Proof.Enc.canon_mem 0x72 (by decide) _ rfl rfl) rfl rfl rfl rfl)
theorem Sys2Proof.Laws.ListedOpcode.lds (x : MemAcc) (sx : Bool) (d : Dst) :
    Sys2Proof.Laws.ListedOpcode.Statement (.lds x sx d) := Sys2Proof.Laws.ListedOpcode.of_encode rfl (Sys2Proof.Enc.canon_of (Sys2Proof.Enc.canon_mem 0x73 (by decide) _ rfl rfl) rfl rfl rfl rfl)
theorem Sys2Proof.Laws.ListedOpcode.sts (x : MemAcc) (c : Src) :
    Sys2Proof.Laws.ListedOpcode.Statement (.sts x c) := Sys2Proof.Laws.ListedOpcode.of_encode rfl (Sys2Proof.Enc.canon_of (Sys2Proof.Enc.canon_mem 0x74 (by decide) _ rfl rfl) rfl rfl rfl rfl)
theorem Sys2Proof.Laws.ListedOpcode.samp (g : Guard) (fs : Bool) (d : Dst) (u : Src) (v : Src) (q : Src) (h : HRef) :
    Sys2Proof.Laws.ListedOpcode.Statement (.samp g fs d u v q h) := Sys2Proof.Laws.ListedOpcode.of_encode rfl (Sys2Proof.Enc.canon1 0x75 (by decide) rfl rfl rfl)
theorem Sys2Proof.Laws.ListedOpcode.pf (x : MemAcc) (level : PfLevel) :
    Sys2Proof.Laws.ListedOpcode.Statement (.pf x level) := Sys2Proof.Laws.ListedOpcode.of_encode rfl (Sys2Proof.Enc.canon_mem 0x76 (by decide) _ rfl rfl)
theorem Sys2Proof.Laws.ListedOpcode.hmap (fs : Bool) (d : Dst) (m : BitVec 6) (r : MemRef) :
    Sys2Proof.Laws.ListedOpcode.Statement (.hmap fs d m r) := Sys2Proof.Laws.ListedOpcode.of_encode rfl (Sys2Proof.Enc.canon_of (Sys2Proof.Enc.canon_mem 0x77 (by decide) _ rfl rfl) rfl rfl rfl rfl)
theorem Sys2Proof.Laws.ListedOpcode.hflush (fs : Bool) (op : FlushOp) (h : HRef) :
    Sys2Proof.Laws.ListedOpcode.Statement (.hflush fs op h) := Sys2Proof.Laws.ListedOpcode.of_encode rfl (Sys2Proof.Enc.canon1 0x78 (by decide) rfl rfl rfl)
theorem Sys2Proof.Laws.ListedOpcode.hquery (g : Guard) (op : QueryOp) (d : Dst) (h : HRef) :
    Sys2Proof.Laws.ListedOpcode.Statement (.hquery g op d h) := Sys2Proof.Laws.ListedOpcode.of_encode rfl (Sys2Proof.Enc.canon1 0x79 (by decide) rfl rfl rfl)
theorem Sys2Proof.Laws.ListedOpcode.atom (x : AtomAcc) (op : AtomOp) (d : Dst) (c : Src) :
    Sys2Proof.Laws.ListedOpcode.Statement (.atom x op d c) := Sys2Proof.Laws.ListedOpcode.of_encode rfl (Sys2Proof.Enc.canon_of (Sys2Proof.Enc.canon_mem 0x80 (by decide) _ rfl rfl) rfl rfl rfl rfl)
theorem Sys2Proof.Laws.ListedOpcode.cas (x : AtomAcc) (ty : IType) (d : Dst) (c : Src) :
    Sys2Proof.Laws.ListedOpcode.Statement (.cas x ty d c) := Sys2Proof.Laws.ListedOpcode.of_encode rfl (Sys2Proof.Enc.canon_of (Sys2Proof.Enc.canon_mem 0x81 (by decide) _ rfl rfl) rfl rfl rfl rfl)
theorem Sys2Proof.Laws.ListedOpcode.red (x : AtomAcc) (op : AtomOp) (c : Src) :
    Sys2Proof.Laws.ListedOpcode.Statement (.red x op c) := Sys2Proof.Laws.ListedOpcode.of_encode rfl (Sys2Proof.Enc.canon_of (Sys2Proof.Enc.canon_mem 0x82 (by decide) _ rfl rfl) rfl rfl rfl rfl)
theorem Sys2Proof.Laws.ListedOpcode.barSync (scope : Scope) (id : BitVec 8) (n : Src) :
    Sys2Proof.Laws.ListedOpcode.Statement (.barSync scope id n) := Sys2Proof.Laws.ListedOpcode.of_encode rfl (Sys2Proof.Enc.canon0 0x83 (by decide) rfl rfl rfl rfl)
theorem Sys2Proof.Laws.ListedOpcode.barArv (scope : Scope) (id : BitVec 8) (d : Dst) (n : Src) :
    Sys2Proof.Laws.ListedOpcode.Statement (.barArv scope id d n) := Sys2Proof.Laws.ListedOpcode.of_encode rfl (Sys2Proof.Enc.canon0 0x83 (by decide) rfl rfl rfl rfl)
theorem Sys2Proof.Laws.ListedOpcode.barWait (scope : Scope) (id : BitVec 8) (tok : Src) :
    Sys2Proof.Laws.ListedOpcode.Statement (.barWait scope id tok) := Sys2Proof.Laws.ListedOpcode.of_encode rfl (Sys2Proof.Enc.canon0 0x83 (by decide) rfl rfl rfl rfl)
theorem Sys2Proof.Laws.ListedOpcode.waitaddr (cmp : WaitCmp) (ty : IType) (acq : Bool) (scope : Scope) (d : Dst) (off : Src) (o64 : Bool) (h : HRef) (imm : BitVec 20) (c : Src) (timeout : Word) :
    Sys2Proof.Laws.ListedOpcode.Statement (.waitaddr cmp ty acq scope d off o64 h imm c timeout) := Sys2Proof.Laws.ListedOpcode.of_encode rfl (Sys2Proof.Enc.canon2 0x84 (by decide) rfl rfl)
theorem Sys2Proof.Laws.ListedOpcode.cbputAcq (d : Dst) (k : BitVec 8) :
    Sys2Proof.Laws.ListedOpcode.Statement (.cbputAcq d k) := Sys2Proof.Laws.ListedOpcode.of_encode rfl (Sys2Proof.Enc.canon0 0x85 (by decide) rfl rfl rfl rfl)
theorem Sys2Proof.Laws.ListedOpcode.cbputCom (k : BitVec 8) :
    Sys2Proof.Laws.ListedOpcode.Statement (.cbputCom k) := Sys2Proof.Laws.ListedOpcode.of_encode rfl (Sys2Proof.Enc.canon0 0x85 (by decide) rfl rfl rfl rfl)
theorem Sys2Proof.Laws.ListedOpcode.cbget (d : Dst) (k : BitVec 8) :
    Sys2Proof.Laws.ListedOpcode.Statement (.cbget d k) := Sys2Proof.Laws.ListedOpcode.of_encode rfl (Sys2Proof.Enc.canon0 0x86 (by decide) rfl rfl rfl rfl)
theorem Sys2Proof.Laws.ListedOpcode.cbrel (k : BitVec 8) :
    Sys2Proof.Laws.ListedOpcode.Statement (.cbrel k) := Sys2Proof.Laws.ListedOpcode.of_encode rfl (Sys2Proof.Enc.canon0 0x87 (by decide) rfl rfl rfl rfl)
theorem Sys2Proof.Laws.ListedOpcode.fenceAcq (scope : Scope) :
    Sys2Proof.Laws.ListedOpcode.Statement (.fenceAcq scope) := Sys2Proof.Laws.ListedOpcode.of_encode rfl (Sys2Proof.Enc.canon0 0x88 (by decide) rfl rfl rfl rfl)
theorem Sys2Proof.Laws.ListedOpcode.fenceRel (scope : Scope) :
    Sys2Proof.Laws.ListedOpcode.Statement (.fenceRel scope) := Sys2Proof.Laws.ListedOpcode.of_encode rfl (Sys2Proof.Enc.canon0 0x88 (by decide) rfl rfl rfl rfl)
theorem Sys2Proof.Laws.ListedOpcode.fenceAcqrel (scope : Scope) :
    Sys2Proof.Laws.ListedOpcode.Statement (.fenceAcqrel scope) := Sys2Proof.Laws.ListedOpcode.of_encode rfl (Sys2Proof.Enc.canon0 0x88 (by decide) rfl rfl rfl rfl)
theorem Sys2Proof.Laws.ListedOpcode.fenceSc (scope : Scope) :
    Sys2Proof.Laws.ListedOpcode.Statement (.fenceSc scope) := Sys2Proof.Laws.ListedOpcode.of_encode rfl (Sys2Proof.Enc.canon0 0x88 (by decide) rfl rfl rfl rfl)
theorem Sys2Proof.Laws.ListedOpcode.fenceRo (scope : Scope) :
    Sys2Proof.Laws.ListedOpcode.Statement (.fenceRo scope) := Sys2Proof.Laws.ListedOpcode.of_encode rfl (Sys2Proof.Enc.canon0 0x88 (by decide) rfl rfl rfl rfl)
theorem Sys2Proof.Laws.ListedOpcode.fenceOpr (scope : Scope) :
    Sys2Proof.Laws.ListedOpcode.Statement (.fenceOpr scope) := Sys2Proof.Laws.ListedOpcode.of_encode rfl (Sys2Proof.Enc.canon0 0x88 (by decide) rfl rfl rfl rfl)
theorem Sys2Proof.Laws.ListedOpcode.fenceComplete (uid : Nat) :
    Sys2Proof.Laws.ListedOpcode.Statement (.fenceComplete uid) := Sys2Proof.Laws.ListedOpcode.of_none rfl
theorem Sys2Proof.Laws.ListedOpcode.waitf (any : Bool) (m : BitVec 12) (d : Dst) :
    Sys2Proof.Laws.ListedOpcode.Statement (.waitf any m d) := Sys2Proof.Laws.ListedOpcode.of_encode rfl (Sys2Proof.Enc.canon0 0x89 (by decide) rfl rfl rfl rfl)
theorem Sys2Proof.Laws.ListedOpcode.sig (fs : Bool) (set : Bool) (eng : Bool) (wide : Bool) (scope : Scope) (m : MemRef) (v : Src) :
    Sys2Proof.Laws.ListedOpcode.Statement (.sig fs set eng wide scope m v) := Sys2Proof.Laws.ListedOpcode.of_encode rfl (Sys2Proof.Enc.canon_of (Sys2Proof.Enc.canon_mem 0x8A (by decide) _ rfl rfl) rfl rfl rfl rfl)
theorem Sys2Proof.Laws.ListedOpcode.cbinit (k : BitVec 8) (h : BitVec 12) (size : Src) (count : Src) :
    Sys2Proof.Laws.ListedOpcode.Statement (.cbinit k h size count) := Sys2Proof.Laws.ListedOpcode.of_encode rfl (Sys2Proof.Enc.canon1 0x8B (by decide) rfl rfl rfl)
theorem Sys2Proof.Laws.ListedOpcode.tdecl (fs : Bool) (r : RecRef) (hb : HRef) :
    Sys2Proof.Laws.ListedOpcode.Statement (.tdecl fs r hb) := Sys2Proof.Laws.ListedOpcode.of_encode rfl (Sys2Proof.Enc.canon2 0x90 (by decide) rfl rfl)
theorem Sys2Proof.Laws.ListedOpcode.tdeclRm (fs : Bool) (hb : HRef) :
    Sys2Proof.Laws.ListedOpcode.Statement (.tdeclRm fs hb) := Sys2Proof.Laws.ListedOpcode.of_encode rfl (Sys2Proof.Enc.canon2 0x90 (by decide) rfl rfl)
theorem Sys2Proof.Laws.ListedOpcode.ttile (d : Dst) (r : RecRef) (hb : HRef) :
    Sys2Proof.Laws.ListedOpcode.Statement (.ttile d r hb) := Sys2Proof.Laws.ListedOpcode.of_encode rfl (Sys2Proof.Enc.canon2 0x91 (by decide) rfl rfl)
theorem Sys2Proof.Laws.ListedOpcode.topenR (t : Src) :
    Sys2Proof.Laws.ListedOpcode.Statement (.topenR t) := Sys2Proof.Laws.ListedOpcode.of_encode rfl (Sys2Proof.Enc.canon0 0x92 (by decide) rfl rfl rfl rfl)
theorem Sys2Proof.Laws.ListedOpcode.topenW (t : Src) :
    Sys2Proof.Laws.ListedOpcode.Statement (.topenW t) := Sys2Proof.Laws.ListedOpcode.of_encode rfl (Sys2Proof.Enc.canon0 0x92 (by decide) rfl rfl rfl rfl)
theorem Sys2Proof.Laws.ListedOpcode.topenWRecall (t : Src) :
    Sys2Proof.Laws.ListedOpcode.Statement (.topenWRecall t) := Sys2Proof.Laws.ListedOpcode.of_encode rfl (Sys2Proof.Enc.canon0 0x92 (by decide) rfl rfl rfl rfl)
theorem Sys2Proof.Laws.ListedOpcode.tseal (fs : Bool) (t : Src) :
    Sys2Proof.Laws.ListedOpcode.Statement (.tseal fs t) := Sys2Proof.Laws.ListedOpcode.of_encode rfl (Sys2Proof.Enc.canon0 0x93 (by decide) rfl rfl rfl rfl)
theorem Sys2Proof.Laws.ListedOpcode.tdrop (fs : Bool) (t : Src) :
    Sys2Proof.Laws.ListedOpcode.Statement (.tdrop fs t) := Sys2Proof.Laws.ListedOpcode.of_encode rfl (Sys2Proof.Enc.canon0 0x94 (by decide) rfl rfl rfl rfl)
theorem Sys2Proof.Laws.ListedOpcode.tsplit (d : Dst) (t : Src) (k : Src) (c : Src) :
    Sys2Proof.Laws.ListedOpcode.Statement (.tsplit d t k c) := Sys2Proof.Laws.ListedOpcode.of_encode rfl (Sys2Proof.Enc.canon0 0x95 (by decide) rfl rfl rfl rfl)
theorem Sys2Proof.Laws.ListedOpcode.tfree (t : Src) :
    Sys2Proof.Laws.ListedOpcode.Statement (.tfree t) := Sys2Proof.Laws.ListedOpcode.of_encode rfl (Sys2Proof.Enc.canon0 0x96 (by decide) rfl rfl rfl rfl)
theorem Sys2Proof.Laws.ListedOpcode.tquery (d : Dst) (t : Src) :
    Sys2Proof.Laws.ListedOpcode.Statement (.tquery d t) := Sys2Proof.Laws.ListedOpcode.of_encode rfl (Sys2Proof.Enc.canon0 0x97 (by decide) rfl rfl rfl rfl)
theorem Sys2Proof.Laws.ListedOpcode.menq (fs : Bool) (slot : BitVec 3) (d : Dst) (k : BitVec 6) :
    Sys2Proof.Laws.ListedOpcode.Statement (.menq fs slot d k) := Sys2Proof.Laws.ListedOpcode.of_encode rfl (Sys2Proof.Enc.canon0 0xA0 (by decide) rfl rfl rfl rfl)
theorem Sys2Proof.Laws.ListedOpcode.mwaitId (d : Dst) (t : Src) :
    Sys2Proof.Laws.ListedOpcode.Statement (.mwaitId d t) := Sys2Proof.Laws.ListedOpcode.of_encode rfl (Sys2Proof.Enc.canon0 0xA1 (by decide) rfl rfl rfl rfl)
theorem Sys2Proof.Laws.ListedOpcode.mwaitFlag (fs : Bool) (t : Src) :
    Sys2Proof.Laws.ListedOpcode.Statement (.mwaitFlag fs t) := Sys2Proof.Laws.ListedOpcode.of_encode rfl (Sys2Proof.Enc.canon0 0xA1 (by decide) rfl rfl rfl rfl)
theorem Sys2Proof.Laws.ListedOpcode.mwld (fs : Bool) (slot : BitVec 3) (d : Dst) (t : Src) (ts : Src) :
    Sys2Proof.Laws.ListedOpcode.Statement (.mwld fs slot d t ts) := Sys2Proof.Laws.ListedOpcode.of_encode rfl (Sys2Proof.Enc.canon0 0xA2 (by decide) rfl rfl rfl rfl)
theorem Sys2Proof.Laws.ListedOpcode.mwrel (r : Src) :
    Sys2Proof.Laws.ListedOpcode.Statement (.mwrel r) := Sys2Proof.Laws.ListedOpcode.of_encode rfl (Sys2Proof.Enc.canon0 0xA3 (by decide) rfl rfl rfl rfl)
theorem Sys2Proof.Laws.ListedOpcode.macz (fs : Bool) (t : Src) :
    Sys2Proof.Laws.ListedOpcode.Statement (.macz fs t) := Sys2Proof.Laws.ListedOpcode.of_encode rfl (Sys2Proof.Enc.canon0 0xA4 (by decide) rfl rfl rfl rfl)
theorem Sys2Proof.Laws.ListedOpcode.macrd (g : Guard) (fs : Bool) (raw : Bool) (slot : BitVec 3) (d : Dst) (t : Src) (row : Src) (col : Src) :
    Sys2Proof.Laws.ListedOpcode.Statement (.macrd g fs raw slot d t row col) := Sys2Proof.Laws.ListedOpcode.of_encode rfl (Sys2Proof.Enc.canon0 0xA5 (by decide) rfl rfl rfl rfl)
theorem Sys2Proof.Laws.ListedOpcode.wsld (fs : Bool) (slot : BitVec 3) (img : BitVec 13) (t : Src) (ts : Src) :
    Sys2Proof.Laws.ListedOpcode.Statement (.wsld fs slot img t ts) := Sys2Proof.Laws.ListedOpcode.of_encode rfl (Sys2Proof.Enc.canon1 0xA6 (by decide) rfl rfl rfl)
theorem Sys2Proof.Laws.ListedOpcode.wsinfoCal (d : Dst) (e : Src) :
    Sys2Proof.Laws.ListedOpcode.Statement (.wsinfoCal d e) := Sys2Proof.Laws.ListedOpcode.of_encode rfl (Sys2Proof.Enc.canon0 0xA7 (by decide) rfl rfl rfl rfl)
theorem Sys2Proof.Laws.ListedOpcode.wsinfoNow (d : Dst) :
    Sys2Proof.Laws.ListedOpcode.Statement (.wsinfoNow d) := Sys2Proof.Laws.ListedOpcode.of_encode rfl (Sys2Proof.Enc.canon0 0xA7 (by decide) rfl rfl rfl rfl)
theorem Sys2Proof.Laws.ListedOpcode.mquery (d : Dst) (t : Src) :
    Sys2Proof.Laws.ListedOpcode.Statement (.mquery d t) := Sys2Proof.Laws.ListedOpcode.of_encode rfl (Sys2Proof.Enc.canon0 0xA8 (by decide) rfl rfl rfl rfl)
theorem Sys2Proof.Laws.ListedOpcode.dcopy (fs : Bool) (scope : Scope) (r : RecRef) :
    Sys2Proof.Laws.ListedOpcode.Statement (.dcopy fs scope r) := Sys2Proof.Laws.ListedOpcode.of_encode rfl (Sys2Proof.Enc.canon1 0xB0 (by decide) rfl rfl rfl)
theorem Sys2Proof.Laws.ListedOpcode.dfill (fs : Bool) (scope : Scope) (wide : Bool) (r : RecRef) (v : Src) :
    Sys2Proof.Laws.ListedOpcode.Statement (.dfill fs scope wide r v) := Sys2Proof.Laws.ListedOpcode.of_encode rfl (Sys2Proof.Enc.canon1 0xB1 (by decide) rfl rfl rfl)
theorem Sys2Proof.Laws.ListedOpcode.grpMake (d : Dst) (key : Src) (n : Src) (rank : Src) :
    Sys2Proof.Laws.ListedOpcode.Statement (.grpMake d key n rank) := Sys2Proof.Laws.ListedOpcode.of_encode rfl (Sys2Proof.Enc.canon0 0xB2 (by decide) rfl rfl rfl rfl)
theorem Sys2Proof.Laws.ListedOpcode.grpFree (g : Src) :
    Sys2Proof.Laws.ListedOpcode.Statement (.grpFree g) := Sys2Proof.Laws.ListedOpcode.of_encode rfl (Sys2Proof.Enc.canon0 0xB2 (by decide) rfl rfl rfl rfl)
theorem Sys2Proof.Laws.ListedOpcode.grpInfo (d : Dst) (g : Src) :
    Sys2Proof.Laws.ListedOpcode.Statement (.grpInfo d g) := Sys2Proof.Laws.ListedOpcode.of_encode rfl (Sys2Proof.Enc.canon0 0xB2 (by decide) rfl rfl rfl rfl)
theorem Sys2Proof.Laws.ListedOpcode.coll (fs : Bool) (form : CollForm) (op : CollRed) (ty : CollType) (src : Src) (dst : Src) (grp : Src) (hs : BitVec 12) (hd : BitVec 12) (n : Word) :
    Sys2Proof.Laws.ListedOpcode.Statement (.coll fs form op ty src dst grp hs hd n) := Sys2Proof.Laws.ListedOpcode.of_encode rfl (Sys2Proof.Enc.canon2 0xB3 (by decide) rfl rfl)
theorem Sys2Proof.Laws.ListedOpcode.gbarSync (g : Src) :
    Sys2Proof.Laws.ListedOpcode.Statement (.gbarSync g) := Sys2Proof.Laws.ListedOpcode.of_encode rfl (Sys2Proof.Enc.canon0 0xB4 (by decide) rfl rfl rfl rfl)
theorem Sys2Proof.Laws.ListedOpcode.gbarArv (fs : Bool) (g : Src) :
    Sys2Proof.Laws.ListedOpcode.Statement (.gbarArv fs g) := Sys2Proof.Laws.ListedOpcode.of_encode rfl (Sys2Proof.Enc.canon0 0xB4 (by decide) rfl rfl rfl rfl)
theorem Sys2Proof.Laws.ListedOpcode.sclook (g : Guard) (fs : Bool) (d : Dst) (a : Src) :
    Sys2Proof.Laws.ListedOpcode.Statement (.sclook g fs d a) := Sys2Proof.Laws.ListedOpcode.of_encode rfl (Sys2Proof.Enc.canon0 0xC0 (by decide) rfl rfl rfl rfl)
theorem Sys2Proof.Laws.ListedOpcode.scwait (g : Guard) (d : Dst) (a : Src) :
    Sys2Proof.Laws.ListedOpcode.Statement (.scwait g d a) := Sys2Proof.Laws.ListedOpcode.of_encode rfl (Sys2Proof.Enc.canon0 0xC1 (by decide) rfl rfl rfl rfl)
theorem Sys2Proof.Laws.ListedOpcode.scfill (fs : Bool) (item : Src) :
    Sys2Proof.Laws.ListedOpcode.Statement (.scfill fs item) := Sys2Proof.Laws.ListedOpcode.of_encode rfl (Sys2Proof.Enc.canon0 0xC2 (by decide) rfl rfl rfl rfl)
theorem Sys2Proof.Laws.ListedOpcode.scinv (fs : Bool) (obj : Src) (tag : Src) :
    Sys2Proof.Laws.ListedOpcode.Statement (.scinv fs obj tag) := Sys2Proof.Laws.ListedOpcode.of_encode rfl (Sys2Proof.Enc.canon0 0xC3 (by decide) rfl rfl rfl rfl)
theorem Sys2Proof.Laws.ListedOpcode.frameCtx (d : Dst) :
    Sys2Proof.Laws.ListedOpcode.Statement (.frameCtx d) := Sys2Proof.Laws.ListedOpcode.of_encode rfl (Sys2Proof.Enc.canon0 0xC4 (by decide) rfl rfl rfl rfl)
theorem Sys2Proof.Laws.ListedOpcode.frameTag (d : Dst) (tag : Src) :
    Sys2Proof.Laws.ListedOpcode.Statement (.frameTag d tag) := Sys2Proof.Laws.ListedOpcode.of_encode rfl (Sys2Proof.Enc.canon0 0xC4 (by decide) rfl rfl rfl rfl)
theorem Sys2Proof.Laws.ListedOpcode.gtake (k : BitVec 6) :
    Sys2Proof.Laws.ListedOpcode.Statement (.gtake k) := Sys2Proof.Laws.ListedOpcode.of_encode rfl (Sys2Proof.Enc.canon0 0xC5 (by decide) rfl rfl rfl rfl)
theorem Sys2Proof.Laws.ListedOpcode.pfill (fs : Bool) (item : Src) :
    Sys2Proof.Laws.ListedOpcode.Statement (.pfill fs item) := Sys2Proof.Laws.ListedOpcode.of_encode rfl (Sys2Proof.Enc.canon0 0xC6 (by decide) rfl rfl rfl rfl)
theorem Sys2Proof.Laws.ListedOpcode.pfail (fs : Bool) (item : Src) (st : Src) :
    Sys2Proof.Laws.ListedOpcode.Statement (.pfail fs item st) := Sys2Proof.Laws.ListedOpcode.of_encode rfl (Sys2Proof.Enc.canon0 0xC7 (by decide) rfl rfl rfl rfl)
theorem Sys2Proof.Laws.ListedOpcode.prangeAdd (fs : Bool) (r : RecRef) (hw : Src) :
    Sys2Proof.Laws.ListedOpcode.Statement (.prangeAdd fs r hw) := Sys2Proof.Laws.ListedOpcode.of_encode rfl (Sys2Proof.Enc.canon1 0xC8 (by decide) rfl rfl rfl)
theorem Sys2Proof.Laws.ListedOpcode.prangeRm (fs : Bool) (hw : Src) :
    Sys2Proof.Laws.ListedOpcode.Statement (.prangeRm fs hw) := Sys2Proof.Laws.ListedOpcode.of_encode rfl (Sys2Proof.Enc.canon1 0xC8 (by decide) rfl rfl rfl)
theorem Sys2Proof.Laws.ListedOpcode.prangeClr (fs : Bool) (hw : Src) :
    Sys2Proof.Laws.ListedOpcode.Statement (.prangeClr fs hw) := Sys2Proof.Laws.ListedOpcode.of_encode rfl (Sys2Proof.Enc.canon1 0xC8 (by decide) rfl rfl rfl)
theorem Sys2Proof.Laws.ListedOpcode.prangeLayer (fs : Bool) (r : RecRef) (n : Src) :
    Sys2Proof.Laws.ListedOpcode.Statement (.prangeLayer fs r n) := Sys2Proof.Laws.ListedOpcode.of_encode rfl (Sys2Proof.Enc.canon1 0xC8 (by decide) rfl rfl rfl)
theorem Sys2Proof.Laws.ListedOpcode.rtrace (fs : Bool) (first : Bool) (sr : Src) (n : Src) (sh : Src) (hr : BitVec 12) (hs : BitVec 12) (hh : BitVec 12) :
    Sys2Proof.Laws.ListedOpcode.Statement (.rtrace fs first sr n sh hr hs hh) := Sys2Proof.Laws.ListedOpcode.of_encode rfl (Sys2Proof.Enc.canon2 0xD0 (by decide) rfl rfl)
theorem Sys2Proof.Laws.ListedOpcode.rsort (fs : Bool) (first : Bool) (sr : Src) (n : Src) (sh : Src) (hr : BitVec 12) (hs : BitVec 12) (hh : BitVec 12) :
    Sys2Proof.Laws.ListedOpcode.Statement (.rsort fs first sr n sh hr hs hh) := Sys2Proof.Laws.ListedOpcode.of_encode rfl (Sys2Proof.Enc.canon2 0xD2 (by decide) rfl rfl)
theorem Sys2Proof.Laws.ListedOpcode.rhit (g : Guard) (short : Bool) (d : Dst) (ix : Src) (h : BitVec 12) (imm : BitVec 20) (rec : Option PredIx) :
    Sys2Proof.Laws.ListedOpcode.Statement (.rhit g short d ix h imm rec) := Sys2Proof.Laws.ListedOpcode.of_encode rfl (Sys2Proof.Enc.canon1 0xD1 (by decide) rfl rfl rfl)
theorem Sys2Proof.Laws.ListedOpcode.rhitCnt (d : Dst) :
    Sys2Proof.Laws.ListedOpcode.Statement (.rhitCnt d) := Sys2Proof.Laws.ListedOpcode.of_encode rfl (Sys2Proof.Enc.canon1 0xD1 (by decide) rfl rfl rfl)
theorem Sys2Proof.Laws.ListedOpcode.rprog (fs : Bool) (kind : BitVec 8) (r : RecRef) :
    Sys2Proof.Laws.ListedOpcode.Statement (.rprog fs kind r) := Sys2Proof.Laws.ListedOpcode.of_encode rfl (Sys2Proof.Enc.canon1 0xD3 (by decide) rfl rfl rfl)
theorem Sys2Proof.Laws.ListedOpcode.visJob (fs : Bool) (d : Dst) (r : RecRef) :
    Sys2Proof.Laws.ListedOpcode.Statement (.visJob fs d r) := Sys2Proof.Laws.ListedOpcode.of_encode rfl (Sys2Proof.Enc.canon1 0xD4 (by decide) rfl rfl rfl)
theorem Sys2Proof.Laws.ListedOpcode.visGet (g : Guard) (d : Dst) (job : Src) (rec : Option PredIx) :
    Sys2Proof.Laws.ListedOpcode.Statement (.visGet g d job rec) := Sys2Proof.Laws.ListedOpcode.of_encode rfl (Sys2Proof.Enc.canon0 0xD4 (by decide) rfl rfl rfl rfl)
theorem Sys2Proof.Laws.ListedOpcode.trap (n : BitVec 8) :
    Sys2Proof.Laws.ListedOpcode.Statement (.trap n) := Sys2Proof.Laws.ListedOpcode.of_encode rfl (Sys2Proof.Enc.canon0 0xE0 (by decide) rfl rfl rfl rfl)
theorem Sys2Proof.Laws.ListedOpcode.rfe :
    Sys2Proof.Laws.ListedOpcode.Statement (.rfe) := Sys2Proof.Laws.ListedOpcode.of_encode rfl (Sys2Proof.Enc.canon0 0xE1 (by decide) rfl rfl rfl rfl)
theorem Sys2Proof.Laws.ListedOpcode.csrr (wide : Bool) (d : Dst) (csr : BitVec 12) :
    Sys2Proof.Laws.ListedOpcode.Statement (.csrr wide d csr) := Sys2Proof.Laws.ListedOpcode.of_encode rfl (Sys2Proof.Enc.canon1 0xE2 (by decide) rfl rfl rfl)
theorem Sys2Proof.Laws.ListedOpcode.csrw (d : Dst) (a : Src) (csr : BitVec 12) :
    Sys2Proof.Laws.ListedOpcode.Statement (.csrw d a csr) := Sys2Proof.Laws.ListedOpcode.of_encode rfl (Sys2Proof.Enc.canon1 0xE3 (by decide) rfl rfl rfl)
theorem Sys2Proof.Laws.ListedOpcode.yield :
    Sys2Proof.Laws.ListedOpcode.Statement (.yield) := Sys2Proof.Laws.ListedOpcode.of_encode rfl (Sys2Proof.Enc.canon0 0xE4 (by decide) rfl rfl rfl rfl)
theorem Sys2Proof.Laws.ListedOpcode.ksave (set : KsaveSet) (m : DWord) :
    Sys2Proof.Laws.ListedOpcode.Statement (.ksave set m) := Sys2Proof.Laws.ListedOpcode.of_encode rfl (Sys2Proof.Enc.canon2 0xE5 (by decide) rfl rfl)
theorem Sys2Proof.Laws.ListedOpcode.tlbi (fs : Bool) (op : TlbiOp) (scope : Scope) (a : Src) :
    Sys2Proof.Laws.ListedOpcode.Statement (.tlbi fs op scope a) := Sys2Proof.Laws.ListedOpcode.of_encode rfl (Sys2Proof.Enc.canon0 0xE6 (by decide) rfl rfl rfl rfl)
theorem Sys2Proof.Laws.ListedOpcode.bkpt (n : BitVec 8) :
    Sys2Proof.Laws.ListedOpcode.Statement (.bkpt n) := Sys2Proof.Laws.ListedOpcode.of_encode rfl (Sys2Proof.Enc.canon0 0xE7 (by decide) rfl rfl rfl rfl)
theorem Sys2Proof.Laws.ListedOpcode.spawn (fs : Bool) (d : Dst) (r : RecRef) (shape : Src) :
    Sys2Proof.Laws.ListedOpcode.Statement (.spawn fs d r shape) := Sys2Proof.Laws.ListedOpcode.of_encode rfl (Sys2Proof.Enc.canon1 0xF0 (by decide) rfl rfl rfl)
theorem Sys2Proof.Laws.ListedOpcode.qpost (fs : Bool) (q : BitVec 8) (r : RecRef) :
    Sys2Proof.Laws.ListedOpcode.Statement (.qpost fs q r) := Sys2Proof.Laws.ListedOpcode.of_encode rfl (Sys2Proof.Enc.canon1 0xF1 (by decide) rfl rfl rfl)
theorem Sys2Proof.Laws.ListedOpcode.qwaitDone (d : Dst) (n : Src) (q : BitVec 8) :
    Sys2Proof.Laws.ListedOpcode.Statement (.qwaitDone d n q) := Sys2Proof.Laws.ListedOpcode.of_encode rfl (Sys2Proof.Enc.canon0 0xF2 (by decide) rfl rfl rfl rfl)
theorem Sys2Proof.Laws.ListedOpcode.qwaitSpace (d : Dst) (q : BitVec 8) :
    Sys2Proof.Laws.ListedOpcode.Statement (.qwaitSpace d q) := Sys2Proof.Laws.ListedOpcode.of_encode rfl (Sys2Proof.Enc.canon0 0xF2 (by decide) rfl rfl rfl rfl)
theorem Sys2Proof.Laws.ListedOpcode.qwaitWake (uid : Nat) :
    Sys2Proof.Laws.ListedOpcode.Statement (.qwaitWake uid) := Sys2Proof.Laws.ListedOpcode.of_none rfl
theorem Sys2Proof.Laws.ListedOpcode.clauseStart (h : Header) :
    Sys2Proof.Laws.ListedOpcode.Statement (.clauseStart h) := Sys2Proof.Laws.ListedOpcode.of_none rfl
theorem Sys2Proof.Laws.ListedOpcode.waitfWake (uid : Nat) :
    Sys2Proof.Laws.ListedOpcode.Statement (.waitfWake uid) := Sys2Proof.Laws.ListedOpcode.of_none rfl
theorem Sys2Proof.Laws.ListedOpcode.loadComplete (op : Nat) :
    Sys2Proof.Laws.ListedOpcode.Statement (.loadComplete op) := Sys2Proof.Laws.ListedOpcode.of_none rfl
theorem Sys2Proof.Laws.ListedOpcode.storeComplete (op : Nat) :
    Sys2Proof.Laws.ListedOpcode.Statement (.storeComplete op) := Sys2Proof.Laws.ListedOpcode.of_none rfl
theorem Sys2Proof.Laws.ListedOpcode.atomicComplete (op : Nat) :
    Sys2Proof.Laws.ListedOpcode.Statement (.atomicComplete op) := Sys2Proof.Laws.ListedOpcode.of_none rfl
theorem Sys2Proof.Laws.ListedOpcode.sigPerform (op : Nat) :
    Sys2Proof.Laws.ListedOpcode.Statement (.sigPerform op) := Sys2Proof.Laws.ListedOpcode.of_none rfl
theorem Sys2Proof.Laws.ListedOpcode.mapFillComplete (uid : Nat) :
    Sys2Proof.Laws.ListedOpcode.Statement (.mapFillComplete uid) := Sys2Proof.Laws.ListedOpcode.of_none rfl
theorem Sys2Proof.Laws.ListedOpcode.hmapComplete (op : Nat) :
    Sys2Proof.Laws.ListedOpcode.Statement (.hmapComplete op) := Sys2Proof.Laws.ListedOpcode.of_none rfl
theorem Sys2Proof.Laws.ListedOpcode.l2FillArrival (die : Nat) (line : Nat) :
    Sys2Proof.Laws.ListedOpcode.Statement (.l2FillArrival die line) := Sys2Proof.Laws.ListedOpcode.of_none rfl
theorem Sys2Proof.Laws.ListedOpcode.nackRetryResend (op : Nat) :
    Sys2Proof.Laws.ListedOpcode.Statement (.nackRetryResend op) := Sys2Proof.Laws.ListedOpcode.of_none rfl
theorem Sys2Proof.Laws.ListedOpcode.faultRecordWrite (q : QueueId) :
    Sys2Proof.Laws.ListedOpcode.Statement (.faultRecordWrite q) := Sys2Proof.Laws.ListedOpcode.of_none rfl
theorem Sys2Proof.Laws.ListedOpcode.stopRecord (uid : Nat) :
    Sys2Proof.Laws.ListedOpcode.Statement (.stopRecord uid) := Sys2Proof.Laws.ListedOpcode.of_none rfl
theorem Sys2Proof.Laws.ListedOpcode.budgetExpiry (ctx : Word) :
    Sys2Proof.Laws.ListedOpcode.Statement (.budgetExpiry ctx) := Sys2Proof.Laws.ListedOpcode.of_none rfl
theorem Sys2Proof.Laws.ListedOpcode.saveComplete (ctx : Word) :
    Sys2Proof.Laws.ListedOpcode.Statement (.saveComplete ctx) := Sys2Proof.Laws.ListedOpcode.of_none rfl
theorem Sys2Proof.Laws.ListedOpcode.gridCompletion (grid : Word) :
    Sys2Proof.Laws.ListedOpcode.Statement (.gridCompletion grid) := Sys2Proof.Laws.ListedOpcode.of_none rfl
theorem Sys2Proof.Laws.ListedOpcode.scheduleLaunch (part : Nat) (src : QSrc) (cores : List (Nat × Nat)) :
    Sys2Proof.Laws.ListedOpcode.Statement (.scheduleLaunch part src cores) := Sys2Proof.Laws.ListedOpcode.of_none rfl
theorem Sys2Proof.Laws.ListedOpcode.bindRecord (r : BindRec) :
    Sys2Proof.Laws.ListedOpcode.Statement (.bindRecord r) := Sys2Proof.Laws.ListedOpcode.of_none rfl
theorem Sys2Proof.Laws.ListedOpcode.gridRelease (grid : Word) :
    Sys2Proof.Laws.ListedOpcode.Statement (.gridRelease grid) := Sys2Proof.Laws.ListedOpcode.of_none rfl
theorem Sys2Proof.Laws.ListedOpcode.barrierRelease (k : BarKey) :
    Sys2Proof.Laws.ListedOpcode.Statement (.barrierRelease k) := Sys2Proof.Laws.ListedOpcode.of_none rfl
theorem Sys2Proof.Laws.ListedOpcode.watchFire (uid : Nat) :
    Sys2Proof.Laws.ListedOpcode.Statement (.watchFire uid) := Sys2Proof.Laws.ListedOpcode.of_none rfl
theorem Sys2Proof.Laws.ListedOpcode.watchPoll (uid : Nat) :
    Sys2Proof.Laws.ListedOpcode.Statement (.watchPoll uid) := Sys2Proof.Laws.ListedOpcode.of_none rfl
theorem Sys2Proof.Laws.ListedOpcode.waitaddrTimeout (uid : Nat) :
    Sys2Proof.Laws.ListedOpcode.Statement (.waitaddrTimeout uid) := Sys2Proof.Laws.ListedOpcode.of_none rfl
theorem Sys2Proof.Laws.ListedOpcode.cbWake (uid : Nat) :
    Sys2Proof.Laws.ListedOpcode.Statement (.cbWake uid) := Sys2Proof.Laws.ListedOpcode.of_none rfl
theorem Sys2Proof.Laws.ListedOpcode.cbDeferredUpdate (op : Nat) :
    Sys2Proof.Laws.ListedOpcode.Statement (.cbDeferredUpdate op) := Sys2Proof.Laws.ListedOpcode.of_none rfl
theorem Sys2Proof.Laws.ListedOpcode.groupFormed (ctx : Word) (key : Word) :
    Sys2Proof.Laws.ListedOpcode.Statement (.groupFormed ctx key) := Sys2Proof.Laws.ListedOpcode.of_none rfl
theorem Sys2Proof.Laws.ListedOpcode.copyStart (op : Nat) :
    Sys2Proof.Laws.ListedOpcode.Statement (.copyStart op) := Sys2Proof.Laws.ListedOpcode.of_none rfl
theorem Sys2Proof.Laws.ListedOpcode.copyComplete (op : Nat) :
    Sys2Proof.Laws.ListedOpcode.Statement (.copyComplete op) := Sys2Proof.Laws.ListedOpcode.of_none rfl
theorem Sys2Proof.Laws.ListedOpcode.collComplete (ctx : Word) (group : Nat) (k : Nat) :
    Sys2Proof.Laws.ListedOpcode.Statement (.collComplete ctx group k) := Sys2Proof.Laws.ListedOpcode.of_none rfl
theorem Sys2Proof.Laws.ListedOpcode.gbarComplete (ctx : Word) (group : Nat) (k : Nat) :
    Sys2Proof.Laws.ListedOpcode.Statement (.gbarComplete ctx group k) := Sys2Proof.Laws.ListedOpcode.of_none rfl
theorem Sys2Proof.Laws.ListedOpcode.taskReady (die : Nat) (id : Nat) :
    Sys2Proof.Laws.ListedOpcode.Statement (.taskReady die id) := Sys2Proof.Laws.ListedOpcode.of_none rfl
theorem Sys2Proof.Laws.ListedOpcode.taskDispatch (die : Nat) (id : Nat) :
    Sys2Proof.Laws.ListedOpcode.Statement (.taskDispatch die id) := Sys2Proof.Laws.ListedOpcode.of_none rfl
theorem Sys2Proof.Laws.ListedOpcode.taskComplete (die : Nat) (id : Nat) :
    Sys2Proof.Laws.ListedOpcode.Statement (.taskComplete die id) := Sys2Proof.Laws.ListedOpcode.of_none rfl
theorem Sys2Proof.Laws.ListedOpcode.partialMerge (die : Nat) (id : Nat) (line : Nat) :
    Sys2Proof.Laws.ListedOpcode.Statement (.partialMerge die id line) := Sys2Proof.Laws.ListedOpcode.of_none rfl
theorem Sys2Proof.Laws.ListedOpcode.mwldComplete (op : Nat) :
    Sys2Proof.Laws.ListedOpcode.Statement (.mwldComplete op) := Sys2Proof.Laws.ListedOpcode.of_none rfl
theorem Sys2Proof.Laws.ListedOpcode.residencyRelease (die : Nat) (entry : Nat) :
    Sys2Proof.Laws.ListedOpcode.Statement (.residencyRelease die entry) := Sys2Proof.Laws.ListedOpcode.of_none rfl
theorem Sys2Proof.Laws.ListedOpcode.wsldComplete (op : Nat) :
    Sys2Proof.Laws.ListedOpcode.Statement (.wsldComplete op) := Sys2Proof.Laws.ListedOpcode.of_none rfl
theorem Sys2Proof.Laws.ListedOpcode.generatorStart (die : Nat) (k : GenKey) :
    Sys2Proof.Laws.ListedOpcode.Statement (.generatorStart die k) := Sys2Proof.Laws.ListedOpcode.of_none rfl
theorem Sys2Proof.Laws.ListedOpcode.generatorFailure (uid : Nat) :
    Sys2Proof.Laws.ListedOpcode.Statement (.generatorFailure uid) := Sys2Proof.Laws.ListedOpcode.of_none rfl
theorem Sys2Proof.Laws.ListedOpcode.framePoolGrant (die : Nat) (item : Nat) :
    Sys2Proof.Laws.ListedOpcode.Statement (.framePoolGrant die item) := Sys2Proof.Laws.ListedOpcode.of_none rfl
theorem Sys2Proof.Laws.ListedOpcode.heldLookupRelease (uid : Nat) :
    Sys2Proof.Laws.ListedOpcode.Statement (.heldLookupRelease uid) := Sys2Proof.Laws.ListedOpcode.of_none rfl
theorem Sys2Proof.Laws.ListedOpcode.sclookAnswer (op : Nat) :
    Sys2Proof.Laws.ListedOpcode.Statement (.sclookAnswer op) := Sys2Proof.Laws.ListedOpcode.of_none rfl
theorem Sys2Proof.Laws.ListedOpcode.scwaitWake (uid : Nat) :
    Sys2Proof.Laws.ListedOpcode.Statement (.scwaitWake uid) := Sys2Proof.Laws.ListedOpcode.of_none rfl
theorem Sys2Proof.Laws.ListedOpcode.shadingCommit (op : Nat) :
    Sys2Proof.Laws.ListedOpcode.Statement (.shadingCommit op) := Sys2Proof.Laws.ListedOpcode.of_none rfl
theorem Sys2Proof.Laws.ListedOpcode.furrowRelease (die : Nat) :
    Sys2Proof.Laws.ListedOpcode.Statement (.furrowRelease die) := Sys2Proof.Laws.ListedOpcode.of_none rfl
theorem Sys2Proof.Laws.ListedOpcode.rayBatchComplete (op : Nat) :
    Sys2Proof.Laws.ListedOpcode.Statement (.rayBatchComplete op) := Sys2Proof.Laws.ListedOpcode.of_none rfl
theorem Sys2Proof.Laws.ListedOpcode.visJobComplete (die : Nat) (job : Nat) :
    Sys2Proof.Laws.ListedOpcode.Statement (.visJobComplete die job) := Sys2Proof.Laws.ListedOpcode.of_none rfl
theorem Sys2Proof.Laws.ListedOpcode.visGetWake (uid : Nat) :
    Sys2Proof.Laws.ListedOpcode.Statement (.visGetWake uid) := Sys2Proof.Laws.ListedOpcode.of_none rfl
theorem Sys2Proof.Laws.ListedOpcode.tileOpenReq (m : TileMsg) (write : Bool) (recl : Bool) :
    Sys2Proof.Laws.ListedOpcode.Statement (.tileOpenReq m write recl) := Sys2Proof.Laws.ListedOpcode.of_none rfl
theorem Sys2Proof.Laws.ListedOpcode.sealReq (m : TileMsg) :
    Sys2Proof.Laws.ListedOpcode.Statement (.sealReq m) := Sys2Proof.Laws.ListedOpcode.of_none rfl
theorem Sys2Proof.Laws.ListedOpcode.dropReq (m : TileMsg) :
    Sys2Proof.Laws.ListedOpcode.Statement (.dropReq m) := Sys2Proof.Laws.ListedOpcode.of_none rfl
theorem Sys2Proof.Laws.ListedOpcode.splitReq (m : TileMsg) (k : Word) (c : Word) :
    Sys2Proof.Laws.ListedOpcode.Statement (.splitReq m k c) := Sys2Proof.Laws.ListedOpcode.of_none rfl
theorem Sys2Proof.Laws.ListedOpcode.freeReq (m : TileMsg) :
    Sys2Proof.Laws.ListedOpcode.Statement (.freeReq m) := Sys2Proof.Laws.ListedOpcode.of_none rfl
theorem Sys2Proof.Laws.ListedOpcode.dataRsp (m : LineMsg) :
    Sys2Proof.Laws.ListedOpcode.Statement (.dataRsp m) := Sys2Proof.Laws.ListedOpcode.of_none rfl
theorem Sys2Proof.Laws.ListedOpcode.forwardedData (m : LineMsg) :
    Sys2Proof.Laws.ListedOpcode.Statement (.forwardedData m) := Sys2Proof.Laws.ListedOpcode.of_none rfl
theorem Sys2Proof.Laws.ListedOpcode.grant (m : LineMsg) :
    Sys2Proof.Laws.ListedOpcode.Statement (.grant m) := Sys2Proof.Laws.ListedOpcode.of_none rfl
theorem Sys2Proof.Laws.ListedOpcode.inv (m : LineMsg) :
    Sys2Proof.Laws.ListedOpcode.Statement (.inv m) := Sys2Proof.Laws.ListedOpcode.of_none rfl
theorem Sys2Proof.Laws.ListedOpcode.forwardShared (m : LineMsg) :
    Sys2Proof.Laws.ListedOpcode.Statement (.forwardShared m) := Sys2Proof.Laws.ListedOpcode.of_none rfl
theorem Sys2Proof.Laws.ListedOpcode.forwardExclusive (m : LineMsg) :
    Sys2Proof.Laws.ListedOpcode.Statement (.forwardExclusive m) := Sys2Proof.Laws.ListedOpcode.of_none rfl
theorem Sys2Proof.Laws.ListedOpcode.backInv (m : LineMsg) :
    Sys2Proof.Laws.ListedOpcode.Statement (.backInv m) := Sys2Proof.Laws.ListedOpcode.of_none rfl
theorem Sys2Proof.Laws.ListedOpcode.invAck (m : LineMsg) :
    Sys2Proof.Laws.ListedOpcode.Statement (.invAck m) := Sys2Proof.Laws.ListedOpcode.of_none rfl
theorem Sys2Proof.Laws.ListedOpcode.forwardAck (m : LineMsg) :
    Sys2Proof.Laws.ListedOpcode.Statement (.forwardAck m) := Sys2Proof.Laws.ListedOpcode.of_none rfl
theorem Sys2Proof.Laws.ListedOpcode.backInvAck (m : LineMsg) :
    Sys2Proof.Laws.ListedOpcode.Statement (.backInvAck m) := Sys2Proof.Laws.ListedOpcode.of_none rfl
theorem Sys2Proof.Laws.ListedOpcode.grantAck (m : LineMsg) :
    Sys2Proof.Laws.ListedOpcode.Statement (.grantAck m) := Sys2Proof.Laws.ListedOpcode.of_none rfl
theorem Sys2Proof.Laws.ListedOpcode.readShared (m : LineMsg) :
    Sys2Proof.Laws.ListedOpcode.Statement (.readShared m) := Sys2Proof.Laws.ListedOpcode.of_none rfl
theorem Sys2Proof.Laws.ListedOpcode.readExclusive (m : LineMsg) :
    Sys2Proof.Laws.ListedOpcode.Statement (.readExclusive m) := Sys2Proof.Laws.ListedOpcode.of_none rfl
theorem Sys2Proof.Laws.ListedOpcode.upgrade (m : LineMsg) :
    Sys2Proof.Laws.ListedOpcode.Statement (.upgrade m) := Sys2Proof.Laws.ListedOpcode.of_none rfl
theorem Sys2Proof.Laws.ListedOpcode.writeBack (m : LineMsg) :
    Sys2Proof.Laws.ListedOpcode.Statement (.writeBack m) := Sys2Proof.Laws.ListedOpcode.of_none rfl
theorem Sys2Proof.Laws.ListedOpcode.illopPattern (hdr : Bool) (uni : Bool) (opc : BitVec 8) :
    Sys2Proof.Laws.ListedOpcode.Statement (.illopPattern hdr uni opc) := Sys2Proof.Laws.ListedOpcode.of_none rfl
theorem Sys2Proof.Laws.ListedOpcode.answerRetry (q : QueueId) (seq : Word) :
    Sys2Proof.Laws.ListedOpcode.Statement (.answerRetry q seq) := Sys2Proof.Laws.ListedOpcode.of_none rfl
theorem Sys2Proof.Laws.ListedOpcode.answerFail (q : QueueId) (seq : Word) :
    Sys2Proof.Laws.ListedOpcode.Statement (.answerFail q seq) := Sys2Proof.Laws.ListedOpcode.of_none rfl
theorem Sys2Proof.Laws.ListedOpcode.answerRestart (q : QueueId) (seq : Word) :
    Sys2Proof.Laws.ListedOpcode.Statement (.answerRestart q seq) := Sys2Proof.Laws.ListedOpcode.of_none rfl
theorem Sys2Proof.Laws.ListedOpcode.answerContinue (q : QueueId) (seq : Word) :
    Sys2Proof.Laws.ListedOpcode.Statement (.answerContinue q seq) := Sys2Proof.Laws.ListedOpcode.of_none rfl
theorem Sys2Proof.Laws.ListedOpcode.answerKill (q : QueueId) (seq : Word) :
    Sys2Proof.Laws.ListedOpcode.Statement (.answerKill q seq) := Sys2Proof.Laws.ListedOpcode.of_none rfl
theorem Sys2Proof.Laws.ListedOpcode.answerHalt (q : QueueId) (seq : Word) :
    Sys2Proof.Laws.ListedOpcode.Statement (.answerHalt q seq) := Sys2Proof.Laws.ListedOpcode.of_none rfl
theorem Sys2Proof.Laws.ListedOpcode.answerIgnored (q : QueueId) (seq : Word) (action : BitVec 4) :
    Sys2Proof.Laws.ListedOpcode.Statement (.answerIgnored q seq action) := Sys2Proof.Laws.ListedOpcode.of_none rfl
theorem Sys2Proof.Laws.ListedOpcode.eccScratchError (site : EccSite) (source : BitVec 2) (word : BitVec 18) :
    Sys2Proof.Laws.ListedOpcode.Statement (.eccScratchError site source word) := Sys2Proof.Laws.ListedOpcode.of_none rfl
theorem Sys2Proof.Laws.ListedOpcode.eccCorrectable (e : EccLine) :
    Sys2Proof.Laws.ListedOpcode.Statement (.eccCorrectable e) := Sys2Proof.Laws.ListedOpcode.of_none rfl
theorem Sys2Proof.Laws.ListedOpcode.l2Poison (line : Nat) :
    Sys2Proof.Laws.ListedOpcode.Statement (.l2Poison line) := Sys2Proof.Laws.ListedOpcode.of_none rfl
theorem Sys2Proof.Laws.ListedOpcode.agentDeadlineMiss (a : Agent) :
    Sys2Proof.Laws.ListedOpcode.Statement (.agentDeadlineMiss a) := Sys2Proof.Laws.ListedOpcode.of_none rfl
theorem Sys2Proof.Laws.ListedOpcode.die0Dead :
    Sys2Proof.Laws.ListedOpcode.Statement (.die0Dead) := Sys2Proof.Laws.ListedOpcode.of_none rfl
theorem Sys2Proof.Laws.ListedOpcode.pageWalkComplete (uid : Nat) (va : DWord) (write : Bool) :
    Sys2Proof.Laws.ListedOpcode.Statement (.pageWalkComplete uid va write) := Sys2Proof.Laws.ListedOpcode.of_none rfl
theorem Sys2Proof.Laws.ListedOpcode.sliceEnd (ctx : Word) :
    Sys2Proof.Laws.ListedOpcode.Statement (.sliceEnd ctx) := Sys2Proof.Laws.ListedOpcode.of_none rfl
theorem Sys2Proof.Laws.ListedOpcode.watchdogExpiry (op : Nat) :
    Sys2Proof.Laws.ListedOpcode.Statement (.watchdogExpiry op) := Sys2Proof.Laws.ListedOpcode.of_none rfl
theorem Sys2Proof.Laws.ListedOpcode.cimParityError (die : Nat) (core : Nat) :
    Sys2Proof.Laws.ListedOpcode.Statement (.cimParityError die core) := Sys2Proof.Laws.ListedOpcode.of_none rfl
theorem Sys2Proof.Laws.ListedOpcode.weightStoreUncorrectableError (die : Nat) (image : Nat) :
    Sys2Proof.Laws.ListedOpcode.Statement (.weightStoreUncorrectableError die image) := Sys2Proof.Laws.ListedOpcode.of_none rfl
theorem Sys2Proof.Laws.ListedOpcode.hostRingEntry (part : Nat) (q : Nat) :
    Sys2Proof.Laws.ListedOpcode.Statement (.hostRingEntry part q) := Sys2Proof.Laws.ListedOpcode.of_none rfl
theorem Sys2Proof.Laws.ListedOpcode.claim (m : BitVec 2) :
    Sys2Proof.Laws.ListedOpcode.Statement (.claim m) := Sys2Proof.Laws.ListedOpcode.of_none rfl
theorem Sys2Proof.Laws.ListedOpcode.handover (m : BitVec 2) (target : BitVec 2) :
    Sys2Proof.Laws.ListedOpcode.Statement (.handover m target) := Sys2Proof.Laws.ListedOpcode.of_none rfl
theorem Sys2Proof.Laws.ListedOpcode.release (m : BitVec 2) :
    Sys2Proof.Laws.ListedOpcode.Statement (.release m) := Sys2Proof.Laws.ListedOpcode.of_none rfl
theorem Sys2Proof.Laws.ListedOpcode.handoverLapse :
    Sys2Proof.Laws.ListedOpcode.Statement (.handoverLapse) := Sys2Proof.Laws.ListedOpcode.of_none rfl
theorem Sys2Proof.Laws.ListedOpcode.heartbeat (m : BitVec 2) :
    Sys2Proof.Laws.ListedOpcode.Statement (.heartbeat m) := Sys2Proof.Laws.ListedOpcode.of_none rfl
theorem Sys2Proof.Laws.ListedOpcode.heartbeatMiss (m : BitVec 2) :
    Sys2Proof.Laws.ListedOpcode.Statement (.heartbeatMiss m) := Sys2Proof.Laws.ListedOpcode.of_none rfl
theorem Sys2Proof.Laws.ListedOpcode.aclclr (m : BitVec 2) :
    Sys2Proof.Laws.ListedOpcode.Statement (.aclclr m) := Sys2Proof.Laws.ListedOpcode.of_none rfl
theorem Sys2Proof.Laws.ListedOpcode.pwrcap (m : BitVec 2) (v : Word) :
    Sys2Proof.Laws.ListedOpcode.Statement (.pwrcap m v) := Sys2Proof.Laws.ListedOpcode.of_none rfl
theorem Sys2Proof.Laws.ListedOpcode.registerWrite (m : BitVec 2) (off : Nat) (wide : Bool) (v : DWord) :
    Sys2Proof.Laws.ListedOpcode.Statement (.registerWrite m off wide v) := Sys2Proof.Laws.ListedOpcode.of_none rfl
theorem Sys2Proof.Laws.ListedOpcode.setctx (m : BitVec 2) :
    Sys2Proof.Laws.ListedOpcode.Statement (.setctx m) := Sys2Proof.Laws.ListedOpcode.of_none rfl
theorem Sys2Proof.Laws.ListedOpcode.endctx (m : BitVec 2) :
    Sys2Proof.Laws.ListedOpcode.Statement (.endctx m) := Sys2Proof.Laws.ListedOpcode.of_none rfl
theorem Sys2Proof.Laws.ListedOpcode.setpart (m : BitVec 2) :
    Sys2Proof.Laws.ListedOpcode.Statement (.setpart m) := Sys2Proof.Laws.ListedOpcode.of_none rfl
theorem Sys2Proof.Laws.ListedOpcode.setkey (m : BitVec 2) :
    Sys2Proof.Laws.ListedOpcode.Statement (.setkey m) := Sys2Proof.Laws.ListedOpcode.of_none rfl
theorem Sys2Proof.Laws.ListedOpcode.delkey (m : BitVec 2) :
    Sys2Proof.Laws.ListedOpcode.Statement (.delkey m) := Sys2Proof.Laws.ListedOpcode.of_none rfl
theorem Sys2Proof.Laws.ListedOpcode.restore (m : BitVec 2) :
    Sys2Proof.Laws.ListedOpcode.Statement (.restore m) := Sys2Proof.Laws.ListedOpcode.of_none rfl
theorem Sys2Proof.Laws.ListedOpcode.mailboxBadarg (m : BitVec 2) (cmd : BitVec 8) :
    Sys2Proof.Laws.ListedOpcode.Statement (.mailboxBadarg m cmd) := Sys2Proof.Laws.ListedOpcode.of_none rfl
theorem Sys2Proof.Laws.ListedOpcode.report (m : BitVec 2) :
    Sys2Proof.Laws.ListedOpcode.Statement (.report m) := Sys2Proof.Laws.ListedOpcode.of_none rfl
theorem Sys2Proof.Laws.ListedOpcode.kemkey (m : BitVec 2) :
    Sys2Proof.Laws.ListedOpcode.Statement (.kemkey m) := Sys2Proof.Laws.ListedOpcode.of_none rfl
theorem Sys2Proof.Laws.ListedOpcode.powerOn (sigOk : Bool) (versionOk : Bool) :
    Sys2Proof.Laws.ListedOpcode.Statement (.powerOn sigOk versionOk) := Sys2Proof.Laws.ListedOpcode.of_none rfl
theorem Sys2Proof.Laws.ListedOpcode.warmReset :
    Sys2Proof.Laws.ListedOpcode.Statement (.warmReset) := Sys2Proof.Laws.ListedOpcode.of_none rfl
theorem Sys2Proof.Laws.ListedOpcode.functionLevelReset (pf : BitVec 2) :
    Sys2Proof.Laws.ListedOpcode.Statement (.functionLevelReset pf) := Sys2Proof.Laws.ListedOpcode.of_none rfl
theorem Sys2Proof.Laws.ListedOpcode.coldReset :
    Sys2Proof.Laws.ListedOpcode.Statement (.coldReset) := Sys2Proof.Laws.ListedOpcode.of_none rfl
theorem Sys2Proof.Laws.ListedOpcode.linkPortRetrain (port : Nat) :
    Sys2Proof.Laws.ListedOpcode.Statement (.linkPortRetrain port) := Sys2Proof.Laws.ListedOpcode.of_none rfl
theorem Sys2Proof.Laws.ListedOpcode.cxlPortReset (port : Nat) :
    Sys2Proof.Laws.ListedOpcode.Statement (.cxlPortReset port) := Sys2Proof.Laws.ListedOpcode.of_none rfl
theorem Sys2Proof.Laws.ListedOpcode.clockLower (die : Nat) (clk : BitVec 8) :
    Sys2Proof.Laws.ListedOpcode.Statement (.clockLower die clk) := Sys2Proof.Laws.ListedOpcode.of_none rfl
theorem Sys2Proof.Laws.ListedOpcode.thermalShutdown :
    Sys2Proof.Laws.ListedOpcode.Statement (.thermalShutdown) := Sys2Proof.Laws.ListedOpcode.of_none rfl
theorem Sys2Proof.Laws.ListedOpcode.powerLoss (signing : Bool) :
    Sys2Proof.Laws.ListedOpcode.Statement (.powerLoss signing) := Sys2Proof.Laws.ListedOpcode.of_none rfl
theorem Sys2Proof.Laws.ListedOpcode.tlbiComplete (op : Nat) :
    Sys2Proof.Laws.ListedOpcode.Statement (.tlbiComplete op) := Sys2Proof.Laws.ListedOpcode.of_none rfl
theorem Sys2Proof.Laws.ListedOpcode.prangeComplete (op : Nat) :
    Sys2Proof.Laws.ListedOpcode.Statement (.prangeComplete op) := Sys2Proof.Laws.ListedOpcode.of_none rfl
theorem Sys2Proof.Laws.ListedOpcode.maczComplete (op : Nat) :
    Sys2Proof.Laws.ListedOpcode.Statement (.maczComplete op) := Sys2Proof.Laws.ListedOpcode.of_none rfl
theorem Sys2Proof.Laws.ListedOpcode.scinvComplete (op : Nat) :
    Sys2Proof.Laws.ListedOpcode.Statement (.scinvComplete op) := Sys2Proof.Laws.ListedOpcode.of_none rfl
theorem Sys2Proof.Laws.ListedOpcode.rprogInstall (op : Nat) :
    Sys2Proof.Laws.ListedOpcode.Statement (.rprogInstall op) := Sys2Proof.Laws.ListedOpcode.of_none rfl
theorem Sys2Proof.Laws.ListedOpcode.tileOpComplete (op : Nat) :
    Sys2Proof.Laws.ListedOpcode.Statement (.tileOpComplete op) := Sys2Proof.Laws.ListedOpcode.of_none rfl
theorem Sys2Proof.Laws.ListedOpcode.tileRequestRetry (uid : Nat) :
    Sys2Proof.Laws.ListedOpcode.Statement (.tileRequestRetry uid) := Sys2Proof.Laws.ListedOpcode.of_none rfl
theorem Sys2Proof.Laws.ListedOpcode.refreshWindowEnd (die : Nat) :
    Sys2Proof.Laws.ListedOpcode.Statement (.refreshWindowEnd die) := Sys2Proof.Laws.ListedOpcode.of_none rfl
theorem Sys2Proof.Laws.ListedOpcode.topenWStarvationHold (ctx : Word) (tile : Nat) :
    Sys2Proof.Laws.ListedOpcode.Statement (.topenWStarvationHold ctx tile) := Sys2Proof.Laws.ListedOpcode.of_none rfl
theorem Sys2Proof.Laws.ListedOpcode.nackRetry (op : Nat) :
    Sys2Proof.Laws.ListedOpcode.Statement (.nackRetry op) := Sys2Proof.Laws.ListedOpcode.of_none rfl
theorem Sys2Proof.Laws.ListedOpcode.errorRsp (op : Nat) :
    Sys2Proof.Laws.ListedOpcode.Statement (.errorRsp op) := Sys2Proof.Laws.ListedOpcode.of_none rfl
theorem Sys2Proof.Laws.ListedOpcode.tileRecordFetch (ctx : Word) (tile : Nat) :
    Sys2Proof.Laws.ListedOpcode.Statement (.tileRecordFetch ctx tile) := Sys2Proof.Laws.ListedOpcode.of_none rfl
theorem Sys2Proof.Laws.ListedOpcode.harvest (die : Nat) :
    Sys2Proof.Laws.ListedOpcode.Statement (.harvest die) := Sys2Proof.Laws.ListedOpcode.of_none rfl
theorem Sys2Proof.Laws.ListedOpcode.copy (die : Nat) :
    Sys2Proof.Laws.ListedOpcode.Statement (.copy die) := Sys2Proof.Laws.ListedOpcode.of_none rfl
theorem Sys2Proof.Laws.ListedOpcode.switch (die : Nat) (busy : Bool) :
    Sys2Proof.Laws.ListedOpcode.Statement (.switch die busy) := Sys2Proof.Laws.ListedOpcode.of_none rfl
theorem Sys2Proof.Laws.ListedOpcode.migrationDone (die : Nat) :
    Sys2Proof.Laws.ListedOpcode.Statement (.migrationDone die) := Sys2Proof.Laws.ListedOpcode.of_none rfl
end

