-- ==== Sys2Proof/Laws/Save.lean ====
section
/-! SUPPORT. Which form of a team a save keeps (16 R440, R441). -/

namespace Sys2Proof.Machine

/-- A save captures the team at an instruction that has changed nothing, in handler mode too (10 R273, 12 R313, R326, 17 R471 to R473). -/
theorem savedForm_captured {s : State} {t : Team} (hc : t.status.captured = true) (hm : t.mark = none)
    (hl : t.leave ≠ .yielded) :
    savedForm s t = (s, { t with status := .running, flags := s.flagCounts t.uid }) := by
  cases h : t.leave <;> simp_all [savedForm]

/-- A team that has yielded begins behind its handler with its ksave set. -/
theorem savedForm_yielded {s : State} {t : Team} (hl : t.leave = .yielded) :
    savedForm s t = (s, (t.atHeader t.ctl.epc (s.flagCounts t.uid)).keepKsave) := by
  simp [savedForm, hl]

/-- A running team that is forced resumes at its region entry with every register, but for one that has been woken to replay. -/
theorem savedForm_running {s : State} {t : Team} (hs : t.status = .running) (hm : t.midway = false) (hl : t.leave ≠ .yielded) :
    savedForm s t = (s, t.atHeader t.resumePc (s.flagCounts t.uid)) := by
  cases h : t.leave <;> simp_all [savedForm, Status.captured, Status.blocks, Status.isStopped]

/-- A team that has been woken to replay is saved as it stands (14 R381). -/
theorem savedForm_midway {s : State} {t : Team} (hs : t.status = .running) (hm : t.midway = true) (hl : t.leave ≠ .yielded) :
    savedForm s t = (s, t.elapsed s.clk) := by
  cases h : t.leave <;> simp_all [savedForm, Status.captured]

end Sys2Proof.Machine
end

