-- ==== Sys2Proof/Laws/Teams.lean ====
section
/-! SUPPORT. Masks, lanes, registers and predicates: what each reads after a write. -/

namespace Sys2Proof

theorem Mask.has_bit {L K : Nat} (hL : L < 1024) : (Mask.bit K).has L = decide (L = K) := by
  simp only [Mask.bit, Mask.has, BitVec.getLsbD_ofNat, hL, decide_true, Bool.true_and, Nat.testBit_two_pow]
  simp [eq_comm]

theorem Mask.has_bit_ge {L K : Nat} (hL : 1024 ≤ L) : (Mask.bit K).has L = false := by
  simp only [Mask.bit, Mask.has, BitVec.getLsbD_ofNat]
  have : ¬ L < 1024 := by omega
  simp [this]

theorem Mask.foldl_has (ls : List Nat) (m : Mask) (L : Nat) :
    (ls.foldl (fun m K => m ||| Mask.bit K) m).has L = (m.has L || decide (L < 1024 ∧ L ∈ ls)) := by
  induction ls generalizing m with
  | nil => simp
  | cons K r ih =>
    have hor : (m ||| Mask.bit K).has L = (m.has L || (Mask.bit K).has L) := BitVec.getLsbD_or
    rw [List.foldl_cons, ih, hor]
    by_cases hL : L < 1024
    · rw [Mask.has_bit hL]
      by_cases hk : L = K
      · have hK : K < 1024 := by omega
        simp [hk, hK]
      · simp [hL, hk]
    · rw [Mask.has_bit_ge (by omega)]
      simp [hL]

/-- The mask of a list of lanes holds exactly its lanes below 1,024. -/
theorem Mask.has_ofLanes (ls : List Nat) (L : Nat) : (Mask.ofLanes ls).has L = decide (L < 1024 ∧ L ∈ ls) := by
  rw [Mask.ofLanes, Mask.foldl_has]
  have h0 : (0 : Mask).has L = false := by simp [Mask.has]
  rw [h0, Bool.false_or]

/-- The lanes of a mask below n. -/
theorem Mask.mem_lanes {m : Mask} {n L : Nat} : L ∈ m.lanes n ↔ L < n ∧ m.has L = true := by
  simp [Mask.lanes]

/-- Removing lanes. -/
theorem Mask.has_diff (m x : Mask) (L : Nat) : (m.diff x).has L = (m.has L && !x.has L) := by
  simp only [Mask.diff, Mask.has, BitVec.getLsbD_and, BitVec.getLsbD_not]
  by_cases h : L < 1024
  · simp [h]
  · have : m.getLsbD L = false := BitVec.getLsbD_of_ge m L (by omega)
    simp [this]

namespace Machine

/-- A lane after a function was applied to the lanes of a mask. -/
theorem Team.lane_onLanes {t : Team} {m : Mask} {f : Nat → Lane → Lane} {L : Nat} (hL : L < t.lanes.length) :
    (t.onLanes m f).lane L = if m.has L then f L (t.lane L) else t.lane L := by
  simp [Team.lane, Team.onLanes, Team.mapLanes, List.getElem?_mapIdx, List.getElem?_eq_getElem hL]

theorem Team.lane_mapLanes {t : Team} {f : Nat → Lane → Lane} {L : Nat} (hL : L < t.lanes.length) :
    (t.mapLanes f).lane L = f L (t.lane L) := by
  simp [Team.lane, Team.mapLanes, List.getElem?_mapIdx, List.getElem?_eq_getElem hL]

/-- No lane beyond the team's has registers. -/
theorem Team.lane_of_ge {t : Team} {L : Nat} (hL : t.lanes.length ≤ L) : t.lane L = ⟨[], 0, 0⟩ := by
  simp [Team.lane, List.getElem?_eq_none hL]

@[simp] theorem Team.nlanes_onLanes (t : Team) (m : Mask) (f : Nat → Lane → Lane) : (t.onLanes m f).nlanes = t.nlanes := rfl

@[simp] theorem Lane.setV_p (l : Lane) (n : Nat) (w : Word) : (l.setV n w).p = l.p := rfl
@[simp] theorem Lane.setV_rng (l : Lane) (n : Nat) (w : Word) : (l.setV n w).rng = l.rng := rfl
@[simp] theorem Lane.setV_v (l : Lane) (n : Nat) (w : Word) : (l.setV n w).v = l.v.set n w := rfl

@[simp] theorem Lane.setP_v (l : Lane) (p : PredIx) (b : Bool) : (l.setP p b).v = l.v := by
  unfold Lane.setP; split <;> rfl

@[simp] theorem Lane.setP_rng (l : Lane) (p : PredIx) (b : Bool) : (l.setP p b).rng = l.rng := by
  unfold Lane.setP; split <;> rfl

/-- A write to p7 is ignored (02 R48). -/
theorem Lane.setP_seven (l : Lane) (b : Bool) : l.setP 7 b = l := rfl

@[simp] theorem Lane.setVs_p (l : Lane) (n : Nat) (ws : List Word) : (l.setVs n ws).p = l.p := by
  induction ws generalizing l n with
  | nil => rfl
  | cons w r ih => exact ih (l.setV n w) (n + 1)

@[simp] theorem Lane.setVs_rng (l : Lane) (n : Nat) (ws : List Word) : (l.setVs n ws).rng = l.rng := by
  induction ws generalizing l n with
  | nil => rfl
  | cons w r ih => exact ih (l.setV n w) (n + 1)

@[simp] theorem Lane.setVs_length (l : Lane) (n : Nat) (ws : List Word) : (l.setVs n ws).v.length = l.v.length := by
  induction ws generalizing l n with
  | nil => rfl
  | cons w r ih => rw [Lane.setVs, ih]; simp

/-- The registers of a lane after the words of a result are written from register n on. -/
theorem Lane.setVs_get (l : Lane) (n k : Nat) (ws : List Word) (hk : k < l.v.length) :
    (l.setVs n ws).v[k]? = if n ≤ k ∧ k < n + ws.length then ws[k - n]? else l.v[k]? := by
  induction ws generalizing l n with
  | nil =>
    have : ¬ (n ≤ k ∧ k < n + 0) := by omega
    simp only [Lane.setVs, List.length_nil, this, if_false]
  | cons w r ih =>
    rw [Lane.setVs, ih (l.setV n w) (n + 1) (by simpa using hk)]
    simp only [Lane.setV_v, List.getElem?_set, List.length_cons]
    by_cases h1 : n + 1 ≤ k ∧ k < n + 1 + r.length
    · have h2 : n ≤ k ∧ k < n + (r.length + 1) := by omega
      have h3 : k - n = (k - (n + 1)) + 1 := by omega
      simp only [h1, h2, and_self, if_true, h3, List.getElem?_cons_succ]
    · by_cases h4 : n = k
      · subst h4
        have h5 : ¬ (n + 1 ≤ n) := by omega
        simp [h5, hk]
      · have h6 : ¬ (n ≤ k ∧ k < n + (r.length + 1)) := by omega
        simp only [h1, h6, h4, if_false]

/-- Scalar registers after the words of a result are written from register n on. -/
theorem Team.setSs_get (t : Team) (n k : Nat) (ws : List Word) (hk : k < t.s.length) :
    (t.setSs n ws).s[k]? = if n ≤ k ∧ k < n + ws.length then ws[k - n]? else t.s[k]? := by
  induction ws generalizing t n with
  | nil =>
    have : ¬ (n ≤ k ∧ k < n + 0) := by omega
    simp only [Team.setSs, List.length_nil, this, if_false]
  | cons w r ih =>
    rw [Team.setSs, ih (t.setS n w) (n + 1) (by simpa [Team.setS] using hk)]
    simp only [Team.setS_s, List.getElem?_set, List.length_cons]
    by_cases h1 : n + 1 ≤ k ∧ k < n + 1 + r.length
    · have h2 : n ≤ k ∧ k < n + (r.length + 1) := by omega
      have h3 : k - n = (k - (n + 1)) + 1 := by omega
      simp only [h1, h2, and_self, if_true, h3, List.getElem?_cons_succ]
    · by_cases h4 : n = k
      · subst h4
        have h5 : ¬ (n + 1 ≤ n) := by omega
        simp [h5, hk]
      · have h6 : ¬ (n ≤ k ∧ k < n + (r.length + 1)) := by omega
        simp only [h1, h6, h4, if_false]

/-- Writing words to scalar registers leaves everything else of the team. -/
theorem Team.setSs_eq (t : Team) (n : Nat) (ws : List Word) : t.setSs n ws = { t with s := (t.setSs n ws).s } := by
  induction ws generalizing t n with
  | nil => rfl
  | cons w r ih => exact ih (t.setS n w) (n + 1)

/-- Writing a destination changes only the lanes and the scalar registers. -/
theorem Team.writeDst_eq (t : Team) (m : Mask) (d : Dst) (f : Nat → List Word) :
    t.writeDst m d f = { t with lanes := (t.writeDst m d f).lanes, s := (t.writeDst m d f).s } := by
  cases d with
  | v n => rfl
  | s n =>
    have h := Team.setSs_eq t n.toNat (f 0)
    show t.setSs n.toNat (f 0) = { t with lanes := (t.setSs n.toNat (f 0)).lanes, s := (t.setSs n.toNat (f 0)).s }
    rw [show (t.setSs n.toNat (f 0)).lanes = t.lanes by rw [h]]
    exact h
  | none => rfl

/-- p7 reads true (02 R48). -/
@[simp] theorem Team.pred_seven (t : Team) (L : Nat) : t.pred L 7 = true := rfl

/-- A lane is eligible when it is active and its guard, after its negation, is true (01 R19). -/
theorem Team.has_eligible {t : Team} {g : Guard} {L : Nat} (hn : t.nlanes ≤ 1024) (hL : L < t.nlanes) :
    (t.eligible g).has L = (t.active.has L && (t.pred L g.p != g.neg)) := by
  unfold Team.eligible
  by_cases h7 : g.p = 7
  · have hp : t.pred L g.p = true := by rw [h7]; rfl
    rw [hp]
    cases hg : g.neg <;> simp [h7, Mask.has]
  · have hb : (g.p == (7 : PredIx)) = false := by simpa using h7
    rw [hb, if_neg (by decide), Mask.has_ofLanes]
    have h1 : L < 1024 := by omega
    cases ha : t.active.has L <;> cases hp : t.pred L g.p <;> cases hg : g.neg <;> simp [h1, hL, Mask.mem_lanes, ha, hp]

/-- The end of a register instruction changes only the team that ran it. -/
theorem State.setTeam_others {s : State} {u t : Team} (h : u.uid = t.uid) {v : Team} (hv : v ∈ s.teams) (hne : v.uid ≠ t.uid) :
    v ∈ (s.setTeam u).teams := by
  simp only [State.setTeam, List.mem_map]
  refine ⟨v, hv, ?_⟩
  have : (v.uid == u.uid) = false := by simpa [h] using hne
  simp [this]

end Machine

end Sys2Proof
end

