-- ==== Sys2Proof/Tests/Slice0.lean ====
section
/-! SUPPORT. Tests of the model: ill-formed terms that the check refuses, words of the spec's encodings, single steps with
the spec's own results, and for each statement with hypotheses a state and operands that meet them. -/

namespace Sys2Proof.Tests

set_option Elab.async false

open Sys2Proof.Machine Sys2Proof.Claims

/-! ### Terms that are no instructions: one for each check (02 R45 to R54) -/

/-- Unguarded. -/
abbrev g7 : Guard := .always

/-- ?!p7, which R54 forbids. -/
abbrev gBad : Guard := ⟨true, 7⟩

/-- Guarded by p0. -/
abbrev g0 : Guard := ⟨false, 0⟩

/-- Integer operands of a type, unguarded. -/
abbrev alu (ty : IType) (d : Dst) (a : Src) (b : Src := .none) (c : Src := .none) : Alu := ⟨g7, ty, d, a, b, c⟩

/-- Floating-point operands of a type, unguarded, MODE's rounding. -/
abbrev fpu (ty : FType) (d : Dst) (a : Src) (b : Src := .none) (c : Src := .none) (rs : BitVec 3 := 0)
    (sat : Bool := false) : Fpu := ⟨g7, ty, rs, sat, d, a, b, c⟩

/-- A memory operand at offset register v1 of handle 3. -/
abbrev mem3 : MemRef := ⟨.v 1, false, .idx 3, 0, false⟩

abbrev acc (w : Width := .w32) (ord : Order := .plain) (scope : Scope := .team) (m : MemRef := mem3) : MemAcc :=
  ⟨g7, false, w, ord, scope, m⟩

abbrev rec3 : RecRef := ⟨.s 2, .idx 3, 0⟩

/-- Control instructions: offsets of whole parcels, ?!p7, loop levels 1 to 7, one to four pairs, register pairs. -/
theorem test_wf_control :
    [Instr.bra .always 2, .brv 0 false 2 8, .brv 0 false 8 3, .brm [] 4,
      .brm (List.replicate 5 ⟨0, false, 4⟩) 4, .brk gBad 1, .brk g7 0, .cont g7 8, .cont gBad 1, .call (.direct 1),
      .call (.ind 3), .exit gBad, .loop 6].map Instr.wf = List.replicate 13 false := by decide

/-- Guards and uniformity: a guarded uniform form, a scalar result of a vector source, an immediate where none may stand,
an odd register of a pair, a source that the class does not use. -/
theorem test_wf_integer_operands :
    [Instr.add ⟨g0, .i32, .s 1, .s 2, .s 3, .none⟩ false, .add (alu .i32 (.s 1) (.v 2) (.s 3)) false,
      .add ⟨gBad, .i32, .v 1, .v 2, .v 3, .none⟩ false, .add (alu .i32 (.v 1) (.imm 3) (.v 3)) false,
      .add (alu .i32 (.v 1) (.v 2) (.v 3) (.v 4)) false, .add (alu .i64 (.v 1) (.v 2) (.v 4)) false,
      .add (alu .i64 (.v 2) (.v 3) (.v 4)) false, .sub (alu .n64 (.v 2) (.v 4) (.v 5)) false,
      .mad (alu .i64 (.v 2) (.v 4) (.v 6) (.s 1)) false, .mad (alu .i32 (.v 2) (.v 4) (.v 6) (.imm 1)) false,
      .mul (alu .i32 (.v 1) (.v 2) (.v 3) (.v 4)), .mov (alu .i32 (.v 1) (.v 2) (.v 3)),
      .absn (alu .i32 (.v 1) (.v 2) (.v 3)) true false].map Instr.wf = List.replicate 13 false := by decide

/-- Types and modifiers of the integer class. -/
theorem test_wf_integer_types :
    [Instr.add (alu .b32 (.v 1) (.v 2) (.v 3)) true, .sub (alu .b32 (.v 1) (.v 2) (.v 3)) true,
      .mad (alu .b32 (.v 1) (.v 2) (.v 3) (.v 4)) true, .mulhi (alu .b32 (.v 1) (.v 2) (.v 3)),
      .min (alu .b32 (.v 1) (.v 2) (.v 3)), .max (alu .b32 (.v 1) (.v 2) (.v 3)),
      .clamp (alu .b32 (.v 1) (.v 2) (.v 3) (.v 4)), .absn (alu .n32 (.v 1) (.v 2)) false false,
      .and (alu .i16x2 (.v 1) (.v 2) (.v 3)) false, .or (alu .n8x4 (.v 1) (.v 2) (.v 3)) false,
      .xor (alu .n8x4 (.v 1) (.v 2) (.v 3)) true, .shl (alu .n64 (.v 1) (.v 2) (.v 4)),
      .shr (alu .n64 (.v 2) (.v 4) (.v 6) (.v 8)), .rot (alu .i64 (.v 2) (.v 1) (.v 4)) false,
      .bcnt (alu .n8x4 (.v 1) (.v 2)) .popc, .bcnt (alu .n64 (.v 1) (.v 3)) .clz,
      .bitf (alu .i16x2 (.v 1) (.v 2) (.v 3)) .ext, .bitf (alu .i32 (.v 1) (.v 2) (.v 3)) .rev,
      .bitf (alu .n64 (.v 2) (.v 4) (.v 3) (.v 5)) .ins].map Instr.wf = List.replicate 19 false := by decide

/-- Comparisons, predicates, selections, carries, moves, addresses, divisions, extensions. -/
theorem test_wf_integer_rest :
    [Instr.setp g7 .b32 .lt .none 1 (.v 1) (.v 2), .setp g7 .i16x2 .eq .none 1 (.v 1) (.v 2),
      .setp g7 .n64 .eq .none 1 (.v 1) (.v 2), .setp g7 .i32 .eq .none 1 (.imm 1) (.v 2),
      .sel (alu .i32 (.s 1) (.s 2) (.s 3)) 1, .plog g7 .not 1 2 3, .plog gBad .and 1 2 3,
      .addc (alu .i32 (.v 1) (.v 2) (.v 3)) none 1, .addc (alu .n32 (.s 1) (.s 2) (.s 3)) none 7,
      .subb (alu .n32 (.v 1) (.v 2) (.v 3) (.v 4)) none 1, .csub (alu .b32 (.v 1) (.v 2) (.v 3)) (.ge 7),
      .csub (alu .i32 (.s 1) (.s 2) (.s 3)) (.p 1), .csub (alu .i32 (.s 1) (.s 2) (.s 3)) (.ge 1),
      .movi g7 .i32 (.v 1) (.i64 5), .movi g7 .i64 (.v 1) (.i32 5), .movi g0 .i32 (.s 1) (.i32 5),
      .lea (alu .b32 (.v 1) (.v 2) (.v 3) (.v 4)) false 0, .lea (alu .i32 (.v 1) (.v 2) (.v 3) (.v 4)) true 0,
      .lea (alu .i64 (.v 2) (.v 4) (.v 3) (.v 6)) false 0, .div (alu .b32 (.v 1) (.v 2) (.v 3)) false false,
      .div (alu .i16x2 (.v 1) (.v 2) (.v 3)) true true, .ext (alu .i32 (.v 1) (.v 2)) (.sext 32),
      .ext (alu .b32 (.v 1) (.v 2)) (.zext 3), .ext (alu .i64 (.v 2) (.v 3)) (.zext 32),
      .ext (alu .i32 (.v 2) (.v 3)) .trunc, .ext (alu .i64 (.v 2) (.v 4)) .trunc,
      .mulw (alu .i32 (.v 1) (.v 2) (.v 3)), .mulw (alu .i64 (.v 2) (.v 4) (.v 6))].map Instr.wf
      = List.replicate 28 false := by decide

/-- Roundings, types, `.sat` and conversion pairs of the floating-point class. -/
theorem test_wf_float :
    [Instr.fadd (fpu .f32 (.v 1) (.v 2) (.v 3) .none 6), .fsub (fpu .f32 (.v 1) (.v 2) (.v 3) (.v 4)),
      .fmul (fpu .f64 (.v 1) (.v 2) (.v 4)), .fma (fpu .f32 (.v 1) (.v 2) (.v 3) (.v 4) 7),
      .fmin (fpu .f32 (.v 1) (.v 2) (.v 3) .none 1), .fmax (fpu .f32 (.v 1) (.v 2) (.v 3) .none 0 true),
      .fabsn (fpu .f32 (.v 1) (.v 2) (.v 3)) .abs, .fabsn (fpu .f32 (.v 1) (.v 2) (.imm 3)) .cpsgn,
      .fsetp g7 .f16x2 .eq .none 1 (.v 1) (.v 2), .fsetp g7 .f64 .eq .none 1 (.v 1) (.v 2),
      .frcp (fpu .f64 (.v 2) (.v 4)), .frsq (fpu .f32 (.v 2) (.v 4) (.v 5)), .fexp2 (fpu .f32 (.v 2) (.v 4) .none .none 2),
      .flog2 (fpu .f32 (.v 2) (.v 4) .none .none 0 true), .fsqrt (fpu .f32 (.v 2) (.v 4) .none .none 6),
      .fsincos (fpu .f32 (.v 1) (.v 2)), .fsincos (fpu .bf16x2 (.v 2) (.v 4)), .fdiv (fpu .f32 (.v 1) (.v 2) (.v 3) .none 0 true),
      .fclass (fpu .f64 (.v 1) (.v 3)), .cvtif (fpu .f32 (.v 1) (.v 2)) .n8x4, .cvtif (fpu .f64 (.v 2) (.v 4) .none .none 1) .i32,
      .cvtif (fpu .f64 (.v 1) (.v 2)) .i32, .cvtfi (fpu .f32 (.v 1) (.v 2)) .b32, .cvtfi (fpu .f16x2 (.v 1) (.v 2)) .i32,
      .cvtff (fpu .f64 (.v 2) (.v 4)) .f32 true, .cvtff (fpu .f32 (.v 2) (.v 4)) .f32 false,
      .cvtff (fpu .f16x2 (.s 2) (.s 4) .none .none 6) .f32 false, .frnd (fpu .f32 (.v 1) (.v 2) (.v 3)),
      .fscal (fpu .f32 (.v 1) (.v 2) (.v 3) .none 0) .mant, .fscal (fpu .f32 (.v 1) (.v 2) (.v 3) .none 7) .ldexp,
      .fscal (fpu .f64 (.v 1) (.v 3)) .exp, .dot2 (fpu .f32 (.v 1) (.v 2) (.v 3) (.v 4)),
      .dot2 (fpu .f16x2 (.v 1) (.v 2) (.imm 3) (.v 4))].map Instr.wf = List.replicate 33 false := by decide

/-- Narrow formats and cross-lane instructions. -/
theorem test_wf_narrow_and_cross_lane :
    [Instr.qscale ⟨g7, 0, .s 1, .v 2, .none⟩, .qpack ⟨g7, 0, .v 1, .v 2, .v 3⟩, .qunpack ⟨g7, 0, .none, .v 2, .none⟩,
      .fmtq ⟨gBad, 0, .v 1, .v 2, .none⟩, .quant ⟨g7, 0, .v 1, .v 2, .imm 3⟩, .dequant ⟨g7, 0, .v 1, .imm 2, .v 3⟩,
      .rngNext g7 (.s 1), .rngUnif g7 .none, .rngSeed g7 (.v 1), .rngSeed g7 (.imm 1),
      .shfl g7 .idx false (.s 1) (.v 2) (.v 3) none, .shfl g7 .idx true (.v 1) (.v 2) (.v 3) none,
      .shfl g7 .up false (.v 1) (.imm 2) (.v 3) none, .vote g7 (.v 1) (.eq (.imm 2)), .vote gBad (.v 1) (.any 1),
      .ballot g7 (.v 1) 1 (.word (.v 2)), .tred g7 (.add .b32) 0 (.s 1) (.v 2), .tred g7 (.and .i32) 0 (.s 1) (.v 2),
      .tred g7 (.fadd .f16x2) 0 (.s 1) (.v 2), .tred g7 (.add .i32) 1 (.s 1) (.v 2), .tred g7 (.fadd .f32) 6 (.s 1) (.v 2),
      .tred g7 (.add .i64) 0 (.s 1) (.v 2), .tscan g7 (.fadd .f32) false (.v 1) (.v 2), .tscan g7 (.add .i32) false (.s 1) (.v 2),
      .bcast g7 false (.v 1) (.v 2) (.v 3), .bcast g7 true (.v 1) (.v 2) (.s 3)].map Instr.wf
      = List.replicate 26 false := by decide

/-- Memory instructions: orders, scopes, widths, `.sx`, `fs`, groups of registers. -/
theorem test_wf_memory :
    [Instr.ld (acc .w32 .rel .die) false (.v 2), .ld (acc .w32 .plain .die) false (.v 2), .ld (acc .w32) true (.v 2),
      .ld (acc .w64) false (.v 3), .ld (acc .w128) false (.v 2), .ld (acc (m := ⟨.imm 1, false, .idx 3, 0, false⟩)) false (.v 2),
      .ld (acc (m := ⟨.v 1, true, .idx 3, 0, false⟩)) false (.v 2),
      .ld (acc (m := ⟨.v 1, false, .idx 3, 0x80000, false⟩)) false (.v 2), .ld acc false (.s 2),
      .st (acc .w32 .acq .die) (.v 2), .st (acc .w64) (.v 3), .st acc (.imm 3), .ldro (acc .w32 .acq .die) false (.v 2),
      .lds { (acc : MemAcc) with fs := true } false (.v 2), .sts { (acc : MemAcc) with fs := true } (.v 2),
      .samp g7 false .none (.v 1) (.v 2) (.v 3) (.idx 3), .samp g7 false (.v 4) (.imm 1) (.v 2) (.v 3) (.idx 3),
      .pf { (acc : MemAcc) with fs := true } .l2, .hmap false (.v 1) 2 ⟨.s 1, false, .idx 3, 0, false⟩,
      .hmap false (.s 1) 2 mem3, .hquery g7 .info (.v 1) (.idx 3), .hquery g7 .len .none (.idx 3),
      .hquery g0 .len (.s 2) (.idx 3)].map Instr.wf = List.replicate 23 false := by decide

/-- Atomics, barriers, waits, circular buffers, fences. -/
theorem test_wf_sync :
    let a : AtomAcc := ⟨g7, false, .plain, .team, mem3⟩
    [Instr.atom { a with scope := .die } (.add .i32) (.v 2) (.v 3), .atom a (.add .b32) (.v 2) (.v 3),
      .atom a (.inc .i32) (.v 2) (.v 3), .atom a (.fmin .f16x2) (.v 2) (.v 3), .atom a (.xor .i64) (.v 2) (.v 3),
      .atom a (.and .n8x4) (.v 2) (.v 3), .atom a (.add .i32) (.v 2) (.imm 3), .cas a .i32 (.v 2) (.v 3),
      .cas a .i64 (.v 2) (.v 6), .cas a .i32 .none (.v 2), .cas a .n8x4 (.v 2) (.v 4), .cas a .i32 (.v 2) (.k 1),
      .red { a with ord := .acq, scope := .die } (.add .i32) (.v 2), .red a (.add .i64) (.v 3),
      .barSync .core 16 (.s 1), .barSync .sys 1 (.s 1), .barSync .team 1 (.s 1), .barSync .core 1 (.v 1),
      .barArv .team 1 (.s 1) (.s 2), .barArv .core 1 (.v 1) (.s 2), .barWait .team 1 (.s 1), .barWait .core 1 (.v 1),
      .waitaddr .eq .i16x2 true .die (.s 1) (.s 2) false (.idx 3) 0 (.s 4) 0,
      .waitaddr .lt .b32 true .die (.s 1) (.s 2) false (.idx 3) 0 (.s 4) 0,
      .waitaddr .sge .i32 true .die (.s 1) (.s 2) false (.idx 3) 0 (.s 4) 0,
      .waitaddr .eq .i32 false .die (.s 1) (.s 2) false (.idx 3) 0 (.s 4) 0,
      .waitaddr .eq .i64 true .die (.s 1) (.s 2) false (.idx 3) 0 (.s 4) 0, .cbputAcq (.s 1) 8, .cbputAcq (.v 1) 0,
      .cbputCom 8, .cbget (.v 1) 0, .cbrel 8, .cbinit 8 3 (.s 1) (.s 2), .cbinit 0 3 (.v 1) (.s 2), .fenceRo .team,
      .fenceOpr .team, .waitf true 0 (.s 1), .waitf true 1 (.v 1),
      .sig false true false true .die ⟨.s 1, false, .idx 3, 0, false⟩ (.s 3),
      .sig false true false false .die mem3 (.s 2)].map Instr.wf = List.replicate 40 false := by decide

/-- Tiles, matrices, copies and collectives. -/
theorem test_wf_engines :
    [Instr.tdecl false ⟨.v 1, .idx 3, 0⟩ (.idx 4), .ttile (.v 1) rec3 (.idx 4), .topenR (.v 1), .topenW (.k 1), .topenWRecall .none,
      .tseal false (.sp .team), .tdrop false (.v 1), .tsplit (.s 1) (.s 2) (.s 3) (.s 4), .tsplit (.s 2) (.s 4) (.v 3) (.s 6), .tfree (.k 0),
      .tquery (.s 1) (.s 2), .menq false 0 (.s 1) 8, .menq false 0 (.v 1) 16, .mwaitId (.v 1) (.s 2), .mwaitFlag false (.v 2),
      .mwld false 0 .none (.s 2) (.s 3), .mwld false 0 (.s 1) (.s 2) (.k 3), .mwrel (.v 1), .macz false (.k 1),
      .macrd g7 false true 1 (.v 2) (.s 1) (.s 2) (.s 3), .macrd g7 false false 1 (.v 3) (.s 1) (.s 2) (.s 3),
      .macrd g7 false false 1 (.s 2) (.s 1) (.s 2) (.s 3), .wsld false 0 1 (.s 1) (.k 2), .wsinfoCal (.s 1) (.s 2), .wsinfoNow (.v 1),
      .mquery (.s 1) (.s 2), .dcopy false .team rec3, .dfill false .die true rec3 (.s 3), .dfill false .die false rec3 (.v 3),
      .grpMake (.v 1) (.s 1) (.s 2) (.s 3), .grpMake (.s 1) (.v 1) (.s 2) (.s 3), .grpFree (.k 1), .grpInfo (.s 1) (.s 2),
      .coll false .allred .add (.int .b32) (.s 1) (.s 2) (.s 3) 1 2 8, .coll false .allgather .min (.int .b32) (.s 1) (.s 2) (.s 3) 1 2 8,
      .coll false .p2p .add (.flt .f32) (.s 1) (.s 2) (.s 3) 1 2 8, .coll false .allred .add (.int .i32) (.s 1) (.s 2) (.s 3) 1 2 0,
      .coll false .allred .add (.int .i32) (.s 1) (.s 2) (.s 3) 1 2 0x10000001, .gbarSync (.k 1), .gbarArv false (.v 1)].map
      Instr.wf = List.replicate 40 false := by decide

/-- Fills, rays, raster, system, launches. -/
theorem test_wf_system :
    [Instr.sclook g7 false (.v 2) (.v 4), .sclook g7 false (.v 4) (.v 3), .sclook g7 false (.v 4) (.k 3), .sclook gBad false (.v 4) (.v 2),
      .scwait g7 (.s 4) (.v 2), .scfill false (.v 1), .scinv false (.s 1) (.v 1), .frameCtx (.s 1), .frameCtx (.v 2), .frameTag (.s 2) (.v 1),
      .gtake 4, .pfill false (.v 1), .pfail false (.s 1) (.v 2), .prangeAdd false rec3 (.k 1), .prangeRm false (.v 1), .prangeClr false (.k 1),
      .prangeLayer false rec3 (.v 1), .rtrace false false (.v 1) (.k 1) (.s 2) 1 2 3, .rsort false true (.s 1) (.v 1) (.s 2) 1 2 3,
      .rhit g7 true (.v 2) (.v 1) 3 0 none, .rhit g7 false (.v 4) (.v 1) 3 0 none, .rhit g7 true (.s 4) (.v 1) 3 0 none, .rhitCnt (.s 1),
      .rprog false 16 rec3, .visJob false (.v 1) rec3, .visGet g7 (.v 2) (.s 1) none, .visGet g7 (.v 4) (.v 1) none,
      .csrr true (.s 1) 4, .csrr true (.s 2) 5, .csrr false (.v 1) 4, .csrw (.v 1) (.s 2) 4, .csrw (.s 1) (.v 2) 4, .ksave .p 0x80,
      .tlbi false .va .core (.s 2), .tlbi false .va .die (.s 3), .tlbi false .all .die (.s 2), .tlbi false .ctx .die .none,
      .spawn false (.v 1) rec3 .none, .spawn false (.s 1) rec3 (.s 3), .qpost false 64 rec3, .qwaitDone (.v 1) (.s 1) 2,
      .qwaitDone (.s 1) (.v 1) 2, .qwaitSpace (.s 1) 64, .qwaitSpace (.v 1) 2].map Instr.wf = List.replicate 44 false := by decide

/-! ### Words of the spec's encodings (02 R44), family by family -/

/-- 02's kernel at 0x00 to 0x4C, with its header. -/
theorem test_decode_02_example :
    reads [0x06FF0007, 0x00010000] = some (.clauseStart ⟨1, 0, 6, 15, 15, 0, 1⟩) ∧
    reads [0xFFFE0491, 0x00001FFF, 0x000003E8] = some (.movi g7 .i32 (.s 1) (.i32 1000)) ∧
    reads [0x07200440, 0x00001FFE] = some (.add (alu .i32 (.v 1) (.sp .lane) (.s 1)) false) ∧
    reads [0xFFFE0892, 0x00801FFF, 3, 2] = some (.movi g7 .n64 (.s 2) (.i64 0x0000000200000003)) ∧
    reads [0x8C040850, 0x00001E0B] = some (.mad (alu .i32 (.v 2) (.v 1) (.k 3) (.s 2)) false) ∧
    reads [0x90080C40, 0x000023FF] = some (.add ⟨⟨true, 0⟩, .i32, .v 3, .v 2, .k 4, .none⟩ false) ∧
    reads [0xFC081041, 0x00001FFF, 0x00010000] = some (.add (alu .i32 (.v 4) (.v 2) (.imm 0x00010000)) false) ∧
    reads [0xFFFFFC24, 0x00001FFF] = some (.exit g7) := by decide

/-- Single worked encodings of 02, 04 to 09. -/
theorem test_decode_examples_computing :
    reads [0xFFFFFC00, 0x00001FFF] = some .nop ∧ reads [0, 0] = none ∧
    reads [0x2C0C0CAC, 0x02205FFE] = some (.csub (alu .n32 (.v 3) (.v 3) (.s 11)) (.ge 2)) ∧
    reads [0x080420CC, 0x00041C0C] = some (.fma (fpu .f32 (.v 8) (.v 1) (.v 2) (.v 3) 2)) ∧
    reads [0x14101944, 0x00041FFC] = some (.quant ⟨g7, 2, .v 6, .v 4, .v 5⟩) ∧
    reads [0x84040980, 0x0040DFFF] = some (.shfl g7 .xor false (.v 2) (.v 1) (.k 1) none) ∧
    reads [0xFC0409C1, 0x40001FFF, 0x00010003] =
      some (.ld (acc (m := ⟨.v 1, false, .idx 3, 16, false⟩)) false (.v 2)) ∧
    reads [0xFFFFFE20, 0x01011FFF] = some (.fenceRo .core) ∧ reads [0xFFFFFE20, 0x03005FFF] = some (.fenceRel .die) := by
  decide

/-- Single worked encodings of 10 to 19. -/
theorem test_decode_examples_engines :
    reads [0xFC041601, 0x00201F87, 0x00008002] =
      some (.atom ⟨g7, false, .plain, .team, ⟨.v 1, false, .idx 2, 8, false⟩⟩ (.add .n32) (.v 5) (.k 1)) ∧
    reads [0xFE13FE48, 0x00005FFF] = some (.topenW (.s 4)) ∧
    reads [0xFE42A280, 0x00021FFF] = some (.menq false 1 (.s 40) 16) ∧
    reads [0x82180A94, 0x01001FFF] = some (.macrd g7 false true 0 (.v 2) (.s 6) (.k 0) .none) ∧
    reads [0xFE0BFEC1, 0x03001FFF, 0x00040005] = some (.dcopy false .die ⟨.s 2, .idx 5, 64⟩) ∧
    reads [0xFC082300, 0x00001FFF] = some (.sclook g7 false (.v 8) (.v 2)) ∧
    reads [0xFC083304, 0x000007FF] = some (.scwait ⟨false, 1⟩ (.v 12) (.v 2)) ∧
    reads [0xFFFFFF10, 0x00001FFF] = some (.frameCtx .none) ∧
    reads [0x8E13FF42, 0x00001E1B, 0x00008009, 8] = some (.rtrace false false (.s 4) (.k 3) (.s 6) 8 9 8) ∧
    reads [0xFFFE0F89, 0x00201FFF, 1] = some (.csrr false (.s 3) 1) ∧ reads [0xFFFFFF80, 0x00001C17] = some (.trap 5) ∧
    reads [0xFFFFFF90, 0x00001FFF] = some .yield ∧ reads [0xFFFFFF96, 0x00009FFF, 0xF, 0] = some (.ksave .s 0xF) ∧
    reads [0xFE13FFC5, 0x00001C17, 0x0000000C] = some (.qpost false 5 ⟨.s 4, .idx 12, 0⟩) := by decide

/-- A conversion written field by field: `cvtfi.i32.f32.rtz v5, v2` (02 R44, 05 R135, R147). -/
theorem test_decode_conversion :
    reads [lo32 (layout 0 0 0 2 0 0 7 0xFF 0xFF 2 5 0x41 0), hi32 (layout 0 0 0 2 0 0 7 0xFF 0xFF 2 5 0x41 0)] =
      some (.cvtfi (fpu .f32 (.v 5) (.v 2) .none .none 2) .i32) ∧
    reads [0xFC081504, 0x00041FFF] = some (.cvtfi (fpu .f32 (.v 5) (.v 2) .none .none 2) .i32) := by decide

/-- Why a pattern is refused. -/
def refusal {α : Type} (x : Except DecodeErr α) : Option DecodeErr :=
  match x with
  | .error e => some e
  | .ok _ => none

/-- Patterns that are no instructions: an opcode that R55 does not list, a set bit in a field without a use, a length that the
class does not have, a predicate as a source, a header with a set bit in its low half or a flag 12 (R40, R45, R56). -/
theorem test_decode_refuses :
    refusal (decodeParcels 0xFFFFFC38 0x00001FFF 0 0) = some .opcode ∧
    refusal (decodeParcels 0xFFFFFC00 0x01001FFF 0 0) = some .field ∧
    refusal (decodeParcels 0xFFFFFC01 0x00001FFF 0 0) = some .length ∧
    refusal (decodeParcels 0x07000440 0x00001FFE 0 0) = some .field ∧
    refusal (decodeHeader 0x06FF0007 0x00010001) = some .headerField ∧
    refusal (decodeHeader 0x06FC0007 0x00010000) = some .headerField := by decide

/-! ### One step on a small state -/

/-- A launch of one team of 32 lanes with 16 vector registers and 4 KiB of scratchpad. -/
def smallLaunch : Launch := { blankLaunch with lanes := 32, vregs := 16, scratch := 4096 }

/-- A team at its start, at the last instruction of a clause. -/
def team0 : Team :=
  { freshTeam 0 0 1 1 0 ⟨0, 0, 0, 0, 0⟩ ⟨0, 0, 0⟩ smallLaunch false with clause := ⟨1, 15, 15, 0⟩ }

/-- Gives every lane a value of a vector register. -/
def vset (t : Team) (n : Nat) (w : Word) : Team := t.mapLanes fun _ l => l.setV n w

/-- A state with one team, its context and its grid. -/
def on (t : Team) : State := { State.reset with teams := [t], ctxs := [placedCtx], grids := [placedGrid] }

/-- What the team looks like after an instruction. -/
def after {α : Type} (i : Instr) (t : Team) (f : Team → α) : Option α :=
  match exec i (on t) with
  | .next s => (s.team? 0).map f
  | _ => none

/-- The code of the fault that stops a team. -/
def faultCode (t : Team) : Option (BitVec 8) :=
  match t.status with
  | .stopping r => some (r.finfo0.extractLsb' 24 8)
  | _ => none

/-- v1 and v2 hold these values in every lane. -/
def ab (a b : Word) : Team := vset (vset team0 1 a) 2 b

/-- `i` writes v4 of lane 5 from v1 and v2. -/
def gives (i : Instr) (a b w : Word) : Bool := after i (ab a b) (·.vreg 5 4) == some w

/-! 04, "borderline results" -/

theorem test_add_sat : gives (.add (alu .n8x4 (.v 4) (.v 1) (.v 2)) true) 0xF010FF01 0x20F00101 0xFFFFFF02 = true := by decide +kernel

theorem test_sub_packed : gives (.sub (alu .i16x2 (.v 4) (.v 1) (.v 2)) false) 0x80000001 0x00010002 0x7FFFFFFF = true := by
  decide +kernel

theorem test_shr_signed : gives (.shr (alu .i32 (.v 4) (.v 1) (.v 2))) 0x80000000 40 0xFFFFFFFF = true := by decide +kernel

theorem test_shl_full_width :
    after (.shl (alu .n64 (.v 4) (.v 2) (.s 1))) ((ab 0 1).setS 1 64) (fun t => (t.vreg 5 4, t.vreg 5 5)) = some (0, 0) := by
  decide +kernel

theorem test_rot_count : gives (.rot (alu .b32 (.v 4) (.v 1) (.v 2)) false) 0x80000001 33 3 = true := by decide +kernel

theorem test_bitf_ext_signed : gives (.bitf (alu .i32 (.v 4) (.v 1) (.v 2)) .ext) 0xF00 0x408 0xFFFFFFFF = true := by decide +kernel

theorem test_bitf_ext_outside : gives (.bitf (alu .n32 (.v 4) (.v 1) (.v 2)) .ext) 0x12345678 0x2020 0 = true := by decide +kernel

theorem test_div_by_zero_nz : gives (.div (alu .i32 (.v 4) (.v 1) (.v 2)) false true) 7 0 0xFFFFFFFF = true := by decide +kernel

theorem test_div_remainder : gives (.div (alu .i32 (.v 4) (.v 1) (.v 2)) true false) 0xFFFFFFF9 2 0xFFFFFFFF = true := by decide +kernel

theorem test_bcnt_clz : gives (.bcnt (alu .n64 (.v 4) (.v 2)) .clz) 0 0 64 = true := by decide +kernel

/-- 04 R123: a zero divisor faults with ARITH and writes nothing. -/
theorem test_div_by_zero_faults :
    after (.div (alu .i32 (.v 4) (.v 1) (.v 2)) false false) (vset (ab 7 0) 4 9) (fun t => (faultCode t, t.vreg 5 4, t.pc)) =
      some (some codeArith, 9, 0) := by decide +kernel

/-! 05, "fused against separate rounding" and "conversion and trap cases"; MODE is RNE at a team's start -/

theorem test_fma_is_fused :
    after (.fma (fpu .f32 (.v 4) (.v 1) (.v 2) (.v 3))) (vset (ab 0x3F800800 0x3F800800) 3 0xBF801000)
      (fun t => (t.vreg 5 4, t.ctl.fstat)) = some (0x33800000, 0) := by decide +kernel

theorem test_fmul_ties_to_even :
    after (.fmul (fpu .f32 (.v 4) (.v 1) (.v 2))) (ab 0x3F800800 0x3F800800) (fun t => (t.vreg 5 4, t.ctl.fstat &&& 0x10)) =
      some (0x3F801000, 0x10) := by decide +kernel

theorem test_cvtfi_rtz_clamps : gives (.cvtfi (fpu .f32 (.v 4) (.v 1) .none .none 2) .i32) 0x4F32D05E 0 0x7FFFFFFF = true := by
  decide +kernel

theorem test_cvtfi_rne : gives (.cvtfi (fpu .f32 (.v 4) (.v 1) .none .none 1) .i32) 0xC0200000 0 0xFFFFFFFE = true := by decide +kernel

theorem test_cvtif_rounds : gives (.cvtif (fpu .f32 (.v 4) (.v 1)) .i32) 16777217 0 0x4B800000 = true := by decide +kernel

theorem test_cvtff_two_elements : gives (.cvtff (fpu .f16x2 (.v 4) (.v 1) (.v 2)) .f32 false) 0x477FF000 0x3F800000 0x3C007C00 = true := by
  decide +kernel

theorem test_cvtff_bf16 : gives (.cvtff (fpu .bf16x2 (.v 4) (.v 1)) .f32 false) 0x3F808000 0 0x00003F80 = true := by decide +kernel

theorem test_frnd_away : gives (.frnd (fpu .f32 (.v 4) (.v 1) .none .none 5)) 0x40200000 0 0x40400000 = true := by decide +kernel

theorem test_frnd_even : gives (.frnd (fpu .f32 (.v 4) (.v 1) .none .none 1)) 0x40200000 0 0x40000000 = true := by decide +kernel

theorem test_fscal_parts :
    gives (.fscal (fpu .f32 (.v 4) (.v 1)) .mant) 0x41400000 0 0x3F400000 = true ∧
    gives (.fscal (fpu .f32 (.v 4) (.v 1)) .exp) 0x41400000 0 4 = true := by decide +kernel

/-- R132 with MODE.TE_DZ: the instruction faults, writes nothing and leaves FSTAT as it was. -/
theorem test_fdiv_traps :
    let t := ab 0x3F800000 0
    after (.fdiv (fpu .f32 (.v 4) (.v 1) (.v 2))) { t with ctl := { t.ctl with mode := 0x101 } }
      (fun t => (faultCode t, t.vreg 5 4, t.ctl.fstat)) = some (some codeArith, 0, 0) := by decide +kernel

/-! 03, 07: control flow and lanes -/

/-- R24, R56: a register beyond the allocation is ILLOP. -/
theorem test_register_beyond_allocation :
    after (.mov (alu .i32 (.v 16) (.v 1))) team0 faultCode = some (some codeIllop) := by decide +kernel

/-- R103: a lane whose guard is false keeps its register. -/
theorem test_guarded_lane_keeps :
    let t := (ab 7 8).mapLanes fun L l => l.setP 0 (L == 5)
    after (.add ⟨g0, .i32, .v 4, .v 1, .v 2, .none⟩ false) t (fun t => (t.vreg 5 4, t.vreg 6 4)) = some (15, 0) := by decide +kernel

/-- R90: `exit` of the guarded lanes leaves the others running; with all gone the team has ended. -/
theorem test_exit_some :
    let t := team0.mapLanes fun L l => l.setP 0 (L == 5)
    after (.exit g0) t (fun t => (t.active.has 5, t.active.has 6, t.exited.has 5, t.pc)) = some (false, true, true, 8) := by decide +kernel

/-- R84: a return without a call is STACK. -/
theorem test_ret_without_call : after .ret team0 faultCode = some (some codeStack) := by decide +kernel

/-- R183: 32 lies beyond a team of 32 lanes, so each lane keeps its own value (07's example); 1 exchanges neighbours. -/
theorem test_shfl_xor :
    let t := (ab 7 8).mapLanes fun L l => l.setV 1 (BitVec.ofNat 32 (100 + L))
    after (.shfl g7 .xor false (.v 4) (.v 1) (.imm 32) none) t (·.vreg 5 4) = some 105 ∧
    after (.shfl g7 .xor false (.v 4) (.v 1) (.k 1) none) t (·.vreg 5 4) = some 104 := by decide +kernel

/-- R186: an integer sum over the eligible lanes. -/
theorem test_tred_add : after (.tred g7 (.add .i32) 0 (.s 3) (.v 1)) (ab 2 0) (·.sreg 3) = some 64 := by decide +kernel

/-- R458: outside handler mode `rfe` is ILLOP. -/
theorem test_rfe_needs_handler : after .rfe team0 faultCode = some (some codeIllop) := by decide +kernel

theorem test_csrr_fstat :
    let t := { team0 with ctl := { team0.ctl with fstat := 0x11 } }
    after (.csrr false (.s 3) 1) t (·.sreg 3) = some 0x11 := by decide +kernel

theorem test_trap_detail : after (.trap 5) team0 faultCode = some (some codeTrap) := by decide +kernel

/-! ### A state with memory: one page of code and data, a handle table, a core that holds the page's translation -/

/-- Bytes from an address on, in the canonical form of memory. -/
def seg (a : Nat) (bs : List Byte) : Memory := (bs.zipIdx.filter fun p => p.1 != 0).map fun p => (a + p.2, p.1)

/-- Bytes at an address of the page. -/
def putAt (m : Memory) (a : Nat) (bs : List Byte) : Memory := m.writeCells (seg (placedCode + a) bs)

/-- A handle entry (08 R191) from its fields. -/
def entryOf (kind base len soff rights aux : Nat) : Nat :=
  base + len * 2 ^ 64 + kind * 2 ^ 124 + rights * 2 ^ 144 + soff * 2 ^ 153 + aux * 2 ^ 192

/-- The handle table at 0x4000: 0 GLOBAL, 1 SCRATCH, 2 MAPPED, 3 GLOBAL that may only be written, 4 BUFFER 5, 5 SAMPLER,
6 PROCEDURAL, 7 invalid. -/
def handleTable : List Nat :=
  [entryOf 1 0x1000 0x1000 0 7 0, entryOf 2 0 0x800 0 7 0, entryOf 3 0x1000 0x400 0x800 3 0, entryOf 1 0x1000 0x100 0 2 0,
   entryOf 5 0x2000 0x1000 0 3 5, entryOf 6 0x1000 0x1000 0 1 0x30003, entryOf 4 0x10000 0x10000 0 3 0, 0]

/-- A clause header of one instruction. -/
def header1 : List Byte := leBytes 8 0x01FF0003

/-- The page's tables, clause headers at 0x40, 0x60 and 0x80, and the handle table. -/
def worldMem : Memory :=
  let table (k next : Nat) : Memory := seg (placedRoot + 4096 * k) (leBytes 8 next)
  table 0 (placedRoot + 0x1000 + 2 ^ 62) ++ table 1 (placedRoot + 0x2000 + 2 ^ 62) ++ table 2 (placedRoot + 0x3000 + 2 ^ 62) ++
    table 3 (placedRoot + 0x4000 + 2 ^ 62) ++ table 4 (placedCode + 2 * 2 ^ 62 + 2 * 2 ^ 60 + 2 ^ 59 + 2 ^ 57 + 2 ^ 56) ++
    seg (placedCode + 0x40) header1 ++ seg (placedCode + 0x60) header1 ++ seg (placedCode + 0x80) header1 ++
    seg (placedCode + 0x4000) (handleTable.flatMap fun e => leBytes 32 e)

theorem world_mem : worldMem.wf = true := by decide +kernel

def worldGrid : Grid := { placedGrid with lr := { smallLaunch with htbase := 0x4000, htlimit := 8 } }

def pageEntry : TlbEntry :=
  { die := 0, core := 0, vmid := 0, ctx := 1, page := 0, size := 2 ^ 15, pa := placedCode, gpa := placedCode, kind := .u,
    r := true, w := true, x := true, dirty := true }

/-- The world of a team: its context, its grid, the page, whose translation and handles its core holds. -/
def world (t : Team) : State :=
  { State.reset with
    teams := [t], ctxs := [placedCtx], grids := [worldGrid], mem := worldMem
    caches := { State.reset.caches with
      tlb := [pageEntry], handles := handleTable.mapIdx fun k e => ⟨0, 0, 1, BitVec.ofNat 64 (0x4000 + 32 * k), e⟩ } }

/-! Results that are what they are found to be -/

def HResOk : HRes → Bool
  | .ok _ _ _ => true
  | _ => false

def hEnt : HRes → BitVec 12 × HEnt × State
  | .ok i e s => (i, e, s)
  | _ => (0, ⟨0⟩, State.reset)

theorem of_hres {r : HRes} (h : HResOk r = true) : r = .ok (hEnt r).1 (hEnt r).2.1 (hEnt r).2.2 := by
  cases r <;> first | rfl | cases h

def targetsOk : TargetRes → Bool
  | .ok _ => true
  | _ => false

def targetsState : TargetRes → State
  | .ok s => s
  | _ => State.reset

theorem of_targets {r : TargetRes} (h : targetsOk r = true) : r = .ok (targetsState r) := by
  cases r <;> first | rfl | cases h

/-- Every address of a list is a header that the team may fetch. -/
theorem heads {s : State} {t : Team} {l : List DWord} (h : targetsOk (checkTargets s (s.ctxOf t) t l) = true) :
    ∃ s', headersAt s t l s' := ⟨_, of_targets h⟩

/-! ### Witnesses: states and operands that meet the hypotheses of the statements -/

theorem team0_shaped : shaped team0 := by unfold shaped; decide +kernel

/-- What a computing instruction needs: it is well formed and its registers lie in the allocation. -/
def fits (i : Instr) (d : Dst) (srcs : List Src) : Bool := i.wf && allocOk team0 d srcs

/-- Integer instructions with the last register, the last pair, scalar and absent destinations. -/
theorem witness_integer :
    (on team0).curTeam = some team0 ∧ elig team0 g7 31 ∧ ¬ elig team0 g0 31 ∧ receives team0 g7 (.v 15) 31 ∧
    (∀ x ∈ [alu .i32 (.v 15) (.v 0) (.v 15), alu .n64 (.v 14) (.v 0) (.s 62), alu .n8x4 (.s 63) (.s 0) (.imm 1),
        alu .i16x2 .none (.sp .lane) (.k 15)],
      ∀ i ∈ [Instr.add x false, .add x true, .sub x false, .mul x, .mulhi x, .min x, .max x, .shl x, .shr x, .rot x true],
        fits i x.d [x.a, x.b, x.c] = true) ∧
    (∀ x ∈ [alu .i32 (.v 15) (.v 0) (.v 15) (.v 3), alu .n64 (.v 14) (.v 0) (.s 62) (.v 4)],
      ∀ i ∈ [Instr.mad x false, .mad x true, .clamp x, .lea x false 31], fits i x.d [x.a, x.b, x.c] = true) ∧
    (∀ x ∈ [alu .i32 (.v 15) (.v 0), alu .i64 (.v 14) (.v 0)],
      ∀ i ∈ [Instr.absn x true false, .absn x false true, .mov x, .bitf x .rev, .ext x (.sext 31), .ext x (.zext 0)],
        fits i x.d [x.a, x.b, x.c] = true) ∧
    (∀ x ∈ [alu .b32 (.v 15) (.v 0) (.v 1), alu .n64 (.v 14) (.v 0) (.s 62)],
      ∀ i ∈ [Instr.and x true, .or x false, .xor x true, .sel x 7], fits i x.d [x.a, x.b, x.c] = true) ∧
    (∀ x ∈ [alu .i32 (.v 15) (.v 0) (.v 1), alu .n64 (.v 14) (.v 0) (.v 2)],
      ∀ i ∈ [Instr.div x false true, .csub x (.p 7), .csub x (.ge 0), .csub x (.ge 7)], fits i x.d [x.a, x.b, x.c] = true) := by
  refine ⟨by decide +kernel, ?_, ?_, ?_, ?_⟩
  · unfold elig; decide +kernel
  · unfold elig; decide +kernel
  · unfold receives elig; decide +kernel
  · decide +kernel

/-- The forms of the integer class that `witness_integer` leaves out. -/
theorem witness_integer_rest :
    let f := fits
    f (.mulw (alu .n32 (.v 14) (.v 0) (.v 1))) (.v 14) [.v 0, .v 1] = true ∧
    f (.lea (alu .n64 (.v 14) (.v 0) (.v 3) (.s 2)) true 0) (.v 14) [.v 0, .v 3, .s 2] = true ∧
    (∀ op ∈ [BcntOp.popc, .clz, .ctz], f (.bcnt (alu .n64 (.v 15) (.v 14)) op) (.v 15) [.v 14] = true) ∧
    f (.bitf (alu .n64 (.v 14) (.v 0) (.v 3)) .ext) (.v 14) [.v 0, .v 3] = true ∧
    f (.bitf (alu .i32 (.v 15) (.v 0) (.v 3) (.v 4)) .ins) (.v 15) [.v 0, .v 3, .v 4] = true ∧
    f (.setp g0 .n64 .lt (.xor 7) 0 (.v 14) (.s 2)) .none [.v 14, .s 2] = true ∧
    f (.setp g7 .b32 .ntst .none 7 (.v 15) (.imm 3)) .none [.v 15, .imm 3] = true ∧
    f (.plog g0 .not 6 7 0) .none [] = true ∧ f (.plog g7 .xor 7 0 1) .none [] = true ∧
    f (.addc (alu .n32 (.v 15) (.v 0) (.v 1)) (some 3) 3) (.v 15) [.v 0, .v 1] = true ∧
    f (.subb (alu .n32 (.v 15) (.v 0) (.v 1)) none 7) (.v 15) [.v 0, .v 1] = true ∧
    f (.movi g7 .i64 (.v 14) (.i32 0x80000000)) (.v 14) [] = true ∧ f (.movi g7 .n64 (.s 62) (.i64 5)) (.s 62) [] = true ∧
    f (.movi g0 .n8x4 (.v 15) (.i32 5)) (.v 15) [] = true ∧
    f (.ext (alu .i64 (.v 14) (.v 0)) (.sext 63)) (.v 14) [.v 0] = true ∧
    f (.ext (alu .i32 (.v 15) (.v 14)) .trunc) (.v 15) [.v 14] = true := by decide +kernel

/-- Division with no zero divisor, and with one in an eligible lane or in a uniform division. -/
theorem witness_division :
    (∀ L, elig (ab 7 2) g7 L → BitVec.ofNat 32 (valI (on (ab 7 2)) (ab 7 2) false L .i32 (.v 2)) ≠ 0) ∧
    (on (ab 7 0)).curTeam = some (ab 7 0) ∧ shaped (ab 7 0) ∧ allocOk (ab 7 0) (.v 15) [.v 1, .v 2, .none] = true ∧
    Instr.wf (.div (alu .i32 (.v 15) (.v 1) (.v 2)) true false) = true ∧ isUni (.v 15) [.v 1, .v 2, .none] = false ∧
    Instr.wf (.div (alu .n32 (.s 63) (.s 1) (.s 2)) false false) = true ∧ allocOk (ab 7 0) (.s 63) [.s 1, .s 2, .none] = true ∧
    isUni (.s 63) [.s 1, .s 2, .none] = true ∧ valI (on (ab 7 0)) (ab 7 0) true 0 .n32 (.s 2) = 0 ∧
    ∃ L, elig (ab 7 0) g7 L ∧ valI (on (ab 7 0)) (ab 7 0) false L .i32 (.v 2) = 0 := by
  refine ⟨?_, by decide +kernel, by unfold shaped; decide +kernel, by decide +kernel, by decide +kernel,
    by decide +kernel, by decide +kernel, by decide +kernel, by decide +kernel, by decide +kernel, 31, ?_, by decide +kernel⟩
  · intro L hL
    have h : ∀ L < 32, BitVec.ofNat 32 (valI (on (ab 7 2)) (ab 7 2) false L .i32 (.v 2)) ≠ 0 := by decide +kernel
    exact h L hL.1
  · unfold elig; decide +kernel

/-- Lanes 0 to 15 of a team hold p0. -/
def half : Team := team0.mapLanes fun L l => l.setP 0 (decide (L < 16))

/-- A team with a full stack. -/
def full : Team := { half with stack := List.replicate 16 (.call 8 half.active) }

/-- Branches: all lanes, none and half of them take; the stack has room and has none; headers at the targets. -/
theorem witness_branches :
    mayTransfer (world half) half ∧ (∃ s', headersAt (world half) half [half.pc + (0x40 : Word).signExtend 64] s') ∧
    half.sreg 2 = 0 ∧ (half.setS 2 1).sreg 2 ≠ 0 ∧ mayTransfer (world (half.setS 2 1)) (half.setS 2 1) ∧
    (∃ s', headersAt (world half) half [half.pc + 0x40, half.pc + 0x60] s') ∧
    half.active.diff (half.predMask 7 false) = 0 ∧
    (half.active.diff (half.predMask 1 false) ≠ 0 ∧ half.predMask 1 false = 0) ∧
    (half.active.diff (half.predMask 0 false) ≠ 0 ∧ half.predMask 0 false ≠ 0 ∧ half.pushOk = true) ∧
    mayTransfer (world full) full ∧ full.active.diff (full.predMask 0 true) ≠ 0 ∧ full.predMask 0 true ≠ 0 ∧ full.pushOk = false := by
  refine ⟨?_, heads (by decide +kernel), by decide +kernel, by decide +kernel, ?_, heads (by decide +kernel), by decide +kernel,
    by decide +kernel, by decide +kernel, ?_, by decide +kernel⟩ <;>
  · unfold mayTransfer; decide +kernel

/-- A team at the last instruction of a block, in front of a fill parcel. -/
def beforeFill : Team := { half with pc := 0x4C }

/-- Multi-way branches: one path for all lanes, and two, with room and without; all lanes past a fill parcel. -/
theorem witness_multi_way :
    let i : List BrmPair := [⟨0, false, 0x10⟩, ⟨0, true, 0x18⟩]
    let lanesOf (ps : List BrmPair) (k : Nat) : Mask := Mask.ofLanes ((half.active.lanes 32).filter fun L => brmPath half ps L == k)
    Instr.wf (.brm i 0x20) = true ∧ Instr.wf (.brm [⟨7, false, 0x10⟩] 0x20) = true ∧
    ((List.range 3).filter fun k => !(lanesOf i k).isEmpty) = [0, 1] ∧
    ((List.range 2).filter fun k => !(lanesOf [⟨7, false, 0x10⟩] k).isEmpty) = [0] ∧
    (∃ s', headersAt (world half) half [half.pc + 0x40, half.pc + 0x60, half.pc + 0x80] s') ∧
    (∃ s', headersAt (world half) half [half.pc + 0x40] s') ∧
    ((List.range 3).filter fun k => !(Mask.ofLanes ((full.active.lanes 32).filter fun L => brmPath full i L == k)).isEmpty) = [0, 1] ∧
    mayTransfer (world beforeFill) beforeFill ∧ pastFill (world beforeFill) beforeFill (beforeFill.pc + 16) = 0x60 ∧
    ((List.range 2).filter fun k => !(lanesOf [⟨1, false, 0x10⟩] k).isEmpty) = [1] ∧
    ∃ s', headersAt (world beforeFill) beforeFill [0x60] s' := by
  refine ⟨by decide +kernel, by decide +kernel, by decide +kernel, by decide +kernel, heads (by decide +kernel),
    heads (by decide +kernel),
    by decide +kernel, by unfold mayTransfer; decide +kernel, by decide +kernel, by decide +kernel, heads (by decide +kernel)⟩

/-- Calls through a register pair that is aligned and one that is not, and with a full stack; returns with and without a CALL entry on top; joins with
and without a DIV entry. -/
theorem witness_calls :
    let t := half.setS 2 0x40
    let u := half.setS 2 0x41
    let c := { half with stack := [.call 0x40 half.active] }
    let j := { half with stack := [.div 0x40 half.active [] 0] }
    mayTransfer (world t) t ∧ t.pushOk = true ∧ (pair32 (t.sreg 2) (t.sreg 3)).toNat % 4 = 0 ∧
    (∃ s', headersAt (world t) t [pair32 (t.sreg 2) (t.sreg 3)] s') ∧
    mayTransfer (world u) u ∧ (pair32 (u.sreg 2) (u.sreg 3)).toNat % 4 ≠ 0 ∧
    mayTransfer (world full) full ∧ full.pushOk = false ∧ (pair32 (full.sreg 2) (full.sreg 3)).toNat % 4 = 0 ∧
    mayTransfer (world c) c ∧ c.stack = .call 0x40 half.active :: [] ∧ (∀ ra m rest, half.stack ≠ .call ra m :: rest) ∧
    mayTransfer (world j) j ∧ j.stack = .div 0x40 half.active [] 0 :: [] ∧ ∀ j c q v rest, half.stack ≠ .div j c q v :: rest := by
  refine ⟨?_, by decide +kernel, by decide +kernel, heads (by decide +kernel), ?_, by decide +kernel, ?_, by decide +kernel,
    by decide +kernel, ?_, rfl, ?_, ?_, rfl, ?_⟩
  iterate 4 (· unfold mayTransfer; decide +kernel)
  · intro _ _ _ h; cases h
  · unfold mayTransfer; decide +kernel
  · intro _ _ _ _ _ h; cases h

/-- Loops: room for the entry and none, a loop on top and none, as many loops as asked for and fewer; lanes that go on, lanes that only leave, none at all; lanes that leave a loop two levels up, or
the team, and no lane. -/
theorem witness_loops :
    let l : LoopRec := ⟨0x40, 0x60, half.active, 0, 0⟩
    let t := { half with stack := [.loop l] }
    let d := { half with stack := [.div 0x80 0 [] 0, .loop l, .call 0x40 half.active], active := 0 }
    mayTransfer (world half) half ∧ half.pushOk = true ∧ (∃ s', headersAt (world half) half [half.pc + 0x60] s') ∧
    mayTransfer (world t) t ∧ t.predMask 0 false ||| l.k ≠ 0 ∧
    (t.predMask 1 false ||| l.k = 0 ∧ l.v ||| t.active.diff (t.predMask 1 false) ≠ 0) ∧
    mayTransfer (world d) d ∧ (d.predMask 0 false ||| l.k = 0 ∧ l.v ||| d.active.diff (d.predMask 0 false) = 0) ∧
    t.eligible g0 ≠ 0 ∧ t.eligible ⟨false, 1⟩ = 0 ∧ findLoop 1 d.stack = some ([.div 0x80 0 [] 0], l, [.call 0x40 half.active]) ∧
    findLoop 2 [.loop l, .loop l] = some ([.loop l], l, []) ∧ mayTransfer (world full) full ∧ full.pushOk = false ∧
    ((d.stack.takeWhile fun e => match e with | .call .. => false | _ => true).filter fun e =>
      match e with | .loop _ => true | _ => false).length < Nat.max 1 (2 : BitVec 8).toNat ∧
    ∀ l rest, half.stack ≠ .loop l :: rest := by
  refine ⟨?_, by decide +kernel, heads (by decide +kernel), ?_, by decide +kernel, by decide +kernel, ?_, by decide +kernel,
    by decide +kernel, by decide +kernel, by decide +kernel, by decide +kernel, ?_, by decide +kernel, by decide +kernel, ?_⟩
  iterate 4 (· unfold mayTransfer; decide +kernel)
  · intro _ _ h; cases h

/-- `reorder` with some lanes gone. -/
theorem witness_reorder :
    let t := { half with exited := Mask.bit 3, active := half.active.diff (Mask.bit 3) }
    (on t).curTeam = some t ∧ shaped t ∧ t.stack = [] ∧ (15 : BitVec 7).toNat < t.nvregs ∧ (on t).regPending t = false := by
  refine ⟨by decide +kernel, by unfold shaped; decide +kernel, by decide +kernel⟩

/-- Floating-point instructions on values that raise nothing, with a flag that traps, and with registers at the edge. -/
theorem witness_float :
    let x := fpu .f32 (.v 15) (.v 1) (.v 2)
    let t := { ab 0x3F800000 0 with ctl := { (ab 0x3F800000 0).ctl with mode := 0x101 } }
    let fl := gatherFlags (computeLanes false t (t.eligible g7)) fun L =>
      (fmt32.div (fctl t.ctl.mode 0) (valF (on t) t false L .f32 (.v 1)) (valF (on t) t false L .f32 (.v 2))).f
    (∀ i ∈ [Instr.fadd x, .fsub x, .fmul x, .fmin x, .fmax x, .fdiv x, .fscal x .ldexp, .fabsn x .cpsgn], i.wf = true) ∧
    (∀ i ∈ [Instr.fma (fpu .f64 (.v 14) (.v 0) (.s 2) (.v 2) 5 true), .fsqrt (fpu .f64 (.v 14) (.v 0)), .frcp (fpu .f32 (.v 15) (.v 0)),
        .frsq (fpu .f16x2 (.v 15) (.v 0)), .fexp2 (fpu .bf16x2 (.v 15) (.v 0)), .flog2 (fpu .f32 (.s 1) (.s 2)),
        .fsincos (fpu .f16x2 (.v 14) (.v 0)), .frnd (fpu .f64 (.v 14) (.v 0)), .fscal (fpu .f64 (.v 14) (.v 0)) .mant,
        .fscal (fpu .f64 (.v 15) (.v 0)) .exp, .fclass (fpu .f64 (.v 15) (.v 0)), .cvtif (fpu .f64 (.v 14) (.v 15)) .n32,
        .cvtfi (fpu .f32 (.v 14) (.v 15)) .i64, .cvtff (fpu .f16x2 (.v 15) (.v 0) (.v 1) .none 6) .f32 false,
        .cvtff (fpu .f32 (.v 15) (.v 0)) .bf16x2 true, .dot2 (fpu .bf16x2 (.v 15) (.v 0) (.v 1) (.v 2)),
        .fabsn (fpu .f64 (.v 14) (.v 0)) .neg, .fsetp g0 .f64 .nan (.or 7) 0 (.v 14) (.s 2)], i.wf = true) ∧
    allocOk team0 x.d [x.a, x.b, x.c] = true ∧
    (on t).curTeam = some t ∧ shaped t ∧ fl &&& trapMask t.ctl.mode ≠ 0 ∧
    (fmt32.add (fctl 1 0) 0x3F800000 0x3F800000).f &&& trapMask 1 = 0 := by
  refine ⟨by decide +kernel, by decide +kernel, by decide +kernel, by decide +kernel, by unfold shaped; decide +kernel,
    by decide +kernel, by decide +kernel⟩

/-- Finite operands of both signs, a subnormal one, an exponent at which both are whole, and places enough for a quotient and a
root. -/
theorem witness_rounds_once :
    let c := fctl 1 0
    let num (a : Nat) : Option Machine.Num := match fmt32.val (fmt32.daz c a) with | .num x => some x | _ => none
    (num 0x3FC00000).isSome = true ∧ (num 0xC0400000).isSome = true ∧ (num 1).isSome = true ∧ fmt32 ∈ floatFmts ∧
    (let x := (num 0x3FC00000).getD ⟨false, 0, 0⟩
     let y := (num 0xC0400000).getD ⟨false, 0, 0⟩
     let p : Machine.Num := ⟨x.neg != y.neg, x.m * y.m, x.e + y.e⟩
     (-100 ≤ x.e ∧ -100 ≤ y.e ∧ -100 ≤ p.e ∧ x.at_ (-100) + y.at_ (-100) ≠ 0 ∧ x.at_ (-100) - y.at_ (-100) ≠ 0 ∧
       p.at_ (-100) + x.at_ (-100) ≠ 0) ∧
     y.m ≠ 0 ∧ 2 ^ (fmt32.mbits + 3) * y.m ≤ x.m * 2 ^ 40 ∧
     ∃ k r : Nat, x.neg = false ∧ (x.e - (k : Int)) % 2 = 0 ∧ 2 ^ (fmt32.mbits + 3) ≤ r ∧ r * r ≤ x.m * 2 ^ k ∧
       x.m * 2 ^ k < (r + 1) * (r + 1)) := by
  refine ⟨by decide +kernel, by decide +kernel, by decide +kernel, by decide +kernel, ⟨by decide +kernel, by decide +kernel,
    by decide +kernel, ?_⟩⟩
  exact ⟨41, Nat.sqrt (0xC00000 * 2 ^ 41), by decide +kernel⟩

/-- Operands of the special cases of 05: NaNs of both kinds, zeros, infinities, negative numbers, finite numbers. -/
theorem witness_float_special :
    (∀ f ∈ floatFmts, f.isNan f.nan = true ∧ f.isNan f.one = false ∧ f.isZero (f.zero true) = true ∧ f.isInf (f.inf true) = true ∧
      f.isInf f.one = false ∧ f.isZero f.one = false ∧ f.sign (f.one ||| 2 ^ (f.width - 1)) = true ∧ f.nan < 2 ^ f.width) ∧
    fmt32.isSnan 0x7F800001 = true ∧ fmt32.isNan 0x7F800001 = true ∧ fmt32.isSnan 0x7FC00000 = false ∧ (fctl 1 0).daz = false := by
  decide +kernel

/-- Slots: none, E-format with stochastic rounding, an ordinary one. -/
def narrowState : State :=
  { on team0 with grids := [{ placedGrid with lr := { smallLaunch with fmts := [0, 0x801, 0x001, 0, 0, 0, 0, 0] } }] }

theorem witness_narrow :
    narrowState.curTeam = some team0 ∧ (narrowState.slot team0 0).elem = 0 ∧ (narrowState.slot team0 1).elem ≠ 0 ∧
    (narrowState.slot team0 1).eround = 2 ∧ (narrowState.slot team0 2).eround ≠ 2 ∧
    (∀ x ∈ [(⟨g7, 1, .v 15, .v 0, .none⟩ : Narrow), ⟨g0, 2, .v 15, .v 0, .none⟩],
      ∀ i ∈ [Instr.qscale x, .quant x, .dequant x, .qpack x, .qunpack x, .fmtq x], fits i x.d [x.a, x.b] = true) ∧
    (1 - 1 : FFlags) &&& trapMask team0.ctl.mode = 0 := by decide +kernel

/-- Packed codes, roundings, random streams. -/
theorem witness_packing_and_draws :
    (∀ c ∈ [7, 0, 5], c < 2 ^ 3) ∧ (0 : Nat) < 1 ∧ 2 * (12 % 2 ^ 3) = 2 ^ 3 ∧
    Guard.ok g0 = true ∧ (15 : BitVec 7).toNat < team0.nvregs ∧ Instr.wf (.rngSeed g7 (.v 14)) = true ∧
    allocOk team0 .none [.v 14] = true ∧ val64 (on team0) team0 false 3 false (.v 14) = 0 ∧
    val64 (on team0) team0 false 3 false (.k 1) ≠ 0 := by decide +kernel

/-- Cross-lane instructions with registers at the edge, every kind of destination, lanes that take part and lanes that do not. -/
theorem witness_cross_lane :
    let f := fits
    f (.shfl g7 .up true (.v 14) (.v 0) (.s 1) (some 6)) (.v 14) [.v 0, .s 1] = true ∧
    f (.shfl g0 .idx false .none (.v 15) (.imm 31) none) .none [.v 15, .imm 31] = true ∧
    f (.ballot g0 (.v 15) 7 (.word (.s 1))) (.v 15) [] = true ∧ f (.ballot g7 (.s 63) 0 .wv) (.s 63) [] = true ∧
    f (.ballot g7 .none 0 .cnt) .none [] = true ∧ f (.bcast g0 true (.s 62) (.v 14) (.imm 32)) (.s 62) [.v 14, .imm 32] = true ∧
    Instr.wf (.vote g0 (.v 15) (.any 7)) = true ∧ Instr.wf (.vote g7 (.s 63) (.all 0)) = true ∧
    Instr.wf (.vote g7 (.p 7) (.uni 0)) = true ∧ Instr.wf (.vote g7 (.p 6) (.eq (.v 15))) = true ∧
    Instr.wf (.vote g7 .none (.eq (.v 0))) = true ∧ (15 : BitVec 7).toNat < team0.nvregs ∧
    (∀ op ∈ [RedOp.add .n64, .fadd .f64, .fmin .f64, .and .i64, .xor .n64], f (.tred g0 op 0 (.s 62) (.v 14)) (.s 62) [.v 14] = true) ∧
    (∀ op ∈ [RedOp.add .i32, .or .b32, .fmax .f32, .max .n32], f (.tscan g7 op true (.v 15) (.v 0)) (.v 15) [.v 0] = true) ∧
    RedOp.ok (.min .i64) = true ∧ elig half g0 15 ∧ ¬ elig half g0 16 := by
  unfold elig
  decide +kernel

/-! Results of accesses that are what they are found to be -/

def gatherOk : Gather → Bool
  | .got _ => true
  | _ => false

def gotOf : Gather → Got
  | .got g => g
  | _ => { s := State.reset }

theorem of_got {r : Gather} (h : gatherOk r = true) : r = .got (gotOf r) := by
  cases r <;> first | rfl | cases h

def excOk {ε α : Type} : Except ε α → Bool
  | .ok _ => true
  | _ => false

theorem of_exc {ε α : Type} {r : Except ε α} (h : excOk r = true) : ∃ x, r = .ok x := by
  cases r <;> first | exact ⟨_, rfl⟩ | cases h

/-- The request that an access makes (`Checked`): `plain` for a load without an order. -/
def reqOf (s : State) (t : Team) (i : Instr) (uni : Bool) (g : Guard) (m : MemRef) (use : Use) (acc : Access)
    (size align : Nat) (plain : Bool := false) : Req :=
  let r := hEnt (resolve s t m.h)
  { t, c := r.2.2.ctxOf t, ix := r.1, e := r.2.1, uni, use, acc, size, align, lanes := accLanes s t uni g m,
    opc := instrOpc i, plain }

/-- Whether the access resolves, serves a lane and passes its checks. -/
def checks (s : State) (t : Team) (i : Instr) (uni : Bool) (g : Guard) (m : MemRef) (use : Use) (acc : Access)
    (size align : Nat) (plain : Bool := false) : Bool :=
  let q := reqOf s t i uni g m use acc size align plain
  HResOk (resolve s t m.h) && !q.lanes.isEmpty && (q.check (hEnt (resolve s t m.h)).2.2).isNone

theorem checked {s t i uni g m use acc size align plain} (h : checks s t i uni g m use acc size align plain = true) :
    Checked s t i uni g m use acc size align (reqOf s t i uni g m use acc size align plain) (hEnt (resolve s t m.h)).2.2
      plain := by
  simp only [checks, Bool.and_eq_true, Bool.not_eq_true', List.isEmpty_eq_false_iff, Option.isNone_iff_eq_none] at h
  exact ⟨of_hres h.1.1, rfl, h.1.2, h.2⟩

/-- Whether every lane of the access reaches its bytes. -/
def arrives (s : State) (t : Team) (i : Instr) (uni : Bool) (g : Guard) (m : MemRef) (use : Use) (acc : Access)
    (size align : Nat) (src : Nat → List Byte) (skip : Nat → Int → Bool) (plain : Bool := false) : Bool :=
  let q := reqOf s t i uni g m use acc size align plain
  let r := gatherAll q src skip { s := (hEnt (resolve s t m.h)).2.2 } q.lanes
  checks s t i uni g m use acc size align plain && gatherOk r && (gotOf r).left.isEmpty

theorem reaches {s t i uni g m use acc size align src skip plain}
    (h : arrives s t i uni g m use acc size align src skip plain = true) :
    ∃ q G, Reaches s t i uni g m use acc size align src skip q G plain := by
  simp only [arrives, Bool.and_eq_true, List.isEmpty_iff] at h
  exact ⟨_, _, _, checked h.1.1, of_got h.1.2, h.2⟩

/-- Every lane reaches its bytes, and the request and what its lanes have met are as they are found to be. -/
theorem reachesG {s t i uni g m use acc size align src skip plain} {P : Req → Got → Prop}
    (h : arrives s t i uni g m use acc size align src skip plain = true)
    (p : let q := reqOf s t i uni g m use acc size align plain
      P q (gotOf (gatherAll q src skip { s := (hEnt (resolve s t m.h)).2.2 } q.lanes))) :
    ∃ q G, Reaches s t i uni g m use acc size align src skip q G plain ∧ P q G := by
  simp only [arrives, Bool.and_eq_true, List.isEmpty_iff] at h
  exact ⟨_, _, ⟨_, checked h.1.1, of_got h.1.2, h.2⟩, p⟩

/-- An outstanding operation of team 0. -/
def opOf (k : OpKind) : Op :=
  { id := 0, uid := 0, ctx := 1, grid := 1, die := 0, core := 0, flag := none, block := true, opc := 0, ipc := 0, kind := k }

def withOp (s : State) (k : OpKind) : State := { s with ops := [opOf k], nextOp := 1 }

/-- A binding of the MAPPED handle, with its first chunk valid. -/
def mtBind : Binding := ⟨2, 0x1000, 0, 0x800, 0x400, 0x1000, [0], [], 0, 0, 0⟩

/-- A team whose lanes hold 4 × lane in v1, with a binding of the MAPPED handle. -/
def mt : Team :=
  { (team0.mapLanes fun L l => l.setV 1 (BitVec.ofNat 32 (4 * L))) with
    binds := [mtBind] }

/-- An access at v1 of a handle. -/
abbrev at1 (h : BitVec 12) (w : Width := .w32) (ord : Order := .plain) : MemAcc :=
  ⟨g7, false, w, ord, if ord == .plain then .team else .die, ⟨.v 1, false, .idx h, 0, false⟩⟩

/-- A signal of team 0 to the first bytes of the page. -/
abbrev aSig : OpKind := .sig (span 4 0x201000) false false 1 false .team []

/-- The world of a team whose handle 0 has a given entry. -/
def through (e : Nat) (t : Team) : State :=
  { world t with caches := { (world t).caches with handles := [⟨0, 0, 1, 0x4000, e⟩] } }

theorem usedBy_none (s : State) (a : Nat) (h : s.uses = []) : s.usedBy none a = false := by simp [State.usedBy, h]

/-- Loads: lanes that all reach their bytes, in plain order and with acquire; no lane to serve. -/
theorem witness_loads :
    (world mt).curTeam = some mt ∧ allocOk mt (.v 15) [.v 1] = true ∧ mt.flagFull false = false ∧
    accLanes (world mt) mt false g0 (at1 0).m = [] ∧
    (∃ q G, Reaches (world mt) mt (.ldro (at1 0) false (.v 2)) false g7 (at1 0).m .ldro .read 4 1 (fun _ => []) (fun _ _ => false)
      q G true) ∧
    (∃ q G, Reaches (world mt) mt (.ld (at1 0) false (.v 2)) false g7 (at1 0).m .ld .read 4 1 (fun _ => []) (fun _ _ => false)
      q G true ∧ (world mt).behindSig 0 G = false) ∧
    (∃ q G, Reaches (withOp (world mt) aSig) mt (.ld (at1 0) false (.v 2)) false g7 (at1 0).m .ld .read 4 1 (fun _ => [])
      (fun _ _ => false) q G true ∧ (withOp (world mt) aSig).behindSig 0 G = true) ∧
    ∃ q G, Reaches (world mt) mt (.ld (at1 0 .w32 .acq) false (.v 2)) false g7 (at1 0).m .ld .read 4 4 (fun _ => [])
      (fun _ _ => false) q G := by
  refine ⟨by decide +kernel, by decide +kernel, by decide +kernel, by decide +kernel, reaches ?_,
    reachesG (P := fun _ G => (world mt).behindSig 0 G = false) ?_ ?_,
    reachesG (P := fun _ G => (withOp (world mt) aSig).behindSig 0 G = true) ?_ ?_, reaches ?_⟩ <;>
  decide +kernel

/-- Stores: lanes that all reach their places. -/
theorem witness_stores :
    allocOk mt .none [.v 1, .v 15] = true ∧ (world mt).sigsOut 0 = false ∧
    ∃ q G, Reaches (world mt) mt (.st (at1 0) (.v 2)) false g7 (at1 0).m .st .write 4 1
      (fun L => storeBytes (world mt) mt false L .w32 (.v 2)) (finishedSpans (world mt) mt false g7 (at1 0).m 4) q G := by
  refine ⟨by decide +kernel, by decide +kernel, reaches (by decide +kernel)⟩

/-- A uniform access through a page that the TLB holds, at the first and at the last bytes of the handle. -/
theorem witness_cached_page :
    let s := world mt
    let r := hEnt (resolve s mt (.idx 0))
    s.sigsOut 0 = false ∧ (s.caches.routers = [] ∧ ∀ o ∈ s.queue 0 0, o.uid ≠ mt.uid) ∧
    resolve s mt (.idx 0) = .ok 0 r.2.1 s ∧ r.2.1.kind = kGlobal ∧ r.2.1.share = 0 ∧ r.2.1.pko ≠ 1 ∧ r.2.1.right rR = true ∧
    r.2.1.right rW = true ∧ (∀ l ∈ accLanes s mt false g7 (at1 0).m, clear s mt r.2.1 .read 4 l.2) ∧
    r.2.1.len = 0x1000 ∧ clear s mt r.2.1 .write 4 0xFFC ∧
    (∀ en, tlbFind s.caches.tlb 0 0 (s.ctxOf mt) ((r.2.1.va 0).toNat % 2 ^ 57) = some en → en.kind ≠ .s) := by
  have hs : (hEnt (resolve (world mt) mt (.idx 0))).2.2 = world mt := by decide +kernel
  have hi : (hEnt (resolve (world mt) mt (.idx 0))).1 = 0 := by decide +kernel
  have hr := of_hres (r := resolve (world mt) mt (.idx 0)) (by decide +kernel)
  rw [hs, hi] at hr
  refine ⟨by decide +kernel, by decide +kernel, hr, by decide +kernel, by decide +kernel, by decide +kernel, by decide +kernel,
    by decide +kernel, ?_, by decide +kernel, ?_, ?_⟩
  · have h : ∀ l ∈ accLanes (world mt) mt false g7 (at1 0).m,
        0 ≤ l.2 ∧ l.2 + 4 ≤ (hEnt (resolve (world mt) mt (.idx 0))).2.1.len ∧
          ((hEnt (resolve (world mt) mt (.idx 0))).2.1.va l.2).toNat % 128 + 4 ≤ 128 ∧
          (world mt).blockAt ((world mt).ctxOf mt).id ((hEnt (resolve (world mt) mt (.idx 0))).2.1.va l.2) = none ∧
          ((hitAt (world mt) mt .read ((hEnt (resolve (world mt) mt (.idx 0))).2.1.va l.2)).isSome) = true ∧
          deadHome (world mt) (paOf (world mt) mt (hEnt (resolve (world mt) mt (.idx 0))).2.1 .read l.2) = false ∧
          (world mt).poisoned (paOf (world mt) mt (hEnt (resolve (world mt) mt (.idx 0))).2.1 .read l.2) 4 = false := by decide +kernel
    intro l hl
    obtain ⟨h1, h2, h3, hb, h4, h5, h6⟩ := h l hl
    obtain ⟨pa, hp⟩ := Option.isSome_iff_exists.mp h4
    have e : paOf (world mt) mt (hEnt (resolve (world mt) mt (.idx 0))).2.1 .read l.2 = pa := by unfold paOf; rw [hp]; rfl
    exact ⟨h1, h2, h3, hb, pa, hp, e ▸ h5, e ▸ h6, fun k _ => ⟨usedBy_none _ _ rfl, fun _ m => absurd m List.not_mem_nil⟩⟩
  · have h : ((hitAt (world mt) mt .write ((hEnt (resolve (world mt) mt (.idx 0))).2.1.va (0xFFC : Int))) = some 0x201FFC) := by
      decide +kernel
    exact ⟨by decide +kernel, by decide +kernel, by decide +kernel, by decide +kernel, 0x201FFC, h, by decide +kernel,
      by decide +kernel,
      fun k _ => ⟨usedBy_none _ _ rfl, fun _ m => absurd m List.not_mem_nil⟩⟩
  · intro en he
    have h : tlbFind (world mt).caches.tlb 0 0 ((world mt).ctxOf mt)
        (((hEnt (resolve (world mt) mt (.idx 0))).2.1.va 0).toNat % 2 ^ 57) = some pageEntry := by decide +kernel
    rw [h] at he
    injection he with he
    subst he
    decide

/-- Operations that complete: a load, an atomic, a store that may be performed. -/
theorem witness_completions :
    let w : Deliver := ⟨.v 14, [(31, [5, 6])]⟩
    let st : OpKind := .store [(0x201000, 7)] false true
    (withOp (world mt) (.load w false)).op? 0 = some (opOf (.load w false)) ∧ (withOp (world mt) (.take w)).l2Waits 0 = false ∧
    (withOp (world mt) (.load w false)).l2Waits 0 = false ∧ (withOp (world mt) (.atomic w false)).l2Waits 0 = false ∧
    shaped mt ∧ (∀ x ∈ w.vals, (14 : BitVec 7).toNat + x.2.length ≤ mt.nvregs) ∧ (w.vals.map (·.1)).Nodup ∧
    storeMay (withOp (world mt) st) (opOf st) true = true ∧
    (∀ p ∈ (withOp (world mt) st).queue 0 0, p ≠ opOf st → ∀ c ∈ p.kind.cells, c.1 ≠ 0x201000) := by
  unfold shaped
  decide +kernel

/-- Accesses that fail, uniform and not: lanes beyond the end, a range that is gone, a region beyond the scratchpad, a right that is
missing, a place outside the records held, a share that is not had, offsets that are not aligned. -/
theorem witness_failing_accesses :
    let t := mt.mapLanes fun L l => l.setV 1 (BitVec.ofNat 32 (if L = 31 then 0xFFD else if L = 30 then 0xFFC else 2))
    let g : Team := { mt with ctl := { mt.ctl with genr := true } }
    let at0 : AtomAcc := ⟨g7, false, .plain, .team, (at1 0).m⟩
    let s := through (entryOf 7 0 0x1000 0 8 0) g
    let r (e : Nat) : BitVec 12 × HEnt × State := hEnt (resolve (through e mt) mt (.idx 0))
    let out := (accLanes (world t) t false g7 (at1 0).m).filter fun l => decide (l.2 < 0) || decide ((0x1000 : Int) < l.2 + 4)
    (∀ i ∈ [Instr.ld (at1 0) false (.v 2), .ldro (at1 0) true (.s 2), .st (at1 0) (.v 2), .lds (at1 0) false (.v 2), .sts (at1 0) (.k 2),
        .atom at0 (.add .n32) (.v 2) (.v 2), .red at0 (.min .i64) (.k 2), .cas at0 .n64 (.v 2) (.v 2)],
      (Sys2Proof.Claims.formOf i).isSome = true) ∧ allocOk mt (.v 2) [.v 1] = true ∧ mt.nlanes ≤ 1024 ∧
    isUni (.v 2) [(at1 0).m.off] = false ∧ isUni (.s 2) [.k 1] = true ∧ out.map (·.1) = [31] ∧
    (∀ e ∈ [entryOf 1 0x1000 0x100 0 2 0, entryOf 4 0x10000 0x10000 0 3 0, entryOf 2 0 0x40000 0 7 0, entryOf 7 0 0x1000 0 8 0,
      entryOf 1 0x1000 0x1000 0 7 0 + 5 * 2 ^ 128], HResOk (resolve (through e mt) mt (.idx 0)) = true) ∧
    ((r (entryOf 4 0x10000 0x10000 0 3 0)).2.1.kind = kProcedural ∧
      (r (entryOf 4 0x10000 0x10000 0 3 0)).2.2.range? 1 (r (entryOf 4 0x10000 0x10000 0 3 0)).2.1.aux = none) ∧
    ((r (entryOf 2 0 0x40000 0 7 0)).2.1.kind = kScratch ∧ mt.scratchLen < (r (entryOf 2 0 0x40000 0 7 0)).2.1.len) ∧
    ((r (entryOf 1 0x1000 0x100 0 2 0)).2.1.kind = kGlobal ∧ (r (entryOf 1 0x1000 0x100 0 2 0)).2.1.right rR = false) ∧
    ((hEnt (resolve s g (.idx 0))).2.1.kind = kHeap ∧ (hEnt (resolve s g (.idx 0))).2.1.right rG = true ∧ g.ctl.genr = true ∧
      inHeldRecord (hEnt (resolve s g (.idx 0))).2.2 g 0 4 = false) ∧
    ((r (entryOf 1 0x1000 0x1000 0 7 0 + 5 * 2 ^ 128)).2.1.share = 5 ∧ placedCtx.shares 5 0 = false) ∧
    ((accLanes (world t) t false g7 (at1 0 .w32 .acq).m).filter fun l => decide (l.2 % (4 : Int) ≠ 0)) ≠ [] := by
  and_intros
  all_goals decide +kernel

/-- Scratchpad accesses through a SCRATCH handle, and through a MAPPED one within the chunk that is valid. -/
theorem witness_scratchpad :
    let s := world mt
    let i := Instr.lds (at1 1) false (.v 2)
    let j := Instr.sts (at1 2 .w8) (.v 2)
    accLanes s mt false g0 (at1 1).m = [] ∧ allocOk mt .none [.v 1, .v 2] = true ∧ shaped mt ∧ s.uses = [] ∧ mt.unfin = none ∧ i.wf = true ∧
    Checked s mt i false g7 (at1 1).m .lds .read 4 1 (reqOf s mt i false g7 (at1 1).m .lds .read 4 1) (hEnt (resolve s mt (at1 1).m.h)).2.2 ∧
    (reqOf s mt i false g7 (at1 1).m .lds .read 4 1).e.kind = kScratch ∧
    Checked s mt j false g7 (at1 2).m .sts .write 1 1 (reqOf s mt j false g7 (at1 2).m .sts .write 1 1) (hEnt (resolve s mt (at1 2).m.h)).2.2 ∧
    (reqOf s mt j false g7 (at1 2).m .sts .write 1 1).e.kind = kMapped ∧
    ∀ b, mt.binding 2 = some b → ∀ l ∈ accLanes s mt false g7 (at1 2).m, badChunk b l.2.toNat 1 = none := by
  unfold shaped
  and_intros
  all_goals first
    | decide +kernel
    | rfl

/-- A fill of a chunk: before its request and after the answer; a chunk that is valid by then. -/
theorem witness_chunk_fill :
    let w : Team := { mt with status := .waiting (.mapFill 2 1 0x73 false) }
    let s := world w
    let q := fillReq s w mtBind 1 0x73
    let G := gatherAll q (fun _ => []) (fun _ _ => false) { s } q.lanes
    G = .got (gotOf G) ∧ (gotOf G).left = [] ∧ (∃ x, translate s (s.ctxOf w) 0 0 (0x1000 + 128) .read = .ok x) ∧
    (translate s (s.ctxOf w) 0 0 (0x1000 + 128) .read).toOption.map (fun x => (x.1.pa, x.1.kind, errorAt x.2 x.1.pa 128)) =
      some (0x201080, PageKind.u, none) ∧
    s.team? 0 = some w ∧ w.binding 2 = some mtBind ∧ s.l2Waits (mapName 0) = false ∧ 1 ∉ mtBind.valid ∧ 128 < mtBind.len ∧
    0 ∈ mtBind.valid ∧ mtBind.pko = 0 ∧ mtBind.va.toNat % 128 = 0 ∧ s.blockAt (s.ctxOf w).id (mtBind.va + 128) = none ∧
    s.fill.heap = [] := by
  refine ⟨of_got ?_, ?_, of_exc ?_, ?_⟩
  all_goals decide +kernel

/-- Scratchpad accesses of which some lanes reach a chunk that is not valid: of the 32 lanes at bytes 124 on, and of 16 bits
at byte 127. -/
theorem witness_invalid_chunks :
    let t := mt.mapLanes fun L l => l.setV 1 (BitVec.ofNat 32 (124 + L))
    let s := world t
    let i := Instr.lds (at1 2) false (.v 2)
    let j := Instr.sts (at1 2 .w16) (.v 2)
    let q := reqOf s t i false g7 (at1 2).m .lds .read 4 1
    let r := reqOf s t j false g7 (at1 2).m .sts .write 2 1
    s.curTeam = some t ∧ allocOk t (.v 2) [.v 1] = true ∧ allocOk t .none [.v 1, .v 2] = true ∧
    Checked s t i false g7 (at1 2).m .lds .read 4 1 q (hEnt (resolve s t (at1 2).m.h)).2.2 ∧
    Checked s t j false g7 (at1 2).m .sts .write 2 1 r (hEnt (resolve s t (at1 2).m.h)).2.2 ∧
    q.e.kind = kMapped ∧ r.e.kind = kMapped ∧ t.binding q.ix = some mtBind ∧
    ((q.lanes.filter fun l => (badChunk mtBind l.2.toNat 4).isSome).map (·.1)).head? = some 1 ∧
    ((r.lanes.filter fun l => (badChunk mtBind l.2.toNat 2).isSome).map (·.1)).head? = some 3 ∧
    badChunk mtBind 125 4 = some 1 := by
  and_intros
  all_goals first
    | decide +kernel
    | rfl

/-- Handle instructions: a MAPPED and a GLOBAL handle that fit each other, a write-back that succeeds, a valid and an invalid
entry; operations that complete. -/
theorem witness_handles :
    let t := (mt.setS 4 2).setS 6 0x80
    let s := world t
    let r : MemRef := ⟨.s 6, false, .idx 0, 0, false⟩
    let m := hEnt (resolve s t (.word 4))
    let g := hEnt (resolve m.2.2 t (.idx 0))
    s.curTeam = some t ∧ t.flagFull true = false ∧ resolve s t (.word 4) = .ok m.1 m.2.1 m.2.2 ∧
    resolve m.2.2 t (.idx 0) = .ok g.1 g.2.1 g.2.2 ∧ m.2.1.kind = kMapped ∧ g.2.1.kind = kGlobal ∧ g.2.1.right rR = true ∧
    g.2.1.right rW = true ∧ m.2.1.share = 0 ∧ g.2.1.share = 0 ∧ regionBad t m.2.1 = false ∧
    (0 ≤ memOffset g.2.2 t true 0 r ∧ memOffset g.2.2 t true 0 r + m.2.1.len ≤ g.2.1.len ∧
      (g.2.1.va (memOffset g.2.2 t true 0 r)).toNat % 128 = 0) ∧
    t.binding 2 = t.binds.head? ∧ (∃ r, writeBack g.2.2 t (.hflush false .wb (.word 4)) false mtBind = .ok r) ∧
    HResOk (resolve s t (.idx 7)) = false ∧ (∃ ix e s1, resolve s t (.idx 7) true = .ok ix e s1) ∧
    (hEnt (resolve s t (.idx 7) true)).2.1.invalid = true ∧ Dst.aligned 1 (.v 14) = true ∧ allocOk t (.v 14) [] = true ∧ t.eligible g7 ≠ 0 ∧
    (withOp s (.hmap (.s 1) 5)).op? 0 = some (opOf (.hmap (.s 1) 5)) ∧ (withOp s .flush).op? 0 = some (opOf .flush) := by
  and_intros
  all_goals first
    | decide +kernel
    | (refine of_hres ?_; decide +kernel)
    | (refine of_exc ?_; decide +kernel)
    | (refine ⟨_, _, _, of_hres ?_⟩; decide +kernel)

/-- Sampling of a texture that fits its handle; a prefetch through a handle that is not stale. -/
theorem witness_sampling :
    let s := world mt
    let r := hEnt (resolve s mt (.idx 5))
    let p := samplerOf r.2.1
    let ls := accLanes s mt false g7 ⟨.none, false, .idx 5, 0, false⟩
    let q : Req := { t := mt, c := r.2.2.ctxOf mt, ix := r.1, e := r.2.1, uni := false, use := .samp, acc := .read, align := 1, lanes := ls,
                     opc := instrOpc (.samp g7 false (.v 15) (.v 1) (.v 2) (.v 3) (.idx 5)), plain := true,
                     size := if r.2.1.kind == kSampler then p.layers * p.stride else 0 }
    let G := gatherTaps q p (fun L => lanePlan p (valF32 s mt false L (.v 1)) (valF32 s mt false L (.v 2)) (val32 s mt false L (.v 3)))
      { s := r.2.2 } ls
    allocOk mt (.v 15) [.v 1, .v 2, .v 3] = true ∧ resolve s mt (.idx 5) = .ok r.1 r.2.1 r.2.2 ∧ r.2.1.kind = kSampler ∧ ls ≠ [] ∧
    q.check r.2.2 = none ∧ dstFits (.v 15) p.comps = true ∧ G = .got (gotOf G) ∧ (gotOf G).left = [] ∧
    p.layers ≤ ((0x100 : Word).toNat / 2 ^ 8) % 2 ^ 8 ∧ allocOk mt .none [.v 1] = true ∧
    (hEnt (resolve s mt (.idx 0))).2.1.kind ≠ kProcedural ∧ ∀ ix, resolve s mt (.idx 0) ≠ .bad codeStale ix := by
  refine ⟨by decide +kernel, of_hres (by decide +kernel), by decide +kernel, by decide +kernel, by decide +kernel,
    by decide +kernel,
    of_got (by decide +kernel), by decide +kernel, by decide +kernel, by decide +kernel, by decide +kernel, ?_⟩
  intro ix h
  have := of_hres (r := resolve (world mt) mt (.idx 0)) (by decide +kernel)
  rw [this] at h
  cases h

/-- Atomics: through the SCRATCH handle and through memory, guarded off, plain and as a release with nothing outstanding. -/
theorem witness_atomics :
    let x : AtomAcc := ⟨g7, false, .plain, .team, ⟨.v 1, false, .idx 0, 0, false⟩⟩
    let y : AtomAcc := ⟨g7, false, .acqrel, .die, ⟨.v 1, false, .idx 1, 0, false⟩⟩
    let i := Instr.atom x (.add .i32) (.v 15) (.v 2)
    let j := Instr.cas y .i32 (.v 15) (.v 2)
    (∀ k ∈ [i, j, .red x (.inc .n32) (.v 2), .atom x (.fadd .f16x2) (.v 15) (.v 2), .cas x .n64 (.v 14) (.v 4)], k.wf = true) ∧
    allocOk mt (.v 15) [.v 1, .v 2] = true ∧ mt.flagFull false = false ∧ (Order.releases .acqrel && (world mt).sigsOut 0) = false ∧
    accLanes (world mt) mt false g0 x.m = [] ∧
    (∃ q G, Reaches (world mt) mt i false g7 x.m .atom .atomic 4 4 (fun _ => []) (fun _ _ => false) q G ∧
      (q.e.kind ≠ kScratch ∧ (world mt).behindSig 0 G = false ∧
        freeOf (atomBase (G.s.unpin 0) mt .plain (locsOf q G.pas)) q G.pas = [])) ∧
    (∃ q s1, Checked (world mt) mt j false g7 y.m .atom .atomic 4 4 q s1 ∧ q.e.kind = kScratch) := by
  refine ⟨by decide +kernel, by decide +kernel, by decide +kernel, by decide +kernel, by decide +kernel,
    reachesG (P := fun q G => q.e.kind ≠ kScratch ∧ (world mt).behindSig 0 G = false ∧
      freeOf (atomBase (G.s.unpin 0) mt .plain (locsOf q G.pas)) q G.pas = []) (by decide +kernel) (by decide +kernel),
    ⟨_, _, checked (by decide +kernel), by decide +kernel⟩⟩

/-- Operands of the integer atomics at the ends of their range. -/
theorem witness_atomic_operands :
    ∀ ty ∈ [IType.i32, .n32, .b32, .i64, .n64], 2 ^ IType.width ty - 1 < 2 ^ IType.width ty ∧ ty.packed = false := by decide

/-- Fences: before and after the wait; a team that waits, with a read outstanding and without. -/
theorem witness_fences :
    let m := { mt with mark := some 0 }
    let w := { mt with status := .waiting (.fence true) }
    (world mt).curTeam = some mt ∧ mt.mark = none ∧ (world m).curTeam = some m ∧ m.mark.isSome = true ∧
    (world w).team? 0 = some w ∧ w.status = .waiting (.fence true) ∧
    ((world w).readsOut 0 || (true && (world w).sigsOut 0)) = false ∧
    (withOp (world w) (.load ⟨.v 2, []⟩ false)).readsOut 0 = true := by decide +kernel

/-- Barriers: no generation open, generations in both modes with room, full, and with this team in them. -/
theorem witness_barriers :
    let k := barKey mt .core 3
    let b (g : BarGen) : Bar := ⟨k, 0, some g, none⟩
    let s (g : BarGen) : State := { world mt with bars := [b g] }
    let m := { mt with mark := some 0xFFFFFFFF }
    (world mt).curTeam = some mt ∧ (world mt).readsOut 0 = false ∧ (world mt).sigsOut 0 = false ∧
    (((world mt).bar? k).getD ⟨k, 0, none, none⟩).cur = none ∧
    (1 ≤ (val32 (world mt) mt true 0 (.imm 65535)).toNat ∧ (val32 (world mt) mt true 0 (.imm 65535)).toNat ≤ 65535) ∧
    (∃ b g, arrive ⟨k, 0, none, none⟩ mt.teamNo (some 65535) = .at_ b g) ∧
    mt.teamNo ∉ (⟨none, [7], 1⟩ : BarGen).arrived ∧ mt.teamNo ∈ (⟨none, [0], 1⟩ : BarGen).arrived ∧
    (1 : Nat) < 2 ∧ (∀ tok ∈ [Src.imm 0xFFFFFFFF], (0 - val32 (world mt) mt true 0 tok - 1 : Word).toNat < 2 ^ 31) ∧
    (world m).curTeam = some m ∧ m.mark = some 0xFFFFFFFF ∧ ((0 : Word) - 0xFFFFFFFF - 1).toNat < 2 ^ 31 ∧
    (s ⟨some 1, [0], 1⟩).bar? k = some (b ⟨some 1, [0], 1⟩) ∧ genFull (s ⟨some 1, [0], 1⟩) k ⟨some 1, [0], 1⟩ = true ∧
    barMembers (s ⟨none, [0], 1⟩) k = (⟨none, [0], 1⟩ : BarGen).arrived := by
  refine ⟨by decide +kernel, by decide +kernel, by decide +kernel, by decide +kernel, by decide +kernel, ⟨_, _, rfl⟩,
    by decide +kernel⟩

/-- Arrivals that stand in both generations, and of the other mode; both generations full at once; a team that waits for a place. -/
theorem witness_barrier_places :
    let k := barKey mt .core 3
    let two : Bar := ⟨k, 0, some ⟨some 1, [0], 1⟩, some ⟨none, [0], 1⟩⟩
    let s : State := { world mt with bars := [two] }
    let w := { mt with status := .waiting (.barThird k 0) }
    arrive ⟨k, 0, some ⟨none, [0, 1], 2⟩, some ⟨none, [0], 1⟩⟩ mt.teamNo none = .third ∧
    arrive ⟨k, 0, some ⟨some 3, [7], 1⟩, none⟩ mt.teamNo none = .mode ∧
    genFull s k ⟨some 1, [0], 1⟩ = true ∧ genFull s k ⟨none, [0], 1⟩ = true ∧
    two.released (genFull s k) = ⟨k, 2, none, none⟩ ∧
    (world w).team? 0 = some w ∧ w.status = .waiting (.barThird k 0) := by
  refine ⟨rfl, rfl, by decide +kernel⟩

/-- `waitaddr`: the comparison holds at once, does not, and the time is over; a team that waits. -/
theorem witness_waitaddr :
    let i := Instr.waitaddr .eq .n32 true .die (.s 8) (.s 6) false (.idx 0) 0 (.s 7) 0xFFFFFFFF
    let t1 := { mt with since := some (mt.since.getD (world mt).clk) }
    let x : Watch := ⟨0x1000, 5, .eq, .n32, 0, 0, 0⟩
    let w := { mt with status := .waiting (.addr x) }
    i.wf = true ∧
    (∃ q G, Reaches (world mt) t1 i true g7 ⟨.s 6, false, .idx 0, 0, false⟩ .watch .read 4 4 (fun _ => []) (fun _ _ => false) q G ∧
      (world mt).behindSig 0 G = false) ∧
    (0 : Word).toNat ≤ ((world mt).clk - (world mt).clk).toNat ∧ (0 : Word) ≠ 0xFFFFFFFF ∧
    (world w).team? 0 = some w ∧ w.status = .waiting (.addr x) ∧ IType.packed .n32 = false ∧
    (x.timeout ≠ 0xFFFFFFFF ∧ x.timeout.toNat ≤ ((world w).clk - w.since.getD (world w).clk).toNat) := by
  refine ⟨by decide +kernel, reachesG (P := fun _ G => (world mt).behindSig 0 G = false) (by decide +kernel) (by decide +kernel),
    by decide +kernel⟩

/-- `waitf`: flags that are zero and one that is not; a fault on a flag of the mask; a waiting team for each form. -/
theorem witness_waitf :
    let up := { mt with flags := 1 :: List.replicate 11 0 }
    let w (any : Bool) := { up with status := .waiting (.flags any 3) }
    let e : EngineFault := ⟨some 1, { code := codePerm }, 4⟩
    let f := { mt with efaults := [⟨some 1, { code := codePage }, 9⟩, e, ⟨some 5, { code := codePage }, 2⟩] }
    (∀ n < 12, (0xFFF : BitVec 12).getLsbD n = true → mt.flag n = 0) ∧ mt.efaults = [] ∧
    ¬ (∀ n < 12, (0x001 : BitVec 12).getLsbD n = true → up.flag n = 0) ∧
    (∃ n < 12, (0x003 : BitVec 12).getLsbD n = true ∧ up.flag n = 0) ∧
    (world (w true)).team? 0 = some (w true) ∧ (world (w false)).team? 0 = some (w false) ∧ up.leave ≠ .forced ∧
    (∀ n < 12, (2 : BitVec 12).getLsbD n = true → up.flag n = 0) ∧ (world f).curTeam = some f ∧ e ∈ f.efaults ∧
    (∃ n < 12, (0x003 : BitVec 12).getLsbD n = true ∧ e.flag = some n) ∧
    (∀ e' ∈ f.efaults, e' ≠ e → (∃ n < 12, (0x003 : BitVec 12).getLsbD n = true ∧ e'.flag = some n) → e.seq < e'.seq) := by
  decide +kernel

/-- `sig`: a location that is reached; a signal that may be performed. -/
theorem witness_signals :
    let i := Instr.sig true false true true .die ⟨.s 6, false, .idx 0, 0, false⟩ (.s 8)
    let k : OpKind := .sig (span 8 0x201000) true false 5 true .die []
    i.wf = true ∧ mt.flagFull true = false ∧ ((world mt).ops.filter fun o => o.die == 0 && o.core == 0 && o.kind.isSig).length < 64 ∧
    (∃ q G, Reaches (world mt) mt i true g7 ⟨.s 6, false, .idx 0, 0, false⟩ .sig .atomic 8 8 (fun _ => []) (fun _ _ => false) q G) ∧
    (withOp (world mt) k).op? 0 = some (opOf k) ∧ sigMay (withOp (world mt) k) (opOf k) true = true ∧
    ∀ a ∈ span 8 0x201000, errorAt (((withOp (world mt) k).settle (span 8 0x201000)).performSel 0 0 fun p _ => p.id < 0) a 1 = none := by
  refine ⟨by decide +kernel, by decide +kernel, by decide +kernel, reaches (by decide +kernel), by decide +kernel⟩

/-- Circular buffers: operands at both ends of their ranges, with and without free and filled slots, never initialised. -/
theorem witness_circular_buffers :
    let t := ((mt.setS 2 16).setS 3 128)
    let u := ((mt.setS 2 0x800).setS 3 1)
    let r := hEnt (resolve (world t) t (.idx 1))
    let c (re co ta rl : Word) : Cb := ⟨true, 1, 16, 2, re, co, ta, rl⟩
    let wait (x : Wait) (b : Cb) : Team := { (mt.setCb 7 b) with status := .waiting x }
    resolve (world t) t (.idx 1) = .ok r.1 r.2.1 r.2.2 ∧ r.2.1.kind = kScratch ∧ r.2.1.right rR = true ∧ r.2.1.right rW = true ∧
    (∀ x ∈ [t, u], let sz := (val32 (world x) x true 0 (.s 2)).toNat
      let ct := (val32 (world x) x true 0 (.s 3)).toNat
      sz % 16 = 0 ∧ 16 ≤ sz ∧ sz ≤ 65536 ∧ 1 ≤ ct ∧ ct ≤ 256 ∧ sz * ct ≤ r.2.1.len) ∧
    r.2.2.cbCopies 0 7 true = [] ∧ r.2.2.cbCopies 0 7 false = [] ∧ mt.cbs.length = 8 ∧
    (c 1 0 0 0).count - ((c 1 0 0 0).reserved - (c 1 0 0 0).released).toNat ≠ 0 ∧
    (c 1 0 0 0xFFFFFFFF).count - ((c 1 0 0 0xFFFFFFFF).reserved - (c 1 0 0 0xFFFFFFFF).released).toNat = 0 ∧
    (c 1 1 0 0).committed ≠ (c 1 1 0 0).taken ∧ (c 1 0 0 0).committed = (c 1 0 0 0).taken ∧
    (world mt).cbPending 0 7 true < ((c 1 0 0 0).reserved - (c 1 0 0 0).committed).toNat ∧
    (world mt).cbPending 0 7 false < ((c 1 1 1 0).taken - (c 1 1 1 0).released).toNat ∧ (mt.cb 7).init = false ∧
    (withOp (world mt) (.cbCommit 7)).op? 0 = some (opOf (.cbCommit 7)) ∧ (world mt).team? 0 = some mt ∧
    mt.status ≠ .waiting (.remote 0) ∧
    (world (wait (.cbFree 7) (c 1 0 0 0))).team? 0 = some (wait (.cbFree 7) (c 1 0 0 0)) ∧
    (world (wait (.cbFilled 7) (c 1 0 0 0))).team? 0 = some (wait (.cbFilled 7) (c 1 0 0 0)) := by
  refine ⟨of_hres (by decide +kernel), by decide +kernel⟩

/-- The shape of buffer 5: 16 × 16 elements of four bytes. -/
def shape5 : Shape := ⟨2, 2, [16, 16], [4, 64]⟩

/-- The world with tiles, and with a record at VA 0x1100. -/
def tileWorld (t : Team) (ts : List Tile) (r : List Byte := []) : State :=
  { world t with
    tiles := { bufs := [⟨1, 5, 0, 0x2000, shape5, 1024⟩], tiles := ts }
    mem := putAt worldMem 0x1100 r }

/-- A quarter of buffer 5. -/
def quarter (n : Nat) (st : TileState) (holder : Option (Word × Word)) (refs : Nat) : Tile :=
  { newTile 1 n 0 5 [8 * (n % 2), 8 * (n / 2)] [8, 8] with st, holder, refs, dir := true }

/-- The first line of a tile, its home, and how the directory holds it there. -/
def lineHeld (s : State) (x : Tile) (owner : Option Requester) (sharers : List Requester) : State :=
  let l := ((s.linesOf x).head?).getD 0
  { s with coh := { s.coh with dir := [⟨(l2Home s l).getD 0, l, .s, owner, sharers, []⟩] } }

theorem free_slot (x : Tiles) (c : Word) (k : Nat) (h : (x.tiles.filter (·.ctx == c)).filter (fun t => !t.live) = [])
    (n : (x.tiles.filter (·.ctx == c)).length < 2 ^ 20) :
    x.freeSlot c k = some ((x.tiles.filter (·.ctx == c)).length, 0) := by
  simp only [Tiles.freeSlot, h, List.length_nil, List.getElem?_nil, n, if_true]

/-- Every tile of a buffer answers where no die is dead. -/
theorem tile_at {s : State} {t : Team} {w : Word} {x : Tile} (h : s.tiles.named t.ctx w = some x) (d : s.coh.dead = []) :
    TileAt s t w x := ⟨h, fun _ _ => by rw [d]; rfl⟩

/-- What a record read gives. -/
def recData : Except State (List Byte × State) → List Byte × State
  | .ok x => x
  | .error s => ([], s)

theorem rec_ok {r : Except State (List Byte × State)} (h : excOk r = true) : r = .ok ((recData r).1, (recData r).2) := by
  cases r <;> first | rfl | cases h

/-- Declaring a buffer, withdrawing it, making a tile: records, handles and room. -/
theorem witness_buffers :
    let t := mt.setS 2 0x100
    let rr : RecRef := ⟨.s 2, .idx 0, 0⟩
    let shapeRec := leBytes 128 (2 + 2 * 2 ^ 8 + 16 * 2 ^ 64 + 16 * 2 ^ 96 + 4 * 2 ^ 448 + 64 * 2 ^ 496)
    let boxRec := leBytes 96 (8 * 2 ^ 32 + 8 * 2 ^ 64 + 8 * 2 ^ 96)
    let s := { tileWorld t [] shapeRec with tiles := ⟨[], []⟩ }
    let s' := tileWorld t [quarter 0 .idle none 0] boxRec
    let r := hEnt (resolve s t (.idx 4))
    let r' := hEnt (resolve s' t (.idx 4))
    let rb := readRecord r.2.2 t (.tdecl false rr (.idx 4)) (some false) .readRec rr 128 8
    let rb' := readRecord r'.2.2 t (.ttile (.s 1) rr (.idx 4)) none .readRec rr 96 8
    s.curTeam = some t ∧ BufferAt s t (.idx 4) r.2.1 r.2.2 ∧
    rb = .ok ((recData rb).1, (recData rb).2) ∧ shapeOf (recData rb).1 = some shape5 ∧
    (∃ x, translate (recData rb).2 ((recData rb).2.ctxOf t) 0 0 r.2.1.base .read = .ok x) ∧
    shape5.footprint ≤ r.2.1.len ∧ s.tiles.bufs = [] ∧ s.coh.dead = [] ∧
    s'.curTeam = some t ∧ BufferAt s' t (.idx 4) r'.2.1 r'.2.2 ∧ (s'.bufOf 1 r'.2.1.aux).isSome = true ∧
    rb' = .ok ((recData rb').1, (recData rb').2) ∧ boxOf shape5 (recData rb').1 = some ([0, 8], [8, 8]) ∧
    (∀ k, s'.tiles.freeSlot 1 k = some (1, 0)) ∧
    (∀ x ∈ (tileWorld t []).tiles.tiles, x.live = true → x.ctx = t.ctx → x.buf ≠ 5) := by
  refine ⟨?_, ⟨_, of_hres ?_, ?_⟩, rec_ok ?_, ?_, of_exc ?_, ?_, ?_, ?_, ?_, ⟨_, of_hres ?_, ?_⟩, ?_, rec_ok ?_, ?_,
    fun k => free_slot _ _ _ ?_ ?_, ?_⟩
  all_goals decide +kernel

/-- Records of tiles: one that its home's directory does not hold; a set whose sixteen entries must stay. -/
theorem witness_tile_records :
    let away : Tile := { quarter 0 .idle none 0 with dir := false }
    let s := tileWorld mt [away, quarter 1 .idle none 0]
    let busy (k : Nat) : Tile := { quarter 0 .opened (some mt.who) 0 with ix := 4096 * (k + 1) }
    let full := tileWorld mt (away :: (List.range 16).map busy)
    s.tiles.at? 1 7 = none ∧ s.tiles.at? 1 0 = some away ∧ away.dir = false ∧ (s.dirSet away).length < 16 ∧
    full.tiles.at? 1 0 = some away ∧ full.setFull away = true ∧
    (away.lo.length ≤ 16 ∧ 1 ≤ away.lo.length ∧ away.buf < 4096 ∧ away.refs < 65536) ∧
    (queryTile mt away 2).length = 2 := by decide +kernel

/-- Requests for tiles at their home: granted at once, listed behind another holder, copies, an earlier writer or a starved
one, without room; a recall. -/
theorem witness_tile_requests :
    let w : Team := { mt with status := .waiting (.tile 1 0) }
    let you : Word × Word := (2, 0)
    let x := quarter 0 .idle none 0
    let mine := quarter 0 .opened (some mt.who) 0
    let theirs := quarter 0 .opened (some you) 0
    let sealed := { quarter 0 .sealed none 1 with copies := [(you, 1)], presence := [3] }
    let queued := { x with waiters := [⟨7, true, false, 0⟩] }
    let full := { quarter 0 .sealed none 65535 with copies := [(you, 65535)] }
    let two := { x with lo := [0, 0], sz := [16, 16], ix := 1 }
    let r := recallCopies (tileWorld w [sealed]) sealed
    (∀ y ∈ [x, mine, theirs, sealed, queued, full], (tileWorld w [y, two]).team? w.uid = some w ∧
      (tileWorld w [y, two]).tileNow y = y ∧ y.live = true ∧ y ∈ (tileWorld w [y, two]).tiles.tiles) ∧
    (mine.st = .opened ∧ mine.holder = some w.who) ∧ (theirs.overlaps theirs = true ∧ theirs.holder ≠ some w.who) ∧
    (sealed.overlaps sealed = true ∧ 0 < sealed.refs) ∧ queued.behind 0 = true ∧ x.behind 0 = false ∧
    queued.starved 20000 = true ∧ ¬ full.refs ≠ 65535 ∧ (x.refs ≠ 65535 ∧ x.hold = false ∧ x.starved 0 = false) ∧
    (∀ b, (clearTile (tileWorld w [x, two]) w x b).1 = true) ∧
    ¬ (clearTile (lineHeld (tileWorld w [x]) x none [.slice 3 1]) w x true).1 = true ∧
    ¬ (clearTile (lineHeld (tileWorld w [x]) x (some (.slice 3 1)) []) w x false).1 = true ∧
    (r.tileNow sealed).refs = 0 ∧ (r.tileNow sealed).behind 0 = false ∧ (clearTile r w (r.tileNow sealed) true).1 = true ∧
    (let s := lineHeld (tileWorld w [sealed]) sealed none [.slice 3 1]
     ∃ l ∈ s.linesOf sealed, ∃ h, l2Home s l = some h ∧ (s.lineDir h l).await = [] ∧ .slice 3 1 ∈ (s.lineDir h l).sharers ∧
       ∃ d ∈ sealed.presence, ofDie d (.slice 3 1) = true) := by
  and_intros
  all_goals decide +kernel

/-- Tenure: requests sent, at a home that may grant and that may not, with the record away, refused by a full set, listed; a
grant that arrives. -/
theorem witness_tile_tenure :
    let w : Team := { mt with status := .waiting (.tile 1 0) }
    let x := quarter 0 .idle none 0
    let away : Tile := { x with dir := false }
    let busy (k : Nat) : Tile := { quarter 0 .opened (some mt.who) 0 with ix := 4096 * (k + 1) }
    let s := tileWorld w [x]
    let many : State := { s with coh := { s.coh with seqs := [⟨0, .core 0 0, 8, 8, 8⟩] } }
    let wait := { quarter 0 .opened (some (2, 0)) 0 with waiters := [⟨0, true, false, 0⟩] }
    let g : LineMsg := ⟨0, .core 0 0, 0, 1, 0, .core 0 0, false, true⟩
    (tileWorld mt [x]).curTeam = some mt ∧ mt.mark = none ∧ (tileWorld mt [x]).tileMail mt.uid = false ∧
    TileAt (tileWorld mt [x]) mt (tileArg (tileWorld mt [x]) mt (.imm 0)) x ∧ ({ mt with mark := some 1 } : Team).mark.isSome = true ∧
    s.team? 0 = some w ∧ w.waitsTile = true ∧ s.tiles.named 1 0 = some x ∧ AtItsHome s w x ∧
    many.mayGrant (many.tileHome x) (.core 0 0) = false ∧ (tileWorld w [away]).setFull away = false ∧
    (tileWorld w (away :: (List.range 16).map busy)).setFull away = true ∧
    (s.coh.net.contains (.tileRecordFetch 1 0) = false ∧ (s.send (.tileRecordFetch 1 0)).coh.net.contains (.tileRecordFetch 1 0) = true) ∧
    s.tileMail 0 = false ∧ (tileWorld w [wait]).tileWait 0 = some (wait, ⟨0, true, false, 0⟩) ∧ s.tileWait 0 = none ∧
    s.team? g.line = some w ∧ g.peer = .core 0 0 ∧ g.excl = true := by
  refine ⟨?_, ?_, ?_, tile_at ?_ ?_, ?_, ?_, ?_, ?_, ⟨?_, ?_, ?_⟩, ?_⟩
  all_goals decide +kernel

/-- Seals and copies returned, as the team issues them and at their home. -/
theorem witness_tile_seals :
    let me := mt.who
    let at_ (st : TileState) (h : Option (Word × Word)) : State := tileWorld mt [quarter 0 st h 0]
    let s (k : OpKind) : State := withOp (at_ .opened (some me)) k
    let x := quarter 0 .opened (some me) 0
    mt.flagFull false = false ∧ TileAt (at_ .opened (some me)) mt (tileArg (at_ .opened (some me)) mt (.imm 0)) x ∧
    TileAt (at_ .sealed none) mt (tileArg (at_ .sealed none) mt (.imm 0)) (quarter 0 .sealed none 0) ∧
    TileAt (at_ .opened (some (2, 0))) mt (tileArg (at_ .opened (some (2, 0))) mt (.imm 0)) (quarter 0 .opened (some (2, 0)) 0) ∧
    TileAt (at_ .idle none) mt (tileArg (at_ .idle none) mt (.imm 0)) (quarter 0 .idle none 0) ∧
    (s (.tileOp 0 1)).tileOp? ⟨0, 0⟩ 1 = some (opOf (.tileOp 0 1)) ∧ (s (.tileOp 0 1)).teamAny 0 = some mt ∧
    tileMay (s (.tileOp 0 1)) (opOf (.tileOp 0 1)) = true ∧ (s (.tileOp 0 1)).writersOut 0 0 = false ∧
    (s (.tileOp 0 1)).tiles.named 1 0 = some x ∧ (s (.tileOp 0 1)).coh.dead = [] ∧
    (s (.tileOp 0 1)).mayGrant ((s (.tileOp 0 1)).tileHome x) (.core 0 0) = true ∧
    (s (.tileOp 0 2)).tileOp? ⟨0, 0⟩ 2 = some (opOf (.tileOp 0 2)) ∧ tileMay (s (.tileOp 0 2)) (opOf (.tileOp 0 2)) = true ∧
    (s (.tileOp 0 3)).op? 0 = some (opOf (.tileOp 0 3)) := by
  refine ⟨?_, tile_at ?_ ?_, tile_at ?_ ?_, tile_at ?_ ?_, tile_at ?_ ?_, ?_⟩
  all_goals decide +kernel

/-- Splits and retirements: a coordinate within the tile and one at its end; the request at the tile's home. -/
theorem witness_tile_rest :
    let x := quarter 0 .opened (some mt.who) 0
    let w : Team := { mt with status := .waiting (.tile 1 0) }
    let s := tileWorld w [x]
    let t0 := { x with ix := 1, sz := x.sz.set 1 3, waiters := [], hold := false, probed := [] }
    mt.mark = none ∧ (tileWorld mt [x]).tileMail 0 = false ∧
    TileAt (tileWorld mt [x]) mt (tileArg (tileWorld mt [x]) mt (.imm 0)) x ∧
    (val32 (tileWorld mt [x]) mt true 0 (.imm 1)).toNat < x.lo.length ∧ (1 : Nat) < x.sz.length ∧
    ((x.lo[1]?).getD 0 < 3 ∧ 3 < (x.lo[1]?).getD 0 + (x.sz[1]?).getD 0) ∧
    ¬ ((x.lo[0]?).getD 0 < 8 ∧ 8 < (x.lo[0]?).getD 0 + (x.sz[0]?).getD 0) ∧
    ({ mt with mark := some 1, reply := [7, 8] } : Team).reply = [7, 8] ∧
    s.team? 0 = some w ∧ w.waitsTile = true ∧ s.tiles.named 1 0 = some x ∧ AtItsHome s w x ∧ s.tileOpsOn x = false ∧
    x.holder = some w.who ∧ x.refs = 0 ∧ s.writersOut 0 0 = false ∧
    (∀ k, s.tiles.freeSlot x.ctx k = some (1, 0)) ∧ (∀ k, (s.putTile t0).tiles.freeSlot x.ctx k = some (2, 0)) ∧
    (writeOut ((noted s x).drainCore 0 0) w x).1 = true ∧
    (writeOut ((noted (lineHeld s x (some (.slice 0 1)) []) x).drainCore 0 0) w x).1 = false ∧
    ∀ y, (s.dirSet y).length ≤ 14 := by
  refine ⟨?_, ?_, tile_at ?_ ?_, ?_, ?_, ?_, ?_, ?_, ?_, ?_, ?_, ⟨?_, ?_, ?_⟩, ?_, ?_, ?_, ?_, fun k => free_slot _ _ _ ?_ ?_,
    fun k => free_slot _ _ _ ?_ ?_, ?_, ?_, fun y => Nat.le_trans (List.length_filter_le _ _) ?_⟩
  all_goals decide +kernel

/-- A partition with every core and engine of die 0. -/
def part0 : Part :=
  { id := 0, slice := 0, wdlimit := 4000, gshare := 0, cores := [0xFFFFFFFFFFFFFFFF, 0, 0, 0], copyEng := [0xFF, 0, 0, 0], coll := 1,
    rast := 1, furw := 1, tqshare := 16, cqshare := 16, imglo := 0, imghi := 100, vmtab := [], queues := [], spawns := [], sliceNo := 0,
    next := 0 }

theorem pick_first (n k : Nat) (h : 0 < n) : pickFree [] n k = some (k % n) := by
  have e : Nat.min n 1 = 1 := Nat.min_eq_right h
  simp [pickFree, e]

/-! Results of engines' accesses that are what they are found to be -/

def partOk : Reach → Bool
  | .at_ _ _ => true
  | _ => false

def partPa : Reach → Nat
  | .at_ pa _ => pa
  | _ => 0

def partState : Reach → State
  | .at_ _ s => s
  | _ => State.reset

theorem of_part {r : Reach} (h : partOk r = true) : r = .at_ (partPa r) (partState r) := by
  cases r <;> first | rfl | cases h

def rowsOk : Rows → Bool
  | .ok _ _ => true
  | _ => false

theorem of_rows {r : Rows} (h : rowsOk r = true) : ∃ a s, r = .ok a s := by
  cases r <;> first | exact ⟨_, _, rfl⟩ | cases h

def loadOk : LoadB → Bool
  | .ok _ _ _ => true
  | _ => false

def loadState : LoadB → State
  | .ok _ _ s => s
  | _ => State.reset

theorem of_load {r : LoadB} (h : loadOk r = true) : ∃ b n, r = .ok b n (loadState r) := by
  cases r <;> first | exact ⟨_, _, rfl⟩ | cases h

def eresOk : ERes → Bool
  | .ok _ _ => true
  | _ => false

def eresState : ERes → State
  | .ok _ s => s
  | _ => State.reset

theorem of_eres {r : ERes} (h : eresOk r = true) : ∃ bs, r = .ok bs (eresState r) := by
  cases r <;> first | exact ⟨_, rfl⟩ | cases h

/-- A and B of 32 INT8 elements in a row, C of 1 × 2, open by the team; a grid with format INT8 in slot 0 and a weight phase. -/
def matTiles : Tiles :=
  { bufs := [⟨1, 6, 0, 0x1200, ⟨2, 0, [32, 4], [1, 32]⟩, 128⟩, ⟨1, 7, 0, 0x1400, ⟨2, 2, [2, 2], [4, 8]⟩, 16⟩]
    tiles := [{ newTile 1 0 0 6 [0, 0] [32, 1] with dir := true }, { newTile 1 1 0 6 [0, 1] [32, 2] with dir := true },
      { newTile 1 2 0 7 [0, 0] [2, 1] with st := .opened, holder := some mt.who, dir := true }] }

def matWorld (t : Team) : State :=
  { world t with
    tiles := matTiles, parts := [part0]
    grids := [{ worldGrid with lr := { worldGrid.lr with fmts := List.replicate 4 0x26, wphase := true } }] }

/-- The record in s16 to s31, with a counter or without. -/
def recordWords (cnt : Bool) : List Word :=
  [0, 0, 1, 0, 2, 0x200000, if cnt then 0x440 else 0x40, 0xFFFFFFFF, 0, 0x80, if cnt then 1 else 0, 0, 0, 0, 0, 0]

def withRecord (cnt : Bool) : Team := (recordWords cnt).zipIdx.foldl (fun t p => t.setS (16 + p.2) p.1) mt

/-- A task of the team in a state; its command is operation 0. -/
def task0 (st : TaskState) : Task := { newTask (matWorld mt) mt 0 (recordWords false) with st }

def taskWorld (x : Task) : State :=
  let s := withOp (matWorld mt) (.task 0 0)
  { s with mat := { s.mat with tasks := [x] } }

theorem witness_menq :
    ∀ cnt, let t := withRecord cnt
      let s := matWorld t
      let x := newTask s t (s.ctxOf t).part ((List.range 16).map fun j => t.sreg ((16 : BitVec 6).toNat + j))
      s.curTeam = some t ∧ t.flagFull false = false ∧ x.row1 0 = true ∧ x.row2 = true ∧ x.row3 = true ∧
      (∀ w ∈ x.words.map BitVec.toNat, (s.tiles.named t.ctx (BitVec.ofNat 32 w)).isSome = true) ∧ shapesOk s x = true ∧
      (if cnt = true then x.cnt = true ∧ ∃ ent s1, SideAt s t (.menq false 0 .none 16) x.chidx .sig .atomic x.coff 4 4 ent s1
        else x.cnt = false) ∧
      s.partOf t = some part0 ∧ (part0.cores[dieNo t.place.die]?).getD 0 ≠ 0 ∧ queueUsed s 0 0 < part0.tqshare := by
  have h : ∀ cnt, let t := withRecord cnt
      let s := matWorld t
      let x := newTask s t (s.ctxOf t).part ((List.range 16).map fun j => t.sreg ((16 : BitVec 6).toNat + j))
      s.curTeam = some t ∧ t.flagFull false = false ∧ x.row1 0 = true ∧ x.row2 = true ∧ x.row3 = true ∧
      (∀ w ∈ x.words.map BitVec.toNat, (s.tiles.named t.ctx (BitVec.ofNat 32 w)).isSome = true) ∧ shapesOk s x = true ∧ x.cnt = cnt ∧
      s.partOf t = some part0 ∧ (part0.cores[dieNo t.place.die]?).getD 0 ≠ 0 ∧ queueUsed s 0 0 < part0.tqshare := by decide +kernel
  intro cnt
  obtain ⟨h1, h2, h3, h4, h5, h6, h7, h8, h9⟩ := h cnt
  refine ⟨h1, h2, h3, h4, h5, h6, h7, ?_, h9⟩
  cases cnt
  · exact h8
  · refine ⟨h8, (hEnt (resolve (matWorld (withRecord true)) (withRecord true) (.idx 0))).2.1,
      (hEnt (resolve (matWorld (withRecord true)) (withRecord true) (.idx 0))).2.2, _, of_hres (r := resolve _ _ (.idx 0)) (by decide +kernel), ?_⟩
    decide +kernel

theorem witness_task_status :
    taskOver (taskWorld (task0 .done)) 0 0 = true ∧ taskOver (taskWorld (task0 .running)) 0 0 = false ∧
    (taskWorld (task0 .done)).curTeam = some mt ∧ mt.flagFull true = false := by decide +kernel

/-- Tasks that are queued with their dependences met and failed, ready with an engine, running before and after the partial,
and with every merge done. -/
theorem witness_tasks :
    let o := opOf (.task 0 0)
    let q := taskWorld (task0 .queued)
    let r := taskWorld (task0 .ready)
    let run := { task0 .running with start := 5 }
    let done := { run with computed := true, merges := [(1, 0x40000000)] }
    let dep := { task0 .queued with fields := (recordWords false).set 7 0xFFFF0007, order := 0 }
    let failed : Task := { task0 .faulted with id := 7, freed := true, order := 0 }
    (∀ x ∈ [task0 .queued, task0 .ready, run, done, { done with merges := [] }],
      (taskWorld x).taskLive 0 0 = some x ∧ (taskWorld x).taskOf x.order = some x ∧ (taskWorld x).op? x.order = some o ∧ o.kind = .task x.die x.id ∧
      (taskWorld x).opHeld 0 = false ∧ ctxAway (taskWorld x) x.ctx = false) ∧
    depOf q (task0 .queued) 0xFFFF = .met ∧ openElsewhere q (task0 .queued) (opTeam q o).who = false ∧
    dep.dep 0 = 7 ∧ depOf { q with mat := { q.mat with tasks := [{ dep with order := 1 }, failed] } } { dep with order := 1 } 7 = .fail ∧
    (readyTasks r 0).find? (fun y => (pickEngine r y).isSome) = some (task0 .ready) ∧ pickEngine r (task0 .ready) = some 0 ∧
    taskDead r (task0 .ready) = none ∧ startFails r (task0 .ready) (opTeam r o).who = none ∧
    excOk (takeAll r o (opTeam r o).who 1 (task0 .ready).reads) = true ∧
    (∃ b n, taskB (taskWorld run) o run 2 = .ok b n (loadState (taskB (taskWorld run) o run 2))) ∧
    (∃ a s, tileRows (loadState (taskB (taskWorld run) o run 2)) o 1 run.tileA 0 32 = .ok a s) ∧
    readsUnwritten (taskWorld run) run = false ∧ run.parity = false ∧ run.slotA.scaled = false ∧
    done.merges.filter (fun m => m.1 / 2 == 0 / 1 && m.1 % 2 / 32 == 0 % 1) = [(1, 0x40000000)] ∧
    tilePlace (taskWorld done) (matTiles.tiles[2]) = (0x1400, 0, [4, 8]) ∧
    (let e := enginePart (taskWorld done) o (engReq (taskWorld done) o 0xFFF (tileEntry 0x1400) true 4) 4 4
     e = .at_ (partPa e) (partState e) ∧ (partState e).poisoned (partPa e) 4 = false) ∧
    (taskWorld done).spoiledOp 0 = false ∧ done.cnt = false ∧ done.lp = false := by
  refine ⟨?_, ?_, ?_, ?_, ?_, ?_, ?_, ?_, ?_, ?_, of_load ?_, of_rows ?_, ?_, ?_, ?_, ?_, ?_, ⟨of_part ?_, ?_⟩, ?_⟩
  all_goals decide +kernel

theorem witness_weights :
    let s := matWorld mt
    let r : Resid := { die := 0, entry := 3, gen := 2, live := true, uid := 0, ctx := 1, core := 0, word := 1, scale := 0, slot := 0x26,
                       kn := 32, n := 2, cells := [], nan := false, bad := false, ready := true, away := false, releasing := false }
    let w (s : State) (r : Resid) : State := { s with mat := { s.mat with resid := [r] } }
    let ld := w (withOp s (.mwld 3 .none 1)) { r with ready := false }
    let ws := withOp s (.wsld 5 1 0 0x26)
    let ol := opOf (.mwld 3 .none 1)
    let ow := opOf (.wsld 5 1 0 0x26)
    BAt s mt 0 (.imm 1) .none 1 0 32 2 ∧ (residAt s 0 0).isNone = true ∧ (∀ k, pickFree [] 64 k = some (k % 64)) ∧
    (residAt (w s r) 0 0).isSome = true ∧ (s.grid? mt.grid).map (·.lr.wphase) = some true ∧ s.partOf mt = some part0 ∧
    part0.imglo ≤ (5 : BitVec 13).toNat ∧ (5 : BitVec 13).toNat + 1 ≤ part0.imghi + 1 ∧
    residNamed (w s r) 0 ((val32 (w s r) mt true 0 (.imm 131)).toNat % 2 ^ 16) = some r ∧ residNamed s 0 131 = none ∧
    (val32 s mt true 0 (.imm 15)).toNat ≤ 15 ∧
    ld.op? 0 = some ol ∧ ld.mat.resid.find? (fun r => r.die == 0 && r.entry == 3 && r.live) = some { r with ready := false } ∧
    engineIdle ld 0 0 = true ∧ ld.opHeld 0 = false ∧ loadOk (loadResid ld ol { r with ready := false }) = true ∧
    (let x := w s { r with releasing := true }
     x.mat.resid.find? (fun r => r.die == 0 && r.entry == 3 && r.live && r.releasing) = some { r with releasing := true } ∧
     residUsed x { r with releasing := true } = false ∧ x.ops = []) ∧
    ws.op? 0 = some ow ∧ packedGeo ws 1 (Slot.ofWord 0x26) 1 0 = some ⟨32, 2⟩ ∧
    (ws.tiles.tiles.any fun u => u.engines.contains 0) = false ∧ excOk (takeAll ws ow (opTeam ws ow).who 1 [1]) = true ∧
    deadHomeOf ws 1 [1] = none ∧ firstLoad (w s r) r = false ∧ r.uid = mt.uid ∧
    loadOk (loadB (match takeAll ws ow (opTeam ws ow).who 1 [1] with | .ok x => x | .error x => x) ow 1 1 0 (Slot.ofWord 0x26) 32) = true ∧ s.mat.tasks = [] := by
  refine ⟨?_, by decide +kernel, fun k => pick_first 64 k (by decide), ?_⟩
  · unfold BAt; decide +kernel
  · decide +kernel

theorem witness_accumulators :
    let s := matWorld mt
    let c := matTiles.tiles[2]
    let z := withOp s (.macz 2)
    let o := opOf (.macz 2)
    let e := enginePart z o (engReq z o 0xFFF (tileEntry 0x1400) true 8) 0 8
    let q : Req :=
      { t := mt, c := s.ctxOf mt, ix := 0xFFF, e := tileEntry 0x1400, uni := false, use := .ld, acc := .read, size := 4, align := 1,
        lanes := [(0, 0), (1, 4)], opc := instrOpc (.macrd g7 false true 0 (.v 14) (.imm 2) (.imm 0) .none), tile := false }
    TileAt s mt (val32 s mt true 0 (.imm 2)) c ∧ isC s c = true ∧ c.st = .opened ∧ c.holder = some mt.who ∧ z.op? 0 = some o ∧
    s.behindSig 0 (gotOf (gatherAll q (fun _ => []) (fun _ _ => false) { s } q.lanes)) = false ∧
    z.opHeld 0 = false ∧ z.tiles.named 1 2 = some c ∧ tilePlace z c = (0x1400, 0, [4, 8]) ∧
    (∃ bs, zeroRows o 0x1400 8 z [0] = .ok bs (eresState (zeroRows o 0x1400 8 z [0]))) ∧
    (eresState (zeroRows o 0x1400 8 z [0])).spoiledOp 0 = false ∧
    e = .at_ (partPa e) (partState e) ∧ ((tileEntry 0x1400).va 0).toNat % 128 + 8 ≤ 128 ∧ z.uses = [] ∧
    allocOk mt (.v 14) [] = true ∧ (val32 s mt true 0 (.imm 0)).toNat < c.sz.getD 1 0 ∧ (s.slot mt 0).elem ≠ 0 ∧
    gatherOk (gatherAll q (fun _ => []) (fun _ _ => false) { s } q.lanes) = true ∧
    (gotOf (gatherAll q (fun _ => []) (fun _ _ => false) { s } q.lanes)).left = [] ∧
    (macrdLanes mt none (mt.eligible g7)).filter (fun L => 0 + L < c.sz.headD 0) = [0, 1] := by
  refine ⟨tile_at ?_ ?_, ?_, ?_, ?_, ?_, ?_, ?_, ?_, ?_, of_eres ?_, ?_, of_part ?_, ?_⟩
  all_goals decide +kernel

/-! Records that instructions read (`RecordAt`) -/

def recordReq (s : State) (t : Team) (i : Instr) (r : RecRef) (size align : Nat) : Req :=
  let x := hEnt (resolve s t r.h)
  { t, c := x.2.2.ctxOf t, ix := x.1, e := x.2.1, uni := true, use := .ld, acc := .read, size, align,
    lanes := [(0, memOffset x.2.2 t true 0 (recMem r))], opc := instrOpc i }

def recordGot (s : State) (t : Team) (i : Instr) (r : RecRef) (size align : Nat) : Gather :=
  let q := recordReq s t i r size align
  gatherAll q (fun _ => []) (fun _ _ => false) { s := (hEnt (resolve s t r.h)).2.2 } q.lanes

def recordOk (s : State) (t : Team) (i : Instr) (r : RecRef) (size align : Nat) : Bool :=
  HResOk (resolve s t r.h) && ((recordReq s t i r size align).check (hEnt (resolve s t r.h)).2.2).isNone &&
    gatherOk (recordGot s t i r size align) && (gotOf (recordGot s t i r size align)).left.isEmpty &&
    !(hEnt (resolve s t r.h)).2.2.behindSig t.uid (gotOf (recordGot s t i r size align))

/-- The bytes and the state that the read gives. -/
def recordBytes (s : State) (t : Team) (i : Instr) (r : RecRef) (size align : Nat) : List Byte :=
  (((gotOf (recordGot s t i r size align)).data.head?).map (·.2)).getD []

def recordState (s : State) (t : Team) (i : Instr) (r : RecRef) (size align : Nat) : State :=
  (gotOf (recordGot s t i r size align)).s.unpin t.uid

theorem record_at {s t i r size align} (h : recordOk s t i r size align = true) :
    RecordAt s t i r size align (recordBytes s t i r size align) (recordState s t i r size align) := by
  simp only [recordOk, Bool.and_eq_true, Option.isNone_iff_eq_none, List.isEmpty_iff, Bool.not_eq_true'] at h
  exact ⟨recordReq s t i r size align, gotOf (recordGot s t i r size align), _, of_hres h.1.1.1.1, rfl, h.1.1.1.2, of_got h.1.1.2, h.1.2,
    h.2, rfl, rfl⟩

/-- A team whose s2 leads to a record at VA 0x1100, and its world with that record, tiles and a partition. -/
def rt : Team := mt.setS 2 0x100

def recWorld (r : List Byte) : State := { tileWorld rt [] r with parts := [part0] }

abbrev recRef : RecRef := ⟨.s 2, .idx 0, 0⟩

/-- A side named in a record that is checked (`SideAt`). -/
def sideOk (s : State) (t : Team) (i : Instr) (h : BitVec 12) (use : Use) (acc : Access) (off : Int) (size align : Nat) : Bool :=
  let r := hEnt (resolve s t (.idx h))
  HResOk (resolve s t (.idx h)) && (Req.check r.2.2
    { t, c := r.2.2.ctxOf t, ix := r.1, e := r.2.1, uni := true, use, acc, size, align, lanes := [(0, off)], opc := instrOpc i }).isNone

theorem side_at {s t i h use acc off size align} (k : sideOk s t i h use acc off size align = true) :
    SideAt s t i h use acc off size align (hEnt (resolve s t (.idx h))).2.1 (hEnt (resolve s t (.idx h))).2.2 := by
  simp only [sideOk, Bool.and_eq_true, Option.isNone_iff_eq_none] at k
  exact ⟨_, of_hres k.1, k.2⟩

/-- A side of a copy through a handle (`CopySideAt`). -/
def sideH (x : CopyDesc) (dst : Bool) : BitVec 12 := if dst then x.dhidx else x.shidx
def sideO (x : CopyDesc) (dst : Bool) : Int := if dst then x.doff else x.soff
def sideS (x : CopyDesc) (dst : Bool) : List Int := (if dst then x.dstr else x.sstr).take x.ndim
def sideRes (s : State) (t : Team) (x : CopyDesc) (dst : Bool) : BitVec 12 × HEnt × State := hEnt (resolve s t (.idx (sideH x dst)))

def memSideOk (s : State) (t : Team) (i : Instr) (x : CopyDesc) (dst : Bool) : Bool :=
  let ex := extentOf (sideO x dst) x.bytes x.extent (sideS x dst)
  !(if dst then x.dten else x.sten) && (if dst then x.dcb else x.scb).isNone &&
    sideOk s t i (sideH x dst) (if dst then .engW else .engR) (if dst then .engWrite else .engRead) ex.lo ex.size 1

theorem mem_side {s t i x dst} (h : memSideOk s t i x dst = true) :
    CopySideAt s t i x dst (.mem (sideH x dst) (sideRes s t x dst).2.1.raw) (sideO x dst) (sideS x dst) (sideRes s t x dst).2.2 := by
  simp only [memSideOk, Bool.and_eq_true, Bool.not_eq_true', Option.isNone_iff_eq_none] at h
  exact .inr (.inr ⟨h.1.1, h.1.2, rfl, rfl, _, rfl, side_at h.2⟩)

/-- A copy of 2 × 3 words, from offset 0 to offset 0x200 of handle 0, its destination in rows of 64 bytes; and a fill. -/
def copyRec (fill : Bool) : List Byte :=
  leBytes 256 (2 * 2 ^ 29 + 2 * 2 ^ 36 + 0x200 * 2 ^ 448 + 2 * 2 ^ 512 + 3 * 2 ^ 544 +
    (if fill then 0 else 4 * 2 ^ 896 + 8 * 2 ^ 944) + 4 * 2 ^ 1472 + 64 * 2 ^ 1520)

/-- The same with a completion counter at 0x80, in a tile of buffer 5 as source and circular buffer 7 as destination. -/
def copyRecTile : List Byte :=
  leBytes 256 (2 * 2 ^ 29 + 2 * 2 ^ 36 + 7 * 2 ^ 64 + 2 ^ 67 + 2 ^ 73 + 2 ^ 83 + 0x80 * 2 ^ 96 + 8 * 2 ^ 512 + 8 * 2 ^ 544)

theorem witness_copies :
    let i := Instr.dcopy false .die recRef
    let s := recWorld (copyRec false)
    let s1 := recordState s rt i recRef 256 8
    let x := copyDesc (copyRec false)
    let s2 := (sideRes s1 rt x false).2.2
    let s3 := (sideRes s2 rt x true).2.2
    s.curTeam = some rt ∧ rt.flagFull false = false ∧ RecordAt s rt i recRef 256 8 (recordBytes s rt i recRef 256 8) s1 ∧
    recordBytes s rt i recRef 256 8 = copyRec false ∧ x.wf none = true ∧ cbRowOk rt x = true ∧ x.sten = false ∧ x.dten = false ∧
    CopySideAt s1 rt i x false (.mem (sideH x false) (sideRes s1 rt x false).2.1.raw) (sideO x false) (sideS x false) s2 ∧
    CopySideAt s2 rt i x true (.mem (sideH x true) (sideRes s2 rt x true).2.1.raw) (sideO x true) (sideS x true) s3 ∧
    sideAligned 4 (.mem (sideH x false) (sideRes s1 rt x false).2.1.raw) (sideO x false) (sideS x false) = true ∧
    sideAligned 4 (.mem (sideH x true) (sideRes s2 rt x true).2.1.raw) (sideO x true) (sideS x true) = true ∧
    CountAt s3 rt i x none s3 ∧ CopyRoom s rt := by
  refine ⟨?_, ?_, record_at ?_, ?_, ?_, ?_, ?_, ?_, mem_side ?_, mem_side ?_, ?_, ?_, .inl ⟨?_, rfl, rfl⟩, part0, ?_, ?_, ?_⟩
  all_goals decide +kernel

theorem witness_fills :
    let i := Instr.dfill false .die false recRef (.imm 7)
    let s := recWorld (copyRec true)
    let s1 := recordState s rt i recRef 256 8
    let x := copyDesc (copyRec true)
    RecordAt s rt i recRef 256 8 (recordBytes s rt i recRef 256 8) s1 ∧ recordBytes s rt i recRef 256 8 = copyRec true ∧
    x.wf (some false) = true ∧
    CopySideAt s1 rt i x true (.mem (sideH x true) (sideRes s1 rt x true).2.1.raw) (sideO x true) (sideS x true) (sideRes s1 rt x true).2.2 ∧
    sideAligned 4 (.mem (sideH x true) (sideRes s1 rt x true).2.1.raw) (sideO x true) (sideS x true) = true ∧ x.cnt = false :=
  ⟨record_at (by decide +kernel), by decide +kernel, by decide +kernel, mem_side (by decide +kernel), by decide +kernel,
    by decide +kernel⟩

def cbTeam : Team := rt.setCb 7 ⟨true, 1, 256, 2, 0, 0, 0, 0⟩

def cbWorld : State :=
  { recWorld copyRecTile with
    teams := [cbTeam], tiles := { bufs := [⟨1, 5, 0, 0x2000, shape5, 1024⟩], tiles := [quarter 0 .idle none 0] } }

theorem cb_side {s : State} {t : Team} {i : Instr} {x : CopyDesc} {k : Nat} (h : x.dten = false) (c : x.dcb = some k)
    (r : HResOk (resolve s t (.idx (t.cb k).h)) = true) :
    CopySideAt s t i x true (.cb k (hEnt (resolve s t (.idx (t.cb k).h))).2.1.soff) 0 [] (hEnt (resolve s t (.idx (t.cb k).h))).2.2 :=
  .inr (.inl ⟨h, rfl, rfl, k, _, _, c, of_hres r, rfl⟩)

theorem tile_side {s : State} {t : Team} {i : Instr} {x : CopyDesc} {u : Tile} (h : x.sten = true)
    (n : s.tiles.named t.ctx x.stile = some u) :
    CopySideAt s t i x false (.tile x.stile (tilePlace s u).1) (tilePlace s u).2.1 (tilePlace s u).2.2 s :=
  .inl ⟨h, rfl, u, _, n, rfl, rfl⟩

theorem count_at {s : State} {t : Team} {i : Instr} {x : CopyDesc} (c : x.cnt = true)
    (h : sideOk s t i x.chidx .sig .atomic x.coff 4 4 = true) : ∃ k s2, CountAt s t i x k s2 :=
  ⟨_, _, .inr ⟨c, _, side_at h, rfl⟩⟩

/-- A copy from a tile to a circular buffer, with a counter. -/
theorem witness_copy_sides :
    let i := Instr.dcopy false .die recRef
    let x := copyDesc copyRecTile
    x.wf none = true ∧ cbRowOk cbTeam x = true ∧ tileFits cbWorld x (quarter 0 .idle none 0) = true ∧
    (∃ src off str, CopySideAt cbWorld cbTeam i x false src off str cbWorld) ∧
    (∃ dst s2, CopySideAt cbWorld cbTeam i x true dst 0 [] s2) ∧ ∃ cnt s2, CountAt cbWorld cbTeam i x cnt s2 :=
  ⟨by decide +kernel, by decide +kernel, by decide +kernel,
    ⟨_, _, _, tile_side (u := quarter 0 .idle none 0) (by decide +kernel) (by decide +kernel)⟩,
    ⟨_, _, cb_side (k := 7) (by decide +kernel) (by decide +kernel) (by decide +kernel)⟩,
      count_at (by decide +kernel) (by decide +kernel)⟩

/-- A started copy of one word with its operands at handle 0. -/
def oneCopy (src dst : CopySide) : CopyCmd :=
  { esize := 2, ext := [1], src, soff := 0, sstr := [4], dst, doff := 0x200, dstr := [4], cnt := none, scope := .die, pos := 0,
    started := false, srcSlot := 0, dstSlot := 0 }

def copyWorld (src dst : CopySide) (started : Bool) : State :=
  let ts := [quarter 0 .idle none 0, quarter 1 .opened (some mt.who) 0]
  withOp { recWorld [] with tiles := ⟨[⟨1, 5, 0, 0x2000, shape5, 1024⟩], ts⟩ } (.copy { oneCopy src dst with started := started })

def copyGo : CopyRun → Option CopyCmd
  | .go c _ => some c
  | _ => none

def copyState : CopyRun → State
  | .go _ s => s
  | _ => State.reset

theorem of_copy {r : CopyRun} {c : CopyCmd} (h : copyGo r = some c) : r = .go c (copyState r) := by
  cases r <;> first | (injection h with h; exact h ▸ rfl) | cases h

theorem witness_copy_walk :
    let e := entryOf 1 0x1000 0x1000 0 7 0
    let m : CopySide := .mem 0 e
    let s := copyWorld m m false
    let o (c : CopyCmd) := opOf (.copy c)
    let r := copyWorld m m true
    let c := { oneCopy m m with started := true }
    let u := copyWorld (.tile 0 0x2000) (.tile 1 0x2000) false
    let ou := o (oneCopy (.tile 0 0x2000) (.tile 1 0x2000))
    s.op? 0 = some (o (oneCopy m m)) ∧ s.part? (s.ctxOf (opTeam s (o (oneCopy m m)))).part = some part0 ∧
    copiesRunning s 0 0 < part0.copyEngines 0 ∧ u.op? 0 = some ou ∧ u.tiles.named 1 0 = some (quarter 0 .idle none 0) ∧
    (u.tiles.named 1 1).map (fun x => (x.st, x.holder)) = some (.opened, some (opTeam u ou).who) ∧
    excOk (engineTake u (opTeam u ou).who [quarter 0 .idle none 0] 0) = true ∧ u.coh.dead = [] ∧
    r.op? 0 = some (o c) ∧ r.opHeld 0 = false ∧
    copyRun (o c) (c.ext.foldl (· * ·) 1 - c.pos) r c = .go { c with pos := 1 } (copyState (copyRun (o c) 1 r c)) ∧
    (copyState (copyRun (o c) 1 r c)).spoiledOp 0 = false ∧
    eresOk (entryGet r (o c) 0 ⟨e⟩ (walkOff c.soff c.sstr (walkCoords c.ext c.pos)) 4) = true ∧
    eresOk (entryPut (eresState (entryGet r (o c) 0 ⟨e⟩ (walkOff c.soff c.sstr (walkCoords c.ext c.pos)) 4)) (o c) 0 ⟨e⟩
      (walkOff c.doff c.dstr (walkCoords c.ext c.pos)) [0, 0, 0, 0]) = true := by
  refine ⟨?_, ?_, ?_, ?_, ?_, ?_, ?_, ?_, ?_, ?_, of_copy ?_, ?_⟩
  all_goals decide +kernel

/-- Bytes that are not undefined through their handle read as they are. -/
theorem open_none {s : State} {q : Req} {off pa : Nat} (h : ∀ k < 4, openAt s q ((off + k : Nat) : Int) (pa + k) = false) :
    ∀ k b, k < 4 → openByte s q ((off + k : Nat) : Int) (pa + k) b = b := fun k b hk => by
  unfold openByte; rw [h k hk]; rfl

/-- A copy that counts at byte 0x80 of handle 0, and the bytes of its counter; a copy whose circular buffer has no slot for it. -/
theorem witness_copy_counter :
    let e := entryOf 1 0x1000 0x1000 0 7 0
    let m : CopySide := .mem 0 e
    let c := { oneCopy m m with started := true, cnt := some (0, e, 0x80) }
    let s := withOp (copyWorld m m true) (.copy c)
    let o := opOf (.copy c)
    let r := copyRun o (c.ext.foldl (· * ·) 1 - c.pos) s c
    let w := (copyState r).updOp 0 fun p => { p with kind := .copy { c with pos := 1 } }
    let q : Req := { engReq s o 0 ⟨e⟩ false 4 with acc := .atomic }
    let x := enginePart s o q 0x80 4
    let k := ({ mt with cbs := mt.cbs.set 7 ⟨true, 1, 256, 2, 2, 0, 0, 0⟩ } : Team)
    s.op? 0 = some o ∧ s.opHeld 0 = false ∧ r = .go { c with pos := 1 } (copyState r) ∧
    (∃ bs, countUp w o 0 ⟨e⟩ 0x80 = .ok bs (eresState (countUp w o 0 ⟨e⟩ 0x80))) ∧ s.uses = [] ∧
    x = .at_ (partPa x) (partState x) ∧
    (∀ k b, k < 4 → openByte (partState x) q (((0x80 : Nat) + k : Nat) : Int) (partPa x + k) b = b) ∧
    SideEntry m 0 ⟨e⟩ ∧ (∃ b, SideEntry (.tile 1 b) 0xFFF (tileEntry b)) ∧
    (world k).teamAny 0 = some k ∧ (k.cb 7).filled = 0 ∧ (k.cb 7).free = 0 := by
  refine ⟨?_, ?_, of_copy ?_, of_eres ?_, ?_, of_part ?_, open_none ?_, .inl rfl,
    ⟨0, .inr ⟨1, 0, rfl, rfl, rfl⟩⟩, ?_⟩
  all_goals decide +kernel

/-- A group of two teams, with collectives and barriers begun. -/
def pairGroup (next : List (Nat × Nat)) : Group :=
  { ctx := 1, ix := 4, gen := 0, n := 2, members := [(0, 1), (7, 0)], nextColl := next, nextBar := next, left := [], die0 := 0 }

def groupWorld (t : Team) (g : Group) : State :=
  { world t with parts := [part0], eng := { State.reset.eng with groups := [g] } }

theorem witness_groups :
    let s := groupWorld mt (pairGroup [])
    let f : Forming := ⟨1, 9, 2, [(7, 0)]⟩
    let full : Forming := ⟨1, 9, 2, [(0, 1), (7, 0)]⟩
    let w (f : Forming) : State := { s with eng := { s.eng with forming := [f] } }
    s.curTeam = some mt ∧ mt.mark = none ∧ s.partOf mt = some part0 ∧ part0.hasColl 0 = true ∧
    (val32 s mt true 0 (.imm 2)).toNat = 2 ∧ (val32 s mt true 0 (.imm 65536)).toNat = 65536 ∧
    (val32 s mt true 0 (.imm 65535)).toNat < 65536 ∧ memberships s 0 < 16 ∧
    s.eng.forming.find? (fun f => f.ctx == 1 && f.key == 9) = none ∧
    (s.eng.groups.filter fun g => g.ctx == 1 && !g.members.isEmpty).length < 4096 ∧
    (w f).eng.forming.find? (fun f => f.ctx == 1 && f.key == 9) = some f ∧ (∀ x ∈ f.members, x.1 ≠ 0 ∧ x.2 ≠ 1) ∧
    s.groupOf 1 (val32 s mt true 0 (.imm 4)) = some (pairGroup []) ∧ (pairGroup []).rankOf 0 = some 1 ∧ groupBusy s 0 4 = false ∧
    (w full).eng.forming.find? (fun x => x.ctx == 1 && x.key == 9) = some full ∧ full.members.length = full.n ∧
    groupTableFull s 1 = false ∧ groupTableFull (w f) 1 = false ∧
    (let x := w f
     groupTableFull { x with eng := { x.eng with groups := List.replicate 4096 (pairGroup []) } } 1 = true) ∧
    (formGroup { w full with eng := { (w full).eng with groups := [] } } full).isSome = true ∧ (full.members.map (·.1)).Nodup := by
  and_intros
  all_goals decide +kernel

/-- A collective of two members whose parts agree, each reading and writing words of handle 0. -/
def partOf (uid rank op : Nat) : CollPart :=
  { ctx := 1, group := 4, k := 0, uid, rank, op := some op, form := .allred, red := .add, ty := .int .i32, cnt := 4, srcH := 0,
    dstH := 0, srcE := entryOf 1 0x1000 0x1000 0 7 0, dstE := entryOf 1 0x1000 0x1000 0 7 0, srcO := 16 * rank, dstO := 0x100 + 16 * rank }

def collWorld : State :=
  let s := groupWorld mt (pairGroup [(0, 1), (7, 1)])
  { s with
    ops := [opOf (.coll 4 0), { opOf (.coll 4 0) with id := 1, uid := 7 }], nextOp := 2
    eng := { s.eng with parts := [partOf 0 1 0, partOf 7 0 1] } }

theorem witness_collectives :
    let s := groupWorld mt (pairGroup [])
    let i := Instr.coll false .allred .add (.int .i32) (.imm 0) (.imm 0x100) (.imm 4) 0 0 4
    let r := hEnt (resolve s mt (.idx 0))
    let w := hEnt (resolve r.2.2 mt (.idx 0))
    let x := hEnt (resolve w.2.2 mt (.idx 0))
    let y := hEnt (resolve x.2.2 mt (.idx 0))
    let ps := collParts collWorld 1 4 0
    s.groupOf 1 (val32 s mt true 0 (.imm 4)) = some (pairGroup []) ∧ (pairGroup []).rankOf 0 = some 1 ∧
    collBytes .allred 2 1 16 = (16, 16) ∧ r.2.1.kind = kGlobal ∧ r.2.1.right rR = true ∧ r.2.1.right rW = true ∧
    resolve s mt (.idx 0) = .ok r.1 r.2.1 r.2.2 ∧ resolve r.2.2 mt (.idx 0) = .ok w.1 w.2.1 w.2.2 ∧
    SideAt w.2.2 mt i 0 .engR .engRead 0 16 1 x.2.1 x.2.2 ∧ SideAt x.2.2 mt i 0 .engW .engWrite 0x100 16 1 y.2.1 y.2.2 ∧
    collBytes .p2p 2 1 16 = (0, 16) ∧
    ps.map (·.uid) = [7, 0] ∧ collWorld.eng.groups.find? (fun g => g.ctx == 1 && g.ix == 4) = some (pairGroup [(0, 1), (7, 1)]) ∧
    missedBy (pairGroup [(0, 1), (7, 1)]) [(0, 1), (7, 1)] 0 = false ∧ reachedBy (pairGroup [(0, 1), (7, 1)]) [(0, 1), (7, 1)] 0 = true ∧
    (ps.any fun p => (p.op.map collWorld.opHeld).getD false) = false ∧ collAgree 2 ps = true ∧
    (match collReads 2 collWorld ps [] with
      | .ok (srcs, s1) => (match collWrites s1 (ps.map fun p => (p, collResult p 2 srcs)) with
        | .ok s2 => s2.uses.isEmpty
        | .error _ => false)
      | .error _ => false) = true ∧
    ([1, 0xFFFFFFFF] : List Nat) ≠ [] ∧ (∀ x ∈ ([1, 0xFFFFFFFF] : List Nat), x < 2 ^ IType.width .i32) := by
  refine ⟨?_, ?_, ?_, ?_, ?_, ?_, of_hres ?_, of_hres ?_, side_at ?_, side_at ?_, ?_⟩
  all_goals decide +kernel

theorem witness_group_barriers :
    let s := groupWorld mt (pairGroup [])
    let g := pairGroup [(0, 1), (7, 1)]
    let b := groupWorld mt g
    let z (o : Option Nat × Option Nat) : State :=
      { b with eng := { b.eng with barArr := [⟨1, 4, 0, 0, o.1⟩, ⟨1, 4, 0, 7, o.2⟩] }
               ops := [opOf (.gbar 4 0), { opOf (.gbar 4 0) with id := 1, uid := 7 }] }
    let as (s : State) := s.eng.barArr.filter fun a => a.ctx == 1 && a.group == 4 && a.k == 0
    s.readsOut 0 = false ∧ s.sigsOut 0 = false ∧ mt.mark = none ∧ mt.flagFull false = false ∧
    missedBy g g.nextBar 0 = false ∧ reachedBy g g.nextBar 0 = true ∧
    ∀ o ∈ [(none, none), (some 0, some 1)], (z o).eng.groups.find? (fun g => g.ctx == 1 && g.ix == 4) = some g ∧
      ((as (z o)).map (·.uid)).Nodup ∧ ((∀ a ∈ as (z o), a.op = none) ∨ ∀ a ∈ as (z o), a.op ≠ none) ∧
      ((as (z o)).all fun a => match a.op with
        | some j => ((z o).op? j).map (·.uid) == some a.uid
        | none => true) = true ∧ (as (z o)).length = 2 := by decide +kernel

/-- A launch record of one team, at VA 0x1200, and a range or layer record that names it, at VA 0x1100. -/
def genRec (layer : Bool) : List Byte :=
  leBytes 16 (0x1200 + 3 * 2 ^ 84 + (if layer then 0 else 2 * 2 ^ 96)) ++ List.replicate 240 0 ++
    leBytes 29 (32 * 2 ^ 128 + 16 * 2 ^ 144 + 2 ^ 192 + 2 ^ 200 + 2 ^ 208 + 2 ^ 216 + 2 ^ 224)

def oneLaunch : Launch := { blankLaunch with lanes := 32, vregs := 16, tpc := 1, cpq := 1, qpd := 1, dies := 1, pkgs := 1 }

def range0 : Range :=
  { ctx := 1, n := 0, base := 0x10000, len := 0x10000, blk := 2 ^ 15, budget := 2, maxgen := 4, failEmpty := false, lr := oneLaunch }

/-- A block that is filling, its item held by team 0, and an item of a layer that nobody holds. -/
def item0 : Item := ⟨0, 3, 1, .block 0 1, 1, some 0, false, 0, []⟩
def item1 : Item := ⟨0, 4, 1, .tile 2 0x12 false 0 0 0, 2, none, false, 1, []⟩
def block0 : Block := ⟨1, 0, 1, .filling, [0x208000], false, 0, [], []⟩
def layer0 : Layer := { ctx := 1, n := 2, tag := 0, maxgen := 4, staleMiss := false, big := false, lr := oneLaunch }

def fill0 : Fill :=
  { State.reset.fill with ranges := [range0], blocks := [block0], layers := [layer0], items := [item0, item1], order := 2 }

def fillWorld (t : Team) (f : Fill) : State :=
  { world t with
    mem := putAt worldMem 0x1100 (genRec false), parts := [part0], fill := f
    boot := { State.reset.boot with heap := 0x800000, heapLen := 0x100000 }
    ctxs := [{ placedCtx with sharemask := 1, sharetab := 0x30005 :: List.replicate 7 0 }] }

def launchOk : Except State (Launch × State) → Bool
  | .ok (l, _) => l.oneTeam
  | .error _ => false

def launchGot : Except State (Launch × State) → Launch × State
  | .ok x => x
  | .error s => (blankLaunch, s)

theorem of_launch {r : Except State (Launch × State)} (h : launchOk r = true) : r = .ok ((launchGot r).1, (launchGot r).2) := by
  cases r <;> first | rfl | cases h

theorem witness_ranges :
    let t := rt.setS 4 6
    let h := hEnt (resolve (fillWorld t State.reset.fill) t (hrefOf (.s 4)))
    let i := Instr.prangeAdd false recRef (.s 4)
    let j := Instr.prangeLayer false recRef (.imm 15)
    let s := fillWorld t State.reset.fill
    let b := readRecord h.2.2 t i (some false) .ld recRef 64 8
    let g := launchAt (recData b).2 t i (some false) (BitVec.ofNat 64 (natField (leNat (recData b).1) 0 64))
    let b' := readRecord s t j (some false) .ld recRef 64 8
    let g' := launchAt (recData b').2 t j (some false) (BitVec.ofNat 64 (natField (leNat (recData b').1) 0 64))
    (fillWorld t State.reset.fill).curTeam = some t ∧ t.flagFull false = false ∧
    ProcAt (fillWorld t State.reset.fill) t (.s 4) h.2.1 h.2.2 ∧
    GenRecordAt h.2.2 t i false recRef (recData b).1 (launchGot g).1 (launchGot g).2 ∧
    GenRecordAt s t j false recRef (recData b').1 (launchGot g').1 (launchGot g').2 ∧
    (rangeOf 1 h.2.1 (recData b).1 (launchGot g).1).map (fun x => (x.n, x.blk, x.budget, x.maxgen)) = some (0, 32768, 2, 4) ∧
    (fillWorld t fill0).range? 1 h.2.1.aux = some range0 ∧
    (layerOf 1 15 (genRec true) oneLaunch).map (fun x => (x.n, x.tag, x.maxgen)) = some (15, 0, 4) ∧
    ((fillWorld t fill0).ctxOf t).shares 5 1 = true := by
  refine ⟨by decide +kernel, by decide +kernel, ⟨_, of_hres (by decide +kernel), by decide +kernel⟩,
    ⟨_, rec_ok (by decide +kernel), of_launch (by decide +kernel)⟩, ⟨_, rec_ok (by decide +kernel), of_launch (by decide +kernel)⟩,
    by decide +kernel⟩

theorem witness_range_commands :
    let w (k : PrangeOp) : State := withOp (fillWorld mt { fill0 with blocks := [{ block0 with st := .faulted 3 }], items := [] }) (.prange k)
    (w .add).op? 0 = some (opOf (.prange .add)) ∧ (w (.rm 0)).op? 0 = some (opOf (.prange (.rm 0))) ∧
    (∀ x ∈ (w (.rm 0)).fill.blocks, x.ctx = 1 → x.n = 0 → x.st ≠ .filling) ∧
    (w (.clr 0)).op? 0 = some (opOf (.prange (.clr 0))) ∧ (w (.layer layer0)).op? 0 = some (opOf (.prange (.layer layer0))) ∧
    layerItems (w (.layer layer0)) 1 2 = false := by decide +kernel

theorem witness_generator_items :
    let k := GenKey.layer 1 2
    let t := { mt with ctl := { mt.ctl with genr := true } }
    let s := { fillWorld t fill0 with grids := [{ worldGrid with gen := some (k, 0) }] }
    s.curTeam = some t ∧ t.ctl.genr = true ∧ (s.grid? 1).map (fun g => g.gen.map (·.1)) = some (some k) ∧ claimable s k item1 ∧
    (∀ x ∈ s.fill.items, ¬ (x.serves (.layer 1 3) = true ∧ x.holder = none ∧ x.starved = false)) ∧ mt.ctl.genr = false ∧
    item0.ix < 2 ^ 22 ∧ item1.depth < 16 ∧ (itemWords s item1)[0]? = some 0x22000004 ∧
    genInfo s k = some (1, oneLaunch, 4) ∧ (s.ctx? 1).map (·.part) = some 0 ∧ s.part? 0 = some part0 ∧ ctxBinds s 1 = true ∧
    genTeams s 0 k < 4 ∧ (∀ x ∈ s.fill.items, x.serves k = true → x.die ≠ 2) := by
  refine ⟨by decide +kernel, by decide +kernel, by decide +kernel, ?_, by decide +kernel⟩
  unfold claimable; decide +kernel

/-- A block whose item waits for frames, with two frames free. -/
theorem witness_frame_grant :
    let i := { item0 with holder := none, starved := true }
    let b := { block0 with frames := [] }
    let c := { placedCtx with pool := placedCode + 0x1300, npool := 2 }
    let s := { fillWorld mt { fill0 with items := [i], blocks := [b] } with
      ctxs := [c], mem := putAt worldMem 0x1300 (leBytes 8 0x210000 ++ leBytes 8 0x218000) }
    (s.fill.items.find? fun i => i.die == 0 && i.ix == 3 && i.starved) = some i ∧ s.range? 1 0 = some range0 ∧ s.ctx? 1 = some c ∧
    behindItem s 1 i.order = false ∧ (takeFrames s range0 c 1).1 = true ∧ s.block? 1 0 1 = some b ∧ s.fill.blocks = [b] := by
  decide +kernel

theorem witness_items :
    let s := fillWorld mt fill0
    let tile : Item := { item1 with holder := some 0 }
    let st := fillWorld mt { fill0 with items := [item0, tile], entries := [⟨0, 7, some 0, 0x12, false, 0, 0, 0, .inFlight, false, 0, 0, 0, 0, 0, 1⟩] }
    let z (w : Word) (ok : Bool) := withOp s (.fillCommit w false ok 7)
    let w := { mt with uid := 7, status := .waiting (.fill [(0, 3)] 1 false) }
    let p := { z 3 true with teams := [mt, w] }
    heldItem s mt (val32 s mt true 0 (.imm 3)) = some item0 ∧ tileDenied (s.ctxOf mt) item0 = false ∧
    ((val32 s mt true 0 (.imm 7)).setWidth 16 : BitVec 16).toNat < 0xFFF0 ∧
    heldItem st mt (val32 st mt true 0 (.imm 4)) = some tile ∧ tile.isTile = true ∧
    heldItem s mt (val32 s mt true 0 (.imm 9)) = none ∧
    (∀ ok, (z 3 ok).op? 0 = some (opOf (.fillCommit 3 false ok 7)) ∧ commitWaits (z 3 ok) (opOf (.fillCommit 3 false ok 7)) = false ∧
      ((z 3 ok).fill.items.find? fun i => i.holder == some 0 && i.id == natField (3 : Word).toNat 0 24) = some item0) ∧
    (z 3 true).block? 1 0 1 = some block0 ∧ (z 3 true).range? 1 0 = some range0 ∧ p.team? 7 = some w ∧
    st.entry? 0x12 false 0 = st.fill.entries.head? := by decide +kernel

theorem witness_generator_failure (r : FaultRec) :
    (fillWorld { mt with status := .stopping r } fill0).team? 0 = some { mt with status := .stopping r } := rfl

/-- Room for a record in the Shading Heap. -/
theorem take_rec (s : State) (die : Nat) (big shared : Bool) (ow : BitVec 16) (c : Word)
    (b : (s.fill.heap.filter fun h => h.die == die && h.busy s) = []) (q : 3 ≤ s.boot.heapLen / 1024 / 4) :
    (takeRec s die big shared ow c).isSome = true := by
  have first (n : Nat) (h : 0 < n) : ∃ k, (List.range n).find? (fun _ => true) = some k := by
    obtain ⟨m, rfl⟩ := Nat.exists_eq_succ_of_ne_zero (Nat.ne_of_gt h)
    exact ⟨0, by rw [Nat.succ_eq_add_one, List.range_succ_eq_map]; rfl⟩
  simp only [takeRec, b, List.any_nil, Bool.not_false, Nat.mul_add, Nat.mul_one]
  generalize s.boot.heapLen / 1024 / 4 * (die % 4) = x
  obtain ⟨k, hk⟩ := first ((x + s.boot.heapLen / 1024 / 4 - (x + (if big = true then 2 else 1) - 1) / (if big = true then 2 else 1) *
    (if big = true then 2 else 1)) / (if big = true then 2 else 1)) (by split <;> omega)
  rw [hk]
  rfl

theorem raise_tile (s : State) (c : Ctx) (l : Layer) (k : DWord) (sh : Bool) (ow : BitVec 16) (n : Nat)
    (i : s.fill.items = []) (h : s.fill.heap = []) (q : 3 ≤ s.boot.heapLen / 1024 / 4) :
    (raiseTile s c l k sh ow n).isSome = true := by
  have e := take_rec s (s.keyDie k) l.big sh ow c.id (by rw [h]; rfl) q
  obtain ⟨x, hx⟩ := Option.isSome_iff_exists.mp e
  simp only [raiseTile, i, List.filter_nil, List.map_nil, pick_first 4096 _ (by decide), hx, Option.isSome_some]

/-- Lanes that name a key of the layer. -/
def kt : Team := mt.mapLanes fun _ l => (l.setV 4 0x12).setV 5 0

def entry0 (st : TagState) : TagEntry := ⟨0, keySet 0x12, some 0, 0x12, false, 0, 0, 0, st, false, 0, 0, 0, 0, 0, 1⟩

def lookWorld (t : Team) (es : List TagEntry) : State := fillWorld t { fill0 with items := [], entries := es }

theorem witness_lookups :
    let s := lookWorld kt [entry0 .valid]
    let f := lookWorld kt [entry0 .inFlight]
    let w := { kt with status := .waiting (.keys [(0x12, false, 0)]) }
    let ks := keyLanes s kt (kt.eligible g7) (.v 4)
    let c := s.ctxOf kt
    s.curTeam = some kt ∧ allocOk kt (.v 12) [.v 4] = true ∧ Looks s kt g7 (.v 4) ks ∧ ks.length = 32 ∧
    (match lookLanes c 0 (s.itemDepth 0) s ks [] with
      | .ok as left _ => as.length == 32 && left.isEmpty
      | .deep _ => false) = true ∧
    (let n := { lookWorld kt [] with boot := { s.boot with heapLen := 0 } }
     match lookLanes c 0 0 n (ks.take 1) [] with
      | .ok _ left _ => !left.isEmpty
      | .deep _ => false) = true ∧
    (let h := { kt with status := .waiting (.held [0x12]) }
     (lookWorld h []).team? 0 = some h) ∧
    (ks.map (·.2)).filterMap (keyBusy s c) = [] ∧
    ((ks.map (·.2)).filterMap (keyBusy f c)).eraseDups = [(0x12, false, 0)] ∧ ownEntry f c 0 0x12 = false ∧
    keyWaits f (0x12, false, 0) = true ∧ keyWaits s (0x12, false, 0) = false ∧
    s.entry? 0x12 false 0 = some (entry0 .valid) ∧ f.entry? 0x12 false 0 = some (entry0 .inFlight) ∧
    ((lookWorld kt []).entry? 0x12 false 0 = none ∧ (placeEntry (lookWorld kt []) 0 (keySet 0x12)).isSome = true) ∧
    (raiseTile (lookWorld kt []) c layer0 0x12 false 0 1).isSome = true ∧
    (lookWorld kt [entry0 .stale]).entry? 0x12 false 0 = some (entry0 .stale) ∧ layer0.staleMiss = false ∧
    (lookWorld w [entry0 .inFlight]).team? 0 = some w ∧
    (withOp s (.sclook ⟨.v 12, [(0, [1, 2, 3, 4])]⟩)).op? 0 = some (opOf (.sclook ⟨.v 12, [(0, [1, 2, 3, 4])]⟩)) ∧
    (withOp s (.scinv 5 none)).op? 0 = some (opOf (.scinv 5 none)) ∧ tileMay (withOp s (.scinv 5 none)) (opOf (.scinv 5 none)) = true ∧
    c.shares ((val32 s kt true 0 (.imm 5)).setWidth 16) 2 = true ∧ (s.ctx? 1).isSome = true ∧ kt.unfin = none := by
  refine ⟨?_, ?_, ⟨rfl, ?_⟩, ?_, ?_, ?_, ?_, ?_, ?_, ?_, ?_, ?_, ?_, ?_, ?_, raise_tile _ _ _ _ _ _ _ ?_ ?_ ?_, ?_⟩
  all_goals decide +kernel

theorem of_some {α : Type} {o : Option α} {d : α} (h : o.isSome = true) : o = some (o.getD d) := by
  cases o <;> first | rfl | cases h

def batch0 (n : Nat) (trap : Bool) : RayBatch :=
  { op := 0, ctx := 1, die := 0, h := 0, entry := entryOf 1 0x1000 0x1000 0 7 0, root := 0, nodeOff := 0, primOff := 0, nodes := 0,
    prims := 0, cellExp := 0, rays := 0, hits := 0x100, n, first := false, trap, entered := false, held := 0, furrow := none }

/-- A structure of zeros through handle 0, rays and records through handle 1. -/
def rayWorld (t : Team) (furrow : Bool) : State := { world t with parts := [part0], ctxs := [{ placedCtx with furrow }] }

theorem struct_head {bs : List Byte} {b c : RayBatch} (h : (structHead bs b).isSome = true) : (structHead bs c).isSome = true := by
  simp only [structHead] at h ⊢
  split at h
  · cases h
  · rw [if_neg ‹_›]; rfl

/-- One ray, at 0 and 0x100 of the scratchpad. -/
theorem batch_at {s : State} {t : Team} {i : Instr}
    (h : let r1 := hEnt (resolve s t (.idx 0))
      let r2 := hEnt (resolve r1.2.2 t (.idx 1))
      let r3 := hEnt (resolve r2.2.2 t (.idx 1))
      let r4 := hEnt (resolve r3.2.2 t (.idx 1))
      let r5 := hEnt (resolve r4.2.2 t (.idx 1))
      let r6 := hEnt (resolve r5.2.2 t (.idx 0))
      let g := Machine.recBytes r6.2.2 t i (some false) (headReq r6.2.2 t i 0 r6.2.1)
      HResOk (resolve s t (.idx 0)) = true ∧ HResOk (resolve r1.2.2 t (.idx 1)) = true ∧ HResOk (resolve r2.2.2 t (.idx 1)) = true ∧
      r1.2.1.kind = kGlobal ∧ r2.2.1.kind = kScratch ∧ r3.2.1.kind = kScratch ∧
      sideOk r3.2.2 t i 1 .engR .engRead 0 48 1 = true ∧ sideOk r4.2.2 t i 1 .engW .engWrite 0x100 32 1 = true ∧
      sideOk r5.2.2 t i 0 .ld .read 0 64 1 = true ∧ excOk g = true ∧ (structHead (recData g).1 (batch0 0 false)).isSome = true) :
    ∃ b s1, BatchAt s t i false false 0 0x100 1 1 0 1 b s1 := by
  obtain ⟨h1, h2, h3, k1, k2, k3, d1, d2, d3, e, f⟩ := h
  exact ⟨_, _, _, _, _, _, _, _, _, _, _, _, _, _, _, _, _, _, of_hres h1, of_hres h2, of_hres h3, k1, k2, k3, side_at d1, side_at d2,
    by decide, by decide, side_at d3, rec_ok e, of_some (d := batch0 0 false) (struct_head f)⟩

theorem witness_ray_batches :
    let i := Instr.rtrace false false (.imm 0) (.imm 1) (.imm 0x100) 1 0 1
    let j := Instr.rsort false false (.imm 0) (.imm 1) (.imm 0x100) 1 0 1
    let s := rayWorld mt true
    s.curTeam = some mt ∧ mt.flagFull false = false ∧ (s.ctxOf mt).furrow = true ∧ hasRays s mt true = true ∧
    hasRays s mt false = true ∧ (val32 s mt true 0 (.imm 4096)).toNat = 4096 ∧
    (∃ b s1, BatchAt s mt i false false 0 0x100 1 1 0 1 b s1) ∧ ∃ b s1, BatchAt s mt j false false 0 0x100 1 1 0 1 b s1 := by
  refine ⟨?_, ?_, ?_, ?_, ?_, ?_, batch_at ?_, batch_at ?_⟩
  all_goals decide +kernel

/-- A program of two steps: a record, and the end. -/
def progRec : List Byte := leBytes 8 0x302 ++ leBytes 8 (4 * 2 ^ 60) ++ leBytes 8 (5 * 2 ^ 60)

theorem witness_rprog :
    let s := recWorld progRec
    let i := Instr.rprog false 7 recRef
    let a := readRecord s rt i (some false) .readRec recRef 8 8
    let b := readRecord (recData a).2 rt i (some false) .readRec recRef 24 8
    let h := leNat (recData a).1
    let o := opOf (.rprog 7 3 [])
    s.curTeam = some rt ∧ a = .ok ((recData a).1, (recData a).2) ∧ b = .ok ((recData b).1, (recData b).2) ∧ natField h 0 8 = 2 ∧
    natField h 16 48 = 0 ∧ natField h 8 8 ≤ 16 ∧
    stepsOk ((List.range 2).map fun k => BitVec.ofNat 64 (leNat (((recData b).1.drop (8 + 8 * k)).take 8))) = true ∧
    (withOp s (.rprog 7 3 [])).op? 0 = some o ∧ (∀ p ∈ (withOp s (.rprog 7 3 [])).ops, ¬ p.id < o.id) := by
  refine ⟨by decide +kernel, rec_ok (by decide +kernel), rec_ok (by decide +kernel), by decide +kernel⟩

/-- A batch that runs, before its rays are classified or after: a ray that is invalid, and one whose interval is empty. -/
def traceWorld (n : Nat) (trap : Bool) (entered : Bool := false) : State :=
  let t := { mt with scratch := [(14, 0x80), (15, 0x3F), (18, 0x80), (19, 0x3F)] }
  let s := withOp (world t) (.rays 0)
  { s with vis := { s.vis with batches := [{ batch0 n trap with entered }] } }

def tracedOk : Traced → Bool
  | .ok _ _ => true
  | _ => false

theorem witness_traces :
    let o := opOf (.rays 0)
    let s := traceWorld 2 true
    let ray (k : Nat) : Ray := rayOf (scratchGet s o (0 + 48 * k) 48)
    let b := { batch0 2 false with entered := true }
    let w := traceWorld 2 false true
    let os := { o with opc := 0xD2 }
    let sorted := { w with ops := [os], vis := { w.vis with left := [(0, 0, 0), (0, 1, 0)] } }
    let traced (s : State) (o : Op) : Bool := match traceRays o b s (dueRays s o b) [] with
      | .ok recs s1 => recs.length == 1 && s1.uses.isEmpty
      | _ => false
    (∀ a < 64, s.usedBy (some 0) (0x100 + a) (some 0) = false ∧ ownUse s 0 false (some 0) (0x100 + a) = false) ∧
    (traceWorld 2 false true).vis.batches.find? (·.op == 0) = some b ∧
    s.op? 0 = some o ∧ s.vis.batches.find? (·.op == 0) = some (batch0 2 true) ∧ s.opHeld 0 = false ∧ (s.team? 0).isSome = true ∧
    (⟨(batch0 2 true).entry⟩ : HEnt).kind = kGlobal ∧ ((List.range 2).filter fun k => (ray k).invalid) = [1] ∧ (ray 0).empty = true ∧
    o.opc ≠ 0xD2 ∧ traced w o = true ∧ traced sorted os = true ∧ (dueRays sorted os b).map (·.1) = [0] ∧
    (let later := { sorted with vis := { sorted.vis with left := [(0, 1, 0), (0, 0, 0)] } }
     dueRays later os b = [] ∧ (0, 0, 0) ∈ later.vis.left) ∧ (s.ctx? 1).isSome = true := by decide +kernel

theorem witness_furrow :
    let b := { batch0 4096 false with furrow := some 5, held := 4096 }
    let w (bs : List RayBatch) (clk : DWord) : State := { world mt with clk, vis := { State.reset.vis with batches := bs } }
    65536 ≤ furrowLoad (w (List.replicate 16 b) 6) 0 ∧ 4096 ≤ ((w [b] 4101).clk - 5).toNat ∧ ¬ 65536 ≤ furrowLoad (w [b] 4100) 0 ∧
    ¬ 4096 ≤ ((w [b] 4100).clk - 5).toNat := by decide +kernel

/-- The box from -1 to 1, and rays along x that meet it and do not. -/
theorem witness_box :
    let r (y : Nat) : Ray := ⟨[0xC0000000, y, 0], [0x3F800000, 0, 0], 0, 0x40800000, 0, 0⟩
    let box := [0xBF800000, 0xBF800000, 0xBF800000, 0x3F800000, 0x3F800000, 0x3F800000]
    boxHit (r 0x3F800000) box = true ∧ boxHit (r 0x3F800001) box = false ∧
    (∀ x ∈ (r 0x3F800001).org ++ (r 0).dir ++ box ++ [(r 0).tmin, (r 0).tmax], fmt32.isNan x = false ∧ fmt32.isInf x = false) := by
  decide +kernel

/-- One triangle at offset 0 of handle 0, a ring of 16 samples at 0x80, a picture of one pixel. -/
def jobRec : List Byte := leBytes 8 (2 ^ 32) ++ leBytes 8 (1 + 2 ^ 16) ++ leBytes 8 0 ++ leBytes 8 0x80 ++ leBytes 32 16

theorem job_side {s : State} {t : Team} {h : BitVec 12} {w : Bool} {off size : Nat}
    (k : let r := hEnt (resolve s t (.idx h))
      HResOk (resolve s t (.idx h)) = true ∧
        uniCheck r.2.2 t r.2.1 r.1 off size 1 (r.2.1.kind == kGlobal) (r.2.1.right rR && (!w || r.2.1.right rW)) = none) :
    JobSideAt s t h w off size (hEnt (resolve s t (.idx h))).2.1 (hEnt (resolve s t (.idx h))).2.2 := ⟨_, of_hres k.1, k.2⟩

def job0 : RasterJob := ((jobOf jobRec (blankJob rt)).getD (blankJob rt))

theorem witness_jobs :
    let s := recWorld jobRec
    let i := Instr.visJob false .none recRef
    let s1 := recordState s rt i recRef 64 8
    s.curTeam = some rt ∧ RecordAt s rt i recRef 64 8 (recordBytes s rt i recRef 64 8) s1 ∧ recordBytes s rt i recRef 64 8 = jobRec ∧
    jobOf jobRec (blankJob rt) = some job0 ∧ (∃ e s2, JobSideAt s1 rt job0.triH false job0.toff (64 * job0.tcount) e s2 ∧
      (∃ e s3, JobSideAt s2 rt job0.ringH true job0.ring (16 * job0.cap) e s3)) ∧ hasRaster s rt = true ∧
    (s.vis.jobs.filter fun x => x.die == 0 && x.isOpen s).length < 8 := by
  refine ⟨by decide +kernel, record_at (by decide +kernel), by decide +kernel, of_some (by decide +kernel),
    ⟨_, _, job_side (by decide +kernel), _, _, job_side (by decide +kernel)⟩, by decide +kernel, by decide +kernel⟩

/-- A job at work: before its triangles are read, with a sample to write, with none left. -/
def jobWorld (t : Team) (samples : Option (List (List Word))) (ready : List (List (Nat × Nat))) : State :=
  let e := entryOf 1 0x1000 0x1000 0 7 0
  let s := withOp (recWorld jobRec) (.visJob 0 0)
  { s with
    teams := [t], vis := { s.vis with jobs := [{ job0 with triE := e, ringE := e, samples, ready, produced := ready.length }] } }

theorem witness_job_work :
    let o := opOf (.visJob 0 0)
    let a := jobWorld rt none []
    let b := jobWorld rt (some [[1, 2, 3, 4]]) []
    let c := jobWorld rt (some []) [[(0x201100, 16)]]
    let j := (b.job? 0 0).getD job0
    let q := engReq b o j.ringH ⟨j.ringE⟩ true 16
    let w := { rt with status := .waiting (.job 0 0 1) }
    (a.job? 0 0).map (fun j => (j.op, j.samples)) = some (0, none) ∧ a.op? 0 = some o ∧ a.opHeld 0 = false ∧
    (∀ x ∈ a.vis.jobs, 0 ≤ x.op) ∧ excOk (readTris o ((a.job? 0 0).getD job0) 1 a 0 []) = true ∧
    (c.job? 0 0).map (·.samples) = some (some []) ∧ c.spoiledOp 0 = false ∧ b.job? 0 0 = some j ∧ j.samples = some [[1, 2, 3, 4]] ∧
    j.produced - j.taken < j.cap ∧
    (match ringPut o q b (engParts q ((j.ring + 16 * (j.produced % j.cap) : Nat) : Int) 16)
        ([1, 2, 3, 4].flatMap fun x => leBytes 4 x) [] with
      | .ok (_, s1) => !s1.spoiledOp 0 && decide (s1.vis = b.vis) && decide (s1.op? 0 = some o)
      | .error _ => false) = true ∧
    (let f := { c with vis := { c.vis with jobs := c.vis.jobs.map fun j => { j with die := 1 } } }
     (jobNamed f rt (val32 f rt true 0 (.imm ({ job0 with die := 1 } : RasterJob).id))).map (·.die) = some 1) ∧
    errorAt c 0x201100 16 = none ∧ (errorAt { c with poison := [0x4022] } 0x201100 16).isSome = true ∧
    jobNamed c rt (val32 c rt true 0 (.s 3)) = c.job? 0 0 ∧ jobNamed c rt (val32 c rt true 0 (.s 2)) = none ∧
    (jobWorld w (some []) [[(0x201100, 16)]]).team? 0 = some w ∧ Instr.wf (.visGet g0 (.v 12) (.s 3) (some 3)) = true ∧
    allocOk rt (.v 12) [] = true := by
  and_intros
  all_goals decide +kernel

theorem witness_rhit :
    let s := world mt
    let r := hEnt (resolve s mt (.idx 1))
    let i := Instr.rhit g7 false (.v 8) (.v 0) 1 0 (some 2)
    let at_ (L : Nat) : Int := ((val32 s mt false L (.v 0)).toNat * 32 : Nat) + (0 : Int)
    let ls := ((mt.eligible g7).lanes mt.nlanes).map fun L => (L, at_ L)
    let q : Req := { t := mt, c := r.2.2.ctxOf mt, ix := r.1, e := r.2.1, uni := false, use := .lds, acc := .read, size := 32, align := 16,
                     lanes := ls, opc := instrOpc i }
    i.wf = true ∧ allocOk mt (.v 8) [.v 0] = true ∧ ls ≠ [] ∧ resolve s mt (.idx 1) = .ok r.1 r.2.1 r.2.2 ∧ q.check r.2.2 = none ∧
    r.2.1.kind = kScratch := by
  refine ⟨by decide +kernel, by decide +kernel, by decide +kernel, of_hres (by decide +kernel), by decide +kernel⟩

/-- A fault's record, of a code. -/
def fault0 (code : Nat) : FaultRec :=
  { finfo0 := BitVec.ofNat 32 (code * 2 ^ 24), finfo1 := 0, finfo2 := 0, finfo3 := 0, ctx := 1, grid := 1, team := 0, place := ⟨0, 0, 0⟩,
    ipc := 8, rpc := 0, addr := 0, gpa := 0, vmid := 0, lanes := 0 }

/-- A context with a fault queue at 0x1400 of the page: 16 records at 0x6000. -/
def queueCtx (pending : List (Word × FaultRec)) : Ctx := { placedCtx with fq := ⟨placedCode + 0x1400, 7, pending⟩ }

def queueWorld (t : Team) (pending : List (Word × FaultRec)) : State :=
  { world t with
    ctxs := [queueCtx pending], mem := putAt worldMem 0x1400 (leBytes 8 (placedCode + 0x6000) ++ leBytes 1 4) }

/-- Traps and handlers: within and without a handler, at the last instruction and before it; headers that start, wait and
enter. -/
theorem witness_handlers :
    let h := { mt with ctl := { mt.ctl with hmode := true } }
    let e := { mt with ctl := { mt.ctl with slend := true } }
    let up := { mt with flags := 1 :: List.replicate 11 0 }
    mt.clause.left ≤ 1 ∧ ((world mt).ctxOf mt).debug = false ∧
    (({ world mt with ctxs := [{ placedCtx with debug := true }] } : State).ctxOf mt).debug = true ∧ h.ctl.hmode = true ∧
    mt.ctl.hmode = false ∧ 1 < ({ mt with clause := ⟨2, 15, 15, 0⟩ } : Team).clause.left ∧
    (0x8000 : DWord).getLsbD 15 = true ∧ ¬ mt.nvregs ≤ 0 + 15 ∧ mt.nvregs ≤ 0 + 16 ∧ mt.nvregs ≤ 64 + 0 ∧ e.ctl.slend = true ∧
    (world e).curTeam = some e ∧ (∀ n < 12, (0x001 : BitVec 12).getLsbD n = true → mt.flag n = 0) ∧
    ¬ (∀ n < 12, (0x001 : BitVec 12).getLsbD n = true → up.flag n = 0) ∧ (world mt).blocked mt = false ∧ mt.efaults = [] := by
  decide +kernel

/-- Registers of each kind, by a system context and by another; a `tlbi` and its completion; page walks that succeed and not. -/
theorem witness_csrs :
    let u : State := { world mt with ctxs := [{ placedCtx with sys := false }] }
    let z := withOp (world mt) (.tlbi .all .die 0)
    (∀ k ∈ [0x000, 0x00E, 0x018, 0x020, 0x038, 0x040], csrKnown k = true) ∧ csrKnown 0x019 = false ∧ (u.ctxOf mt).sys = false ∧
    ((world mt).ctxOf mt).sys = true ∧ u.curTeam = some mt ∧ (val32 (world mt) mt true 0 (.imm 4096)).toNat ≤ 4096 ∧
    Scope.beyondCore .die = true ∧ mt.flagFull true = false ∧ z.op? 0 = some (opOf (.tlbi .all .die 0)) ∧
    (world mt).readsOut mt.uid = false ∧ (world mt).sigsOut mt.uid = false ∧
    mt.status = .running ∧ excOk (translate (world mt) ((world mt).ctxOf mt) 0 0 0x1000 .write) = true ∧
    (match translate (world mt) ((world mt).ctxOf mt) 0 0 0x10000 .read with
      | .error f => f.code == codePage
      | .ok _ => false) = true ∧
    (let cold : State := { world mt with caches := State.reset.caches }
     (match translate cold (cold.ctxOf mt) 0 0 0x1000 .write with
      | .error f => f.code == codePerm
      | .ok _ => false) = true ∧
     (match translate { cold with poison := [lineOf placedRoot] } (cold.ctxOf mt) 0 0 0x1000 .read with
      | .error f => f.code == codeContained
      | .ok _ => false) = true) := by decide +kernel

/-- Lines of L2: one that arrives with a store waiting for it, a refused request that is taken and one that is refused the eighth
time, a request behind a starved one. -/
theorem witness_lines :
    let ln := lineOf 0x201000
    let st : OpKind := .store [(0x201000, 7)] false false
    let w : Waiter := ⟨0, 2, some 0, 2, 0, 0, 0, 0, 0, 0⟩
    let other : Waiter := { w with op := 5, kind := 0, sb := none }
    let s (l2 : List L2Line) (ns : List Nack) : State :=
      { withOp (world mt) st with caches := { (world mt).caches with l2, nacks := ns } }
    let n : Nack := ⟨w, 0, ln, 0, false, 7, true, none⟩
    let full : L2Line := ⟨0, ln, 0, false, List.replicate 15 other, none, 0⟩
    let a := s [⟨0, ln, 0, false, [w], none, 0⟩] []
    (((a.caches.l2.find? fun x => x.die == 0 && x.line == ln).map (·.pending)).getD [] = [w] ∧ w.kind = 2 ∧
      a.op? 0 = some (opOf st) ∧ lineOf 0x201000 = ln ∧ ∀ p ∈ a.queue 0 0, p = opOf st) ∧
    (l2Try (s [] [n]) 0 ln w 0 false).isSome = true ∧ l2Try (s [full] [n]) 0 ln w 0 false = none ∧ 8 ≤ n.count + 1 ∧
    ({ n with count := 3 } : Nack).count + 1 < 8 ∧
    (s [{ full with starved := some 5 }] [{ n with who := other }]).starvedAt 0 ln = some 5 ∧ w.op ≠ 5 ∧
    (∀ x ∈ (s [{ full with starved := some 5 }] [{ n with who := other }]).caches.l2, x.pending ≠ []) := by decide +kernel

/-- Stops, records, answers. -/
theorem witness_answers :
    let r := fault0 0x18
    let p : ParkRep := ⟨false, 3, 5, fault0 0x10, []⟩
    let p2 : ParkRep := ⟨true, 3, 5, fault0 0x11, []⟩
    let st := { mt with status := .stopping r }
    let sd := { mt with status := .stopped r 5 }
    let pk (p : ParkRep) := { mt with status := .parked [p] }
    let q : State := queueWorld mt [(6, r)]
    (queueWorld st []).team? 0 = some st ∧ (queueWorld st []).opsOf 0 = [] ∧ (queueWorld st []).ctx? 1 = some (queueCtx []) ∧
    q.fq? (.ctx 1) = some ⟨placedCode + 0x1400, 7, [(6, r)]⟩ ∧ recordMay q ⟨placedCode + 0x1400, 7, [(6, r)]⟩ = true ∧
    findReport (queueWorld (pk p) []) (.ctx 1) 5 = some (1, p) ∧
    ((findReport { queueWorld (pk p2) [] with ctxs := [{ queueCtx [] with vmid := 3 }] } (.vm 3) 5).isSome = true) ∧
    findStop (queueWorld sd []) (.ctx 1) 5 = some (sd, r) ∧ (queueWorld sd []).team? 0 = some sd ∧ r.code = codeTrap ∧
    findReport (queueWorld sd []) (.ctx 1) 5 = none ∧ findStop (queueWorld sd []) (.ctx 1) 4 = none := by decide +kernel

/-- Errors: a team whose grid may start again, and one whose may not; a command that an error response ends. -/
theorem witness_errors :
    let idem : State := { world mt with grids := [{ worldGrid with lr := { worldGrid.lr with idemp := true } }], nextUid := 1 }
    (idem.team? 0 = some mt ∧ (0 : Nat) ≠ idem.nextUid ∧ (idem.grid? 1).map (·.lr.idemp) = some true ∧ mt.noRelaunch = false) ∧
    ((world mt).grid? 1).map (·.lr.idemp) = some false ∧
    (withOp (world mt) .flush).op? 0 = some (opOf .flush) ∧ ((withOp (world mt) .flush).teamAny 0).map (·.ctx) = some 1 ∧ (world mt).team? 9 = none ∧
    ((world mt).ctx? 1).map (·.halted) = some none := by decide +kernel

/-- A context at its slice's end, one without budget, one that is saved, one whose command overruns. -/
theorem witness_slices :
    let s := world mt
    let e : State := { s with ctxs := [{ placedCtx with sliceEnd := true, budget := some 0 }] }
    let v : Saved := { ctx := 1, halted := false, nonce := 0, image := [], teams := [mt], since := 0, complete := false }
    let w : State := { s with saved := [v], teams := [], parts := [part0], clk := 0x100000000 }
    let o := opOf (.copy { esize := 0, ext := [1], src := .value [0], soff := 0, sstr := [], dst := .mem 0 0, doff := 0, dstr := [], cnt := none,
                           scope := .die, pos := 0, started := true, srcSlot := 0, dstSlot := 0 })
    s.ctx? 1 = some placedCtx ∧ placedCtx.halted = none ∧ (∀ v ∈ s.saved, v.ctx ≠ 1) ∧ (s.teams.map (·.uid)).Nodup ∧ s.ops = [] ∧
    mt.retiring = false ∧ mt.leave = .stay ∧ mt.ctl.slend = false ∧ stalledFull s mt = false ∧ s.tileMail 0 = false ∧ v.teams ≠ [] ∧
    gridsDue w 1 = false ∧ ({ mt with status := .waiting (.held [0x12]) } : Team).status.blocks = true ∧ mt.status.blocks = false ∧ mt.status.isStopped = false ∧
    (e.ctx? 1).map (fun c => (c.budget, c.sliceEnd)) = some (some 0, true) ∧
    (w.saved.find? (·.ctx == 1)) = some v ∧ (∀ t ∈ w.teams, t.ctx ≠ 1) ∧ w.ops = [] ∧ w.mgmt.mbox.ending ≠ some 1 ∧
    ({ w with ops := [o] } : State).op? 0 = some o ∧ (({ w with ops := [o] } : State).teamAny 0).map (·.ctx) = some 1 ∧ overrun { w with ops := [o] } o = true := by decide +kernel

def hwq (recs : List (Word × Launch)) (done : Word) : HwQueue :=
  { ctx := 1, enable := true, ordered := false, priocap := 3, ring := placedCode + 0x1500, recs, posted := 0, done, live := none, ringPos := 0 }

/-- The partition with its queue 63. -/
def qPart (x : HwQueue) : Part := { part0 with queues := List.replicate 63 { x with enable := false, recs := [], ctx := 9 } ++ [x] }

def launch1 : Launch := { oneLaunch with scratch := 1024, idemp := true }

/-- A launch record at VA 0x1100 and a ring of 16 entries at 0x1500 with one entry. -/
def queueState (t : Team) (x : HwQueue) (tail : Nat) : State :=
  { world t with
    parts := [qPart x], mem := putAt (putAt worldMem 0x1100 (genRec false ++ List.replicate 256 0)) 0x1500 (leBytes 4 tail ++ [4]) }

theorem witness_accepts :
    let r : RecRef := ⟨.s 4, .idx 0, 0⟩
    let t := mt.setS 4 0x200
    let s := queueState t (hwq [] 0) 1
    let a (i : Instr) := readRecord s t i (some false) .readRec r 256 8
    let q := Instr.qpost false 63 r
    let p := Instr.spawn false (.s 1) r .none
    let f := queueState t (hwq (List.replicate 16 (9, launch1)) 5) 17
    s.curTeam = some t ∧ a q = .ok ((recData (a q)).1, (recData (a q)).2) ∧
    a p = .ok ((recData (a p)).1, (recData (a p)).2) ∧ s.readsOut 0 = false ∧ s.sigsOut 0 = false ∧
    s.queueOf t 63 = some (qPart (hwq [] 0), hwq [] 0) ∧ s.partOf t = some (qPart (hwq [] 0)) ∧
    val64 s t true 0 false (.imm 1) >>> 40 = 0 ∧ ((qPart (hwq [] 0)).spawns.filter fun x => x.die == 0 && x.gen.isNone).length < 64 ∧
    s.gridIds.length < 2 ^ 32 ∧ f.queueOf t 63 = some (qPart (hwq (List.replicate 16 (9, launch1)) 5), hwq (List.replicate 16 (9, launch1)) 5) ∧
    ((5 : Word) - val32 f t true 0 (.imm 5)).toNat < 2 ^ 31 ∧ ¬ ((5 : Word) - val32 f t true 0 (.imm 6)).toNat < 2 ^ 31 := by
  refine ⟨by decide +kernel, rec_ok (by decide +kernel), rec_ok (by decide +kernel), by decide +kernel⟩

theorem witness_rings :
    let s := queueState mt (hwq [] 0)
    let w := { mt with status := .waiting (.queue 0 63) }
    (∀ n, (s n).part? 0 = some (qPart (hwq [] 0))) ∧ (qPart (hwq [] 0)).queue 63 = some (hwq [] 0) ∧ (∀ n, (s n).coh.die0Dead = false) ∧ (hwq [] 0).ring ≠ 0 ∧
    (s 1).mem.readLE ((hwq [] 0).ring + 4) 1 = 4 ∧ (s 1).mem.readLE ((hwq [] 0).ring + 128) 4 = 0 ∧
    (s 16).mem.readLE (hwq [] 0).ring 4 = 16 ∧ (s 17).mem.readLE (hwq [] 0).ring 4 = 17 ∧
    (queueState w (hwq [] 0) 0).team? 0 = some w :=
  ⟨fun _ => rfl, by decide +kernel, fun _ => rfl, by decide +kernel⟩

/-- A placement depends on its start modulo 16. -/
def placeAt (s : State) (p : Part) (l : Launch) (grid : Word) (start : Nat) : Option (List (Nat × Nat)) :=
  let dies := (List.range 4).map fun k => s.homeDie (start + k)
  let ps := (dies.filter (dieTakes s l grid)).filterMap (diePlace s p l start)
  if l.dies ≤ ps.length then some (ps.take l.dies).flatten else none

theorem place_at (s : State) (p : Part) (l : Launch) (grid : Word) (n : Nat) : placeAt s p l grid n = placeAt s p l grid (n % 16) := by
  have a : ∀ k, (n % 16 + k) % 4 = (n + k) % 4 := by omega
  have b : ∀ k, (n % 16 + k) % 16 = (n + k) % 16 := by omega
  have d : diePlace s p l (n % 16) = diePlace s p l n := by unfold diePlace; simp only [b]
  have e : (fun k => s.homeDie (n % 16 + k)) = fun k => s.homeDie (n + k) := funext fun k => by simp only [State.homeDie, a]
  unfold placeAt
  rw [d, e]

theorem fits_somewhere (s : State) (p : Part) (l : Launch) (grid : Word) (n : netsTake s = true)
    (h : ∀ k < 16, (placeAt s p l grid k).isSome = true) : (findPlace s p l grid).isSome = true := by
  have e : placeFor s p l grid = placeAt s p l grid (Config.freeNat s.ticks 510) := rfl
  rw [findPlace, if_pos n, e, place_at]
  exact h _ (Nat.mod_lt _ (by decide))

def okQueue : HwQueue := hwq [(9, launch1)] 0
def badQueue : HwQueue := hwq [(9, { launch1 with lanes := 33 })] 0
def okCand : Cand := ⟨.queue 63, 1, 9, launch1, none, 3⟩
def badCand : Cand := ⟨.queue 63, 1, 9, { launch1 with lanes := 33 }, none, 3⟩

theorem next_cand {s : State} {p : Part} {c : Cand} {r : List Cand} (h : candidates s p = c :: r)
    (k : c.refused s p ≠ 0 ∧ (finishLaunch s c.ctx c.lr c.gen.isSome).isSome = true ∨
      c.refused s p = 0 ∧ (findPlace s p c.lr c.id).isSome = true) : nextCand s p = some c := by
  have : (if c.refused s p != 0 then (finishLaunch s c.ctx c.lr c.gen.isSome).isSome else (findPlace s p c.lr c.id).isSome) = true := by
    rcases k with ⟨k, l⟩ | ⟨k, l⟩ <;> simp [k, l]
  rw [nextCand, h, List.find?_cons_of_pos (by exact this)]

theorem witness_schedule :
    let s := queueState mt okQueue 0
    let b := queueState mt badQueue 0
    s.part? 0 = some (qPart okQueue) ∧ nextCand s (qPart okQueue) = some okCand ∧ okCand.refused s (qPart okQueue) = 0 ∧
    bindsPending s = false ∧ placeLegal s (qPart okQueue) launch1 9 [(0, 5)] = true ∧
    nextCand b (qPart badQueue) = some badCand ∧ badCand.refused b (qPart badQueue) = 3 ∧ (b.ctx? 1).isSome = true ∧
    (refuse b (qPart badQueue) badCand 3).isSome = true ∧ launch1.refusal 0 3 false = 0 := by
  refine ⟨rfl, next_cand (r := []) (by decide +kernel) (.inr ⟨by decide +kernel,
    fits_somewhere _ _ _ _ (by decide +kernel) (by decide +kernel)⟩), by decide +kernel,
    by decide +kernel, by decide +kernel, next_cand (r := []) (by decide +kernel) (.inl (by decide +kernel)), by decide +kernel⟩

/-- A grid of two teams, the first bound. -/
def twoGrid : Grid := { worldGrid with lr := { launch1 with tpc := 2 }, nteams := 2, bound := [0], released := false, cores := [(0, 0)] }

def bind1 (restore : Bool) : BindRec := ⟨1, 1, 1, 0, 0, 0, 0, 31, 0, 0, restore, 1, true, 0x1100⟩

theorem witness_binds :
    let s : State := { world mt with grids := [twoGrid], nextUid := 1 }
    let u := { mt with uid := 8, teamNo := 1 }
    let v : Saved := { ctx := 1, halted := false, nonce := 1, image := [], teams := [u], since := 0, complete := true, checked := true }
    let w : State := { s with saved := [v] }
    s.grid? 1 = some twoGrid ∧ twoGrid.released = false ∧ (1 : Word).toNat < twoGrid.nteams ∧ (1 : Word) ∉ twoGrid.bound ∧
    (1 : Word) ∉ twoGrid.retired ∧ slotTakes s twoGrid.lr 0 0 31 = true ∧ (∀ t ∈ s.teams, t.uid ≠ s.nextUid) ∧
    savedTeam w 1 1 1 = some u ∧ (∀ t ∈ w.teams, t.uid ≠ 8) ∧
    (bind1 true).valid = true ∧ s.coh.die0Dead = false ∧ ({ bind1 true with valid := false } : BindRec).valid = false ∧
    (∀ n < 2, ({ twoGrid with bound := [0, 1] } : Grid).unbound n = false) ∧ twoGrid.complete = false := by decide +kernel

theorem witness_grid_ends :
    let g (cnt : DWord) : Grid := { worldGrid with retired := [0], lr := { launch1 with cntva := cnt }, queue := some 63 }
    let s (cnt : DWord) : State := { queueState mt (hwq [] 4) 0 with teams := [], grids := [g cnt] }
    (∀ c ∈ [0, 0x1080], (s c).grid? 1 = some (g c) ∧ (g c).complete = false ∧ (g c).retired.length = (g c).nteams ∧ (s c).ops = [] ∧
      (s c).ghosts = [] ∧ (s c).uses = [] ∧ (g c).gen = none) ∧ (s 0).part? 0 = some (qPart (hwq [] 4)) ∧ ((s 0).ctx? 1).isSome = true ∧
    excOk (translate (s 0x1080) placedCtx (4 * (s 0x1080).boot.pkg) 0 0x1080 .atomic) = true := by
  refine ⟨?_, by decide +kernel, by decide +kernel, by decide +kernel⟩
  have h : ∀ k ∈ [0, 0x1080], let c := BitVec.ofNat 64 k
      let g : Grid := { worldGrid with retired := [0], lr := { launch1 with cntva := c }, queue := some 63 }
      let s : State := { queueState mt (hwq [] 4) 0 with teams := [], grids := [g] }
      s.grid? 1 = some g ∧ g.complete = false ∧ g.retired.length = g.nteams ∧ s.ops = [] ∧ s.ghosts = [] ∧ s.uses = [] ∧ g.gen = none := by decide +kernel
  intro c hc
  rcases List.mem_cons.mp hc with rfl | hc
  · exact h 0 (by decide)
  · rw [List.mem_singleton.mp hc]; exact h 0x1080 (by decide)

def rq (k : Nat) : Requester := .slice k 3

def lmsg (peer : Requester) (seq : BitVec 4) : LineMsg := ⟨0, peer, 9, seq, 0, .host, false, false⟩

def dirWorld (owner : Option Requester) (sharers await : List Requester) : State :=
  { State.reset with coh := { State.reset.coh with dir := [⟨0, 9, .s, owner, sharers, await⟩] } }

/-- A line that nobody holds, one held for sharing, one with an owner, one that is asked about; a home that may not grant. -/
theorem witness_homes :
    let m := lmsg (rq 1) 0
    let d (s : State) := s.lineDir m.home m.line
    let busy : State := { State.reset with coh := { State.reset.coh with seqs := [⟨0, rq 1, 0, 8, 0⟩] } }
    ((d State.reset).await = [] ∧ (d State.reset).owner = none ∧ (d State.reset).sharers = [] ∧ State.reset.mayGrant 0 (rq 1) = true) ∧
    ((d (dirWorld none [rq 1] [])).owner = none ∧ (d (dirWorld none [rq 1] [])).sharers.filter (· != rq 1) = []) ∧
    (d (dirWorld none [rq 1, .host] [])).sharers.filter (· != rq 1) = [.host] ∧ rq 1 ∈ (d (dirWorld none [rq 1, .host] [])).sharers ∧
    ((d (dirWorld (some .host) [] [])).owner = some .host ∧ Requester.host ≠ rq 1) ∧
    (d (dirWorld (some (rq 1)) [] [])).owner = some m.peer ∧ (d (dirWorld none [] [.host])).await ≠ [] ∧
    busy.mayGrant 0 (rq 1) = false ∧ tracked 0 (rq 1) = true ∧ tracked 0 (.core 0 1) = false ∧ State.reset.mayGrant 0 (.core 0 1) = true ∧
    (∀ w ∈ [rq 1, .core 0 1], dirFull State.reset (lmsg w 0) = false) ∧
    ¬ ((d State.reset).sharers ≠ [] ∨ State.reset.sealedLine m.line = true) ∧ (d (dirWorld none [.host] [])).sharers ≠ [] ∧
    (let x : Tile := { quarter 0 .sealed none 0 with owner := some 1 }
     let s := tileWorld mt [x]
     ∃ l ∈ s.linesOf x, s.sealedLine l = true ∧ (s.lineDir 0 l).owner = none ∧ (s.lineDir 0 l).sharers = []) ∧
    m.peer ∉ (d State.reset).await ∧ rq 1 ∈ (d (dirWorld none [] [rq 1])).await ∧ (d (dirWorld none [] [])).owner ≠ some m.peer := by
  and_intros
  all_goals decide +kernel

/-- A directory without room: as many entries as it has, of lines other than the one asked for. -/
theorem witness_full_directory : ∃ s m, dirFull s m = true ∧ (s.lineDir m.home m.line).await = [] ∧ s.mayGrant m.home m.peer = true ∧
    (∃ e ∈ s.coh.dir, e.home = m.home ∧ e.await = []) ∧ ∀ e ∈ s.coh.dir, e.await = [] → e.owner.toList ++ e.sharers ≠ [] := by
  let e : LineDir := ⟨0, 10, .e, some .host, [], []⟩
  have all : ∀ x ∈ List.replicate dirSize e, x = e := fun _ h => List.eq_of_mem_replicate h
  have h9 : ∀ x ∈ List.replicate dirSize e, (x.home == 0 && x.line == 9) = false := fun x h => by rw [all x h]; rfl
  refine ⟨{ State.reset with coh := { State.reset.coh with dir := List.replicate dirSize e } }, lmsg (rq 1) 0, ?_, ?_, by decide +kernel,
    ⟨e, List.mem_replicate.mpr ⟨by decide, rfl⟩, rfl, rfl⟩, fun x h _ => by rw [all x h]; decide⟩
  · have f : (List.replicate dirSize e).filter (·.home == 0) = List.replicate dirSize e :=
      List.filter_eq_self.mpr fun x h => by rw [all x h]; rfl
    have a : (List.replicate dirSize e).any (fun d => d.home == 0 && d.line == 9) = false :=
      List.any_eq_false.mpr fun x h => by rw [h9 x h]; decide
    simp only [dirFull, lmsg, f, a, List.length_replicate]; decide
  · have n : (List.replicate dirSize e).find? (fun d => d.home == 0 && d.line == 9) = none :=
      List.find?_eq_none.mpr fun x h => by rw [h9 x h]; decide
    simp only [State.lineDir, lmsg, n]; rfl

/-- A probe that is held for its grant, and one that acts; a recall that a tile's grant on its way to the die goes before. -/
theorem witness_holders :
    probeEarly State.reset (lmsg (rq 1) 8) = true ∧ probeEarly State.reset (lmsg (rq 1) 0) = false ∧
    probeEarly State.reset (lmsg (rq 1) 9) = false ∧ tracked 0 (lmsg (rq 1) 0).peer = true ∧
    tileGrantOut State.reset (lmsg (rq 1) 0) = false ∧
    tileGrantOut (State.reset.send (.grant ⟨0, .core 1 2, 5, 1, 0, .core 1 2, false, true⟩)) (lmsg (rq 1) 0) = true ∧ ((1 : BitVec 4) - (State.reset.seqOf 0 (rq 1)).recvd).toNat ≤ 8 := by decide +kernel

/-- A die that other requests wait for, and die 0. -/
theorem witness_dead_agents :
    let t := { mt with status := .waiting (.tile 1 0) }
    let s : State := { tileWorld t [quarter 0 .idle none 0] with
      tiles := { bufs := [⟨1, 5, 1, 0x2000, shape5, 1024⟩], tiles := [quarter 0 .idle none 0] }
      coh := { State.reset.coh with dir := [⟨0, 9, .e, some (rq 1), [], []⟩] } }
    (s.teams.map (·.uid)).Nodup ∧ s.ops = [] ∧ Agent.die 1 ≠ .die (4 * s.boot.pkg) ∧ waitingOn s (.die 1) = [1] ∧ agentOwns (.die 1) (rq 1) = true ∧
    Agent.die 0 = .die (4 * s.boot.pkg) ∧ busyCtxs s = [1] ∧ (s.ctx? 1).map (·.halted) = some none := by decide +kernel

/-- Migration of frame 64 to location 200, which no frame of die 0 has. -/
def migWorld (stat cmd dest : Nat) : State :=
  { State.reset with
    boot := { State.reset.boot with regions := [⟨0x400000, 2 ^ 45, .hbm 1⟩] }
    mig := { State.reset.mig with regs := [⟨0, 64, dest, stat, cmd, 5⟩], dirty := [256 * 64 + 3] } }

theorem witness_migration :
    (∀ cmd ∈ [1, 2, 3, 4], ((migWorld 1 cmd 200).migOf 0).stat = 1 ∧ ((migWorld 1 cmd 200).migOf 0).cmd = cmd) ∧
    ((migWorld 2 1 200).migOf 0).stat ≠ 1 ∧ servesFrame (migWorld 1 3 200) 0 64 = true ∧ 200 < mediaUnits ∧
    locTaken (migWorld 1 3 200) 0 64 200 = false ∧ (migWorld 1 3 200).frameLoc 0 64 ≠ 200 ∧
    locTaken (migWorld 1 3 65) 0 64 65 = true ∧ 256 * 64 + 3 ∈ (migWorld 1 3 200).mig.dirty := by decide +kernel

/-- A machine whose owner is master 1, with the mailbox and the clock as given. -/
def mgmtWorld (mb : Mailbox) (clk : DWord) : State :=
  let g := State.reset.mgmt
  { world mt with clk, parts := [part0], mgmt := { g with mbox := mb, owner := { g.owner with master := 1, valid := true } } }

def mbox0 : Mailbox := State.reset.mgmt.mbox

theorem witness_ownership :
    let s := mgmtWorld mbox0 0
    let h : State := { s with mgmt := { s.mgmt with owner := { s.mgmt.owner with handPend := true, handTo := 2 } }, clk := 0x80000000 }
    let q := mgmtWorld mbox0 2100000000
    State.reset.mgmt.owner.valid = false ∧ (h.mgmt.owner.handPend = true ∧ h.mgmt.owner.handTo = 2) ∧ owns s 1 ∧ ¬ owns s 0 ∧
    ¬ silent s ∧ handed { h with clk := 0x7FFFFFFF } 2 ∧ ¬ handed h 2 ∧ silent q ∧ q.mgmt.owner.master = 1 ∧ ¬ owns q 1 ∧
    ¬ (s.mgmt.owner.valid = false ∨ handed s 0) ∧ s.mgmt.recovery = false ∧
    ({ s with mgmt := { s.mgmt with recovery := true } } : State).mgmt.recovery = true ∧ s.mgmt.owner.handPend = false ∧
    (mgmtWorld mbox0 2100000000).second ≤ ((mgmtWorld mbox0 2100000000).clk - s.mgmt.owner.beatAt).toNat ∧
    1000 ≤ ((3600 : Word).setWidth 12 : BitVec 12).toNat ∧ ¬ 1000 ≤ ((999 : Word).setWidth 12 : BitVec 12).toNat ∧
    s.coh.die0Dead = false ∧ 2 ^ 31 ≤ (h.clk - h.mgmt.owner.handAt).toNat ∧ (0x7FFFFFFF : DWord).toNat < 2 ^ 31 ∧ (40 : BitVec 8).toNat ≤ 84 := by
  unfold owns silent handed; decide +kernel

theorem witness_registers :
    owns (mgmtWorld mbox0 0) 1 ∧ ¬ owns (mgmtWorld mbox0 0) 3 ∧ (mgmtWorld mbox0 0).mayAttest 1 = true ∧ (6 : Nat) < (255 : BitVec 8).toNat ∧
    (0x10008 : Nat) / 0x10000 = 1 ∧ (0x11000 : Nat) / 0x10000 = 1 ∧ (0x14 : Nat) / 0x10000 ≠ 1 := by
  unfold owns silent; decide +kernel

/-- The mailbox with a descriptor. -/
def mailWorld (n : Nat) (bs : List Byte) : State := mgmtWorld { mbox0 with len := BitVec.ofNat 16 n, buf := seg 0 bs, arg0 := 1 } 0

/-- Context 7 in partition 0. -/
def ctxBytes (pool : Nat) (root : Nat := placedRoot) : List Byte := leBytes 128 (7 + 2 ^ 64 * root + 2 ^ 384 * pool)

/-- Partition 2 with core 0 of die 1. -/
def partBytes : List Byte := leBytes 64 (2 + 2 ^ 32 * 1000 + 2 ^ 192 + 2 ^ 448 * 4 + 2 ^ 464 * 4)

theorem witness_contexts :
    let c (n : Nat) := ((mailWorld 128 (ctxBytes n)).mboxBytes 128).bind ctxOfDesc
    let o (n : Nat) : State := { mailWorld 128 (ctxBytes n) with ctxs := [(c 1).getD placedCtx] }
    mailFree (mailWorld 128 (ctxBytes 1)) 1 ∧ (c 1).map (·.id) = some 7 ∧ (mailWorld 128 (ctxBytes 1)).ctx? 7 = none ∧
    (o 2).ctx? 7 = c 1 ∧ fixedDesc (ctxBytes 2) = fixedDesc (ctxBytes 1) ∧
    fixedDesc (ctxBytes 1 (placedRoot + 4096)) ≠ fixedDesc (ctxBytes 1) ∧
    ((mailWorld 128 (ctxBytes 1 (placedRoot + 4096))).mboxBytes 128).bind ctxOfDesc ≠ none ∧
    fixedDesc (ctxBytes 0) = fixedDesc (ctxBytes 1) ∧ (c 0).map (·.npool) = some 0 ∧ (c 1).map (·.npool) = some 1 ∧ (c 2).map (·.npool) = some 2 ∧
    ((mailWorld 127 []).mboxBytes 128).bind ctxOfDesc = none ∧ ((mailWorld 0 []).ctx? (lo32 (mailWorld 0 []).mgmt.mbox.arg0)).isSome = true ∧
    (mgmtWorld { mbox0 with ending := some 1 } 0).mgmt.mbox.ending.isSome = true ∧
    (let s := mgmtWorld mbox0 0; { s with coh := { s.coh with die0Dead := true } : State }).coh.die0Dead = true := by
  unfold mailFree owns silent; decide +kernel

/-- A key of an epoch that is over, one of the present epoch, and one whose length is not a key's. -/
theorem witness_keys :
    let k (e : Byte) := mailWorld 1632 (List.replicate 1632 0 |>.set 2 e)
    mailFree (k 0) 1 ∧ ((k 1).mboxBytes 1632).map (fun bs => (bs.drop 2).take 2) = some [1, 0] ∧ (k 1).mgmt.owner.epoch = 0 ∧
    ((k 0).mboxBytes 1632).map (fun bs => (bs.drop 2).take 2) = some [0, 0] ∧ (mailWorld 1631 []).mboxBytes 1632 = none ∧
    ((k 0).mgmt.keys.filter (·.1 != 0)).length < 4096 := by
  unfold mailFree owns silent; decide +kernel

theorem witness_partitions :
    let s := mailWorld 1216 partBytes
    let p := ((s.mboxBytes 1216).bind partOfDesc).getD part0
    (s.mboxBytes 1216).isSome = true ∧ (s.mboxBytes 1216).bind partOfDesc = some p ∧ p.id = 2 ∧ partBusy s 2 = false ∧
    partFits s.parts p = true ∧ s.part? 2 = none := by decide +kernel

/-- An image that the header refuses, and one that is not authentic; attestation with indices left and none. -/
theorem witness_restore_and_reports :
    let s : State := { mailWorld 0 [] with mem := putAt worldMem 0x1600 [0, 0, 0, 0, 0, 0, 1] }
    let t : State := { s with mgmt := { s.mgmt with recovery := false, fuse := 2 ^ 20, acl := [(48, 0x55)] } }
    restoring s placedCtx (placedCode + 0x1600) = .refused ∧ restoring s placedCtx (placedCode + 0x1700) = .auth ∧ s.mgmt.att.length = 4 ∧ s.mgmt.recovery = false ∧
    s.mayAttest 1 = true ∧ s.mgmt.fuse < 2 ^ 20 ∧ 2 ^ 20 ≤ t.mgmt.fuse ∧ t.mayAttest 3 = false ∧ t.mayAttest 1 = true := by decide +kernel

theorem witness_function_reset :
    let s := mgmtWorld mbox0 0
    let p := { part0 with queues := [⟨1, true, false, 3, 0, [], 0, 0, none, 0⟩] }
    let t : State := { s with parts := [p], mgmt := { s.mgmt with owner := { s.mgmt.owner with master := 0 } } }
    p ∈ t.parts ∧ t.aclWrites 0 (0x100 + p.id) = true ∧ (t.ctx? 1).map (·.halted) = some none := by decide +kernel

def fetchOk : FetchRes → Bool
  | .block _ _ => true
  | _ => false

def fetchGot : FetchRes → List Word × State
  | .block ws s => (ws, s)
  | _ => ([], State.reset)

theorem of_fetch {r : FetchRes} (h : fetchOk r = true) : r = .block (fetchGot r).1 (fetchGot r).2 := by
  cases r <;> first | rfl | cases h

/-- A machine after reset with a word placed, and its team. -/
def placed (w : Nat) : State := State.reset.withFetchWord 64 w
def placedTeam (w : Nat) : Team := (placed w).teams.headD team0

/-- The fetch of the placed team. -/
def placedFetch (w : Nat) : FetchRes :=
  let u : Team := { placedTeam w with status := .running }
  fetchBlock (placed w).tick ((placed w).tick.ctxOf u) u u.pc

theorem fetches_of {w : Nat} {x : Fetched} (h : fetchOk (placedFetch w) = true)
    (o : readObject ((placedTeam w).pc.toNat - (placedTeam w).pc.toNat % 32) (fetchGot (placedFetch w)).1
      ((placedTeam w).pc.toNat % 32 / 4) ((placedTeam w).clause.left == 0) = some x) :
    ∃ s2, fetches (placed w) (placedTeam w) x s2 := ⟨_, _, _, of_fetch h, o, rfl⟩

/-- An instruction, a header that is due, and a pattern that is none: each is what the placed team fetches on its turn. -/
theorem witness_step :
    (∀ w ∈ [0x00001FFFFFFFFC00, 0x0001000006FF0007, 0x00001FFFFFFFFFFC], onTurn (placed w) (placedTeam w)) ∧
    (∃ i s2, fetches (placed 0x00001FFFFFFFFC00) (placedTeam 0x00001FFFFFFFFC00) (.instr 0 8 i) s2) ∧
    (∃ h s2, fetches (placed 0x0001000006FF0007) (placedTeam 0x0001000006FF0007) (.header 0 h) s2) ∧
    (∃ hdr uni opc err s2, fetches (placed 0x00001FFFFFFFFFFC) (placedTeam 0x00001FFFFFFFFFFC) (.bad 0 hdr uni opc err) s2) := by
  refine ⟨?_, ?_, ?_, ?_⟩
  · unfold onTurn; decide +kernel
  · exact ⟨.nop, fetches_of (by decide +kernel) (by decide +kernel)⟩
  · exact ⟨⟨1, 0, 6, 15, 15, 0, 1⟩, fetches_of (by decide +kernel) (by decide +kernel)⟩
  · exact ⟨false, false, 0xFF, .opcode, fetches_of (by decide +kernel) (by decide +kernel)⟩

/-- An instruction of the Nib; one of a pipe that starts, and one that stalls, its flag full. -/
theorem witness_pipe_decisions :
    let u := { mt with flags := List.replicate 12 63, clause := { mt.clause with seta := 0, left := 1 } }
    let i := Instr.ld (at1 0) false (.v 2)
    let stalls (s : State) : Bool := match exec i s with
      | .next s' => s'.stalls 0
      | _ => false
    inNib (.movi g7 .n64 (.s 2) (.i64 5)) = true ∧ inNib i = false ∧ u.flagFull false = true ∧ stalls (world u) = true ∧
    (match exec i (world mt) with
      | .next s' => !s'.stalls 0
      | _ => false) = true := by decide +kernel

/-- Parcels in a block from the first one on and up to the last; encodings of one, two and four parcels. -/
theorem witness_blocks :
    holdsFrom (List.replicate 4 0 ++ (encodeParcels (.movi g7 .n64 (.s 2) (.i64 5)))) 4 (encodeParcels (.movi g7 .n64 (.s 2) (.i64 5))) ∧
    Instr.wf (.movi g7 .n64 (.s 2) (.i64 5)) = true ∧ (encode (.movi g7 .n64 (.s 2) (.i64 5))).isSome = true ∧
    blockParcel [1, 2, 3, 4, 5, 6, 7, 0] 7 = 0 ∧ opcodeListed 0xFF = false ∧ isHeaderParcel 0xFFFFFFFC = false := by
  unfold holdsFrom; decide +kernel

/-- A memory in canonical form, a walk that ends, and a message under way that answers. -/
theorem witness_whole :
    worldMem.wf = true ∧ (world mt).curTeam.isSome = true ∧ (world mt).inbox = [] ∧ (world mt).coh.net = [] ∧
    placedRoot % 8 = 0 ∧ excOk (walk .plain (.of worldMem) placedCtx 0x1000 .read) = true ∧ placedCtx.s1root % 8 = 0 ∧ placedCtx.s2root % 8 = 0 := by decide +kernel

end Sys2Proof.Tests
end

/-! Random streams and uniform draws (06 R174): the three instructions of the stream end in one update of the eligible
lanes, and a draw of 24 bits is a number that FP32 holds exactly. -/

namespace Sys2Proof.RandomStreams

open Sys2Proof.Machine Sys2Proof.Claims

/-! ### Updates of the eligible lanes -/

/-- An update of the lanes of a mask after another of the same lanes is one update. -/
theorem onLanes_onLanes (t : Team) (m : Mask) (f h : Nat → Lane → Lane) :
    (t.onLanes m f).onLanes m h = t.onLanes m fun L l => h L (f L l) := by
  simp only [Team.onLanes, Team.mapLanes, List.mapIdx_mapIdx]
  congr 2
  funext L l
  cases m.has L <;> simp

theorem has_eligible_iff {t : Team} {g : Guard} {L : Nat} (ht : shaped t) (hL : L < t.nlanes) :
    (t.eligible g).has L = true ↔ elig t g L := by
  obtain ⟨-, hn, -⟩ := ht
  simp [Team.has_eligible hn hL, elig, hL]

theorem lane_onLanes_of_elig {t : Team} {g : Guard} {f : Nat → Lane → Lane} {L : Nat} (ht : shaped t) (he : elig t g L) :
    (t.onLanes (t.eligible g) f).lane L = f L (t.lane L) := by
  have hL : L < t.lanes.length := ht.1 ▸ he.1
  rw [Team.lane_onLanes hL, if_pos ((has_eligible_iff ht he.1).mpr he)]

theorem lane_onLanes_of_not_elig {t : Team} {g : Guard} {f : Nat → Lane → Lane} {L : Nat} (ht : shaped t)
    (he : ¬ elig t g L) : (t.onLanes (t.eligible g) f).lane L = t.lane L := by
  by_cases hL : L < t.nlanes
  · rw [Team.lane_onLanes (ht.1.symm ▸ hL), if_neg (mt (has_eligible_iff ht hL).mp he)]
  · have hlen : t.lanes.length ≤ L := ht.1.symm ▸ Nat.le_of_not_lt hL
    have hlen' : (t.onLanes (t.eligible g) f).lanes.length ≤ L := by
      simpa [Team.onLanes, Team.mapLanes] using hlen
    rw [Team.lane_of_ge hlen, Team.lane_of_ge hlen']

theorem withAlloc_of_allocOk {t : Team} {d : Dst} {srcs : List Src} {r : Except FaultInfo Team}
    (h : allocOk t d srcs = true) : withAlloc t d srcs r = r := if_pos h

theorem lane_advance (t : Team) (i : Instr) (L : Nat) : (t.advance i).lane L = t.lane L := rfl

/-- What every lane keeps under an update of a lane is kept under the update of the eligible lanes. -/
theorem lane_field_kept {α : Type} {t : Team} {g : Guard} {f : Nat → Lane → Lane} {x : Lane → α} (ht : shaped t)
    (hf : ∀ L l, x (f L l) = x l) (L : Nat) : x ((t.onLanes (t.eligible g) f).lane L) = x (t.lane L) := by
  by_cases he : elig t g L
  · rw [lane_onLanes_of_elig ht he, hf]
  · rw [lane_onLanes_of_not_elig ht he]

/-- An instruction that ends with an update of the eligible lanes changes nothing else of its team; where the update leaves
a lane's predicates, no predicate of the team changes. The other lanes stay as they were. -/
theorem onLanes_advance_frame {i : Instr} {t : Team} {g : Guard} {f : Nat → Lane → Lane} (ht : shaped t)
    (hf : ∀ L l, (f L l).p = l.p) (p : PredIx) :
    let t' := (t.onLanes (t.eligible g) f).advance i
    moved i t t' ∧ bare t' = bare t ∧ t'.ctl = t.ctl ∧ t'.s = t.s ∧ predsKept t t' g p ∧
      ∀ L, ¬ elig t g L → t'.lane L = t.lane L := by
  refine ⟨⟨rfl, rfl⟩, rfl, rfl, rfl, fun L q _ => ?_, fun L he => ?_⟩
  · simp only [Team.pred, lane_advance, lane_field_kept (x := Lane.p) ht hf]
  · rw [lane_advance, lane_onLanes_of_not_elig ht he]

/-! ### Drawing -/

/-- A lane whose stream steps and that takes a word into register n. -/
def drawTo (n : Nat) (w : Word) (l : Lane) : Lane := { l.setVs n [w] with rng := rngStep l.rng }

@[simp] theorem drawTo_p (n : Nat) (w : Word) (l : Lane) : (drawTo n w l).p = l.p := rfl

theorem drawTo_get_self {n : Nat} {w : Word} {l : Lane} (hn : n < l.v.length) : (drawTo n w l).v[n]? = some w := by
  simp [drawTo, Lane.setVs, hn]

theorem drawTo_get_of_ne {n k : Nat} {w : Word} {l : Lane} (hk : k ≠ n) : (drawTo n w l).v[k]? = l.v[k]? := by
  simp [drawTo, Lane.setVs, hk.symm]

theorem lane_regs_length {t : Team} {L : Nat} (ht : shaped t) (hL : L < t.nlanes) : (t.lane L).v.length = t.nvregs := by
  obtain ⟨hlen, -, -, -, hv, -⟩ := ht
  have hL' : L < t.lanes.length := hlen.symm ▸ hL
  rw [Team.lane, List.getElem?_eq_getElem hL']
  exact hv _ (List.getElem_mem hL')

/-- The team after a draw into vector register n: each eligible lane takes `out` of the output of its stepped stream. -/
def drawn (i : Instr) (t : Team) (g : Guard) (n : Nat) (out : Word → Word) : Team :=
  (t.onLanes (t.eligible g) fun L => drawTo n (out (rngOut (rngStep (t.lane L).rng)))).advance i

theorem rngOp_eq {s : State} {t : Team} {i : Instr} {g : Guard} {n : BitVec 7} {out : Word → Word}
    (hs : s.curTeam = some t) (hn : n.toNat < t.nvregs) :
    rngOp s i g (.v n) out = .next (s.setTeam (drawn i t g n.toNat out)) := by
  have ha : allocOk t (.v n) [] = true := by simp [allocOk, Dst.inAlloc, hn]
  simp only [rngOp, onTeam_of_cur hs, withAlloc_of_allocOk ha, finish_ok, Team.writeDst, Team.stepRng, onLanes_onLanes,
    rngSteps, Lane.setVs_rng]
  rfl

theorem regsKept_drawn {i : Instr} {t : Team} {g : Guard} {n : BitVec 7} {out : Word → Word} (ht : shaped t) :
    regsKept t (drawn i t g n.toNat out) g (.v n) 1 := by
  refine ⟨fun L k hk => ?_, fun k _ => rfl⟩
  rw [Team.vreg, Team.vreg, drawn, lane_advance]
  by_cases he : elig t g L
  · have hne : k ≠ n.toNat := fun h => hk ⟨n, rfl, he, by omega, by omega⟩
    rw [lane_onLanes_of_elig ht he, drawTo_get_of_ne hne]
  · rw [lane_onLanes_of_not_elig ht he]

theorem draw_drawn {i : Instr} {t : Team} {g : Guard} {n L : Nat} {out : Word → Word} (ht : shaped t)
    (hn : n < t.nvregs) (he : elig t g L) :
    (drawn i t g n out).vreg L n = out (rngOut (rngStep (t.lane L).rng)) ∧
      ((drawn i t g n out).lane L).rng = rngStep (t.lane L).rng := by
  have hlen : n < (t.lane L).v.length := (lane_regs_length ht he.1).symm ▸ hn
  rw [Team.vreg, drawn, lane_advance, lane_onLanes_of_elig ht he, drawTo_get_self hlen]
  exact ⟨rfl, rfl⟩

/-- What a drawing instruction answers: the claim's conjuncts for `.next` and `.unif` at once. -/
theorem rngOp_steps {s : State} {t : Team} {i : Instr} {g : Guard} {n : BitVec 7} {out : Word → Word}
    (hs : s.curTeam = some t) (ht : shaped t) (hn : n.toNat < t.nvregs) :
    ∃ t', rngOp s i g (.v n) out = .next (s.setTeam t') ∧ moved i t t' ∧ bare t' = bare t ∧ t'.ctl = t.ctl ∧
      regsKept t t' g (.v n) 1 ∧ predsKept t t' g 7 ∧
      (∀ L, elig t g L → t'.vreg L n.toNat = out (rngOut (rngStep (t.lane L).rng)) ∧
        (t'.lane L).rng = rngStep (t.lane L).rng) ∧
      ∀ L, L < t.nlanes → ¬ elig t g L → (t'.lane L).rng = (t.lane L).rng := by
  obtain ⟨hmoved, hbare, hctl, -, hpreds, hother⟩ := onLanes_advance_frame (i := i) (g := g)
    (f := fun L => drawTo n.toNat (out (rngOut (rngStep (t.lane L).rng)))) ht (fun _ _ => drawTo_p _ _ _) 7
  exact ⟨drawn i t g n.toNat out, rngOp_eq hs hn, hmoved, hbare, hctl, regsKept_drawn ht, hpreds,
    fun L he => draw_drawn ht hn he, fun L _ he => congrArg Lane.rng (hother L he)⟩

/-! ### Seeding -/

/-- The state that a 64-bit source sets: itself, or the fixed one for zero. -/
def seedOf (x : DWord) : DWord := if x = 0 then rngZero else x

/-- The team after its eligible lanes are seeded. -/
def seeded (s : State) (t : Team) (g : Guard) (a : Src) : Team :=
  (t.onLanes (t.eligible g) fun L l => { l with rng := seedOf (val64 s t false L false a) }).advance (.rngSeed g a)

theorem execRngSeed_eq {s : State} {t : Team} {g : Guard} {a : Src} (hs : s.curTeam = some t)
    (ha : allocOk t .none [a] = true) : execRngSeed g a s = .next (s.setTeam (seeded s t g a)) := by
  simp only [execRngSeed, onTeam_of_cur hs, withAlloc_of_allocOk ha, finish_ok, beq_iff_eq]
  rfl

theorem vreg_seeded {s : State} {t : Team} {g : Guard} {a : Src} (ht : shaped t) (L n : Nat) :
    (seeded s t g a).vreg L n = t.vreg L n := by
  have hv := lane_field_kept (g := g) (f := fun L l => { l with rng := seedOf (val64 s t false L false a) }) (x := Lane.v)
    ht (fun _ _ => rfl) L
  rw [Team.vreg, Team.vreg, seeded, lane_advance, hv]

/-- What `rng.seed` answers. -/
theorem execRngSeed_seeds {s : State} {t : Team} {g : Guard} {a : Src} (hs : s.curTeam = some t) (ht : shaped t)
    (ha : allocOk t .none [a] = true) :
    ∃ t', execRngSeed g a s = .next (s.setTeam t') ∧ moved (.rngSeed g a) t t' ∧ bare t' = bare t ∧ t'.ctl = t.ctl ∧
      (∀ L n, t'.vreg L n = t.vreg L n) ∧ t'.s = t.s ∧ predsKept t t' g 7 ∧
      (∀ L, elig t g L → (t'.lane L).rng = seedOf (val64 s t false L false a)) ∧
      ∀ L, L < t.nlanes → ¬ elig t g L → (t'.lane L).rng = (t.lane L).rng := by
  obtain ⟨hmoved, hbare, hctl, hsregs, hpreds, hother⟩ := onLanes_advance_frame (i := .rngSeed g a) (g := g)
    (f := fun L l => { l with rng := seedOf (val64 s t false L false a) }) ht (fun _ _ => rfl) 7
  refine ⟨seeded s t g a, execRngSeed_eq hs ha, hmoved, hbare, hctl, vreg_seeded ht, hsregs, hpreds,
    fun L he => ?_, fun L _ he => congrArg Lane.rng (hother L he)⟩
  rw [seeded, lane_advance, lane_onLanes_of_elig ht he]

theorem randomStreams : Sys2Proof.Claims.RandomStreams := by
  intro s t g hs ht _
  refine ⟨fun n hn => ⟨?_, ?_⟩, fun a _ ha => ?_⟩
  · simp only [exec_rngNext]
    exact rngOp_steps hs ht hn
  · simp only [exec_rngUnif]
    exact rngOp_steps hs ht hn
  · rw [exec_rngSeed]
    exact execRngSeed_seeds hs ht ha

/-! ### Exact rounding: a magnitude that the format holds -/

/-- Rounding at an exponent not above the magnitude's own drops nothing, in every mode. -/
theorem roundAt_of_le {rm : Nat} {x : Exact} {q : Int} (hq : q ≤ x.e) (hx : x.sticky = false) :
    roundAt rm x q = (x.m * 2 ^ (x.e - q).toNat, false) := by
  simp only [roundAt, splitAt, if_pos hq, hx]
  split <;> simp [b2n]

theorem mul_two_pow_ne_zero {m : Nat} (hm : m ≠ 0) (k : Nat) : m * 2 ^ k ≠ 0 :=
  Nat.mul_ne_zero hm (Nat.ne_of_gt (Nat.two_pow_pos k))

/-- A magnitude of l + 1 bits, moved up to p + 1 bits, has its top bit at p. -/
theorem log2_shifted {m p : Nat} (hm : m ≠ 0) (hp : m.log2 ≤ p) : (m * 2 ^ (p - m.log2)).log2 = p := by
  rw [Nat.log2_eq_iff (mul_two_pow_ne_zero hm _)]
  have hsum : m.log2 + (p - m.log2) = p := by omega
  constructor
  · calc 2 ^ p = 2 ^ m.log2 * 2 ^ (p - m.log2) := by rw [← Nat.pow_add, hsum]
      _ ≤ m * 2 ^ (p - m.log2) := Nat.mul_le_mul_right _ (Nat.log2_self_le hm)
  · calc m * 2 ^ (p - m.log2) < 2 ^ (m.log2 + 1) * 2 ^ (p - m.log2) :=
          Nat.mul_lt_mul_of_pos_right Nat.lt_log2_self (Nat.two_pow_pos _)
      _ = 2 ^ (p + 1) := by rw [← Nat.pow_add, Nat.add_right_comm, hsum]

/-- The pattern of n × 2^q for an n of one bit more than the fraction and a normal result. -/
theorem encode_normal {f : Fmt} {neg : Bool} {n : Nat} {q : Int} (hn : n ≠ 0) (hl : n.log2 = f.mbits)
    (hlo : f.emin ≤ q + f.mbits) :
    f.encode neg n q = f.make neg (q + f.mbits + f.bias).toNat (n % 2 ^ f.mbits) := by
  simp only [Fmt.encode, beq_iff_eq, if_neg hn, hl, if_neg (Int.not_lt.mpr hlo)]
  rw [Nat.mul_div_cancel n (Nat.two_pow_pos _)]

/-- A magnitude with no more bits than the significand, in the range of normal numbers, is rounded to itself with no flag:
its pattern has the exponent of its top bit. -/
theorem round_exact {f : Fmt} {c : FCtl} {x : Exact} (hm : x.m ≠ 0) (hx : x.sticky = false) (hbits : x.m.log2 ≤ f.mbits)
    (hlo : f.emin ≤ x.e + x.m.log2) (hhi : x.e + x.m.log2 ≤ f.emax) :
    f.round c x = ⟨f.make x.neg (x.e + x.m.log2 + f.bias).toNat (x.m * 2 ^ (f.mbits - x.m.log2) % 2 ^ f.mbits), 0⟩ := by
  have hn := mul_two_pow_ne_zero hm (f.mbits - x.m.log2)
  have hl := log2_shifted hm hbits
  have hq : quantum f.mbits (some (f.emin - f.mbits)) x.m x.e = x.e + x.m.log2 - f.mbits := by
    simp only [quantum]
    rw [if_neg (by omega)]
  have hr : roundAt c.rm x (x.e + x.m.log2 - f.mbits) = (x.m * 2 ^ (f.mbits - x.m.log2), false) := by
    rw [roundAt_of_le (by omega) hx]
    congr 3
    omega
  have htop : x.e + x.m.log2 - f.mbits + f.mbits = x.e + x.m.log2 := by omega
  have henc := encode_normal (f := f) (neg := x.neg) (q := x.e + x.m.log2 - f.mbits) hn hl (by omega)
  rw [htop] at henc
  simp only [Fmt.round, Fmt.finishRound, hq, hr, hl, htop, henc]
  simp [Int.not_lt.mpr hhi, Int.not_lt.mpr hlo]

/-! ### FP32 -/

/-- The value of a positive normal pattern of FP32. -/
theorem val_fmt32_normal {e k : Nat} (he0 : e ≠ 0) (he : e < 255) (hk : k < 2 ^ 23) :
    fmt32.val (fmt32.make false e k) = .num ⟨false, k + 2 ^ 23, (e : Int) - 150⟩ := by
  have hx : fmt32.make false e k = e * 2 ^ 23 + k := by simp [Fmt.make, b2n, fmt32]
  have hexpo : fmt32.expo (e * 2 ^ 23 + k) = e := by simp only [Fmt.expo, natField, fmt32]; omega
  have hfrac : fmt32.frac (e * 2 ^ 23 + k) = k := by simp only [Fmt.frac, natField, fmt32]; omega
  have hsign : fmt32.sign (e * 2 ^ 23 + k) = false := by
    simp only [Fmt.sign, natBit, Fmt.width, fmt32, beq_eq_false_iff_ne]; omega
  have hnotTop : (e == 2 ^ fmt32.ebits - 1) = false := by simp only [fmt32, beq_eq_false_iff_ne]; omega
  have hnotSub : (e == 0) = false := by simp only [beq_eq_false_iff_ne]; exact he0
  have hexp : (e : Int) - fmt32.bias - fmt32.mbits = e - 150 := by simp only [Fmt.bias, fmt32]; omega
  rw [hx]
  simp only [Fmt.val, Fmt.isNan, Fmt.isInf, hexpo, hfrac, hsign, hnotTop, hnotSub, hexp, Bool.false_and, Bool.false_eq_true,
    if_false]
  rfl

/-- A fraction m × 2^−24 of 24 bits, rounded to FP32: its pattern, and no flag. -/
theorem roundNum_draw {c : FCtl} {m : Nat} (hm : m ≠ 0) (hlt : m < 2 ^ 24) :
    fmt32.roundNum c ⟨false, m, -24⟩ =
      ⟨fmt32.make false (m.log2 + 103) (m * 2 ^ (23 - m.log2) - 2 ^ 23), 0⟩ := by
  have hl : m.log2 < 24 := (Nat.log2_lt hm).mpr hlt
  have htop := (Nat.log2_eq_iff (mul_two_pow_ne_zero hm _)).mp (log2_shifted hm (Nat.le_of_lt_succ hl))
  have hfrac : m * 2 ^ (23 - m.log2) % 2 ^ 23 = m * 2 ^ (23 - m.log2) - 2 ^ 23 := by omega
  have hexp : (-24 + (m.log2 : Int) + fmt32.bias).toNat = m.log2 + 103 := by simp only [Fmt.bias, fmt32]; omega
  have h := round_exact (f := fmt32) (c := c) (x := Num.exact ⟨false, m, -24⟩) hm rfl (Nat.le_of_lt_succ hl)
    (by simp only [Fmt.emin, Fmt.bias, fmt32, Num.exact]; omega)
    (by simp only [Fmt.emax, Fmt.bias, fmt32, Num.exact]; omega)
  rw [Fmt.roundNum, if_neg (by simpa using hm), h]
  simp only [Num.exact]
  rw [hexp, ← hfrac]
  rfl

theorem uniformDrawsAreExact : Sys2Proof.Claims.UniformDrawsAreExact := by
  intro w
  have hlt : w.toNat / 256 < 2 ^ 24 := by omega
  generalize w.toNat / 256 = m at hlt
  by_cases hm : m = 0
  · subst hm
    exact ⟨by decide, by decide, ⟨false, 0, -149⟩, by decide, by decide, by decide⟩
  have hl : m.log2 < 24 := (Nat.log2_lt hm).mpr hlt
  obtain ⟨hge, htop⟩ := (Nat.log2_eq_iff (mul_two_pow_ne_zero hm _)).mp (log2_shifted hm (Nat.le_of_lt_succ hl))
  intro r
  have hr : r = _ := roundNum_draw hm hlt
  rw [hr]
  refine ⟨rfl, ?_, ⟨false, m * 2 ^ (23 - m.log2), (m.log2 : Int) - 47⟩, ?_, rfl, ?_⟩
  · simp only [Fmt.one, Fmt.make, b2n, Fmt.bias, fmt32]
    omega
  · rw [val_fmt32_normal (by omega) (by omega) (by omega), Nat.sub_add_cancel hge]
    congr 2
    omega
  · have hexp : ((m.log2 : Int) - 47 + 149).toNat = m.log2 + 102 := by omega
    rw [hexp, Nat.mul_assoc, ← Nat.pow_add]
    congr 2
    omega

/-- Settles O17. The two drawing instructions and the seeding one each end in one update of the eligible lanes
(`onLanes_onLanes`); a draw has at most 24 bits, as many as the significand of FP32, so rounding it changes nothing
(`round_exact`). -/
theorem randomStreamsAndDraws : Obligations.RandomStreamsAndDraws :=
  ⟨randomStreams, uniformDrawsAreExact⟩

end Sys2Proof.RandomStreams
